-- ==== Sys2Proof/Word.lean ====
section
/-! DEFINITION. The words of the machine and their plainest arithmetic (R2 to R5): bytes, 32-bit register words,
64-bit values and the 24-bit immediate, with the sign extensions that every chapter uses. -/

namespace Sys2Proof

/-- One byte of memory. -/
abbrev Byte := BitVec 8

/-- One 32-bit register word, or one instruction word (R4, R41). -/
abbrev Word := BitVec 32

/-- A 64-bit value: an even:odd register pair (R43), a virtual address, a program counter. -/
abbrev DWord := BitVec 64

/-- The value of a pair: bits 31..0 in the even register (R43). -/
abbrev pairOf (lo hi : Word) : DWord := hi ++ lo

/-- Bits 31..0 of a 64-bit value. -/
abbrev loOf (x : DWord) : Word := x.extractLsb' 0 32

/-- Bits 63..32 of a 64-bit value. -/
abbrev hiOf (x : DWord) : Word := x.extractLsb' 32 32

end Sys2Proof
end

