-- ==== Sys2Proof/Syntax.lean ====
section
/-! DEFINITION. The instructions of the machine as data: operand forms, modifiers, and ONE inductive `Instr` with a
constructor per row of spec/opcode_table.json: the instructions of level OVB-1 (R133 to R146) and the device events
(the steps that the device, the host or a peer takes outside the instruction stream). -/

namespace Sys2Proof

/-- An operand: kind and index (R134, R136). A special register is held by its index minus 64. -/
inductive Opnd where
  /-- kind 00: vector register, or the pair or group that it names -/
  | vec (i : BitVec 8)
  /-- kind 01, index 0..63: scalar register -/
  | scl (i : BitVec 6)
  /-- kind 01, index 64..255: special register of index k + 64 -/
  | spc (k : Fin 192)
  /-- kind 10, index form 0b00: one predicate -/
  | prd (n : BitVec 3)
  /-- kind 10, index form 0b01: the predicate word -/
  | pword
  /-- kind 10, index form 0b10: the predicate pair, first then second -/
  | ppair (p q : BitVec 3)
  /-- kind 11: the 8-bit signed immediate; as a destination with index 0, discard -/
  | imm (v : BitVec 8)
  deriving DecidableEq, Repr, Inhabited

/-- Rounding modes (R68). -/
inductive RMode where
  | rne | rz | rup | rdn | rna | sr
  deriving DecidableEq, Repr, Inhabited

/-- Merge-mask policy of a prefix (R144, R145). -/
inductive MPol where
  | none | merge | zero
  deriving DecidableEq, Repr, Inhabited

/-- The prefix word (R144). -/
structure Pfx where
  srcd : Opnd
  prnd : RMode
  mpol : MPol
  mpred : BitVec 3
  deriving DecidableEq, Repr, Inhabited

/-- The fields every instruction carries: guard, index relocation, hints, marker, prefix (R133, R143, R144). -/
structure Ctl where
  guard : BitVec 3
  gneg : Bool
  ix : Bool
  hold : BitVec 2
  stall : BitVec 3
  yh : Bool
  sw : Bool
  pre : Option Pfx
  deriving DecidableEq, Repr, Inhabited

/-- Operand types of OPC 0x00 to 0x2F (R154). -/
inductive ITy where
  | i32 | n32 | i64 | n64 | i8x4
  deriving DecidableEq, Repr, Inhabited

/-- Operand types of the floating-point class (R176). -/
inductive FTy where
  | f64 | f32 | f16 | bf16 | f16x2 | bf16x2
  deriving DecidableEq, Repr, Inhabited

/-- The sixteen FMT codes (R79, R141). Code 0 is `raw`: RAW in a page, `.fmt` in a load, E3M5 in DFMT and SFMT. -/
inductive Fmt where
  | raw | f32 | f64 | f16 | bf16 | e4m3 | e5m2 | e2m1 | i8 | n8 | i16 | n16 | i32 | n32 | i64 | n64
  deriving DecidableEq, Repr, Inhabited

/-- The TYPE codes of plain loads and stores: every code but `.fmt` and `.e2m1` (R201). -/
inductive MTy where
  | f32 | f64 | f16 | bf16 | e4m3 | e5m2 | i8 | n8 | i16 | n16 | i32 | n32 | i64 | n64
  deriving DecidableEq, Repr, Inhabited

/-- Integer compare conditions (R146). -/
inductive Cond where
  | eq | ne | lt | le | gt | ge
  deriving DecidableEq, Repr, Inhabited

/-- Floating-point compare conditions (R146, R180). -/
inductive FCond where
  | eq | ne | lt | le | gt | ge | equ | neu | ltu | leu | gtu | geu | num | nan
  deriving DecidableEq, Repr, Inhabited

/-- Orders of memory accesses (R104). -/
inductive MOrd where
  | plain | rlx | acq | rel | ar | sc
  deriving DecidableEq, Repr, Inhabited

/-- Scopes (R105). -/
inductive Scope where
  | sk | lot | quad | die | pkg | pod | sys
  deriving DecidableEq, Repr, Inhabited

/-- Cache hints (R142). -/
inductive CacheHint where
  | page | once | nol1 | home
  deriving DecidableEq, Repr, Inhabited

/-- Counts of loads and stores (R201). -/
inductive Cnt where
  | x1 | x2 | x4
  deriving DecidableEq, Repr, Inhabited

inductive VoteM where
  | every | some | same | bits
  deriving DecidableEq, Repr, Inhabited

inductive ShflM where
  | lane | back | fwd | flip
  deriving DecidableEq, Repr, Inhabited

/-- Combinations of REDUX and SCAN (R199). -/
inductive RedOp where
  | add | min | max | and | or | xor
  deriving DecidableEq, Repr, Inhabited

/-- Atomic operations other than compare-and-swap (R207). -/
inductive AOp where
  | add | min | max | and | or | xor | exch | inc | dec
  deriving DecidableEq, Repr, Inhabited

/-- The operands of ATOM and ATOMS: two-source forms carry a 24-bit offset, `.cas` carries SRCC and a 14-bit offset
(R139, R200). -/
inductive AtomArg where
  | op2 (o : AOp) (b : Opnd) (off : BitVec 24)
  | cas (b c : Opnd) (off : BitVec 14)
  deriving DecidableEq, Repr, Inhabited

inductive CctlOp where
  | inv1 | wbh | invh
  deriving DecidableEq, Repr, Inhabited

/-- Modes of CPY other than `.unz`, and of CPYG (R224, R226). -/
inductive CpyMode where
  | raw | dec | enc
  deriving DecidableEq, Repr, Inhabited

/-- The modifiers of a plain or ordered load or store: type, count, order, scope, cache hint (R201, R202). -/
structure MemM where
  t : MTy
  n : Cnt
  ord : MOrd
  scope : Scope
  cache : CacheHint
  deriving DecidableEq, Repr, Inhabited

/-- The modifiers of an atomic: type, order, scope (R206). -/
structure AtomM where
  t : Fmt
  ord : MOrd
  scope : Scope
  deriving DecidableEq, Repr, Inhabited

/-- The OPX field of a copy (R221). -/
structure CpyX where
  rnd : BitVec 3
  bs : Bool
  ts : Bool
  dir : Bool
  slot : BitVec 4
  deriving DecidableEq, Repr, Inhabited

/-- The modifiers of MMA (R255); `bobj` is the offset of the barrier object divided by 16 when the MMA arrives. -/
structure MmaX where
  t : Fmt
  tile : BitVec 2
  ag : Bool
  bg : Bool
  amc : Bool
  bmc : Bool
  pkd : Bool
  km1 : BitVec 6
  bobj : Option (BitVec 16)
  deriving DecidableEq, Repr, Inhabited

/-- The second operand of FADD and its kin: a field operand, or the wide immediate of OPX[3] (R177). -/
inductive FSrc where
  | opnd (b : Opnd)
  | wide (v : BitVec 24)
  deriving DecidableEq, Repr, Inhabited

/-- What an access does, in the codes of the fault ring (R372). -/
inductive AccKind where
  | load | store | atomic | fetch | engine | peer
  deriving DecidableEq, Repr, Inhabited

/-- Who asks for a translation or waits for a completion: a skein's pending result, a store of a core, a batch's
instruction fetch, a copy, a matrix engine, a query, a landing, a queue's hub work. -/
inductive AccRef where
  | pend (core slot seq : Nat)
  | store (core seq : Nat)
  | fetch (core slot : Nat) (pc : BitVec 64)
  | ask (core slot : Nat)
  | copy (n : Nat)
  | mtx (core entry : Nat)
  | query (n : Nat)
  | land (n : Nat)
  | hub (part : Nat)
  deriving DecidableEq, Repr, Inhabited

/-- The execution barrier that is released (R31): of a skein, of a lot (one of its sixteen ids), of a vat's lots on one
quad, or of a whole vat; the last two are named by one member lot. -/
inductive BarRef where
  | skein (core slot : Nat)
  | lot (lot : Nat) (id : BitVec 4)
  | quad (lot : Nat)
  | die (lot : Nat)
  deriving DecidableEq, Repr, Inhabited

/-- Where a soft error strikes (R364, R365, R381, R390, R394). -/
inductive SoftTarget where
  /-- bits of one lane word of a vector register -/
  | vreg (core slot lane reg : Nat) (bits : BitVec 32)
  /-- bits of a scalar register -/
  | sreg (core slot reg : Nat) (bits : BitVec 32)
  /-- bits of a word of the tag of a U or A register, in half h: 0 its value or base, 1 its stride -/
  | tag (core slot reg half word : Nat) (bits : BitVec 32)
  /-- bits of a predicate word -/
  | preds (core slot lane : Nat) (bits : BitVec 7)
  /-- the operand-latch entry of a vector register of a skein slot -/
  | latch (core slot reg : Nat)
  /-- bits of a word of the scratchpad array -/
  | scratch (lot word : Nat) (bits : BitVec 32)
  /-- bits of a 16-byte sector of DRAM, of L2 or of a hub slice -/
  | sector (pa : Nat) (bits : BitVec 128)
  /-- bits of an accumulator element -/
  | elem (core tile i j : Nat) (bits : BitVec 32)
  /-- the budget LEVEL of a core -/
  | level (core : Nat)
  /-- the staging copy of a word that REGRP relocates, beyond what ECC corrects -/
  | staging (core launch : Nat)
  deriving DecidableEq, Repr, Inhabited

/-- The instructions of the machine: one constructor per row of spec/opcode_table.json, in its order. The first 150 are
the instructions of level OVB-1, which have an encoding; the rest are the device events, which have none. -/
inductive Instr where
  -- integer, logic and address (R156 to R163)
  | iadd (c : Ctl) (t : ITy) (sat : Bool) (d a b : Opnd)
  | isub (c : Ctl) (t : ITy) (sat : Bool) (d a b : Opnd)
  | iaddc (c : Ctl) (t : ITy) (ci co : BitVec 3) (d a b : Opnd)
  | imul (c : Ctl) (t : ITy) (sat : Bool) (d a b : Opnd)
  | imulh (c : Ctl) (t : ITy) (d a b : Opnd)
  | imad (c : Ctl) (t : ITy) (sat : Bool) (d a b e : Opnd)
  | imadw (c : Ctl) (t : ITy) (d a b e : Opnd)
  | imin (c : Ctl) (t : ITy) (d a b : Opnd)
  | imax (c : Ctl) (t : ITy) (d a b : Opnd)
  | iabs (c : Ctl) (t : ITy) (sat : Bool) (d a : Opnd)
  | ineg (c : Ctl) (t : ITy) (sat : Bool) (d a : Opnd)
  | and (c : Ctl) (t : ITy) (d a b : Opnd)
  | or (c : Ctl) (t : ITy) (d a b : Opnd)
  | xor (c : Ctl) (t : ITy) (d a b : Opnd)
  | not (c : Ctl) (t : ITy) (d a : Opnd)
  | bool3 (c : Ctl) (t : ITy) (tbl : BitVec 8) (d a b e : Opnd)
  | shl (c : Ctl) (t : ITy) (d a b : Opnd)
  | shr (c : Ctl) (t : ITy) (d a b : Opnd)
  | sar (c : Ctl) (t : ITy) (d a b : Opnd)
  | rotl (c : Ctl) (t : ITy) (d a b : Opnd)
  | fshf (c : Ctl) (right : Bool) (t : ITy) (d a b e : Opnd)
  | bfx (c : Ctl) (t : ITy) (d a b : Opnd)
  | bfi (c : Ctl) (d a b e : Opnd)
  | popc (c : Ctl) (t : ITy) (d a : Opnd)
  | clz (c : Ctl) (t : ITy) (d a : Opnd)
  | ctz (c : Ctl) (t : ITy) (d a : Opnd)
  | brev (c : Ctl) (t : ITy) (d a : Opnd)
  | bytep (c : Ctl) (sel : BitVec 16) (d a b : Opnd)
  | icmp (c : Ctl) (cc : Cond) (t : ITy) (d a b : Opnd)
  | iset (c : Ctl) (cc : Cond) (t : ITy) (d a b : Opnd)
  | sel (c : Ctl) (t : ITy) (neg : Bool) (d a b p : Opnd)
  | mov (c : Ctl) (t : ITy) (d a : Opnd)
  | movi (c : Ctl) (t : ITy) (v : BitVec 24) (d : Opnd)
  | movih (c : Ctl) (v : BitVec 16) (d a : Opnd)
  | lea (c : Ctl) (sh : BitVec 3) (d a b : Opnd)
  | lea64 (c : Ctl) (t : ITy) (sh : BitVec 3) (d a b : Opnd)
  | spr (c : Ctl) (t : ITy) (d a : Opnd)
  | spw (c : Ctl) (d a : Opnd)
  | vtag (c : Ctl) (d a : Opnd)
  | setix (c : Ctl) (tgt : Bool) (a : Opnd)
  -- predicates, control, fibres, launches (R165 to R174)
  | pand (c : Ctl) (na nb : Bool) (d a b : Opnd)
  | por (c : Ctl) (na nb : Bool) (d a b : Opnd)
  | pxor (c : Ctl) (na nb : Bool) (d a b : Opnd)
  | pnot (c : Ctl) (na : Bool) (d a : Opnd)
  | pmov (c : Ctl) (na : Bool) (d a : Opnd)
  | bra (c : Ctl) (off : BitVec 24)
  | brx (c : Ctl) (a : Opnd)
  | call (c : Ctl) (off : BitVec 24) (d : Opnd)
  | callx (c : Ctl) (d a : Opnd)
  | ret (c : Ctl) (a : Opnd)
  | exit (c : Ctl)
  | yield (c : Ctl)
  | nop (c : Ctl)
  | conv (c : Ctl)
  | fnew (c : Ctl) (off : BitVec 24) (d a b : Opnd)
  | elect (c : Ctl) (last : Bool) (d : Opnd)
  | regrp (c : Ctl) (a : Opnd)
  | spawn (c : Ctl) (off : BitVec 24) (d a b : Opnd)
  | joinc (c : Ctl) (off : BitVec 24) (a b : Opnd)
  | idmb (c : Ctl)
  | idme (c : Ctl)
  -- floating point, special functions, conversion (R178 to R195)
  | fadd (c : Ctl) (t : FTy) (r : RMode) (d a : Opnd) (b : FSrc)
  | fsub (c : Ctl) (t : FTy) (r : RMode) (d a : Opnd) (b : FSrc)
  | fmul (c : Ctl) (t : FTy) (r : RMode) (d a : Opnd) (b : FSrc)
  | ffma (c : Ctl) (t : FTy) (r : RMode) (d a b e : Opnd)
  | fmin (c : Ctl) (t : FTy) (d a : Opnd) (b : FSrc)
  | fmax (c : Ctl) (t : FTy) (d a : Opnd) (b : FSrc)
  | fminm (c : Ctl) (t : FTy) (d a : Opnd) (b : FSrc)
  | fmaxm (c : Ctl) (t : FTy) (d a : Opnd) (b : FSrc)
  | fcmp (c : Ctl) (cc : FCond) (t : FTy) (d a b : Opnd)
  | fset (c : Ctl) (cc : FCond) (t : FTy) (d a b : Opnd)
  | frnd (c : Ctl) (t : FTy) (r : RMode) (x : Bool) (d a : Opnd)
  | fclass (c : Ctl) (t : FTy) (d a : Opnd)
  | fscl (c : Ctl) (t : FTy) (r : RMode) (d a b : Opnd)
  | fext (c : Ctl) (sig : Bool) (t : FTy) (d a : Opnd)
  | cmul (c : Ctl) (r : RMode) (cja : Bool) (d a b : Opnd)
  | cfma (c : Ctl) (r : RMode) (cja : Bool) (d a b e : Opnd)
  | vdot2 (c : Ctl) (t : FTy) (r : RMode) (d a b e : Opnd)
  | vdot4 (c : Ctl) (ua ub sat : Bool) (d a b e : Opnd)
  | rcp (c : Ctl) (t : FTy) (r : RMode) (d a : Opnd)
  | rsq (c : Ctl) (t : FTy) (d a : Opnd)
  | sqrt (c : Ctl) (t : FTy) (r : RMode) (d a : Opnd)
  | exp2 (c : Ctl) (t : FTy) (d a : Opnd)
  | log2 (c : Ctl) (t : FTy) (d a : Opnd)
  | sinp (c : Ctl) (t : FTy) (d a : Opnd)
  | cosp (c : Ctl) (t : FTy) (d a : Opnd)
  | tanh (c : Ctl) (t : FTy) (d a : Opnd)
  | welf (c : Ctl) (r : RMode) (d a : Opnd)
  | wmrg (c : Ctl) (r : RMode) (d a : Opnd)
  | cvt (c : Ctl) (df sf : Fmt) (r : RMode) (d a : Opnd) (b : Option Opnd)
  | cvts (c : Ctl) (df sf : Fmt) (r : RMode) (d a b : Opnd)
  | srseed (c : Ctl) (a : Opnd)
  | packf (c : Ctl) (t : Fmt) (r : RMode) (hi : Bool) (d a b : Opnd)
  | unpkf (c : Ctl) (t : Fmt) (q : BitVec 2) (d a : Opnd)
  | bsinit (c : Ctl) (d a : Opnd) (w : Option (Opnd × BitVec 5))
  | bsrd (c : Ctl) (signed : Bool) (d a b : Opnd)
  -- cross-lane (R196 to R199)
  | part (c : Ctl) (a : Opnd)
  | vote (c : Ctl) (m : VoteM) (wide neg : Bool) (mask : Option (BitVec 6)) (d a : Opnd)
  | shfl (c : Ctl) (m : ShflM) (wide wrap : Bool) (pf : BitVec 3) (mask : Option (BitVec 6)) (d a b : Opnd)
  | mtch (c : Ctl) (one wide : Bool) (mask : Option (BitVec 6)) (d a : Opnd)
  | redux (c : Ctl) (o : RedOp) (t : Fmt) (mask : Option (BitVec 6)) (d a : Opnd)
  | scan (c : Ctl) (o : RedOp) (t : Fmt) (excl : Bool) (mask : Option (BitVec 6)) (d a : Opnd)
  -- memory, atomics, synchronisation (R200 to R218)
  | ld (c : Ctl) (m : MemM) (off : BitVec 24) (d a : Opnd)
  | ldFmt (c : Ctl) (cache : CacheHint) (off : BitVec 24) (d a : Opnd)
  | lds (c : Ctl) (m : MemM) (off : BitVec 24) (d a : Opnd)
  | ldd (c : Ctl) (m : MemM) (off : BitVec 24) (d a : Opnd)
  | ldc (c : Ctl) (m : MemM) (off : BitVec 24) (d a : Opnd)
  | ldl (c : Ctl) (m : MemM) (off : BitVec 24) (d a : Opnd)
  | pref (c : Ctl) (l1 : Bool) (off : BitVec 24) (a : Opnd)
  | st (c : Ctl) (m : MemM) (off : BitVec 24) (a b : Opnd)
  | sts (c : Ctl) (m : MemM) (off : BitVec 24) (a b : Opnd)
  | std (c : Ctl) (m : MemM) (off : BitVec 24) (a b : Opnd)
  | stl (c : Ctl) (m : MemM) (off : BitVec 24) (a b : Opnd)
  | atom (c : Ctl) (m : AtomM) (d a : Opnd) (x : AtomArg)
  | atoms (c : Ctl) (m : AtomM) (die : Bool) (d a : Opnd) (x : AtomArg)
  | red (c : Ctl) (o : AOp) (m : AtomM) (off : BitVec 24) (a b : Opnd)
  | fence (c : Ctl) (ord : MOrd) (scope : Scope)
  | cctl (c : Ctl) (o : CctlOp) (off : BitVec 24) (a b : Opnd)
  | mon (c : Ctl) (scratch : Bool) (off : BitVec 24) (a : Opnd)
  | mwait (c : Ctl)
  | bar (c : Ctl) (scope : Scope)
  | nbar (c : Ctl) (id : BitVec 4) (arv : Bool)
  | binit (c : Ctl) (die : Bool) (off : BitVec 24) (a b : Opnd)
  | barv (c : Ctl) (die : Bool) (off : BitVec 24) (a : Opnd)
  | bexp (c : Ctl) (die : Bool) (off : BitVec 24) (a b : Opnd)
  | bwait (c : Ctl) (die : Bool) (off : BitVec 24) (a b : Opnd)
  | btest (c : Ctl) (die : Bool) (off : BitVec 24) (d a b : Opnd)
  | tlwt (c : Ctl) (pod : Bool) (off : BitVec 24) (a b : Opnd)
  | tlrd (c : Ctl) (pod : Bool) (off : BitVec 24) (d a : Opnd)
  | tladv (c : Ctl) (pod : Bool) (off : BitVec 24) (a b : Opnd)
  -- engine commands (R220 to R233)
  | shape (c : Ctl) (slot : BitVec 4) (off : BitVec 24) (a : Opnd)
  | cpy (c : Ctl) (m : CpyMode) (x : CpyX) (a b : Opnd)
  | cpyUnz (c : Ctl) (d a b : Opnd)
  | cpyg (c : Ctl) (dec : Bool) (x : CpyX) (a b : Opnd)
  | cpym (c : Ctl) (x : CpyX) (d a b : Opnd)
  | seal (c : Ctl)
  | cpwt (c : Ctl) (a : Opnd)
  | qsrch (c : Ctl) (off : BitVec 24) (a : Opnd)
  | qstat (c : Ctl) (off : BitVec 24) (d a : Opnd)
  | land (c : Ctl) (t : Fmt) (off : BitVec 24) (a b : Opnd)
  | landf (c : Ctl) (off : BitVec 24) (a : Opnd)
  -- the matrix engine (R250 to R258)
  | mzero (c : Ctl) (int : Bool) (tile : BitVec 2)
  | mlda (c : Ctl) (int : Bool) (tile n : BitVec 2) (a b : Opnd)
  | msta (c : Ctl) (tile n : BitVec 2) (d a : Opnd)
  | mma (c : Ctl) (x : MmaX) (a b : Opnd)
  | mckpt (c : Ctl) (tile : BitVec 2) (d a : Opnd)
  | mbud (c : Ctl) (d : Opnd)
  -- traps (R175)
  | trap (c : Ctl) (n : BitVec 5)
  | tret (c : Ctl) (a : Opnd)
  | brk (c : Ctl)
  -- device events: of the skeins, the barriers and the issue slots
  | regrpShuffleDone (core launch : Nat)
  | barrierRelease (b : BarRef)
  | longLatencyReturn (core slot seq : Nat)
  | stallExpiry (core slot : Nat)
  | issueSlotSwitch (core iq : Nat)
  | releaseWaitDone (core slot : Nat)
  | allocationClear (lot : Nat)
  | carveOutHandover (core : Nat)
  | storeAck (core seq : Nat)
  | monitorTrigger (core slot : Nat)
  -- of translation and its faults
  | walkComplete (r : AccRef) (va : BitVec 64)
  | faultBufferRetry (r : AccRef) (va : BitVec 64)
  | faultRetry (part : Nat) (id : BitVec 32)
  | faultRefuse (part : Nat) (id : BitVec 32)
  | faultRetryAll (part : Nat)
  | faultReplyNone (part : Nat) (id : BitVec 32)
  | faultWatchdog (part : Nat) (id : BitVec 32)
  | waitTimeout (core slot : Nat) (pc : BitVec 64)
  | trapDeliver (core slot : Nat)
  -- of the links, the host and the peers
  | linkDown (hub : Bool)
  | completionTimeout (r : AccRef)
  | lateCompletion (r : AccRef)
  | linkRetrain (hub : Bool)
  | linkTrained (hub : Bool)
  | hostBar2Access (write : Bool) (pa : Nat) (data : List (BitVec 8))
  | windowPostedWrite (w off : Nat) (data : List (BitVec 8))
  | frameMark (w : Nat)
  | windowMisuse (w off : Nat) (write : Bool)
  -- of the streamers
  | copyStart (n : Nat)
  | copyBytesPerformed (n e : Nat)
  | copyComplete (n : Nat)
  | copyPageCheck (n : Nat) (va : BitVec 64)
  -- of the matrix engines
  | mmaStart (core : Nat)
  | mmaFirstFetch (core entry : Nat)
  | kstepCharge (core : Nat)
  | kstepComplete (core : Nat)
  | mmaArrive (core : Nat)
  | tileCommandRun (core entry : Nat)
  | budgetRefill (core : Nat)
  -- of the Woad engines and the fabric
  | queryAccept (n : Nat)
  | queryRound (n : Nat)
  | queryRestart (n : Nat)
  | landContribution (n : Nat)
  | landfReport (n : Nat)
  | podTimelineAdvance (part : Nat) (block : BitVec 64) (v : BitVec 64) (stamp : Nat)
  | fabricLost (pkg : BitVec 10)
  -- of the queues, the launches and the lots
  | queueTailWrite (q : Nat) (v : BitVec 32)
  | spawnPush (n : Nat)
  | recordAccept (q : Nat)
  | headReevaluate (q : Nat)
  | launchStart (q : Nat)
  | ageingStep (q : Nat)
  | lotDispatch (die : Nat)
  | chunkRequest (die launch : Nat)
  | lotFirstIssue (lot : Nat)
  | lotRetire (lot : Nat)
  | chunkReport (launch first : Nat)
  | launchComplete (launch : Nat)
  | mordantDecide (die : Nat)
  | drainDeadline (lot : Nat)
  | flushLot (lot : Nat)
  | saveRequest (lot : Nat)
  | saveComplete (lot : Nat)
  | resumeLot (lot : Nat)
  -- of the partitions and their command rings
  | partitionEnable (part : Nat) (v : BitVec 64)
  | partitionReset (part : Nat) (v : BitVec 64)
  | invalidateTranslations (part : Nat)
  | registerLake (part : Nat)
  | unregisterLake (part : Nat)
  | registerPodTimeline (part : Nat)
  | uploadCodeObject (part : Nat)
  | unloadCodeObject (part : Nat)
  | setBreakpoint (part : Nat)
  | clearBreakpoint (part : Nat)
  | replaceFirmware (part : Nat)
  | recalibrateStack (part : Nat)
  | fenceDie (part : Nat)
  | badCommand (part : Nat)
  -- of bring-up, observation and recovery
  | pkgWrite (v : BitVec 10)
  | pcSample (core : Nat)
  | memorySample (core : Nat)
  | schedStateRecovery (die : Nat)
  | dieFenceByDevice (die : Nat) (l2Lost : Bool)
  | snapshotPageCopy (launch page : Nat)
  | rollback (launch : Nat)
  | redundantCompare (lot k : Nat)
  | injectionFlip (part : Nat)
  | dumpWrite (part : Nat)
  | tickStop
  | moduleReset
  | registerWrite (off : Nat) (v : BitVec 64)
  | softError (t : SoftTarget)
  | instructionFetch (core slot : Nat) (pc : BitVec 64)
  | fxLinkTrained
  | selfTestComplete (dies : BitVec 8)
  deriving DecidableEq, Repr, Inhabited
end Sys2Proof
end

