-- ==== Sys2Proof/Machine/Forms.lean ====
section
/-! DEFINITION. The encoding tables: the raw fields of an instruction and its prefix (R133, R144), the codes of every
modifier, the fields that each instruction takes (`Instr.toFields`), the operand forms that each opcode accepts
(`formOf`), and the checks of R354 in their order with DETAIL (`firstCause`). The decoder, the encoder, the checks made
when an instruction issues and the trap frame all read these tables. -/

namespace Sys2Proof

/-- The raw fields of one instruction, without a prefix (R133). In three-source forms `imm` holds SRCC in bits 9..0
and IMM14 in bits 23..10. -/
structure PFields where
  resv : BitVec 6
  srcd : BitVec 10
  prnd : BitVec 3
  mpol : BitVec 2
  mpred : BitVec 3
  deriving DecidableEq, Repr, Inhabited

structure Fields where
  pfx : Option PFields
  opc : BitVec 8
  sub : BitVec 4
  guard : BitVec 3
  gneg : BitVec 1
  dst : BitVec 10
  a : BitVec 10
  b : BitVec 10
  imm : BitVec 24
  mod : BitVec 12
  ix : BitVec 1
  r1 : BitVec 4
  hold : BitVec 2
  stall : BitVec 3
  yh : BitVec 1
  r2 : BitVec 2
  sw : BitVec 1
  deriving DecidableEq, Repr, Inhabited

/-- The 96-bit instruction of some fields (R133). -/
def Fields.pack (f : Fields) : BitVec 96 :=
  f.sw ++ (f.r2 ++ (f.yh ++ (f.stall ++ (f.hold ++ (f.r1 ++ (f.ix ++ (f.mod ++ (f.imm ++ (f.b ++ (f.a ++ (f.dst ++
    (f.gneg ++ (f.guard ++ (f.sub ++ f.opc))))))))))))))

/-- The prefix word of some prefix fields (R144). -/
def PFields.pack (p : PFields) : Word :=
  p.resv ++ (p.srcd ++ (p.prnd ++ (p.mpol ++ (p.mpred ++ (0xFE : BitVec 8)))))

/-- The fields of a 96-bit instruction (R133). -/
def unpack (p : Option PFields) (x : BitVec 96) : Fields where
  pfx := p
  opc := x.extractLsb' 0 8
  sub := x.extractLsb' 8 4
  guard := x.extractLsb' 12 3
  gneg := x.extractLsb' 15 1
  dst := x.extractLsb' 16 10
  a := x.extractLsb' 26 10
  b := x.extractLsb' 36 10
  imm := x.extractLsb' 46 24
  mod := x.extractLsb' 70 12
  ix := x.extractLsb' 82 1
  r1 := x.extractLsb' 83 4
  hold := x.extractLsb' 87 2
  stall := x.extractLsb' 89 3
  yh := x.extractLsb' 92 1
  r2 := x.extractLsb' 93 2
  sw := x.extractLsb' 95 1

/-- The fields of a prefix word (R144). -/
def unpackPfx (w : Word) : PFields where
  resv := w.extractLsb' 26 6
  srcd := w.extractLsb' 16 10
  prnd := w.extractLsb' 13 3
  mpol := w.extractLsb' 11 2
  mpred := w.extractLsb' 8 3

/-! ### Codes of the modifiers -/

def Opnd.code : Opnd → BitVec 10
  | .vec i => (0 : BitVec 2) ++ i
  | .scl i => (1 : BitVec 2) ++ ((0 : BitVec 2) ++ i)
  | .spc k => (1 : BitVec 2) ++ BitVec.ofNat 8 (k.val + 64)
  | .prd n => (2 : BitVec 2) ++ ((0 : BitVec 5) ++ n)
  | .pword => (2 : BitVec 2) ++ (0x40 : BitVec 8)
  | .ppair p q => (2 : BitVec 2) ++ ((2 : BitVec 2) ++ (q ++ p))
  | .imm v => (3 : BitVec 2) ++ v

/-- The operand of a 10-bit field (R134, R136). -/
def Opnd.ofCode (x : BitVec 10) : Opnd :=
  let i := x.extractLsb' 0 8
  match (x.extractLsb' 8 2).toNat with
  | 0 => .vec i
  | 1 => if h : 64 ≤ i.toNat then .spc ⟨i.toNat - 64, by have := i.isLt; omega⟩ else .scl (i.extractLsb' 0 6)
  | 2 =>
    match (i.extractLsb' 6 2).toNat with
    | 0 => .prd (i.extractLsb' 0 3)
    | 1 => .pword
    | _ => .ppair (i.extractLsb' 0 3) (i.extractLsb' 3 3)
  | _ => .imm i

def RMode.code : RMode → BitVec 3
  | .rne => 0 | .rz => 1 | .rup => 2 | .rdn => 3 | .rna => 4 | .sr => 5

def RMode.ofCode (x : BitVec 3) : RMode :=
  match x.toNat with
  | 0 => .rne | 1 => .rz | 2 => .rup | 3 => .rdn | 4 => .rna | _ => .sr

def MPol.code : MPol → BitVec 2
  | .none => 0 | .merge => 1 | .zero => 2

def MPol.ofCode (x : BitVec 2) : MPol :=
  match x.toNat with
  | 0 => .none | 1 => .merge | _ => .zero

def Pfx.fields (p : Pfx) : PFields := ⟨0, p.srcd.code, p.prnd.code, p.mpol.code, p.mpred⟩

def Pfx.ofFields (p : PFields) : Pfx := ⟨Opnd.ofCode p.srcd, RMode.ofCode p.prnd, MPol.ofCode p.mpol, p.mpred⟩

/-- TYPE code and PK bit of an integer type (R154). -/
def ITy.code : ITy → BitVec 4
  | .i32 => 0xC | .n32 => 0xD | .i64 => 0xE | .n64 => 0xF | .i8x4 => 0x8

def ITy.pk : ITy → Bool
  | .i8x4 => true
  | _ => false

def ITy.ofCode (x : BitVec 4) : ITy :=
  match x.toNat with
  | 0xD => .n32 | 0xE => .i64 | 0xF => .n64 | 0x8 => .i8x4 | _ => .i32

def FTy.code : FTy → BitVec 4
  | .f32 => 1 | .f64 => 2 | .f16 => 3 | .bf16 => 4 | .f16x2 => 3 | .bf16x2 => 4

def FTy.pk : FTy → Bool
  | .f16x2 => true
  | .bf16x2 => true
  | _ => false

def FTy.ofCode (x : BitVec 4) (pk : Bool) : FTy :=
  match x.toNat, pk with
  | 1, _ => .f32
  | 2, _ => .f64
  | 3, false => .f16
  | 3, true => .f16x2
  | _, false => .bf16
  | _, true => .bf16x2

def Fmt.code : Fmt → BitVec 4
  | .raw => 0x0 | .f32 => 0x1 | .f64 => 0x2 | .f16 => 0x3 | .bf16 => 0x4 | .e4m3 => 0x5 | .e5m2 => 0x6 | .e2m1 => 0x7
  | .i8 => 0x8 | .n8 => 0x9 | .i16 => 0xA | .n16 => 0xB | .i32 => 0xC | .n32 => 0xD | .i64 => 0xE | .n64 => 0xF

def Fmt.ofCode (x : BitVec 4) : Fmt :=
  match x.toNat with
  | 0x0 => .raw | 0x1 => .f32 | 0x2 => .f64 | 0x3 => .f16 | 0x4 => .bf16 | 0x5 => .e4m3 | 0x6 => .e5m2 | 0x7 => .e2m1
  | 0x8 => .i8 | 0x9 => .n8 | 0xA => .i16 | 0xB => .n16 | 0xC => .i32 | 0xD => .n32 | 0xE => .i64 | _ => .n64

def MTy.fmt : MTy → Fmt
  | .f32 => .f32 | .f64 => .f64 | .f16 => .f16 | .bf16 => .bf16 | .e4m3 => .e4m3 | .e5m2 => .e5m2
  | .i8 => .i8 | .n8 => .n8 | .i16 => .i16 | .n16 => .n16 | .i32 => .i32 | .n32 => .n32 | .i64 => .i64 | .n64 => .n64

def MTy.ofFmt : Fmt → MTy
  | .f32 => .f32 | .f64 => .f64 | .f16 => .f16 | .bf16 => .bf16 | .e4m3 => .e4m3 | .e5m2 => .e5m2
  | .i8 => .i8 | .n8 => .n8 | .i16 => .i16 | .n16 => .n16 | .i32 => .i32 | .n32 => .n32 | .i64 => .i64 | .n64 => .n64
  | .raw => .n32 | .e2m1 => .n32

/-- Width in bytes of an element of a format in memory (R79); E2M1 counts as 1 here and is handled by group. -/
def Fmt.bytes : Fmt → Nat
  | .raw | .e4m3 | .e5m2 | .e2m1 | .i8 | .n8 => 1
  | .f16 | .bf16 | .i16 | .n16 => 2
  | .f32 | .i32 | .n32 => 4
  | .f64 | .i64 | .n64 => 8

def MTy.bytes (t : MTy) : Nat := t.fmt.bytes

def Cond.code : Cond → BitVec 4
  | .eq => 0 | .ne => 1 | .lt => 2 | .le => 3 | .gt => 4 | .ge => 5

def Cond.ofCode (x : BitVec 4) : Cond :=
  match x.toNat with
  | 0 => .eq | 1 => .ne | 2 => .lt | 3 => .le | 4 => .gt | _ => .ge

def FCond.code : FCond → BitVec 4
  | .eq => 0 | .ne => 1 | .lt => 2 | .le => 3 | .gt => 4 | .ge => 5 | .equ => 6 | .neu => 7 | .ltu => 8 | .leu => 9
  | .gtu => 10 | .geu => 11 | .num => 12 | .nan => 13

def FCond.ofCode (x : BitVec 4) : FCond :=
  match x.toNat with
  | 0 => .eq | 1 => .ne | 2 => .lt | 3 => .le | 4 => .gt | 5 => .ge | 6 => .equ | 7 => .neu | 8 => .ltu | 9 => .leu
  | 10 => .gtu | 11 => .geu | 12 => .num | _ => .nan

def MOrd.code : MOrd → BitVec 3
  | .plain => 0 | .rlx => 1 | .acq => 2 | .rel => 3 | .ar => 4 | .sc => 5

def MOrd.ofCode (x : BitVec 3) : MOrd :=
  match x.toNat with
  | 0 => .plain | 1 => .rlx | 2 => .acq | 3 => .rel | 4 => .ar | _ => .sc

def Scope.code : Scope → BitVec 3
  | .sk => 0 | .lot => 1 | .quad => 2 | .die => 3 | .pkg => 4 | .pod => 5 | .sys => 6

def Scope.ofCode (x : BitVec 3) : Scope :=
  match x.toNat with
  | 0 => .sk | 1 => .lot | 2 => .quad | 3 => .die | 4 => .pkg | 5 => .pod | _ => .sys

def CacheHint.code : CacheHint → BitVec 2
  | .page => 0 | .once => 1 | .nol1 => 2 | .home => 3

def CacheHint.ofCode (x : BitVec 2) : CacheHint :=
  match x.toNat with
  | 0 => .page | 1 => .once | 2 => .nol1 | _ => .home

def Cnt.code : Cnt → BitVec 4
  | .x1 => 0 | .x2 => 1 | .x4 => 2

def Cnt.ofCode (x : BitVec 4) : Cnt :=
  match x.toNat with
  | 0 => .x1 | 1 => .x2 | _ => .x4

def Cnt.num : Cnt → Nat
  | .x1 => 1 | .x2 => 2 | .x4 => 4

def VoteM.code : VoteM → BitVec 4
  | .every => 0 | .some => 1 | .same => 2 | .bits => 3

def VoteM.ofCode (x : BitVec 4) : VoteM :=
  match x.toNat with
  | 0 => .every | 1 => .some | 2 => .same | _ => .bits

def ShflM.code : ShflM → BitVec 4
  | .lane => 0 | .back => 1 | .fwd => 2 | .flip => 3

def ShflM.ofCode (x : BitVec 4) : ShflM :=
  match x.toNat with
  | 0 => .lane | 1 => .back | 2 => .fwd | _ => .flip

def RedOp.code : RedOp → BitVec 4
  | .add => 0 | .min => 1 | .max => 2 | .and => 3 | .or => 4 | .xor => 5

def RedOp.ofCode (x : BitVec 4) : RedOp :=
  match x.toNat with
  | 0 => .add | 1 => .min | 2 => .max | 3 => .and | 4 => .or | _ => .xor

def AOp.code : AOp → BitVec 4
  | .add => 0 | .min => 1 | .max => 2 | .and => 3 | .or => 4 | .xor => 5 | .exch => 6 | .inc => 8 | .dec => 9

def AOp.ofCode (x : BitVec 4) : AOp :=
  match x.toNat with
  | 0 => .add | 1 => .min | 2 => .max | 3 => .and | 4 => .or | 5 => .xor | 6 => .exch | 8 => .inc | _ => .dec

def CctlOp.code : CctlOp → BitVec 4
  | .inv1 => 0 | .wbh => 1 | .invh => 2

def CctlOp.ofCode (x : BitVec 4) : CctlOp :=
  match x.toNat with
  | 0 => .inv1 | 1 => .wbh | _ => .invh

def CpyMode.code : CpyMode → BitVec 4
  | .raw => 0 | .dec => 1 | .enc => 2

def CpyMode.ofCode (x : BitVec 4) : CpyMode :=
  match x.toNat with
  | 0 => .raw | 1 => .dec | _ => .enc

/-- The OPX word of a copy (R221). -/
def CpyX.code (x : CpyX) : BitVec 12 :=
  (0 : BitVec 2) ++ (x.rnd ++ (BitVec.ofBool x.bs ++ (BitVec.ofBool x.ts ++ (BitVec.ofBool x.dir ++ x.slot))))

def CpyX.ofCode (m : BitVec 12) : CpyX :=
  ⟨m.extractLsb' 7 3, m.getLsbD 6, m.getLsbD 5, m.getLsbD 4, m.extractLsb' 0 4⟩

/-- The MOD word of MMA (R255). -/
def MmaX.mod (x : MmaX) : BitVec 12 :=
  x.t.code ++ ((0 : BitVec 1) ++ (BitVec.ofBool x.pkd ++ (BitVec.ofBool x.bmc ++ (BitVec.ofBool x.amc ++
    (BitVec.ofBool x.bg ++ (BitVec.ofBool x.ag ++ x.tile))))))

/-- The IMM24 of MMA (R255). -/
def MmaX.imm (x : MmaX) : BitVec 24 :=
  match x.bobj with
  | none => (0 : BitVec 18) ++ x.km1
  | some o => o ++ ((1 : BitVec 1) ++ ((0 : BitVec 1) ++ x.km1))

def MmaX.ofCode (m : BitVec 12) (i : BitVec 24) : MmaX where
  t := Fmt.ofCode (m.extractLsb' 8 4)
  tile := m.extractLsb' 0 2
  ag := m.getLsbD 2
  bg := m.getLsbD 3
  amc := m.getLsbD 4
  bmc := m.getLsbD 5
  pkd := m.getLsbD 6
  km1 := i.extractLsb' 0 6
  bobj := if i.getLsbD 7 then some (i.extractLsb' 8 16) else none

/-- A member-mask immediate (R196). -/
def maskImm : Option (BitVec 6) → BitVec 24
  | none => 0
  | some i => (0 : BitVec 17) ++ ((1 : BitVec 1) ++ i)

def maskOf (i : BitVec 24) : Option (BitVec 6) := if i.getLsbD 6 then some (i.extractLsb' 0 6) else none

/-! ### MOD layouts (R140) -/

/-- OPC 0x00 to 0x2F: TYPE, SAT, PK, OPX[5..0]. -/
def modI (t : ITy) (sat : Bool) (opx : BitVec 6) : BitVec 12 :=
  t.code ++ (BitVec.ofBool sat ++ (BitVec.ofBool t.pk ++ opx))

/-- OPC 0x50 to 0x7F but CVT and CVTS: TYPE, RND, PK, OPX[3..0]. -/
def modF (ty : BitVec 4) (r : BitVec 3) (pk : Bool) (opx : BitVec 4) : BitVec 12 :=
  ty ++ (r ++ (BitVec.ofBool pk ++ opx))

/-- CVT and CVTS: DFMT, RND, SFMT, PK. -/
def modC (df sf : Fmt) (r : RMode) (pk : Bool) : BitVec 12 :=
  df.code ++ (r.code ++ (sf.code ++ BitVec.ofBool pk))

/-- OPC 0x80 to 0x8F and 0xD0 to 0xDF: TYPE, OPX[7..0]. -/
def modX (ty : BitVec 4) (opx : BitVec 8) : BitVec 12 := ty ++ opx

/-- OPC 0x90 to 0xBF: TYPE, ORDER, SCOPE, CACHE. -/
def modM (ty : BitVec 4) (o : MOrd) (s : Scope) (k : BitVec 2) : BitVec 12 :=
  ty ++ (o.code ++ (s.code ++ k))

def MemM.mod (m : MemM) : BitVec 12 := modM m.t.fmt.code m.ord m.scope m.cache.code

def AtomM.mod (m : AtomM) (k : BitVec 2) : BitVec 12 := modM m.t.code m.ord m.scope k

/-- TYPE of a register or register-pair form: `0xC` or `0xE` (R198). -/
def wideCode (w : Bool) : BitVec 4 := if w then 0xE else 0xC

/-- The fields of an instruction from its control fields and operand fields. -/
def mkF (c : Ctl) (opc : BitVec 8) (sub : BitVec 4) (mod : BitVec 12) (d a b : BitVec 10) (imm : BitVec 24) : Fields where
  pfx := c.pre.map Pfx.fields
  opc := opc
  sub := sub
  guard := c.guard
  gneg := BitVec.ofBool c.gneg
  dst := d
  a := a
  b := b
  imm := imm
  mod := mod
  ix := BitVec.ofBool c.ix
  r1 := 0
  hold := c.hold
  stall := c.stall
  yh := BitVec.ofBool c.yh
  r2 := 0
  sw := BitVec.ofBool c.sw

/-- The control fields of some fields. -/
def Ctl.ofFields (f : Fields) : Ctl where
  guard := f.guard
  gneg := f.gneg == 1
  ix := f.ix == 1
  hold := f.hold
  stall := f.stall
  yh := f.yh == 1
  sw := f.sw == 1
  pre := f.pfx.map Pfx.ofFields

/-- The immediate field of a three-source form: SRCC in bits 9..0, IMM14 above (R133). -/
def imm3 (e : Opnd) (i : BitVec 14) : BitVec 24 := i ++ e.code

/-- The SRCB field and IMM24 of a floating-point second operand, with OPX[3] (R177). -/
def FSrc.b : FSrc → BitVec 10
  | .opnd o => o.code
  | .wide _ => 0

def FSrc.imm : FSrc → BitVec 24
  | .opnd _ => 0
  | .wide v => v

def FSrc.opx : FSrc → BitVec 4
  | .opnd _ => 0
  | .wide _ => 8

def AtomArg.sub : AtomArg → BitVec 4
  | .op2 o _ _ => o.code
  | .cas .. => 7

def AtomArg.b : AtomArg → BitVec 10
  | .op2 _ b _ => b.code
  | .cas b _ _ => b.code

def AtomArg.imm : AtomArg → BitVec 24
  | .op2 _ _ off => off
  | .cas _ e off => imm3 e off

/-! ### The fields of every instruction (R146 and the operand tables of the instruction chapters) -/

/-- The fields of an instruction of level OVB-1; none for a device event, which has no encoding. -/
def Instr.toFields : Instr → Option Fields
  | .iadd c t sat d a b => some (mkF c 0x00 0 (modI t sat 0) d.code a.code b.code 0)
  | .isub c t sat d a b => some (mkF c 0x01 0 (modI t sat 0) d.code a.code b.code 0)
  | .iaddc c t ci co d a b => some (mkF c 0x02 0 (modI t false (co ++ ci)) d.code a.code b.code 0)
  | .imul c t sat d a b => some (mkF c 0x03 0 (modI t sat 0) d.code a.code b.code 0)
  | .imulh c t d a b => some (mkF c 0x04 0 (modI t false 0) d.code a.code b.code 0)
  | .imad c t sat d a b e => some (mkF c 0x05 0 (modI t sat 0) d.code a.code b.code (imm3 e 0))
  | .imadw c t d a b e => some (mkF c 0x06 0 (modI t false 0) d.code a.code b.code (imm3 e 0))
  | .imin c t d a b => some (mkF c 0x07 0 (modI t false 0) d.code a.code b.code 0)
  | .imax c t d a b => some (mkF c 0x08 0 (modI t false 0) d.code a.code b.code 0)
  | .iabs c t sat d a => some (mkF c 0x09 0 (modI t sat 0) d.code a.code 0 0)
  | .ineg c t sat d a => some (mkF c 0x0A 0 (modI t sat 0) d.code a.code 0 0)
  | .and c t d a b => some (mkF c 0x10 0 (modI t false 0) d.code a.code b.code 0)
  | .or c t d a b => some (mkF c 0x11 0 (modI t false 0) d.code a.code b.code 0)
  | .xor c t d a b => some (mkF c 0x12 0 (modI t false 0) d.code a.code b.code 0)
  | .not c t d a => some (mkF c 0x13 0 (modI t false 0) d.code a.code 0 0)
  | .bool3 c t tbl d a b e => some (mkF c 0x14 0 (modI t false 0) d.code a.code b.code (imm3 e (tbl.zeroExtend 14)))
  | .shl c t d a b => some (mkF c 0x15 0 (modI t false 0) d.code a.code b.code 0)
  | .shr c t d a b => some (mkF c 0x16 0 (modI t false 0) d.code a.code b.code 0)
  | .sar c t d a b => some (mkF c 0x17 0 (modI t false 0) d.code a.code b.code 0)
  | .rotl c t d a b => some (mkF c 0x18 0 (modI t false 0) d.code a.code b.code 0)
  | .fshf c right t d a b e => some (mkF c 0x19 (if right then 1 else 0) (modI t false 0) d.code a.code b.code (imm3 e 0))
  | .bfx c t d a b => some (mkF c 0x1A 0 (modI t false 0) d.code a.code b.code 0)
  | .bfi c d a b e => some (mkF c 0x1B 0 (modI .i32 false 0) d.code a.code b.code (imm3 e 0))
  | .popc c t d a => some (mkF c 0x1C 0 (modI t false 0) d.code a.code 0 0)
  | .clz c t d a => some (mkF c 0x1D 0 (modI t false 0) d.code a.code 0 0)
  | .ctz c t d a => some (mkF c 0x1E 0 (modI t false 0) d.code a.code 0 0)
  | .brev c t d a => some (mkF c 0x1F 0 (modI t false 0) d.code a.code 0 0)
  | .bytep c perm d a b => some (mkF c 0x20 0 (modI .i32 false 0) d.code a.code b.code (perm.zeroExtend 24))
  | .icmp c cc t d a b => some (mkF c 0x21 cc.code (modI t false 0) d.code a.code b.code 0)
  | .iset c cc t d a b => some (mkF c 0x22 cc.code (modI t false 0) d.code a.code b.code 0)
  | .sel c t neg d a b p => some (mkF c 0x23 0 (modI t false (if neg then 1 else 0)) d.code a.code b.code (imm3 p 0))
  | .mov c t d a => some (mkF c 0x24 0 (modI t false 0) d.code a.code 0 0)
  | .movi c t v d => some (mkF c 0x25 0 (modI t false 0) d.code 0 0 v)
  | .movih c v d a => some (mkF c 0x26 0 (modI .i32 false 0) d.code a.code 0 (v.zeroExtend 24))
  | .lea c sh d a b => some (mkF c 0x27 0 (modI .i32 false 0) d.code a.code b.code (sh.zeroExtend 24))
  | .lea64 c t sh d a b => some (mkF c 0x28 0 (modI t false 0) d.code a.code b.code (sh.zeroExtend 24))
  | .spr c t d a => some (mkF c 0x29 0 (modI t false 0) d.code a.code 0 0)
  | .spw c d a => some (mkF c 0x2A 0 (modI .i32 false 0) d.code a.code 0 0)
  | .vtag c d a => some (mkF c 0x2B 0 (modI .i32 false 0) d.code a.code 0 0)
  | .setix c tgt a => some (mkF c 0x2C 0 (modI .i32 false (if tgt then 1 else 0)) 0 a.code 0 0)
  | .pand c na nb d a b => some (mkF c 0x30 0 ((0 : BitVec 10) ++ (BitVec.ofBool nb ++ BitVec.ofBool na)) d.code a.code b.code 0)
  | .por c na nb d a b => some (mkF c 0x31 0 ((0 : BitVec 10) ++ (BitVec.ofBool nb ++ BitVec.ofBool na)) d.code a.code b.code 0)
  | .pxor c na nb d a b => some (mkF c 0x32 0 ((0 : BitVec 10) ++ (BitVec.ofBool nb ++ BitVec.ofBool na)) d.code a.code b.code 0)
  | .pnot c na d a => some (mkF c 0x33 0 (if na then 1 else 0) d.code a.code 0 0)
  | .pmov c na d a => some (mkF c 0x34 0 (if na then 1 else 0) d.code a.code 0 0)
  | .bra c off => some (mkF c 0x36 0 0 0 0 0 off)
  | .brx c a => some (mkF c 0x37 0 0 0 a.code 0 0)
  | .call c off d => some (mkF c 0x38 0 0 d.code 0 0 off)
  | .callx c d a => some (mkF c 0x39 0 0 d.code a.code 0 0)
  | .ret c a => some (mkF c 0x3A 0 0 0 a.code 0 0)
  | .exit c => some (mkF c 0x3B 0 0 0 0 0 0)
  | .yield c => some (mkF c 0x3C 0 0 0 0 0 0)
  | .nop c => some (mkF c 0x3D 0 0 0 0 0 0)
  | .conv c => some (mkF c 0x3E 0 0 0 0 0 0)
  | .fnew c off d a b => some (mkF c 0x40 0 0 d.code a.code b.code off)
  | .elect c last d => some (mkF c 0x41 0 (if last then 1 else 0) d.code 0 0 0)
  | .regrp c a => some (mkF c 0x42 0 0 0 a.code 0 0)
  | .spawn c off d a b => some (mkF c 0x43 0 0 d.code a.code b.code off)
  | .joinc c off a b => some (mkF c 0x44 0 0 0 a.code b.code off)
  | .idmb c => some (mkF c 0x45 0 0 0 0 0 0)
  | .idme c => some (mkF c 0x46 0 0 0 0 0 0)
  | .fadd c t r d a b => some (mkF c 0x50 0 (modF t.code r.code t.pk b.opx) d.code a.code b.b b.imm)
  | .fsub c t r d a b => some (mkF c 0x51 0 (modF t.code r.code t.pk b.opx) d.code a.code b.b b.imm)
  | .fmul c t r d a b => some (mkF c 0x52 0 (modF t.code r.code t.pk b.opx) d.code a.code b.b b.imm)
  | .ffma c t r d a b e => some (mkF c 0x53 0 (modF t.code r.code t.pk 0) d.code a.code b.code (imm3 e 0))
  | .fmin c t d a b => some (mkF c 0x54 0 (modF t.code 0 t.pk b.opx) d.code a.code b.b b.imm)
  | .fmax c t d a b => some (mkF c 0x55 0 (modF t.code 0 t.pk b.opx) d.code a.code b.b b.imm)
  | .fminm c t d a b => some (mkF c 0x56 0 (modF t.code 0 t.pk b.opx) d.code a.code b.b b.imm)
  | .fmaxm c t d a b => some (mkF c 0x57 0 (modF t.code 0 t.pk b.opx) d.code a.code b.b b.imm)
  | .fcmp c cc t d a b => some (mkF c 0x58 cc.code (modF t.code 0 t.pk 0) d.code a.code b.code 0)
  | .fset c cc t d a b => some (mkF c 0x59 cc.code (modF t.code 0 t.pk 0) d.code a.code b.code 0)
  | .frnd c t r x d a => some (mkF c 0x5A 0 (modF t.code r.code t.pk (if x then 1 else 0)) d.code a.code 0 0)
  | .fclass c t d a => some (mkF c 0x5B 0 (modF t.code 0 t.pk 0) d.code a.code 0 0)
  | .fscl c t r d a b => some (mkF c 0x5C 0 (modF t.code r.code t.pk 0) d.code a.code b.code 0)
  | .fext c sig t d a => some (mkF c 0x5D (if sig then 1 else 0) (modF t.code 0 t.pk 0) d.code a.code 0 0)
  | .cmul c r cja d a b => some (mkF c 0x60 0 (modF 1 r.code false (if cja then 1 else 0)) d.code a.code b.code 0)
  | .cfma c r cja d a b e => some (mkF c 0x61 0 (modF 1 r.code false (if cja then 1 else 0)) d.code a.code b.code (imm3 e 0))
  | .vdot2 c t r d a b e => some (mkF c 0x62 0 (modF t.code r.code t.pk 0) d.code a.code b.code (imm3 e 0))
  | .vdot4 c ua ub sat d a b e => some (mkF c 0x63 0 (modF 8 0 true ((0 : BitVec 1) ++ (BitVec.ofBool sat ++ (BitVec.ofBool ub ++ BitVec.ofBool ua)))) d.code a.code b.code (imm3 e 0))
  | .rcp c t r d a => some (mkF c 0x68 0 (modF t.code r.code t.pk 0) d.code a.code 0 0)
  | .rsq c t d a => some (mkF c 0x69 0 (modF t.code 0 t.pk 0) d.code a.code 0 0)
  | .sqrt c t r d a => some (mkF c 0x6A 0 (modF t.code r.code t.pk 0) d.code a.code 0 0)
  | .exp2 c t d a => some (mkF c 0x6B 0 (modF t.code 0 t.pk 0) d.code a.code 0 0)
  | .log2 c t d a => some (mkF c 0x6C 0 (modF t.code 0 t.pk 0) d.code a.code 0 0)
  | .sinp c t d a => some (mkF c 0x6D 0 (modF t.code 0 t.pk 0) d.code a.code 0 0)
  | .cosp c t d a => some (mkF c 0x6E 0 (modF t.code 0 t.pk 0) d.code a.code 0 0)
  | .tanh c t d a => some (mkF c 0x6F 0 (modF t.code 0 t.pk 0) d.code a.code 0 0)
  | .welf c r d a => some (mkF c 0x70 0 (modF 1 r.code false 0) d.code a.code 0 0)
  | .wmrg c r d a => some (mkF c 0x71 0 (modF 1 r.code false 0) d.code a.code 0 0)
  | .cvt c df sf r d a b =>
    some (mkF c 0x78 0 (modC df sf r b.isSome) d.code a.code (match b with | none => 0 | some b => b.code) 0)
  | .cvts c df sf r d a b => some (mkF c 0x79 0 (modC df sf r false) d.code a.code b.code 0)
  | .srseed c a => some (mkF c 0x7A 0 0 0 a.code 0 0)
  | .packf c t r hi d a b => some (mkF c 0x7B 0 (modF t.code r.code false (if hi then 1 else 0)) d.code a.code b.code 0)
  | .unpkf c t q d a => some (mkF c 0x7C 0 (modF t.code 0 (t == .f16 || t == .bf16) (q.zeroExtend 4)) d.code a.code 0 0)
  | .bsinit c d a w =>
    match w with
    | none => some (mkF c 0x7D 0 (modF 0xD 0 false 1) d.code a.code 0 0)
    | some (b, cur) => some (mkF c 0x7D 0 (modF 0xD 0 false 0) d.code a.code b.code (cur.zeroExtend 24))
  | .bsrd c signed d a b => some (mkF c 0x7E 0 (modF (if signed then 0xC else 0xD) 0 false 0) d.code a.code b.code 0)
  | .part c a => some (mkF c 0x80 0 0 0 a.code 0 0)
  | .vote c m wide neg mask d a => some (mkF c 0x81 m.code (modX (wideCode wide) (if neg then 1 else 0)) d.code a.code 0 (maskImm mask))
  | .shfl c m wide wrap pf mask d a b => some (mkF c 0x82 m.code (modX (wideCode wide) ((0 : BitVec 4) ++ (BitVec.ofBool wrap ++ pf))) d.code a.code b.code (maskImm mask))
  | .mtch c one wide mask d a => some (mkF c 0x83 (if one then 1 else 0) (modX (wideCode wide) 0) d.code a.code 0 (maskImm mask))
  | .redux c o t mask d a => some (mkF c 0x84 o.code (modX t.code 0) d.code a.code 0 (maskImm mask))
  | .scan c o t excl mask d a => some (mkF c 0x85 o.code (modX t.code (if excl then 1 else 0)) d.code a.code 0 (maskImm mask))
  | .ld c m off d a => some (mkF c 0x90 m.n.code m.mod d.code a.code 0 off)
  | .ldFmt c cache off d a => some (mkF c 0x90 0 (modM 0 .plain .sk cache.code) d.code a.code 0 off)
  | .lds c m off d a => some (mkF c 0x91 m.n.code m.mod d.code a.code 0 off)
  | .ldd c m off d a => some (mkF c 0x92 m.n.code m.mod d.code a.code 0 off)
  | .ldc c m off d a => some (mkF c 0x93 m.n.code m.mod d.code a.code 0 off)
  | .ldl c m off d a => some (mkF c 0x94 m.n.code m.mod d.code a.code 0 off)
  | .pref c l1 off a => some (mkF c 0x95 (if l1 then 1 else 0) 0 0 a.code 0 off)
  | .st c m off a b => some (mkF c 0x98 m.n.code m.mod 0 a.code b.code off)
  | .sts c m off a b => some (mkF c 0x99 m.n.code m.mod 0 a.code b.code off)
  | .std c m off a b => some (mkF c 0x9A m.n.code m.mod 0 a.code b.code off)
  | .stl c m off a b => some (mkF c 0x9C m.n.code m.mod 0 a.code b.code off)
  | .atom c m d a x => some (mkF c 0xA0 x.sub (m.mod 0) d.code a.code x.b x.imm)
  | .atoms c m die d a x => some (mkF c 0xA1 x.sub (m.mod (if die then 1 else 0)) d.code a.code x.b x.imm)
  | .red c o m off a b => some (mkF c 0xA2 o.code (m.mod 0) 0 a.code b.code off)
  | .fence c ord scope => some (mkF c 0xA8 0 (modM 0 ord scope 0) 0 0 0 0)
  | .cctl c o off a b => some (mkF c 0xA9 o.code 0 0 a.code b.code off)
  | .mon c scratch off a => some (mkF c 0xAA 0 (modM 0 .plain .sk (if scratch then 1 else 0)) 0 a.code 0 off)
  | .mwait c => some (mkF c 0xAB 0 0 0 0 0 0)
  | .bar c scope => some (mkF c 0xB0 0 (modM 0 .plain scope 0) 0 0 0 0)
  | .nbar c id arv => some (mkF c 0xB1 0 (modM 0 .plain .lot 0) 0 0 0 ((0 : BitVec 19) ++ (BitVec.ofBool arv ++ id)))
  | .binit c die off a b => some (mkF c 0xB2 0 (modM 0 .plain .sk (if die then 1 else 0)) 0 a.code b.code off)
  | .barv c die off a => some (mkF c 0xB3 0 (modM 0 .plain .sk (if die then 1 else 0)) 0 a.code 0 off)
  | .bexp c die off a b => some (mkF c 0xB4 0 (modM 0 .plain .sk (if die then 1 else 0)) 0 a.code b.code off)
  | .bwait c die off a b => some (mkF c 0xB5 0 (modM 0 .plain .sk (if die then 1 else 0)) 0 a.code b.code off)
  | .btest c die off d a b => some (mkF c 0xB6 0 (modM 0 .plain .sk (if die then 1 else 0)) d.code a.code b.code off)
  | .tlwt c pod off a b => some (mkF c 0xB8 0 (modM 0 .plain (if pod then .pod else .pkg) 0) 0 a.code b.code off)
  | .tlrd c pod off d a => some (mkF c 0xB9 0 (modM 0 .plain (if pod then .pod else .pkg) 0) d.code a.code 0 off)
  | .tladv c pod off a b => some (mkF c 0xBA 0 (modM 0 .plain (if pod then .pod else .pkg) 0) 0 a.code b.code off)
  | .shape c slot off a => some (mkF c 0xC0 0 (slot.zeroExtend 12) 0 a.code 0 off)
  | .cpy c m x a b => some (mkF c 0xC1 m.code x.code 0 a.code b.code 0)
  | .cpyUnz c d a b => some (mkF c 0xC1 3 0 d.code a.code b.code 0)
  | .cpyg c dec x a b => some (mkF c 0xC2 (if dec then 1 else 0) x.code 0 a.code b.code 0)
  | .cpym c x d a b => some (mkF c 0xC3 0 x.code d.code a.code b.code 0)
  | .seal c => some (mkF c 0xC4 0 0 0 0 0 0)
  | .cpwt c a => some (mkF c 0xC5 0 0 0 a.code 0 0)
  | .qsrch c off a => some (mkF c 0xC8 0 0 0 a.code 0 off)
  | .qstat c off d a => some (mkF c 0xC9 0 0 d.code a.code 0 off)
  | .land c t off a b => some (mkF c 0xCA 0 (t.code ++ (0 : BitVec 8)) 0 a.code b.code off)
  | .landf c off a => some (mkF c 0xCB 0 0 0 a.code 0 off)
  | .mzero c int tile => some (mkF c 0xD0 0 (modX (if int then 0xC else 1) (tile.zeroExtend 8)) 0 0 0 0)
  | .mlda c int tile n a b => some (mkF c 0xD1 0 (modX (if int then 0xC else 1) ((0 : BitVec 4) ++ (n ++ tile))) 0 a.code b.code 0)
  | .msta c tile n d a => some (mkF c 0xD2 0 (modX 0 ((0 : BitVec 4) ++ (n ++ tile))) d.code a.code 0 0)
  | .mma c x a b => some (mkF c 0xD3 0 x.mod 0 a.code b.code x.imm)
  | .mckpt c tile d a => some (mkF c 0xD4 0 (modX 0 (tile.zeroExtend 8)) d.code a.code 0 0)
  | .mbud c d => some (mkF c 0xD5 0 0 d.code 0 0 0)
  | .trap c n => some (mkF c 0xE0 0 0 0 0 0 (n.zeroExtend 24))
  | .tret c a => some (mkF c 0xE1 0 0 0 a.code 0 0)
  | .brk c => some (mkF c 0xE2 0 0 0 0 0 0)
  | _ => none

/-! ### Operand forms (R134 to R140 and the operand tables of the instruction chapters) -/

/-- What an operand field of a form accepts. `grp` is the number that the register base must be a multiple of and
`span` how many registers it names (R43, R201, R251). With nothing accepted, the field is unused and must be zero. -/
structure OForm where
  vec : Bool := false
  scl : Bool := false
  spc : Bool := false
  prd : Bool := false
  pword : Bool := false
  ppair : Bool := false
  imm : Bool := false
  disc : Bool := false
  grp : Nat := 1
  span : Nat := 1
  deriving DecidableEq, Repr, Inhabited

/-- The rounding modes that a form accepts (R68, R145, R176). -/
inductive RndForm where
  /-- names no rounding mode -/
  | silent
  /-- accepts RNE only -/
  | rneOnly
  /-- RNE to RNA, and SR when the flag holds -/
  | modes (sr : Bool)
  deriving DecidableEq, Repr, Inhabited

/-- What one opcode accepts, for given SUB and MOD. `immBits` are the bits of the 24-bit immediate field that the form
uses. The lists hold further checks: the DETAIL of the field (R350) and whether the field is right. -/
structure Form where
  subOk : Bool := true
  dst : OForm := {}
  a : OForm := {}
  b : OForm := {}
  c : Option OForm := none
  immBits : BitVec 24 := 0
  resv : List (Nat × Bool) := []
  kinds : List (Nat × Bool) := []
  mods : List (Nat × Bool) := []
  specials : List (Nat × Bool) := []
  vector : Bool := false
  rnd : RndForm := .silent
  always : Bool := false
  deriving DecidableEq, Repr, Inhabited

def OForm.unused (o : OForm) : Bool :=
  !(o.vec || o.scl || o.spc || o.prd || o.pword || o.ppair || o.imm || o.disc)

/-- A form with n consecutive registers on a multiple of n. -/
def OForm.group (o : OForm) (n : Nat) : OForm := { o with grp := n, span := n }

/-- A pair when the flag holds (R43). -/
def OForm.pairIf (o : OForm) (p : Bool) : OForm := if p then o.group 2 else o

/-- The usual destination: vector, scalar or discard. -/
def oDst : OForm := { vec := true, scl := true, disc := true }
/-- The usual source: vector, scalar or immediate. -/
def oSrc : OForm := { vec := true, scl := true, imm := true }
/-- Vector or scalar. -/
def oVS : OForm := { vec := true, scl := true }
def oV : OForm := { vec := true }
def oP : OForm := { prd := true }
def oPW : OForm := { prd := true, pword := true }
/-- A base pair, vector or scalar (R200). -/
def oBase : OForm := oVS.group 2

/-- The index form of a raw operand: none for kinds other than 10 (R136). -/
def predForm (x : BitVec 10) : Option Nat :=
  if x.extractLsb' 8 2 = 2 then some (x.extractLsb' 6 2).toNat else none

/-- Whether a form is three-source (R139): the immediate field then holds SRCC and IMM14. -/
def isThree (opc : BitVec 8) (sub : BitVec 4) : Bool :=
  match opc.toNat with
  | 0x05 | 0x06 | 0x14 | 0x19 | 0x1B | 0x23 | 0x53 | 0x61 | 0x62 | 0x63 => true
  | 0xA0 | 0xA1 => sub == 7
  | _ => false

/-- OPC 0x00 to 0x2F: checks of TYPE, SAT, PK and OPX against what the instruction accepts (R140, R154). -/
def intForm (f : Fields) (types : List ITy) (sat : Bool) (opx : BitVec 6) (form : Form) : Form :=
  let ty := f.mod.extractLsb' 8 4
  let pk := f.mod.getLsbD 6
  { form with
    resv := (70, (f.mod.extractLsb' 0 6 &&& ~~~opx) == 0) :: form.resv
    mods := [(76, (types.all (fun t => t.code != ty) || pk == (ty == 8)) && types.any (fun t => t.pk == pk)), (77, sat || !f.mod.getLsbD 7),
             (78, types.any (fun t => t.code == ty))] ++ form.mods }

/-- Whether TYPE names a 64-bit integer (R154). -/
def wide64 (f : Fields) : Bool := f.mod.extractLsb' 8 4 == 0xE || f.mod.extractLsb' 8 4 == 0xF

/-- OPC 0x50 to 0x7F but CVT and CVTS: checks of TYPE, PK, RND and OPX (R140, R176). -/
def fpForm (f : Fields) (types : List (BitVec 4 × Bool)) (opx : BitVec 4) (form : Form) : Form :=
  let ty := f.mod.extractLsb' 8 4
  let r := (f.mod.extractLsb' 5 3).toNat
  { form with
    resv := (70, (f.mod.extractLsb' 0 4 &&& ~~~opx) == 0) :: form.resv
    mods := [(74, (types.all (fun t => t.1 != ty) || types.contains (ty, f.mod.getLsbD 4)) &&
               types.any (fun t => t.2 == f.mod.getLsbD 4)),
             (75, match form.rnd with
               | .silent => r == 0
               | .rneOnly => r == 0
               | .modes sr => r ≤ 4 || (sr && r == 5)),
             (78, types.any (fun t => t.1 == ty))] ++ form.mods }

/-- The rows of R176 that most arithmetic accepts, and those without the packed ones. -/
def fpAll : List (BitVec 4 × Bool) := [(2, false), (1, false), (3, false), (4, false), (3, true), (4, true)]
def fpOne : List (BitVec 4 × Bool) := [(2, false), (1, false), (3, false), (4, false)]
def fpNo64 : List (BitVec 4 × Bool) := [(1, false), (3, false), (4, false)]

def isF64 (f : Fields) : Bool := f.mod.extractLsb' 8 4 == 2

/-- The second operand of FADD and its kin: OPX[3] selects the wide immediate, under `.f32` and `.f64` only (R177). -/
def wideForm (f : Fields) (form : Form) : Form :=
  if f.mod.getLsbD 3 then
    { form with immBits := 0xFFFFFF, mods := (70, f.mod.extractLsb' 8 4 == 1 || f.mod.extractLsb' 8 4 == 2) :: form.mods }
  else { form with b := oSrc.pairIf (isF64 f) }

/-- OPC 0x80 to 0x8F: TYPE and OPX (R140). -/
def laneForm (f : Fields) (types : List (BitVec 4)) (opx : BitVec 8) (form : Form) : Form :=
  { form with
    resv := (70, (f.mod.extractLsb' 0 8 &&& ~~~opx) == 0) :: form.resv
    mods := (78, types.contains (f.mod.extractLsb' 8 4)) :: form.mods }

/-- OPC 0x90 to 0xBF: TYPE, ORDER, SCOPE and CACHE (R140, R202). `k` are the values accepted in MOD[1..0]. -/
def memForm (f : Fields) (types : List (BitVec 4)) (orders scopes : List (BitVec 3)) (k : List (BitVec 2))
    (form : Form) : Form :=
  { form with
    mods := [(70, k.contains (f.mod.extractLsb' 0 2)), (72, scopes.contains (f.mod.extractLsb' 2 3)),
             (75, orders.contains (f.mod.extractLsb' 5 3)), (78, types.contains (f.mod.extractLsb' 8 4))] ++ form.mods }

/-- The scopes of an access of the encoded order: any when ordered, 0 when plain (R140). -/
def ordScopes (f : Fields) : List (BitVec 3) :=
  if f.mod.extractLsb' 5 3 = 0 then [0] else [0, 1, 2, 3, 4, 5, 6]

/-- Width in bytes of the memory TYPE code (R201). -/
def memWidth (f : Fields) : Nat := (Fmt.ofCode (f.mod.extractLsb' 8 4)).bytes

/-- The TYPE codes of plain loads and stores (R201). -/
def memTypes : List (BitVec 4) := [1, 2, 3, 4, 5, 6, 8, 9, 10, 11, 12, 13, 14, 15]

/-- Registers that a load or store of this TYPE and SUB moves (R201). -/
def memRegs (f : Fields) : Nat := (1 <<< f.sub.toNat) * (if memWidth f = 8 then 2 else 1)

/-- The limits of R202 on size: at most 16 bytes, and at most 8 when ordered. -/
def memSizeOk (f : Fields) : Bool :=
  memWidth f * (1 <<< f.sub.toNat) ≤ 16 && (f.mod.extractLsb' 5 3 == 0 || memWidth f * (1 <<< f.sub.toNat) ≤ 8)

/-- A plain load or store other than `.fmt` (R200 to R202). -/
def ldstForm (f : Fields) (load : Bool) (orders : List (BitVec 3)) (k : List (BitVec 2)) : Form :=
  let data := { (if load then oVS else { oVS with imm := f.sub == 0 }) with grp := memRegs f, span := memRegs f }
  memForm f memTypes orders (if orders = [0] then [0] else ordScopes f) k
    { subOk := f.sub.toNat ≤ 2, a := oBase, immBits := 0xFFFFFF,
      dst := if load then data else {}, b := if load then {} else data, mods := [(78, memSizeOk f)] }

/-- LD: a plain load, or a decoding load under TYPE 0 (R202, R204). -/
def ldForm (f : Fields) : Form :=
  if f.mod.extractLsb' 8 4 = 0 then
    memForm f [0] [0] [0] [0, 1, 2, 3]
      { subOk := f.sub.toNat ≤ 2, a := oBase, immBits := 0xFFFFFF, dst := oV.group 2, mods := [(78, f.sub == 0)] }
  else ldstForm f true [0, 1, 2, 5] [0, 1, 2, 3]

/-- The TYPE codes of an atomic operation (R207). -/
def atomTypes (sub : BitVec 4) : List (BitVec 4) :=
  match sub.toNat with
  | 0 | 1 | 2 => [0xC, 0xD, 0xE, 0xF, 1, 2]
  | 3 | 4 | 5 => [0xC, 0xD, 0xE, 0xF]
  | 6 | 7 => [0xC, 0xD, 0xE, 0xF, 1, 2]
  | _ => [0xD]

/-- Whether an atomic's operands are pairs (R207). -/
def atomWide (f : Fields) : Bool := memWidth f == 8

def atomForm (f : Fields) (k : List (BitVec 2)) : Form :=
  let p := atomWide f
  memForm f (atomTypes f.sub) [1, 2, 3, 4, 5] (ordScopes f) k
    { subOk := f.sub.toNat ≤ 9, dst := oDst.pairIf p, a := oBase, b := oSrc.pairIf p,
      c := if f.sub == 7 then some (oSrc.pairIf p) else none,
      immBits := if f.sub == 7 then 0xFFFC00 else 0xFFFFFF }

/-- A memory-class form with TYPE, ORDER and SCOPE zero, and MOD bit 0 selecting a space (R211, R215). -/
def spaceForm (f : Fields) (form : Form) : Form :=
  memForm f [0] [0] [0] [0, 1] { form with a := oBase, immBits := 0xFFFFFF }

/-- A timeline instruction (R218). -/
def tlForm (f : Fields) (form : Form) : Form :=
  memForm f [0] [0] [4, 5] [0] { form with a := oBase, immBits := 0xFFFFFF }

/-- Checks of an OPX word of twelve bits (R140). -/
def opxForm (f : Fields) (opx : BitVec 12) (form : Form) : Form :=
  { form with resv := (70, (f.mod &&& ~~~opx) == 0) :: form.resv }

/-- Predicate operations: every operand in one form, predicate or predicate word (R165). -/
def predOpForm (f : Fields) (two : Bool) : Form :=
  opxForm f (if two then 3 else 1)
    { dst := oPW, a := oPW, b := if two then oPW else {},
      kinds := [(26, predForm f.a == predForm f.dst), (36, !two || predForm f.b == predForm f.dst)] }

/-- PMOV: predicate to predicate, word from a register, register from the word (R165). -/
def pmovForm (f : Fields) : Form :=
  opxForm f 1
    (match predForm f.dst with
     | some 0 => { dst := oPW, a := oP }
     | some 1 => { dst := oPW, a := oSrc }
     | _ => { dst := { oPW with vec := true, scl := true }, a := { pword := true } })

/-- The copies of R221: RND, BS, TS, DIR and SLOT of OPX. -/
def copyForm (f : Fields) (enc outOk inOk tsOk : Bool) (form : Form) : Form :=
  let r := (f.mod.extractLsb' 7 3).toNat
  { form with
    a := { oBase with imm := true }
    kinds := [(26, f.a.extractLsb' 8 2 != 3 || f.a.extractLsb' 0 8 == 0)]
    resv := [(80, f.mod.extractLsb' 10 2 == 0)]
    mods := [(74, if f.mod.getLsbD 4 then outOk else inOk), (75, tsOk || !f.mod.getLsbD 5),
             (77, r == 0 || (enc && r ≤ 4))] }

/-- The bits of IMM24 that a cross-lane form uses: bit 6, and the register in bits 5..0 when bit 6 gives a member mask
(R137, R196). -/
def maskBits (f : Fields) : BitVec 24 := if f.imm.getLsbD 6 then 0x7F else 0x40

/-- The form of an opcode: none where R146 assigns none. Every form of REDUX and SCAN takes a rounding mode of the prefix (R145, log
entry 96). -/
def formOf (f : Fields) : Option Form :=
  let p := wide64 f
  let v (x : Form) : Option Form := some { x with vector := true }
  let all4 : List ITy := [.i32, .n32, .i64, .n64]
  let i32n32 : List ITy := [.i32, .n32]
  let bin (types : List ITy) (sat : Bool) : Option Form :=
    v (intForm f types sat 0 { subOk := f.sub == 0, dst := oDst.pairIf p, a := oSrc.pairIf p, b := oSrc.pairIf p })
  let un (types : List ITy) (sat : Bool) : Option Form :=
    v (intForm f types sat 0 { subOk := f.sub == 0, dst := oDst.pairIf p, a := oSrc.pairIf p })
  let shift : Option Form :=
    v (intForm f all4 false 0 { subOk := f.sub == 0, dst := oDst.pairIf p, a := oSrc.pairIf p, b := oSrc })
  let count : Option Form :=
    v (intForm f all4 false 0 { subOk := f.sub == 0, dst := oDst, a := oSrc.pairIf p })
  let q := isF64 f
  let fbin (r : RndForm) : Option Form :=
    v (wideForm f (fpForm f fpAll 8 { subOk := f.sub == 0, dst := oDst.pairIf q, a := oSrc.pairIf q, rnd := r }))
  let special (types : List (BitVec 4 × Bool)) (r : RndForm) : Option Form :=
    v (fpForm f types 0 { subOk := f.sub == 0, dst := oDst.pairIf q, a := oSrc.pairIf q, rnd := r })
  let w := f.mod.extractLsb' 8 4 == 0xE || f.mod.extractLsb' 8 4 == 0xF || f.mod.extractLsb' 8 4 == 2
  let noOps (form : Form) : Option Form := some (opxForm f 0 { form with subOk := f.sub == 0 })
  match f.opc.toNat with
  | 0x00 | 0x01 => bin [.i32, .n32, .i64, .n64, .i8x4] true
  | 0x02 => v (intForm f i32n32 false 0x3F { subOk := f.sub == 0, dst := oDst, a := oSrc, b := oSrc })
  | 0x03 => bin all4 true
  | 0x04 => bin all4 false
  | 0x05 => v (intForm f all4 true 0 { subOk := f.sub == 0, dst := oDst.pairIf p, a := oSrc.pairIf p, b := oSrc.pairIf p,
                                       c := some (oSrc.pairIf p) })
  | 0x06 => v (intForm f i32n32 false 0 { subOk := f.sub == 0, dst := oDst.group 2, a := oSrc, b := oSrc,
                                          c := some (oSrc.group 2) })
  | 0x07 | 0x08 => bin [.i32, .n32, .i64, .n64, .i8x4] false
  | 0x09 => un [.i32, .i64, .i8x4] true
  | 0x0A => un [.i32, .n32, .i64, .i8x4] true
  | 0x10 | 0x11 | 0x12 => bin all4 false
  | 0x13 => un all4 false
  | 0x14 => v (intForm f all4 false 0 { subOk := f.sub == 0, dst := oDst.pairIf p, a := oSrc.pairIf p, b := oSrc.pairIf p,
                                        c := some (oSrc.pairIf p), immBits := 0x03FC00 })
  | 0x15 | 0x16 | 0x17 | 0x18 => shift
  | 0x19 => v (intForm f i32n32 false 0 { subOk := f.sub.toNat ≤ 1, dst := oDst, a := oSrc, b := oSrc, c := some oSrc })
  | 0x1A => v (intForm f i32n32 false 0 { subOk := f.sub == 0, dst := oDst, a := oSrc, b := oSrc })
  | 0x1B => v (intForm f [.i32] false 0 { subOk := f.sub == 0, dst := oDst, a := oSrc, b := oSrc, c := some oSrc })
  | 0x1C | 0x1D | 0x1E => count
  | 0x1F => un all4 false
  | 0x20 => v (intForm f [.i32] false 0 { subOk := f.sub == 0, dst := oDst, a := oSrc, b := oSrc, immBits := 0xFFFF })
  | 0x21 => v (intForm f all4 false 0 { subOk := f.sub.toNat ≤ 5, dst := { prd := true, ppair := true },
                                        a := oSrc.pairIf p, b := oSrc.pairIf p })
  | 0x22 => v (intForm f all4 false 0 { subOk := f.sub.toNat ≤ 5, dst := oDst, a := oSrc.pairIf p, b := oSrc.pairIf p })
  | 0x23 => v (intForm f all4 false 1 { subOk := f.sub == 0, dst := oDst.pairIf p, a := oSrc.pairIf p, b := oSrc.pairIf p,
                                        c := some oP })
  | 0x24 => un all4 false
  | 0x25 => v (intForm f [.i32, .i64] false 0 { subOk := f.sub == 0, dst := oDst.pairIf p, immBits := 0xFFFFFF })
  | 0x26 => v (intForm f [.i32] false 0 { subOk := f.sub == 0, dst := oDst, a := oSrc, immBits := 0xFFFF })
  | 0x27 => v (intForm f [.i32] false 0 { subOk := f.sub == 0, dst := oDst, a := oSrc, b := oSrc, immBits := 7 })
  | 0x28 => v (intForm f i32n32 false 0 { subOk := f.sub == 0, dst := oDst.group 2, a := oSrc.group 2, b := oSrc,
                                          immBits := 7 })
  | 0x29 =>
    let i := (f.a.extractLsb' 0 8).toNat
    v (intForm f [.i32, .i64] false 0
      { subOk := f.sub == 0, dst := oVS.pairIf p, a := { scl := true, spc := true },
        specials := [(26, 64 ≤ i && i ≤ 81 && i != 79 && (!p || i == 80))] })
  | 0x2A =>
    let i := (f.dst.extractLsb' 0 8).toNat
    some (intForm f [.i32] false 0
      { subOk := f.sub == 0, dst := { scl := true, spc := true }, a := oSrc,
        specials := [(16, i == 74 || i == 76 || i == 77)] })
  | 0x2B => v (intForm f [.i32] false 0 { subOk := f.sub == 0, dst := oDst, a := oV })
  | 0x2C => some (intForm f [.i32] false 1 { subOk := f.sub == 0, a := oSrc })
  | 0x30 | 0x31 | 0x32 => some { predOpForm f true with subOk := f.sub == 0 }
  | 0x33 => some { predOpForm f false with subOk := f.sub == 0 }
  | 0x34 => some { pmovForm f with subOk := f.sub == 0 }
  | 0x36 => noOps { immBits := 0xFFFFFF }
  | 0x37 => noOps { a := oBase }
  | 0x38 => noOps { dst := oBase, immBits := 0xFFFFFF }
  | 0x39 => noOps { dst := oBase, a := oBase }
  | 0x3A => noOps { a := oBase }
  | 0x3B | 0x3C | 0x3D | 0x3E => noOps {}
  | 0x40 => noOps { dst := oP, a := oSrc, b := oV, immBits := 0xFFFFFF }
  | 0x41 => some (opxForm f 1 { subOk := f.sub == 0, dst := oP })
  | 0x42 => noOps { a := oVS, always := true }
  | 0x43 => noOps { dst := { prd := true, disc := true }, a := oBase, b := oSrc, immBits := 0xFFFFFF }
  | 0x44 => noOps { a := oBase, b := oSrc, immBits := 0xFFFFFF }
  | 0x45 | 0x46 => noOps {}
  | 0x50 | 0x51 | 0x52 => fbin (.modes false)
  | 0x53 => v (fpForm f fpAll 0 { subOk := f.sub == 0, dst := oDst.pairIf q, a := oSrc.pairIf q, b := oSrc.pairIf q,
                                  c := some (oSrc.pairIf q), rnd := .modes false })
  | 0x54 | 0x55 | 0x56 | 0x57 => fbin .silent
  | 0x58 => v (fpForm f fpOne 0 { subOk := f.sub.toNat ≤ 13, dst := { prd := true, ppair := true },
                                  a := oSrc.pairIf q, b := oSrc.pairIf q })
  | 0x59 => v (fpForm f fpOne 0 { subOk := f.sub.toNat ≤ 13, dst := oDst, a := oSrc.pairIf q, b := oSrc.pairIf q })
  | 0x5A => v (fpForm f fpAll 1 { subOk := f.sub == 0, dst := oDst.pairIf q, a := oSrc.pairIf q, rnd := .modes false })
  | 0x5B => v (fpForm f fpOne 0 { subOk := f.sub == 0, dst := oDst, a := oSrc.pairIf q })
  | 0x5C => v (fpForm f fpOne 0 { subOk := f.sub == 0, dst := oDst.pairIf q, a := oSrc.pairIf q, b := oSrc,
                                  rnd := .modes false })
  | 0x5D => v (fpForm f fpOne 0 { subOk := f.sub.toNat ≤ 1, dst := oDst.pairIf (q && f.sub == 1), a := oSrc.pairIf q })
  | 0x60 => v (fpForm f [(1, false)] 1 { subOk := f.sub == 0, dst := oDst.group 2, a := oBase, b := oBase,
                                         rnd := .modes false })
  | 0x61 => v (fpForm f [(1, false)] 1 { subOk := f.sub == 0, dst := oDst.group 2, a := oBase, b := oBase,
                                         c := some oBase, rnd := .modes false })
  | 0x62 => v (fpForm f [(3, true), (4, true)] 0 { subOk := f.sub == 0, dst := oDst, a := oSrc, b := oSrc,
                                                   c := some oSrc, rnd := .modes false })
  | 0x63 => v (fpForm f [(8, true)] 7 { subOk := f.sub == 0, dst := oDst, a := oSrc, b := oSrc, c := some oSrc })
  | 0x68 => special fpOne (.modes false)
  | 0x69 => special fpNo64 .rneOnly
  | 0x6A => special fpOne (.modes false)
  | 0x6B | 0x6C | 0x6D | 0x6E | 0x6F => special fpNo64 .rneOnly
  | 0x70 => v (fpForm f [(1, false)] 0 { subOk := f.sub == 0, dst := { oV with span := 3 }, a := oSrc,
                                         rnd := .modes false })
  | 0x71 => v (fpForm f [(1, false)] 0 { subOk := f.sub == 0, dst := { oV with span := 3 }, a := { oV with span := 3 },
                                         rnd := .modes false })
  | 0x78 =>
    let df := f.mod.extractLsb' 8 4
    let sf := f.mod.extractLsb' 1 4
    let r := (f.mod.extractLsb' 5 3).toNat
    let pk := f.mod.getLsbD 0
    let narrow := df == 0 || df == 3 || df == 4 || df == 5 || df == 6 || df == 7
    v { subOk := f.sub == 0, dst := oDst.pairIf (df == 2 || df == 0xE || df == 0xF),
        a := oSrc.pairIf (sf == 2 || sf == 0xE || sf == 0xF), b := if pk then oSrc else {},
        kinds := [(26, f.a.extractLsb' 8 2 != 3 || !(sf == 0 || sf == 5 || sf == 6 || sf == 7))],
        mods := [(70, !pk || ((df == 3 || df == 4) && sf == 1)), (75, r ≤ 4 || (r == 5 && narrow))],
        rnd := .modes narrow }
  | 0x79 =>
    let df := f.mod.extractLsb' 8 4
    let sf := f.mod.extractLsb' 1 4
    let r := (f.mod.extractLsb' 5 3).toNat
    let narrow := df == 0 || df == 3 || df == 4 || df == 5 || df == 6 || df == 7
    v { subOk := f.sub == 0, dst := oDst.pairIf (df == 2 || df == 0xE || df == 0xF),
        a := oSrc.pairIf (sf == 2 || sf == 0xE || sf == 0xF), b := oSrc,
        kinds := [(26, f.a.extractLsb' 8 2 != 3 || !(sf == 0 || sf == 5 || sf == 6 || sf == 7))],
        mods := [(70, !f.mod.getLsbD 0), (75, r ≤ 4 || (r == 5 && narrow))],
        rnd := .modes narrow }
  | 0x7A => some (fpForm f [(0, false)] 0 { subOk := f.sub == 0, a := oSrc })
  | 0x7B =>
    v (fpForm f [(5, false), (6, false), (7, false)] (if f.mod.extractLsb' 8 4 == 7 then 1 else 0)
      { subOk := f.sub == 0, dst := oDst, a := oBase, b := oBase, rnd := .modes true })
  | 0x7C =>
    let t := f.mod.extractLsb' 8 4
    v (fpForm f [(3, true), (4, true), (5, false), (6, false), (7, false)]
      (if t == 7 then 3 else if t == 5 || t == 6 then 1 else 0)
      { subOk := f.sub == 0, dst := oDst.group 2, a := oSrc,
        kinds := [(26, f.a.extractLsb' 8 2 != 3 || !(t == 5 || t == 6 || t == 7))] })
  | 0x7D =>
    let rf := f.mod.getLsbD 0
    v (fpForm f [(0xD, false)] 1
      { subOk := f.sub == 0, dst := { oV with grp := 2, span := 5 }, a := oBase, b := if rf then {} else oBase,
        immBits := if rf then 0 else 0x1F })
  | 0x7E => v (fpForm f [(0xC, false), (0xD, false)] 0 { subOk := f.sub == 0, dst := oDst, a := { oV with grp := 2, span := 5 },
                                                         b := oSrc })
  | 0x80 => some (laneForm f [0] 0 { subOk := f.sub == 0, a := oSrc })
  | 0x81 =>
    v (laneForm f (if f.sub == 3 then [0xC, 0xE] else [0xC]) 1
      { subOk := f.sub.toNat ≤ 3, dst := if f.sub == 3 then oDst.pairIf w else oP, a := oP, immBits := maskBits f })
  | 0x82 =>
    v (laneForm f [0xC, 0xE] 0xF
      { subOk := f.sub.toNat ≤ 3, dst := oDst.pairIf w, a := oSrc.pairIf w, b := oSrc, immBits := maskBits f,
        mods := [(70, !f.mod.getLsbD 3 || f.sub == 1 || f.sub == 2)] })
  | 0x83 =>
    v (laneForm f [0xC, 0xE] 0
      { subOk := f.sub.toNat ≤ 1, dst := if f.sub == 1 then { prd := true, ppair := true } else oDst, a := oSrc.pairIf w,
        immBits := maskBits f })
  | 0x84 | 0x85 =>
    v (laneForm f (if f.sub.toNat ≤ 2 then [0xC, 0xD, 0xE, 0xF, 1, 2] else [0xC, 0xD, 0xE, 0xF])
      (if f.opc == 0x85 then 1 else 0)
      { subOk := f.sub.toNat ≤ 5, dst := oDst.pairIf w, a := oSrc.pairIf w, immBits := maskBits f, rnd := .modes false })
  | 0x90 => some (ldForm f)
  | 0x91 | 0x92 => some (ldstForm f true [0, 1, 2, 5] [0])
  | 0x93 | 0x94 => some (ldstForm f true [0] [0])
  | 0x95 => some (memForm f [0] [0] [0] [0] { subOk := f.sub.toNat ≤ 1, a := oBase, immBits := 0xFFFFFF })
  | 0x98 => some (ldstForm f false [0, 1, 3, 5] [0, 1, 2, 3])
  | 0x99 | 0x9A => some (ldstForm f false [0, 1, 3, 5] [0])
  | 0x9C => some (ldstForm f false [0] [0])
  | 0xA0 => some (atomForm f [0])
  | 0xA1 => some (atomForm f [0, 1])
  | 0xA2 =>
    some (memForm f (atomTypes f.sub) [1, 3] (ordScopes f) [0]
      { subOk := f.sub.toNat ≤ 5 || f.sub == 8 || f.sub == 9, a := oBase, b := oSrc.pairIf (atomWide f),
        immBits := 0xFFFFFF })
  | 0xA8 => some (memForm f [0] [2, 3, 4, 5] [0, 1, 2, 3, 4, 5, 6] [0] { subOk := f.sub == 0 })
  | 0xA9 => some (memForm f [0] [0] [0] [0] { subOk := f.sub.toNat ≤ 2, a := oBase, b := oSrc, immBits := 0xFFFFFF })
  | 0xAA => some (spaceForm f { subOk := f.sub == 0 })
  | 0xAB => some (memForm f [0] [0] [0] [0] { subOk := f.sub == 0 })
  | 0xB0 => some (memForm f [0] [0] [0, 1, 2, 3] [0] { subOk := f.sub == 0, always := true })
  | 0xB1 => some (memForm f [0] [0] [1] [0] { subOk := f.sub == 0, always := true, immBits := 0x1F })
  | 0xB2 => some (spaceForm f { subOk := f.sub == 0, b := oSrc })
  | 0xB3 => some (spaceForm f { subOk := f.sub == 0 })
  | 0xB4 => some (spaceForm f { subOk := f.sub == 0, b := oSrc })
  | 0xB5 => some (spaceForm f { subOk := f.sub == 0, b := oSrc })
  | 0xB6 => some (spaceForm f { subOk := f.sub == 0, dst := oP, b := oSrc })
  | 0xB8 => some (tlForm f { subOk := f.sub == 0, b := oSrc.group 2 })
  | 0xB9 => some (tlForm f { subOk := f.sub == 0, dst := oVS.group 2 })
  | 0xBA => some (tlForm f { subOk := f.sub == 0, b := oSrc.group 2 })
  | 0xC0 => some (opxForm f 0xF { subOk := f.sub == 0, a := oBase, immBits := 0xFFFFFF })
  | 0xC1 =>
    if f.sub == 3 then
      some (opxForm f 0 { dst := oBase, a := oBase, b := { oBase with imm := true },
                          kinds := [(36, f.b.extractLsb' 8 2 != 3 || f.b.extractLsb' 0 8 == 0)] })
    else
      some (copyForm f (f.sub == 2) (f.sub != 1) (f.sub != 2) true { subOk := f.sub.toNat ≤ 3, b := oV.group 8 })
  | 0xC2 => some (copyForm f false false true true { subOk := f.sub.toNat ≤ 1, b := oV.group 8 })
  | 0xC3 => some (copyForm f false false true false { subOk := f.sub == 0, dst := { oV with span := 3 }, b := oV.group 8 })
  | 0xC4 => noOps {}
  | 0xC5 => noOps { a := oSrc }
  | 0xC8 => noOps { a := oBase, immBits := 0xFFFFFF }
  | 0xC9 => noOps { dst := oVS, a := oBase, immBits := 0xFFFFFF }
  | 0xCA =>
    let t := f.mod.extractLsb' 8 4
    some (opxForm f 0xF00 { subOk := f.sub == 0, a := oBase, b := oSrc.pairIf (t == 0xE || t == 0xF), immBits := 0xFFFFFF,
                            mods := [(78, [(0xC : BitVec 4), 0xD, 0xE, 0xF, 1, 4].contains t)] })
  | 0xCB => noOps { a := oBase, immBits := 0xFFFFFF }
  | 0xD0 => some (laneForm f [1, 0xC] 3 { subOk := f.sub == 0 })
  | 0xD1 => some (laneForm f [1, 0xC] 0xF { subOk := f.sub == 0, a := oV.group (1 <<< (f.mod.extractLsb' 2 2).toNat), b := oSrc })
  | 0xD2 => some (laneForm f [0] 0xF { subOk := f.sub == 0, dst := oV.group (1 <<< (f.mod.extractLsb' 2 2).toNat), a := oSrc })
  | 0xD3 =>
    some (laneForm f [0, 3, 4, 5, 6, 7, 8, 9] 0x7F
      { subOk := f.sub == 0, a := oVS.group 4, b := oVS,
        immBits := if f.imm.getLsbD 7 then 0xFFFFBF else 0x00003F })
  | 0xD4 => some (laneForm f [0] 3 { subOk := f.sub == 0, dst := oVS.group 2, a := oSrc })
  | 0xD5 => some (laneForm f [0] 0 { subOk := f.sub == 0, dst := oVS.group 2 })
  | 0xE0 => noOps { immBits := 0x1F }
  | 0xE1 => noOps { a := oBase, always := true }
  | 0xE2 => noOps {}
  | _ => none

/-! ### The checks of R354 -/

/-- What the checks made when an instruction issues add to those made on the words alone: the window (R42), and the
relocation of one operand by IX (R47). -/
structure IxEnv where
  window : Nat
  index : Nat
  tgt : Bool
  deriving DecidableEq, Repr, Inhabited

/-- The register number of an operand field after IX (R47): `isDst` tells whether it is DST, `reloc` whether it is DST
or SRCA, the only operands that IX relocates. -/
def relocated (e : IxEnv) (ix : Bool) (reloc isDst : Bool) (x : BitVec 10) : Nat :=
  let i := (x.extractLsb' 0 8).toNat
  if ix && reloc && e.tgt == isDst && x.extractLsb' 8 2 == 0 then i + e.index else i

/-- RESERVED_FIELD in an operand: an unused field, or a kind-10 index with reserved bits (R136, R137, R354). -/
def OForm.resvOk (o : OForm) (x : BitVec 10) : Bool :=
  if o.unused then x == 0
  else match predForm x with
    | some 0 => x.extractLsb' 3 3 == 0
    | some 1 => x.extractLsb' 0 6 == 0
    | _ => true

/-- BAD_OPERAND_KIND in an operand (R134, R136, R354). -/
def OForm.kindOk (o : OForm) (x : BitVec 10) : Bool :=
  if o.unused then true
  else match (x.extractLsb' 8 2).toNat with
    | 0 => o.vec
    | 1 => if (x.extractLsb' 0 8).toNat < 64 then o.scl else o.spc
    | 2 => match predForm x with
      | some 0 => o.prd
      | some 1 => o.pword
      | some 2 => o.ppair
      | _ => false
    | _ => o.imm || (o.disc && x.extractLsb' 0 8 == 0)

/-- BAD_PAIR in an operand: a base that is not a multiple of its group (R43, R354). Without an environment, an operand
that IX may relocate is left to the check made at issue. -/
def OForm.pairOk (o : OForm) (env : Option IxEnv) (ix reloc isDst : Bool) (x : BitVec 10) : Bool :=
  let i := (x.extractLsb' 0 8).toNat
  match (x.extractLsb' 8 2).toNat with
  | 0 =>
    match env with
    | some e => relocated e ix reloc isDst x % o.grp == 0
    | none => (ix && reloc) || i % o.grp == 0
  | 1 => 64 ≤ i || i % o.grp == 0
  | _ => true

/-- REG_BOUNDS in an operand: a register outside the window (R354, R356). -/
def OForm.boundsOk (o : OForm) (env : Option IxEnv) (ix reloc isDst : Bool) (x : BitVec 10) : Bool :=
  match env with
  | none => true
  | some e => o.unused || x.extractLsb' 8 2 != 0 || relocated e ix reloc isDst x + o.span ≤ e.window

/-- The lowest DETAIL among the checks that fail. -/
def firstBad : List (Nat × Bool) → Option Nat
  | [] => none
  | (d, ok) :: rest =>
    match firstBad rest with
    | none => if ok then none else some d
    | some e => if ok then some e else some (min d e)

/-- The causes 0x02 to 0x0A of R354 with the checks of each, in the order of the table. -/
def checksOf (env : Option IxEnv) (f : Fields) (m : Form) : List (Nat × List (Nat × Bool)) :=
  let ix := f.ix == 1
  let c := f.imm.extractLsb' 0 10
  let cForm : OForm := m.c.getD {}
  let three := m.c.isSome
  let srcd : OForm := if f.opc == 0x1B then oSrc else {}
  [(0x02, [(8, m.subOk)]),
   (0x03, [(16, m.dst.resvOk f.dst), (26, m.a.resvOk f.a), (36, m.b.resvOk f.b), (46, !three || cForm.resvOk c),
           (if three then 56 else 46, (f.imm &&& ~~~(if three then m.immBits ||| 0x3FF else m.immBits)) == 0),
           (83, f.r1 == 0), (93, f.r2 == 0),
           (122, match f.pfx with | none => true | some p => p.resv == 0),
           (112, match f.pfx with | none => true | some p => srcd.unused || srcd.resvOk p.srcd)] ++ m.resv),
   (0x04, [(16, m.dst.kindOk f.dst), (26, m.a.kindOk f.a), (36, m.b.kindOk f.b), (46, !three || cForm.kindOk c),
           (112, match f.pfx with | none => true | some p => srcd.kindOk p.srcd)] ++ m.kinds),
   (0x05, match f.pfx with
     | none => []
     | some p =>
       [(96, m.vector), (104, p.mpol != 0 || p.mpred == 0), (107, p.mpol != 3),
        (109, p.prnd == 0 || (match m.rnd with | .modes _ => true | _ => false)),
        (112, !srcd.unused || p.srcd == 0)]),
   (0x06, (109, match f.pfx with
     | none => true
     | some p => match m.rnd with
       | .modes sr => p.prnd.toNat ≤ 4 || (sr && p.prnd == 5)
       | _ => true) :: m.mods),
   (0x07, [(16, m.dst.pairOk env ix true true f.dst), (26, m.a.pairOk env ix true false f.a),
           (36, m.b.pairOk env ix false false f.b), (46, !three || cForm.pairOk env ix false false c)]),
   (0x08, [(12, !m.always || f.guard == 7), (15, !m.always || f.gneg == 0)]),
   (0x09, [(16, m.dst.boundsOk env ix true true f.dst), (26, m.a.boundsOk env ix true false f.a),
           (36, m.b.boundsOk env ix false false f.b), (46, !three || cForm.boundsOk env ix false false c),
           (112, match f.pfx with | none => true | some p => srcd.boundsOk env ix false false p.srcd)]),
   (0x0A, m.specials)]

/-- The first cause with a failed check, and its DETAIL (R346, R350). -/
def firstOf : List (Nat × List (Nat × Bool)) → Option (Nat × Nat)
  | [] => none
  | (k, l) :: rest =>
    match firstBad l with
    | some d => some (k, d)
    | none => firstOf rest

/-- The encoding cause that some fields raise, with DETAIL: ILLEGAL_OPCODE first, a prefix before a prefix as
BAD_PREFIX, then the table of R354. With no environment, only what the words alone show. -/
def firstCause (env : Option IxEnv) (f : Fields) : Option (Nat × Nat) :=
  if f.opc == 0xFE then
    match f.pfx with
    | some p => if p.resv == 0 then some (0x05, 96) else some (0x03, 122)
    | none => some (0x01, 255)
  else
    match formOf f with
    | none => some (0x01, 255)
    | some m => firstOf (checksOf env f m)

end Sys2Proof
end

