-- ==== Sys2Proof/Decode.lean ====
section
/-! DEFINITION. The decoder and, after it, the encoder (R132 to R146). `decodeWords` is total on any words: it answers the
instruction, or the encoding cause of R354 with its DETAIL. `decodeTableWord` is the same for a number whose bits are laid
out as spec/opcode_table.json numbers them. -/

namespace Sys2Proof

/-- The integer type, SAT and OPX of some fields (R140). -/
def Fields.ity (f : Fields) : ITy := ITy.ofCode (f.mod.extractLsb' 8 4)
def Fields.fty (f : Fields) : FTy := FTy.ofCode (f.mod.extractLsb' 8 4) (f.mod.getLsbD 4)
def Fields.fmt (f : Fields) : Fmt := Fmt.ofCode (f.mod.extractLsb' 8 4)
def Fields.rnd (f : Fields) : RMode := RMode.ofCode (f.mod.extractLsb' 5 3)
def Fields.dOp (f : Fields) : Opnd := Opnd.ofCode f.dst
def Fields.aOp (f : Fields) : Opnd := Opnd.ofCode f.a
def Fields.bOp (f : Fields) : Opnd := Opnd.ofCode f.b
/-- SRCC of a three-source form. -/
def Fields.cOp (f : Fields) : Opnd := Opnd.ofCode (f.imm.extractLsb' 0 10)
/-- Type code 0xE or 0xC (R198). -/
def Fields.wide (f : Fields) : Bool := f.mod.extractLsb' 8 4 == 0xE
def Fields.fsrc (f : Fields) : FSrc := if f.mod.getLsbD 3 then .wide f.imm else .opnd f.bOp
def Fields.mem (f : Fields) : MemM :=
  ⟨MTy.ofFmt f.fmt, Cnt.ofCode f.sub, MOrd.ofCode (f.mod.extractLsb' 5 3), Scope.ofCode (f.mod.extractLsb' 2 3),
    CacheHint.ofCode (f.mod.extractLsb' 0 2)⟩
def Fields.atm (f : Fields) : AtomM := ⟨f.fmt, MOrd.ofCode (f.mod.extractLsb' 5 3), Scope.ofCode (f.mod.extractLsb' 2 3)⟩
def Fields.atomArg (f : Fields) : AtomArg :=
  if f.sub == 7 then .cas f.bOp f.cOp (f.imm.extractLsb' 10 14) else .op2 (AOp.ofCode f.sub) f.bOp f.imm
/-- OPX bit 0 where MOD is an OPX word, and MOD bit 0 elsewhere. -/
def Fields.bit0 (f : Fields) : Bool := f.mod.getLsbD 0

/-- The instruction of some fields, for fields that pass the checks of R354. -/
def build (f : Fields) : Option Instr :=
  let c := Ctl.ofFields f
  match f.opc.toNat with
  | 0x00 => some (.iadd c f.ity (f.mod.getLsbD 7) f.dOp f.aOp f.bOp)
  | 0x01 => some (.isub c f.ity (f.mod.getLsbD 7) f.dOp f.aOp f.bOp)
  | 0x02 => some (.iaddc c f.ity (f.mod.extractLsb' 0 3) (f.mod.extractLsb' 3 3) f.dOp f.aOp f.bOp)
  | 0x03 => some (.imul c f.ity (f.mod.getLsbD 7) f.dOp f.aOp f.bOp)
  | 0x04 => some (.imulh c f.ity f.dOp f.aOp f.bOp)
  | 0x05 => some (.imad c f.ity (f.mod.getLsbD 7) f.dOp f.aOp f.bOp f.cOp)
  | 0x06 => some (.imadw c f.ity f.dOp f.aOp f.bOp f.cOp)
  | 0x07 => some (.imin c f.ity f.dOp f.aOp f.bOp)
  | 0x08 => some (.imax c f.ity f.dOp f.aOp f.bOp)
  | 0x09 => some (.iabs c f.ity (f.mod.getLsbD 7) f.dOp f.aOp)
  | 0x0A => some (.ineg c f.ity (f.mod.getLsbD 7) f.dOp f.aOp)
  | 0x10 => some (.and c f.ity f.dOp f.aOp f.bOp)
  | 0x11 => some (.or c f.ity f.dOp f.aOp f.bOp)
  | 0x12 => some (.xor c f.ity f.dOp f.aOp f.bOp)
  | 0x13 => some (.not c f.ity f.dOp f.aOp)
  | 0x14 => some (.bool3 c f.ity (f.imm.extractLsb' 10 8) f.dOp f.aOp f.bOp f.cOp)
  | 0x15 => some (.shl c f.ity f.dOp f.aOp f.bOp)
  | 0x16 => some (.shr c f.ity f.dOp f.aOp f.bOp)
  | 0x17 => some (.sar c f.ity f.dOp f.aOp f.bOp)
  | 0x18 => some (.rotl c f.ity f.dOp f.aOp f.bOp)
  | 0x19 => some (.fshf c (f.sub == 1) f.ity f.dOp f.aOp f.bOp f.cOp)
  | 0x1A => some (.bfx c f.ity f.dOp f.aOp f.bOp)
  | 0x1B => some (.bfi c f.dOp f.aOp f.bOp f.cOp)
  | 0x1C => some (.popc c f.ity f.dOp f.aOp)
  | 0x1D => some (.clz c f.ity f.dOp f.aOp)
  | 0x1E => some (.ctz c f.ity f.dOp f.aOp)
  | 0x1F => some (.brev c f.ity f.dOp f.aOp)
  | 0x20 => some (.bytep c (f.imm.extractLsb' 0 16) f.dOp f.aOp f.bOp)
  | 0x21 => some (.icmp c (Cond.ofCode f.sub) f.ity f.dOp f.aOp f.bOp)
  | 0x22 => some (.iset c (Cond.ofCode f.sub) f.ity f.dOp f.aOp f.bOp)
  | 0x23 => some (.sel c f.ity f.bit0 f.dOp f.aOp f.bOp f.cOp)
  | 0x24 => some (.mov c f.ity f.dOp f.aOp)
  | 0x25 => some (.movi c f.ity f.imm f.dOp)
  | 0x26 => some (.movih c (f.imm.extractLsb' 0 16) f.dOp f.aOp)
  | 0x27 => some (.lea c (f.imm.extractLsb' 0 3) f.dOp f.aOp f.bOp)
  | 0x28 => some (.lea64 c f.ity (f.imm.extractLsb' 0 3) f.dOp f.aOp f.bOp)
  | 0x29 => some (.spr c f.ity f.dOp f.aOp)
  | 0x2A => some (.spw c f.dOp f.aOp)
  | 0x2B => some (.vtag c f.dOp f.aOp)
  | 0x2C => some (.setix c f.bit0 f.aOp)
  | 0x30 => some (.pand c f.bit0 (f.mod.getLsbD 1) f.dOp f.aOp f.bOp)
  | 0x31 => some (.por c f.bit0 (f.mod.getLsbD 1) f.dOp f.aOp f.bOp)
  | 0x32 => some (.pxor c f.bit0 (f.mod.getLsbD 1) f.dOp f.aOp f.bOp)
  | 0x33 => some (.pnot c f.bit0 f.dOp f.aOp)
  | 0x34 => some (.pmov c f.bit0 f.dOp f.aOp)
  | 0x36 => some (.bra c f.imm)
  | 0x37 => some (.brx c f.aOp)
  | 0x38 => some (.call c f.imm f.dOp)
  | 0x39 => some (.callx c f.dOp f.aOp)
  | 0x3A => some (.ret c f.aOp)
  | 0x3B => some (.exit c)
  | 0x3C => some (.yield c)
  | 0x3D => some (.nop c)
  | 0x3E => some (.conv c)
  | 0x40 => some (.fnew c f.imm f.dOp f.aOp f.bOp)
  | 0x41 => some (.elect c f.bit0 f.dOp)
  | 0x42 => some (.regrp c f.aOp)
  | 0x43 => some (.spawn c f.imm f.dOp f.aOp f.bOp)
  | 0x44 => some (.joinc c f.imm f.aOp f.bOp)
  | 0x45 => some (.idmb c)
  | 0x46 => some (.idme c)
  | 0x50 => some (.fadd c f.fty f.rnd f.dOp f.aOp f.fsrc)
  | 0x51 => some (.fsub c f.fty f.rnd f.dOp f.aOp f.fsrc)
  | 0x52 => some (.fmul c f.fty f.rnd f.dOp f.aOp f.fsrc)
  | 0x53 => some (.ffma c f.fty f.rnd f.dOp f.aOp f.bOp f.cOp)
  | 0x54 => some (.fmin c f.fty f.dOp f.aOp f.fsrc)
  | 0x55 => some (.fmax c f.fty f.dOp f.aOp f.fsrc)
  | 0x56 => some (.fminm c f.fty f.dOp f.aOp f.fsrc)
  | 0x57 => some (.fmaxm c f.fty f.dOp f.aOp f.fsrc)
  | 0x58 => some (.fcmp c (FCond.ofCode f.sub) f.fty f.dOp f.aOp f.bOp)
  | 0x59 => some (.fset c (FCond.ofCode f.sub) f.fty f.dOp f.aOp f.bOp)
  | 0x5A => some (.frnd c f.fty f.rnd f.bit0 f.dOp f.aOp)
  | 0x5B => some (.fclass c f.fty f.dOp f.aOp)
  | 0x5C => some (.fscl c f.fty f.rnd f.dOp f.aOp f.bOp)
  | 0x5D => some (.fext c (f.sub == 1) f.fty f.dOp f.aOp)
  | 0x60 => some (.cmul c f.rnd f.bit0 f.dOp f.aOp f.bOp)
  | 0x61 => some (.cfma c f.rnd f.bit0 f.dOp f.aOp f.bOp f.cOp)
  | 0x62 => some (.vdot2 c f.fty f.rnd f.dOp f.aOp f.bOp f.cOp)
  | 0x63 => some (.vdot4 c f.bit0 (f.mod.getLsbD 1) (f.mod.getLsbD 2) f.dOp f.aOp f.bOp f.cOp)
  | 0x68 => some (.rcp c f.fty f.rnd f.dOp f.aOp)
  | 0x69 => some (.rsq c f.fty f.dOp f.aOp)
  | 0x6A => some (.sqrt c f.fty f.rnd f.dOp f.aOp)
  | 0x6B => some (.exp2 c f.fty f.dOp f.aOp)
  | 0x6C => some (.log2 c f.fty f.dOp f.aOp)
  | 0x6D => some (.sinp c f.fty f.dOp f.aOp)
  | 0x6E => some (.cosp c f.fty f.dOp f.aOp)
  | 0x6F => some (.tanh c f.fty f.dOp f.aOp)
  | 0x70 => some (.welf c f.rnd f.dOp f.aOp)
  | 0x71 => some (.wmrg c f.rnd f.dOp f.aOp)
  | 0x78 => some (.cvt c f.fmt (Fmt.ofCode (f.mod.extractLsb' 1 4)) f.rnd f.dOp f.aOp (if f.bit0 then some f.bOp else none))
  | 0x79 => some (.cvts c f.fmt (Fmt.ofCode (f.mod.extractLsb' 1 4)) f.rnd f.dOp f.aOp f.bOp)
  | 0x7A => some (.srseed c f.aOp)
  | 0x7B => some (.packf c f.fmt f.rnd f.bit0 f.dOp f.aOp f.bOp)
  | 0x7C => some (.unpkf c f.fmt (f.mod.extractLsb' 0 2) f.dOp f.aOp)
  | 0x7D => some (.bsinit c f.dOp f.aOp (if f.bit0 then none else some (f.bOp, f.imm.extractLsb' 0 5)))
  | 0x7E => some (.bsrd c (f.mod.extractLsb' 8 4 == 0xC) f.dOp f.aOp f.bOp)
  | 0x80 => some (.part c f.aOp)
  | 0x81 => some (.vote c (VoteM.ofCode f.sub) f.wide f.bit0 (maskOf f.imm) f.dOp f.aOp)
  | 0x82 => some (.shfl c (ShflM.ofCode f.sub) f.wide (f.mod.getLsbD 3) (f.mod.extractLsb' 0 3) (maskOf f.imm) f.dOp f.aOp f.bOp)
  | 0x83 => some (.mtch c (f.sub == 1) f.wide (maskOf f.imm) f.dOp f.aOp)
  | 0x84 => some (.redux c (RedOp.ofCode f.sub) f.fmt (maskOf f.imm) f.dOp f.aOp)
  | 0x85 => some (.scan c (RedOp.ofCode f.sub) f.fmt f.bit0 (maskOf f.imm) f.dOp f.aOp)
  | 0x90 =>
    if f.mod.extractLsb' 8 4 = 0 then some (.ldFmt c (CacheHint.ofCode (f.mod.extractLsb' 0 2)) f.imm f.dOp f.aOp)
    else some (.ld c f.mem f.imm f.dOp f.aOp)
  | 0x91 => some (.lds c f.mem f.imm f.dOp f.aOp)
  | 0x92 => some (.ldd c f.mem f.imm f.dOp f.aOp)
  | 0x93 => some (.ldc c f.mem f.imm f.dOp f.aOp)
  | 0x94 => some (.ldl c f.mem f.imm f.dOp f.aOp)
  | 0x95 => some (.pref c (f.sub == 1) f.imm f.aOp)
  | 0x98 => some (.st c f.mem f.imm f.aOp f.bOp)
  | 0x99 => some (.sts c f.mem f.imm f.aOp f.bOp)
  | 0x9A => some (.std c f.mem f.imm f.aOp f.bOp)
  | 0x9C => some (.stl c f.mem f.imm f.aOp f.bOp)
  | 0xA0 => some (.atom c f.atm f.dOp f.aOp f.atomArg)
  | 0xA1 => some (.atoms c f.atm f.bit0 f.dOp f.aOp f.atomArg)
  | 0xA2 => some (.red c (AOp.ofCode f.sub) f.atm f.imm f.aOp f.bOp)
  | 0xA8 => some (.fence c (MOrd.ofCode (f.mod.extractLsb' 5 3)) (Scope.ofCode (f.mod.extractLsb' 2 3)))
  | 0xA9 => some (.cctl c (CctlOp.ofCode f.sub) f.imm f.aOp f.bOp)
  | 0xAA => some (.mon c f.bit0 f.imm f.aOp)
  | 0xAB => some (.mwait c)
  | 0xB0 => some (.bar c (Scope.ofCode (f.mod.extractLsb' 2 3)))
  | 0xB1 => some ((.nbar c (f.imm.extractLsb' 0 4) (f.imm.getLsbD 4)))
  | 0xB2 => some (.binit c f.bit0 f.imm f.aOp f.bOp)
  | 0xB3 => some (.barv c f.bit0 f.imm f.aOp)
  | 0xB4 => some (.bexp c f.bit0 f.imm f.aOp f.bOp)
  | 0xB5 => some (.bwait c f.bit0 f.imm f.aOp f.bOp)
  | 0xB6 => some (.btest c f.bit0 f.imm f.dOp f.aOp f.bOp)
  | 0xB8 => some (.tlwt c (f.mod.extractLsb' 2 3 == 5) f.imm f.aOp f.bOp)
  | 0xB9 => some (.tlrd c (f.mod.extractLsb' 2 3 == 5) f.imm f.dOp f.aOp)
  | 0xBA => some (.tladv c (f.mod.extractLsb' 2 3 == 5) f.imm f.aOp f.bOp)
  | 0xC0 => some (.shape c (f.mod.extractLsb' 0 4) f.imm f.aOp)
  | 0xC1 =>
    if f.sub = 3 then some (.cpyUnz c f.dOp f.aOp f.bOp) else some (.cpy c (CpyMode.ofCode f.sub) (CpyX.ofCode f.mod) f.aOp f.bOp)
  | 0xC2 => some (.cpyg c (f.sub == 1) (CpyX.ofCode f.mod) f.aOp f.bOp)
  | 0xC3 => some (.cpym c (CpyX.ofCode f.mod) f.dOp f.aOp f.bOp)
  | 0xC4 => some (.seal c)
  | 0xC5 => some (.cpwt c f.aOp)
  | 0xC8 => some (.qsrch c f.imm f.aOp)
  | 0xC9 => some (.qstat c f.imm f.dOp f.aOp)
  | 0xCA => some (.land c f.fmt f.imm f.aOp f.bOp)
  | 0xCB => some (.landf c f.imm f.aOp)
  | 0xD0 => some (.mzero c (f.mod.extractLsb' 8 4 == 0xC) (f.mod.extractLsb' 0 2))
  | 0xD1 => some (.mlda c (f.mod.extractLsb' 8 4 == 0xC) (f.mod.extractLsb' 0 2) (f.mod.extractLsb' 2 2) f.aOp f.bOp)
  | 0xD2 => some (.msta c (f.mod.extractLsb' 0 2) (f.mod.extractLsb' 2 2) f.dOp f.aOp)
  | 0xD3 => some (.mma c (MmaX.ofCode f.mod f.imm) f.aOp f.bOp)
  | 0xD4 => some (.mckpt c (f.mod.extractLsb' 0 2) f.dOp f.aOp)
  | 0xD5 => some (.mbud c f.dOp)
  | 0xE0 => some ((.trap c (f.imm.extractLsb' 0 5)))
  | 0xE1 => some (.tret c f.aOp)
  | 0xE2 => some (.brk c)
  | _ => none

/-- What the decoder answers: an instruction with its length in bytes, or an encoding cause with DETAIL, the fields as
they stand and the length they take. -/
inductive Decoded where
  | ok (i : Instr) (len : Nat)
  | bad (cause detail : Nat) (f : Fields) (len : Nat)
  deriving DecidableEq, Repr, Inhabited

/-- Bits 95..0 of an instruction from its three words (R4, R132). -/
def words96 (w0 w1 w2 : Word) : BitVec 96 := w2 ++ (w1 ++ w0)

/-- Decode some fields. -/
def decodeFields (f : Fields) (len : Nat) : Decoded :=
  match firstCause none f with
  | some (k, d) => .bad k d f len
  | none =>
    match build f with
    | some i => .ok i len
    | none => .bad 0x01 255 f len

/-- Whether a word is a prefix (R132, R144). -/
def isPfxWord (w : Word) : Bool := w.extractLsb' 0 8 == 0xFE

/-- Decode the instruction that stands at the head of a code stream of four words (R132). The fourth word is read only
under a prefix. -/
def decodeWords (w0 w1 w2 w3 : Word) : Decoded :=
  if isPfxWord w0 then decodeFields (unpack (some (unpackPfx w0)) (words96 w1 w2 w3)) 16
  else decodeFields (unpack none (words96 w0 w1 w2)) 12

/-- Decode a list of words: missing words are not a complete instruction. -/
def decodeList : List Word → Option Decoded
  | [w0, w1, w2] => if isPfxWord w0 then none else some (decodeWords w0 w1 w2 0)
  | w0 :: w1 :: w2 :: w3 :: _ => some (decodeWords w0 w1 w2 w3)
  | _ => none

/-- The instruction that the decoder reads from a number whose bit 0 is the least significant bit of the first word
(spec/opcode_table.json's numbering); bits above the number are zero. -/
def decodeTableWord (_nbits w : Nat) : Option Instr :=
  let x : BitVec 128 := BitVec.ofNat 128 w
  match decodeWords (x.extractLsb' 0 32) (x.extractLsb' 32 32) (x.extractLsb' 64 32) (x.extractLsb' 96 32) with
  | .ok i _ => some i
  | .bad .. => none

/-! ### The encoder -/

/-- Whether an instruction has an encoding: the instructions of level OVB-1 do, the device events do not. -/
def Instr.isIsa (i : Instr) : Bool := i.toFields.isSome

/-- The three words of a 96-bit instruction (R4). -/
def wordsOf (x : BitVec 96) : List Word := [x.extractLsb' 0 32, x.extractLsb' 32 32, x.extractLsb' 64 32]

/-- The words of an instruction, its prefix first (R132, R144). -/
def encode (i : Instr) : List Word :=
  match i.toFields with
  | none => []
  | some f =>
    match f.pfx with
    | none => wordsOf f.pack
    | some p => p.pack :: wordsOf f.pack

/-- The bytes of some words, little-endian (R4). -/
def bytesOfWords : List Word → List Byte
  | [] => []
  | w :: ws => w.extractLsb' 0 8 :: w.extractLsb' 8 8 :: w.extractLsb' 16 8 :: w.extractLsb' 24 8 :: bytesOfWords ws

end Sys2Proof
end

