-- ==== Sys2Proof/Machine/Mem.lean ====
section
/-! DEFINITION. Plain-data maps. `Memory` is bytes by address in one canonical form: addresses strictly rising, and no
entry equal to 0, which is what an unlisted address reads as. `AMap` is a list of entries with strictly rising keys. -/

namespace Sys2Proof

/-- Bytes by address (R4). An unlisted address reads 0 (DESIGN CHOICE, log entry 4). -/
abbrev Memory := List Host.Cell

namespace Machine

/-- The byte at an address. -/
def memRead : Memory → Nat → Byte
  | [], _ => 0
  | (k, b) :: m, a => if k = a then b else memRead m a

/-- The memory without an entry at an address. -/
def memErase : Memory → Nat → Memory
  | [], _ => []
  | (k, b) :: m, a => if k < a then (k, b) :: memErase m a else if k = a then m else (k, b) :: m

/-- The memory with a byte at an address, listed even when it is 0. -/
def memInsert : Memory → Nat → Byte → Memory
  | [], a, v => [(a, v)]
  | (k, b) :: m, a, v =>
    if k < a then (k, b) :: memInsert m a v else if k = a then (a, v) :: m else (a, v) :: (k, b) :: m

/-- One byte written: writing 0 removes the entry, so that the form stays canonical. -/
def memWrite (m : Memory) (a : Nat) (v : Byte) : Memory := if v = 0 then memErase m a else memInsert m a v

/-- The first address listed is above `a`. -/
def memAbove (a : Nat) : Memory → Bool
  | [] => true
  | (k, _) :: _ => decide (a < k)

/-- The canonical form. -/
def Memory.wf : Memory → Bool
  | [] => true
  | (k, b) :: m => b != 0 && memAbove k m && Memory.wf m

/-- `n` bytes from an address, the first lowest (R4). -/
def memBytes (m : Memory) (a : Nat) : Nat → List Byte
  | 0 => []
  | n + 1 => memRead m a :: memBytes m (a + 1) n

/-- The bytes written from an address on. -/
def memStore (m : Memory) (a : Nat) : List Byte → Memory
  | [] => m
  | b :: bs => memStore (memWrite m a b) (a + 1) bs

/-- Little-endian number of a list of bytes (R4). -/
def leNat : List Byte → Nat
  | [] => 0
  | b :: bs => b.toNat + 256 * leNat bs

/-- The `n` low bytes of a number, least significant first (R4). -/
def leBytes (x : Nat) : Nat → List Byte
  | 0 => []
  | n + 1 => BitVec.ofNat 8 x :: leBytes (x / 256) n

/-- A little-endian value of `n` bytes. -/
def memNat (m : Memory) (a n : Nat) : Nat := leNat (memBytes m a n)

/-- A little-endian value of `n` bytes written. -/
def memPut (m : Memory) (a n x : Nat) : Memory := memStore m a (leBytes x n)

/-- The memory without the bytes of a range. -/
def memClear (m : Memory) (a n : Nat) : Memory := m.filter (fun c => !(decide (a ≤ c.1) && decide (c.1 < a + n)))

end Machine

/-- Entries by key, keys strictly rising. -/
abbrev AMap (β : Type) := List (Nat × β)

namespace Machine

/-- The entry of a key. -/
def amGet {β : Type} : AMap β → Nat → Option β
  | [], _ => none
  | (k, v) :: m, a => if k = a then some v else amGet m a

/-- The map with an entry of a key. -/
def amPut {β : Type} : AMap β → Nat → β → AMap β
  | [], a, v => [(a, v)]
  | (k, w) :: m, a, v =>
    if k < a then (k, w) :: amPut m a v else if k = a then (a, v) :: m else (a, v) :: (k, w) :: m

/-- The map without a key. -/
def amErase {β : Type} : AMap β → Nat → AMap β
  | [], _ => []
  | (k, w) :: m, a => if k = a then amErase m a else (k, w) :: amErase m a

/-- The values in ascending key. -/
def amVals {β : Type} (m : AMap β) : List β := m.map Prod.snd

/-- A map with its values changed. -/
def amMap {β γ : Type} (f : Nat → β → γ) (m : AMap β) : AMap γ := m.map fun e => (e.1, f e.1 e.2)

end Machine
end Sys2Proof
end

