-- ==== Sys2Proof/Machine/Types.lean ====
section
/-! DEFINITION. The parts of the machine's state: registers with their shape tags, fibres, skeins, lots, cores, the
matrix engines, the streamers, the Woad engines, launches and queues. Module-wide core indices, skein slots, lot keys and
physical addresses are natural numbers; what software sees as a word stays a bit vector. -/

namespace Sys2Proof.Machine

/-- A set of lanes: bit l is lane l; a twin uses 64, any other skein 32. -/
abbrev Lanes := BitVec 64

/-- A vector register of a hardware skein with its shape tag (R49). -/
inductive Reg where
  | u (v : Word)
  | a (base stride : Word)
  | g (w : List Word)
  deriving DecidableEq, Repr, Inhabited

/-- Where an instruction's result goes. -/
inductive Dst where
  | none
  | vec (r : Nat)
  | scl (r : Nat)
  | prd (p : Nat)
  | pword
  deriving DecidableEq, Repr, Inhabited

/-- A result by lane: `vals` has one word per lane, and only the lanes of `mask` are written. -/
structure Write where
  dst : Dst
  mask : Lanes
  vals : List Word
  deriving DecidableEq, Repr, Inhabited

/-- What a trap frame keeps of an instruction that issued (R349): its words, its lanes, its operands at issue, and
where its destination lies. `hb` is the tick up to which accesses of the core's other skeins happen before it (R126). -/
structure IssueInfo where
  pc : DWord
  words : List Word
  pfx : Bool
  act : Lanes
  batch : Lanes
  opnds : List (List DWord)
  dkind : Nat
  didx : Nat
  ndst : Nat
  tick : Nat
  hb : Nat
  deriving DecidableEq, Repr, Inhabited

/-- A cause met by an instruction (R345, R346, R350). `resume` is the RESUME of a cause that fixes it otherwise than
R349's rule for deferred causes; `order` is the issue order of the instruction. -/
structure Cause where
  info : IssueInfo
  code : Nat
  detail : Nat
  aff : Lanes
  done : Lanes
  addr : DWord
  deferred : Bool
  resume : Option DWord
  order : Nat
  /-- the incomplete timeline operations that the handler's TRET completes (R387): block, number and stamp -/
  tl : List (Nat × Nat × Nat)
  deriving DecidableEq, Repr, Inhabited

/-- What a fibre waits on after it issued the waiting instruction (R424). `done` says that the barrier's last arrival has
been made, so that only the release is still to come (R31). -/
inductive Wait where
  | bar (scope : Scope) (done : Bool)
  | nbar (id : BitVec 4) (done : Bool)
  | bwait (objs : List (Nat × Nat)) (parity : List Bool) (die : Bool)
  | tlwt (blocks : List (DWord × DWord)) (pod : Bool)
  | mwait
  | cpwt (n : Nat)
  | regrp (key : BitVec 16)
  | tret (target : DWord)
  deriving DecidableEq, Repr, Inhabited

/-- A wait, the address of the instruction that began it, and the tick at which it began (R360). -/
structure WaitRec where
  w : Wait
  pc : DWord
  since : Nat
  act : Lanes
  info : IssueInfo
  deriving DecidableEq, Repr, Inhabited

/-- A fibre (R18, R84): `arrived` holds its arrivals in the current phases of the sixteen lot barriers (R214). -/
structure Fibre where
  pc : DWord
  preds : BitVec 7
  rank : Word
  lot : Nat
  localIdx : Nat
  arrived : BitVec 16
  wait : Option WaitRec
  /-- the wait that a deferred cause interrupted, taken up again by a TRET to where it stood (R347, R424) -/
  susp : Option WaitRec
  /-- FNEW created it in the clock that is under way, in which it neither issues nor counts as present (R38, R169) -/
  young : Bool
  deriving DecidableEq, Repr, Inhabited

/-- A batch stands at CONV or at a member-mask operation that it has not issued (R38, R424): the participants of the CONV, or the scalar
that holds the member mask, if one is named. -/
structure Gate where
  pc : DWord
  conv : Bool
  need : Lanes
  mask : Option (BitVec 6)
  since : Nat
  info : IssueInfo
  deriving DecidableEq, Repr, Inhabited

/-- A long-latency instruction whose result has not been performed (R55). `left` holds the lanes whose access is still to
be performed, `writes` the results (`vals` empty until they return). `mark` counts the stores that its core had accepted when it
issued, `half` the lanes of a 16-byte access whose first half has been performed (R106); `stamps` holds by lane the stamp that its access carries,
and `seen` the largest that it has observed (R122, R123). `hold` says that it waits at the core, and its skein behind it, until every
page that it names has a translation, before which nothing of it is performed (R376, R379). -/
structure Pending where
  seq : Nat
  i : Instr
  info : IssueInfo
  addrs : List DWord
  b : List DWord
  c : List DWord
  left : Lanes
  half : Lanes
  withheld : Lanes
  causes : List Cause
  writes : List Write
  flags : BitVec 5
  stamps : List Nat
  mark : Nat
  seen : List Nat
  hold : Bool
  returned : Bool
  deriving DecidableEq, Repr, Inhabited

/-- What a parked skein does once every pending result is performed (R55). -/
inductive After where
  | go
  | exit (lanes : Lanes)
  | raise (c : Cause)
  deriving DecidableEq, Repr, Inhabited

/-- A skein in a handler (R347): the fibres that issue, and what TRET needs. -/
structure TrapCtx where
  batch : Lanes
  act : Lanes
  aff : Lanes
  frame : DWord
  cause : Nat
  tl : List (Nat × Nat × Nat)
  later : List Cause
  deriving DecidableEq, Repr, Inhabited

/-- An armed watch (R120): a line in global memory (physical line) or in a lot's scratchpad. -/
structure Watch where
  scratch : Bool
  lot : Nat
  line : Nat
  va : DWord
  hit : Bool
  deriving DecidableEq, Repr, Inhabited

/-- A release that waits under R115: its address, scope and the tick at which it began. -/
structure RelWait where
  pc : DWord
  scope : Scope
  since : Nat
  info : IssueInfo
  deriving DecidableEq, Repr, Inhabited

/-- A fetched instruction (R95): the code address and the words fetched from there. -/
structure Fetched where
  pc : DWord
  words : List Word
  deriving DecidableEq, Repr, Inhabited

/-- A skein slot that a lot holds, or the two slots of a twin under the lower one (R24, R41, R54 to R59). -/
structure Skein where
  lot : Nat
  lotSkein : Nat
  twin : Bool
  window : Nat
  base : Nat
  /-- the window of a twin's second half -/
  base2 : Nat
  lanes : List (Option Fibre)
  regs : AMap Reg
  scalars : AMap Word
  vx : Word
  lanepart : Nat
  rguniform : Bool
  fflags : BitVec 5
  idem : Bool
  gens : AMap Word
  cur : Option DWord
  passes : List (DWord × Nat)
  gates : List Gate
  pend : List Pending
  seq : Nat
  llCount : Nat
  park : Option After
  deferred : List Cause
  trap : Option TrapCtx
  relWait : Option RelWait
  acqTick : Nat
  /-- the tick of its last acquire at any scope (R108, R126) -/
  hb : Nat
  oMax : Nat
  wid : BitVec 20
  watch : Option Watch
  stallTo : Nat
  /-- its last try to issue was turned away, and nothing but issues has happened since (R297) -/
  idle : Bool
  lastIssue : Option Nat
  lastPc : DWord
  exitPc : Option DWord
  fetched : List Fetched
  afterTret : Bool
  forced : Bool
  retired : Nat
  /-- the marked instruction at which its fibres parked, with the lanes that issued it: after a REGRP one for each (R59) -/
  marks : List (DWord × Lanes)
  /-- the PCs whose instruction fetch waits in the fault buffer (R370), or whose fault has been refused: the address, the cause and
  its DETAIL, raised once the batch at that PC is current (R373) -/
  noFetch : List (DWord × Option (DWord × Nat × Nat))
  /-- the addresses that its next instruction has to reach before it can be checked, on pages without a translation, and of those whose fault
  has been refused the page, the cause and its DETAIL (R376, R389) -/
  asks : List DWord
  lost : List (Nat × Nat × Nat)
  /-- the lanes whose first half of a 16-byte scratchpad store has been written, by the instruction that the skein issues next (R106) -/
  halfSt : Lanes
  cmpOk : Bool
  /-- words with flipped bits (R364), with their lane and those bits: a vector register below 256, scalar n as 256 + n, the predicate
  word as 512 -/
  bad : List (Nat × Nat × Word)
  deriving DecidableEq, Repr, Inhabited

/-- The writer of a stamp sector (R123, R378). -/
structure Triple where
  stamp : Nat
  wid : BitVec 20
  ord : Bool
  deriving DecidableEq, Repr, Inhabited

/-- Who changes a barrier object (R123, R128, R380): what the write carries in a checked launch, whether its stamp is one of the phase's
arrivals and landed bytes, and whether a barrier-object instruction makes it, which marks the unit. -/
structure BarBy where
  t : Triple
  counts : Bool
  instr : Bool
  deriving DecidableEq, Repr, Inhabited

/-- A line of far memory in a hub slice (R91, R92, R320): the partition that it is tagged with, and which of its 16-byte sectors
it holds. -/
structure HubLine where
  part : Nat
  valid : BitVec 8
  deriving DecidableEq, Repr, Inhabited

/-- The format of a page (R79): FMT and GEO. -/
structure PageFmt where
  fmt : BitVec 4
  geo : BitVec 2
  deriving DecidableEq, Repr, Inhabited

/-- An installed shape slot (R219, R220): the record and the slot's format. -/
structure Shape where
  crec : BitVec 512
  pf : PageFmt
  deriving DecidableEq, Repr, Inhabited

/-- What becomes of a lot (R20, R22, R292, R302 to R306, R348). -/
inductive LotStatus where
  /-- dispatched: its first instruction has not issued -/
  | waiting
  | running
  | flushing
  | saving
  /-- its context is in the heap -/
  | saved
  /-- discarded, to run again from its start; its rows stay for the copies that it started -/
  | flushed
  | retired
  | failed (code : Nat) (frame : DWord)
  deriving DecidableEq, Repr, Inhabited

/-- What Mordant chose for a lot (R302). -/
inductive Action where
  | drain | flush | save
  deriving DecidableEq, Repr, Inhabited

/-- The part of a lot in a redundant pair (R405). -/
inductive Role where
  | single | leading | trailing
  deriving DecidableEq, Repr, Inhabited

/-- A store in a compare buffer (R406): the skein that issued it, its order there, and what is compared. -/
structure CmpEntry where
  lotSkein : Nat
  i : Instr
  addrs : List DWord
  data : List DWord
  mask : Lanes
  info : IssueInfo
  stamps : List Nat
  deriving DecidableEq, Repr, Inhabited

/-- A completed result forwarded from the leading lot to the trailing lot, or the tick that an instruction of it read (R405, R407). -/
structure Forward where
  lotSkein : Nat
  seq : Nat
  tick : Nat
  p : Pending
  deriving DecidableEq, Repr, Inhabited

/-- A resident lot, or one whose rows or failure are still to be dealt with. -/
structure Lot where
  launch : Nat
  idx : Nat
  core : Nat
  status : LotStatus
  role : Role
  partner : Option Nat
  vrank : Nat
  vat : Nat
  slots : List Nat
  row0 : Nat
  rows : Nat
  cleared : Nat
  scratch : Memory
  written : List Nat
  marks : List Nat
  sectors : AMap Triple
  poison : List Nat
  rankCtr : Nat
  phases : BitVec 16
  stamps : List Nat
  shapes : AMap Shape
  openBatch : Nat
  batchSeq : Nat
  block : Option Nat
  side : Bool
  idemx : Bool
  /-- a REGRP has given a skein of it a clear IDEM bit (R304) -/
  idemr : Bool
  noReplay : Bool
  retiredCnt : Nat
  firstIssue : Option Nat
  dispatched : Nat
  elapsed0 : Nat
  firstCore : Nat
  estimate : Nat
  /-- the action chosen for it, by Mordant or by the fence of its die (R302, R335) -/
  act : Option Action
  /-- the tick at which that action frees its core, as estimated (R302, R312) -/
  freeAt : Option Nat
  /-- the largest stamp so far of a barrier object's phase, by offset (R128) -/
  bar0 : List (Nat × Nat)
  /-- the stamp that a barrier object's last complete phase has published, by offset (R122, R128) -/
  barPub : List (Nat × Nat)
  cmp : List CmpEntry
  fwd : List Forward
  retries : Nat
  /-- mismatches of the pair so far (R398, R408) -/
  mism : Nat
  /-- the lot skeins whose operation a checkpoint follows (R407) -/
  ckDue : List Nat
  points : Nat
  landed : List (Nat × Nat)
  started : Bool
  deriving DecidableEq, Repr, Inhabited

/-- A line of L1 or of the constant cache (R90, R114): its bytes, the tick of its fill, and in L1 the row that it lies in (R88). -/
structure Line where
  data : List Byte
  fill : Nat
  row : Nat
  deriving DecidableEq, Repr, Inhabited

/-- A global store or RED accepted by a core and not yet performed everywhere (R115, R119). `data` holds the low and the
high half of each lane's bytes in turn, `left` its lanes still to be performed and `half` those of a 16-byte access whose first
half has been (R106); the lanes of `replay` wait in the store replay queue. `stamps` holds the stamps by lane (R123), `causes` what its
lanes have met, delivered as one cause once none is left (R346, R375), and `hold` is as in `Pending`. -/
structure PStore where
  seq : Nat
  slot : Nat
  lot : Nat
  i : Instr
  info : IssueInfo
  addrs : List DWord
  data : List DWord
  left : Lanes
  half : Lanes
  done : Lanes
  replay : Lanes
  stamps : List Nat
  causes : List Cause
  hold : Bool
  wid : BitVec 20
  ord : Bool
  order : Nat
  deriving DecidableEq, Repr, Inhabited

/-- An operand-latch entry (R53, R365): register, value by lane and the instructions it still serves. -/
structure LatchEntry where
  slot : Nat
  reg : Nat
  vals : List Word
  life : Nat
  deriving DecidableEq, Repr, Inhabited

/-- An issue slot (R297): the skein it issues from, the instructions issued in a row, its latch. -/
structure IssueSlot where
  cur : Option Nat
  run : Nat
  latch : List LatchEntry
  /-- the latest parity failure of an operand in use: slot, register and the instructions that the skein had retired (R365) -/
  erred : Option (Nat × Nat × Nat)
  deriving DecidableEq, Repr, Inhabited

/-- An accumulator tile (R235, R390). Checksums count units of 2^-300 on an FP32 tile and of 1 on an integer tile. -/
structure Tile where
  elems : AMap Word
  int : Bool
  rsum : AMap Int
  csum : AMap Int
  rex : List Nat
  cex : List Nat
  flags : BitVec 5
  ver : Bool
  kdone : Nat
  ktot : Nat
  /-- KDONE and KTOT at the latest k-step boundary (R242) -/
  ckDone : Nat
  ckTot : Nat
  ksum : Nat
  emax : Int
  deriving DecidableEq, Repr, Inhabited

/-- An MMA command (R255): its operands as captured at issue. -/
structure Mma where
  x : MmaX
  k : Nat
  baseA : DWord
  baseB : DWord
  strideA : Nat
  strideB : Nat
  deriving DecidableEq, Repr, Inhabited

/-- What a matrix command does (R241). -/
inductive MKind where
  | zero (int : Bool)
  | lda (int : Bool) (frag n : Nat) (act : Lanes) (vals : List (List Word))
  | sta (frag n : Nat) (act : Lanes) (seq : Nat)
  | mma (m : Mma)
  deriving DecidableEq, Repr, Inhabited

/-- A matrix command that entered and is not finished (R241): its place in entry order, its issue slot, its issuer, and the lanes that it
runs for, of CPYM one (R228). -/
structure MCmd where
  entry : Nat
  iq : Nat
  slot : Nat
  lot : Nat
  order : Nat
  info : IssueInfo
  lanes : Lanes
  tile : Nat
  kind : MKind
  started : Bool
  est : Option Nat
  bad : Option (Nat × Nat)
  charged : Bool
  arrived : Bool
  stopReq : Bool
  rowsA : List (List Byte)
  rowsB : List (List Byte)
  /-- the bytes of the next k-step's operands that have been read, those of A first (R129) -/
  buf : List Byte
  stamp : Nat
  wid : BitVec 20
  fmt : Nat
  /-- the tick from which its waiting for budget has not been counted (R248) -/
  shortSince : Option Nat
  deriving DecidableEq, Repr, Inhabited

/-- A sampled request (R329): its tick, its skein slot, its PC, its line's address, its instruction's place in issue order, and
once it has been served by what: 0 the core itself, 1 the slice that held its bytes, 2 the memory behind. -/
structure Sample where
  tick : Nat
  slot : Nat
  pc : DWord
  line : DWord
  order : Nat
  served : Option Nat
  deriving DecidableEq, Repr, Inhabited

/-- A PC sample taken and not written (R328, R415): its tick, the slot it covers, what it shows there. -/
structure PcDue where
  tick : Nat
  slot : Nat
  state : Nat
  pc : DWord
  deriving DecidableEq, Repr, Inhabited

/-- A core: its carve-out and L1, its unperformed stores, its issue slots, its matrix engine and its samples. -/
structure Core where
  carve : Nat
  /-- the hand-overs under way (R89): the row at which each ends, and the tick before which its lines are not all dropped -/
  hands : List (Nat × Nat)
  l1 : AMap Line
  ccache : AMap Line
  stores : List PStore
  storeSeq : Nat
  iq : List IssueSlot
  tiles : List Tile
  cmds : List MCmd
  entry : Nat
  owner : Option Nat
  level : Nat
  lastT : Nat
  refilled : Nat
  rot : Nat
  /-- on the first core of a quad, 1 + the place of the lot whose command its streamer started last (R259) -/
  turn : Nat
  due : List PcDue
  reqs : Nat
  samples : List Sample
  /-- the lines that its PREFs have named, by line: whether into L1 too, and whether the fill has ended (R96) -/
  prefs : AMap (Bool × Bool)
  deriving DecidableEq, Repr, Inhabited

/-- How far a streamer command has come (R222, R261, R387). -/
inductive CopyStage where
  | queued | started | failed | done
  deriving DecidableEq, Repr, Inhabited

/-- A streamer command of a lot: a copy, or a SHAPE in its place among them (R221, R222, R228, R229). `tlVa` is the timeline
block that it names and `tl` the number it took there; `tile` and `bar` are the allocation and offset of its tile and of its barrier object,
none where they name none; `list` holds the coordinates that CPYG read; `inp` and `outp` are the
bytes that an expansion has consumed and produced, and `head` its header, `list` then its output. -/
structure Copy where
  id : Nat
  lot : Nat
  slot : Nat
  order : Nat
  i : Instr
  info : IssueInfo
  lane : Nat
  block : List Word
  src : DWord
  dst : DWord
  tile : Option (Nat × Nat)
  bar : Option (Nat × Nat)
  tlVa : Option DWord
  tl : Option (Nat × Nat)
  batch : Nat
  stage : CopyStage
  shape : Option Shape
  list : List Nat
  units : List Nat
  pages : List Nat
  outp : Nat
  inp : Nat
  head : List Nat
  soft : Option (Nat × Nat × DWord)
  mma : Option MCmd
  stamp : Nat
  wid : BitVec 20
  deriving DecidableEq, Repr, Inhabited

/-- A query (R269 to R276, R391). -/
structure Query where
  id : Nat
  part : Nat
  core : Nat
  slot : Nat
  lot : Nat
  order : Nat
  info : IssueInfo
  lane : Nat
  pktVa : DWord
  pkt : BitVec 1024
  read : Bool
  running : Bool
  home : Nat
  tl : Option (Nat × Nat)
  qfmt : Nat
  qvec : List Nat
  vis : List Nat
  cand : List (BitVec 32 × Nat × Bool)
  rounds : Nat
  flags : BitVec 5
  stamp : Nat
  wid : BitVec 20
  /-- the results are written; the entry stays for QSTAT (R231) -/
  fin : Bool
  /-- the pages of which an access of this query was refused (R391) -/
  lost : List Nat
  deriving DecidableEq, Repr, Inhabited

/-- A landing on its way (R232, R233): a contribution, or a LANDF report. `abroad` says that it came over FX Link (R321). `late` is
the carry into the high half of an 8-byte sum whose low half has been performed (R279). Of a report it says that the report has been counted
and completes its round (R281), as 2 plus such a carry while a held sum of 8 bytes is half performed, and whether the page of its next
write was refused. -/
structure LandMsg where
  id : Nat
  report : Bool
  part : Nat
  core : Nat
  slot : Nat
  lot : Nat
  order : Nat
  info : IssueInfo
  lane : Nat
  va : DWord
  val : DWord
  ty : BitVec 4
  key : List Nat
  pos : Nat
  det : Bool
  stamp : Nat
  wid : BitVec 20
  abroad : Bool
  late : Option (Word × Bool)
  deriving DecidableEq, Repr, Inhabited

/-- A contribution held in deterministic mode, with the round that it belongs to (R280, R281) and the triple that its write leaves
(R123). -/
structure Held where
  off : Nat
  round : Nat
  key : List Nat
  pos : Nat
  val : DWord
  t : Option Triple
  deriving DecidableEq, Repr, Inhabited

/-- A registered lake (R278, R281): its partition, its descriptor's virtual and physical address and what it read there at
registration, the contributions held, whether its open round has received anything, and whether it is to be unregistered.
`reported` holds the lots whose LANDF the open round has counted, `early` whether the next round has received anything. -/
structure Lake where
  part : Nat
  va : DWord
  pa : Nat
  desc : BitVec 512
  held : List Held
  used : Bool
  closing : Bool
  reported : List (List Nat)
  early : Bool
  stamp : Nat
  deriving DecidableEq, Repr, Inhabited

/-- An engine context: the operations accepted on one timeline block and not complete, from which the completion
frontier F follows, the completion stamps above F, and the stamp published (R125). -/
structure TlCtx where
  part : Nat
  opn : List Nat
  stamps : AMap Nat
  pub : Nat
  deriving DecidableEq, Repr, Inhabited

/-- A chunk of consecutive lots on a die (R292). -/
structure Chunk where
  die : Nat
  first : Nat
  count : Nat
  disp : Nat
  ret : Nat
  reported : Bool
  deriving DecidableEq, Repr, Inhabited

/-- A failure of a lot of a rollback launch, whose entry waits for the launch's rollback or end (R395, R400). -/
structure FailRec where
  idx : Nat
  code : Nat
  die : Nat
  core : Nat
  dropped : Nat
  tick : Nat
  frame : DWord
  deriving DecidableEq, Repr, Inhabited

/-- A launch in the launch table (R286, R293, R395, R399). -/
structure Launch where
  crec : BitVec 1024
  kdesc : BitVec 512
  slotAddr : Nat
  q : Nat
  n : Nat
  part : Nat
  tl : Option (Nat × Nat)
  level : Option Nat
  next : Nat
  chunks : List Chunk
  /-- the resumption records (true, with a lot of the saved unit) and re-run records (false, with the first `%lot`) in front of
  its undispatched lots, each with its estimate (R305, R306) -/
  recs : List (Bool × Nat × Nat)
  /-- its start or its completion waits for a page of its region list (R294, R370), or the fault of that page was refused (true) -/
  list : Option Bool
  blocks : AMap Nat
  /-- it has completed but for the decrement of its join counter, whose page has no translation (R293, R370), or whose fault was
  refused (true) -/
  ending : Option Bool
  retired : Nat
  sumIns : Nat
  sumCyc : Nat
  base : Nat
  final : Nat
  flags : BitVec 6
  /-- it started in bounded mode (R331, R333) -/
  bnd : Bool
  stop : Bool
  failed : Option Nat
  fails : List FailRec
  replays : Nat
  noReplay : Bool
  marks : List Nat
  /-- the saved pages: the address of the copy in the context heap, and the sectors that were poisoned (R399) -/
  snap : AMap (Nat × List Nat)
  snapOk : Bool
  started : Nat
  /-- the tick before which no L1 line serves its lots (R172) -/
  acq : Nat
  privPages : AMap Nat
  /-- the logs of its lots in the context heap, by lot index: the address, and how many points it holds (R416) -/
  log : AMap (Nat × Nat)
  deriving DecidableEq, Repr, Inhabited

/-- What a hub knows of a record that it has accepted, or that SPAWN has pushed: the timeline block that it names with its number there,
whether the fault on that block was refused (R217), and the tick from which its launch is ordered (R172). -/
structure RecNum where
  tl : Option (Nat × Nat)
  refused : Bool
  acq : Nat
  deriving DecidableEq, Repr, Inhabited

/-- What a hub keeps of a queue beside its block (R286, R287, R288). `accepted` counts the records accepted, modulo 2^32; `nums` holds
what it knows of them; `since` is the tick at which the record at HEAD became a ready head (R299); `doomed` holds the records whose code
was unloaded by force (R414); `readyAt` is the tick since which the present head has been ready without a lot dispatched, `age` its ageing
steps; `turn` is the level at which it has the turn, if it has one, and `deficit` is DEF in core-cycles (R288). -/
structure QueueX where
  accepted : Nat
  nums : AMap RecNum
  doomed : List Nat
  ready : Bool
  since : Option Nat
  readyAt : Option Nat
  age : Nat
  turn : Option Nat
  flying : List Nat
  deficit : Int
  deriving DecidableEq, Repr, Inhabited

/-- A SPAWN push on its way to its hub (R172, R286). -/
structure Spawn where
  id : Nat
  core : Nat
  slot : Nat
  seq : Nat
  lane : Nat
  q : Nat
  part : Nat
  crec : BitVec 1024
  deriving DecidableEq, Repr, Inhabited

/-- A cached translation (R99, R100): the unit that holds it (a core below 512, die d as 512 + d), the partition, the
virtual page and its level, the leaf. -/
structure TlbEnt where
  unit : Nat
  part : Nat
  vpn : Nat
  level : Nat
  leaf : DWord
  deriving DecidableEq, Repr, Inhabited

/-- An entry of a die's fault buffer (R370, R372), with the accesses merged into it. -/
structure FaultEnt where
  die : Nat
  part : Nat
  id : BitVec 32
  tick : Nat
  code : Nat
  kind : AccKind
  level : Nat
  core : Nat
  skein : Nat
  pte : DWord
  va : DWord
  who : List AccRef
  deriving DecidableEq, Repr, Inhabited

/-- Reserved cores: the run of a waiting vat, or the cores that Mordant frees for a bounded record, with the maturity that it estimated; that of
a vat's run follows the lots that run there (R291, R300). -/
structure Reserve where
  die : Nat
  launch : Nat
  cores : List Nat
  maturity : Nat
  mordant : Bool
  deriving DecidableEq, Repr, Inhabited

/-- A die: whether its L2 has failed, whether a fence has stopped dispatch to it, whether its dispatcher waits for its
resident lots to drain before it dispatches again, and whether a save that its fence asked for has failed (R335, R367, R402, R404). -/
structure Die where
  l2Lost : Bool
  stopped : Bool
  rebuild : Bool
  unsaved : Bool
  deriving DecidableEq, Repr, Inhabited

/-- A saved lot (R306 to R309): its lot, its skeins in ascending lot skein, its queued streamer and matrix commands, its
tiles, and the address and size of its area in the context heap. -/
structure Saved where
  lot : Lot
  skeins : List (Nat × Skein)
  copies : List Copy
  cmds : List MCmd
  tiles : List (Nat × Tile)
  area : Nat
  size : Nat
  part : Nat
  shared : List Nat
  deriving DecidableEq, Repr, Inhabited

/-- A dump waiting to be written (R410, R411): `image` holds the frame of its cause, `ln` the launch as it stood, `second` the cause, the
tick, the `%lot` and the frame of each secondary fault. -/
structure Dump where
  part : Nat
  lot : Nat
  code : Nat
  tick : Nat
  image : List Byte
  slotAddr : Nat
  lotIdx : Nat
  ctx : List Saved
  ln : Launch
  second : List (Nat × Nat × Nat × List Byte)
  deriving DecidableEq, Repr, Inhabited

/-- A regroup domain whose shuffle is in progress (R34 to R36): the core, the launch and the member lots. -/
structure Shuffle where
  core : Nat
  launch : Nat
  lots : List Nat
  deriving DecidableEq, Repr, Inhabited

/-- Who moves next: one agent at a time. -/
inductive Grant where
  /-- the issue slot of a core issues from a skein slot -/
  | issue (core slot : Nat)
  /-- a device event comes about, if its condition holds -/
  | event (e : Instr)
  /-- the oldest input from outside is taken -/
  | input
  deriving DecidableEq, Repr, Inhabited

end Sys2Proof.Machine
end

