-- ==== Sys2Proof/Config.lean ====
section
/-! DEFINITION. What the spec leaves open, as constants without a body: no proof can see their values, and a claim holds
whatever they are. Most are applied to `State.choices`, the number of values drawn so far, so that each step draws fresh
ones (log entry 5). -/

namespace Sys2Proof.Config

/-- The agent that moves after the n-th step: the spec fixes no interleaving of the agents (log entry 1). -/
opaque grant : Nat → Machine.Grant

/-- How many ticks pass at the n-th step beyond the least (log entry 2). -/
opaque ticks : Nat → Nat

/-- The core and the line that leaves its L1 at the n-th step, if one does (R90, log entry 6). -/
opaque l1Evicted : Nat → Option (Nat × Nat)

/-- The core and the line that leaves its constant cache at the n-th step, if one does (R84, log entry 6). -/
opaque ccEvicted : Nat → Option (Nat × Nat)

/-- The line that leaves its slice of a compute die at the n-th step, if one does (R91, R123, log entry 6). -/
opaque evicted : Nat → Option Nat

/-- The far line that leaves its hub slice at the n-th step, if one does (R92, log entry 6). -/
opaque hubEvicted : Nat → Option Nat

/-- The core and the line of the PREF fill that ends at the n-th step, if one does (R96, R205, log entry 49). -/
opaque prefDone : Nat → Option (Nat × Nat)

/-- The cached translation that is dropped at the n-th step, if one is (log entry 6). -/
opaque tlbDropped : Nat → Option Nat

/-- A byte read from a peer device, whose behaviour the spec does not give (log entry 8). -/
opaque peerByte : Nat → Nat → Byte

/-- Whether an expander backs a physical line (R92, log entry 9). -/
opaque cxlBacked : Nat → Bool

/-- The queueing times of a memory sample (R329, log entry 2). -/
opaque queueing : Nat → Nat → Nat

/-- Whether the device checks the equation of an Ed25519 signature multiplied by the cofactor, as RFC 8032 leaves a verifier to choose
(R323, log entry 10). -/
opaque cofactor : Bool

/-- Whether a new firmware image passes its self-test (R404, log entry 10). -/
opaque imageOk : Nat → Bool

/-- Whether a stack's calibration succeeds (R404, log entry 10). -/
opaque calibrated : Nat → Bool

/-- The contribution or report of another module that FX Link delivers at the n-th step, if it does (R321, log entry 101). -/
opaque inbound : Nat → Machine.LandMsg

/-- A number the spec leaves open, by the values drawn so far and a purpose. -/
opaque pick : Nat → Nat → Nat

end Sys2Proof.Config
end

