-- ==== Sys2Proof/Machine/State.lean ====
section
/-! DEFINITION. The state of the module as plain data, the reasons a step can stop, and the state after reset. -/

namespace Sys2Proof.Machine

/-- Why a step stops the machine. -/
inductive Fault where
  /-- raised by the meaning of an instruction of level OVB-1 when the grant names no resident skein with a current batch,
  so that nothing issues it: safe, since a step never asks for it (log entry 1) -/
  | noSkein
  deriving DecidableEq, Repr, Inhabited

/-- Why a step has no meaning. -/
inductive Refusal where
  /-- raised by an arm of exec whose instruction has no meaning yet: safe -/
  | notModelled (mnemonic : String)
  deriving DecidableEq, Repr, Inhabited

/-- The whole module. -/
structure State where
  /-- the module-wide tick counter (R5, R15) -/
  tick : Nat
  /-- the agent that moves next (the model's own, log entry 1) -/
  grant : Grant
  /-- how many free values have been drawn (the model's own, log entry 5) -/
  choices : Nat
  /-- what the outside world does next, oldest first (the model's own, log entry 3) -/
  inputs : List Instr
  /-- memory by physical address, as the home slices hold it (R91, R92) -/
  mem : Memory
  /-- host and expander memory behind the hub slices, by physical address (R92, R115) -/
  far : Memory
  /-- the 128-byte lines that the slices of the compute dies hold: which of their 16-byte sectors are valid (R16, R91) -/
  l2 : AMap (BitVec 8)
  /-- the 128-byte lines of far addresses that the hub slices hold (R91, R92, R320, R383) -/
  hubLines : AMap HubLine
  /-- those of them whose stores have not been written through (R115, R210) -/
  hubDirty : List Nat
  /-- kept stamps by 32-byte stamp sector (R123, R378) -/
  sectors : AMap Triple
  /-- the stamp of the last decrement of a join counter, by its physical address (R121, R296) -/
  joins : AMap Nat
  /-- the floor E of each home slice (R123) -/
  floors : AMap Nat
  /-- poisoned 16-byte sectors (R381) -/
  poison : List Nat
  /-- hub registers written since reset, by BAR0 offset ÷ 8 (R6, R313) -/
  hub : AMap DWord
  /-- PKG has been written (R334) -/
  pkgSet : Bool
  cores : AMap Core
  /-- resident skeins by 64 × core + slot -/
  skeins : AMap Skein
  lots : AMap Lot
  launches : AMap Launch
  launchSeq : Nat
  queues : AMap QueueX
  spawns : List Spawn
  spawnSeq : Nat
  tlb : List TlbEnt
  /-- fault-buffer entries, oldest first (R370) -/
  faults : List FaultEnt
  copies : AMap Copy
  copySeq : Nat
  queries : AMap Query
  querySeq : Nat
  lands : AMap LandMsg
  landSeq : Nat
  /-- the landing units' table of registered lakes (R278) -/
  lakes : List Lake
  /-- engine contexts by the physical address of their timeline block (R125) -/
  tls : AMap TlCtx
  /-- pod timelines by the physical address of their block: partition, home module, subscriber mask address (R319) -/
  podTls : AMap (Nat × Nat × Nat)
  dies : AMap Die
  reserves : List Reserve
  saved : AMap Saved
  /-- checkpoints of redundant lots (R407) -/
  ckpts : AMap Saved
  dumps : List Dump
  /-- where the next dump of a partition goes, as an offset in its dump area (R410) -/
  dumpPos : AMap Nat
  /-- failures not written because the failure ring was disabled, by partition (R397) -/
  failDrops : AMap Nat
  shuffles : List Shuffle
  widCtr : Nat
  /-- MSI-X vectors raised, oldest first (R313, R371, R397) -/
  msix : List Nat
  /-- the data of the last host read through BAR2, and whether it was poisoned (R313, R381) -/
  hostReply : Option (List Byte × Bool)
  /-- far requests that a completion timeout watches: the requester, its addresses and the tick from which they are out (R383) -/
  sent : List (AccRef × List DWord × Nat)
  /-- the tick of a stop of the clocks that a partition's failure ring has still to record (R417) -/
  stops : AMap Nat
  /-- uploaded code objects: partition, base and bytes of `.text` (R265, R414) -/
  objects : List (Nat × Nat × Nat)
  /-- firmware images installed: target, image address (R335) -/
  firmware : AMap DWord
  /-- stacks left unserved by a failed calibration (R404) -/
  unserved : List Nat
  deriving DecidableEq, Repr, Inhabited

/-- The module right after reset: nothing resident, every register at its reset value (a hub register that is not listed
reads its reset value), memory with nothing listed. -/
def State.reset : State where
  tick := 0
  grant := .input
  choices := 0
  inputs := []
  mem := []
  far := []
  l2 := []
  hubLines := []
  hubDirty := []
  sectors := []
  joins := []
  floors := []
  poison := []
  hub := []
  pkgSet := false
  cores := []
  skeins := []
  lots := []
  launches := []
  launchSeq := 0
  queues := []
  spawns := []
  spawnSeq := 0
  tlb := []
  faults := []
  copies := []
  copySeq := 0
  queries := []
  querySeq := 0
  lands := []
  landSeq := 0
  lakes := []
  tls := []
  podTls := []
  dies := []
  reserves := []
  saved := []
  ckpts := []
  dumps := []
  dumpPos := []
  failDrops := []
  shuffles := []
  widCtr := 0
  msix := []
  hostReply := none
  sent := []
  stops := []
  objects := []
  firmware := []
  unserved := []

end Sys2Proof.Machine
end

