-- ==== Sys2Proof/Machine/Hub.lean ====
section
/-! DEFINITION. The hub registers (R6, R313): reset values, fields, which bits a write sets, and the blocks of queues,
partitions, windows and rings. A register is a 64-bit word named by its BAR0 offset; hub 1 starts at 0x80_0000. -/

namespace Sys2Proof.Machine

/-- A field of a number: `n` bits from bit `lo`. -/
def bitsOf (x lo n : Nat) : Nat := x / 2 ^ lo % 2 ^ n

/-- A field of a 64-bit word as a number. -/
def fieldOf (x : DWord) (lo n : Nat) : Nat := bitsOf x.toNat lo n

/-- A word with one field replaced. -/
def setField (x : DWord) (lo n v : Nat) : DWord :=
  let m : DWord := BitVec.ofNat 64 ((2 ^ n - 1) * 2 ^ lo)
  (x &&& ~~~m) ||| (BitVec.ofNat 64 (v * 2 ^ lo) &&& m)

def hub1 : Nat := 0x800000
def partBlock (p : Nat) : Nat := 0x0E0000 + 256 * (p % 8)
def partRegs (p : Nat) : Nat := 0x0F0000 + 64 * (p % 8)
def failRing (p : Nat) : Nat := 0x0F0800 + 64 * (p % 8)
def dumpBlock (p : Nat) : Nat := 0x0F0A00 + 64 * (p % 8)
def debugBlock (p : Nat) : Nat := 0x0F0C00 + 64 * (p % 8)
def injectWord (p : Nat) : Nat := 0x0F0E00 + 64 * (p % 8)
def statusWord : Nat := 0x000000
def linkWord (hub : Bool) : Nat := 0x000100 + (if hub then hub1 else 0)
def stopWord : Nat := 0x000200
def queueBlock (q : Nat) : Nat := 0x100000 + 32 * (q % 512) + (if q / 512 % 2 = 1 then hub1 else 0)
def windowBlock (w : Nat) : Nat := hub1 + 0x200000 + 32 * (w % 64)
def coreCounter (c i : Nat) : Nat := 0x300000 + 64 * (c % 512) + 8 * (i % 8)
def roundCounter (stack : Nat) : Nat := 0x310000 + 8 * (stack % 8)
def eccCounter (c : Nat) : Nat := 0x320000 + 8 * (c % 512)
def fixCounter (c : Nat) : Nat := 0x330000 + 8 * (c % 512)

/-- The reset value of a hub register (R285, R289, R327, R332, R359, R371, R382, R397). -/
def hubReset (off : Nat) : DWord :=
  if 0x0F0000 ≤ off && off < 0x0F0200 then
    match off % 64 with
    | 0x00 => 0x0004000000000400
    | 0x08 => 0x0000040070A090A0
    | 0x10 => 0x0000000010605000
    | 0x20 => 16384
    | 0x30 => 0x00000000000C0000
    | _ => 0
  else if 0x0F0800 ≤ off && off < 0x0F0A00 then (if off % 64 = 0 then 0x00000000000A0000 else 0)
  else if (0x100000 ≤ off && off < 0x104000) || (hub1 + 0x100000 ≤ off && off < hub1 + 0x104000) then
    (if off % 32 = 8 then 0x00000000A0000000 else 0)
  else if off = 0x100 || off = hub1 + 0x100 then 0x0000000000320000
  else 0

def State.rd (s : State) (off : Nat) : DWord := (amGet s.hub (off / 8)).getD (hubReset (off / 8 * 8))
def State.wr (s : State) (off : Nat) (v : DWord) : State := { s with hub := amPut s.hub (off / 8) v }
def State.fld (s : State) (off lo n : Nat) : Nat := fieldOf (s.rd off) lo n
def State.setFld (s : State) (off lo n v : Nat) : State := s.wr off (setField (s.rd off) lo n v)
/-- A 64-bit counter counts up, modulo 2^64 (R330). -/
def State.count (s : State) (off n : Nat) : State := s.wr off (s.rd off + BitVec.ofNat 64 n)

-- the partition block (R317)
def State.partOn (s : State) (p : Nat) : Bool := s.fld (partBlock p) 8 1 == 1
def State.partDies (s : State) (p : Nat) : Nat := s.fld (partBlock p) 0 8
def State.partMode (s : State) (p : Nat) : Nat := s.fld (partBlock p) 12 4
def State.cmdLog (s : State) (p : Nat) : Nat := s.fld (partBlock p) 16 4
def State.cmdHead (s : State) (p : Nat) : Nat := s.fld (partBlock p + 48) 0 32
def State.cmdTail (s : State) (p : Nat) : Nat := s.fld (partBlock p + 48) 32 32
def State.cmdBase (s : State) (p : Nat) : Nat := (s.rd (partBlock p + 56)).toNat
def State.cmdTl (s : State) (p : Nat) : Nat := (s.rd (partBlock p + 64)).toNat
def State.root (s : State) (p : Nat) : Nat := (s.rd (partBlock p + 72)).toNat
def State.heapSize (s : State) (p : Nat) : Nat := (s.rd (partBlock p + 80)).toNat
def State.heapBase (s : State) (p : Nat) : Nat := (s.rd (partBlock p + 88)).toNat
def State.trapTab (s : State) (p : Nat) : DWord := s.rd (partBlock p + 96)
def State.keyList (s : State) (p : Nat) : Nat := (s.rd (partBlock p + 104)).toNat
def State.hostSize (s : State) (p : Nat) : Nat := (s.rd (partBlock p + 112)).toNat
def State.hostBase (s : State) (p : Nat) : Nat := (s.rd (partBlock p + 120)).toNat

/-- The enabled partition whose DIES names a die, if there is one. -/
def State.ownerOfDie (s : State) (d : Nat) : Option Nat := (List.range 8).find? fun p => s.partOn p && (s.partDies p).testBit d
/-- The partition that owns a die: 0 when none does. -/
def State.partOfDie (s : State) (d : Nat) : Nat := (s.ownerOfDie d).getD 0

/-- The operating mode bits of a partition: bit 0 BND, 1 DET, 2 GRD (R331). -/
def modeBnd (m : Nat) : Bool := m.testBit 0
def modeDet (m : Nat) : Bool := m.testBit 1
def modeGrd (m : Nat) : Bool := m.testBit 2

/-- The budget RATE of a partition (R331, R332). -/
def State.rate (s : State) (p : Nat) : Nat :=
  let m := s.partMode p
  let w := s.rd (partRegs p + 8)
  let l := (if modeBnd m then [fieldOf w 8 8] else []) ++ (if modeDet m then [fieldOf w 16 8] else []) ++
    (if modeGrd m then [fieldOf w 24 8] else [])
  match l with
  | [] => fieldOf w 0 8
  | x :: xs => xs.foldl min x

/-- The cores per die reserved in bounded mode (R332, R333). -/
def State.resv (s : State) (p : Nat) : Nat := s.fld (partRegs p + 8) 40 6
/-- The age interval AGE in ticks (R289). -/
def State.age (s : State) (p : Nat) : Nat := s.fld (partRegs p) 32 32
/-- The default estimate in core-cycles (R289). -/
def State.defEst (s : State) (p : Nat) : Nat := 64 * s.fld (partRegs p) 0 16
/-- The watchdog limit in ticks; 0 when it is disabled (R359). -/
def State.wdog (s : State) (p : Nat) : Nat := 65536 * s.fld (partRegs p + 0x20) 0 32

-- the queue block (R285)
def State.qBase (s : State) (q : Nat) : Nat := (s.rd (queueBlock q)).toNat
def State.qOn (s : State) (q : Nat) : Bool := s.fld (queueBlock q + 8) 0 1 == 1
def State.qDev (s : State) (q : Nat) : Bool := s.fld (queueBlock q + 8) 19 1 == 1
def State.qLog (s : State) (q : Nat) : Nat := s.fld (queueBlock q + 8) 20 4
def State.qPart (s : State) (q : Nat) : Nat := s.fld (queueBlock q + 8) 24 3
def State.qQuant (s : State) (q : Nat) : Nat := s.fld (queueBlock q + 8) 27 5
def State.qHead (s : State) (q : Nat) : Nat := s.fld (queueBlock q + 24) 0 32
def State.qTail (s : State) (q : Nat) : Nat := s.fld (queueBlock q + 24) 32 32
/-- DEF, a signed number of units of 1,024 core-cycles (R285, R288). -/
def State.qDef (s : State) (q : Nat) : Int := (BitVec.ofNat 32 (s.fld (queueBlock q + 16) 32 32)).toInt
def State.setQDef (s : State) (q : Nat) (v : Int) : State :=
  s.setFld (queueBlock q + 16) 32 32 (BitVec.ofInt 32 v).toNat
/-- The ring is full when TAIL − HEAD = 2^LOG, modulo 2^32 (R285). -/
def State.qFull (s : State) (q : Nat) : Bool := (s.qTail q + 2 ^ 32 - s.qHead q) % 2 ^ 32 == 2 ^ s.qLog q
/-- The address of record n's slot (R285). -/
def State.qSlot (s : State) (q n : Nat) : Nat := s.qBase q + 128 * (n % 2 ^ s.qLog q)
def State.queueX (s : State) (q : Nat) : QueueX := (amGet s.queues q).getD default
def State.setQueueX (s : State) (q : Nat) (x : QueueX) : State := { s with queues := amPut s.queues q x }

-- the landing windows (R314)
def State.winOn (s : State) (w : Nat) : Bool := s.fld (windowBlock w) 32 1 == 1
def State.winPart (s : State) (w : Nat) : Nat := s.fld (windowBlock w) 33 3
def State.winSize (s : State) (w : Nat) : Nat := 65536 * s.fld (windowBlock w) 36 14
def State.winTarget (s : State) (w : Nat) : Nat := 65536 * s.fld (windowBlock w + 8) 16 25
def State.winTl (s : State) (w : Nat) : Nat := (s.rd (windowBlock w + 24)).toNat

-- the links, the stop word and the module status word (R334, R382, R417)
def State.linkUp (s : State) (hub : Bool) : Bool := s.fld (linkWord hub) 1 1 == 1
/-- The completion timeout in ticks: 1,600 ticks a microsecond (R15, R382, R383). -/
def State.linkTimeout (s : State) (hub : Bool) : Nat := 1600 * s.fld (linkWord hub) 16 16
def State.stopped (s : State) : Bool := s.fld stopWord 8 1 == 1
/-- A stop is armed, and its tick has come at a tick (R417). -/
def State.stopDue (s : State) (t : Nat) : Bool := s.fld stopWord 0 1 == 1 && decide ((s.rd (stopWord + 8)).toNat ≤ t)
/-- At STOPTICK every clock domain is gated (R417). -/
def State.tickStop (s : State) : State := if s.stopDue s.tick then s.setFld stopWord 8 1 1 else s
def State.fenced (s : State) (d : Nat) : Bool := (s.fld statusWord 24 8).testBit d
def State.dieOk (s : State) (d : Nat) : Bool := (s.fld statusWord 16 8).testBit d
def State.moduleReady (s : State) : Bool := s.fld statusWord 0 1 == 1
/-- `%pkg` (R12, R334). -/
def State.pkg (s : State) : Nat := s.fld statusWord 32 10

/-- The bits that a write to a hub register sets: its RW fields (R6). Of a field that an address must leave zero below its alignment, the
low bits of BASE are stored as written and those of WADDR are not (log entry 86). Fields whose write has a step of its own (EN and
TAIL, RETRAIN, the reply word, PKG) are not among them. -/
def rwMask (off : Nat) : DWord :=
  if 0x0E0000 ≤ off && off < 0x0E0800 then
    match off % 256 with
    | 0 => 0x00000000000F70FF
    | 48 => 0xFFFFFFFF00000000
    | o => if 56 ≤ o && o < 128 then 0xFFFFFFFFFFFFFFFF else 0
  else if 0x0F0000 ≤ off && off < 0x0F0200 then
    match off % 64 with
    | 0x00 => 0xFFFFFFFF0000FFFF
    | 0x08 => 0x00003F00FFFFFFFF
    | 0x10 => 0x000000001FF8F807
    | 0x18 => 0xFFFFFFFFFFFFFFFF
    | 0x20 => 0x00000000FFFFFFFF
    | 0x30 => 0x00000000000F0001
    | 0x38 => 0xFFFFFFFFFFFFFFFF
    | _ => 0
  else if 0x0F0800 ≤ off && off < 0x0F0A00 then
    match off % 64 with
    | 0 => 0x00000000000F0001
    | 8 => 0xFFFFFFFFFFFFFFFF
    | _ => 0
  else if 0x0F0A00 ≤ off && off < 0x0F0C00 then
    match off % 64 with
    | 0 => 0x0000000000FF0001
    | 8 => 0xFFFFFFFFFFFFFFFF
    | _ => 0
  else if 0x0F0C00 ≤ off && off < 0x0F0E00 then
    match off % 64 with
    | 0 => 7
    | 8 => 0xFFFFFFFFFFFFFF80
    | 16 => 0xFFFFFFFFFFFFFFFF
    | _ => 0
  else if 0x0F0E00 ≤ off && off < 0x0F1000 then (if off % 64 = 0 then 0xFFFFFFFF01FFFF83 else 0)
  else if (0x100000 ≤ off && off < 0x104000) || (hub1 + 0x100000 ≤ off && off < hub1 + 0x104000) then
    match off % 32 with
    | 0 => 0xFFFFFFFFFFFFFFFF
    | 8 => 0x00000000FFF80001
    | _ => 0
  else if hub1 + 0x200000 ≤ off && off < hub1 + 0x200800 then
    match off % 32 with
    | 0 => 0x0003FFFF00000000
    | 8 => 0x000001FFFFFF0000
    | 24 => 0xFFFFFFFFFFFFFFFF
    | _ => 0
  else if off = 0x100 || off = hub1 + 0x100 then 0x00000000FFFF0000
  else if off = 0x200 then 1
  else if off = 0x208 then 0xFFFFFFFFFFFFFFFF
  else 0

end Sys2Proof.Machine
end

