-- ==== Sys2Proof/Machine/Access.lean ====
section
/-! DEFINITION. Global memory: the page-table walk and the TLBs (R97 to R100, R374), what a physical address reaches and
how an access to it can fail (R92, R377, R381, R383), reads and writes at the home slice with stamps, watches and poison
(R91, R116, R120, R123), the L1 of a core (R90, R114), and timeline blocks (R125, R217). -/

namespace Sys2Proof.Machine

/-- VA[63..57] = VA[56] (R97). -/
def canonical (va : DWord) : Bool := fieldOf va 56 8 == 0 || fieldOf va 56 8 == 255

/-- The lowest VA bit that a level indexes; also the page size of a leaf there (R97). -/
def levelShift : Nat → Nat
  | 0 => 16
  | 1 => 21
  | 2 => 30
  | 3 => 39
  | _ => 48

/-- A malformed entry (R374). -/
def badEntry (level : Nat) (e : DWord) : Bool :=
  if e.getLsbD 1 then
    3 ≤ level || fieldOf e 41 10 != 0 || fieldOf e 2 14 != 0 ||
      fieldOf e 16 (levelShift level - 16) != 0 || fieldOf e 52 2 == 3 || 2 ≤ fieldOf e 58 2 ||
      (fieldOf e 58 2 == 1 && fieldOf e 54 4 != 7)
  else
    level == 0 || fieldOf e 41 23 != 0 || fieldOf e 2 6 != 0 || (2 ≤ level && fieldOf e 8 4 != 0)

/-- A translation: the physical address, the leaf and its level. -/
structure Xl where
  pa : Nat
  leaf : DWord
  level : Nat
  deriving DecidableEq, Repr, Inhabited

/-- What a walk ends in: a leaf, or a cause with the level and the entry that stopped it (R370, R372). -/
inductive XRes where
  | ok (x : Xl)
  | bad (code level : Nat) (pte : DWord)
  deriving DecidableEq, Repr, Inhabited

def leafPa (leaf : DWord) (level : Nat) (va : DWord) : Nat :=
  fieldOf leaf 16 25 * 65536 + fieldOf va 0 (levelShift level)

/-- The walk from a table down (R97): `n` is the level of the table plus 1. The bytes of a table are taken as memory holds them,
whatever has become of that memory (log entry 91). -/
def walkFrom (m : Memory) (va : DWord) : Nat → Nat → XRes
  | 0, _ => .bad 0x33 0 0
  | n + 1, tbl =>
    let e : DWord := BitVec.ofNat 64 (memNat m (tbl + 8 * fieldOf va (levelShift n) (if n = 0 then 5 else 9)) 8)
    if !e.getLsbD 0 then .bad 0x30 n e
    else if badEntry n e then .bad 0x33 n e
    else if e.getLsbD 1 then .ok ⟨leafPa e n va, e, n⟩
    else walkFrom m va n (fieldOf e 8 33 * 256)

def State.walk (s : State) (part : Nat) (va : DWord) : XRes :=
  if canonical va then walkFrom s.mem va 5 (s.root part) else .bad 0x32 4 0

/-- Permissions of a leaf (R98, R370): RDONLY refuses a write, NOEXE a fetch. -/
def permit (write fetch : Bool) (x : Xl) : XRes :=
  if (write && x.leaf.getLsbD 62) || (fetch && x.leaf.getLsbD 63) then .bad 0x31 x.level x.leaf else .ok x

/-- A cached translation of a unit (R99). -/
def TlbEnt.hits (e : TlbEnt) (u part : Nat) (va : DWord) : Bool :=
  e.unit == u && e.part == part && e.vpn == va.toNat / 2 ^ levelShift e.level

/-- The units whose TLBs a requester reads: a core and its die, or a die alone (R99). -/
def unitsOf (u : Nat) : List Nat := if u < 512 then [u, 512 + u / 64] else [u]

/-- The translation of an address (R97 to R100): a cached one, else a walk. -/
def State.xlate (s : State) (u part : Nat) (va : DWord) (write fetch : Bool) : XRes :=
  match (unitsOf u).findSome? fun v => s.tlb.find? fun e => e.hits v part va with
  | some e => permit write fetch ⟨leafPa e.leaf e.level va, e.leaf, e.level⟩
  | none =>
    match s.walk part va with
    | .ok x => permit write fetch x
    | r => r

/-- How many translations a TLB holds (R99). -/
def tlbCap (u : Nat) : Nat := if u < 512 then 128 else 32768

/-- A translation cached in one unit; a full TLB drops one of its entries, which one the spec leaves open. -/
def tlbAdd (n : Nat) (t : List TlbEnt) (e : TlbEnt) : List TlbEnt :=
  if t.any (fun x => x == e) then t
  else
    let mine := t.filter fun x => x.unit == e.unit
    if mine.length < tlbCap e.unit then e :: t
    else e :: t.erase ((mine[Config.pick n 1 % mine.length]?).getD e)

/-- A walk's leaf fills the TLBs of the requester (R99). -/
def State.tlbFill (s : State) (u part : Nat) (va : DWord) (x : Xl) : State :=
  { s with tlb := (unitsOf u).foldl (fun t v =>
      tlbAdd s.choices t ⟨v, part, va.toNat / 2 ^ levelShift x.level, x.level, x.leaf⟩) s.tlb }

/-- The attributes of a leaf (R98). -/
def Xl.fmt (x : Xl) : PageFmt := ⟨x.leaf.extractLsb' 54 4, x.leaf.extractLsb' 58 2⟩
def Xl.peer (x : Xl) : Bool := x.leaf.getLsbD 61
def Xl.checked (x : Xl) : Bool := x.leaf.getLsbD 60
def Xl.land (x : Xl) : Bool := x.leaf.getLsbD 51
/-- CACHE; a PEER or LAND page is uncached (R98, R278). -/
def Xl.cache (x : Xl) : Nat := if x.peer || x.land then 2 else fieldOf x.leaf 52 2

-- physical addresses (R92)
def farBase : Nat := 0x08000000000
def hostBasePa : Nat := 0x10000000000
def isFar (pa : Nat) : Bool := farBase ≤ pa
def isHost (pa : Nat) : Bool := hostBasePa ≤ pa
/-- The hub that homes a far address: hub 0 for host memory, hub 1 for CXL (R92). -/
def hubOf (pa : Nat) : Bool := !isHost pa
def stackOf (pa : Nat) : Nat := pa / 2 ^ 36 % 8
/-- The home slice (R92): slice j of die d is 64 d + j, of hub h 512 + 16 h + j. -/
def homeSlice (pa : Nat) : Nat :=
  if isFar pa then 512 + 16 * (hubOf pa).toNat + Nat.xor (bitsOf pa 8 4) (bitsOf pa 12 4)
  else 64 * stackOf pa + Nat.xor (Nat.xor (bitsOf pa 8 6) (bitsOf pa 14 6)) (bitsOf pa 20 6)

/-- The 128-byte lines that `n` bytes touch. -/
def linesOf (pa n : Nat) : List Nat := (List.range ((pa + n - 1) / 128 + 1 - pa / 128)).map (· + pa / 128)

/-- Every byte of a physical range is backed (R92, R313, R377). -/
def State.backed (s : State) (part pa n : Nat) : Bool :=
  if isHost pa then s.hostBase part ≤ pa - hostBasePa && decide (pa - hostBasePa + n ≤ s.hostBase part + s.hostSize part)
  else if isFar pa then (linesOf pa n).all fun ln => Config.cxlBacked ln
  else true

/-- The 16-byte sectors of a line that some bytes touch (R91). -/
def sectorMask (ln pa n : Nat) : BitVec 8 :=
  (List.range 8).foldl (fun m j => if pa < 128 * ln + 16 * j + 16 && 128 * ln + 16 * j < pa + n
    then m ||| BitVec.ofNat 8 (2 ^ j) else m) 0

/-- The hub slices hold these bytes for a partition (R91, R320). -/
def State.hubHolds (s : State) (part pa n : Nat) : Bool :=
  (linesOf pa n).all fun ln => match amGet s.hubLines ln with
    | some h => h.part == part && sectorMask ln pa n &&& ~~~h.valid == 0
    | none => false

/-- The link cause of a far access while its hub's link is down (R383). -/
def State.downCause (s : State) (pa : Nat) : Option Nat :=
  if isFar pa && !s.linkUp (hubOf pa) then some (if isHost pa then 0xA5 else 0x3E) else none

/-- The link cause of a far read: what the hub's slices hold they serve (R383). -/
def State.linkCause (s : State) (part pa n : Nat) : Option Nat :=
  if s.hubHolds part pa n then none else s.downCause pa

/-- The addresses of the 16-byte sectors that `n` bytes touch. -/
def sectorsOf (pa n : Nat) : List Nat := (List.range ((pa + n - 1) / 16 + 1 - pa / 16)).map (· + pa / 16)

def State.poisoned (s : State) (pa n : Nat) : Bool := (sectorsOf pa n).any fun x => s.poison.contains x

/-- The HBM of this address is not served: the L2 of a fenced die has failed, or the stack lost its calibration (R402,
R404). -/
def State.lostHome (s : State) (pa : Nat) : Bool :=
  !isFar pa && (((amGet s.dies (stackOf pa)).getD default).l2Lost || s.unserved.contains (stackOf pa))

/-- How a read at the home slice fails: UNBACKED, a link cause, or poison (R377, R381, R383, R402). -/
def State.readCause (s : State) (part pa n : Nat) : Option Nat :=
  if !s.backed part pa n then some 0x39
  else match s.linkCause part pa n with
    | some c => some c
    | none =>
      if s.lostHome pa then some 0x3D
      else if s.poisoned pa n then some (if isFar pa then 0x40 else 0x3D) else none

/-- How a write at the home slice fails: the cause and its DETAIL (R377, R383, R402). A far write is performed only when the host or
the expander completes it, whatever the slices hold. -/
def State.writeCause (s : State) (part pa n : Nat) : Option (Nat × Nat) :=
  if !s.backed part pa n then some (0x39, 255)
  else match s.downCause pa with
    | some c => some (0x41, c)
    | none => if s.lostHome pa then some (0x41, 0xA2) else none

/-- A sorted list of numbers with one more. -/
def insNat : List Nat → Nat → List Nat
  | [], x => [x]
  | y :: ys, x => if y < x then y :: insNat ys x else if y = x then y :: ys else x :: y :: ys

/-- The kept stamp of a stamp sector leaves its slice, which raises its floor (R123). -/
def State.dropStamp (s : State) (sec : Nat) : State :=
  match amGet s.sectors sec with
  | some t =>
    let h := homeSlice (32 * sec)
    { s with sectors := amErase s.sectors sec, floors := amPut s.floors h (max t.stamp ((amGet s.floors h).getD 0)) }
  | none => s

/-- The kept stamps of a line leave its slice. -/
def State.dropStamps (s : State) (ln : Nat) : State := (List.range 4).foldl (fun s i => s.dropStamp (4 * ln + i)) s

/-- A line leaves its slice of a compute die with its stamps (R91, R123). -/
def State.l2Drop (s : State) (ln : Nat) : State := { s.dropStamps ln with l2 := amErase s.l2 ln }

/-- Room for a line in its slice of a compute die, whose 1.5 MiB hold 12,288 (R16); which line makes room is open (log entry 6). -/
def State.l2Room (s : State) (ln : Nat) : State :=
  let mine := s.l2.filter fun e => homeSlice (128 * e.1) == homeSlice (128 * ln)
  if mine.length < 12288 then s else s.l2Drop (((mine[Config.pick s.choices 12 % mine.length]?).map Prod.fst).getD ln)

/-- An access at a line homed on a compute die (R91, R98, R142): its sectors are valid from then on. Without allocation an absent line
stays absent, and the stamps that a write to it carried are dropped at once (R123). -/
def State.l2Access (s : State) (ln : Nat) (m : BitVec 8) (alloc write : Bool) : State :=
  match amGet s.l2 ln with
  | some v => if alloc || write then { s with l2 := amPut s.l2 ln (v ||| m) } else s
  | none =>
    if alloc then let s := s.l2Room ln; { s with l2 := amPut s.l2 ln m }
    else if write then s.dropStamps ln else s

/-- A line leaves its hub slice with its stamps; what stores left in it is written through first (R92, R115, R123). -/
def State.hubDrop (s : State) (ln : Nat) : State :=
  let s := s.dropStamps ln
  { s with far := if s.hubDirty.contains ln then memStore s.far (128 * ln) (memBytes s.mem (128 * ln) 128) else s.far
           hubLines := amErase s.hubLines ln, hubDirty := s.hubDirty.filter (· != ln) }

/-- Room for a line in its hub slice, which holds 2,048 (R92); which line makes room is open (log entry 6). -/
def State.hubRoom (s : State) (ln : Nat) : State :=
  let mine := s.hubLines.filter fun e => homeSlice (128 * e.1) == homeSlice (128 * ln)
  if mine.length < 2048 then s else s.hubDrop (((mine[Config.pick s.choices 9 % mine.length]?).map Prod.fst).getD ln)

/-- A line in its hub slice for a partition, with some sectors. -/
def State.hubPut (s : State) (part ln : Nat) (m : BitVec 8) (dirty : Bool) : State :=
  { s with hubLines := amPut s.hubLines ln ⟨part, m⟩, hubDirty := if dirty then insNat s.hubDirty ln else s.hubDirty }

/-- An access of a partition at a line of its hub slice, after a write has changed the bytes of `mem` (R91, R92, R98, R142). A
line that another partition left is dropped first, so that no partition is served another's (R320, log entry 97). Without
allocation an absent line stays absent, and a write to it goes straight to the memory behind. -/
def State.hubAccess (s : State) (part ln : Nat) (m : BitVec 8) (alloc write : Bool) : State :=
  let s := match amGet s.hubLines ln with
    | some h => if h.part == part then s else s.hubDrop ln
    | none => s
  match amGet s.hubLines ln with
  | some h => s.hubPut part ln (if alloc || write then h.valid ||| m else h.valid) write
  | none =>
    if alloc then (s.hubRoom ln).hubPut part ln m write
    else if write then { s.dropStamps ln with far := memStore s.far (128 * ln) (memBytes s.mem (128 * ln) 128) } else s

/-- An access of a partition to some bytes at their home slices (R91, R92). -/
def State.sliceTouch (s : State) (part pa n : Nat) (alloc write : Bool) : State :=
  (linesOf pa n).foldl (fun s ln =>
    if isFar pa then s.hubAccess part ln (sectorMask ln pa n) alloc write else s.l2Access ln (sectorMask ln pa n) alloc write) s

/-- The slices hold some bytes for a partition (R91, R320). -/
def State.sliceHolds (s : State) (part pa n : Nat) : Bool :=
  if isFar pa then s.hubHolds part pa n
  else (linesOf pa n).all fun ln => match amGet s.l2 ln with
    | some v => sectorMask ln pa n &&& ~~~v == 0
    | none => false

/-- The dirty far lines of a set are written through to host and expander memory (R115, R131, R210). -/
def State.hubClean (s : State) (sel : Nat → Bool) : State :=
  { s with far := (s.hubDirty.filter sel).foldl (fun m ln => memStore m (128 * ln) (memBytes s.mem (128 * ln) 128)) s.far,
           hubDirty := s.hubDirty.filter fun ln => !sel ln }

/-- Bytes read at the home slice. -/
def State.homeRead (s : State) (pa n : Nat) : List Byte := memBytes s.mem pa n

/-- What a load gets: on a page of a peer device, whose behaviour the spec does not give, free values. -/
def State.loadBytes (s : State) (x : Xl) (pa n : Nat) : List Byte :=
  if x.peer then (List.range n).map fun i => Config.peerByte s.choices (pa + i) else s.homeRead pa n

/-- A performed write triggers the watches of the lines that it touches (R120). -/
def Skein.watchHit (k : Skein) (scratch : Bool) (lot : Nat) (lines : List Nat) : Skein :=
  match k.watch with
  | some w => if w.scratch == scratch && lines.contains w.line && (!scratch || w.lot == lot)
      then { k with watch := some { w with hit := true } } else k
  | none => k

def State.trigger (s : State) (scratch : Bool) (lot a n : Nat) : State :=
  { s with skeins := amMap (fun _ k => k.watchHit scratch lot (linesOf a n)) s.skeins }

/-- The triple that a write leaves in each stamp sector it touches (R123, R378): none removes it. -/
def putSectors (m : AMap Triple) (a n : Nat) (t : Option Triple) : AMap Triple :=
  (List.range ((a + n - 1) / 32 + 1 - a / 32)).foldl (fun m i =>
    match t with
    | some t => amPut m (a / 32 + i) t
    | none => amErase m (a / 32 + i)) m

/-- A page on which the first write of a launch is still to come (R399). -/
def State.marked (s : State) (pa : Nat) : Bool := (amVals s.launches).any fun l => l.marks.contains (pa / 65536)

/-- Two ranges of an address and a size have no byte in common. -/
def apart (a b : Nat × Nat) : Bool := decide (a.1 + a.2 ≤ b.1) || decide (b.1 + b.2 ≤ a.1)

/-- The bytes of a lot's log of comparison points: 4,096 counts of 8 bytes (R416, log entry 108). -/
def logBytes : Nat := 32768

/-- The areas of a partition's context heap that are taken: saved lots, checkpoints, private code pages, snapshots of pages and logs
(R306, R399, R407, R413, R416). -/
def State.heapAreas (s : State) (part : Nat) : List (Nat × Nat) :=
  ((amVals s.saved ++ amVals s.ckpts).filter fun x => x.part == part).map (fun x => (x.area, x.size)) ++
    ((amVals s.launches).filter fun l => l.part == part).flatMap fun l =>
      (amVals l.privPages).map (fun a => (a, 65536)) ++ (amVals l.snap).map (fun e => (e.1, 65536)) ++
        (amVals l.log).map fun e => (e.1, logBytes)

/-- The bytes of a partition's context heap that are taken. -/
def State.heapUsed (s : State) (part : Nat) : Nat := (s.heapAreas part).foldl (fun n a => n + a.2) 0

/-- A free area of the heap, aligned; which one is open. None when the heap has no room. -/
def State.heapFind (s : State) (part size step : Nat) (more : List (Nat × Nat)) : Option Nat :=
  let lo := s.heapBase part
  let top := lo + s.heapSize part
  let used := s.heapAreas part ++ more
  let ok := fun (a : Nat) => decide (lo ≤ a && a + size ≤ top) && used.all (apart (a, size))
  let up := fun (a : Nat) => (a + step - 1) / step * step
  if s.heapSize part < s.heapUsed part + size + (more.map Prod.snd).foldl (· + ·) 0 then none
  else
    let any := lo + step * (Config.pick s.choices 7 % (s.heapSize part / step + 1))
    if ok any then some any else (up lo :: used.map fun r => up (r.1 + r.2)).find? ok

/-- The poisoned 16-byte sectors of a 64 KiB page. -/
def State.poisonOn (s : State) (page : Nat) : List Nat := s.poison.filter fun x => x / 4096 == page

/-- Bytes written into the context heap, without stamps. -/
def State.heapPut (s : State) (a : Nat) (bs : List Byte) : State :=
  { s with mem := memStore s.mem a bs, sectors := putSectors s.sectors a bs.length none
           poison := s.poison.filter fun x => !(a ≤ 16 * x && 16 * x + 16 ≤ a + bs.length) }

/-- The old contents of a page that launches have marked are copied into the context heap, which of its sectors are poisoned with them,
and the marks are cleared; a full heap drops the launch's snapshot (R399). -/
def State.snapPage (s : State) (page : Nat) : State :=
  s.launches.foldl (fun s e =>
    if e.2.marks.contains page then
      match s.heapFind e.2.part 65536 128 [] with
      | some a =>
        let t := s.heapPut a (memBytes s.mem (65536 * page) 65536)
        let l := { e.2 with marks := e.2.marks.filter (· != page), snap := amPut e.2.snap page (a, s.poisonOn page) }
        { t with launches := amPut t.launches e.1 l }
      | none => { s with launches := amPut s.launches e.1 { e.2 with marks := [], snap := [], snapOk := false } }
    else s) s

/-- The 64 KiB pages that `n` bytes touch. -/
def pagesOf (pa n : Nat) : List Nat := (List.range ((pa + n - 1) / 65536 + 1 - pa / 65536)).map (· + pa / 65536)

/-- The marked pages among those that `n` bytes touch are copied before a write of these bytes (R399). -/
def State.snapPages (s : State) (pa n : Nat) : State :=
  (pagesOf pa n).foldl (fun s p => if s.marked (65536 * p) then s.snapPage p else s) s

/-- Bytes performed at their home slices (R116): memory, stamps, poison, watches. A marked page is copied first (R399); the
writes of lots and engines wait for that copy as a step of its own. -/
def State.homePut (s : State) (pa : Nat) (bs : List Byte) (t : Option Triple) : State :=
  let s := s.snapPages pa bs.length
  ({ s with mem := memStore s.mem pa bs
            sectors := putSectors s.sectors pa bs.length t
            poison := s.poison.filter fun x => !(pa ≤ 16 * x && 16 * x + 16 ≤ pa + bs.length) } : State).trigger
    false 0 pa bs.length

/-- A write for a partition; `alloc` says that the slice may allocate its line (R98, R142). -/
def State.homeStore (s : State) (part pa : Nat) (alloc : Bool) (bs : List Byte) (t : Option Triple) : State :=
  (s.homePut pa bs t).sliceTouch part pa bs.length alloc true

/-- A write of the hub's own for a partition, or of the host: a line that the slice holds for the partition takes it, and any other goes
to the memory behind. -/
def State.homeWrite (s : State) (part pa : Nat) (bs : List Byte) (t : Option Triple) : State := s.homeStore part pa false bs t

/-- A write through a translation: a peer device takes it, and what it does with it the spec does not give (log entry 8); an
uncached page allocates nothing (R98). -/
def State.storeAt (s : State) (part : Nat) (x : Xl) (alloc : Bool) (bs : List Byte) (t : Option Triple) : State :=
  if x.peer then s else s.homeStore part x.pa (alloc && x.cache != 2) bs t

/-- The stamp that an acquire observes: the kept one, or the slice's floor E (R123). -/
def State.observed (s : State) (pa : Nat) : Nat :=
  match amGet s.sectors (pa / 32) with
  | some t => t.stamp
  | none => (amGet s.floors (homeSlice pa)).getD 0

/-- The race test of R378 against one kept triple. -/
def raceFlag (t : Option Triple) (wid : BitVec 20) (m : Nat) (ordered : Bool) : Bool :=
  match t with
  | some t => t.wid != wid && decide (m ≤ t.stamp) && !(t.ord && ordered)
  | none => false

/-- The lowest VA bit of the page that an entry of the fault buffer is about: that of the leaf which refused the access or was
malformed, else of the smallest page (R370, log entry 107). -/
def FaultEnt.shift (e : FaultEnt) : Nat := if e.code != 0x30 && e.level ≤ 2 && e.pte.getLsbD 1 then levelShift e.level else 16

/-- An address lies on the page of an entry. -/
def FaultEnt.onPage (e : FaultEnt) (va : DWord) : Bool := e.va.toNat / 2 ^ e.shift == va.toNat / 2 ^ e.shift

/-- An access at an address waits in the fault buffer for a reply (R370). -/
def State.heldAt (s : State) (r : AccRef) (va : DWord) : Bool := s.faults.any fun e => e.onPage va && e.who.contains r

-- the L1 of a core (R90)
def defaultTile : Tile := { elems := [], int := false, rsum := [], csum := [], rex := [], cex := [], flags := 0, ver := true,
                            kdone := 0, ktot := 0, ckDone := 0, ckTot := 0, ksum := 0, emax := -126 }
def levelCap : Nat := 16320
def defaultCore : Core :=
  { carve := 0, hands := [], l1 := [], ccache := [], stores := [], storeSeq := 0,
    iq := List.replicate 4 { cur := none, run := 0, latch := [], erred := none }, tiles := List.replicate 4 defaultTile, cmds := [], entry := 0,
    owner := none, level := levelCap, lastT := 0, refilled := 0, rot := 0, turn := 0, due := [], reqs := 0, samples := [], prefs := [] }
def State.core (s : State) (c : Nat) : Core := (amGet s.cores c).getD defaultCore
def State.setCore (s : State) (c : Nat) (k : Core) : State := { s with cores := amPut s.cores c k }
def State.updCore (s : State) (c : Nat) (f : Core → Core) : State := s.setCore c (f (s.core c))

/-- The bytes of a line that some bytes at `pa` replace. -/
def patch (ln : Nat) (data : List Byte) (pa : Nat) (bs : List Byte) : List Byte :=
  data.mapIdx fun i b => if pa ≤ 128 * ln + i && 128 * ln + i < pa + bs.length then (bs[128 * ln + i - pa]?).getD b else b

/-- A store updates the lines that its core's L1 holds (R90, R114, R418). -/
def State.l1Store (s : State) (c pa : Nat) (bs : List Byte) : State :=
  (linesOf pa bs.length).foldl (fun s n => match amGet (s.core c).l1 n with
    | some ln => s.updCore c fun k => { k with l1 := amPut k.l1 n { ln with data := patch n ln.data pa bs } }
    | none => s) s

/-- The lowest row that L1 may fill: above the carve-out, and above the rows that pass to scratchpad (R88, R89). -/
def Core.l1Low (k : Core) : Nat := k.hands.foldl (fun m e => max m e.1) k.carve

/-- A line filled into L1 (R90). Which row takes it is open; a row holds six lines, and a full one drops one of them, which one is open
too (R88, log entry 6). -/
def State.l1Fill (s : State) (c line : Nat) : State :=
  s.updCore c fun k =>
    let row := k.l1Low + Config.pick s.choices 2 % (512 - k.l1Low)
    let l1 := amErase k.l1 line
    let mine := l1.filter fun e => e.2.row == row
    let l1 := if mine.length < 6 then l1
      else amErase l1 (((mine[Config.pick s.choices 10 % mine.length]?).map Prod.fst).getD line)
    { k with l1 := amPut l1 line ⟨s.homeRead (128 * line) 128, s.tick, row⟩ }

-- timeline blocks (R125, R217)
def State.tlValue (s : State) (pa : Nat) : Nat := memNat s.mem pa 8
def State.tlIssued (s : State) (pa : Nat) : Nat := memNat s.mem (pa + 8) 8
def State.tlCtx (s : State) (pa : Nat) : TlCtx := (amGet s.tls pa).getD ⟨0, [], [], 0⟩
def State.setTl (s : State) (pa : Nat) (t : TlCtx) : State := { s with tls := amPut s.tls pa t }

/-- VALUE raised to max(VALUE, v) at the home slice (R125). -/
def State.tlRaise (s : State) (pa v stamp : Nat) : State :=
  let t := s.tlCtx pa
  let s := s.setTl pa { t with pub := max t.pub stamp }
  if s.tlValue pa < v then s.homeWrite t.part pa (leBytes v 8) none else s

/-- The completion frontier F: one below the lowest number still open, or ISSUED when none is (R125). -/
def State.tlFront (s : State) (pa : Nat) : Nat :=
  match (s.tlCtx pa).opn with
  | [] => s.tlIssued pa
  | k :: ks => ks.foldl min k - 1

/-- The number k that an accepted operation takes (R217). -/
def State.tlAccept (s : State) (part pa : Nat) : State × Nat :=
  let k := (s.tlIssued pa + 1) % 2 ^ 64
  let t := s.tlCtx pa
  ((s.setTl pa { t with part := part, opn := insNat t.opn k }).homeWrite part (pa + 8) (leBytes k 8) none, k)

/-- Operation k of a context completes (R125): where F grows, VALUE follows it and publishes the largest completion stamp
of the operations up to F. -/
def State.tlComplete (s : State) (pa k stamp : Nat) : State :=
  let t := s.tlCtx pa
  let s' := s.setTl pa { t with opn := t.opn.filter (· != k), stamps := amPut t.stamps k stamp }
  let f := s'.tlFront pa
  let t' := s'.tlCtx pa
  if s.tlFront pa < f then
    (s'.setTl pa { t' with stamps := t'.stamps.filter fun e => decide (f < e.1) }).tlRaise pa f
      ((t'.stamps.filter fun e => e.1 ≤ f).foldl (fun m e => max m e.2) t'.pub)
  else s'

/-- An operation of the hub on a timeline block (R125, R281, R315, R319): it takes its number and completes at once, and VALUE follows the
completion frontier, by 1 where no operation before it still runs and no TLADV has passed it (log entry 98). -/
def State.tlMark (s : State) (part pa stamp : Nat) : State :=
  let (t, k) := s.tlAccept part pa
  t.tlComplete pa k stamp

end Sys2Proof.Machine
end

