-- ==== Sys2Proof/Machine/Flags.lean ====
section
/-! DEFINITION. Number formats, rounding and the flags of `%fflags` (R60 to R77): a floating-point value as an exact
dyadic number, `roundTo` (R69), conversions (R71, R72, R187), exact sums, quotients and roots, chunk sums (R76) and the
special functions (R184, R185), each correctly rounded. -/

namespace Sys2Proof

/-- The sticky flags: NV in bit 4, DZ, OF, UF, NX in bit 0 (R48). -/
abbrev FFlags := BitVec 5
def fNV : FFlags := 0x10
def fDZ : FFlags := 0x08
def fOF : FFlags := 0x04
def fUF : FFlags := 0x02
def fNX : FFlags := 0x01

/-- The binary formats of R60. -/
inductive FpFmt where
  | f64 | f32 | f16 | bf16 | e5m2 | e4m3 | e2m1 | e3m5
  deriving DecidableEq, Repr, Inhabited

namespace FpFmt

/-- Fraction bits (R60). -/
def mbits : FpFmt → Nat
  | .f64 => 52 | .f32 => 23 | .f16 => 10 | .bf16 => 7 | .e5m2 => 2 | .e4m3 => 3 | .e2m1 => 1 | .e3m5 => 5

/-- Exponent bits (R60). -/
def ebits : FpFmt → Nat
  | .f64 => 11 | .f32 => 8 | .f16 => 5 | .bf16 => 8 | .e5m2 => 5 | .e4m3 => 4 | .e2m1 => 2 | .e3m5 => 3

/-- Bias (R61). -/
def bias : FpFmt → Nat
  | .f64 => 1023 | .f32 => 127 | .f16 => 15 | .bf16 => 127 | .e5m2 => 15 | .e4m3 => 7 | .e2m1 => 1 | .e3m5 => 3

def emin (f : FpFmt) : Int := 1 - (f.bias : Int)

/-- Bits without the sign. -/
def magBits (f : FpFmt) : Nat := f.ebits + f.mbits

/-- Width in bits (R60): E3M5 has no sign. -/
def width (f : FpFmt) : Nat := if f = .e3m5 then 8 else f.magBits + 1

/-- Whether the format has infinities (R60). -/
def hasInf : FpFmt → Bool
  | .e4m3 | .e2m1 | .e3m5 => false
  | _ => true

/-- The largest finite magnitude, as bits (R61). -/
def maxBits (f : FpFmt) : Nat :=
  match f with
  | .e4m3 => 0x7E
  | .e2m1 => 0x7
  | .e3m5 => 0xFF
  | _ => (2 ^ f.ebits - 1) * 2 ^ f.mbits - 1

/-- Infinity as bits, in the formats that have one (R61). -/
def infBits (f : FpFmt) : Nat := (2 ^ f.ebits - 1) * 2 ^ f.mbits

/-- The canonical quiet NaN (R62); E2M1 and E3M5 have none, and their conversions give 0 (R71). -/
def nanBits (f : FpFmt) : Nat :=
  match f with
  | .e4m3 => 0x7F
  | .e2m1 => 0
  | .e3m5 => 0
  | _ => f.infBits + 2 ^ (f.mbits - 1)

/-- The sign bit of a negative value; E3M5 has none. -/
def signBits (f : FpFmt) (neg : Bool) : Nat := if neg && f != .e3m5 then 2 ^ f.magBits else 0

end FpFmt

/-- A floating-point value: NaN (signalling or not), infinity, or exactly (−1)^neg × m × 2^e, zero with its sign. -/
inductive FVal where
  | nan (signalling : Bool)
  | inf (neg : Bool)
  | fin (neg : Bool) (m : Nat) (e : Int)
  deriving DecidableEq, Repr, Inhabited

/-- The value of an encoding (R61, R62). -/
def decodeF (f : FpFmt) (x : Nat) : FVal :=
  let mag := x % 2 ^ f.magBits
  let neg := f != .e3m5 && (x / 2 ^ f.magBits) % 2 == 1
  let ef := mag / 2 ^ f.mbits
  let mf := mag % 2 ^ f.mbits
  if f.hasInf && ef == 2 ^ f.ebits - 1 then
    if mf == 0 then .inf neg else .nan (mf / 2 ^ (f.mbits - 1) == 0)
  else if f = .e4m3 ∧ mag = 0x7F then .nan false
  else if ef == 0 then .fin neg mf (f.emin - f.mbits)
  else .fin neg (2 ^ f.mbits + mf) ((ef : Int) - f.bias - f.mbits)

namespace FVal

def isNan : FVal → Bool
  | .nan _ => true
  | _ => false

def isSnan : FVal → Bool
  | .nan s => s
  | _ => false

def isZero : FVal → Bool
  | .fin _ m _ => m == 0
  | _ => false

def neg : FVal → Bool
  | .nan _ => false
  | .inf n => n
  | .fin n _ _ => n

def negate : FVal → FVal
  | .nan s => .nan s
  | .inf n => .inf !n
  | .fin n m e => .fin (!n) m e

/-- NV for a signalling NaN (R73). -/
def snanFlag (v : FVal) : FFlags := if v.isSnan then fNV else 0

end FVal

/-- The exact value of an integer. -/
def FVal.ofInt (n : Int) : FVal := .fin (n < 0) n.natAbs 0

/-- `overflow_result` (R70). -/
def overflowResult (f : FpFmt) (mode : RMode) (neg : Bool) : Nat :=
  let toInf :=
    f.hasInf &&
    (match mode with
     | .rne | .rna => true
     | .rz | .sr => false
     | .rup => !neg
     | .rdn => neg)
  f.signBits neg + if toInf then f.infBits else f.maxBits

/-- Whether a magnitude of integer part `low` with a fraction of rem / 2^sh (plus a positive remainder below its last
place when `sticky`) rounds up (R69). -/
def roundsUp (mode : RMode) (neg : Bool) (low rem sh : Nat) (sticky : Bool) (rword : Nat) : Bool :=
  let inexact := rem != 0 || sticky
  let twice := 2 * rem
  let one := 2 ^ sh
  match mode with
  | .rz => false
  | .rup => inexact && !neg
  | .rdn => inexact && neg
  | .rne => twice > one || (twice == one && (sticky || low % 2 == 1))
  | .rna => twice ≥ one
  | .sr => rem * 65536 / one + rword ≥ 65536

/-- `round_to` (R69) of the nonzero value (−1)^neg × (m + δ) × 2^e, where 0 < δ < 1 when `sticky` and δ = 0 otherwise.
A sticky value must carry more bits than the format holds. Answers the encoding and the flags raised. -/
def roundFin (f : FpFmt) (mode : RMode) (rword : Nat) (neg : Bool) (m : Nat) (e : Int) (sticky : Bool) : Nat × FFlags :=
  let k : Int := (Nat.log2 m : Int) + e
  let ue : Int := max k f.emin - f.mbits
  let d := e - ue
  let sh := (-d).toNat
  let low := if d ≥ 0 then m * 2 ^ d.toNat else m / 2 ^ sh
  let rem := if d ≥ 0 then 0 else m % 2 ^ sh
  let up := roundsUp mode neg low rem sh sticky rword
  let inexact := rem != 0 || sticky
  let bits := (ue + f.mbits - f.emin).toNat * 2 ^ f.mbits + low + up.toNat
  let nx := if inexact then fNX else 0
  let uf := if inexact && k < f.emin then fUF else 0
  if bits > f.maxBits then (overflowResult f mode neg, nx ||| uf ||| fOF ||| fNX)
  else (f.signBits neg + bits, nx ||| uf)

/-- A value into a format: NaN as R62 and R71, infinity and zero as R63, R69 and R71, and `round_to` otherwise. -/
def roundVal (f : FpFmt) (mode : RMode) (rword : Nat) (v : FVal) : Nat × FFlags :=
  match v with
  | .nan s => (f.nanBits, if f = .e2m1 ∨ f = .e3m5 then fNV else if s then fNV else 0)
  | .inf n =>
    if f = .e3m5 ∧ n = true then (0, fNV)
    else if f.hasInf then (f.signBits n + f.infBits, 0)
    else (f.signBits n + f.maxBits, fOF ||| fNX)
  | .fin n m e =>
    if m = 0 then (f.signBits n, 0)
    else if f = .e3m5 ∧ n = true then (0, fNV)
    else roundFin f mode rword n m e false

/-! ### Exact arithmetic -/

/-- The sum of two signed dyadics: value and exponent. -/
def addDy (a : Int × Int) (b : Int × Int) : Int × Int :=
  if a.2 ≤ b.2 then (a.1 + b.1 * 2 ^ (b.2 - a.2).toNat, a.2)
  else (a.1 * 2 ^ (a.2 - b.2).toNat + b.1, b.2)

/-- A finite value as a signed dyadic. -/
def FVal.dy : FVal → Int × Int
  | .fin n m e => (if n then -(m : Int) else m, e)
  | _ => (0, 0)

/-- A signed dyadic as a value; exactly zero takes the given sign. -/
def ofDy (x : Int × Int) (zeroNeg : Bool) : FVal :=
  if x.1 = 0 then .fin zeroNeg 0 0 else .fin (x.1 < 0) x.1.natAbs x.2

/-- Exact a + b with the zero rule of R63, and NV for ∞ − ∞ (R73). Signalling operands are flagged by the caller. -/
def addVal (mode : RMode) (a b : FVal) : FVal × FFlags :=
  match a, b with
  | .nan _, _ => (.nan false, 0)
  | _, .nan _ => (.nan false, 0)
  | .inf n, .inf m => if n = m then (.inf n, 0) else (.nan false, fNV)
  | .inf n, _ => (.inf n, 0)
  | _, .inf m => (.inf m, 0)
  | .fin n x _, .fin m y _ =>
    if x = 0 ∧ y = 0 then (.fin (if n = m then n else mode == .rdn) 0 0, 0)
    else (ofDy (addDy a.dy b.dy) (mode == .rdn), 0)

/-- Exact a × b with the sign rule of R63, and NV for 0 × ∞ (R73). -/
def mulVal (a b : FVal) : FVal × FFlags :=
  match a, b with
  | .nan _, _ => (.nan false, 0)
  | _, .nan _ => (.nan false, 0)
  | .inf n, .inf m => (.inf (n != m), 0)
  | .inf n, .fin m y _ => if y = 0 then (.nan false, fNV) else (.inf (n != m), 0)
  | .fin n x _, .inf m => if x = 0 then (.nan false, fNV) else (.inf (n != m), 0)
  | .fin n x e, .fin m y g => (.fin (n != m) (x * y) (e + g), 0)

/-- Round, adding flags already raised. -/
def roundWith (f : FpFmt) (mode : RMode) (r : FVal × FFlags) (fl : FFlags) : Nat × FFlags :=
  let o := roundVal f mode 0 r.1
  (o.1, o.2 ||| r.2 ||| fl)

/-- FADD, FSUB, FMUL, FFMA on encodings (R178). -/
def fpAdd (f : FpFmt) (mode : RMode) (a b : FVal) : Nat × FFlags :=
  roundWith f mode (addVal mode a b) (a.snanFlag ||| b.snanFlag)

def fpMul (f : FpFmt) (mode : RMode) (a b : FVal) : Nat × FFlags :=
  roundWith f mode (mulVal a b) (a.snanFlag ||| b.snanFlag)

def fpFma (f : FpFmt) (mode : RMode) (a b c : FVal) : Nat × FFlags :=
  let p := mulVal a b
  roundWith f mode (addVal mode p.1 c) (p.2 ||| a.snanFlag ||| b.snanFlag ||| c.snanFlag)

/-- Integer part of a root by Newton's iteration from above, with fuel. -/
def isqrtGo : Nat → Nat → Nat → Nat
  | 0, _, x => x
  | k + 1, n, x =>
    let y := (x + n / x) / 2
    if y < x then isqrtGo k n y else x

/-- The largest r with r × r ≤ n. -/
def isqrt (n : Nat) : Nat := if n = 0 then 0 else isqrtGo 64 n (2 ^ (Nat.log2 n / 2 + 1))

/-- a / b, correctly rounded (RCP, WELF and WMRG), with the special cases of R73 and R185. -/
def fpDiv (f : FpFmt) (mode : RMode) (a b : FVal) : Nat × FFlags :=
  let fl := a.snanFlag ||| b.snanFlag
  match a, b with
  | .nan _, _ => (f.nanBits, fl)
  | _, .nan _ => (f.nanBits, fl)
  | .inf n, .fin m _ _ => (f.signBits (n != m) + f.infBits, 0)
  | .inf _, .inf _ => (f.nanBits, fNV)
  | .fin n _ _, .inf m => (f.signBits (n != m), 0)
  | .fin n x e, .fin m y g =>
    if y = 0 then (if x = 0 then (f.nanBits, fNV) else (f.signBits (n != m) + f.infBits, fDZ))
    else if x = 0 then (f.signBits (n != m), 0)
    else
      let s := Nat.log2 y + 80
      let q := (x * 2 ^ s) / y
      let r := (x * 2 ^ s) % y
      roundFin f mode 0 (n != m) q (e - g - s) (r != 0)

/-- √a, correctly rounded (R185). -/
def fpSqrt (f : FpFmt) (mode : RMode) (a : FVal) : Nat × FFlags :=
  match a with
  | .nan s => (f.nanBits, if s then fNV else 0)
  | .inf n => if n then (f.nanBits, fNV) else (f.infBits, 0)
  | .fin n m e =>
    if m = 0 then (f.signBits n, 0)
    else if n then (f.nanBits, fNV)
    else
      let s : Nat := 160 + (e % 2).toNat
      let x := m * 2 ^ s
      let r := isqrt x
      roundFin f mode 0 false r ((e - s) / 2) (r * r != x)

/-- Lesser or greater of two values under −0 < +0 (R179): whether the first is below the second. -/
def ltVal (a b : FVal) : Bool :=
  match a, b with
  | .nan _, _ => false
  | _, .nan _ => false
  | .inf n, .inf m => n && !m
  | .inf n, .fin .. => n
  | .fin .., .inf m => !m
  | .fin n x _, .fin m y _ =>
    if x = 0 ∧ y = 0 then n && !m
    else (addDy a.dy (b.negate).dy).1 < 0

/-- Numeric comparison, in which +0 and −0 are equal (R180). -/
def eqVal (a b : FVal) : Bool :=
  match a, b with
  | .nan _, _ => false
  | _, .nan _ => false
  | .inf n, .inf m => n == m
  | .inf _, .fin .. => false
  | .fin .., .inf _ => false
  | .fin .., .fin .. => (addDy a.dy (b.negate).dy).1 == 0

/-- FMIN, FMAX (`nanWins` false) and FMINM, FMAXM (`nanWins` true) on encodings: the operand returned, and NV (R179). -/
def fpMinMax (f : FpFmt) (isMax nanWins : Bool) (x y : Nat) : Nat × FFlags :=
  let a := decodeF f x
  let b := decodeF f y
  let fl := a.snanFlag ||| b.snanFlag
  let r :=
    if a.isNan && b.isNan then f.nanBits
    else if a.isNan then (if nanWins then f.nanBits else y)
    else if b.isNan then (if nanWins then f.nanBits else x)
    else if ltVal a b then (if isMax then y else x) else (if isMax then x else y)
  (r, fl)

/-- FCMP and FSET (R180): the truth of a condition, and NV. -/
def fpCmp (cc : FCond) (a b : FVal) : Bool × FFlags :=
  let un := a.isNan || b.isNan
  let lt := !un && ltVal a b && !eqVal a b
  let eq := eqVal a b
  let snan := a.snanFlag ||| b.snanFlag
  let anyNan : FFlags := if un then fNV else 0
  match cc with
  | .eq => (eq, snan)
  | .ne => (!un && !eq, snan)
  | .lt => (lt, anyNan)
  | .le => (lt || eq, anyNan)
  | .gt => (!un && !lt && !eq, anyNan)
  | .ge => (!un && !lt, anyNan)
  | .equ => (un || eq, snan)
  | .neu => (un || !eq, snan)
  | .ltu => (un || lt, snan)
  | .leu => (un || lt || eq, snan)
  | .gtu => (un || (!lt && !eq), snan)
  | .geu => (un || !lt, snan)
  | .num => (!un, snan)
  | .nan => (un, snan)

/-- A magnitude m × 2^e rounded to an integer (R72, R181): the integer, and whether it is inexact. -/
def roundMag (mode : RMode) (neg : Bool) (m : Nat) (e : Int) : Nat × Bool :=
  if e ≥ 0 then (m * 2 ^ e.toNat, false)
  else
    let sh := (-e).toNat
    let low := m / 2 ^ sh
    let rem := m % 2 ^ sh
    (low + (roundsUp mode neg low rem sh false 0).toNat, rem != 0)

/-- FRND (R181). -/
def fpRnd (f : FpFmt) (mode : RMode) (exact : Bool) (x : Nat) : Nat × FFlags :=
  match decodeF f x with
  | .nan s => (f.nanBits, if s then fNV else 0)
  | .inf n => (f.signBits n + f.infBits, 0)
  | .fin n m e =>
    if m = 0 then (f.signBits n, 0)
    else
      let r := roundMag mode n m e
      ((roundVal f .rz 0 (.fin n r.1 0)).1, if exact && r.2 then fNX else 0)

/-- FCLASS (R181). -/
def fpClass (f : FpFmt) (x : Nat) : Nat :=
  match decodeF f x with
  | .nan s => if s then 0x100 else 0x200
  | .inf n => if n then 0x001 else 0x080
  | .fin n m e =>
    if m = 0 then (if n then 0x008 else 0x010)
    else if (Nat.log2 m : Int) + e < f.emin then (if n then 0x004 else 0x020)
    else if n then 0x002 else 0x040

/-- FSCL: a × 2^b (R181). The scale is limited to ±5,000, past which every format overflows or rounds as at the limit. -/
def fpScl (f : FpFmt) (mode : RMode) (a : FVal) (b : Int) : Nat × FFlags :=
  match a with
  | .fin n m e => roundVal f mode 0 (.fin n m (if m = 0 then e else e + max (-5000) (min 5000 b)))
  | v => roundVal f mode 0 v

/-- FEXT.exp (R181). -/
def fpExtExp (a : FVal) : BitVec 32 × FFlags :=
  match a with
  | .nan s => (0x7FFFFFFF, fNV ||| if s then fNV else 0)
  | .inf _ => (0x7FFFFFFF, 0)
  | .fin _ m e => if m = 0 then (0x80000000, fDZ) else (BitVec.ofInt 32 ((Nat.log2 m : Int) + e), 0)

/-- FEXT.sig (R181). -/
def fpExtSig (f : FpFmt) (a : FVal) : Nat × FFlags :=
  match a with
  | .fin n m _ => if m = 0 then (f.signBits n, 0) else roundVal f .rz 0 (.fin n m (-(Nat.log2 m : Int)))
  | v => roundVal f .rz 0 v

/-! ### Chunk sums (R76) -/

/-- A term of a chunk that is a product: 0 × ∞ is a NaN term (R76). -/
def mulTerm (a b : FVal) : FVal := (mulVal a b).1

/-- The value of one chunk (R76): NaN with NV, an infinity, or the exact sum; an exactly zero sum takes its sign from
the terms, and from RDN. -/
def chunkVal (mode : RMode) (terms : List FVal) : FVal × FFlags :=
  let posInf := terms.any (fun t => t == .inf false)
  let negInf := terms.any (fun t => t == .inf true)
  if terms.any FVal.isNan || (posInf && negInf) then (.nan false, fNV)
  else if posInf then (.inf false, 0)
  else if negInf then (.inf true, 0)
  else
    let s := terms.foldl (fun acc t => addDy acc t.dy) (0, 0)
    let zneg :=
      if mode == .rdn then !(terms.all (fun t => t.isZero && !t.neg))
      else !terms.isEmpty && terms.all (fun t => t.isZero && t.neg)
    (ofDy s zneg, 0)

/-- One chunk rounded by itself (R182, R183, R199). -/
def roundChunk (f : FpFmt) (mode : RMode) (terms : List FVal) : Nat × FFlags :=
  let c := chunkVal mode terms
  roundWith f mode c 0

/-- One chunk added into a running total held as an encoding (R76). -/
def chunkInto (f : FpFmt) (total : Nat) (terms : List FVal) : Nat × FFlags :=
  let c := chunkVal .rne terms
  let t := decodeF f total
  roundWith f .rne (addVal .rne t c.1) (c.2 ||| t.snanFlag)

/-! ### Conversion (R71, R72, R187 to R189) -/

/-- What a FMT code means in DFMT and SFMT: a binary format, or an integer of some width and signedness (R141). -/
inductive NumTy where
  | fp (f : FpFmt)
  | int (w : Nat) (signed : Bool)
  deriving DecidableEq, Repr, Inhabited

def Fmt.num : Fmt → NumTy
  | .raw => .fp .e3m5 | .f32 => .fp .f32 | .f64 => .fp .f64 | .f16 => .fp .f16 | .bf16 => .fp .bf16
  | .e4m3 => .fp .e4m3 | .e5m2 => .fp .e5m2 | .e2m1 => .fp .e2m1
  | .i8 => .int 8 true | .n8 => .int 8 false | .i16 => .int 16 true | .n16 => .int 16 false
  | .i32 => .int 32 true | .n32 => .int 32 false | .i64 => .int 64 true | .n64 => .int 64 false

/-- The integer that the low w bits of x hold. -/
def intOf (w : Nat) (signed : Bool) (x : Nat) : Int :=
  let y := x % 2 ^ w
  if signed && decide (2 * y ≥ 2 ^ w) then (y : Int) - 2 ^ w else y

/-- Saturation to a w-bit range (R155). -/
def satInt (w : Nat) (signed : Bool) (n : Int) : Int :=
  if signed then max (-(2 ^ (w - 1) : Int)) (min (2 ^ (w - 1) - 1) n) else max 0 (min (2 ^ w - 1) n)

/-- n modulo 2^w as a 64-bit pattern, sign- or zero-extended as the type states. -/
def intBits (n : Int) : DWord := BitVec.ofInt 64 n

/-- The value of a source of a numeric type. -/
def NumTy.val (t : NumTy) (x : Nat) : FVal :=
  match t with
  | .fp f => decodeF f x
  | .int w s => FVal.ofInt (intOf w s x)

/-- A floating-point value into an integer format (R72). -/
def toInt (w : Nat) (signed : Bool) (mode : RMode) (v : FVal) : DWord × FFlags :=
  match v with
  | .nan _ => (0, fNV)
  | .inf n => (intBits (satInt w signed (if n then -(2 ^ 64) else 2 ^ 64)), fNV)
  | .fin n m e =>
    let r := roundMag mode n m (min e 70)
    let x : Int := if n then -(r.1 : Int) else r.1
    let y := satInt w signed x
    if y = x then (intBits y, if r.2 then fNX else 0) else (intBits y, fNV)

/-- A value into a numeric type: the encoding, narrow formats in the low bits, integers extended (R187). -/
def convert (d : NumTy) (mode : RMode) (rword : Nat) (v : FVal) : DWord × FFlags :=
  match d with
  | .fp f => let r := roundVal f mode rword v; (BitVec.ofNat 64 r.1, r.2 ||| v.snanFlag)
  | .int w s => toInt w s mode v

/-- CVT of one element (R187): integers to integers saturate without flags. -/
def cvtOne (d s : NumTy) (mode : RMode) (rword : Nat) (x : Nat) : DWord × FFlags :=
  match d, s with
  | .int w sg, .int w' sg' => (intBits (satInt w sg (intOf w' sg' x)), 0)
  | _, _ => convert d mode rword (s.val x)

/-- CVTS: the exact product of a source and an FP32 scale, converted once (R189). -/
def cvtScaled (d s : NumTy) (mode : RMode) (rword : Nat) (x scale : Nat) : DWord × FFlags :=
  let a := s.val x
  let b := decodeF .f32 scale
  let p := mulVal a b
  let r := convert d mode rword p.1
  (r.1, r.2 ||| p.2 ||| a.snanFlag ||| b.snanFlag)

/-! ### Special functions (R184, R185)

Each value is computed in fixed point to 400 fraction bits. A result that is not one of the exact cases is irrational,
so it never lies on a rounding boundary, and the bits below the 400th are covered by `sticky`. -/

/-- Fraction bits of the fixed-point evaluations. -/
def fxP : Nat := 400

/-- ln 2 and π in units of 2^−512, rounded down. -/
def ln2C : Nat :=
  0xB17217F7D1CF79ABC9E3B39803F2F6AF40F343267298B62D8A0D175B8BAAFA2BE7B876206DEBAC98559552FB4AFA1B10ED2EAE35C138214427573B291169B825
def piC : Nat :=
  0x3243F6A8885A308D313198A2E03707344A4093822299F31D0082EFA98EC4E6C89452821E638D01377BE5466CF34E90C6CC0AC29B7C97C50DD3F84D5B5B5470917

/-- ln 2 and π in units of 2^−P. -/
def ln2F : Nat := ln2C / 2 ^ (512 - fxP)
def piF : Nat := piC / 2 ^ (512 - fxP)

/-- Σ x^i / i! from term i on, in units of 2^−P, by the fuel given. -/
def expGo : Nat → Nat → Nat → Nat → Nat
  | 0, _, _, _ => 0
  | k + 1, i, x, t => t + expGo k (i + 1) x (t * x / 2 ^ fxP / (i + 1))

/-- e^x for 0 ≤ x < 1 in units of 2^−P. -/
def expF (x : Nat) : Nat := expGo 90 0 x (2 ^ fxP)

/-- Alternating series t − t x² / ((i+1)(i+2)) + … in units of 2^−P. -/
def trigGo : Nat → Nat → Nat → Int → Int
  | 0, _, _, _ => 0
  | k + 1, i, x2, t => t + trigGo k (i + 2) x2 (-(t * x2 / 2 ^ fxP / ((i + 1) * (i + 2))))

/-- sin x and cos x for 0 ≤ x ≤ 1 in units of 2^−P. -/
def sinF (x : Nat) : Nat := (trigGo 60 1 (x * x / 2 ^ fxP) x).toNat
def cosF (x : Nat) : Nat := (trigGo 60 0 (x * x / 2 ^ fxP) (2 ^ fxP)).toNat

/-- Σ z^(2j+1) / (2j+1) in units of 2^−P. -/
def atanhGo : Nat → Nat → Nat → Nat → Nat
  | 0, _, _, _ => 0
  | k + 1, i, z2, t => t / i + atanhGo k (i + 2) z2 (t * z2 / 2 ^ fxP)

/-- ln x for 1 ≤ x < 2 in units of 2^−P. -/
def lnF (x : Nat) : Nat :=
  let z := (x - 2 ^ fxP) * 2 ^ fxP / (x + 2 ^ fxP)
  2 * atanhGo 140 1 (z * z / 2 ^ fxP) z

/-- RSQ (R185): exact for powers of 4, irrational otherwise or with more bits than the format holds. -/
def fpRsq (f : FpFmt) (mode : RMode) (a : FVal) : Nat × FFlags :=
  match a with
  | .nan s => (f.nanBits, if s then fNV else 0)
  | .inf n => if n then (f.nanBits, fNV) else (0, 0)
  | .fin n m e =>
    if m = 0 then (f.signBits n + f.infBits, fDZ)
    else if n then (f.nanBits, fNV)
    else
      let m2 := if e % 2 = 0 then m else 2 * m
      let e2 := if e % 2 = 0 then e else e - 1
      let q := isqrt (2 ^ 400 / m2)
      roundFin f mode 0 false q (-200 - e2 / 2) (q * q * m2 != 2 ^ 400)

/-- EXP2 (R185). -/
def fpExp2 (f : FpFmt) (mode : RMode) (a : FVal) : Nat × FFlags :=
  match a with
  | .nan s => (f.nanBits, if s then fNV else 0)
  | .inf n => if n then (0, 0) else (f.infBits, 0)
  | .fin n m e =>
    if m = 0 then roundFin f mode 0 false 1 0 false
    else if (Nat.log2 m : Int) + e ≥ 12 then
      (if n then roundFin f mode 0 false (2 ^ 100) (-3000) true else roundFin f mode 0 false 1 3000 false)
    else if e ≥ 0 then
      let x : Int := (if n then -1 else 1) * (m * 2 ^ e.toNat : Nat)
      roundFin f mode 0 false 1 x false
    else
      let sh := (-e).toNat
      let x : Int := if n then -(m : Int) else m
      let ip := x / 2 ^ sh
      let fr := (x % 2 ^ sh).toNat
      if fr = 0 then roundFin f mode 0 false 1 ip false
      else
        let fx := fr * 2 ^ fxP / 2 ^ sh
        roundFin f mode 0 false (expF (fx * ln2F / 2 ^ fxP)) (ip - fxP) true

/-- LOG2 (R185). -/
def fpLog2 (f : FpFmt) (mode : RMode) (a : FVal) : Nat × FFlags :=
  match a with
  | .nan s => (f.nanBits, if s then fNV else 0)
  | .inf n => if n then (f.nanBits, fNV) else (f.infBits, 0)
  | .fin n m e =>
    if m = 0 then (f.signBits true + f.infBits, fDZ)
    else if n then (f.nanBits, fNV)
    else
      let k := Nat.log2 m
      let ip : Int := (k : Int) + e
      if m = 2 ^ k then roundVal f mode 0 (FVal.ofInt ip)
      else
        let x := m * 2 ^ fxP / 2 ^ k
        let l : Int := ip * 2 ^ fxP + (lnF x * 2 ^ fxP / ln2F : Nat)
        if l ≥ 0 then roundFin f mode 0 false l.toNat (-fxP) true
        else roundFin f mode 0 true ((-l).toNat - 1) (-fxP) true

/-- sin(π t) for 0 < t < 1/2, t in units of 2^−P. -/
def sinPiF (t : Nat) : Nat :=
  if 4 * t ≤ 2 ^ fxP then sinF (piF * t / 2 ^ fxP) else cosF (piF * (2 ^ (fxP - 1) - t) / 2 ^ fxP)

/-- sin(π x / 2^sh) for x mod 2^(sh+1), as a sign, a magnitude in units of 2^−P and whether it is exact. -/
def sinTurn (x sh : Nat) : Bool × Nat × Bool :=
  let neg := x ≥ 2 ^ sh
  let y := if neg then x - 2 ^ sh else x
  let z := if 2 * y > 2 ^ sh then 2 ^ sh - y else y
  if z = 0 then (false, 0, true)
  else if 2 * z = 2 ^ sh then (neg, 2 ^ fxP, true)
  else (neg, sinPiF (z * 2 ^ fxP / 2 ^ sh), false)

/-- SINP (`cosine` false) and COSP (`cosine` true) (R185). -/
def fpSinCos (f : FpFmt) (mode : RMode) (cosine : Bool) (a : FVal) : Nat × FFlags :=
  match a with
  | .nan s => (f.nanBits, if s then fNV else 0)
  | .inf _ => (f.nanBits, fNV)
  | .fin n m e =>
    if m = 0 then (if cosine then roundFin f mode 0 false 1 0 false else (f.signBits n, 0))
    else
      let sh := (-e).toNat + 1
      let v : Nat := if e ≥ 0 then (m * 2 ^ e.toNat) * 2 else m * 2
      let x : Int := (if n then -(v : Int) else v) + (if cosine then 2 ^ (sh - 1) else 0)
      let r := sinTurn (x % 2 ^ (sh + 1)).toNat sh
      if r.2.1 = 0 then (0, 0)
      else roundFin f mode 0 r.1 r.2.1 (-fxP) (!r.2.2)

/-- TANH (R185). -/
def fpTanh (f : FpFmt) (mode : RMode) (a : FVal) : Nat × FFlags :=
  match a with
  | .nan s => (f.nanBits, if s then fNV else 0)
  | .inf n => roundVal f mode 0 (.fin n 1 0)
  | .fin n m e =>
    if m = 0 then (f.signBits n, 0)
    else
      let k : Int := (Nat.log2 m : Int) + e
      if k ≥ 7 then roundFin f mode 0 n (2 ^ 100 - 1) (-100) true
      else if k < -30 then roundFin f mode 0 n (m * 2 ^ 64 - 1) (e - 64) true
      else
        let y := if e ≥ 0 then 2 * m * 2 ^ e.toNat * 2 ^ fxP else 2 * m * 2 ^ fxP / 2 ^ (-e).toNat
        let j := y / ln2F
        let r := y - j * ln2F
        let t := 2 ^ (2 * fxP) / expF r / 2 ^ j
        roundFin f mode 0 n ((2 ^ fxP - t) * 2 ^ fxP / (2 ^ fxP + t)) (-fxP) true

end Sys2Proof
end

