-- ==== Sys2Proof/Machine/Regs.lean ====
section
/-! DEFINITION. Lanes, registers and shape tags (R41 to R51): reading a lane of a register, and the two ways in which a
result is tagged, by propagation (R50) and by classification (R51). -/

namespace Sys2Proof.Machine

/-- The lanes below `n` that satisfy a test. -/
def lanesWhere (n : Nat) (p : Nat → Bool) : Lanes :=
  (List.range n).foldl (fun m l => if p l then m ||| BitVec.ofNat 64 (2 ^ l) else m) 0

/-- The lanes of a set in ascending order. -/
def laneList (m : Lanes) : List Nat := (List.range 64).filter fun l => m.getLsbD l

/-- The lowest lane of a set. -/
def lowest (m : Lanes) : Option Nat := (laneList m).head?

/-- 32 or 64 lanes (R28). -/
def Skein.width (k : Skein) : Nat := if k.twin then 64 else 32
/-- The fibre of a lane. -/
def Skein.fibre (k : Skein) (l : Nat) : Option Fibre := (k.lanes[l]?).join
/-- The lanes that hold a live fibre (R18). -/
def Skein.live (k : Skein) : Lanes := lanesWhere k.width fun l => (k.fibre l).isSome
/-- The skein with the fibre of every lane of a set changed. -/
def Skein.mapFibres (k : Skein) (m : Lanes) (f : Nat → Fibre → Fibre) : Skein :=
  { k with lanes := k.lanes.mapIdx fun l o => if m.getLsbD l then o.map (f l) else o }

/-- The value of a register in lane l of its hardware skein (R49). -/
def Reg.at (r : Reg) (l : Nat) : Word :=
  match r with
  | .u v => v
  | .a b st => b + BitVec.ofNat 32 l * st
  | .g w => (w[l]?).getD 0

def Reg.tag : Reg → Nat
  | .u _ => 0
  | .a _ _ => 1
  | .g _ => 2

/-- The bytes of a register in a saved context (R52). -/
def Reg.cost : Reg → Nat
  | .u _ => 4
  | .a _ _ => 8
  | .g _ => 128

/-- Vector register v of half h of a skein. -/
def Skein.reg (k : Skein) (h v : Nat) : Reg := (amGet k.regs (2 * v + h)).getD (.u 0)
def Skein.setReg (k : Skein) (h v : Nat) (r : Reg) : Skein := { k with regs := amPut k.regs (2 * v + h) r }
/-- Lane l of vector register v; lanes 32..63 are those of the second half of a twin. -/
def Skein.vlane (k : Skein) (v l : Nat) : Word := (k.reg (l / 32) v).at (l % 32)
def Skein.scalar (k : Skein) (n : Nat) : Word := (amGet k.scalars n).getD 0
def Skein.setScalar (k : Skein) (n : Nat) (v : Word) : Skein :=
  { k with scalars := amPut k.scalars n v, bad := k.bad.filter fun e => e.1 != 256 + n }
/-- Words written in some lanes hold no error any more, nor does the tag of a half that is written (R364). -/
def Skein.mend (k : Skein) (v : Nat) (m : Lanes) : Skein :=
  if k.bad.isEmpty then k else { k with bad := k.bad.filter fun e => (e.1 != v || !m.getLsbD e.2.1) &&
    ((e.1 - 1024) / 4 != v || e.1 < 1024 || (laneList m).all fun l => l / 32 != (e.1 - 1024) / 2 % 2) }
/-- Predicate p of a lane's fibre; p7 is always true (R41). -/
def Skein.pred (k : Skein) (p l : Nat) : Bool :=
  if p = 7 then true else match k.fibre l with | some f => f.preds.getLsbD p | none => false
/-- The predicate word of a lane: p0..p6 (R136). -/
def Skein.predWord (k : Skein) (l : Nat) : Word :=
  match k.fibre l with | some f => f.preds.setWidth 32 | none => 0

/-- A predicate word with one bit replaced; a write to p7 is discarded (R45). -/
def setPred (w : BitVec 7) (p : Nat) (v : Bool) : BitVec 7 :=
  if v then w ||| BitVec.ofNat 7 (2 ^ p) else w &&& ~~~(BitVec.ofNat 7 (2 ^ p))

/-- 32 words by lane. -/
def words32 (f : Nat → Word) : List Word := (List.range 32).map f

/-- The affine rule of R35: all 32 lanes live, lanes 0 and 1 differ, every lane on the line. -/
def isAffine (live : BitVec 32) (f : Nat → Word) : Bool :=
  live == 0xFFFFFFFF && f 0 != f 1 &&
    (List.range 32).all fun l => f l == f 0 + BitVec.ofNat 32 l * (f 1 - f 0)

/-- All lanes of a set hold one value. -/
def sameOn (m : BitVec 32) (f : Nat → Word) : Option Word :=
  match (List.range 32).find? (fun l => m.getLsbD l) with
  | none => none
  | some x => if (List.range 32).all fun l => !m.getLsbD l || f l == f x then some (f x) else none

/-- A register tagged by classification (R35, R51). -/
def classify (live : BitVec 32) (f : Nat → Word) : Reg :=
  if isAffine live f then .a (f 0) (f 1 - f 0)
  else match sameOn live f with
    | some v => .u v
    | none => .g (words32 f)

/-- A result written to some lanes and tagged by classification (R51). -/
def Reg.classed (old : Reg) (live act : BitVec 32) (val : Nat → Word) : Reg :=
  if act == 0 then old else classify live fun l => if act.getLsbD l then val l else old.at l

/-- The tag that R50 propagates to a full write. -/
inductive TagR where
  | u | a | g
  deriving DecidableEq, Repr, Inhabited

/-- A fixed-latency result (R50): propagated when every live lane is written, and the values allow it, since a tag never
changes a value (R49); otherwise G, but for a register tagged U whose written lanes all receive its value. The lanes of
`zero` receive 0 (R145). -/
def Reg.fixed (old : Reg) (live act zero : BitVec 32) (t : TagR) (val : Nat → Word) : Reg :=
  let wr := act ||| zero
  let v := fun l => if act.getLsbD l then val l else 0
  if wr == 0 then old
  else
    let mixed : Reg := .g (words32 fun l => if wr.getLsbD l then v l else old.at l)
    if live &&& ~~~wr == 0 then
      match t with
      | .u => match sameOn wr v with
        | some x => .u x
        | none => mixed
      | .a =>
        let st := val 1 - val 0
        if (List.range 32).all fun l => !wr.getLsbD l || v l == val 0 + BitVec.ofNat 32 l * st then
          if st == 0 then .u (val 0) else .a (val 0) st
        else mixed
      | .g => mixed
    else match old with
      | .u x => if sameOn wr v == some x then old else mixed
      | _ => mixed

/-- The 32 lanes of one half. -/
def halfLanes (m : Lanes) (h : Nat) : BitVec 32 := m.extractLsb' (32 * h) 32

/-- Vector register v written by an update of its halves. -/
def Skein.putVec (k : Skein) (v : Nat) (f : Nat → Reg → Reg) : Skein :=
  let k := k.setReg 0 v (f 0 (k.reg 0 v))
  if k.twin then k.setReg 1 v (f 1 (k.reg 1 v)) else k

/-- A fixed-latency write of a vector register (R50, R55). -/
def Skein.writeFixed (k : Skein) (v : Nat) (act zero : Lanes) (t : Nat → TagR) (val : Nat → Word) : Skein :=
  (k.mend v (act ||| zero)).putVec v fun h old =>
    old.fixed (halfLanes k.live h) (halfLanes act h) (halfLanes zero h) (t h) fun l => val (32 * h + l)

/-- A classified write of a vector register (R51). -/
def Skein.writeClassed (k : Skein) (v : Nat) (act : Lanes) (val : Nat → Word) : Skein :=
  (k.mend v act).putVec v fun h old => old.classed (halfLanes k.live h) (halfLanes act h) fun l => val (32 * h + l)

/-- A result without the lanes that a younger write of `d` has written (R55); a scalar has one value, so it goes whole. -/
def Write.without (w : Write) (d : Dst) (act : Lanes) : Write :=
  match d, w.dst with
  | .vec v, .vec u => if v = u then { w with mask := w.mask &&& ~~~act } else w
  | .scl v, .scl u => if v = u && act != 0 then { w with mask := 0 } else w
  | .prd v, .prd u => if v = u then { w with mask := w.mask &&& ~~~act } else w
  | .pword, .prd _ => { w with mask := w.mask &&& ~~~act }
  | _, _ => w

/-- The lanes of a younger write no longer belong to the older pending results (R55). -/
def Skein.supersede (k : Skein) (d : Dst) (act : Lanes) : Skein :=
  { k with pend := k.pend.map fun p => { p with writes := p.writes.map fun w => w.without d act } }

/-- A scalar takes the value of the lowest lane of a set (R44). -/
def Skein.writeScalar (k : Skein) (n : Nat) (act : Lanes) (val : Nat → Word) : Skein :=
  match lowest act with
  | none => k
  | some l => k.setScalar n (val l)

/-- A predicate takes a value in each lane of a set (R45). -/
def Skein.writePred (k : Skein) (p : Nat) (act : Lanes) (val : Nat → Bool) : Skein :=
  if p = 7 then k else (k.mend 512 act).mapFibres act fun l f => { f with preds := setPred f.preds p (val l) }

/-- The predicate word takes a value in each lane of a set (R136). -/
def Skein.writePWord (k : Skein) (act : Lanes) (val : Nat → Word) : Skein :=
  (k.mend 512 act).mapFibres act fun l f => { f with preds := (val l).setWidth 7 }

/-- A returned result is performed (R55): its vector registers are classified (R51), its scalars take the lowest lane. -/
def Skein.perform (k : Skein) (w : Write) : Skein :=
  let val := fun l => (w.vals[l]?).getD 0
  match w.dst with
  | .none => k
  | .vec v => k.writeClassed v w.mask val
  | .scl n => k.writeScalar n w.mask val
  | .prd p => k.writePred p w.mask fun l => val l != 0
  | .pword => k.writePWord w.mask val

/-- The values of all lanes as a list. -/
def valsOf (n : Nat) (val : Nat → Word) : List Word := (List.range n).map val

end Sys2Proof.Machine
end

