-- ==== Sys2Proof/Machine/Lots.lean ====
section
/-! DEFINITION. Launches, lots and skeins by name; the fields of the continuation record (R283) and of the kernel
descriptor (R326); a lot's scratchpad allocation (R82 to R85, R307, R380); local blocks (R84); sync stamps (R121, R122);
failure entries (R397, R398) and the failing of a lot (R348, R395, R396). -/

namespace Sys2Proof.Machine

-- names
def skKey (c q : Nat) : Nat := 64 * c + q
def lotKey (launch role idx : Nat) : Nat := (2 * launch + role) * 2 ^ 32 + idx
def State.skein (s : State) (c q : Nat) : Option Skein := amGet s.skeins (skKey c q)
def State.setSkein (s : State) (c q : Nat) (k : Skein) : State := { s with skeins := amPut s.skeins (skKey c q) k }
def State.updSkein (s : State) (c q : Nat) (f : Skein → Skein) : State :=
  match s.skein c q with
  | some k => s.setSkein c q (f k)
  | none => s
def State.lot (s : State) (n : Nat) : Lot := (amGet s.lots n).getD default
def State.setLot (s : State) (n : Nat) (l : Lot) : State := { s with lots := amPut s.lots n l }
def State.updLot (s : State) (n : Nat) (f : Lot → Lot) : State :=
  match amGet s.lots n with
  | some l => s.setLot n (f l)
  | none => s
def State.launch (s : State) (n : Nat) : Launch := (amGet s.launches n).getD default
def State.setLaunch (s : State) (n : Nat) (l : Launch) : State := { s with launches := amPut s.launches n l }
def State.updLaunch (s : State) (n : Nat) (f : Launch → Launch) : State :=
  match amGet s.launches n with
  | some l => s.setLaunch n (f l)
  | none => s
def State.die (s : State) (d : Nat) : Die := (amGet s.dies d).getD default
def State.updDie (s : State) (d : Nat) (f : Die → Die) : State := { s with dies := amPut s.dies d (f (s.die d)) }

-- the continuation record (R283)
def recF (r : BitVec 1024) (lo n : Nat) : Nat := bitsOf r.toNat lo n
def Launch.fld (l : Launch) (lo n : Nat) : Nat := recF l.crec lo n
def Launch.code (l : Launch) : Nat := l.fld 0 64
def Launch.frame (l : Launch) : Nat := l.fld 64 64
def Launch.vatSize (l : Launch) : Nat := l.fld 673 7
def Launch.window (l : Launch) : Nat := 8 * (l.fld 680 5 + 1)
def Launch.widthCode (l : Launch) : Nat := l.fld 685 3
def Launch.rowsEach (l : Launch) : Nat := 16 * l.fld 688 5
def Launch.prio (l : Launch) : Nat := l.fld 696 4
def Launch.bound (l : Launch) : Nat := l.fld 704 32
def Launch.producer (l : Launch) : Nat := l.fld 746 6
def Launch.localArea (l : Launch) : Nat := l.fld 832 64
def Launch.estLot (l : Launch) : Nat := l.fld 896 32
def Launch.blockCount (l : Launch) : Nat := l.fld 928 16 + 1
/-- Fibres of a lot: x × y × z (R19). -/
def recFibres (r : BitVec 1024) : Nat := (recF r 640 11 + 1) * (recF r 651 11 + 1) * (recF r 662 11 + 1)
/-- Lots of the grid: N (R284). -/
def recLots (r : BitVec 1024) : Nat := (recF r 576 32 + 1) * (recF r 608 16 + 1) * (recF r 624 16 + 1)
/-- The flags in effect: bit 0 IDEM, 1 REDUNDANT, 2 ROLLBACK, 3 CHECKED, 4 DETERMINISTIC, 5 NOREPLAY (R283, R333). -/
def Launch.idem (l : Launch) : Bool := l.flags.getLsbD 0
def Launch.redundant (l : Launch) : Bool := l.flags.getLsbD 1
def Launch.rollbackable (l : Launch) : Bool := l.flags.getLsbD 2
def Launch.isChecked (l : Launch) : Bool := l.flags.getLsbD 3
def Launch.determ (l : Launch) : Bool := l.flags.getLsbD 4
-- the kernel descriptor (R326)
def Launch.localSize (l : Launch) : Nat := 16 * bitsOf l.kdesc.toNat 320 14
def Launch.hint (l : Launch) : Nat := bitsOf l.kdesc.toNat 416 32
def Launch.liveTable (l : Launch) : Nat := bitsOf l.kdesc.toNat 448 64
def Launch.entryOff (l : Launch) : Nat := bitsOf l.kdesc.toNat 384 32
/-- FLAGS of the descriptor in the order matrix, regroup, idem, redundant, checked from bit 299 down (log entry 30). -/
def Launch.matrix (l : Launch) : Bool := l.kdesc.getLsbD 299
def Launch.regroup (l : Launch) : Bool := l.kdesc.getLsbD 298

def Lot.die (l : Lot) : Nat := l.core / 64
/-- Bytes of the scratchpad allocation (R85). -/
def Lot.alloc (l : Lot) : Nat := 768 * l.rows
/-- A lot that is on a core: dispatched, and neither retired nor failed. -/
def Lot.resident (l : Lot) : Bool :=
  match l.status with
  | .waiting | .running | .flushing | .saving => true
  | _ => false
def State.lotOf (s : State) (k : Skein) : Lot := s.lot k.lot
def State.launchOf (s : State) (k : Skein) : Launch := s.launch (s.lotOf k).launch
def State.partOf (s : State) (l : Lot) : Nat := (s.launch l.launch).part

/-- The skeins that hold a fibre of a lot or belong to it, by key. -/
def State.lotSkeins (s : State) (n : Nat) : List (Nat × Skein) :=
  s.skeins.filter fun e => e.2.lot == n || e.2.lanes.any fun f => match f with | some f => f.lot == n | none => false

/-- The live fibres of a lot. -/
def State.lotFibres (s : State) (n : Nat) : List Fibre :=
  s.skeins.flatMap fun e => e.2.lanes.filterMap fun f => match f with
    | some f => if f.lot == n then some f else none
    | none => none

-- scratchpad (R82, R83)
/-- The core that a lot reads as its own: a trailing lot that of its leading lot (R405). -/
def State.ownCore (s : State) (l : Lot) : Nat :=
  match l.role, l.partner with
  | .trailing, some p => (s.lot p).core
  | _, _ => l.core

/-- The lot of the caller's vat that runs on a core of the caller's die; a lot outside any vat reaches only itself, under
its own %core or its FIRSTCORE (R83, R310). -/
def State.peerLot (s : State) (n : Nat) (core : Nat) : Option Nat :=
  let l := s.lot n
  if (s.launch l.launch).vatSize = 0 then
    (if core = s.ownCore l % 64 ∨ core = l.firstCore then some n else none)
  else
    (s.lots.find? fun e => e.2.launch == l.launch && e.2.vat == l.vat && e.2.core == 64 * l.die + core &&
      e.2.role == l.role && e.2.resident).map Prod.fst

/-- The lot whose allocation a `.d` address names (R83). -/
def State.dieLot (s : State) (n : Nat) (a : Nat) : Option Nat :=
  if bitsOf a 30 2 != 0 || bitsOf a 19 5 != 0 then none else s.peerLot n (bitsOf a 24 6)

-- copies and the rows that they hold (R88, R89, R262)
def Copy.cx (x : Copy) : CpyX :=
  match x.i with
  | .cpy _ _ v .. => v
  | .cpyg _ _ v .. => v
  | .cpym _ v .. => v
  | _ => ⟨0, false, false, false, 0⟩
def Copy.isUnz (x : Copy) : Bool := match x.i with | .cpyUnz .. => true | _ => false
def Copy.isShape (x : Copy) : Bool := match x.i with | .shape .. => true | _ => false
/-- It reads a list of coordinates from its lot's scratchpad (R226). -/
def Copy.gathers (x : Copy) : Bool := match x.i with | .cpyg .. => true | _ => false
def blockWord (b : List Word) (j : Nat) : Word := (b[j]?).getD 0

/-- The allocation and offset that a `.s` or `.d` address of a copy names. -/
def State.copyPlace (s : State) (x : Copy) (die : Bool) (a : Nat) : Option (Nat × Nat) :=
  if die then (s.dieLot x.lot a).map fun n => (n, bitsOf a 0 19) else some (x.lot, a)

/-- A copy that has not completed reads or writes rows of a lot. -/
def Copy.uses (x : Copy) (n : Nat) : Bool :=
  match x.stage with
  | .queued | .started => x.tile.any (fun b => b.1 == n) || x.bar.any (fun b => b.1 == n) || (x.gathers && x.lot == n)
  | _ => false

/-- A lot holds its rows while it is resident and until every copy that reads or writes them has completed (R262). -/
def State.rowsHeld (s : State) (n : Nat) : Bool :=
  (s.lot n).resident || ((amVals s.copies).any fun x => x.uses n) || (amVals s.saved).any fun v => v.copies.any fun x => x.uses n

/-- The hand-overs that go on when no row from `top` on is needed any more. -/
def Core.handsBelow (k : Core) (top : Nat) : List (Nat × Nat) :=
  let keep := k.hands.filter fun e => decide (e.1 ≤ top)
  if top ≤ k.carve then []
  else if keep.any fun e => e.1 == top then keep
  else keep ++ ((k.hands.find? fun e => decide (top < e.1)).map fun e => (top, e.2)).toList

/-- C shrinks to the end of the highest remaining allocation once the last lot of a launch has left a core, and a hand-over
that no remaining lot needs ends (R88, R89, R262). -/
def State.departed (s : State) (c launch : Nat) : State :=
  let held := s.lots.filter fun e => e.2.core == c && s.rowsHeld e.1
  if held.any fun e => e.2.launch == launch then s
  else
    let top := held.foldl (fun m e => if e.2.rows = 0 then m else max m (e.2.row0 + e.2.rows)) 0
    s.updCore c fun k => { k with carve := min k.carve top, hands := k.handsBelow top }

/-- Where an access goes: a global virtual address, or an offset in a lot's allocation. -/
inductive Loc where
  | glob (va : DWord)
  | scr (lot off : Nat)
  deriving DecidableEq, Repr, Inhabited

/-- Bytes of the allocation; an unwritten byte reads 0 (R20). -/
def Lot.read (l : Lot) (off n : Nat) : List Byte := memBytes l.scratch off n

/-- The words of an allocation that `n` bytes touch. -/
def wordsTouched (off n : Nat) : List Nat := (List.range ((off + n - 1) / 4 + 1 - off / 4)).map (· + off / 4)

def Lot.poisoned (l : Lot) (off n : Nat) : Bool := (wordsTouched off n).any fun w => l.poison.contains w

/-- Every row that the bytes touch has been cleared (R20). -/
def Lot.clearedAt (l : Lot) (off n : Nat) : Bool := decide ((off + n - 1) / 768 < l.cleared)

/-- A write performed in the bank array: bytes, stamps, the lines written, poison (R123, R307, R381). -/
def Lot.write (l : Lot) (off : Nat) (bs : List Byte) (t : Option Triple) : Lot :=
  { l with scratch := memStore l.scratch off bs
           sectors := putSectors l.sectors off bs.length t
           written := insNat (insNat l.written (off / 128)) ((off + bs.length - 1) / 128)
           poison := l.poison.filter fun w => !(off ≤ 4 * w && 4 * w + 4 ≤ off + bs.length) }

def State.scrWrite (s : State) (n off : Nat) (bs : List Byte) (t : Option Triple) : State :=
  (s.updLot n fun l => l.write off bs t).trigger true n off bs.length

/-- What an engine does to the allocation of a leading lot it does to that of its trailing lot too, which performs no engine command of its own
(R405, R407). -/
def State.forPair (s : State) (n : Nat) (f : State → Nat → State) : State :=
  match (s.lot n).role, (s.lot n).partner with
  | .leading, some m => f (f s n) m
  | _, _ => f s n

/-- The lot whose engine commands a lot waits for: of a trailing lot its leading lot (R407). -/
def State.leadOf (s : State) (n : Nat) : Nat :=
  match (s.lot n).role, (s.lot n).partner with
  | .trailing, some m => m
  | _, _ => n

/-- A write of these bytes touches a marked barrier unit (R380). -/
def Lot.clobbers (l : Lot) (off n : Nat) : Bool := (sectorsOf off n).any fun u => l.marks.contains u

-- local blocks (R84)
def Launch.blockBytes (l : Launch) : Nat := l.localSize * 2048
/-- The address of offset o of a fibre with a local index (R84). -/
def localAddr (base o x : Nat) : DWord := BitVec.ofNat 64 (base + o / 4 * 8192 + x * 4 + o % 4)
def Lot.blockBase (l : Lot) (ln : Launch) : Nat := ln.localArea + (l.block.getD 0) * ln.blockBytes

/-- The lowest number that a list of numbers does not hold. -/
def lowestFree (used : List Nat) : Nat → Nat → Nat
  | 0, n => n
  | f + 1, n => if used.contains n then lowestFree used f (n + 1) else n

-- sync stamps (R121, R122)
def stampLimit : Nat := 2 ^ 44
def Scope.idx : Scope → Nat
  | .sk => 0 | .lot => 1 | .quad => 2 | .die => 3 | .pkg => 4 | .pod => 5 | .sys => 6
/-- `.quad` or wider. -/
def Scope.wide (x : Scope) : Bool := 2 ≤ Scope.idx x
/-- m: the largest of the seven stamps (R121). -/
def Lot.m (l : Lot) : Nat := l.stamps.foldl max 0
def Lot.setStamp (l : Lot) (x : Scope) (v : Nat) : Lot := { l with stamps := l.stamps.set (Scope.idx x) v }
/-- A release at a scope in a checked launch: st[S] := m + 1 (R122). -/
def Lot.releaseStamp (l : Lot) (x : Scope) : Lot := l.setStamp x (l.m + 1)
/-- An acquire that observes o: st[S] := 1 + max(m, o) (R122). -/
def Lot.acquireStamp (l : Lot) (x : Scope) (o : Nat) : Lot := l.setStamp x (1 + max l.m o)

def State.checked (s : State) (n : Nat) : Bool := (s.launch (s.lot n).launch).isChecked
/-- The stamp that the completion of an engine operation publishes: one more than its issuer's m, of a checked launch (R123). -/
def State.pubOf (s : State) (n stamp : Nat) : Nat := if s.checked n then stamp + 1 else 0

/-- A lot's stamp update, which a launch without the checked flag does not make (R121). -/
def State.stampLot (s : State) (n : Nat) (f : Lot → Lot) : State := if s.checked n then s.updLot n f else s

/-- The stamp update of several lots. -/
def State.stampLots (s : State) (ns : List Nat) (f : Lot → Lot) : State := ns.foldl (fun s n => s.stampLot n f) s

-- rings (R327, R371, R397)
/-- Entry n of a ring of 32-byte entries whose block has BASE in its second word, WRPTR in its first word's high half and
LOG in some field: the entry written, WRPTR advanced. -/
def State.ringPut (s : State) (part blk log : Nat) (e : BitVec 256) : State :=
  let n := s.fld blk 32 32
  let s := s.homeWrite part ((s.rd (blk + 8)).toNat + 32 * (n % 2 ^ log)) (leBytes e.toNat 32) none
  s.setFld blk 32 32 ((n + 1) % 2 ^ 32)

/-- A failure entry (R397, R398) of an event at a tick; while the ring is disabled the failure is counted instead. -/
def State.failEntryAt (s : State) (tick part slotAddr lot cause outcome die core replays dropped : Nat) (frame : DWord) : State :=
  let blk := failRing part
  if s.fld blk 0 1 == 1 then
    let n := min 255 (dropped + (amGet s.failDrops part).getD 0)
    let e := frame.toNat + n * 2 ^ 64 + min replays 15 * 2 ^ 72 + core * 2 ^ 76 + die * 2 ^ 82 + outcome * 2 ^ 85 +
      cause * 2 ^ 88 + lot % 2 ^ 32 * 2 ^ 96 + slotAddr * 2 ^ 128 + tick % 2 ^ 64 * 2 ^ 192
    let s := s.ringPut part blk (s.fld blk 16 4) (BitVec.ofNat 256 e)
    { s with msix := s.msix ++ [16 + part], failDrops := amErase s.failDrops part }
  else { s with failDrops := amPut s.failDrops part ((amGet s.failDrops part).getD 0 + 1) }

/-- A failure entry of an event now. -/
def State.failEntry (s : State) (part slotAddr lot cause outcome die core replays dropped : Nat) (frame : DWord) : State :=
  s.failEntryAt s.tick part slotAddr lot cause outcome die core replays dropped frame

/-- The lots whose fibres share a skein with those of some lots, and these lots. -/
def State.mates (s : State) (ns : List Nat) : List Nat :=
  s.skeins.foldl (fun m e =>
    let ls := e.2.lanes.filterMap fun o => o.map Fibre.lot
    if ls.any ns.contains then ls.foldl insNat m else m) ns

/-- The lots that are saved and resume as one unit: a vat, a regroup domain, a redundant pair, or the lot alone (R311, R405). -/
def State.unitOf (s : State) (n : Nat) : List Nat :=
  let l := s.lot n
  let ln := s.launch l.launch
  (s.lots.filter fun e => e.1 == n || (e.2.launch == l.launch && e.2.resident &&
    ((ln.vatSize != 0 && e.2.vat == l.vat) || (ln.regroup && e.2.core == l.core) || l.partner == some e.1))).map Prod.fst

/-- The lots that fail as one unit (R395): of a regroup domain those that share skeins, directly or through others, while a member that
shares none fails alone and the others go on (R363, log entry 34). -/
def State.failUnit (s : State) (n : Nat) : List Nat :=
  let shared := s.skeins.foldl (fun m _ => s.mates m) [n]
  (s.unitOf n).filter fun u => !(s.launch (s.lot n).launch).regroup || shared.contains u ||
    (s.launch (s.lot n).launch).vatSize != 0 && (s.lot u).vat == (s.lot n).vat || (s.lot n).partner == some u

end Sys2Proof.Machine
end

