-- ==== Sys2Proof/Machine/Pieces.lean ====
section
/-! DEFINITION. Accesses as their instruction names them (R82, R200 to R218): space, size, kind, order and hint; when two byte ranges
meet, by virtual and by physical address; the bytes that an accepted store writes. -/

namespace Sys2Proof.Machine

/-- The address spaces of R82. -/
inductive Space where
  | g | s | d | c | l
  deriving DecidableEq, Repr, Inhabited

/-- One access of a lane: its space, bytes, kind, order, scope and cache hint, and whether it goes to its home slice whatever the
core's L1 holds. -/
structure Access where
  sp : Space
  size : Nat
  kind : AccKind
  ord : MOrd
  scope : Scope
  hint : CacheHint
  home : Bool
  deriving DecidableEq, Repr, Inhabited

def MTy.signed : MTy → Bool
  | .i8 | .i16 | .i32 => true
  | _ => false
def Fmt.wide64 : Fmt → Bool
  | .f64 | .i64 | .n64 => true
  | _ => false
def atomBytes (t : Fmt) : Nat := if Fmt.wide64 t then 8 else 4
def MemM.size (m : MemM) : Nat := MTy.bytes m.t * Cnt.num m.n

def memAccess (sp : Space) (kind : AccKind) (m : MemM) : Access := ⟨sp, MemM.size m, kind, m.ord, m.scope, m.cache, false⟩

/-- The access of a lane of an instruction that names memory in lanes (R200 to R218, R230); a decoding load may read a whole
pack. -/
def accessOf : Instr → Option Access
  | .ld _ m .. => some (memAccess .g .load m)
  | .ldFmt _ h .. => some ⟨.g, 8, .load, .plain, .sk, h, false⟩
  | .lds _ m .. => some (memAccess .s .load m)
  | .ldd _ m .. => some (memAccess .d .load m)
  | .ldc _ m .. => some (memAccess .c .load m)
  | .ldl _ m .. => some (memAccess .l .load m)
  | .st _ m .. => some (memAccess .g .store m)
  | .sts _ m .. => some (memAccess .s .store m)
  | .std _ m .. => some (memAccess .d .store m)
  | .stl _ m .. => some (memAccess .l .store m)
  | .atom _ m .. => some ⟨.g, atomBytes m.t, .atomic, m.ord, m.scope, .page, true⟩
  | .atoms _ m die .. => some ⟨if die then .d else .s, atomBytes m.t, .atomic, m.ord, m.scope, .page, true⟩
  | .red _ _ m .. => some ⟨.g, atomBytes m.t, .store, m.ord, m.scope, .page, true⟩
  | .joinc .. => some ⟨.g, 4, .store, .rel, .pkg, .page, true⟩
  | .spawn .. => some ⟨.g, 128, .load, .rel, .pkg, .page, true⟩
  | .qsrch .. => some ⟨.g, 128, .load, .plain, .sk, .page, true⟩
  | .tladv _ pod .. => some ⟨.g, 8, .store, .rel, if pod then .pod else .pkg, .page, true⟩
  | .tlrd _ pod .. => some ⟨.g, 8, .load, .rlx, if pod then .pod else .pkg, .page, true⟩
  | .btest _ die .. => some ⟨if die then .d else .s, 16, .load, .acq, if die then .die else .lot, .page, false⟩
  | _ => none

/-- Two byte ranges of one length each meet. -/
def meets (a n b m : Nat) : Bool := a < b + m && b < a + n
def Loc.meets (x y : Loc × Nat) : Bool :=
  match x, y with
  | (.glob a, n), (.glob b, m) => Machine.meets a.toNat n b.toNat m
  | (.scr i a, n), (.scr j b, m) => i == j && Machine.meets a n b m
  | _, _ => false
def overlaps (xs ys : List (Loc × Nat)) : Bool := xs.any fun x => ys.any fun y => Loc.meets x y

/-- Pieces by physical address; a piece without a translation is left out. -/
def State.physOf (s : State) (c part : Nat) (ps : List (Loc × Nat)) : List (Loc × Nat) :=
  ps.filterMap fun e => match e.1 with
    | .glob va => (match s.xlate c part va false false with
      | .ok x => some (.glob (BitVec.ofNat 64 x.pa), e.2)
      | .bad .. => none)
    | .scr .. => some e

/-- Two accesses have a byte in common, under one virtual address or two. -/
def State.sameBytes (s : State) (c part : Nat) (ps qs : List (Loc × Nat)) : Bool :=
  overlaps ps qs || overlaps (s.physOf c part ps) (s.physOf c part qs)

/-- The global bytes that a lane of an accepted store will write: a store to `.l` keeps the address of its first word (R84). -/
def globalPieces (i : Instr) (a : DWord) : List (Loc × Nat) :=
  match i, accessOf i with
  | .stl .., some x => (List.range ((x.size + 3) / 4)).map fun j => (.glob (a + BitVec.ofNat 64 (8192 * j)), min 4 x.size)
  | _, some x => [(.glob a, x.size)]
  | _, none => []

def PStore.pieces (p : PStore) (l : Nat) : List (Loc × Nat) := globalPieces p.i ((p.addrs[l]?).getD 0)

/-- Some lanes of a store write a byte of a range. -/
def State.storesTo (s : State) (c part : Nat) (i : Instr) (addrs : List DWord) (m : Lanes) (va : DWord) (n : Nat) : Bool :=
  (laneList m).any fun l => s.sameBytes c part [(.glob va, n)] (globalPieces i ((addrs[l]?).getD 0))

/-- A store that a core has accepted, or that a compare buffer of it holds, has still to be performed at a byte of a range; of the skein
slots and lot skeins that two tests pick (R351, R406, R418). -/
def State.storing (s : State) (c part : Nat) (slot : PStore → Bool) (held : Nat → CmpEntry → Bool) (va : DWord) (n : Nat) : Bool :=
  ((s.core c).stores.any fun p => slot p && s.storesTo c part p.i p.addrs p.left va n) ||
    s.lots.any fun e => e.2.core == c && e.2.cmp.any fun b => held e.1 b && s.storesTo c part b.i b.addrs b.mask va n

end Sys2Proof.Machine
end

