-- ==== Sys2Proof/Machine/Ops.lean ====
section
/-! DEFINITION. The named operations over skeins: batches and their selection (R24, R38, R424), what an issuing
instruction sees (`Iss`), lot barriers (R23, R31), the failing of a lot (R348, R395, R396), taking a trap (R345 to R350),
the segment boundary (R54 to R57), and the one frame `issue` in which every instruction issues. -/

namespace Sys2Proof.Machine

/-! ### Batches -/

/-- The lanes whose fibres may issue: those of BATCH in a handler, all otherwise (R347). -/
def Skein.scope (k : Skein) : Lanes := match k.trap with | some t => t.batch | none => 0xFFFFFFFFFFFFFFFF

/-- The fibre has issued a TRET and waits for the rest of BATCH (R351). -/
def Fibre.atTret (f : Fibre) : Bool :=
  match f.wait with | some w => (match w.w with | .tret _ => true | _ => false) | none => false

/-- The live fibres at one PC, among those that may issue (R24); a fibre that has issued TRET is in no batch, and one created in this
clock not yet (R169). -/
def Skein.at (k : Skein) (pc : DWord) : Lanes :=
  lanesWhere k.width fun l => k.scope.getLsbD l &&
    match k.fibre l with | some f => f.pc == pc && !f.atTret && !f.young | none => false

/-- The lane stands in the member mask, which is relative to its tile (R196). -/
def Skein.inMask (k : Skein) (mask : Option (BitVec 6)) (l : Nat) : Bool :=
  match mask with
  | none => true
  | some i =>
    let n := i.toNat
    let m := pairOf (k.scalar n) (if k.lanepart = 64 then k.scalar (n + 1) else 0)
    m.getLsbD (l % k.lanepart)

/-- The lanes of the fibres that were not created in this clock (R38). -/
def Skein.standing (k : Skein) : Lanes := lanesWhere k.width fun l => match k.fibre l with | some f => !f.young | none => false

/-- The lanes whose fibres count as present: of BATCH in a handler, and not created in this clock (R38, R362). -/
def Skein.present (k : Skein) : Lanes := k.scope &&& k.standing

/-- The lanes that a batch at a gate waits for: the participants of a CONV, or those that the member mask names now (R38, R168). -/
def Gate.lanes (g : Gate) (k : Skein) : Lanes :=
  if g.conv then g.need &&& k.live &&& k.scope else k.present &&& lanesWhere k.width (k.inMask g.mask)

/-- A CONV or member-mask condition holds: every needed lane that is live stands there (R38, R168, R362). -/
def Skein.gateOk (k : Skein) (pc : DWord) : Bool := k.gates.all fun g => g.pc != pc || (g.lanes k &&& ~~~(k.at pc)) == 0

/-- No fibre of the batch waits, and its gate is open. -/
def Skein.ready (k : Skein) (pc : DWord) : Bool :=
  k.at pc != 0 && k.gateOk pc && (laneList (k.at pc)).all fun l => match k.fibre l with | some f => f.wait.isNone | none => true

/-- The fetch of the instruction at a PC waits for a page (R370). -/
def Skein.fetchWaits (k : Skein) (pc : DWord) : Bool := k.noFetch.any fun e => e.1 == pc && e.2.isNone

/-- The batch is runnable (R24): it is ready, and the fetch of its instruction does not wait for a page (R370). -/
def Skein.runnable (k : Skein) (pc : DWord) : Bool := k.ready pc && !k.fetchWaits pc

/-- A sorted list of addresses with one more. -/
def insPc : List DWord → DWord → List DWord
  | [], x => [x]
  | y :: ys, x => if y.toNat < x.toNat then y :: insPc ys x else if y = x then y :: ys else x :: y :: ys

/-- The PCs of the batches, ascending. -/
def Skein.pcs (k : Skein) : List DWord :=
  (laneList k.present).foldl (fun ps l =>
    match k.fibre l with | some f => if f.atTret then ps else insPc ps f.pc | none => ps) []

/-- The PCs that the batches have reached: a fibre stands there and does not wait. -/
def Skein.reached (k : Skein) : List DWord :=
  (laneList k.standing).foldl (fun ps l =>
    match k.fibre l with | some f => if f.wait.isNone then insPc ps f.pc else ps | none => ps) []

/-- The gate of a batch that arrives at a CONV, whose participants are the fibres live then, or at a member-mask operation (R38, R168). A
batch outside the BATCH of a handler counts every fibre. -/
def Skein.openGate (k : Skein) (pc : DWord) (conv : Bool) (mask : Option (BitVec 6)) (tick : Nat) (info : IssueInfo) : Skein :=
  if k.gates.any fun g => g.pc == pc then k
  else { k with gates := ⟨pc, conv, if k.at pc == 0 then k.standing else k.present, mask, tick, info⟩ :: k.gates }

/-- The clock in which FNEW created fibres is over: they may issue (R169). -/
def Skein.grown (k : Skein) : Skein :=
  if k.lanes.any fun o => o.any Fibre.young
  then { k with lanes := k.lanes.map fun o => o.map fun f => { f with young := false } } else k

def Skein.passCount (k : Skein) (pc : DWord) : Nat := ((k.passes.find? fun e => e.1 == pc).map Prod.snd).getD 0

/-- A batch's count of passes; 0 is not kept. -/
def Skein.setPass (k : Skein) (pc : DWord) (n : Nat) : Skein :=
  let r := k.passes.filter fun e => e.1 != pc
  { k with passes := if n = 0 then r else (pc, n) :: r }

/-- A batch moves to another PC with its count; where it merges, the larger count stands. -/
def Skein.movePass (k : Skein) (pc pc' : DWord) : Skein :=
  if pc = pc' then k
  else (k.setPass pc' (max (k.passCount pc) (k.passCount pc'))).setPass pc 0

/-- The selection made when the current batch stops being runnable: the runnable batch at the lowest PC (R24). -/
def Skein.select (k : Skein) : Skein := { k with cur := k.pcs.find? k.runnable }

/-- The selection at a yield: a batch that has counted 16 passes, else the lowest PC; the others count one (R24). -/
def Skein.yieldTo (k : Skein) : Skein :=
  let run := k.pcs.filter k.runnable
  let pick := match run.find? (fun pc => 16 ≤ k.passCount pc) with
    | some pc => some pc
    | none => run.head?
  let k := { k with passes := run.foldl (fun ps pc =>
    if pick == some pc then ps else (pc, k.passCount pc + 1) :: ps.filter fun e => e.1 != pc) k.passes, cur := pick }
  match pick with
  | some pc => if 16 ≤ k.passCount pc then k.setPass pc 0 else k
  | none => k

/-- The current batch stays while it is runnable. -/
def Skein.reselect (k : Skein) : Skein :=
  match k.cur with
  | some pc => if k.runnable pc then k else k.select
  | none => k.select

/-- Every live batch waits at CONV or at a member-mask condition (R361). -/
def Skein.cycle (k : Skein) : Bool :=
  k.pcs != [] && k.pcs.all fun pc => (k.gates.any fun g => g.pc == pc) && !k.gateOk pc &&
    (laneList (k.at pc)).all fun l => match k.fibre l with | some f => f.wait.isNone | none => true

/-! ### The issuing instruction -/

/-- What an issuing instruction sees: the machine, the skein and its place, the fields, its address and length, and the
lanes of its batch, its active lanes and the lanes that a zeroing merge mask writes 0 to (R8, R138, R145). -/
structure Iss where
  s : State
  c : Nat
  q : Nat
  k : Skein
  f : Fields
  pc : DWord
  size : Nat
  batch : Lanes
  act : Lanes
  zero : Lanes
  deriving Repr, Inhabited

/-- The guard of a lane (R138). -/
def guardOk (k : Skein) (f : Fields) (l : Nat) : Bool := k.pred f.guard.toNat l != (f.gneg == 1)

/-- The merge mask of a lane: its policy and bit (R145). -/
def maskOk (k : Skein) (f : Fields) (l : Nat) : Bool :=
  match f.pfx with
  | some p => p.mpol == 0 || k.pred p.mpred.toNat l
  | none => true

/-- The fields of an issuing instruction, with its length. -/
def issOf (s : State) (c q : Nat) (k : Skein) (pc : DWord) (f : Fields) : Iss :=
  let batch := k.at pc
  let w := k.width
  { s, c, q, k, f, pc, batch, size := if f.pfx.isSome then 16 else 12
    act := lanesWhere w fun l => batch.getLsbD l && guardOk k f l && maskOk k f l
    zero := lanesWhere w fun l => batch.getLsbD l && guardOk k f l && !maskOk k f l &&
      (match f.pfx with | some p => p.mpol == 2 | none => false) }

/-- The instruction that issues: the one of the current batch of the skein that the grant names. -/
def mkIss (i : Instr) (s : State) : Option Iss :=
  match s.grant, i.toFields with
  | .issue c q, some f =>
    match s.skein c q with
    | some k => match k.cur with
      | some pc => some (issOf s c q k pc f)
      | none => none
    | none => none
  | _, _ => none

def Iss.lot (x : Iss) : Lot := x.s.lot x.k.lot
def Iss.launch (x : Iss) : Launch := x.s.launchOf x.k
def Iss.part (x : Iss) : Nat := x.launch.part
/-- The fall-through PC (R132). -/
def Iss.fall (x : Iss) : DWord := x.pc + BitVec.ofNat 64 x.size
def Iss.low (x : Iss) : Option Nat := lowest x.act
/-- What IX adds to the index of DST or SRCA (R47). -/
def Iss.ixAdd (x : Iss) (isDst : Bool) : Nat :=
  if x.f.ix == 1 && x.k.vx.getLsbD 8 == isDst then bitsOf x.k.vx.toNat 0 8 else 0
def Iss.env (x : Iss) : IxEnv := ⟨x.k.window, bitsOf x.k.vx.toNat 0 8, x.k.vx.getLsbD 8⟩

/-- The lot of a lane's fibre, for what is read per fibre. -/
def Skein.laneLot (k : Skein) (l : Nat) : Nat := match k.fibre l with | some f => f.lot | none => k.lot

/-- Where the leading lot's reading of the tick by its n-th instruction stands among what it forwards (R405). -/
def tickKey (retired : Nat) : Nat := 2 ^ 40 + retired

/-- The tick forwarded for the instruction that a trailing skein issues next. -/
def Lot.tickFor (l : Lot) (k : Skein) : Option Nat :=
  (l.fwd.find? fun e => e.lotSkein == k.lotSkein && e.seq == tickKey k.retired).map Forward.tick

/-- A special register in a lane (R46); in a trailing lot %core, %quad and %tick read the leading lot's values, and %die with
them (R405). -/
def special (s : State) (c q : Nat) (k : Skein) (i l : Nat) : Word :=
  let lt := s.lot (k.laneLot l)
  let pos := match lt.role with | .trailing => s.ownCore lt | _ => c
  let now := match lt.role with | .trailing => (lt.tickFor k).getD s.tick | _ => s.tick
  match i with
  | 64 => BitVec.ofNat 32 l
  | 65 => BitVec.ofNat 32 (q + 4 * (l / 32))
  | 66 => BitVec.ofNat 32 lt.idx
  | 67 => match k.fibre l with | some f => f.rank | none => 0
  | 68 => BitVec.ofNat 32 (pos % 64)
  | 69 => BitVec.ofNat 32 (pos % 64 / 4)
  | 70 => BitVec.ofNat 32 (pos / 64)
  | 71 => BitVec.ofNat 32 s.pkg
  | 72 => BitVec.ofNat 32 lt.vrank
  | 73 => BitVec.ofNat 32 lt.vat
  | 74 => BitVec.ofNat 32 k.lanepart
  | 75 => if k.rguniform then 1 else 0
  | 76 => k.fflags.setWidth 32
  | 77 => k.vx &&& 0x1FF
  | 78 => if k.idem then 1 else 0
  | 80 => BitVec.ofNat 32 now
  | 81 => BitVec.ofNat 32 (now / 2 ^ 32)
  | _ => 0

/-- A raw operand in a lane, 64 bits wide when the form reads a pair (R134 to R136, R349). -/
def Iss.raw (x : Iss) (add : Nat) (o : BitVec 10) (pair : Bool) (l : Nat) : DWord :=
  let n := (o.extractLsb' 0 8).toNat
  match (o.extractLsb' 8 2).toNat with
  | 0 => pairOf (x.k.vlane (n + add) l) (if pair then x.k.vlane (n + add + 1) l else 0)
  | 1 => if n < 64 then pairOf (x.k.scalar n) (if pair then x.k.scalar (n + 1) else 0)
      else pairOf (special x.s x.c x.q x.k n l) (if pair then special x.s x.c x.q x.k (n + 1) l else 0)
  | 2 => (x.k.predWord l).setWidth 64
  | _ => (o.extractLsb' 0 8).signExtend 64

/-- An operand of a frame: register values of the window only; a register outside it reads 0 (R356). -/
def Iss.slotVal (x : Iss) (add : Nat) (m : OForm) (o : BitVec 10) : List DWord :=
  if m.unused then []
  else
    let n := (o.extractLsb' 0 8).toNat + add
    let pair := m.span == 2 || m.grp == 2 || m.span == 4
    (List.range x.k.width).map fun l =>
      if o.extractLsb' 8 2 == 0 && x.k.window ≤ n then 0
      else if o.extractLsb' 8 2 == 0 && x.k.window ≤ n + 1 then x.raw add o false l
      else x.raw add o pair l

/-- The words of an instruction as a frame holds them: its prefix or 0, then W0, W1, W2 (R349). -/
def frameWords (f : Fields) : List Word :=
  let x := f.pack
  [match f.pfx with | some p => p.pack | none => 0, x.extractLsb' 0 32, x.extractLsb' 32 32, x.extractLsb' 64 32]

/-- DKIND, DIDX and NDST (R350): an unassigned opcode takes the DST field as it stands. -/
def Iss.dest (x : Iss) : Nat × Nat × Nat :=
  let n := (x.f.dst.extractLsb' 0 8).toNat
  let form := formOf x.f
  if (match form with | some m => m.dst.unused | none => false) then (0, 0, 0)
  else
    let span := match form with | some m => min 4 m.dst.span | none => 1
    match (x.f.dst.extractLsb' 8 2).toNat with
    | 0 => (1, n + x.ixAdd true, span)
    | 1 => if n < 64 then (2, n, span) else (0, 0, 0)
    | 2 => (3, n, 0)
    | _ => (0, 0, 0)

/-- What a frame keeps of the issuing instruction (R349): an unassigned opcode's SRCA and SRCB stand as single registers
(R419). -/
def Iss.info (x : Iss) : IssueInfo :=
  let (k, i, n) := x.dest
  let m := (formOf x.f).getD { a := oSrc, b := oSrc }
  let c := x.f.imm.extractLsb' 0 10
  { pc := x.pc, words := frameWords x.f, pfx := x.f.pfx.isSome, act := x.act, batch := x.batch
    opnds := [x.slotVal (x.ixAdd false) m.a x.f.a, x.slotVal 0 m.b x.f.b,
              match m.c with | some o => x.slotVal 0 o c | none => [],
              match x.f.pfx with | some p => if x.f.opc == 0x1B then x.slotVal 0 oSrc p.srcd else [] | none => []]
    dkind := k, didx := i, ndst := n, tick := x.s.tick, hb := x.k.hb }

/-- A condition that an instruction meets before it issues (R345, R346). -/
structure Hit where
  code : Nat
  detail : Nat
  aff : Lanes
  addr : DWord
  deriving DecidableEq, Repr, Inhabited

/-- Two hits of one cause: the lanes of both, with the DETAIL and the address of the lowest (R346, R349). -/
def Hit.join (h g : Hit) : Hit :=
  let first := match lowest h.aff, lowest g.aff with
    | some a, some b => decide (a ≤ b)
    | none, some _ => false
    | _, none => true
  { (if first then h else g) with aff := h.aff ||| g.aff }

/-- The lowest-numbered cause of a list, with every lane that meets it (R346). -/
def lowestHit : List Hit → Option Hit
  | [] => none
  | h :: hs => match lowestHit hs with
    | some g => some (if g.code < h.code then g else if g.code = h.code then h.join g else h)
    | none => some h

/-- A hit for the lanes of a set that fail a test, naming the address of the lowest. -/
def hitOn (code detail : Nat) (m : Lanes) (addr : Nat → DWord) : List Hit :=
  match lowest m with
  | some l => [⟨code, detail, m, addr l⟩]
  | none => []

/-! ### Lot barriers and regroup domains -/

/-- The fibre waits at a barrier whose release is still to come; a handler that runs since then does not undo its
arrival. -/
def Fibre.atBar (f : Fibre) (x : Scope) : Bool :=
  (match f.wait with | some w => w.w == .bar x false | none => false) ||
    (match f.susp with | some w => w.w == .bar x false | none => false)

/-- A fibre's waits changed. -/
def Fibre.mapWait (f : Fibre) (g : WaitRec → WaitRec) : Fibre := { f with wait := f.wait.map g, susp := f.susp.map g }

/-- BAR.sk: once every live fibre of the skein waits there, only the release is still to come (R25, R31, R362). A wait that a handler
interrupted stays what it was. -/
def Skein.barSk (k : Skein) (tick : Nat) : Skein :=
  let m := k.live &&& k.scope
  if m != 0 && (laneList m).all (fun l => match k.fibre l with
      | some f => (match f.wait with | some w => w.w == .bar .sk false | none => false) | none => true)
  then k.mapFibres m fun _ f => { f with wait := f.wait.map fun w => { w with w := .bar .sk true, since := tick } }
  else k

/-- The fibres of some lots in a skein changed. -/
def Skein.mapLots (k : Skein) (lots : List Nat) (f : Fibre → Fibre) : Skein :=
  { k with lanes := k.lanes.map fun o => o.map fun fb => if lots.contains fb.lot then f fb else fb }

/-- Every live fibre of some lots changed. -/
def State.mapLotFibres (s : State) (lots : List Nat) (f : Fibre → Fibre) : State :=
  { s with skeins := amMap (fun _ k => k.mapLots lots f) s.skeins }

/-- The lots that take part in BAR at `.quad` or `.die` with a lot (R31). -/
def State.barLots (s : State) (n : Nat) (x : Scope) : List Nat :=
  let l := s.lot n
  if (s.launch l.launch).vatSize = 0 then [n]
  else (s.lots.filter fun e => e.2.launch == l.launch && e.2.vat == l.vat && e.2.role == l.role && e.2.resident &&
    (x != .quad || e.2.core / 4 == l.core / 4)).map Prod.fst

/-- Each of some lots takes st[S] := 1 + the largest m among them (R122). -/
def State.stampTogether (s : State) (lots : List Nat) (x : Scope) : State :=
  let o := lots.foldl (fun m n => max m (s.lot n).m) 0
  lots.foldl (fun s n => s.stampLot n fun l => l.setStamp x (1 + o)) s

/-- A named lot barrier whose live fibres have all arrived completes its phase (R23, R214); its release counts from now, whichever form the
last arrival had (R31). -/
def State.nbarCheck (s : State) (n : Nat) (id : Nat) : State :=
  let fs := s.lotFibres n
  if fs != [] && fs.all (fun f => f.arrived.getLsbD id) then
    let s := s.mapLotFibres [n] fun f =>
      let f := f.mapWait fun w => match w.w with
        | .nbar i false => if i.toNat == id then { w with w := .nbar i true, since := s.tick } else w
        | _ => w
      { f with arrived := f.arrived &&& ~~~(BitVec.ofNat 16 (2 ^ id)) }
    (s.stampTogether [n] .lot).updLot n fun l => { l with phases := l.phases ^^^ BitVec.ofNat 16 (2 ^ id) }
  else s

/-- BAR at `.quad` or `.die` whose lots have all arrived (R31). -/
def State.barCheck (s : State) (n : Nat) (x : Scope) : State :=
  let lots := s.barLots n x
  let fs := lots.flatMap s.lotFibres
  if fs != [] && fs.all (fun f => f.atBar x) then
    (s.stampTogether lots x).mapLotFibres lots fun f =>
      f.mapWait fun w => if w.w == .bar x false then { w with w := .bar x true, since := s.tick } else w
  else s

/-- The lots of a regroup domain (R33). -/
def State.domain (s : State) (core launch : Nat) : List Nat :=
  (s.lots.filter fun e => e.2.launch == launch && e.2.core == core && e.2.resident).map Prod.fst

/-- The skeins of a regroup domain, by key (R33); those of a member that has failed are among them (R363). -/
def State.domainSkeins (s : State) (core launch : Nat) : List (Nat × Skein) :=
  s.skeins.filter fun e => e.1 / 64 == core && (s.lot e.2.lot).launch == launch

/-- The last live fibre of a domain has arrived and no result is pending: the shuffle begins (R34, R36). -/
def State.regrpCheck (s : State) (core launch : Nat) : State :=
  if !(s.launch launch).regroup || s.shuffles.any (fun h => h.core == core && h.launch == launch) then s
  else
    let lots := s.domain core launch
    let fs := lots.flatMap s.lotFibres
    if fs != [] && fs.all (fun f => match f.wait with | some w => (match w.w with | .regrp _ => true | _ => false) | none => false)
        && (s.domainSkeins core launch).all (fun e => e.2.pend.isEmpty && e.2.park.isNone)
    then { s.stampTogether lots .lot with shuffles := s.shuffles ++ [⟨core, launch, lots⟩] }
    else s

/-- The barriers and the regroup domain of a lot, after an arrival or an exit (R23). -/
def State.barriers (s : State) (n : Nat) : State :=
  let s := (List.range 16).foldl (fun s id => s.nbarCheck n id) s
  let s := (s.barCheck n .quad).barCheck n .die
  s.regrpCheck (s.lot n).core (s.lot n).launch

/-! ### The failing of a lot -/

/-- ELAPSED (R301). -/
def State.elapsed (s : State) (l : Lot) : Nat :=
  l.elapsed0 + match l.firstIssue with | some t => s.tick - t | none => 0

/-- The parts of a lot as a context holds them, pending results discarded (R396, R410). -/
def State.capture (s : State) (n : Nat) : Saved :=
  let l := s.lot n
  let core := s.core l.core
  { lot := { l with elapsed0 := s.elapsed l, firstIssue := none }
    skeins := (s.lotSkeins n).map fun e => (e.1 % 64, { e.2 with pend := [], park := none, asks := [], lost := [] })
    copies := (amVals s.copies).filter fun c => c.lot == n && c.stage == .queued
    cmds := core.cmds.filter fun m => m.lot == n
    tiles := if core.owner == some n then (core.tiles.mapIdx fun i t => (i, t)).filter fun e => e.2 != defaultTile else []
    area := 0, size := 0, part := (s.launch l.launch).part, shared := [] }

/-- A BARV on an object in a bank array, by the device: ARRIVED + 1, then the test of R128. -/
def barObjTest (o : BitVec 128) : BitVec 128 × Bool :=
  if bitsOf o.toNat 64 16 == bitsOf o.toNat 80 16 && bitsOf o.toNat 0 48 == 0 then
    ((o &&& ~~~(BitVec.ofNat 128 (0xFFFF * 2 ^ 64))) ^^^ BitVec.ofNat 128 (2 ^ 96), true)
  else (o, false)

def State.barObj (s : State) (n off : Nat) : BitVec 128 := BitVec.ofNat 128 (leNat ((s.lot n).read off 16))

/-- A change of a barrier object, followed by the test of R128. In a checked launch it leaves its triple in the stamp sector like any
write (R123, R378); the lot keeps the largest stamp of the object's arrivals and landed bytes in this phase, and at its completion publishes
one more for the object (log entry 93). -/
def State.barObjPut (s : State) (n off : Nat) (o : BitVec 128) (by' : BarBy) : State :=
  let (o, fl) := barObjTest o
  let l := s.lot n
  let top := max (if by'.counts then by'.t.stamp else 0) ((l.bar0.find? fun e => e.1 == off).map Prod.snd |>.getD 0)
  let other := fun (m : List (Nat × Nat)) => m.filter fun e => e.1 != off
  let s := s.scrWrite n off (leBytes o.toNat 16) (if s.checked n then some by'.t else none)
  s.updLot n fun l =>
    { l with marks := if by'.instr then insNat l.marks (off / 16) else l.marks
             bar0 := if fl then other l.bar0 else (off, top) :: other l.bar0
             barPub := if fl then (off, top + 1) :: other l.barPub else l.barPub }

/-- The stamp that the last complete phase of a barrier object has published (R122, R128). -/
def Lot.published (l : Lot) (off : Nat) : Nat := ((l.barPub.find? fun e => e.1 == off).map Prod.snd).getD 0

/-- ARRIVED + 1, at most 65,535 (R128, R215). -/
def State.barArrive (s : State) (n off : Nat) (by' : BarBy) : State :=
  let o := s.barObj n off
  let a := min 65535 (bitsOf o.toNat 64 16 + 1)
  s.barObjPut n off ((o &&& ~~~(BitVec.ofNat 128 (0xFFFF * 2 ^ 64))) ||| BitVec.ofNat 128 (a * 2 ^ 64)) by'

/-- PENDING + b, modulo 2^48 (R128, R215, R225). -/
def State.barPending (s : State) (n off : Nat) (b : Int) (by' : BarBy) : State :=
  let o := s.barObj n off
  let p : Int := ((bitsOf o.toNat 0 48 : Nat) : Int) + b
  s.barObjPut n off ((o &&& ~~~(BitVec.ofNat 128 (2 ^ 48 - 1))) ||| (BitVec.ofInt 48 p).setWidth 128) by'

/-- An engine command changes a barrier object, with the stamp of its issuer at command issue (R123): its arrival or landed bytes count
for the phase, and no unit is marked. -/
def byEngine (stamp : Nat) (wid : BitVec 20) : BarBy := ⟨⟨stamp, wid, true⟩, true, false⟩

/-- A contribution that has not reached its landing unit is followed by a LANDF of its lot for that lake. -/
def State.reportedAfter (s : State) (m : LandMsg) (lake : DWord) : Bool :=
  s.lands.any fun e => e.2.report && e.2.lot == m.lot && e.2.va == lake && decide (m.id < e.1)

/-- The lakes to which a lot has contributed since its last LANDF (R396): those whose contributions have arrived, and those of
contributions under way. -/
def State.owedLakes (s : State) (n : Nat) : List Nat :=
  (amVals s.lands).foldl (fun ls m =>
    if m.lot != n || m.report then ls
    else match s.lakes.find? fun k => k.part == m.part && bitsOf k.desc.toNat 0 64 ≤ m.va.toNat &&
        decide (m.va.toNat < bitsOf k.desc.toNat 0 64 + bitsOf k.desc.toNat 64 64) with
      | some k => if s.reportedAfter m k.va || ls.contains k.va.toNat then ls else ls ++ [k.va.toNat]
      | none => ls) ((s.lot n).landed.map Prod.fst)

/-! Waiting for budget (R248) -/

def MCmd.mma? (m : MCmd) : Option Mma := match m.kind with | .mma a => some a | _ => none

/-- The MMA in flight. -/
def Core.running (k : Core) : Option MCmd := k.cmds.find? fun m => m.started && m.mma?.isSome

def State.setCmd (s : State) (c : Nat) (m : MCmd) : State :=
  s.updCore c fun k => { k with cmds := k.cmds.map fun e => if e.entry == m.entry then m else e }

/-- The tick at which the refills of a core give LEVEL the budget of a k-step that waits for it, or `tick` if that comes first (R248). -/
def Core.budgetAt (k : Core) (rate n tick : Nat) : Nat :=
  if rate = 0 then tick else min tick (512 * (k.refilled + (n - k.level + rate - 1) / rate))

/-- The clocks that the k-step in flight has waited for budget are counted, one for each clock up to the refill that ends the wait
(R248, R330). -/
def State.countStall (s : State) (c : Nat) : State :=
  let k := s.core c
  match k.running with
  | some m => match m.shortSince, m.est with
    | some t, some n =>
      let stop := k.budgetAt (s.rate (s.partOfDie (c / 64))) n s.tick
      (s.count (coreCounter c 3) (stop - t)).setCmd c { m with shortSince := if stop < s.tick then none else some s.tick }
    | _, _ => s
  | none => s

/-- What a failed lot had in flight (R396): queued streamer commands complete their timeline numbers and are dropped;
matrix commands go, their ARV made; every lake round to which it contributed without LANDF counts its failure. -/
def State.dropWork (s : State) (n : Nat) : State × Nat :=
  let l := s.lot n
  let s := s.countStall l.core
  let queued := (amVals s.copies).filter fun c => c.lot == n && c.stage == .queued
  let s := queued.foldl (fun s c =>
    let s := match c.tl with | some (pa, k) => s.tlComplete pa k (s.pubOf n c.stamp) | none => s
    { s with copies := amErase s.copies c.id }) s
  let cmds := (s.core l.core).cmds.filter fun m => m.lot == n
  let s := cmds.foldl (fun s m => match m.kind with
    | .mma a => match a.x.bobj with
      | some b => if m.arrived then s else s.barArrive n (16 * b.toNat) (byEngine m.stamp m.wid)
      | none => s
    | _ => s) s
  let s := s.updCore l.core fun k => { k with cmds := k.cmds.filter fun m => m.lot != n }
  (s, queued.length)

/-- The lakes to which a failed lot contributed without LANDF take one report each (R396). -/
def State.dropReports (s : State) (n : Nat) : State :=
  let l := s.lot n
  (s.owedLakes n).foldl (fun s va =>
    let id := s.landSeq
    let msg : LandMsg :=
      { id := id, report := true, part := (s.launch l.launch).part, core := l.core, slot := 0, lot := n, order := 0,
        info := default, lane := 0, va := BitVec.ofNat 64 va, val := 0, ty := 0, 
        key := [s.pkg, (s.launch l.launch).q, (s.launch l.launch).n, l.idx], pos := 0, det := false, stamp := 0, wid := 0
        abroad := false, late := none }
    { s with landSeq := id + 1, lands := amPut s.lands id msg }) s

/-- QUEUED: the dumps that wait behind the one being written (R409). -/
def State.dumpsQueued (s : State) (part : Nat) : State :=
  s.setFld (dumpBlock part) 28 4 ((s.dumps.filter fun d => d.part == part).length - 1)

/-- The frame of an escalated cause as it stands, or zeros when there is none (R410). -/
def State.frameImage (s : State) (c part : Nat) (frame : DWord) : List Byte :=
  if frame == 0 then List.replicate 2048 0
  else match s.xlate c part frame false false with
    | .ok x => s.homeRead x.pa 2048
    | .bad .. => List.replicate 2048 0

/-- A dump joins those of its partition, where dumps are enabled and at most 15 wait (R409, R411). -/
def State.queueDump (s : State) (part : Nat) (d : Dump) : State :=
  if s.fld (dumpBlock part) 0 1 == 1 && decide ((s.dumps.filter fun e => e.part == part).length < 16)
  then ({ s with dumps := s.dumps ++ [d] } : State).dumpsQueued part else s

/-- What a failure enters in the ring of its partition, at once, or for a rollback launch once it is rolled back or ends (R397, R398,
R400). REPLAYS counts the replays of the launch, or of a pair its retries. -/
def State.recordFailure (s : State) (n code dropped : Nat) (frame : DWord) : State :=
  let l := s.lot n
  let ln := s.launch l.launch
  if ln.rollbackable
  then s.updLaunch l.launch fun ln => { ln with fails := ln.fails ++ [⟨l.idx, code, l.die, l.core % 64, dropped, s.tick, frame⟩] }
  else s.failEntry ln.part ln.slotAddr l.idx code 0 l.die (l.core % 64) (ln.replays + l.mism) dropped frame

/-- The failures of a rollback launch are entered in the failure ring. -/
def State.failsOut (s : State) (ln : Launch) (cause : Nat → Nat) (outcome replays : Nat) : State :=
  ln.fails.foldl (fun s f => s.failEntryAt f.tick ln.part ln.slotAddr f.idx (cause f.code) outcome f.die f.core replays f.dropped f.frame) s

/-- A launch will not be rolled back any more: its snapshot goes, and the failures that waited for its rollback are entered (R385, R400, R401,
R414). -/
def State.giveUp (s : State) (id : Nat) (cause : Nat → Nat) : State :=
  let ln := s.launch id
  (s.failsOut ln cause 0 ln.replays).updLaunch id fun l => { l with flags := l.flags &&& ~~~4, marks := [], snap := [], fails := [] }

/-- A fatal fault in a unit that has failed: a secondary record of its dump, while that is not written, with a failure entry of its own
(R411). -/
def State.secondFault (s : State) (n code : Nat) (image : List Byte) : State :=
  let l := s.lot n
  match s.dumps.find? fun d => d.ctx.any fun x => x.lot.launch == l.launch && x.lot.idx == l.idx && x.lot.role == l.role with
  | none => s
  | some d =>
    let s := { s with dumps := s.dumps.map fun e => if e == d then { e with second := e.second ++ [(code, s.tick, l.idx, image)] } else e }
    s.recordFailure n 0xC5 0 0

/-- The fibres of some lots leave their skeins. A skein slot without a fibre goes, unless its domain goes on without the lot (R363). -/
def State.vacate (s : State) (us : List Nat) : State :=
  let held := fun (e : Nat × Skein) => s.lots.any fun o => !us.contains o.1 && o.2.launch == (s.lot e.2.lot).launch &&
    o.2.core == e.1 / 64 && o.2.resident && (s.launch o.2.launch).regroup
  { s with
    skeins := (s.skeins.filter fun e => !us.contains e.2.lot || held e).map fun e =>
      if us.contains e.2.lot || e.2.lanes.any (fun o => o.any fun f => us.contains f.lot) then (e.1, { e.2 with
        lanes := e.2.lanes.map fun o => if o.any fun f => us.contains f.lot then none else o
        pend := [], park := none, deferred := [], trap := none, relWait := none, gates := [], cur := none }) else e
    shuffles := s.shuffles.filter fun h => !h.lots.any us.contains }

/-- A lot fails, and with it its vat, the lots of its regroup domain that share its skeins, or its pair (R348, R363, R395): its skeins
stop, its launch dispatches no more, a failure entry is written, a dump is queued; what its domain waits for goes on over the remaining
fibres. A fault of a lot that has failed joins the first (R411). -/
def State.failLot (s : State) (n code : Nat) (frame : DWord) : State :=
  let l := s.lot n
  let ln := s.launch l.launch
  match l.status with
  | .failed .. => s.secondFault n code (s.frameImage l.core ln.part frame)
  | _ =>
    let unit := s.failUnit n
    let caps := unit.map s.capture
    let (s, dropped) := unit.foldl (fun (p : State × Nat) u =>
      let owed := (p.1.owedLakes u).length
      let (s, d) := (p.1.dropReports u).dropWork u
      let s := s.updCore (s.lot u).core fun k => if k.owner == some u then { k with owner := none } else k
      (s.updLot u fun l => { l with status := .failed code frame }, p.2 + owed + d)) (s, 0)
    let s := s.vacate unit
    let s := unit.foldl (fun s u => s.departed (s.lot u).core l.launch) s
    let s := s.updLaunch l.launch fun ln => { ln with stop := true, failed := some (ln.failed.getD code) }
    let s := s.recordFailure n code dropped frame
    let s := s.queueDump ln.part ⟨ln.part, n, code, s.tick, s.frameImage l.core ln.part frame, ln.slotAddr, l.idx, caps, ln, []⟩
    s.regrpCheck l.core l.launch

/-! ### Traps -/

/-- Causes that are always escalated (R353). -/
def escalated (code : Nat) : Bool :=
  [0x14, 0x15, 0x2F, 0x42, 0x43, 0x69, 0xA1, 0xA2, 0xA3, 0xA4, 0xA6, 0xA7, 0xA8, 0xA9, 0xC3, 0xC4, 0xC5, 0xA0].contains code ||
    (0x80 ≤ code && code ≤ 0x89)

/-- The frame of a hardware skein (R344). -/
def State.frameVa (s : State) (part c q : Nat) : DWord :=
  s.trapTab part + BitVec.ofNat 64 (0x100000 + 2048 * (64 * c + q))

/-- The PC that RESUME holds for one fibre (R349). -/
def resumeOf (k : Skein) (z : Cause) (l : Nat) : DWord :=
  match z.resume with
  | some r => r
  | none =>
    if z.deferred then (match k.fibre l with | some f => f.pc | none => 0)
    else z.info.pc + (if z.info.pfx then 16 else 12)

def statusOf (z : Cause) (slot : Nat) : Nat :=
  z.code + (if z.info.pfx then 2 ^ 8 else 0) + (if z.deferred then 2 ^ 9 else 0) + z.info.dkind * 2 ^ 11 +
    z.info.ndst * 2 ^ 13 + z.info.didx % 256 * 2 ^ 16 + slot * 2 ^ 26 + z.detail % 256 * 2 ^ 32

/-- The 2,048 bytes of the frame of half h (R349). -/
def frameBytes (k : Skein) (z : Cause) (q h tick : Nat) : List Byte :=
  let lanes := (List.range 32).map (· + 32 * h)
  let batch := z.info.batch &&& k.live
  let word := fun (m : Lanes) => leBytes (halfLanes m h).toNat 4
  let res := match lowest batch with | some l => resumeOf k z l | none => 0
  leBytes z.info.pc.toNat 8 ++ z.info.words.flatMap (fun w => leBytes w.toNat 4) ++ leBytes (tick % 2 ^ 64) 8 ++
  leBytes (statusOf z (q + 4 * h)) 8 ++ word z.info.act ++ word z.aff ++ word z.done ++ word batch ++
  leBytes z.addr.toNat 8 ++ leBytes (pairOf (k.scalar 62) (k.scalar 63)).toNat 8 ++ leBytes res.toNat 8 ++
  List.replicate 48 0 ++
  (List.range 4).flatMap (fun o => lanes.flatMap fun l =>
    leBytes ((((z.info.opnds[o]?).getD [])[l]?).getD 0).toNat 8) ++
  (List.range 4).flatMap (fun d => lanes.flatMap fun l =>
    leBytes (if d < z.info.ndst then
      (if z.info.dkind = 1 then k.vlane (z.info.didx + d) l else k.scalar (z.info.didx + d)) else 0).toNat 4) ++
  lanes.map (fun l => (k.predWord l).setWidth 8) ++ List.replicate 96 0 ++
  lanes.flatMap (fun l => leBytes (if batch.getLsbD l then (resumeOf k z l).toNat else 0) 8)

/-- Bytes stored at a virtual address by the device through a core's store path (R418): none when it cannot be written. -/
def State.putVirtual (s : State) (c part : Nat) (va : DWord) (bs : List Byte) : Option State :=
  match s.xlate c part va true false with
  | .ok x => if (s.writeCause part x.pa bs.length).isSome then none
      else some ((s.storeAt part x true bs none).l1Store c x.pa bs)
  | .bad .. => none

/-- Bytes at a virtual address that the device reads at their home (R343, R351). -/
def State.getVirtual (s : State) (c part : Nat) (va : DWord) (n : Nat) : Option (List Byte) :=
  match s.xlate c part va false false with
  | .ok x => if (s.readCause part x.pa n).isSome then none else some (s.homeRead x.pa n)
  | .bad .. => none

/-- The operand slots of an encoding cause hold what the park before its delivery performed (R347): it is found at decode,
before any issue. A precise cause of another range keeps the values that its check read (R56). -/
def State.reread (s : State) (c q : Nat) (k : Skein) (z : Cause) : Cause :=
  match z.info.words with
  | [p, w0, w1, w2] =>
    if z.deferred || 15 < z.code then z
    else
      let x := issOf s c q k z.info.pc (unpack (if z.info.pfx then some (unpackPfx p) else none) (w2 ++ w1 ++ w0))
      { z with info := { z.info with opnds := x.info.opnds } }
  | _ => z

/-- The lot that an escalated cause of a skein fails: that of the lowest fibre of the batch. -/
def Skein.blamed (k : Skein) (batch : Lanes) : Nat := match lowest batch with | some l => k.laneLot l | none => k.lot

/-- The frame of a cause written, of a twin both halves (R347, R349): none when it cannot be. -/
def State.putFrame (s : State) (c q : Nat) (k : Skein) (z : Cause) : Option State :=
  let part := s.partOf (s.lotOf k)
  let frame := s.frameVa part c q
  match s.putVirtual c part frame (frameBytes k z q 0 s.tick) with
  | some s => if k.twin then s.putVirtual c part (frame + 8192) (frameBytes k z q 1 s.tick) else some s
  | none => none

/-- A cause is delivered (R347): the frame is written, the table entry read, and BATCH enters the handler; or the cause is
escalated, as DOUBLE_TRAP in a handler or when the frame cannot be written (R353); of one whose issuer holds no live fibre there is no frame
(R385). -/
def State.deliver (s : State) (c q : Nat) (z : Cause) (later : List Cause) : State :=
  match s.skein c q with
  | none => s
  | some k =>
    let part := s.partOf (s.lotOf k)
    let frame := s.frameVa part c q
    let s := s.setSkein c q { k with park := none, deferred := [] }
    let z := s.reread c q k z
    let batch := z.info.batch &&& k.live
    let n := k.blamed batch
    match k.trap with
    | some t => s.failLot n 0x2F t.frame
    | none =>
      if batch == 0 then s.failLot n z.code 0
      else
      match s.putFrame c q k z with
      | none => s.failLot n 0x2F 0
      | some s =>
        let ent : DWord := match s.getVirtual c part (s.trapTab part + BitVec.ofNat 64 (8 * z.code)) 8 with
          | some bs => BitVec.ofNat 64 (leNat bs)
          | none => 0
        if escalated z.code || !ent.getLsbD 0 then s.failLot n z.code frame
        else
          let pc := ent &&& ~~~3#64
          s.updSkein c q fun k =>
            let k := ((k.setScalar 62 (loOf frame)).setScalar 63 (hiOf frame)).mapFibres batch
              fun _ f => { f with pc := pc, wait := none, susp := f.wait }
            { k with trap := some ⟨batch, z.info.act, z.aff, frame, z.code, z.tl, later⟩
                     gates := k.gates.filter fun g => g.pc != z.info.pc
                     cur := some pc, relWait := none, afterTret := false, asks := [], lost := [] }

/-! ### The segment boundary -/

/-- Latch entries of a skein slot whose registers have been written go (R53). -/
def State.dropLatch (s : State) (c q : Nat) (regs : List Nat) : State :=
  if regs.isEmpty then s
  else s.updCore c fun u => { u with iq := u.iq.mapIdx fun i e => if i == q % 4
    then { e with latch := e.latch.filter fun h => h.slot != q || !regs.contains h.reg } else e }

/-- The vector registers that pending results write. -/
def Skein.returning (k : Skein) : List Nat :=
  k.pend.flatMap fun p => p.writes.filterMap fun w => match w.dst with | .vec v => some v | _ => none

/-- Returned results are performed in issue order; the flags of each are ORed in (R48, R55). -/
def Skein.commit (k : Skein) : Skein :=
  k.pend.foldl (fun k p =>
    let k := p.writes.foldl Skein.perform k
    { k with fflags := k.fflags ||| p.flags }) { k with pend := [], llCount := 0 }

/-- A cause in its place of issue order (R346). -/
def insCause : List Cause → Cause → List Cause
  | [], z => [z]
  | y :: ys, z => if y.order ≤ z.order then y :: insCause ys z else z :: y :: ys

/-- A participant that exits leaves the wait of a CONV (R168). -/
def Gate.leave (g : Gate) (m : Lanes) : Gate := if Gate.conv g then { g with need := g.need &&& ~~~m } else g

/-- The active fibres of an EXIT end (R22); a barrier or CONV that waited for them no longer does. -/
def State.exitLanes (s : State) (c q : Nat) (m : Lanes) : State :=
  match s.skein c q with
  | none => s
  | some k =>
    let lots := (laneList m).map k.laneLot
    let pc := k.lastPc
    let lanes := k.lanes.mapIdx fun l f => if m.getLsbD l then none else f
    let k := { k with lanes := lanes, park := none,
                      gates := k.gates.map fun g => Gate.leave g m,
                      trap := k.trap.map fun (t : TrapCtx) => { t with batch := t.batch &&& ~~~m } }
    let k := { k with exitPc := if k.live == 0 then some pc else k.exitPc }
    lots.foldl (fun s n => s.barriers n) (s.setSkein c q (k.barSk s.tick).reselect)

/-- Part of a list of bytes as a number. -/
def partNat (bs : List Byte) (off n : Nat) : Nat := leNat ((bs.drop off).take n)

/-- The write-back of TRET in the lanes of half h (R351): the words of STATUS and of the slots are those of the frame. -/
def Skein.tretBack (k : Skein) (t : TrapCtx) (h : Nat) (fr : List Byte) : Skein :=
  let st := partNat fr 32 8
  let kind := bitsOf st 11 2
  let idx := bitsOf st 16 8
  let slot := fun (d l : Nat) => (BitVec.ofNat 32 (partNat fr (1152 + 128 * d + 4 * (l % 32)) 4) : Word)
  let m := t.aff &&& (if h = 0 then 0xFFFFFFFF else 0xFFFFFFFF00000000)
  if !st.testBit 24 then k
  else
    (List.range (min 4 (bitsOf st 13 3))).foldl (fun k d =>
      match kind, lowest t.act with
      | 1, _ => if idx + d < k.window then k.writeClassed (idx + d) m (slot d) else k
      | 2, some l => if m.getLsbD l && idx + d < 64 then k.setScalar (idx + d) (slot d l) else k
      | _, _ => k)
      (if kind = 3 then k.mapFibres m fun l f => { f with preds := BitVec.ofNat 7 (partNat fr (1664 + l % 32) 1) } else k)

/-- A fibre leaves the handler for its target; where it stood waiting there, it waits again. -/
def Fibre.resumeAt (f : Fibre) : Fibre :=
  match f.wait with
  | some w => match w.w with
    | .tret tgt => { f with pc := tgt, susp := none
                            wait := match f.susp with | some o => if o.pc + 12 == tgt then some o else none | none => none }
    | _ => f
  | none => f

/-- A store to the frame of a skein has still to be performed: one of its own, or of its core whoever made it (R351, R418). -/
def State.frameBusy (s : State) (c q : Nat) (k : Skein) (own : Bool) : Bool :=
  let part := s.partOf (s.lotOf k)
  let frame := s.frameVa part c q
  let busy := s.storing c part (fun p => !own || p.slot == q) fun n e => !own || (n == k.lot && e.lotSkein == k.lotSkein)
  busy frame 2048 || (k.twin && busy (frame + 8192) 2048)

/-- The vector registers that a write-back of TRET writes (R351). -/
def tretRegs (fr : List Byte) : List Nat :=
  let st := partNat fr 32 8
  if st.testBit 24 && bitsOf st 11 2 == 1 then (List.range (min 4 (bitsOf st 13 3))).map (· + bitsOf st 16 8) else []

/-- TRET takes effect once every live fibre of BATCH stands at one and the handler's stores to the frame are performed
(R351); a later cause of the same boundary is delivered before the batch issues again (R346), and incomplete timeline
operations complete (R387). A wait that it takes up again may complete a BAR.sk (R25), or a REGRP that of its domain (R34). -/
def State.tretCheck (s : State) (c q : Nat) : State :=
  match s.skein c q with
  | none => s
  | some k =>
    match k.trap with
    | none => s
    | some t =>
      let live := t.batch &&& k.live
      if live == 0 || k.park.isSome || s.frameBusy c q k true || !(laneList live).all (fun l =>
          match k.fibre l with | some f => f.atTret | none => true) then s
      else
        let part := s.partOf (s.lotOf k)
        match s.getVirtual c part t.frame 2048, (if k.twin then s.getVirtual c part (t.frame + 8192) 2048 else some []) with
        | some f0, some f1 =>
          let k := k.tretBack t 0 f0
          let k := if k.twin then k.tretBack t 1 f1 else k
          let k := (k.setScalar 62 (BitVec.ofNat 32 (partNat f0 64 4))).setScalar 63 (BitVec.ofNat 32 (partNat f0 68 4))
          let k := ({ k.mapFibres live fun _ f => f.resumeAt with trap := none, cur := none, afterTret := true } : Skein).barSk s.tick
          let s := (s.setSkein c q k.select).dropLatch c q (tretRegs f0)
          let s := t.tl.foldl (fun s e => s.tlComplete e.1 e.2.1 e.2.2) s
          match t.later with
          | z :: zs => s.deliver c q z zs
          | [] => s.regrpCheck c (s.lotOf k).launch
        | _, _ => s.failLot (k.blamed live) 0x2F t.frame

/-- Steps 4 and 5 of R55, once every pending result has returned: the results are performed, then the deferred causes
waiting for this boundary are delivered one at a time in issue order (R345, R346), or what the skein parked for comes about. A delivery
waits for the stores that its core has accepted to the frame, so that none of them lands over it (R418). -/
def State.boundary (s : State) (c q : Nat) : State :=
  match s.skein c q with
  | none => s
  | some k =>
    match k.park with
    | none => s
    | some a =>
      let causes := k.pend.foldl (fun zs p => p.causes.foldl insCause zs) (k.deferred.foldl insCause [])
      let delivers := !causes.isEmpty || (match a with | .raise _ => true | _ => false)
      if (k.pend.all fun p => p.returned) && !(delivers && s.frameBusy c q k false) then
        let regs := k.returning
        let k := { k.commit with deferred := [], park := none, forced := false }
        let s := (s.setSkein c q k).dropLatch c q regs
        match causes with
        | z :: zs => s.deliver c q z zs
        | [] =>
          match a with
          | .go => ((s.updSkein c q Skein.reselect).tretCheck c q).regrpCheck c (s.lotOf k).launch
          | .exit m => (s.exitLanes c q m).tretCheck c q
          | .raise z => s.deliver c q z []
      else s

/-! ### Issue -/

/-- The words that an operand reads: registers as `Skein.bad` numbers them. -/
def words (add : Nat) (m : OForm) (o : BitVec 10) : List Nat :=
  let n := (o.extractLsb' 0 8).toNat
  if m.unused then []
  else match (o.extractLsb' 8 2).toNat with
    | 0 => (List.range (max 1 (max m.span m.grp))).map (· + n + add)
    | 1 => if n < 64 then (List.range (max 1 (max m.span m.grp))).map (· + 256 + n) else []
    | 2 => [512]
    | _ => []

/-- The vector registers that a fixed-latency instruction writes: those of its destination, and the stream block of BSRD (R194). -/
def Iss.written (x : Iss) : List Nat :=
  let m := (formOf x.f).getD { dst := oDst }
  if x.act ||| x.zero == 0 then []
  else (words (x.ixAdd true) m.dst x.f.dst ++ if x.f.opc == 0x7E then words (x.ixAdd false) m.a x.f.a else []).filter (· < 256)

/-- The latch after an issue (R53): entries age, the registers of held sources enter, the oldest of more than three go, and a
register that the instruction has written goes. -/
def Iss.latched (x : Iss) (wrote : List Nat) (es : List LatchEntry) : List LatchEntry :=
  let es := (es.map fun e => if e.slot == x.q then { e with life := e.life - 1 } else e).filter fun e => 0 < e.life
  let m := (formOf x.f).getD {}
  let hold := fun (i add : Nat) (m : OForm) (o : BitVec 10) => if x.f.hold.getLsbD i
    then ((words add m o).filter (· < 256)).map fun r => (⟨x.q, r, valsOf x.k.width (x.k.vlane r), 2⟩ : LatchEntry) else []
  let all := es ++ hold 0 (x.ixAdd false) m.a x.f.a ++ hold 1 0 m.b x.f.b
  (all.drop (all.length - 3)).filter fun e => e.slot != x.q || !wrote.contains e.reg

/-- The issue slot after an issue (R53, R297): the run grows; YH or 64 issues in a row end it. -/
def Iss.slotAfter (x : Iss) (wrote : List Nat) (e : IssueSlot) : IssueSlot :=
  let run := if e.cur == some x.q then e.run + 1 else 1
  { cur := if x.f.yh == 1 || 64 ≤ run then none else some x.q, run, latch := x.latched wrote e.latch, erred := e.erred }

/-- A stamp past 2^44 - 1 fails the lot (R122, R379). -/
def State.stampFault (s : State) (c q n : Nat) (info : IssueInfo) : State :=
  if s.checked n && stampLimit ≤ (s.lot n).m && (s.lot n).resident
  then s.deliver c q ⟨info, 0x42, 255, info.act, 0, 0, false, none, 0, []⟩ [] else s

/-- What every issue leaves beside its effect: the counts of R301, the hints (R143, R297), and for a marked instruction the
park of R55, whose boundary follows at once when nothing is pending. `k` is the skein after the instruction's effect. -/
def Iss.finish (x : Iss) (s : State) (k : Skein) (implied : Bool) : State :=
  let marker := implied || x.f.sw == 1 || k.forced
  let wrote := if k.llCount == x.k.llCount then x.written else []
  let k := { k with stallTo := s.tick + x.f.stall.toNat, lastIssue := some s.tick, lastPc := x.pc, afterTret := false
                    retired := k.retired + 1, cmpOk := false, relWait := none, idle := false
                    fetched := if k.cur == some x.fall then k.fetched.filter fun w => w.pc != x.pc else []
                    marks := if marker then [(x.pc, x.batch)] else [], halfSt := 0, asks := [], lost := []
                    park := if marker then some (k.park.getD .go) else k.park }
  let s := s.setSkein x.c x.q (if marker then k else k.reselect)
  let s := s.updLot k.lot fun l => { l with retiredCnt := l.retiredCnt + 1 }
  let s := s.updCore x.c fun u => { u with iq := u.iq.mapIdx fun i e => if i == x.q % 4 then x.slotAfter wrote e else e }
  (if marker then s.boundary x.c x.q else s).stampFault x.c x.q k.lot x.info

/-- The batch stands at the fall-through PC (R24, R132). -/
def Iss.advance (x : Iss) (k : Skein) : Skein :=
  let k := (k.mapFibres x.batch fun _ f => { f with pc := x.fall }).movePass x.pc x.fall
  { k with cur := some x.fall, gates := k.gates.filter fun g => g.pc != x.pc }

/-- A straight-line instruction whose whole effect is on its skein. -/
def Iss.skeinOnly (x : Iss) (k : Skein) : State := x.finish x.s (x.advance k) false

/-! ### Comparison points of a debugged launch (R416) -/

/-- The launch is debugged with DIV set, and its lot has a comparison point to log. -/
def Iss.logging (x : Iss) : Bool :=
  let blk := debugBlock x.part
  x.s.fld blk 2 1 == 1 && (x.s.rd (blk + 16)).toNat == x.launch.slotAddr && x.launch.slotAddr != 0 && decide (x.lot.points < 4096)

/-- A replayed lot stands at a comparison point with another count of instructions than its log holds. -/
def Iss.diverged (x : Iss) : Bool :=
  x.logging && x.launch.replays != 0 && match amGet x.launch.log x.lot.idx with
    | some (a, n) => decide (x.lot.points < n) && memNat x.s.mem (a + 8 * x.lot.points) 8 != x.lot.retiredCnt
    | none => false

/-- The cause of a divergence: it escalates. -/
def Iss.divergence (x : Iss) : Cause := ⟨x.info, 0xC4, 255, x.act, 0, 0, false, none, x.k.seq, []⟩

/-- A comparison point is passed: the first run logs RETIRED in the context heap, in an area that its lot takes at its first point (log
entry 108). -/
def Iss.logged (x : Iss) (t : State) : State :=
  if !x.logging then t
  else
    let t := t.updLot x.k.lot fun l => { l with points := l.points + 1 }
    let put := fun (t : State) (a : Nat) => (t.heapPut (a + 8 * x.lot.points) (leBytes x.lot.retiredCnt 8)).updLaunch x.lot.launch
      fun l => { l with log := amPut l.log x.lot.idx (a, x.lot.points + 1) }
    if x.launch.replays != 0 then t
    else match amGet x.launch.log x.lot.idx with
      | some (a, _) => put t a
      | none => match t.heapFind x.part logBytes 128 [] with
        | some a => put t a
        | none => t

/-- A precise cause (R345): at once when nothing is pending, otherwise the skein parks until every pending result has been
performed, and TRAP_DELIVER delivers it. Nothing of the instruction is performed. A TRAP is a comparison point (R407, R416). -/
def Iss.raise (x : Iss) (h : Hit) : State :=
  let z : Cause := ⟨x.info, h.code, h.detail, h.aff, 0, h.addr, false, none, x.k.seq, []⟩
  if 0xE0 ≤ h.code && x.diverged then x.s.deliver x.c x.q x.divergence []
  else
    let s := (if 0xE0 ≤ h.code then x.logged x.s else x.s).setSkein x.c x.q { x.k with park := some (.raise z), relWait := none }
    if x.k.pend.isEmpty then s.boundary x.c x.q else s

/-- The encoding causes that only the window and %vx decide (R47, R356), with AFFECTED equal to ACTIVE (R346). -/
def Iss.encoding (x : Iss) : List Hit :=
  match firstCause (some x.env) x.f with
  | some (code, d) => [⟨code, d, x.act, 0⟩]
  | none => []

/-- STEP of a debugged launch (R412). -/
def Iss.stepHit (x : Iss) : List Hit :=
  let blk := debugBlock x.part
  if x.s.fld blk 1 1 == 1 && (x.s.rd (blk + 16)).toNat == x.launch.slotAddr && x.launch.slotAddr != 0 &&
    x.k.trap.isNone && !x.k.afterTret then [⟨0xC2, 255, x.act, 0⟩] else []

/-- The number of 1 bits. -/
def ones {n : Nat} (b : BitVec n) : Nat := ((List.range n).filter fun i => b.getLsbD i).length

/-- The instruction reads what its destination field names, beside writing it or instead: WELF and WMRG (R186), PACKF.e2m1 (R191),
`BSINIT.rf` (R194), `CPY.unz` (R227) and CPYM (R228). -/
def Fields.readsDst (f : Fields) : Bool :=
  match f.opc.toNat with
  | 0x70 | 0x71 | 0xC3 => true
  | 0x7B => f.mod.extractLsb' 8 4 == 7
  | 0x7D => f.mod.getLsbD 0
  | 0xC1 => f.sub == 3
  | _ => false

/-- The words that the instruction reads: its operands, the member mask of a cross-lane operation (R196), the carry in of IADDC (R157),
and the predicate word of its guard and of its merge mask. -/
def Iss.reads (x : Iss) : List Nat :=
  let m := (formOf x.f).getD {}
  let n := (x.f.imm.extractLsb' 0 6).toNat
  words (x.ixAdd false) m.a x.f.a ++ words 0 m.b x.f.b ++
    (match m.c with | some o => words 0 o (x.f.imm.extractLsb' 0 10) | none => []) ++
    (match x.f.pfx with | some p => if x.f.opc == 0x1B then words 0 oSrc p.srcd else [] | none => []) ++
    (if Fields.readsDst x.f then words (x.ixAdd true) m.dst x.f.dst else []) ++
    (if 0x81 ≤ x.f.opc.toNat && x.f.opc.toNat ≤ 0x85 && x.f.imm.getLsbD 6
      then [256 + n] ++ (if x.k.lanepart = 64 then [257 + n] else []) else []) ++
    (if x.f.opc == 2 && x.f.mod.extractLsb' 0 3 != 7 then [512] else []) ++
    (if x.f.guard == 7 && (match x.f.pfx with | some p => p.mpol == 0 | none => true) then [] else [512])

/-- A word in error is one of a half's tag: its register and that half (R364). -/
def tagWord (n : Nat) : Option (Nat × Nat) := if 1024 ≤ n then some ((n - 1024) / 4, (n - 1024) / 2 % 2) else none

/-- The lanes in which a word in error stands: a lane word in its lane, a scalar in all, a tag word in those of its half, where the
register has such a tag. -/
def Skein.errLanes (k : Skein) (e : Nat × Nat × Word) : Lanes :=
  match tagWord e.1 with
  | some (v, h) =>
    if (e.1 % 2 == 0 && (k.reg h v).tag == 0) || (k.reg h v).tag == 1 then lanesWhere k.width fun l => l / 32 == h else 0
  | none =>
    if 256 ≤ e.1 && e.1 < 512 then lanesWhere k.width fun _ => true
    else if e.1 < 256 && (k.reg (e.2.1 / 32) e.1).tag != 2 then 0
    else BitVec.ofNat 64 (2 ^ e.2.1)

/-- The words in error that the instruction reads in a lane of its batch. -/
def Iss.badReads (x : Iss) : List (Nat × Nat × Word) :=
  if x.k.bad.isEmpty then []
  else
    let ws := x.reads
    x.k.bad.filter fun e => ws.contains ((tagWord e.1).elim e.1 Prod.fst) && x.k.errLanes e &&& x.batch != 0

/-- REG_UNCORRECTABLE (R364): a word that the instruction reads, or the predicate word of its guard, is found with more than one bit
flipped; DETAIL holds the register's index. -/
def Iss.eccHit (x : Iss) : List Hit :=
  let es := x.badReads.filter fun e => 2 ≤ ones e.2.2
  let reg := fun (n : Nat) => ((tagWord n).elim n Prod.fst) % 256
  match es with
  | [] => []
  | e :: _ => [⟨0x14, reg e.1, (es.filter fun b => reg b.1 == reg e.1).foldl (fun m b => m ||| (x.k.errLanes b &&& x.batch)) 0, 0⟩]

/-- A single flipped bit of a word that the instruction reads is corrected, and counted (R364). -/
def Iss.scrub (x : Iss) (t : State) : State :=
  match x.badReads.filter fun e => ones e.2.2 < 2 with
  | [] => t
  | es => (t.updSkein x.c x.q fun k => { k with bad := k.bad.filter fun e => !es.contains e }).count (eccCounter x.c) es.length

/-- The precise cause of an instruction, if it meets one: the lowest-numbered of the encoding causes, SEG_OVERFLOW before the
33rd long-latency instruction of a segment (R57, R358), its own causes, and STEP (R346). -/
def Iss.cause (x : Iss) (ll : Bool) (own : List Hit) : Option Hit :=
  lowestHit (x.encoding ++ (if ll && 32 ≤ x.k.llCount then [⟨0x10, 255, x.act, 0⟩] else []) ++ own ++ x.eccHit ++ x.stepHit)

/-- The comparison points of a redundant pair (R407): the synchronising operations. -/
def comparePoint : Instr → Bool
  | .ld _ m .. | .lds _ m .. | .ldd _ m .. | .st _ m .. | .sts _ m .. | .std _ m .. => m.ord != .plain
  | .atom .. | .atoms .. | .red .. | .bar .. | .nbar .. | .binit .. | .barv .. | .bexp .. | .bwait .. | .btest .. | .fence ..
  | .tlwt .. | .tlrd .. | .tladv .. | .shape .. | .cpy .. | .cpyUnz .. | .cpyg .. | .cpym .. | .seal .. | .cpwt .. | .qsrch ..
  | .qstat .. | .land .. | .landf .. | .mzero .. | .mlda .. | .msta .. | .mma .. | .mckpt .. | .mbud .. | .spawn ..
  | .joinc .. | .trap .. | .exit .. => true
  | _ => false

/-- The skein of the partner lot that runs the same lot skein (R405). -/
def State.partnerSkein (s : State) (k : Skein) : Option (Nat × Skein) :=
  match (s.lotOf k).partner with
  | some n => s.skeins.find? fun e => e.2.lot == n && e.2.lotSkein == k.lotSkein
  | none => none

/-- The instruction reads the tick (R46). -/
def Fields.readsTick (f : Fields) : Bool :=
  let t := fun (o : BitVec 10) => o == 0x150 || o == 0x151
  t f.a || t f.b || ((formOf f).any fun m => m.c.isSome) && t (f.imm.extractLsb' 0 10) ||
    f.opc == 0x1B && (match f.pfx with | some p => t p.srcd | none => false)

/-- The flip of R420 is due in this skein: before its next issue. -/
def State.flipDue (s : State) (k : Skein) : Bool :=
  let l := s.lotOf k
  let w := injectWord (s.partOf l)
  l.role != .single && s.fld w 0 1 == 1 && k.lotSkein == 0 && (s.fld w 1 1 == 1) == (l.role == .leading) &&
    s.fld w 32 32 == k.retired

/-- The operations that a checkpoint of the leading lot follows (R407). -/
def checkpointAfter : Instr → Bool
  | .atom .. | .atoms .. | .red .. | .tladv .. | .spawn .. | .joinc .. | .shape .. | .cpy .. | .cpyUnz .. | .cpyg .. | .cpym ..
  | .seal .. | .cpwt .. | .qsrch .. | .qstat .. | .land .. | .landf .. | .mzero .. | .mlda .. | .msta .. | .mma .. | .mckpt ..
  | .mbud .. => true
  | _ => false

/-- A leading lot parks (R406): its compare buffer is full, or one of its skeins has retired 4,096 instructions more than its trailing
partner. -/
def State.leadParks (s : State) (n : Nat) : Bool :=
  (s.lot n).role == .leading && (decide (64 ≤ (s.lot n).cmp.length) || s.skeins.any fun e => e.2.lot == n &&
    match s.partnerSkein e.2 with | some p => decide (p.2.retired + 4096 ≤ e.2.retired) | none => false)

/-- The skein waits for its partner at a comparison point (R407); a leading lot parks (R406), and waits for the checkpoint that follows an
operation (R407); a trailing one that reads the tick waits for the value that the leading one read (R405); an operation with a
checkpoint waits for an empty buffer; a flip that is due comes first (R420). -/
def Iss.mustCompare (x : Iss) (i : Instr) : Bool :=
  match x.lot.role with
  | .single => false
  | r => (comparePoint i && !x.k.cmpOk) || x.lot.ckDue != [] || x.s.flipDue x.k ||
    (r == .leading && checkpointAfter i && x.lot.cmp != []) ||
    x.s.leadParks x.k.lot ||
    (r == .trailing && Fields.readsTick x.f && (x.lot.tickFor x.k).isNone)

/-- The tick that a leading skein reads is forwarded, and the trailing one takes it (R405). -/
def Iss.forwardTick (x : Iss) (t : State) : State :=
  if Fields.readsTick x.f && decide (x.lot.retiredCnt < (t.lot x.k.lot).retiredCnt) then
    match x.lot.role, x.lot.partner with
    | .leading, some n => t.updLot n fun l =>
        { l with fwd := l.fwd ++ [(⟨x.k.lotSkein, tickKey x.k.retired, x.s.tick, default⟩ : Forward)] }
    | .trailing, _ => t.updLot x.k.lot fun l =>
        { l with fwd := l.fwd.filter fun e => !(e.lotSkein == x.k.lotSkein && e.seq == tickKey x.k.retired) }
    | _, _ => t
  else t

/-- A leading skein that issued such an operation has a checkpoint due. -/
def Iss.dueCkpt (x : Iss) (i : Instr) (t : State) : State :=
  if x.lot.role == .leading && checkpointAfter i && x.lot.retiredCnt < (t.lot x.k.lot).retiredCnt
  then t.updLot x.k.lot fun l => { l with ckDue := insNat l.ckDue x.k.lotSkein } else t

/-- A comparison point that has issued is logged, or on a replay compared (R416). -/
def Iss.logPoint (x : Iss) (i : Instr) (t : State) : State :=
  if !comparePoint i || (t.lot x.k.lot).retiredCnt ≤ x.lot.retiredCnt then t
  else if x.diverged then t.deliver x.c x.q x.divergence [] else x.logged t

/-- A skein whose instruction was turned away, having issued nothing, lets others of its slot issue (R297). -/
def Iss.tried (x : Iss) (t : State) : State :=
  match t.skein x.c x.q with
  | some k => if k.retired == x.k.retired && k.cur == x.k.cur && k.park.isNone then t.setSkein x.c x.q { k with idle := true } else t
  | none => t

/-- Results that a trailing lot takes from its leading lot (R405, R407): CCTL has one where it leaves a result pending, which `.inv1`
does not (R210). -/
def forwarded : Instr → Bool
  | .ld .. | .ldFmt .. | .ldc .. | .ldl .. | .atom .. | .tlrd .. | .qstat .. | .spawn .. | .qsrch .. | .msta .. | .mckpt .. | .mbud .. => true
  | .cctl _ o .. => o != .inv1
  | _ => false

/-- The forwarded result that an issuing trailing instruction takes. -/
def Iss.mine (x : Iss) (e : Forward) : Bool := e.lotSkein == x.k.lotSkein && e.seq == x.k.seq

/-- A trailing lot waits at the instruction for the result of its leading lot. -/
def Iss.noForward (x : Iss) (i : Instr) : Bool := x.lot.role == .trailing && forwarded i && !x.lot.fwd.any x.mine

/-- The frame in which every instruction issues: no skein, a wait for a redundant partner, a precise cause, or the
instruction's effect. -/
def issue (i : Instr) (s : State) (ll : Bool) (own : Iss → List Hit) (eff : Iss → State) :
    Host.Outcome State Fault Refusal :=
  match mkIss i s with
  | none => .fault .noSkein
  | some x =>
    if x.mustCompare i then .next (x.tried s)
    else match x.cause ll (own x) with
      | some h => .next (x.raise h)
      | none => if x.noForward i then .next (x.tried s) else .next (x.tried (x.scrub (x.logPoint i (x.dueCkpt i (x.forwardTick (eff x))))))

/-- A fixed-latency instruction with no cause of its own and no effect beyond its skein. -/
def issueFixed (i : Instr) (s : State) (f : Iss → Skein) : Host.Outcome State Fault Refusal :=
  issue i s false (fun _ => []) fun x => x.skeinOnly (f x)

end Sys2Proof.Machine
end

