-- ==== Sys2Proof/Machine/Fetch.lean ====
section
/-! DEFINITION. Which skein may issue and what it fetches (R95, R132, R297): the words at its current batch's PC, from its
fetched words, from a private page of a debugged launch (R413), or from memory; what the decoder makes of them. -/

namespace Sys2Proof.Machine

/-- The four bytes at a virtual code address: none while they cannot be fetched (R370). -/
def State.codeWord (s : State) (c : Nat) (ln : Launch) (va : DWord) : Option Word :=
  match amGet ln.privPages (va.toNat / 65536) with
  | some pa => some (BitVec.ofNat 32 (memNat s.mem (pa + fieldOf va 0 16) 4))
  | none =>
    match s.xlate c ln.part va false true with
    | .ok x => if (s.readCause ln.part x.pa 4).isSome then none else some (BitVec.ofNat 32 (memNat s.mem x.pa 4))
    | .bad .. => none

/-- What a fetch at a PC gives. -/
inductive FetchRes where
  | words (w : List Word)
  /-- a prefix in the last word of a code page whose next page is not mapped (R354) -/
  | lonePrefix (w : Word)
  | missing
  deriving DecidableEq, Repr, Inhabited

/-- A prefix in the last word of a code page whose next page is not mapped (R145, R354): its entry has V = 0. A next page at a
non-canonical address, or with a malformed entry, raises the cause of that instead (log entry 109). -/
def State.loneAt (s : State) (c : Nat) (ln : Launch) (pc : DWord) (w0 : Word) : Bool :=
  isPfxWord w0 && fieldOf pc 0 16 == 0xFFFC &&
    match s.xlate c ln.part (pc + 4) false true with | .bad 0x30 _ _ => true | _ => false

/-- The words of a PC's instruction that were fetched before (R95). -/
def Skein.had (k : Skein) (pc : DWord) : List Word :=
  match k.fetched.find? fun f => f.pc == pc with | some f => f.words | none => []

/-- Word i of a PC's instruction: fetched before, or in memory now. Each word is wholly old or wholly new, and the words of one
instruction may differ in which they show (R147); they are fetched in ascending order, so that a later word never shows an older write than
one before it (log entry 110). -/
def State.wordAt (s : State) (c q : Nat) (k : Skein) (pc : DWord) (i : Nat) : Option Word :=
  match (k.had pc)[i]? with
  | some w => some w
  | none =>
    let va := pc + BitVec.ofNat 64 (4 * i)
    if s.heldAt (.fetch c q pc) va then none else s.codeWord c (s.launchOf k) va

/-- The words of the instruction at a PC (R132): three, or four under a prefix. -/
def State.fetch (s : State) (c q : Nat) (k : Skein) (pc : DWord) : FetchRes :=
  let word := s.wordAt c q k pc
  match word 0 with
  | none => .missing
  | some w0 =>
    if (k.had pc).length < 2 && s.loneAt c (s.launchOf k) pc w0 then .lonePrefix w0
    else match word 1, word 2, (if isPfxWord w0 then word 3 else some 0) with
      | some w1, some w2, some w3 => .words [w0, w1, w2, w3]
      | _, _, _ => .missing

/-- How many words the instruction at a PC is known to have: only its first word says whether it has three or four (R132). -/
def State.wordsNeeded (s : State) (c q : Nat) (k : Skein) (pc : DWord) : Nat :=
  match s.wordAt c q k pc 0 with
  | none => 1
  | some w0 => if !isPfxWord w0 then 3 else if s.loneAt c (s.launchOf k) pc w0 then 1 else 4

/-- An instruction after which the fetch does not go on until its outcome is known (R95). -/
def isTransfer : Instr → Bool
  | .bra .. | .brx .. | .call .. | .callx .. | .ret .. | .exit .. | .trap .. | .brk .. | .tret .. => true
  | _ => false

/-- The addresses from which the fetch may read: a PC, and up to n instructions beyond it as far as the words fetched show them,
never past a control transfer (R95). -/
def Skein.fetchAhead (k : Skein) : Nat → DWord → List DWord
  | 0, pc => [pc]
  | n + 1, pc => pc :: match k.had pc with
    | [w0, w1, w2, w3] => (match decodeWords w0 w1 w2 w3 with
      | .ok i _ => if isTransfer i then [] else k.fetchAhead n (pc + if isPfxWord w0 then 16 else 12)
      | _ => [])
    | _ => []

/-- An instruction at which a batch waits unissued: whether it is a CONV, and its member mask (R38, R168). -/
def gateOf : Instr → Option (Bool × Option (BitVec 6))
  | .conv _ => some (true, none)
  | .vote _ _ _ _ m .. => some (false, m)
  | .shfl _ _ _ _ _ m .. => some (false, m)
  | .mtch _ _ _ m .. => some (false, m)
  | .redux _ _ _ m .. => some (false, m)
  | .scan _ _ _ _ m .. => some (false, m)
  | _ => none

/-- The gate of the instruction at a PC, with what its wait keeps of it. -/
def State.gateAt (s : State) (c q : Nat) (k : Skein) (pc : DWord) : Option ((Bool × Option (BitVec 6)) × IssueInfo) :=
  match s.fetch c q k pc with
  | .words [w0, w1, w2, w3] =>
    match decodeWords w0 w1 w2 w3 with
    | .ok i _ => (gateOf i).bind fun g => i.toFields.map fun f => (g, (issOf s c q k pc f).info)
    | _ => none
  | _ => none

/-- Each batch that has reached a CONV or a member-mask operation has opened its wait, and is not runnable until those whom it waits
for have come (R24, R38, R168). -/
def State.arrive (s : State) (c q : Nat) (k : Skein) : Skein :=
  k.reached.foldl (fun k pc => match s.gateAt c q k pc with
    | some ((conv, mask), i) => k.openGate pc conv mask s.tick i
    | none => k) k

/-- An acquire that has not returned holds the skein's later instructions (R112, R114). -/
def isAcquire : Instr → Bool
  | .ld _ m .. | .lds _ m .. | .ldd _ m .. => m.ord == .acq || m.ord == .sc
  | .atom _ m .. | .atoms _ m .. => m.ord == .acq || m.ord == .ar || m.ord == .sc
  | _ => false

/-- A `.sc` store is followed by the waits of a fence: it holds the skein's later instructions until it is performed (R115). -/
def isScStore : Instr → Bool
  | .st _ m .. => m.ord == .sc
  | _ => false

/-- Nothing but its batch keeps the skein from issuing: its lot runs, or a save forces its next issue or awaits its TRET (R306, R348); it is
not parked, stalled or waiting to release (R143, R297); no acquire and no `.sc` store is outstanding, and no access waits for the pages that
its race test names (R379). -/
def State.unheld (s : State) (c q : Nat) (k : Skein) : Bool :=
  ((s.lotOf k).status == .running || (s.lotOf k).status == .saving && (k.forced || k.trap.isSome)) &&
    k.park.isNone && k.relWait.isNone && decide (k.stallTo ≤ s.tick) &&
    (k.pend.all fun p => (p.returned || !isAcquire p.i) && !p.hold) &&
    ((s.core c).stores.all fun p => p.slot != q || !(isScStore p.i || p.hold))

/-- The skein could issue if its slot turned to it: its current batch is runnable (R24). -/
def State.couldIssue (s : State) (c q : Nat) : Bool :=
  match s.skein c q with
  | none => false
  | some k => s.unheld c q k && (match k.cur with | some pc => k.runnable pc | none => false)

/-- The skein can issue, for the choice of its slot (R297): its instruction can be fetched, and its last try was not turned away by
a full queue, a redundant partner or another wait at the instruction, unless something has happened since. -/
def State.canIssue (s : State) (c q : Nat) : Bool :=
  s.couldIssue c q &&
    match s.skein c q with
    | some k => !k.idle && (match k.cur with
      | some pc => s.fetch c q k pc != .missing || k.noFetch.any fun e => e.1 == pc
      | none => false)
    | none => false

/-- What a turned-away skein waits for may have come about: every skein may try again. -/
def State.rouse (s : State) : State :=
  if (amVals s.skeins).any Skein.idle then { s with skeins := amMap (fun _ k => { k with idle := false }) s.skeins } else s

/-- The skein may issue now: it is the one its issue slot issues from (R297). -/
def State.issuable (s : State) (c q : Nat) : Bool :=
  ((((s.core c).iq[q % 4]?).getD default).cur == some q) && s.couldIssue c q

/-- What the granted issue comes to: nothing, an instruction, or a trap on words that are no instruction (R354). -/
inductive Turn where
  | idle
  | run (i : Instr)
  | trap (t : State)
  deriving Repr

/-- The first cause of words that are no instruction, with the window and the relocation in view (R354), delivered for
the issuing batch whatever its guard (R346). -/
def State.badWords (s : State) (c q : Nat) (k : Skein) (pc : DWord) (f : Fields) (code detail : Nat) : State :=
  let x := issOf s c q k pc f
  let first := (firstCause (some x.env) f).getD (code, detail)
  x.raise ⟨first.1, first.2, x.act, 0⟩

/-- A prefix whose instruction would stand on a page that is not mapped (R354): RESERVED_FIELD for its own reserved bits, else
BAD_PREFIX. Its guard was not read, so every lane of the batch counts as active. -/
def State.lonePrefixTrap (s : State) (c q : Nat) (k : Skein) (pc : DWord) (p : PFields) : State :=
  let x := issOf s c q k pc (unpack (some p) 0)
  let x := { x with act := x.batch }
  x.raise (if p.resv != 0 then ⟨0x03, 122, x.act, 0⟩ else ⟨0x05, 96, x.act, 0⟩)

/-- A refused fetch is a precise cause at the batch's PC (R373). Its frame holds the words that had been fetched, and names no operands and
no destination (log entry 110). -/
def State.fetchTrap (s : State) (c q : Nat) (k : Skein) (pc va : DWord) (code detail : Nat) : State :=
  let x := issOf s c q k pc (unpack none 0)
  let had := k.had pc
  let pfx := isPfxWord (had.headD 0)
  let info := { x.info with words := ((if pfx then had else 0 :: had) ++ [0, 0, 0, 0]).take 4, pfx, act := x.batch, opnds := []
                            dkind := 0, didx := 0, ndst := 0 }
  let z : Cause := ⟨info, code, detail, x.batch, 0, va, false, none, k.seq, []⟩
  let t := s.setSkein c q { k with noFetch := k.noFetch.filter fun e => e.1 != pc, park := some (.raise z), relWait := none }
  if k.pend.isEmpty then t.boundary c q else t

/-- A core has 64 skein slots, and the module 512 cores (R16). -/
def slotOk (c q : Nat) : Bool := c < 512 && q < 64

/-- The turn of a skein (R95, R132, R354). -/
def State.turn (s : State) (c q : Nat) : Turn :=
  match (if slotOk c q then s.skein c q else none) with
  | none => .idle
  | some k =>
    match s.issuable c q, k.cur with
    | true, some pc =>
      match (k.noFetch.find? fun e => e.1 == pc).bind Prod.snd, s.fetch c q k pc with
      | some (va, code, d), _ => .trap (s.fetchTrap c q k pc va code d)
      | none, .missing => .idle
      | none, .lonePrefix w => .trap (s.lonePrefixTrap c q k pc (unpackPfx w))
      | none, .words [w0, w1, w2, w3] =>
        match decodeWords w0 w1 w2 w3 with
        | .ok i _ => .run i
        | .bad code d f _ => .trap (s.badWords c q k pc f code d)
      | none, .words _ => .idle
    | _, _ => .idle

/-- The events that the outside world or chance brings about; the others come about when their condition holds. -/
def isExternal : Instr → Bool
  | .linkDown _ | .lateCompletion _ | .linkRetrain _ | .linkTrained _ | .hostBar2Access .. | .windowPostedWrite ..
  | .frameMark _ | .windowMisuse .. | .faultRetry .. | .faultRefuse .. | .faultRetryAll _ | .faultReplyNone ..
  | .podTimelineAdvance .. | .fabricLost _ | .queueTailWrite .. | .partitionEnable .. | .partitionReset .. | .pkgWrite _
  | .schedStateRecovery _ | .dieFenceByDevice .. | .moduleReset | .registerWrite .. | .softError _ | .fxLinkTrained
  | .selfTestComplete _ => true
  | _ => false

/-- A requester that the module has. -/
def refOk : AccRef → Bool
  | .pend c q _ | .fetch c q _ | .ask c q => slotOk c q
  | .store c _ | .mtx c _ => c < 512
  | .hub p => p < 8
  | .copy _ | .query _ | .land _ => true

/-- An event names cores, skein slots, issue slots, queues, dies and partitions that the module has (R13, R16, R317). -/
def eventOk : Instr → Bool
  | .longLatencyReturn c q _ | .stallExpiry c q | .releaseWaitDone c q | .monitorTrigger c q | .waitTimeout c q _ | .trapDeliver c q
  | .instructionFetch c q _ => slotOk c q
  | .issueSlotSwitch c i => c < 512 && i < 4
  | .carveOutHandover c | .storeAck c _ | .mmaStart c | .mmaFirstFetch c _ | .kstepCharge c | .kstepComplete c | .mmaArrive c
  | .tileCommandRun c _ | .budgetRefill c | .pcSample c | .memorySample c => c < 512
  | .walkComplete r _ | .faultBufferRetry r _ | .completionTimeout r | .lateCompletion r => refOk r
  | .queueTailWrite q _ | .recordAccept q | .headReevaluate q | .launchStart q | .ageingStep q => q < 1024
  | .lotDispatch d | .chunkRequest d _ | .mordantDecide d | .schedStateRecovery d | .dieFenceByDevice d _ => d < 8
  | .faultRetry p _ | .faultRefuse p _ | .faultRetryAll p | .faultReplyNone p _ | .faultWatchdog p _ | .podTimelineAdvance p ..
  | .partitionEnable p _ | .partitionReset p _ | .invalidateTranslations p | .registerLake p | .unregisterLake p
  | .registerPodTimeline p | .uploadCodeObject p | .unloadCodeObject p | .setBreakpoint p | .clearBreakpoint p | .replaceFirmware p
  | .recalibrateStack p | .fenceDie p | .badCommand p | .injectionFlip p | .dumpWrite p => p < 8
  | .windowPostedWrite w .. | .frameMark w | .windowMisuse w .. => w < 64
  | .softError (.vreg c q ..) | .softError (.sreg c q ..) | .softError (.tag c q ..) | .softError (.preds c q ..)
  | .softError (.latch c q _) => slotOk c q
  | .softError (.elem c t i j _) => c < 512 && t < 4 && i < 128 && j < 128
  | .softError (.level c) | .softError (.staging c _) => c < 512
  | _ => true

end Sys2Proof.Machine
end

