-- ==== Sys2Proof/Machine/Operands.lean ====
section
/-! DEFINITION. Operands and results of an issuing instruction: sources in a lane (R134 to R136), destinations after IX
(R47), the tag that a fixed-latency result takes (R50), and the integer types of R154 and R155. -/

namespace Sys2Proof.Machine

/-- SRCA in a lane, relocated by IX (R47); 64 bits when the form reads a pair. -/
def Iss.opA (x : Iss) (o : Opnd) (pair : Bool) (l : Nat) : DWord := x.raw (x.ixAdd false) o.code pair l
/-- SRCB, SRCC or SRCD in a lane: IX never relocates them (R143). -/
def Iss.op (x : Iss) (o : Opnd) (pair : Bool) (l : Nat) : DWord := x.raw 0 o.code pair l
def Iss.a32 (x : Iss) (o : Opnd) (l : Nat) : Word := loOf (x.opA o false l)
def Iss.b32 (x : Iss) (o : Opnd) (l : Nat) : Word := loOf (x.op o false l)

/-- The value of SRCA as an address, moved by a signed offset (R139, R200). -/
def Iss.address (x : Iss) (a : Opnd) (off : DWord) (l : Nat) : DWord := x.opA a true l + off

/-- A predicate or the predicate word as a source of the predicate operations, after an optional negation (R165). -/
def Iss.predOp (x : Iss) (o : Opnd) (neg : Bool) (l : Nat) : BitVec 7 :=
  let v : BitVec 7 := match o with
    | .prd n => if x.k.pred n.toNat l then 1 else 0
    | _ => (x.k.predWord l).setWidth 7
  if neg then ~~~v else v

/-- Where the DST field sends a result, after IX (R47). -/
def Iss.dstOf (x : Iss) (o : Opnd) : Dst :=
  match o with
  | .vec i => .vec (i.toNat + x.ixAdd true)
  | .scl i => .scl i.toNat
  | .prd p => .prd p.toNat
  | .pword => .pword
  | _ => .none

/-- The destination after a destination: the odd half of a pair, or the next register of a group. -/
def Dst.next (d : Dst) (n : Nat) : Dst :=
  match d with
  | .vec i => .vec (i + n)
  | .scl i => .scl (i + n)
  | d => d

/-- A register's tag as R50 propagates it. -/
def Reg.tagR (r : Reg) : TagR :=
  match r.tag with
  | 0 => .u
  | 1 => .a
  | _ => .g

/-- U when every source is U, else G. -/
def tagU (ts : List TagR) : TagR := if ts.all (· == .u) then .u else .g

/-- The tag of a source in half h, SRCA or another one (R50): immediates and scalars count as U. Each register of a pair has
its own tag (R43), and a pair counts as U only where both are. -/
def Iss.tagOf (x : Iss) (isA : Bool) (o : Opnd) (h : Nat) (pair : Bool := false) : TagR :=
  match o with
  | .vec i =>
    let n := i.toNat + if isA then x.ixAdd false else 0
    if pair then tagU [(x.k.reg h n).tagR, (x.k.reg h (n + 1)).tagR] else (x.k.reg h n).tagR
  | .pword | .prd _ => .g
  | _ => .u
/-- The rule for IADD, ISUB and LEA: affine sources stay affine (R50). -/
def tagLin (ts : List TagR) : TagR := if ts.all (· == .u) then .u else if ts.any (· == .g) then .g else .a
/-- The rule for a product: affine when one source is A and the other U (R50). -/
def tagMul (p q : TagR) : TagR :=
  match p, q with
  | .u, .u => .u
  | .a, .u => .a
  | .u, .a => .a
  | _, _ => .g
/-- The rule for SHL: affine when the shifted source is A and the count U (R50). -/
def tagShl (p q : TagR) : TagR :=
  match p, q with
  | .u, .u => .u
  | .a, .u => .a
  | _, _ => .g

/-- A fixed-latency 32-bit result (R50, R55). -/
def Iss.put (x : Iss) (k : Skein) (d : Dst) (t : Nat → TagR) (val : Nat → Word) : Skein :=
  let k := k.supersede d (match d with | .vec _ => x.act ||| x.zero | _ => x.act)
  match d with
  | .none => k
  | .vec v => k.writeFixed v x.act x.zero t val
  | .scl n => k.writeScalar n x.act val
  | .prd p => k.writePred p x.act fun l => val l != 0
  | .pword => k.writePWord x.act val

/-- A fixed-latency 64-bit result in a pair: both registers are tagged G (R50, R162; log entry 38). -/
def Iss.put64 (x : Iss) (k : Skein) (d : Dst) (val : Nat → DWord) : Skein :=
  x.put (x.put k d (fun _ => .g) fun l => loOf (val l)) (d.next 1) (fun _ => .g) fun l => hiOf (val l)

def ITy.wide : ITy → Bool
  | .i64 | .n64 => true
  | _ => false

/-- The number that an operand holds under a type (R154); bytes of `.i8x4` are taken one by one. -/
def intVal (t : ITy) (v : DWord) : Int :=
  match t with
  | .i32 => (loOf v).toInt
  | .n32 => (loOf v).toNat
  | .i64 => v.toInt
  | .n64 => v.toNat
  | .i8x4 => (v.setWidth 8).toInt

/-- The range of a type (R155). -/
def intMin : ITy → Int
  | .i32 => -2 ^ 31
  | .i64 => -2 ^ 63
  | .i8x4 => -2 ^ 7
  | _ => 0
def intMax : ITy → Int
  | .i32 => 2 ^ 31 - 1
  | .n32 => 2 ^ 32 - 1
  | .i64 => 2 ^ 63 - 1
  | .n64 => 2 ^ 64 - 1
  | .i8x4 => 2 ^ 7 - 1

/-- fit(x): clamped under SAT, else modulo 2^w (R155). -/
def fit (t : ITy) (sat : Bool) (n : Int) : DWord :=
  let n := if sat then max (intMin t) (min (intMax t) n) else n
  match t with
  | .i64 | .n64 => BitVec.ofInt 64 n
  | .i8x4 => (BitVec.ofInt 8 n).setWidth 64
  | _ => (BitVec.ofInt 32 n).setWidth 64

/-- A byte of an operand; a kind-11 immediate stands in each byte (R135). -/
def byteOf (o : Opnd) (v : DWord) (i : Nat) : DWord :=
  match o with
  | .imm b => b.setWidth 64
  | _ => (v.extractLsb' (8 * i) 8).setWidth 64

/-- Four bytes put together. -/
def ofBytes (f : Nat → DWord) : DWord :=
  ((f 3).extractLsb' 0 8 ++ (f 2).extractLsb' 0 8 ++ (f 1).extractLsb' 0 8 ++ (f 0).extractLsb' 0 8 : BitVec 32).setWidth 64

/-- One lane of a one- or two-source operation on a type, byte by byte under `.i8x4` (R155). -/
def lane1 (t : ITy) (sat : Bool) (f : Int → Int) (a : Opnd) (av : DWord) : DWord :=
  match t with
  | .i8x4 => ofBytes fun i => fit t sat (f (intVal t (byteOf a av i)))
  | _ => fit t sat (f (intVal t av))

def lane2 (t : ITy) (sat : Bool) (f : Int → Int → Int) (a b : Opnd) (av bv : DWord) : DWord :=
  match t with
  | .i8x4 => ofBytes fun i => fit t sat (f (intVal t (byteOf a av i)) (intVal t (byteOf b bv i)))
  | _ => fit t sat (f (intVal t av) (intVal t bv))

/-- A result under a type: a register, or a pair under a 64-bit type. `lin` is the tag rule of the instruction, which
holds for 32-bit forms without SAT and PK only (R50). -/
def Iss.putT (x : Iss) (t : ITy) (sat : Bool) (d : Opnd) (lin : Nat → TagR) (u : Nat → TagR) (val : Nat → DWord) : Skein :=
  if ITy.wide t then x.put64 x.k (x.dstOf d) val
  else x.put x.k (x.dstOf d) (if sat || t == .i8x4 then u else lin) fun l => loOf (val l)

/-- A two-source integer operation. -/
def Iss.int2 (x : Iss) (t : ITy) (sat : Bool) (lin : TagR → TagR → TagR) (f : Int → Int → Int) (d a b : Opnd) : Skein :=
  x.putT t sat d (fun h => lin (x.tagOf true a h) (x.tagOf false b h))
    (fun h => tagU [x.tagOf true a h, x.tagOf false b h])
    fun l => lane2 t sat f a b (x.opA a (ITy.wide t) l) (x.op b (ITy.wide t) l)

/-- A one-source integer operation. -/
def Iss.int1 (x : Iss) (t : ITy) (sat : Bool) (lin : TagR → TagR) (f : Int → Int) (d a : Opnd) : Skein :=
  x.putT t sat d (fun h => lin (x.tagOf true a h)) (fun h => tagU [x.tagOf true a h])
    fun l => lane1 t sat f a (x.opA a (ITy.wide t) l)

/-- A bitwise operation of one, two or three sources: TYPE selects only the width (R158). -/
def Iss.bits2 (x : Iss) (t : ITy) (f : DWord → DWord → DWord) (d a b : Opnd) : Skein :=
  x.putT t false d (fun h => tagU [x.tagOf true a h, x.tagOf false b h])
    (fun h => tagU [x.tagOf true a h, x.tagOf false b h]) fun l => f (x.opA a (ITy.wide t) l) (x.op b (ITy.wide t) l)

/-- The bits of an operand under a type, zero-extended. -/
def zbits (t : ITy) (v : DWord) : DWord := if ITy.wide t then v else (loOf v).setWidth 64
def ITy.bits (t : ITy) : Nat := if ITy.wide t then 64 else 32

/-- A predicate result to a predicate, or with its complement to a pair, where the complement stands when both name one
predicate (R136). -/
def Iss.putPred (x : Iss) (k : Skein) (d : Opnd) (val : Nat → Bool) : Skein :=
  match d with
  | .prd p => x.put k (.prd p.toNat) (fun _ => .g) fun l => if val l then 1 else 0
  | .ppair p q =>
    let k := x.put k (.prd p.toNat) (fun _ => .g) fun l => if val l then 1 else 0
    x.put k (.prd q.toNat) (fun _ => .g) fun l => if val l then 0 else 1
  | _ => k

/-- A fixed-latency result tagged by classification: a per-lane read of R46 (R51). -/
def Iss.putClassed (x : Iss) (k : Skein) (d : Dst) (val : Nat → Word) : Skein :=
  let k := k.supersede d (match d with | .vec _ => x.act ||| x.zero | _ => x.act)
  match d with
  | .vec v => k.writeClassed v (x.act ||| x.zero) fun l => if x.zero.getLsbD l then 0 else val l
  | .scl n => k.writeScalar n x.act val
  | _ => k

/-- The tile width that a request sets: the largest accepted width not above it, never wider than the declared width of a
narrow lot nor than the skein (R26). -/
def clampPart (declared twinW req : Nat) : Nat :=
  let cap := if declared = 0 then twinW else min declared twinW
  let w := if 64 ≤ req then 64 else if 32 ≤ req then 32 else if 16 ≤ req then 16 else if 8 ≤ req then 8
    else if 4 ≤ req then 4 else 2
  min w cap

/-- The declared width: 0 for none (R27, R283). -/
def declaredWidth (code : Nat) : Nat := if code = 0 ∨ 7 ≤ code then 0 else 2 ^ code

/-- A skein-level write of %lanepart (R26, R197). -/
def Iss.setPart (x : Iss) (k : Skein) (req : Nat) : Skein :=
  { k with lanepart := clampPart (declaredWidth x.launch.widthCode) x.k.width req }

end Sys2Proof.Machine
end

