-- ==== Sys2Proof/Machine/Order.lean ====
section
/-! DEFINITION. What the core does for orders and waits: the conditions of a release (R115), the effect of an acquire
(R114), the sync stamps of both (R122), instructions that wait at their own address (R38, R168, R361) and instructions that
are issued and then waited on (R424). -/

namespace Sys2Proof.Machine

/-- Some access of this pending result has still to be performed. -/
def Pending.unperformed (p : Pending) : Bool := p.left != 0

/-- An atomic that a release at a scope waits for: its write is performed at once in a bank array, and at its home slice for
`.quad` or wider (R115). Loads are not waited for (R267). -/
def Pending.owes (p : Pending) (x : Scope) : Bool :=
  p.unperformed && match p.i with
    | .atoms .. => true
    | .atom .. => Scope.wide x
    | _ => false

/-- An ordered load or an atomic has still to be performed: an acquire fence stands for the last of them (R108). -/
def Pending.reads (p : Pending) : Bool :=
  p.unperformed && match p.i with
    | .ld _ m .. | .lds _ m .. | .ldd _ m .. => m.ord != .plain
    | .atom .. | .atoms .. | .tlrd .. => true
    | _ => false

/-- A line of hub memory whose store has not been written through can be written now. -/
def State.hubStuck (s : State) : Bool := s.hubDirty.any fun ln => !s.linkUp (hubOf (128 * ln))

/-- A contribution of a skein that crosses FX Link, to a proxy lake, is on its way (R321). -/
def State.crossing (s : State) (c q : Nat) : Bool :=
  s.lands.any fun e => e.2.core == c && e.2.slot == q && s.lakes.any fun k => k.part == e.2.part && k.desc.getLsbD 437 &&
    (e.2.va == k.va || (bitsOf k.desc.toNat 0 64 ≤ e.2.va.toNat &&
      decide (e.2.va.toNat < bitsOf k.desc.toNat 0 64 + bitsOf k.desc.toNat 64 64)))

/-- An access of a skein's core comes before a release of the skein: its own, and since a release at `.quad` or wider is cumulative, an
access of another skein that the skein's last acquire may have observed (R111, R112). -/
def Skein.follows (k : Skein) (own wide : Bool) (info : IssueInfo) : Bool := own || (wide && decide (info.tick ≤ k.hb))

/-- The conditions of a release of a skein at a scope (R115): the global writes before it are acknowledged for `.quad` to
`.sys` and written through for `.sys`, its scratchpad writes are performed, and the core's store replay queue is empty; a leading lot's
stores are performed once they are compared (R406). Its stores to scratchpad are performed when they issue. At `.pod` and wider what
crossed FX Link is acknowledged (R321). -/
def State.releaseReady (s : State) (c q : Nat) (x : Scope) : Bool :=
  match s.skein c q with
  | none => true
  | some k =>
    let w := Scope.wide x
    ((List.range 64).all fun r => match s.skein c r with
      | some j => j.pend.all fun p => !(k.follows (r == q) w p.info && p.owes x)
      | none => true) &&
      ((s.core c).stores.all fun p => p.replay == 0 && !(w && k.follows (p.slot == q) w p.info)) &&
      (!w || (s.lotOf k).cmp.all fun b => !(k.follows (b.lotSkein == k.lotSkein) w b.info)) &&
      (x != .sys || !s.hubStuck) && ((x != .pod && x != .sys) || !s.crossing c q)

/-- The distinct lots of a set of lanes. -/
def Skein.lots (k : Skein) (m : Lanes) : List Nat := (laneList m).foldl (fun ns l => insNat ns (k.laneLot l)) []

/-- Dirty far lines are written through for `.sys` (R115). -/
def State.throughFor (s : State) (x : Scope) : State := if x = .sys then s.hubClean fun _ => true else s

/-- An instruction that waits for the conditions of a release at a scope, and until then the skein waits at it (R115); with no
active lane it waits for nothing. -/
def Iss.afterWrites (x : Iss) (sc : Scope) (go : Iss → State) : State :=
  if x.act == 0 then go x
  else if x.s.releaseReady x.c x.q sc then go { x with s := x.s.throughFor sc }
  else x.s.setSkein x.c x.q { x.k with relWait := some ⟨x.pc, sc, x.s.tick, x.info⟩ }

/-- A release of R122 at a scope (R115): an ordered store, atomic or RED, or a FENCE. The stamps of its lots rise before it issues. -/
def Iss.released (x : Iss) (sc : Scope) (go : Iss → State) : State :=
  x.afterWrites sc fun x => go { x with s := x.s.stampLots (x.k.lots x.act) fun l => l.releaseStamp sc }

/-- The L1 effect of an acquire at a scope (R114), and the skein's largest observed stamp, cleared by an acquire (R122). -/
def Skein.acquire (k : Skein) (x : Scope) (tick : Nat) : Skein :=
  { k with acqTick := if Scope.wide x then tick else k.acqTick, hb := tick, oMax := 0 }

/-- An acquire of a skein that observes o (R114, R122). -/
def State.acquireAt (s : State) (c q : Nat) (x : Scope) (o : Nat) : State :=
  match s.skein c q with
  | some k => (s.setSkein c q (k.acquire x s.tick)).stampLot k.lot fun l => l.acquireStamp x o
  | none => s

/-! ### Long-latency instructions -/

/-- The stamp that a lot's writes carry: its m in a checked launch, else 0 (R123). -/
def State.stampOf (s : State) (n : Nat) : Nat := if s.checked n then (s.lot n).m else 0

/-- The stamps that the accesses of an instruction carry, by lane: each that of its fibre's lot (R36, R123). -/
def Iss.stamps (x : Iss) : List Nat := (List.range x.k.width).map fun l => x.s.stampOf (x.k.laneLot l)

/-- The pending result of an issuing instruction (R55): its lane addresses and its values b and c at issue. -/
def Iss.pending (x : Iss) (i : Instr) (addrs b c : Nat → DWord) (dsts : List Dst) : Pending :=
  let all := fun (f : Nat → DWord) => (List.range x.k.width).map f
  { seq := x.k.seq, i, info := x.info, addrs := all addrs, b := all b, c := all c, left := x.act, half := 0, withheld := 0
    causes := [], writes := dsts.map fun d => ⟨d, x.act, []⟩, flags := 0, stamps := x.stamps
    mark := (x.s.core x.c).storeSeq, seen := [], hold := false, returned := false }

/-- A long-latency instruction joins the segment (R55, R57). -/
def Skein.addPend (k : Skein) (p : Pending) : Skein :=
  { k with pend := k.pend ++ [p], seq := k.seq + 1, llCount := k.llCount + 1 }

/-- The issue of a long-latency instruction with its pending result. -/
def Iss.issuePend (x : Iss) (p : Pending) : State := x.finish x.s (x.advance (x.k.addPend p)) false
def Iss.issueLong (x : Iss) (i : Instr) (addrs b c : Nat → DWord) (dsts : List Dst) : State := x.issuePend (x.pending i addrs b c dsts)

/-- A long-latency instruction that carries no address: its values b and c at issue are all that its result is made of. -/
def issueValues (i : Instr) (s : State) (b c : Iss → Nat → DWord) (dsts : Iss → List Dst) :
    Host.Outcome State Fault Refusal :=
  issue i s true (fun _ => []) fun x => x.issueLong i (fun _ => 0) (b x) (c x) (dsts x)

/-- The lanes of the active set that fail a test. -/
def Iss.failing (x : Iss) (p : Nat → Bool) : Lanes := lanesWhere x.k.width fun l => x.act.getLsbD l && p l

/-- The precise causes of global addresses (R376, R377): NONCANONICAL, and MISALIGN with the log2 of the alignment. -/
def Iss.globalHits (x : Iss) (log : Nat) (addr : Nat → DWord) : List Hit :=
  hitOn 0x32 255 (x.failing fun l => !canonical (addr l)) addr ++
    hitOn 0x34 log (x.failing fun l => (addr l).toNat % 2 ^ log != 0) addr

/-! ### Waiting at an instruction that has not issued -/

/-- The fields that an instruction's words hold. -/
def fieldsOf (ws : List Word) (pfx : Bool) : Fields :=
  match ws with
  | [p, w0, w1, w2] => unpack (if pfx then some (unpackPfx p) else none) (w2 ++ w1 ++ w0)
  | _ => unpack none 0

/-- What a frame keeps of an instruction that its batch waits at: its lanes and operands are those at delivery. -/
def State.infoAt (s : State) (c q : Nat) (k : Skein) (i : IssueInfo) : IssueInfo :=
  (issOf s c q k i.pc (fieldsOf i.words i.pfx)).info

/-- A deferred cause parks the skein until its boundary (R345). -/
def State.defer (s : State) (c q : Nat) (zs : List Cause) : State :=
  match s.skein c q with
  | some k => (s.setSkein c q { k with deferred := k.deferred ++ zs, park := some (k.park.getD .go) }).boundary c q
  | none => s

/-- WAIT_TIMEOUT (R360, R361): PC and RESUME name the waiting instruction. -/
def timeoutCause (i : IssueInfo) (detail order : Nat) : Cause :=
  ⟨i, 0x16, detail, i.act, 0, 0, true, some i.pc, order, []⟩

/-- A wait cycle in one skein is raised at once, for the waiting batch at the lowest PC (R361). -/
def State.waitCycle (s : State) (c q : Nat) : State :=
  match s.skein c q with
  | some k =>
    if k.cycle then
      match k.pcs.head?.bind fun pc => k.gates.find? fun g => g.pc == pc with
      | some g => s.defer c q [timeoutCause (s.infoAt c q k g.info) 1 k.seq]
      | none => s
    else s
  | none => s

/-- An instruction that waits, not issued, until the lanes it needs stand at its address (R38, R168): a CONV keeps the
participants that its first arrival found, a member mask is taken as it stands. -/
def Iss.gated (x : Iss) (conv : Bool) (mask : Option (BitVec 6)) (go : Iss → State) : State :=
  let k := x.k.openGate x.pc conv mask x.s.tick x.info
  if k.gateOk x.pc then go { x with k := k } else (x.s.setSkein x.c x.q k.select).waitCycle x.c x.q

/-! ### Waiting on an instruction that has issued -/

/-- The fall-through address of a wait's instruction: none of them has a prefix. -/
def WaitRec.fall (w : WaitRec) : DWord := w.pc + 12

/-- The fibres of the batch stand at the fall-through PC and wait (R424). -/
def Iss.waiting (x : Iss) (k : Skein) (w : Nat → Wait) : Skein :=
  let k := x.advance k
  { k.mapFibres x.batch fun l f => { f with wait := some ⟨w l, x.pc, x.s.tick, x.act, x.info⟩ } with cur := none }

/-- The waits of some lanes end, and the skein selects again. -/
def Skein.wake (k : Skein) (m : Lanes) : Skein := (k.mapFibres m fun _ f => { f with wait := none }).reselect

end Sys2Proof.Machine
end

