-- ==== Sys2Proof/Machine/Control.lean ====
section
/-! DEFINITION. Predicate operations, control transfer, reconvergence, fibres, regroup, idempotent regions and traps
(R165 to R175, R351, R352). SPAWN and JOINC stand with the memory instructions. -/

namespace Sys2Proof.Machine

/-! ### Predicates (R165) -/

/-- A result of the predicate operations: one predicate, the predicate word, or the word in a register, tagged G. -/
def Iss.putBits (x : Iss) (d : Opnd) (val : Nat → BitVec 7) : Skein :=
  match x.dstOf d with
  | .prd p => x.put x.k (.prd p) (fun _ => .g) fun l => if (val l).getLsbD 0 then 1 else 0
  | e => x.put x.k e (fun _ => .g) fun l => (val l).setWidth 32

def execPand (c : Ctl) (na nb : Bool) (d a b : Opnd) (s : State) : Host.Outcome State Fault Refusal :=
  issueFixed (.pand c na nb d a b) s fun x => x.putBits d fun l => x.predOp a na l &&& x.predOp b nb l
def execPor (c : Ctl) (na nb : Bool) (d a b : Opnd) (s : State) : Host.Outcome State Fault Refusal :=
  issueFixed (.por c na nb d a b) s fun x => x.putBits d fun l => x.predOp a na l ||| x.predOp b nb l
def execPxor (c : Ctl) (na nb : Bool) (d a b : Opnd) (s : State) : Host.Outcome State Fault Refusal :=
  issueFixed (.pxor c na nb d a b) s fun x => x.putBits d fun l => x.predOp a na l ^^^ x.predOp b nb l
def execPnot (c : Ctl) (na : Bool) (d a : Opnd) (s : State) : Host.Outcome State Fault Refusal :=
  issueFixed (.pnot c na d a) s fun x => x.putBits d fun l => ~~~(x.predOp a na l)

/-- The source of PMOV: a predicate, the predicate word, or the low bits of a register or an immediate. -/
def Iss.moveBits (x : Iss) (na : Bool) (a : Opnd) (l : Nat) : BitVec 7 :=
  match a with
  | .prd _ | .pword => x.predOp a na l
  | _ => if na then ~~~((x.a32 a l).setWidth 7) else (x.a32 a l).setWidth 7

def execPmov (c : Ctl) (na : Bool) (d a : Opnd) (s : State) : Host.Outcome State Fault Refusal :=
  issueFixed (.pmov c na d a) s fun x => x.putBits d (x.moveBits na a)

/-! ### Control transfer (R24, R166, R357) -/

/-- The addresses at which the fibres of a batch stand once some have taken their targets. -/
def Iss.targets (x : Iss) (tgt : Nat → DWord) : List DWord :=
  (laneList x.batch).foldl (fun ps l => insPc ps (if x.act.getLsbD l then tgt l else x.fall)) []

/-- The batch divides at its targets; each part keeps the count of passes (R24). -/
def Iss.split (x : Iss) (k : Skein) (tgt : Nat → DWord) : Skein :=
  let n := k.passCount x.pc
  let pcs := x.targets tgt
  let k := k.mapFibres x.batch fun l f => { f with pc := if x.act.getLsbD l then tgt l else x.fall }
  let k := pcs.foldl (fun k p => k.setPass p (max n (k.passCount p))) (if pcs.contains x.pc then k else k.setPass x.pc 0)
  { k with cur := pcs.head?, gates := k.gates.filter fun g => g.pc != x.pc }

/-- A control transfer: the part at the lowest PC becomes current, and a backward transfer is a yield (R24). -/
def Iss.transfer (x : Iss) (k : Skein) (tgt : Nat → DWord) : State :=
  let k := x.split k tgt
  let back := (laneList x.act).any fun l => decide ((tgt l).toNat ≤ x.pc.toNat)
  x.finish x.s (if back then (x.s.arrive x.c x.q k).yieldTo else k) false

/-- A bad control target (R357): DETAIL 0 when it is unaligned, 1 when it is not canonical, as in the lowest bad lane. -/
def Iss.targetHits (x : Iss) (tgt : Nat → DWord) : List Hit :=
  let m := x.failing fun l => (tgt l).toNat % 4 != 0 || !canonical (tgt l)
  match lowest m with
  | some l => [⟨0x11, if (tgt l).toNat % 4 != 0 then 0 else 1, m, 0⟩]
  | none => []

/-- The target that IMM24 names (R139). -/
def Iss.label (x : Iss) (off : BitVec 24) : DWord := x.pc + (off.signExtend 64 <<< 2)

/-- The link of CALL and CALLX (R166). -/
def Iss.link (x : Iss) (d : Opnd) : Skein := x.put64 x.k (x.dstOf d) fun _ => x.pc + 12

def execBra (c : Ctl) (off : BitVec 24) (s : State) : Host.Outcome State Fault Refusal :=
  issue (.bra c off) s false (fun x => x.targetHits fun _ => x.label off) fun x => x.transfer x.k fun _ => x.label off
def execBrx (c : Ctl) (a : Opnd) (s : State) : Host.Outcome State Fault Refusal :=
  issue (.brx c a) s false (fun x => x.targetHits (x.opA a true)) fun x => x.transfer x.k (x.opA a true)
def execCall (c : Ctl) (off : BitVec 24) (d : Opnd) (s : State) : Host.Outcome State Fault Refusal :=
  issue (.call c off d) s false (fun x => x.targetHits fun _ => x.label off) fun x =>
    x.transfer (x.link d) fun _ => x.label off
def execCallx (c : Ctl) (d a : Opnd) (s : State) : Host.Outcome State Fault Refusal :=
  issue (.callx c d a) s false (fun x => x.targetHits (x.opA a true)) fun x => x.transfer (x.link d) (x.opA a true)
def execRet (c : Ctl) (a : Opnd) (s : State) : Host.Outcome State Fault Refusal :=
  issue (.ret c a) s false (fun x => x.targetHits (x.opA a true)) fun x => x.transfer x.k (x.opA a true)

/-- EXIT (R22): the skein parks with its active fibres at the EXIT, and they end once its results are performed. The rest of the
batch goes on as the current batch; where nothing of it is left, its count of passes goes with it (R24). -/
def Iss.endFibres (x : Iss) : State :=
  let k := if x.act == x.batch then { x.k.setPass x.pc 0 with cur := none, gates := x.k.gates.filter fun g => g.pc != x.pc }
    else (x.advance x.k).mapFibres x.act fun _ f => { f with pc := x.pc }
  x.finish x.s { k with park := if x.act = 0 then k.park else some (.exit x.act) } true

def execExit (c : Ctl) (s : State) : Host.Outcome State Fault Refusal :=
  issue (.exit c) s false (fun _ => []) Iss.endFibres

/-- YIELD (R167): a yield when at least one lane is active. -/
def Iss.yields (x : Iss) : State :=
  let k := x.advance x.k
  x.finish x.s (if x.act = 0 then k else (x.s.arrive x.c x.q k).yieldTo) false

def execYield (c : Ctl) (s : State) : Host.Outcome State Fault Refusal :=
  issue (.yield c) s false (fun _ => []) Iss.yields
def execNop (c : Ctl) (s : State) : Host.Outcome State Fault Refusal := issueFixed (.nop c) s fun x => x.k

/-- CONV (R168, R361, R362): its participants are the fibres that are live when the first batch reaches it. -/
def execConv (c : Ctl) (s : State) : Host.Outcome State Fault Refusal :=
  issue (.conv c) s false (fun _ => []) fun x => x.gated true none fun x => x.skeinOnly x.k

/-! ### Fibres (R21, R84, R169, R170) -/

/-- The skein slots in which a new fibre of a lot may be placed, in order (R21). -/
def State.fibreSlots (s : State) (n : Nat) : List Nat :=
  let l := s.lot n
  if (s.launch l.launch).regroup then (s.domainSkeins l.core l.launch).map fun e => e.1 % 64 else l.slots

/-- The batches that stand at a CONV or a member-mask operation in the skeins of a lot or its domain have opened their waits (R168). -/
def State.arriveAll (s : State) (n : Nat) : State :=
  (s.fibreSlots n).foldl (fun s q => match s.skein (s.lot n).core q with
    | some k => s.setSkein (s.lot n).core q (s.arrive (s.lot n).core q k)
    | none => s) s

/-- The lowest empty lane of a lot or its domain: slot, lane, skein. -/
def State.emptyLane (s : State) (n : Nat) : Option (Nat × Nat × Skein) :=
  (s.fibreSlots n).findSome? fun q =>
    (s.skein (s.lot n).core q).bind fun k =>
      ((List.range k.width).find? fun l => (k.fibre l).isNone).map fun l => (q, l, k)

/-- A fibre created at an address with a value in register v of its lane (R21, R84); none when the lot is full. -/
def State.newFibre (s : State) (n : Nat) (pc : DWord) (v : Nat) (t : TagR) (val : Word) : Option State :=
  let lt := s.lot n
  match s.emptyLane n with
  | some (q, l, k) =>
    if 2 ^ 32 - 1 ≤ lt.rankCtr then none
    else
      let idx := lowestFree ((s.lotFibres n).map Fibre.localIdx) 2048 0
      let f : Fibre := { pc, preds := 0, rank := BitVec.ofNat 32 lt.rankCtr, lot := n, localIdx := idx, arrived := 0
                         wait := none, susp := none, young := true }
      let m : Lanes := BitVec.ofNat 64 (2 ^ l)
      let k := { k with lanes := k.lanes.set l (some f), exitPc := none }
      let k := (k.supersede (.vec v) m).writeFixed v m 0 (fun _ => t) fun _ => val
      some (((s.setSkein lt.core q k.reselect).dropLatch lt.core q [v]).updLot n fun l => { l with rankCtr := l.rankCtr + 1 })
  | none => none

/-- One fibre for each active lane in ascending order: the machine, and the lanes whose fibre was created. -/
def Iss.newFibres (x : Iss) (s : State) (pc : DWord) (a b : Opnd) : State × Lanes :=
  let v := match b with | .vec i => i.toNat | _ => 0
  (laneList x.act).foldl (fun (p : State × Lanes) l =>
    match p.1.newFibre (x.k.laneLot l) pc v (tagU [x.tagOf true a (l / 32)]) (x.a32 a l) with
    | some s => (s, p.2 ||| BitVec.ofNat 64 (2 ^ l))
    | none => p) (s, 0)

/-- FNEW (R21, R169). A wait at CONV that is open by now has its participants, and the new fibres are not among them (R168). -/
def Iss.createFibres (x : Iss) (off : BitVec 24) (d a b : Opnd) : State :=
  let s := (laneList x.act).foldl (fun s l => s.arriveAll (x.k.laneLot l)) x.s
  let k := x.advance ((s.skein x.c x.q).getD x.k)
  let (s, made) := x.newFibres (s.setSkein x.c x.q k) (x.label off) a b
  match s.skein x.c x.q with
  | some k => x.finish s (x.putPred k d fun l => made.getLsbD l) false
  | none => s

/-- The regroup domain of the skein shuffles (R34). -/
def Iss.shuffling (x : Iss) : Bool := x.launch.regroup && x.s.shuffles.any fun h => h.core == x.c && h.launch == x.lot.launch

/-- FNEW in a domain that shuffles waits for the shuffle's end, since the shuffle places every lane anew (log entry 111). -/
def execFnew (c : Ctl) (off : BitVec 24) (d a b : Opnd) (s : State) : Host.Outcome State Fault Refusal :=
  issue (.fnew c off d a b) s false (fun _ => []) fun x => if x.shuffling then x.s else x.createFibres off d a b

/-- The lanes of lane l's tile of `%lanepart` (R26). -/
def Skein.tile (k : Skein) (l : Nat) : Lanes := lanesWhere k.width fun i => i / k.lanepart == l / k.lanepart

/-- The lane that ELECT chooses in lane l's tile (R170). -/
def Iss.elected (x : Iss) (last : Bool) (l : Nat) : Bool :=
  let ls := laneList (x.act &&& x.k.tile l)
  (if last then ls.getLast? else ls.head?) == some l

def execElect (c : Ctl) (last : Bool) (d : Opnd) (s : State) : Host.Outcome State Fault Refusal :=
  issueFixed (.elect c last d) s fun x => x.putPred x.k d (x.elected last)

/-! ### Regroup and idempotent regions (R33 to R37, R171, R174) -/

/-- REGRP outside a kernel that declares `.regroup` (R355). -/
def Iss.regrpHits (x : Iss) : List Hit := if x.launch.regroup then [] else [⟨0x12, 255, x.act, 0⟩]

def execRegrp (c : Ctl) (a : Opnd) (s : State) : Host.Outcome State Fault Refusal :=
  issue (.regrp c a) s false Iss.regrpHits fun x =>
    x.finish x.s (x.waiting x.k fun l => .regrp ((x.a32 a l).setWidth 16)) true

def execIdmb (c : Ctl) (s : State) : Host.Outcome State Fault Refusal :=
  issueFixed (.idmb c) s fun x => if x.act = 0 then x.k else { x.k with idem := true }

/-- IDME (R174): it marks each lot with an active fibre as having left an idempotent region. -/
def Iss.leaveIdem (x : Iss) : State :=
  let s := (laneList x.act).foldl (fun s l => s.updLot (x.k.laneLot l) fun l => { l with idemx := true }) x.s
  x.finish s (x.advance (if x.act = 0 then x.k else { x.k with idem := false })) false

def execIdme (c : Ctl) (s : State) : Host.Outcome State Fault Refusal :=
  issue (.idme c) s false (fun _ => []) Iss.leaveIdem

/-! ### Traps (R175, R351, R352) -/

/-- TRAP and BRK raise their cause for the active lanes, if there are any. -/
def Iss.trapHits (x : Iss) (code : Nat) : List Hit := if x.act = 0 then [] else [⟨code, 255, x.act, 0⟩]

def execTrap (c : Ctl) (n : BitVec 5) (s : State) : Host.Outcome State Fault Refusal :=
  issue (.trap c n) s false (fun x => x.trapHits (0xE0 + n.toNat)) fun x => x.finish x.s (x.advance x.k) true
def execBrk (c : Ctl) (s : State) : Host.Outcome State Fault Refusal :=
  issue (.brk c) s false (fun x => x.trapHits 0xC0) fun x => x.finish x.s (x.advance x.k) true

/-- TRET outside a handler, or to a bad target (R351, R357). -/
def Iss.tretHits (x : Iss) (a : Opnd) : List Hit :=
  (if x.k.trap.isNone then [⟨0x13, 255, x.act, 0⟩] else []) ++ x.targetHits (x.opA a true)

/-- TRET (R351): the batch waits with its targets, as read at issue, for the rest of BATCH. -/
def Iss.returning (x : Iss) (a : Opnd) : State :=
  let k := x.k.mapFibres x.batch fun l f => { f with wait := some ⟨.tret (x.opA a true l), x.pc, x.s.tick, x.act, x.info⟩ }
  x.finish x.s { k with cur := none } true

def execTret (c : Ctl) (a : Opnd) (s : State) : Host.Outcome State Fault Refusal :=
  issue (.tret c a) s false (fun x => x.tretHits a) fun x => x.returning a

end Sys2Proof.Machine
end

