-- ==== Sys2Proof/Machine/Float.lean ====
section
/-! DEFINITION. Floating-point arithmetic, compares, complex and dot products, running statistics, special functions,
conversions and bit-stream reading (R176 to R195). -/

namespace Sys2Proof.Machine

/-! ### Operands and results (R135, R145, R176, R177) -/

def FTy.fp : FTy → FpFmt
  | .f64 => .f64
  | .f32 => .f32
  | .f16 | .f16x2 => .f16
  | .bf16 | .bf16x2 => .bf16
def FTy.wide (t : FTy) : Bool := t == .f64
def FTy.packed : FTy → Bool
  | .f16x2 | .bf16x2 => true
  | _ => false

/-- The effective rounding mode (R145). -/
def effMode (c : Ctl) (r : RMode) : RMode :=
  match c.pre with
  | some p => if p.prnd = .rne then r else p.prnd
  | none => r

/-- A kind-11 source in a floating-point format (R135). -/
def fpImm (f : FpFmt) (v : BitVec 8) : Nat := (roundVal f .rne 0 (FVal.ofInt v.toInt)).1

/-- Element e of an operand under a type (R135, R176). -/
def fpElem (t : FTy) (o : Opnd) (v : DWord) (e : Nat) : Nat :=
  match o with
  | .imm b => fpImm (FTy.fp t) b
  | _ => match t with
    | .f64 => v.toNat
    | .f32 => (loOf v).toNat
    | _ => bitsOf v.toNat (16 * e) 16

/-- A result under a type: one element, or two packed ones. -/
def fpPack (t : FTy) (f : Nat → Nat × FFlags) : DWord × FFlags :=
  let r := f 0
  if FTy.packed t then
    let q := f 1
    (BitVec.ofNat 64 (r.1 + q.1 * 65536), r.2 ||| q.2)
  else (BitVec.ofNat 64 r.1, r.2)

/-- The OR of the flags of the active lanes. -/
def orFlags (rs : List (DWord × FFlags)) : FFlags := rs.foldl (fun m r => m ||| r.2) 0

/-- The results of the active lanes; the others are 0. -/
def Iss.lanes (x : Iss) (f : Nat → DWord × FFlags) : List (DWord × FFlags) :=
  (List.range x.k.width).map fun l => if x.act.getLsbD l then f l else (0, 0)

/-- The value of a lane of a list of results. -/
def laneVal (rs : List (DWord × FFlags)) (l : Nat) : DWord := ((rs[l]?).getD (0, 0)).1

/-- A fixed-latency floating-point result with its flags (R48, R50). -/
def Iss.putF (x : Iss) (wide : Bool) (d : Opnd) (t : Nat → TagR) (f : Nat → DWord × FFlags) : Skein :=
  let rs := x.lanes f
  let k := if wide then x.put64 x.k (x.dstOf d) (laneVal rs) else x.put x.k (x.dstOf d) t fun l => loOf (laneVal rs l)
  { k with fflags := k.fflags ||| orFlags rs }

/-- The tag of a result of some sources, SRCA first; `pair` says that each is a pair. -/
def Iss.tagsOf (x : Iss) (a : Opnd) (os : List Opnd) (h : Nat) (pair : Bool := false) : TagR :=
  tagU (x.tagOf true a h pair :: os.map fun o => x.tagOf false o h pair)

/-- A one-source operation on each element. -/
def Iss.fp1 (x : Iss) (t : FTy) (d a : Opnd) (f : Nat → Nat × FFlags) : Skein :=
  x.putF (FTy.wide t) d (fun h => x.tagsOf a [] h) fun l =>
    let v := x.opA a (FTy.wide t) l
    fpPack t fun e => f (fpElem t a v e)

/-- A two-source operation on each element. -/
def Iss.fp2 (x : Iss) (t : FTy) (d a b : Opnd) (f : Nat → Nat → Nat × FFlags) : Skein :=
  x.putF (FTy.wide t) d (fun h => x.tagsOf a [b] h) fun l =>
    let v := x.opA a (FTy.wide t) l
    let w := x.op b (FTy.wide t) l
    fpPack t fun e => f (fpElem t a v e) (fpElem t b w e)

/-- A wide immediate (R177): bits 31..8 of an FP32 value, widened exactly under `.f64`; a NaN keeps its sign and its bits. -/
def wideImm (t : FTy) (v : BitVec 24) : Nat :=
  let w := v.toNat * 256
  if t != .f64 then w
  else if (decodeF .f32 w).isNan then w / 2 ^ 31 * 2 ^ 63 + 0x7FF * 2 ^ 52 + w % 2 ^ 23 * 2 ^ 29
  else (roundVal .f64 .rne 0 (decodeF .f32 w)).1

/-- A two-source operation whose second operand may be a wide immediate. -/
def Iss.fpS (x : Iss) (t : FTy) (d a : Opnd) (b : FSrc) (f : Nat → Nat → Nat × FFlags) : Skein :=
  match b with
  | .opnd o => x.fp2 t d a o f
  | .wide v => x.fp1 t d a fun p => f p (wideImm t v)

/-! ### Arithmetic (R178, R179) -/

/-- The exact operation on values, on encodings. -/
def onVals (t : FTy) (g : FVal → FVal → Nat × FFlags) (p q : Nat) : Nat × FFlags :=
  g (decodeF (FTy.fp t) p) (decodeF (FTy.fp t) q)

def execFadd (c : Ctl) (t : FTy) (r : RMode) (d a : Opnd) (b : FSrc) (s : State) : Host.Outcome State Fault Refusal :=
  issueFixed (.fadd c t r d a b) s fun x => x.fpS t d a b (onVals t fun p q => fpAdd (FTy.fp t) (effMode c r) p q)
def execFsub (c : Ctl) (t : FTy) (r : RMode) (d a : Opnd) (b : FSrc) (s : State) : Host.Outcome State Fault Refusal :=
  issueFixed (.fsub c t r d a b) s fun x => x.fpS t d a b (onVals t fun p q => fpAdd (FTy.fp t) (effMode c r) p q.negate)
def execFmul (c : Ctl) (t : FTy) (r : RMode) (d a : Opnd) (b : FSrc) (s : State) : Host.Outcome State Fault Refusal :=
  issueFixed (.fmul c t r d a b) s fun x => x.fpS t d a b (onVals t fun p q => fpMul (FTy.fp t) (effMode c r) p q)

/-- FFMA (R178). -/
def Iss.fusedMulAdd (x : Iss) (t : FTy) (m : RMode) (d a b e : Opnd) : Skein :=
  let f := FTy.fp t
  let w := FTy.wide t
  x.putF w d (fun h => x.tagsOf a [b, e] h) fun l =>
    let va := x.opA a w l
    let vb := x.op b w l
    let ve := x.op e w l
    fpPack t fun i => fpFma f m (decodeF f (fpElem t a va i)) (decodeF f (fpElem t b vb i)) (decodeF f (fpElem t e ve i))

def execFfma (c : Ctl) (t : FTy) (r : RMode) (d a b e : Opnd) (s : State) : Host.Outcome State Fault Refusal :=
  issueFixed (.ffma c t r d a b e) s fun x => x.fusedMulAdd t (effMode c r) d a b e
def execFmin (c : Ctl) (t : FTy) (d a : Opnd) (b : FSrc) (s : State) : Host.Outcome State Fault Refusal :=
  issueFixed (.fmin c t d a b) s fun x => x.fpS t d a b (fpMinMax (FTy.fp t) false false)
def execFmax (c : Ctl) (t : FTy) (d a : Opnd) (b : FSrc) (s : State) : Host.Outcome State Fault Refusal :=
  issueFixed (.fmax c t d a b) s fun x => x.fpS t d a b (fpMinMax (FTy.fp t) true false)
def execFminm (c : Ctl) (t : FTy) (d a : Opnd) (b : FSrc) (s : State) : Host.Outcome State Fault Refusal :=
  issueFixed (.fminm c t d a b) s fun x => x.fpS t d a b (fpMinMax (FTy.fp t) false true)
def execFmaxm (c : Ctl) (t : FTy) (d a : Opnd) (b : FSrc) (s : State) : Host.Outcome State Fault Refusal :=
  issueFixed (.fmaxm c t d a b) s fun x => x.fpS t d a b (fpMinMax (FTy.fp t) true true)

/-! ### Compare, classify and scale (R180, R181) -/

/-- A compare in every active lane: truth as 1 or 0, and flags. -/
def Iss.fpCompare (x : Iss) (cc : FCond) (t : FTy) (a b : Opnd) : List (DWord × FFlags) :=
  let w := FTy.wide t
  x.lanes fun l =>
    let r := fpCmp cc (decodeF (FTy.fp t) (fpElem t a (x.opA a w l) 0)) (decodeF (FTy.fp t) (fpElem t b (x.op b w l) 0))
    (if r.1 then 1 else 0, r.2)

/-- A compare whose truth goes to predicates. -/
def Iss.fpCmpPred (x : Iss) (cc : FCond) (t : FTy) (d a b : Opnd) : Skein :=
  let rs := x.fpCompare cc t a b
  let k := x.putPred x.k d fun l => laneVal rs l != 0
  { k with fflags := k.fflags ||| orFlags rs }

def execFcmp (c : Ctl) (cc : FCond) (t : FTy) (d a b : Opnd) (s : State) : Host.Outcome State Fault Refusal :=
  issueFixed (.fcmp c cc t d a b) s fun x => x.fpCmpPred cc t d a b
def execFset (c : Ctl) (cc : FCond) (t : FTy) (d a b : Opnd) (s : State) : Host.Outcome State Fault Refusal :=
  issueFixed (.fset c cc t d a b) s fun x =>
    let rs := x.fpCompare cc t a b
    x.putF false d (fun h => x.tagsOf a [b] h (FTy.wide t)) fun l => (rs[l]?).getD (0, 0)
def execFrnd (c : Ctl) (t : FTy) (r : RMode) (x : Bool) (d a : Opnd) (s : State) : Host.Outcome State Fault Refusal :=
  issueFixed (.frnd c t r x d a) s fun y => y.fp1 t d a (fpRnd (FTy.fp t) (effMode c r) x)

/-- A one-source operation of one 32-bit result. -/
def Iss.fpWord (x : Iss) (t : FTy) (d a : Opnd) (f : Nat → DWord × FFlags) : Skein :=
  x.putF false d (fun h => x.tagsOf a [] h (FTy.wide t)) fun l => f (fpElem t a (x.opA a (FTy.wide t) l) 0)

def execFclass (c : Ctl) (t : FTy) (d a : Opnd) (s : State) : Host.Outcome State Fault Refusal :=
  issueFixed (.fclass c t d a) s fun x => x.fpWord t d a fun p => (BitVec.ofNat 64 (fpClass (FTy.fp t) p), 0)

/-- FSCL: the exponent is an i32 in a register or an immediate. -/
def Iss.scale (x : Iss) (t : FTy) (m : RMode) (d a b : Opnd) : Skein :=
  let f := FTy.fp t
  x.putF (FTy.wide t) d (fun h => x.tagsOf a [b] h) fun l =>
    fpPack t fun i => fpScl f m (decodeF f (fpElem t a (x.opA a (FTy.wide t) l) i)) (x.b32 b l).toInt

def execFscl (c : Ctl) (t : FTy) (r : RMode) (d a b : Opnd) (s : State) : Host.Outcome State Fault Refusal :=
  issueFixed (.fscl c t r d a b) s fun x => x.scale t (effMode c r) d a b
def execFext (c : Ctl) (sig : Bool) (t : FTy) (d a : Opnd) (s : State) : Host.Outcome State Fault Refusal :=
  issueFixed (.fext c sig t d a) s fun x =>
    if sig then x.fp1 t d a fun p => fpExtSig (FTy.fp t) (decodeF (FTy.fp t) p)
    else x.fpWord t d a fun p => ((fpExtExp (decodeF (FTy.fp t) p)).1.setWidth 64, (fpExtExp (decodeF (FTy.fp t) p)).2)

/-! ### Complex and dot products (R182, R183) -/

/-- The two parts of a complex FP32 value. -/
def cplx (v : DWord) : FVal × FVal := (decodeF .f32 (loOf v).toNat, decodeF .f32 (hiOf v).toNat)

/-- CMUL, and CFMA with its addend: each part is one chunk (R76). -/
def complexLane (m : RMode) (cja : Bool) (a b : DWord) (e : Option DWord) : DWord × FFlags :=
  let (ar, ai) := cplx a
  let (br, bi) := cplx b
  let ai := if cja then ai.negate else ai
  let re := roundChunk .f32 m ([mulTerm ar br, mulTerm ai.negate bi] ++ (match e with | some v => [(cplx v).1] | none => []))
  let im := roundChunk .f32 m ([mulTerm ar bi, mulTerm ai br] ++ (match e with | some v => [(cplx v).2] | none => []))
  (BitVec.ofNat 64 (re.1 + im.1 * 2 ^ 32), re.2 ||| im.2)

def execCmul (c : Ctl) (r : RMode) (cja : Bool) (d a b : Opnd) (s : State) : Host.Outcome State Fault Refusal :=
  issueFixed (.cmul c r cja d a b) s fun x =>
    x.putF true d (fun h => x.tagsOf a [b] h) fun l => complexLane (effMode c r) cja (x.opA a true l) (x.op b true l) none
def execCfma (c : Ctl) (r : RMode) (cja : Bool) (d a b e : Opnd) (s : State) : Host.Outcome State Fault Refusal :=
  issueFixed (.cfma c r cja d a b e) s fun x =>
    x.putF true d (fun h => x.tagsOf a [b, e] h) fun l =>
      complexLane (effMode c r) cja (x.opA a true l) (x.op b true l) (some (x.op e true l))

/-- VDOT2: a chunk of two products and an FP32 addend. -/
def Iss.dot2 (x : Iss) (t : FTy) (m : RMode) (d a b e : Opnd) : Skein :=
  let f := FTy.fp t
  x.putF false d (fun h => x.tagsOf a [b, e] h) fun l =>
    let term := fun i => mulTerm (decodeF f (fpElem t a (x.opA a false l) i)) (decodeF f (fpElem t b (x.op b false l) i))
    let r := roundChunk .f32 m [term 0, term 1, decodeF .f32 (fpElem .f32 e (x.op e false l) 0)]
    (BitVec.ofNat 64 r.1, r.2)

def execVdot2 (c : Ctl) (t : FTy) (r : RMode) (d a b e : Opnd) (s : State) : Host.Outcome State Fault Refusal :=
  issueFixed (.vdot2 c t r d a b e) s fun x => x.dot2 t (effMode c r) d a b e

/-- VDOT4: four byte products and an i32 addend. -/
def Iss.dot4 (x : Iss) (ua ub sat : Bool) (d a b e : Opnd) : Skein :=
  let byte := fun (u : Bool) (o : Opnd) (v : DWord) (i : Nat) =>
    let n := byteOf o v i
    if u then (n.toNat : Int) else ((n.extractLsb' 0 8 : BitVec 8).toInt)
  x.put x.k (x.dstOf d) (fun h => x.tagsOf a [b, e] h) fun l =>
    let va := x.opA a false l
    let vb := x.op b false l
    let p := (List.range 4).foldl (fun (n : Int) i => n + byte ua a va i * byte ub b vb i) (x.b32 e l).toInt
    loOf (fit .i32 sat p)

def execVdot4 (c : Ctl) (ua ub sat : Bool) (d a b e : Opnd) (s : State) : Host.Outcome State Fault Refusal :=
  issueFixed (.vdot4 c ua ub sat d a b e) s fun x => x.dot4 ua ub sat d a b e

/-! ### Special functions (R184, R185) -/

/-- A long-latency result whose values are known at issue: they wait in the return buffer (R55). -/
def Iss.pendValues (x : Iss) (i : Instr) (ws : List Write) (flags : FFlags) : State :=
  let p := x.pending i (fun _ => 0) (fun _ => 0) (fun _ => 0) []
  x.finish x.s (x.advance (x.k.addPend { p with left := 0, writes := ws, flags := flags })) false

/-- The lowest active lane, where a set holds it. -/
def Iss.lowIn (x : Iss) (m : Lanes) : Lanes :=
  match x.low with
  | some l => if m.getLsbD l then BitVec.ofNat 64 (2 ^ l) else 0
  | none => 0

/-- The writes of a long-latency result; a vector destination also takes the zeros of a merge mask (R145), and a scalar one the
value of the lowest active lane, where that lane has a result (R44, R196). -/
def Iss.longWrites (x : Iss) (wide : Bool) (d : Dst) (m : Lanes) (val : Nat → DWord) : List Write :=
  let mask := match d with | .vec _ => m ||| x.zero | .scl _ => x.lowIn m | _ => m
  let vals := fun (f : DWord → Word) => valsOf x.k.width fun l => if m.getLsbD l then f (val l) else 0
  ⟨d, mask, vals loOf⟩ :: (if wide then [⟨d.next 1, mask, vals hiOf⟩] else [])

/-- A special function of one operand. -/
def issueSpecial (i : Instr) (t : FTy) (d a : Opnd) (s : State) (f : FpFmt → FVal → Nat × FFlags) :
    Host.Outcome State Fault Refusal :=
  issue i s true (fun _ => []) fun x =>
    let rs := x.lanes fun l =>
      let r := f (FTy.fp t) (decodeF (FTy.fp t) (fpElem t a (x.opA a (FTy.wide t) l) 0))
      (BitVec.ofNat 64 r.1, r.2)
    x.pendValues i (x.longWrites (FTy.wide t) (x.dstOf d) x.act (laneVal rs)) (orFlags rs)

def execRcp (c : Ctl) (t : FTy) (r : RMode) (d a : Opnd) (s : State) : Host.Outcome State Fault Refusal :=
  issueSpecial (.rcp c t r d a) t d a s fun f v => fpDiv f (effMode c r) (FVal.ofInt 1) v
def execRsq (c : Ctl) (t : FTy) (d a : Opnd) (s : State) : Host.Outcome State Fault Refusal :=
  issueSpecial (.rsq c t d a) t d a s fun f v => fpRsq f .rne v
def execSqrt (c : Ctl) (t : FTy) (r : RMode) (d a : Opnd) (s : State) : Host.Outcome State Fault Refusal :=
  issueSpecial (.sqrt c t r d a) t d a s fun f v => fpSqrt f (effMode c r) v
def execExp2 (c : Ctl) (t : FTy) (d a : Opnd) (s : State) : Host.Outcome State Fault Refusal :=
  issueSpecial (.exp2 c t d a) t d a s fun f v => fpExp2 f .rne v
def execLog2 (c : Ctl) (t : FTy) (d a : Opnd) (s : State) : Host.Outcome State Fault Refusal :=
  issueSpecial (.log2 c t d a) t d a s fun f v => fpLog2 f .rne v
def execSinp (c : Ctl) (t : FTy) (d a : Opnd) (s : State) : Host.Outcome State Fault Refusal :=
  issueSpecial (.sinp c t d a) t d a s fun f v => fpSinCos f .rne false v
def execCosp (c : Ctl) (t : FTy) (d a : Opnd) (s : State) : Host.Outcome State Fault Refusal :=
  issueSpecial (.cosp c t d a) t d a s fun f v => fpSinCos f .rne true v
def execTanh (c : Ctl) (t : FTy) (d a : Opnd) (s : State) : Host.Outcome State Fault Refusal :=
  issueSpecial (.tanh c t d a) t d a s fun f v => fpTanh f .rne v

/-! ### Running statistics (R186) -/

/-- A triple of encodings with the flags raised so far. -/
structure Triple3 where
  n : Nat
  mean : Nat
  m : Nat
  fl : FFlags
  deriving DecidableEq, Repr, Inhabited

/-- One sample added to a triple. -/
def welfStep (m : RMode) (n mean mm x : Nat) : Triple3 :=
  let v := decodeF .f32
  let sub := fun p q => fpAdd .f32 m (v p) (v q).negate
  let n1 := fpAdd .f32 m (v n) (FVal.ofInt 1)
  let dlt := sub x mean
  let quo := fpDiv .f32 m (v dlt.1) (v n1.1)
  let mean1 := fpAdd .f32 m (v mean) (v quo.1)
  let dlt2 := sub x mean1.1
  let m1 := fpFma .f32 m (v dlt.1) (v dlt2.1) (v mm)
  ⟨n1.1, mean1.1, m1.1, n1.2 ||| dlt.2 ||| quo.2 ||| mean1.2 ||| dlt2.2 ||| m1.2⟩

/-- Triple B merged into triple A. -/
def wmrgStep (m : RMode) (na ma mma nb mb mmb : Nat) : Triple3 :=
  let v := decodeF .f32
  if (v nb).isZero then ⟨na, ma, mma, 0⟩
  else if (v na).isZero then ⟨nb, mb, mmb, 0⟩
  else
    let n := fpAdd .f32 m (v na) (v nb)
    let wgt := fpDiv .f32 m (v nb) (v n.1)
    let dlt := fpAdd .f32 m (v mb) (v ma).negate
    let mean := fpFma .f32 m (v dlt.1) (v wgt.1) (v ma)
    let q := fpMul .f32 m (v na) (v wgt.1)
    let sum := fpAdd .f32 m (v mma) (v mmb)
    let sq := fpMul .f32 m (v dlt.1) (v dlt.1)
    let mm := fpFma .f32 m (v sq.1) (v q.1) (v sum.1)
    ⟨n.1, mean.1, mm.1, n.2 ||| wgt.2 ||| dlt.2 ||| mean.2 ||| q.2 ||| sum.2 ||| sq.2 ||| mm.2⟩

/-- Three consecutive registers written from a triple per lane, reading the same registers; SRCA may be a group of
`span` registers. -/
def Iss.putTriple (x : Iss) (d a : Opnd) (span : Nat) (f : Nat → Triple3) : Skein :=
  match x.dstOf d with
  | .vec v =>
    let aBase := match a with | .vec i => i.toNat + x.ixAdd false | _ => 0
    let tags := fun h => (List.range 3).map (fun i => (x.k.reg h (v + i)).tag) ++
      (match a with | .vec _ => (List.range span).map fun i => (x.k.reg h (aBase + i)).tag | _ => [])
    let t := fun h => if (tags h).all (· == 0) then TagR.u else TagR.g
    let rs := (List.range x.k.width).map fun l => if x.act.getLsbD l then f l else default
    let at' : Nat → Triple3 := fun l => (rs[l]?).getD default
    let k := x.put x.k (.vec v) t fun l => BitVec.ofNat 32 (at' l).n
    let k := x.put k (.vec (v + 1)) t fun l => BitVec.ofNat 32 (at' l).mean
    let k := x.put k (.vec (v + 2)) t fun l => BitVec.ofNat 32 (at' l).m
    { k with fflags := rs.foldl (fun fl r => fl ||| r.fl) k.fflags }
  | _ => x.k

/-- Register v + i of the destination triple in a lane. -/
def Iss.dstLane (x : Iss) (d : Opnd) (i l : Nat) : Nat :=
  match x.dstOf d with
  | .vec v => (x.k.vlane (v + i) l).toNat
  | _ => 0

def execWelf (c : Ctl) (r : RMode) (d a : Opnd) (s : State) : Host.Outcome State Fault Refusal :=
  issueFixed (.welf c r d a) s fun x => x.putTriple d a 1 fun l =>
    welfStep (effMode c r) (x.dstLane d 0 l) (x.dstLane d 1 l) (x.dstLane d 2 l) (fpElem .f32 a (x.opA a false l) 0)

/-- Register i of the group that SRCA names, in a lane. -/
def Iss.groupLane (x : Iss) (a : Opnd) (i l : Nat) : Word :=
  match a with
  | .vec b => x.k.vlane (b.toNat + x.ixAdd false + i) l
  | _ => 0

def execWmrg (c : Ctl) (r : RMode) (d a : Opnd) (s : State) : Host.Outcome State Fault Refusal :=
  issueFixed (.wmrg c r d a) s fun x => x.putTriple d a 3 fun l =>
    wmrgStep (effMode c r) (x.dstLane d 0 l) (x.dstLane d 1 l) (x.dstLane d 2 l) (x.groupLane a 0 l).toNat
      (x.groupLane a 1 l).toNat (x.groupLane a 2 l).toNat

/-! ### Conversion and stochastic rounding (R74, R187 to R192) -/

/-- The generator state of a lane; after lot start that of seed 0 (R74). -/
def Skein.gen (k : Skein) (l : Nat) : Word := (amGet k.gens l).getD (BitVec.ofNat 32 (l * 0x9E3779B9))

/-- The next state of a generator. -/
def genNext (w : Word) : Word := w * 0x0019660D + 0x3C6EF35F

/-- n words drawn from a state, and the state after them. -/
def genDraw (w : Word) : Nat → List Nat × Word
  | 0 => ([], w)
  | n + 1 =>
    let w := genNext w
    let r := genDraw w n
    ((w >>> 16).toNat :: r.1, r.2)

/-- A conversion of n elements per active lane that draws under SR (R74). -/
def Iss.converting (x : Iss) (m : RMode) (n : Nat) (wide : Bool) (d : Opnd) (t : Nat → TagR)
    (f : Nat → (Nat → Nat) → DWord × FFlags) : Skein :=
  let k := x.putF wide d t fun l =>
    let ws := if m = .sr then (genDraw (x.k.gen l) n).1 else []
    f l fun e => (ws[e]?).getD 0
  if m = .sr then
    { k with gens := (laneList x.act).foldl (fun g l => amPut g l (genDraw (x.k.gen l) n).2) k.gens }
  else k

def NumTy.is64 : NumTy → Bool
  | .fp .f64 => true
  | .int 64 _ => true
  | _ => false

/-- The bits of a source in a numeric type (R135, R187). -/
def numElem (t : NumTy) (o : Opnd) (v : DWord) : Nat :=
  match o, t with
  | .imm b, .fp f => fpImm f b
  | _, _ => v.toNat

/-- CVT (R187), and its packed form, which reads FP32 from SRCA and SRCB (R188). -/
def Iss.convert (x : Iss) (df sf : Fmt) (m : RMode) (d a : Opnd) (b : Option Opnd) : Skein :=
  let dn := Fmt.num df
  let sn := Fmt.num sf
  match b with
  | some b =>
    x.converting m 2 false d (fun h => x.tagsOf a [b] h) fun l rw =>
      let p := cvtOne dn sn m (rw 0) (numElem sn a (x.opA a false l))
      let q := cvtOne dn sn m (rw 1) (numElem sn b (x.op b false l))
      (p.1 ||| (q.1 <<< 16), p.2 ||| q.2)
  | none =>
    x.converting m 1 (NumTy.is64 dn) d (fun h => x.tagsOf a [] h (NumTy.is64 sn)) fun l rw =>
      cvtOne dn sn m (rw 0) (numElem sn a (x.opA a (NumTy.is64 sn) l))

def execCvt (c : Ctl) (df sf : Fmt) (r : RMode) (d a : Opnd) (b : Option Opnd) (s : State) :
    Host.Outcome State Fault Refusal :=
  issueFixed (.cvt c df sf r d a b) s fun x => x.convert df sf (effMode c r) d a b

/-- CVTS (R189). -/
def Iss.convertScaled (x : Iss) (df sf : Fmt) (m : RMode) (d a b : Opnd) : Skein :=
  let dn := Fmt.num df
  let sn := Fmt.num sf
  x.converting m 1 (NumTy.is64 dn) d (fun h => tagU [x.tagOf true a h (NumTy.is64 sn), x.tagOf false b h]) fun l rw =>
    cvtScaled dn sn m (rw 0) (numElem sn a (x.opA a (NumTy.is64 sn) l)) (fpElem .f32 b (x.op b false l) 0)

def execCvts (c : Ctl) (df sf : Fmt) (r : RMode) (d a b : Opnd) (s : State) : Host.Outcome State Fault Refusal :=
  issueFixed (.cvts c df sf r d a b) s fun x => x.convertScaled df sf (effMode c r) d a b

/-- SRSEED (R74, R190). -/
def Iss.seed (x : Iss) (a : Opnd) : Skein :=
  match x.low with
  | some l =>
    let v := x.a32 a l
    { x.k with gens := (List.range x.k.width).map fun i => (i, v ^^^ BitVec.ofNat 32 (i * 0x9E3779B9)) }
  | none => x.k

def execSrseed (c : Ctl) (a : Opnd) (s : State) : Host.Outcome State Fault Refusal :=
  issueFixed (.srseed c a) s fun x => x.seed a

/-- The destination register as a source (R191). -/
def Iss.dstWord (x : Iss) (d : Opnd) (l : Nat) : Word :=
  match x.dstOf d with
  | .vec v => x.k.vlane v l
  | .scl n => x.k.scalar n
  | _ => 0

/-- PACKF (R191). -/
def Iss.packNarrow (x : Iss) (t : Fmt) (m : RMode) (hi : Bool) (d a b : Opnd) : Skein :=
  let four := t == .e2m1
  let tags := fun h => tagU ([x.tagOf true a h true, x.tagOf false b h true] ++
    if four then [match x.dstOf d with | .vec v => if (x.k.reg h v).tag = 0 then TagR.u else .g | _ => .u] else [])
  x.converting m 4 false d tags fun l rw =>
    let va := x.opA a true l
    let vb := x.op b true l
    let src := fun e => match e with
      | 0 => (loOf va).toNat
      | 1 => (hiOf va).toNat
      | 2 => (loOf vb).toNat
      | _ => (hiOf vb).toNat
    let r := fun e => cvtOne (Fmt.num t) (.fp .f32) m (rw e) (src e)
    let w := if four then 4 else 8
    let v := (List.range 4).foldl (fun (n : Nat) e => n + (r e).1.toNat % 2 ^ w * 2 ^ (w * e)) 0
    let old := (x.dstWord d l).toNat
    let v := if four then (if hi then old % 65536 + v * 65536 else old / 65536 * 65536 + v) else v
    (BitVec.ofNat 64 v, (r 0).2 ||| (r 1).2 ||| (r 2).2 ||| (r 3).2)

def execPackf (c : Ctl) (t : Fmt) (r : RMode) (hi : Bool) (d a b : Opnd) (s : State) : Host.Outcome State Fault Refusal :=
  issueFixed (.packf c t r hi d a b) s fun x => x.packNarrow t (effMode c r) hi d a b

/-- UNPKF (R192). -/
def Iss.unpackNarrow (x : Iss) (t : Fmt) (q : BitVec 2) (d a : Opnd) : Skein :=
  let w := match t with | .e2m1 => 4 | .e4m3 | .e5m2 => 8 | _ => 16
  let first := match t with | .e2m1 => 2 * q.toNat | .e4m3 | .e5m2 => 2 * (q.toNat % 2) | _ => 0
  x.putF true d (fun h => x.tagsOf a [] h) fun l =>
    let v := x.opA a false l
    let el := fun e => match a with
      | .imm b => (match Fmt.num t with | .fp f => fpImm f b | _ => 0)
      | _ => bitsOf v.toNat (w * (first + e)) w
    let p := cvtOne (.fp .f32) (Fmt.num t) .rne 0 (el 0)
    let r := cvtOne (.fp .f32) (Fmt.num t) .rne 0 (el 1)
    (p.1 ||| (r.1 <<< 32), p.2 ||| r.2)

def execUnpkf (c : Ctl) (t : Fmt) (q : BitVec 2) (d a : Opnd) (s : State) : Host.Outcome State Fault Refusal :=
  issueFixed (.unpkf c t q d a) s fun x => x.unpackNarrow t q d a

/-! ### Bit-stream reading (R193 to R195) -/

/-- BSINIT: the whole block, or its refill pair and AVAIL. The pairs count as 64-bit results, the control word as one of 32
bits (log entry 44), and a zeroing merge mask writes all of them (log entry 95). -/
def Iss.initStream (x : Iss) (d a : Opnd) (w : Option (Opnd × BitVec 5)) : Skein :=
  match x.dstOf d with
  | .vec v =>
    let cw := fun h => if (x.k.reg h (v + 4)).tag = 0 then TagR.u else .g
    match w with
    | some (b, cur) =>
      let k := x.put64 x.k (.vec v) fun l => x.opA a true l
      let k := x.put64 k (.vec (v + 2)) fun l => x.op b true l
      x.put k (.vec (v + 4)) (fun _ => .u) fun _ => cur.setWidth 32 ||| 0x80
    | none =>
      let k := x.put64 x.k (.vec (v + 2)) fun l => x.opA a true l
      x.put k (.vec (v + 4)) cw fun l => (x.k.vlane (v + 4) l &&& 0x11F) ||| 0x80
  | _ => x.k

def execBsinit (c : Ctl) (d a : Opnd) (w : Option (Opnd × BitVec 5)) (s : State) : Host.Outcome State Fault Refusal :=
  issueFixed (.bsinit c d a w) s fun x => x.initStream d a w

/-- A stream block after a read, and the field (R195). -/
structure Stream where
  win : DWord
  rf : DWord
  cw : Word
  fld : Word
  deriving DecidableEq, Repr, Inhabited

def readStream (signed : Bool) (win rf : DWord) (cw : Word) (w : Word) : Stream :=
  let len := min (bitsOf w.toNat 0 6) 32
  let cur := bitsOf cw.toNat 0 5
  let f := (win >>> cur).toNat % 2 ^ len
  let fld : Word := if signed && 0 < len && 2 ^ (len - 1) ≤ f then BitVec.ofInt 32 ((f : Int) - 2 ^ len) else BitVec.ofNat 32 f
  let av := min (bitsOf cw.toNat 6 2) 2
  let dry := bitsOf cw.toNat 8 1
  let word := fun (dry av cur : Nat) => (BitVec.ofNat 32 (dry * 256 + av * 64 + cur) : Word)
  if cur + len < 32 then ⟨win, rf, word dry av (cur + len), fld⟩
  else if 0 < av then ⟨pairOf (hiOf win) (loOf rf), (hiOf rf).setWidth 64, word dry (av - 1) (cur + len - 32), fld⟩
  else ⟨(hiOf win).setWidth 64, rf, word 1 0 (cur + len - 32), fld⟩

/-- BSRD: the block, then the field; the block's tags and its masked lanes as under BSINIT (log entries 44 and 95). -/
def Iss.readBits (x : Iss) (signed : Bool) (d a b : Opnd) : Skein :=
  match a with
  | .vec i =>
    let v := i.toNat + x.ixAdd false
    let rs := (List.range x.k.width).map fun l =>
      readStream signed (pairOf (x.k.vlane v l) (x.k.vlane (v + 1) l)) (pairOf (x.k.vlane (v + 2) l) (x.k.vlane (v + 3) l))
        (x.k.vlane (v + 4) l) (x.b32 b l)
    let at' : Nat → Stream := fun l => (rs[l]?).getD default
    let t := fun h => if (List.range 5).all (fun j => (x.k.reg h (v + j)).tag = 0) then tagU [x.tagOf false b h] else .g
    let k := x.put64 x.k (.vec v) fun l => (at' l).win
    let k := x.put64 k (.vec (v + 2)) fun l => (at' l).rf
    let k := x.put k (.vec (v + 4)) t fun l => (at' l).cw
    x.put k (x.dstOf d) t fun l => (at' l).fld
  | _ => x.k

def execBsrd (c : Ctl) (signed : Bool) (d a b : Opnd) (s : State) : Host.Outcome State Fault Refusal :=
  issueFixed (.bsrd c signed d a b) s fun x => x.readBits signed d a b

end Sys2Proof.Machine
end

