-- ==== Sys2Proof/Machine/Lane.lean ====
section
/-! DEFINITION. The lane partition and the cross-lane operations (R26, R38, R39, R196 to R199). Their results are known
when they issue and wait in the return buffer (R55). -/

namespace Sys2Proof.Machine

/-- PART (R197). The value is read as unsigned, which R197 leaves open: one with bit 31 set gives the widest partition (log entry 114). -/
def execPart (c : Ctl) (a : Opnd) (s : State) : Host.Outcome State Fault Refusal :=
  issueFixed (.part c a) s fun x => match x.low with | some l => x.setPart x.k (x.a32 a l).toNat | none => x.k

/-- An odd scalar as the pair that a mask of 64 lanes is (R43, R196). -/
def Iss.maskHits (x : Iss) (mask : Option (BitVec 6)) : List Hit :=
  match mask with
  | some i => if x.k.lanepart = 64 && i.toNat % 2 = 1 then [⟨0x07, 46, x.act, 0⟩] else []
  | none => []

/-- The active lanes in the mask (R196). -/
def Iss.participants (x : Iss) (mask : Option (BitVec 6)) : Lanes := x.failing (x.k.inMask mask)

/-- A cross-lane instruction issues once every live lane of its mask stands in its batch (R38), and its results, computed
then, are pending. Lanes of the mask in every tile are waited for, also in tiles where the batch has no lane (log entry 87). -/
def issueLanes (i : Instr) (s : State) (mask : Option (BitVec 6)) (eff : Iss → Lanes → List Write × FFlags) :
    Host.Outcome State Fault Refusal :=
  issue i s true (fun x => x.maskHits mask) fun x =>
    x.gated false mask fun x =>
      let r := eff x (x.participants mask)
      x.pendValues i r.1 r.2

/-- The lanes of lane l's tile, ascending, that belong to a set. -/
def Iss.tileOf (x : Iss) (m : Lanes) (l : Nat) : List Nat := laneList (m &&& x.k.tile l)

/-- A predicate result of a long-latency instruction: a predicate, or a pair with the complement second (R136). -/
def predWrites (n : Nat) (d : Opnd) (m : Lanes) (val : Nat → Bool) : List Write :=
  match d with
  | .prd p => [⟨.prd p.toNat, m, valsOf n fun l => if val l then 1 else 0⟩]
  | .ppair p q => [⟨.prd p.toNat, m, valsOf n fun l => if val l then 1 else 0⟩,
                   ⟨.prd q.toNat, m, valsOf n fun l => if val l then 0 else 1⟩]
  | _ => []

/-- The mask of tile lanes, counted from the tile's lowest, that satisfy a test. -/
def Iss.tileMask (x : Iss) (ls : List Nat) (p : Nat → Bool) : DWord :=
  ls.foldl (fun m i => if p i then m ||| BitVec.ofNat 64 (2 ^ (i % x.k.lanepart)) else m) 0

/-- VOTE (R198). -/
def Iss.vote (x : Iss) (m : VoteM) (wide neg : Bool) (d a : Opnd) (part : Lanes) : List Write :=
  let val := fun l => (x.predOp a neg l).getLsbD 0
  let votes := fun l => (x.tileOf part l).map val
  match m with
  | .every => predWrites x.k.width d part fun l => (votes l).all id
  | .some => predWrites x.k.width d part fun l => (votes l).any id
  | .same => predWrites x.k.width d part fun l => (votes l).all id || !(votes l).any id
  | .bits => x.longWrites wide (x.dstOf d) part fun l => x.tileMask (x.tileOf part l) val

def execVote (c : Ctl) (m : VoteM) (wide neg : Bool) (mask : Option (BitVec 6)) (d a : Opnd) (s : State) :
    Host.Outcome State Fault Refusal :=
  issueLanes (.vote c m wide neg mask d a) s mask fun x part => (x.vote m wide neg d a part, 0)

/-- The source lane of a shuffle in a tile of width w, relative to the tile; none outside it (R198). -/
def shflSource (m : ShflM) (wrap : Bool) (w l b : Nat) : Option Nat :=
  let n : Int := match m with
    | .lane => (b % w : Nat)
    | .back => (l : Int) - b
    | .fwd => (l : Int) + b
    | .flip => (Nat.xor l (b % w) : Nat)
  let n := if wrap then n % w else n
  if 0 ≤ n ∧ n < w then some n.toNat else none

/-- The lane that lane l receives from, when it does not keep its own value. -/
def Iss.shflFrom (x : Iss) (m : ShflM) (wrap : Bool) (mask : Option (BitVec 6)) (b : Opnd) (l : Nat) : Option Nat :=
  let w := x.k.lanepart
  match shflSource m wrap w (l % w) (x.b32 b l).toNat with
  | some r =>
    let j := l / w * w + r
    if x.k.inMask mask j && x.batch.getLsbD j then some j else none
  | none => none

/-- SHFL (R198): the value, and the predicate of the lanes that kept their own. -/
def Iss.shuffle (x : Iss) (m : ShflM) (wide wrap : Bool) (pf : BitVec 3) (mask : Option (BitVec 6)) (d a b : Opnd)
    (part : Lanes) : List Write :=
  x.longWrites wide (x.dstOf d) part (fun l => x.opA a wide ((x.shflFrom m wrap mask b l).getD l)) ++
    predWrites x.k.width (.prd pf) part fun l => (x.shflFrom m wrap mask b l).isNone

def execShfl (c : Ctl) (m : ShflM) (wide wrap : Bool) (pf : BitVec 3) (mask : Option (BitVec 6)) (d a b : Opnd)
    (s : State) : Host.Outcome State Fault Refusal :=
  issueLanes (.shfl c m wide wrap pf mask d a b) s mask fun x part => (x.shuffle m wide wrap pf mask d a b part, 0)

/-- MATCH (R39, R198). A group is written as the low 32 bits of its lane mask, in tiles of 64 lanes too (log entry 41). -/
def Iss.matchKeys (x : Iss) (one wide : Bool) (d a : Opnd) (part : Lanes) : List Write :=
  let key := x.opA a wide
  if one then predWrites x.k.width d part fun l => (x.tileOf part l).all fun i => key i == key l
  else x.longWrites false (x.dstOf d) part fun l => x.tileMask (x.tileOf part l) fun i => key i == key l

def execMtch (c : Ctl) (one wide : Bool) (mask : Option (BitVec 6)) (d a : Opnd) (s : State) :
    Host.Outcome State Fault Refusal :=
  issueLanes (.mtch c one wide mask d a) s mask fun x part => (x.matchKeys one wide d a part, 0)

/-! ### REDUX and SCAN (R199) -/

/-- The integer type of a REDUX. -/
def redInt : Fmt → ITy
  | .n32 => .n32
  | .i64 => .i64
  | .n64 => .n64
  | _ => .i32

/-- The combination of integer values; an empty list gives the identity. -/
def combineInt (o : RedOp) (t : ITy) (vs : List DWord) : DWord :=
  match o with
  | .add => fit t false (vs.foldl (fun n v => n + intVal t v) 0)
  | .min => fit t false (vs.foldl (fun n v => min n (intVal t v)) (intMax t))
  | .max => fit t false (vs.foldl (fun n v => max n (intVal t v)) (intMin t))
  | .and => zbits t (vs.foldl (· &&& ·) (-1))
  | .or => zbits t (vs.foldl (· ||| ·) 0)
  | .xor => zbits t (vs.foldl (· ^^^ ·) 0)

/-- The combination of floating-point encodings, with its flags. -/
def combineFp (o : RedOp) (f : FpFmt) (m : RMode) (vs : List Nat) : Nat × FFlags :=
  match o with
  | .add => roundChunk f m (vs.map (decodeF f))
  | _ =>
    let isMax := o == .max
    let fl := vs.foldl (fun fl v => fl ||| (decodeF f v).snanFlag) 0
    let nums := vs.filter fun v => !(decodeF f v).isNan
    match vs, nums with
    | [], _ => (f.signBits isMax + f.infBits, 0)
    | _, [] => (f.nanBits, fl)
    | _, n :: ns => (ns.foldl (fun p q => (fpMinMax f isMax false p q).1) n, fl)

/-- The combination of the values of some lanes under a TYPE. -/
def Iss.combine (x : Iss) (o : RedOp) (t : Fmt) (m : RMode) (a : Opnd) (ls : List Nat) : DWord × FFlags :=
  match t with
  | .f32 | .f64 =>
    let ty : FTy := if t == .f64 then .f64 else .f32
    let r := combineFp o (FTy.fp ty) m (ls.map fun l => fpElem ty a (x.opA a (FTy.wide ty) l) 0)
    (BitVec.ofNat 64 r.1, r.2)
  | _ =>
    let ty := redInt t
    (combineInt o ty (ls.map fun l => x.opA a (ITy.wide ty) l), 0)

/-- REDUX and SCAN: the contributors that count for a lane are chosen by a test, and flags come from the combinations of those alone: under
SCAN a signalling NaN that no participant's combination takes raises nothing (log entry 114). -/
def Iss.reduce (x : Iss) (c : Ctl) (o : RedOp) (t : Fmt) (d a : Opnd) (part : Lanes) (counts : Nat → Nat → Bool) :
    List Write × FFlags :=
  let rs := (List.range x.k.width).map fun l =>
    if part.getLsbD l then x.combine o t (effMode c .rne) a ((x.tileOf part l).filter (counts l)) else (0, 0)
  let wide := t == .f64 || t == .i64 || t == .n64
  (x.longWrites wide (x.dstOf d) part (laneVal rs), orFlags rs)

def execRedux (c : Ctl) (o : RedOp) (t : Fmt) (mask : Option (BitVec 6)) (d a : Opnd) (s : State) :
    Host.Outcome State Fault Refusal :=
  issueLanes (.redux c o t mask d a) s mask fun x part => x.reduce c o t d a part fun _ _ => true
def execScan (c : Ctl) (o : RedOp) (t : Fmt) (excl : Bool) (mask : Option (BitVec 6)) (d a : Opnd) (s : State) :
    Host.Outcome State Fault Refusal :=
  issueLanes (.scan c o t excl mask d a) s mask fun x part =>
    x.reduce c o t d a part fun l i => if excl then decide (i < l) else decide (i ≤ l)

end Sys2Proof.Machine
end

