-- ==== Sys2Proof/Machine/Tiles.lean ====
section
/-! DEFINITION. The accumulator tiles and their checkpoints as MCKPT reads them (R235, R242, R257). -/

namespace Sys2Proof.Machine

def Core.tile (k : Core) (t : Nat) : Tile := (k.tiles[t]?).getD defaultTile
def State.setTile (s : State) (c t : Nat) (x : Tile) : State := s.updCore c fun k => { k with tiles := k.tiles.set t x }

/-- Element (i, j), bits as stored; one not listed is 0. -/
def Tile.elem (t : Tile) (i j : Nat) : Word := (amGet t.elems (128 * i + j)).getD 0
def Tile.setElem (t : Tile) (i j : Nat) (v : Word) : Tile :=
  { t with elems := if v == 0 then amErase t.elems (128 * i + j) else amPut t.elems (128 * i + j) v }

/-- A checksum as MCKPT returns it (R257). -/
def sumWord (t : Tile) (m : AMap Int) (i : Nat) : DWord :=
  let v := (amGet m i).getD 0
  if t.int then BitVec.ofInt 64 v else BitVec.ofNat 64 (roundVal .f64 .rne 0 (.fin (v < 0) v.natAbs (-300))).1

/-- The status word of a tile (R257): KDONE and KTOT are those of its checkpoint. -/
def Core.mstatus (k : Core) (n : Nat) : Word :=
  let t := k.tile n
  let busy := k.cmds.any fun m => m.tile == n && m.started && match m.kind with | .mma _ => true | _ => false
  BitVec.ofNat 32 (t.ckDone % 128 + t.ckTot % 128 * 2 ^ 8 + t.flags.toNat * 2 ^ 16 + (if t.ver then 2 ^ 29 else 0) +
    (if t.int then 2 ^ 30 else 0) + if busy then 2 ^ 31 else 0)

/-- What MCKPT reads of a tile's checkpoint under a selector (R242, R257). -/
def Core.ckpt (k : Core) (n x : Nat) : DWord :=
  let t := k.tile n
  if x < 16384 then (t.elem (x / 128) (x % 128)).setWidth 64
  else if x < 16512 then sumWord t t.rsum (x - 16384)
  else if x < 16640 then sumWord t t.csum (x - 16512)
  else (k.mstatus n).setWidth 64

/-- A boundary of a tile: its checkpoint shows the KDONE and KTOT of now (R242). Its other fields change at boundaries only. -/
def Tile.mark (t : Tile) : Tile := { t with ckDone := t.kdone, ckTot := t.ktot }

end Sys2Proof.Machine
end

