-- ==== Sys2Proof/Machine/Perform.lean ====
section
/-! DEFINITION. How accesses are performed: what each memory instruction touches (R82 to R84, R201), in which order
accesses to a common byte take effect (R107, R119), loads through L1 (R90, R114, R142), decoding loads (R204), atomics
(R206, R207), stores at their home (R116, R123, R378, R399), and the return of a long-latency result (R55, R369). -/

namespace Sys2Proof.Machine

/-! ### What an instruction touches -/

/-- Orders that acquire and that release (R104). -/
def MOrd.acquires : MOrd → Bool
  | .acq | .ar | .sc => true
  | _ => false
def MOrd.releases : MOrd → Bool
  | .rel | .ar | .sc => true
  | _ => false

/-- Where the bytes of an access lie: the pieces with their sizes (R82 to R84). -/
def State.locate (s : State) (k : Skein) (sp : Space) (l : Nat) (a : DWord) (n : Nat) : List (Loc × Nat) :=
  let ln := s.launchOf k
  let lot := k.laneLot l
  match sp with
  | .g => [(.glob a, n)]
  | .s => [(.scr lot a.toNat, n)]
  | .d => match s.dieLot lot a.toNat with
    | some m => [(.scr m (bitsOf a.toNat 0 19), n)]
    | none => []
  | .c => [(.glob (BitVec.ofNat 64 ln.frame + a), n)]
  | .l =>
    let base := (s.lot lot).blockBase ln
    let x := match k.fibre l with | some f => f.localIdx | none => 0
    (List.range ((n + 3) / 4)).map fun i => (.glob (localAddr base (a.toNat + 4 * i) x), min 4 n)

/-- The nibble position of logical element i of a group; the mapping is its own inverse (R78). -/
def nibblePos (i : Nat) : Nat := 8 * (i % 8) + i / 8

/-- Where logical element j of an E2M1 page lies (R80): the byte and whether its high half, and under PACKED the bytes of its
block scale and band scale, all relative to the page. -/
def e2m1Place (packed : Bool) (j : Nat) : Nat × Bool × Option (Nat × Nat) :=
  if packed then
    let p := j / 384
    let i := j % 384
    let q := nibblePos (i % 64)
    (256 * p + 32 * (i / 64) + q / 2, q % 2 == 1, some (256 * p + 192 + i / 8, 256 * p + 240))
  else
    let q := nibblePos (j % 64)
    (32 * (j / 64) + q / 2, q % 2 == 1, none)

/-- Bytes of an element of a page's FMT (R79); E2M1 has none of its own. -/
def fmtBytes (f : BitVec 4) : Nat :=
  match f.toNat with
  | 1 | 12 | 13 => 4
  | 2 | 14 | 15 => 8
  | 3 | 4 | 10 | 11 => 2
  | _ => 1

/-- The bytes that a decoding load reads (R81, R204). -/
def fmtTouched (x : Xl) (va : DWord) : List (Loc × Nat) :=
  if x.fmt.fmt == 7 then
    let size := 2 ^ levelShift x.level
    let at' := fun (off n : Nat) => (Loc.glob (BitVec.ofNat 64 (va.toNat / size * size + off)), n)
    let o := va.toNat % size
    [2 * o, 2 * o + 1].flatMap fun j =>
      let (b, _, sc) := e2m1Place (x.fmt.geo == 1) j
      at' b 1 :: match sc with | some (blk, band) => [at' blk 1, at' band 2] | none => []
  else [(.glob va, fmtBytes x.fmt.fmt)]

/-- The bytes that a lane of an instruction touches: of a decoding load, those that its page's format names, once the page has a
translation. -/
def State.touched (s : State) (c : Nat) (k : Skein) (i : Instr) (l : Nat) (a : DWord) : List (Loc × Nat) :=
  match i, accessOf i with
  | .ldFmt .., _ => match s.xlate c (s.partOf (s.lotOf k)) a false false with
    | .ok x => fmtTouched x a
    | .bad .. => []
  | _, some x => s.locate k x.sp l a x.size
  | _, none => []

/-- The bytes that a lane of an instruction may touch: a decoding load whose page has no translation may name bytes anywhere in
the largest page that could be mapped there. -/
def State.reach (s : State) (c : Nat) (k : Skein) (i : Instr) (l : Nat) (a : DWord) : List (Loc × Nat) :=
  match i, s.touched c k i l a with
  | .ldFmt .., [] => [(.glob (a &&& ~~~0x3FFFFFFF), 2 ^ 30)]
  | _, ps => ps

/-! ### Order of accesses (R93, R107, R119) -/

/-- The home slice of a virtual address that has a translation. -/
def State.sliceAt (s : State) (c part : Nat) (va : DWord) : Option Nat :=
  match s.xlate c part va false false with
  | .ok x => some (homeSlice x.pa)
  | .bad .. => none

/-- Some piece is homed at one of some slices. -/
def State.goesTo (s : State) (c part : Nat) (slices : List Nat) (ps : List (Loc × Nat)) : Bool :=
  ps.any fun e => match e.1 with
    | .glob va => (match s.sliceAt c part va with | some h => slices.contains h | none => false)
    | .scr .. => false

/-- An older access of this lane's fibre to one of these bytes is still to be performed (R107). -/
def State.olderPend (s : State) (c : Nat) (k : Skein) (seq l : Nat) (ps : List (Loc × Nat)) : Bool :=
  k.pend.any fun p => decide (p.seq < seq) && p.left.getLsbD l &&
    s.sameBytes c (s.partOf (s.lotOf k)) ps (s.reach c k p.i l ((p.addrs[l]?).getD 0))

/-- The bytes of a lane of an accepted store. -/
def PStore.bytes (p : PStore) (l n : Nat) : List Byte :=
  (leBytes ((p.data[2 * l]?).getD 0).toNat 8 ++ leBytes ((p.data[2 * l + 1]?).getD 0).toNat 8).take n

/-- A store whose lane stands in the store replay queue, or is bound for it: its page has no translation (R119). -/
def State.replays (s : State) (c : Nat) (r : PStore) (j : Nat) : Bool :=
  r.replay.getLsbD j || (r.pieces j).any fun e => match e.1 with
    | .glob va => (match s.xlate c (s.partOf (s.lot r.lot)) va true false with | .bad .. => true | .ok _ => false)
    | .scr .. => false

/-- An accepted store comes before a pending access of the core: in program order of one skein, else in issue order. -/
def PStore.before (r : PStore) (q : Nat) (k : Skein) (p : Pending) : Bool :=
  if r.slot == q && r.lot == k.lot then decide (r.order < p.seq) else decide (r.seq < p.mark)

/-- A store that L1 takes at its issue (R90, R114). -/
def plainStore : Instr → Bool
  | .st .. | .stl .. => true
  | _ => false

/-- A store of the lot to one of these bytes stands in its compare buffer (R107, R406). -/
def State.inCompare (s : State) (c : Nat) (k : Skein) (ps : List (Loc × Nat)) : Bool :=
  (s.lot k.lot).cmp.any fun e => (laneList e.mask).any fun l =>
    s.sameBytes c (s.partOf (s.lotOf k)) ps (globalPieces e.i ((e.addrs[l]?).getD 0))

/-! ### Loads -/

/-- What an attempt to perform an access comes to: it waits (for a translation, an older access, a clear row), it fails, or
it is performed with these bytes and this observed stamp. -/
inductive Got where
  | wait
  | bad (code detail : Nat)
  | ok (s : State) (bs : List Byte) (o : Nat)
  deriving Repr

/-- The largest stamp observed in the stamp sectors of some bytes (R123). -/
def State.observedMax (s : State) (pa n : Nat) : Nat :=
  (List.range ((pa + n - 1) / 32 + 1 - pa / 32)).foldl (fun m i => max m (s.observed (32 * (pa / 32 + i)))) 0
def Lot.observedMax (l : Lot) (off n : Nat) : Nat :=
  (List.range ((off + n - 1) / 32 + 1 - off / 32)).foldl (fun m i =>
    max m (((amGet l.sectors (off / 32 + i)).map Triple.stamp).getD 0)) 0

/-- A write of the core other than a store is on its way to a line: an atomic, RED, TLADV or JOINC, which L1 does not hold before
it is performed. -/
def State.lineOwed (s : State) (c line : Nat) : Bool :=
  let on := fun (part : Nat) (ps : List (Loc × Nat)) => (s.physOf c part ps).any fun e => match e.1 with
    | .glob pa => pa.toNat / 128 == line
    | .scr .. => false
  ((s.core c).stores.any fun r => !plainStore r.i && (laneList r.left).any fun j => on (s.partOf (s.lot r.lot)) (r.pieces j)) ||
    s.skeins.any fun e => e.1 / 64 == c && e.2.pend.any fun p => match p.i with
      | .atom .. => (laneList p.left).any fun j => on (s.partOf (s.lotOf e.2)) (s.touched c e.2 p.i j ((p.addrs[j]?).getD 0))
      | _ => false

/-- The line that L1 may serve (R90, R114, R116, R142): not for an ordered load at `.quad` or wider, nor under `.home`. -/
def State.l1Line (s : State) (c : Nat) (k : Skein) (a : Access) (pa : Nat) : Option Line :=
  if a.home || a.hint == .home || (a.ord != .plain && Scope.wide a.scope) then none
  else match amGet (s.core c).l1 (pa / 128) with
    | some ln => if k.acqTick ≤ ln.fill && !s.lineOwed c (pa / 128) then some ln else none
    | none => none

/-- Some bytes cut into the pieces that they fill. -/
def cutBytes : List (Loc × Nat) → List Byte → List (Loc × List Byte)
  | [], _ => []
  | (x, n) :: ps, bs => (x, bs.take n) :: cutBytes ps (bs.drop n)

/-- What a line of L1 holds: the core's stores that are not yet performed stand in it, in the order in which the core accepted
them (R90, R114). -/
def State.l1View (s : State) (c line : Nat) (ln : Line) : List Byte :=
  (s.core c).stores.foldl (fun d r =>
    if !plainStore r.i then d
    else (laneList r.left).foldl (fun d j => (cutBytes (r.pieces j) (r.bytes j 16)).foldl (fun d e => match e.1 with
      | .glob va => (match s.xlate c (s.partOf (s.lot r.lot)) va true false with
        | .ok x => if x.peer then d else patch line d x.pa e.2
        | .bad .. => d)
      | .scr .. => d) d) d) ln.data

/-- The line is filled into L1 by this load. -/
def fillsL1 (a : Access) (x : Xl) : Bool :=
  x.cache == 0 && !a.home && (a.hint == .page || a.hint == .once) && !(a.ord != .plain && Scope.wide a.scope)

/-- A line filled into the constant cache, 128 lines of it (R84); a full one drops a line, which one the spec leaves open. -/
def State.ccFill (s : State) (c line : Nat) : State :=
  s.updCore c fun k =>
    let cc := if k.ccache.length < 128 then k.ccache
      else amErase k.ccache ((k.ccache[Config.pick s.choices 4 % k.ccache.length]?).map Prod.fst |>.getD 0)
    { k with ccache := amPut cc line ⟨s.homeRead (128 * line) 128, s.tick, 0⟩ }

/-- What the core itself serves a global load with: a line of its constant cache for `.c`, of its L1 otherwise. -/
def State.served (s : State) (c : Nat) (k : Skein) (a : Access) (x : Xl) : Option (List Byte) :=
  if a.sp == .c then (amGet (s.core c).ccache (x.pa / 128)).map Line.data
  else if x.cache == 0 then (s.l1Line c k a x.pa).map (s.l1View c (x.pa / 128)) else none

/-- The core serves these bytes of an access itself. -/
def State.servedAt (s : State) (c : Nat) (k : Skein) (a : Access) (va : DWord) : Bool :=
  match s.xlate c (s.partOf (s.lotOf k)) va (a.kind == .atomic) false with
  | .ok x => (s.served c k a x).isSome
  | .bad .. => false

/-- The whole of a line is obtainable (R90, R381, R383; log entry 90). -/
def State.wholeLine (s : State) (part line : Nat) : Bool := (s.readCause part (128 * line) 128).isNone

/-- Bytes of a global load (R84, R90, R98, R99, R114, R116, R142, R377, R381, R383). A miss takes the whole line where L1 or the
constant cache may hold it; the constant cache takes lines of every page (log entry 89). -/
def State.loadGlobal (s : State) (c : Nat) (k : Skein) (a : Access) (va : DWord) (n : Nat) : Got :=
  let part := s.partOf (s.lotOf k)
  match s.xlate c part va (a.kind == .atomic) false with
  | .bad .. => .wait
  | .ok x =>
    let s := s.tlbFill c part va x
    let line := x.pa / 128
    match s.served c k a x with
    | some data => .ok s ((data.drop (x.pa % 128)).take n) (s.observedMax x.pa n)
    | none =>
      match s.readCause part x.pa n with
      | some e => .bad e 255
      | none =>
        let bs := s.loadBytes x x.pa n
        let o := s.observedMax x.pa n
        let alloc := x.cache != 2 && a.hint != .home
        let s := s.sliceTouch part x.pa n alloc false
        if (a.sp == .c && !x.peer || a.sp != .c && fillsL1 a x) && s.wholeLine part line then
          let s := s.sliceTouch part (128 * line) 128 alloc false
          .ok (if a.sp == .c then s.ccFill c line else s.l1Fill c line) bs o
        else .ok s bs o

/-- Bytes of an access to a scratchpad allocation (R20, R381). -/
def State.loadScratch (s : State) (n off len : Nat) : Got :=
  let l := s.lot n
  if !l.clearedAt off len then .wait
  else if l.poisoned off len then .bad 0x44 255
  else .ok s (l.read off len) (l.observedMax off len)

/-- The bytes of all pieces of an access. -/
def State.loadPieces (s : State) (c : Nat) (k : Skein) (a : Access) : List (Loc × Nat) → Got
  | [] => .ok s [] 0
  | (x, n) :: xs =>
    match (match x with | .glob va => s.loadGlobal c k a va n | .scr m off => s.loadScratch m off n) with
    | .ok t bs o => match State.loadPieces t c k a xs with
      | .ok u cs o' => .ok u (bs ++ cs) (max o o')
      | r => r
    | r => r

/-- The registers that an element fills (R201): narrow elements widened. -/
def elemWords (t : MTy) (bs : List Byte) : List Word :=
  let n := leNat bs
  match MTy.bytes t with
  | 8 => [BitVec.ofNat 32 n, BitVec.ofNat 32 (n / 2 ^ 32)]
  | w => [BitVec.ofInt 32 (intOf (8 * w) (MTy.signed t) n)]

/-- The registers of a load from its bytes, or from those of one half of it. -/
def loadWords (m : MemM) (bs : List Byte) : List Word :=
  (List.range (bs.length / MTy.bytes m.t)).flatMap fun e => elemWords m.t ((bs.drop (e * MTy.bytes m.t)).take (MTy.bytes m.t))

/-- The exact value of a block-scaled element (R66). -/
def scaledVal (code scale band : Nat) : FVal × FFlags :=
  let a := mulVal (decodeF .e2m1 code) (decodeF .e3m5 scale)
  let b := mulVal a.1 (decodeF .bf16 band)
  (b.1, a.2 ||| b.2 ||| (decodeF .bf16 band).snanFlag)

/-- A scaled element as an FP32 value, rounded once (R204). -/
def e2m1Word (code : Nat) (sc : Option (Nat × Nat)) : Nat × FFlags :=
  match sc with
  | none => roundVal .f32 .rne 0 (decodeF .e2m1 code)
  | some (blk, band) =>
    let v := scaledVal code blk band
    roundWith .f32 .rne v 0

/-- The numeric type of a page's FMT; RAW bytes are n8 (R79). -/
def fmtNum (f : BitVec 4) : NumTy :=
  match f.toNat with
  | 1 => .fp .f32 | 2 => .fp .f64 | 3 => .fp .f16 | 4 => .fp .bf16 | 5 => .fp .e4m3 | 6 => .fp .e5m2 | 7 => .fp .e2m1
  | 8 => .int 8 true | 10 => .int 16 true | 11 => .int 16 false | 12 => .int 32 true
  | 13 => .int 32 false | 14 => .int 64 true | 15 => .int 64 false | _ => .int 8 false
/-- A stored element of a page format as a decoding read gives it (R204): one register, or two for a 64-bit format. -/
def fmtWords (f : BitVec 4) (bs : List Byte) : List Word × FFlags :=
  let n := leNat bs
  match fmtNum f with
  | .fp .f64 => ([BitVec.ofNat 32 n, BitVec.ofNat 32 (n / 2 ^ 32)], 0)
  | .fp .f32 => ([BitVec.ofNat 32 n], 0)
  | .fp t => let r := cvtOne (.fp .f32) (.fp t) .rne 0 n; ([loOf r.1], r.2)
  | .int 64 _ => ([BitVec.ofNat 32 n, BitVec.ofNat 32 (n / 2 ^ 32)], 0)
  | .int w sg => ([BitVec.ofInt 32 (intOf w sg n)], 0)

/-- What a decoding load of a lane comes to. -/
inductive GotFmt where
  | wait
  | bad (code detail : Nat)
  | ok (s : State) (ws : List Word) (fl : FFlags) (o : Nat)
  deriving Repr

/-- LD.fmt in a lane (R204, R377). -/
def State.loadFmt (s : State) (c : Nat) (k : Skein) (a : Access) (va : DWord) : GotFmt :=
  match s.xlate c (s.partOf (s.lotOf k)) va false false with
  | .bad .. => .wait
  | .ok x =>
    let f := x.fmt
    if f.fmt == 7 then
      let size := 2 ^ levelShift x.level
      let base := va.toNat / size * size
      let o := va.toNat % size
      let packed := f.geo == 1
      if packed && size / 256 * 192 ≤ o then .bad 0x3A 255
      else
        let el := fun (s : State) (j : Nat) =>
          let (b, hi, sc) := e2m1Place packed j
          let at' := fun (off n : Nat) => (Loc.glob (BitVec.ofNat 64 (base + off)), n)
          match s.loadPieces c k a (at' b 1 :: match sc with | some (blk, band) => [at' blk 1, at' band 2] | none => []) with
          | .ok t bs o =>
            let code := partNat bs 0 1 / (if hi then 16 else 1) % 16
            let r := e2m1Word code (sc.map fun _ => (partNat bs 1 1, partNat bs 2 2))
            GotFmt.ok t [BitVec.ofNat 32 r.1] r.2 o
          | .wait => .wait
          | .bad e d => .bad e d
        match el s (2 * o) with
        | .ok t w0 f0 o0 => match el t (2 * o + 1) with
          | .ok u w1 f1 o1 => .ok u (w0 ++ w1) (f0 ||| f1) (max o0 o1)
          | r => r
        | r => r
    else
      let n := fmtBytes f.fmt
      if va.toNat % n != 0 then .bad 0x34 (Nat.log2 n)
      else match s.loadGlobal c k a va n with
        | .ok t bs o => let r := fmtWords f.fmt bs; .ok t r.1 r.2 o
        | .wait => .wait
        | .bad e d => .bad e d

/-! ### Atomics (R206, R207) -/

def fmtTy : Fmt → ITy
  | .n32 => .n32
  | .i64 => .i64
  | .n64 => .n64
  | _ => .i32

/-- The new value of a floating-point atomic and its flags. -/
def atomFp (o : AOp) (f : FpFmt) (old b : Nat) : Nat × FFlags :=
  match o with
  | .add => fpAdd f .rne (decodeF f old) (decodeF f b)
  | .min => fpMinMax f false false old b
  | .max => fpMinMax f true false old b
  | _ => (b, 0)

/-- The new value of an atomic other than compare-and-swap. -/
def atomNew (o : AOp) (t : Fmt) (old b : DWord) : DWord × FFlags :=
  match t, o with
  | _, .exch => (b, 0)
  | .f32, _ => let r := atomFp o .f32 (loOf old).toNat (loOf b).toNat; (BitVec.ofNat 64 r.1, r.2)
  | .f64, _ => let r := atomFp o .f64 old.toNat b.toNat; (BitVec.ofNat 64 r.1, r.2)
  | _, _ =>
    let ty := fmtTy t
    let x := intVal ty old
    let y := intVal ty b
    match o with
    | .add => (fit ty false (x + y), 0)
    | .min => (fit ty false (min x y), 0)
    | .max => (fit ty false (max x y), 0)
    | .and => (old &&& b, 0)
    | .or => (old ||| b, 0)
    | .xor => (old ^^^ b, 0)
    | .inc => (if x ≥ y then 0 else fit ty false (x + 1), 0)
    | .dec => (if x = 0 ∨ x > y then fit ty false y else fit ty false (x - 1), 0)
    | .exch => (b, 0)

/-- The value that an atomic instruction writes, from the old value and its operands. -/
def atomValue (x : AtomArg) (t : Fmt) (old b e : DWord) : DWord × FFlags :=
  match x with
  | .op2 o _ _ => atomNew o t old b
  | .cas .. => (if (if Fmt.wide64 t then old == b else loOf old == loOf b) then e else old, 0)

/-! ### Writes -/

/-- The triple that a write of a skein leaves: its stamp, its writer id and whether it was ordered (R123, R378); a write of a
lot of an unchecked launch leaves none. -/
def tripleOf (checked : Bool) (stamp : Nat) (wid : BitVec 20) (ord : Bool) : Option Triple :=
  if checked then some ⟨stamp, wid, ord⟩ else none

/-- The watch of a debugged launch (R412) is on this line. -/
def State.debugWatch (s : State) (ln : Launch) (va : DWord) (n : Nat) : Bool :=
  let blk := debugBlock ln.part
  s.fld blk 0 1 == 1 && (s.rd (blk + 16)).toNat == ln.slotAddr && ln.slotAddr != 0 &&
    meets va.toNat n (s.rd (blk + 8)).toNat 128

/-- Lots' SIDE flags set (R304), and their launches made non-replayable (R400). -/
def State.markSide (s : State) (lots : List Nat) (replay : Bool) : State :=
  lots.foldl (fun s n =>
    let s := s.updLot n fun l => { l with side := true }
    if replay then s.updLaunch (s.lot n).launch fun l => { l with noReplay := true } else s) s

/-- Whether a write to a global address can be performed now, and how it fails otherwise (R370, R377, R383, R399). -/
inductive CanWrite where
  | wait
  | bad (code detail : Nat)
  | ok (x : Xl)
  deriving Repr

/-- How a write goes to its home: whether a hub slice may allocate its line (R98, R142), and whether it is written through at once,
as after a `.sc` write at `.sys` (R115). -/
structure HomeMode where
  alloc : Bool
  through : Bool
  deriving DecidableEq, Repr, Inhabited

def Access.mode (a : Access) : HomeMode := ⟨a.hint != .home, a.ord == .sc && a.scope == .sys⟩

def State.canWrite (s : State) (c part : Nat) (va : DWord) (n : Nat) : CanWrite :=
  match s.xlate c part va true false with
  | .bad .. => .wait
  | .ok x =>
    if s.marked x.pa then .wait
    else match s.writeCause part x.pa n with
      | some (e, d) => .bad e d
      | none => .ok x

/-- Bytes performed at the home of a translated address by a lot, and in the lines of its core's L1; a PEER page marks the lot (R304,
R400). -/
def State.writeHome (s : State) (c part lot : Nat) (va : DWord) (md : HomeMode) (x : Xl) (bs : List Byte) (t : Option Triple) :
    State :=
  let s := (s.tlbFill c part va x).storeAt part x md.alloc bs t
  let s := if md.through then s.hubClean fun ln => (linesOf x.pa bs.length).contains ln else s
  if x.peer then s.markSide [lot] true else s.l1Store c x.pa bs

/-- Bytes of an access written piece by piece, each where it lies: a global piece at its home, a scratchpad piece in its
array. None while some piece cannot be performed. -/
def State.storePieces (s : State) (c part lot : Nat) (t : Option Triple) (md : HomeMode) :
    List (Loc × Nat) → List Byte → CanWrite × State
  | [], _ => (.ok default, s)
  | (x, n) :: xs, bs =>
    match x with
    | .glob va =>
      match s.canWrite c part va n with
      | .ok w => State.storePieces (s.writeHome c part lot va md w (bs.take n) t) c part lot t md xs (bs.drop n)
      | r => (r, s)
    | .scr m off =>
      if (s.lot m).clearedAt off n then State.storePieces (s.scrWrite m off (bs.take n) t) c part lot t md xs (bs.drop n)
      else (.wait, s)

/-! ### Performing a lane of a pending result -/

/-- What performing a lane of a pending result comes to: the words of its destinations, in order. -/
inductive LaneRes where
  | wait
  | bad (code detail : Nat)
  | ok (s : State) (ws : List Word) (fl : FFlags) (o : Nat) (watch : Bool)
  deriving Repr

def pairWords (wide : Bool) (v : DWord) : List Word := if wide then [loOf v, hiOf v] else [loOf v]

/-- An atomic in a lane: read, modify and write at one moment (R206); a barrier unit in `.d` is not written (R380). -/
def State.performAtom (s : State) (c : Nat) (k : Skein) (p : Pending) (a : Access) (t : Fmt) (x : AtomArg) (l : Nat) :
    LaneRes :=
  let lot := k.laneLot l
  let part := s.partOf (s.lotOf k)
  let ps := s.locate k a.sp l ((p.addrs[l]?).getD 0) a.size
  let clob := ps.any fun e => match e.1 with | .scr m off => (s.lot m).clobbers off e.2 | _ => false
  if clob then .bad 0x3C 255
  else match s.loadPieces c k a ps with
    | .wait => .wait
    | .bad e d => .bad e d
    | .ok s bs o =>
      let old : DWord := BitVec.ofNat 64 (leNat bs)
      let r := atomValue x t old ((p.b[l]?).getD 0) ((p.c[l]?).getD 0)
      match s.storePieces c part lot (tripleOf (s.checked lot) ((p.stamps[l]?).getD 0) k.wid true) a.mode ps (leBytes r.1.toNat a.size) with
      | (.ok _, s) =>
        .ok s (pairWords (Fmt.wide64 t) old) r.2 o
          (match ps with | (.glob va, n) :: _ => s.debugWatch (s.launchOf k) va n | _ => false)
      | (.wait, _) => .wait
      | (.bad e d, _) => .bad e d

/-- The lines that a range of virtual addresses names, by 64 KiB page: physical start and end (R210). -/
def State.rangePas (s : State) (c part : Nat) (va n : Nat) : List (Nat × Nat) :=
  if n = 0 then []
  else
    let first := va / 128 * 128
    let last := (va + n - 1) / 128 * 128 + 128
    (List.range ((last + 65535) / 65536 - first / 65536)).filterMap fun i =>
      let lo := max first (65536 * (first / 65536 + i))
      let hi := min last (65536 * (first / 65536 + i + 1))
      match s.xlate c part (BitVec.ofNat 64 lo) false false with
      | .ok x => some (x.pa, x.pa + (hi - lo))
      | .bad .. => none

/-- CCTL `.wbh` and `.invh` in a lane (R210): dirty hub lines of the range are written through, and dropped under `.invh`. A
line whose link is down is skipped. -/
def State.cleanRange (s : State) (c part : Nat) (va n : Nat) (drop : Bool) : State :=
  let rs := s.rangePas c part va n
  let sel := fun (ln : Nat) => rs.any (fun r => r.1 ≤ 128 * ln && 128 * ln < r.2) && s.linkUp (hubOf (128 * ln))
  let s := s.hubClean sel
  if drop then s.hubLines.foldl (fun s e => if sel e.1 then s.hubDrop e.1 else s) s else s

/-- The most recent query issued from a packet (R231): rounds and state. -/
def State.queryState (s : State) (part : Nat) (va : DWord) : Word :=
  match ((amVals s.queries).filter fun q => q.part == part && q.pktVa == va).getLast? with
  | some q => BitVec.ofNat 32 (min q.rounds 65535 * 65536 + (if q.fin then 0 else if q.running then 2 else 1))
  | none => 0

/-- An older store of the core is on its way to a line of some physical ranges (R93). -/
def State.storeInto (s : State) (c q : Nat) (k : Skein) (p : Pending) (rs : List (Nat × Nat)) : Bool :=
  (s.core c).stores.any fun r => r.before q k p && (laneList r.left).any fun j => !s.replays c r j &&
    (s.physOf c (s.partOf (s.lotOf k)) (r.pieces j)).any fun e => match e.1 with
      | .glob pa => rs.any fun g => g.1 ≤ pa.toNat && decide (pa.toNat < g.2)
      | .scr .. => false

/-- The object's phase differs from the parity that a lane names (R216). -/
def State.phaseIs (s : State) (n off : Nat) (parity : Bool) : Bool := (s.barObj n off).getLsbD 96 != parity

/-- Every access of a skein that precedes a command in program order is performed, and so are the writes of its core's other skeins
that happen before it (R126): those that issued by the tick `hb` of the skein's last acquire. -/
def State.skeinQuiet (s : State) (c q order hb : Nat) : Bool :=
  (s.core c).stores.all (fun p => if p.slot == q then decide (order < p.order) else decide (hb < p.info.tick)) &&
    (s.skeins.all fun e => e.1 / 64 != c || e.1 % 64 == q || e.2.pend.all fun p => !p.owes .quad || decide (hb < p.info.tick)) &&
    match s.skein c q with
    | some k => k.pend.all (fun p => decide (order ≤ p.seq) || p.left == 0) &&
        (s.lotOf k).cmp.all (fun e => e.lotSkein != k.lotSkein)
    | none => true

/-- A query starts its life from the packet as read (R230). -/
def State.addQuery (s : State) (c q part : Nat) (p : Pending) (l : Nat) (va : DWord) (pkt : BitVec 1024) : State :=
  let lot := match s.skein c q with | some k => k.laneLot l | none => 0
  let e : Query := { id := s.querySeq, part, core := c, slot := q, lot, order := p.seq, info := p.info, lane := l, pktVa := va, pkt
                     read := false, running := false, home := 0, tl := none, qfmt := 0, qvec := [], vis := [], cand := []
                     rounds := 0, flags := 0, stamp := (p.stamps[l]?).getD 0, wid := match s.skein c q with | some k => k.wid | none => 0, fin := false, lost := [] }
  { s with queries := amPut s.queries e.id e, querySeq := s.querySeq + 1 }

/-- A load of 16 bytes, which is two accesses of 8 bytes (R106). -/
def halved : Instr → Bool
  | .ld _ m .. | .lds _ m .. | .ldd _ m .. | .ldc _ m .. | .ldl _ m .. => MemM.size m == 16
  | _ => false

/-- The half of a 16-byte load that a lane performs now is the high one; which goes first is open (log entry 99). -/
def Pending.high (p : Pending) (l : Nat) : Bool :=
  (Config.pick (p.info.tick + 64 * p.seq + l) 5 % 2 == 1) != p.half.getLsbD l

/-- A lane of a pending result performed: its access, or one half of a load of 16 bytes. -/
def State.performLane (s : State) (c q : Nat) (k : Skein) (p : Pending) (l : Nat) : LaneRes :=
  let part := s.partOf (s.lotOf k)
  let va := (p.addrs[l]?).getD 0
  let plain := fun (a : Access) (f : List Byte → List Word) =>
    let at' := if halved p.i && p.high l then va + 8 else va
    match s.loadPieces c k a (s.locate k a.sp l at' (if halved p.i then 8 else a.size)) with
    | .wait => LaneRes.wait
    | .bad e d => .bad e d
    | .ok t bs o => .ok t (f bs) 0 o false
  match p.i, accessOf p.i with
  | .ld _ m .., some a | .lds _ m .., some a | .ldd _ m .., some a | .ldc _ m .., some a | .ldl _ m .., some a =>
    plain a (loadWords m)
  | .ldFmt .., some a => match s.loadFmt c k a va with
    | .wait => .wait
    | .bad e d => .bad e d
    | .ok t ws fl o => .ok t ws fl o false
  | .atom _ m _ _ x, some a => s.performAtom c k p a m.t x l
  | .atoms _ m _ _ _ x, some a => s.performAtom c k p a m.t x l
  | .tlrd .., some a => plain a fun bs => pairWords true (BitVec.ofNat 64 (leNat bs))
  | .btest .., some a =>
    match s.locate k a.sp l va 16 with
    | (.scr n off, _) :: _ =>
      if !(s.lot n).clearedAt off 16 then .wait
      else
        let t := s.updLot n fun z => { z with marks := insNat z.marks (off / 16) }
        let hit := s.phaseIs n off (((p.b[l]?).getD 0).getLsbD 0)
        .ok t [if hit then 1 else 0] 0 (if hit then (s.lot n).published off else 0) false
    | _ => .bad 0x38 2
  | .qstat .., _ =>
    if k.pend.any fun e => decide (e.seq < p.seq) && e.left != 0 && (match e.i with | .qsrch .. => true | _ => false) then .wait
    else .ok s [s.queryState part va] 0 0 false
  | .qsrch .., some a =>
    if !s.skeinQuiet c q p.seq p.info.hb then .wait
    else match s.loadPieces c k a [(.glob va, 128)] with
      | .wait => .wait
      | .bad e d => .bad e d
      | .ok t bs _ => .ok (t.addQuery c q part p l va (BitVec.ofNat 1024 (leNat bs))) [] 0 0 false
  | .mckpt _ tile .., _ => .ok s (pairWords true ((s.core c).ckpt tile.toNat (loOf ((p.b[l]?).getD 0)).toNat)) 0 0 false
  | .cctl _ o .., _ =>
    let n := (loOf ((p.b[l]?).getD 0)).toNat
    if s.storeInto c q k p (s.rangePas c part va.toNat n) then .wait else .ok (s.cleanRange c part va.toNat n (o == .invh)) [] 0 0 false
  | .spawn .., some a =>
    match s.loadPieces c k a [(.glob va, 128)] with
    | .wait => .wait
    | .bad e d => .bad e d
    | .ok t bs _ =>
      let e : Spawn := { id := t.spawnSeq, core := c, slot := q, seq := p.seq, lane := l
                         q := bitsOf ((p.b[l]?).getD 0).toNat 0 10, part, crec := BitVec.ofNat 1024 (leNat bs) }
      .ok { t with spawns := t.spawns ++ [e], spawnSeq := t.spawnSeq + 1 } [] 0 0 false
  | _, _ => .wait

/-- A result lane placed in the writes of a pending result: word i in write i; a write beyond the words loses the lane. -/
def Pending.setLane (p : Pending) (n l : Nat) (ws : List Word) : Pending :=
  { p with writes := p.writes.mapIdx fun i w =>
      match ws[i]? with
      | some v => { w with vals := (if w.vals.isEmpty then List.replicate n 0 else w.vals).set l v }
      | none => if ws.isEmpty then w else { w with mask := w.mask &&& ~~~(BitVec.ofNat 64 (2 ^ l)) } }

/-- The two words of one half of a load of 16 bytes placed in a lane of its writes. -/
def Pending.setHalf (p : Pending) (n l : Nat) (ws : List Word) : Pending :=
  let o := if p.high l then 2 else 0
  { p with writes := p.writes.mapIdx fun i w =>
      if o ≤ i && i < o + 2 then
        { w with vals := (if w.vals.isEmpty then List.replicate n 0 else w.vals).set l ((ws[i - o]?).getD 0) }
      else w }

/-- The deferred cause of one lane of an instruction, with the address that the lane names. -/
def laneFailed (i : IssueInfo) (l code detail order : Nat) (va : DWord) : Cause :=
  ⟨i, code, detail, BitVec.ofNat 64 (2 ^ l), 0, va, true, none, order, []⟩

/-- Two causes of one instruction: the lowest-numbered stands, and lanes that met the same share a frame, with the DETAIL and the address of
the lowest (R346, R349). No lane that met either was performed, unless both say so, and the operations of both complete at the TRET
(R387). -/
def Cause.join (y z : Cause) : Cause :=
  let first := match lowest y.aff, lowest z.aff with
    | some a, some b => decide (a ≤ b)
    | none, some _ => false
    | _, none => true
  let one := if y.code < z.code then y else if z.code < y.code then z
    else { (if first then y else z) with aff := y.aff ||| z.aff }
  { one with done := y.done &&& z.done, tl := y.tl ++ z.tl }

/-- A cause of a lane joins that of its instruction. -/
def addCause (zs : List Cause) (z : Cause) : List Cause :=
  match zs with
  | [] => [z]
  | y :: ys => y.join z :: ys

/-- A lane fails: its result is withheld (R345, R369). -/
def Pending.fail (p : Pending) (l code detail : Nat) : Pending :=
  let m : Lanes := BitVec.ofNat 64 (2 ^ l)
  { p with left := p.left &&& ~~~m, withheld := p.withheld ||| m
           causes := addCause p.causes (laneFailed p.info l code detail p.seq ((p.addrs[l]?).getD 0)) }

def Skein.setPend (k : Skein) (p : Pending) : Skein :=
  { k with pend := k.pend.map fun e => if e.seq == p.seq then p else e }

/-- Instructions whose lanes are performed one by one in ascending order (R172, R206). -/
def ascending : Instr → Bool
  | .atom .. | .atoms .. | .spawn .. | .qsrch .. => true
  | _ => false

/-! ### The race test (R378, R379) -/

/-- The instructions whose accesses are tested (R368). -/
def raceTested : Instr → Bool
  | .ld .. | .ldFmt .. | .lds .. | .ldd .. | .ldc .. | .ldl .. | .st .. | .sts .. | .std .. | .stl .. | .atom .. | .atoms ..
  | .red .. => true
  | _ => false

/-- The first stamp sector of some bytes whose kept triple is flagged. -/
def flaggedSector (m : AMap Triple) (a n : Nat) (wid : BitVec 20) (stamp : Nat) (ord : Bool) : Option Nat :=
  ((List.range ((a + n - 1) / 32 + 1 - a / 32)).map (· + a / 32)).find? fun i => raceFlag (amGet m i) wid stamp ord

/-- The race test of a lane: the address of the first flagged stamp sector. -/
def State.raceAt (s : State) (c : Nat) (k : Skein) (i : Instr) (l : Nat) (a : DWord) (stamp : Nat) : Option DWord :=
  let lot := k.laneLot l
  if !raceTested i || !s.checked lot then none
  else
    let ord := match accessOf i with | some x => x.ord != .plain | none => false
    (s.touched c k i l a).findSome? fun e => match e.1 with
      | .glob va => match s.xlate c (s.partOf (s.lotOf k)) va false false with
        | .ok x => if x.checked
            then (flaggedSector s.sectors x.pa e.2 k.wid stamp ord).map fun i => va + BitVec.ofNat 64 (32 * i) - BitVec.ofNat 64 x.pa
            else none
        | .bad .. => none
      | .scr n off => (flaggedSector (s.lot n).sectors off e.2 k.wid stamp ord).map fun _ => a &&& ~~~31#64

/-- The home slices to which a lane's access has to go: those of the bytes that its core does not serve itself. -/
def State.slicesOf (s : State) (c : Nat) (k : Skein) (i : Instr) (ps : List (Loc × Nat)) : List Nat :=
  match accessOf i with
  | some a => ps.filterMap fun e => match e.1 with
    | .glob va => if s.servedAt c k a va then none else s.sliceAt c (s.partOf (s.lotOf k)) va
    | .scr .. => none
  | none => []

/-- An accepted store of the core goes before this lane's access: an older one of its fibre to one of its bytes, where the core
cannot serve the bytes with the store in them (R90, R107), or one on its way to the same home slice (R93). -/
def State.behindStore (s : State) (c q : Nat) (k : Skein) (p : Pending) (l : Nat) (ps : List (Loc × Nat)) (sl : List Nat) : Bool :=
  let part := s.partOf (s.lotOf k)
  (s.core c).stores.any fun r => r.before q k p && (laneList r.left).any fun j =>
    let rep := s.replays c r j
    (r.slot == q && r.lot == k.lot && j == l && s.sameBytes c part ps (r.pieces j) && !(sl.isEmpty && plainStore r.i && !rep)) ||
      (!rep && s.goesTo c part sl (r.pieces j))

/-- A load or an atomic of the core that issued earlier is on its way to one of these home slices (R93). -/
def State.behindLoad (s : State) (c : Nat) (sl : List Nat) (first : Nat → Skein → Pending → Bool) : Bool :=
  s.skeins.any fun e => e.1 / 64 == c && (s.lot e.2.lot).role != .trailing && e.2.pend.any fun o =>
    first (e.1 % 64) e.2 o && (laneList o.left).any fun j =>
      let ps := s.touched c e.2 o.i j ((o.addrs[j]?).getD 0)
      (s.slicesOf c e.2 o.i ps).any sl.contains &&
        ps.all fun x => match x.1 with | .glob va => !s.heldAt (.pend c (e.1 % 64) o.seq) va | .scr .. => true

/-- The lane may be performed now as far as earlier accesses go: those of its fibre to its bytes, and those of its core to its home
slice. -/
def State.laneFree (s : State) (c q : Nat) (k : Skein) (p : Pending) (l : Nat) : Bool :=
  let ps := s.touched c k p.i l ((p.addrs[l]?).getD 0)
  let sl := s.slicesOf c k p.i ps
  !s.olderPend c k p.seq l ps && !s.inCompare c k ps && !s.behindStore c q k p l ps sl &&
    (sl.isEmpty || !s.behindLoad c sl fun q' _ o => if q' == q then decide (o.seq < p.seq) else decide (o.info.tick < p.info.tick)) &&
    ps.all fun e => match e.1 with | .glob va => !s.heldAt (.pend c q p.seq) va | .scr .. => true

/-- The largest stamp that each of n lanes has observed, after lane l has observed o (R122). -/
def seenAt (seen : List Nat) (n l o : Nat) : List Nat :=
  let all := if seen.isEmpty then List.replicate n 0 else seen
  all.set l (max o ((all[l]?).getD 0))

/-- A pending result after one lane's words have come. -/
def Pending.got (p : Pending) (n l : Nat) (ws : List Word) (fl : FFlags) (o : Nat) : Pending :=
  let m : Lanes := BitVec.ofNat 64 (2 ^ l)
  let last := !halved p.i || p.half.getLsbD l
  let p' := if halved p.i then p.setHalf n l ws else p.setLane n l ws
  { p' with left := if last then p.left &&& ~~~m else p.left, half := if last then p.half &&& ~~~m else p.half ||| m
            flags := p.flags ||| fl, seen := seenAt p.seen n l o }

/-- How a sampled request of an instruction is served, as its first lane finds the machine (R329); `t` is the machine after it. -/
def State.noteServed (s t : State) (c q order part : Nat) (own : Bool) (ps : List (Loc × Nat)) : State :=
  if (t.core c).samples.isEmpty then t
  else
    let by' := fun (va : DWord) (n : Nat) => if own then 0 else match s.xlate c part va false false with
      | .ok x => if s.sliceHolds part x.pa n then 1 else 2
      | .bad .. => 2
    t.updCore c fun u => { u with samples := u.samples.map fun m =>
      if m.slot != q || m.order != order || m.served.isSome then m
      else { m with served := ps.findSome? fun e => match e.1 with
        | .glob va => if va.toNat / 128 == m.line.toNat / 128 then some (by' va e.2) else none
        | .scr .. => none } }

/-- The smallest naturally aligned block of 16, 32, 64 or 128 bytes that holds bytes `lo` to `hi` - 1 of a line: where it begins and its
size (R94). -/
def blockOf (lo hi : Nat) : Nat × Nat :=
  let n := ([16, 32, 64].find? fun n => lo / n == (hi - 1) / n).getD 128
  (lo / n * n, n)

/-- The requests of an instruction that a lane's access goes with: one for each line, the block of which holds every byte that the active
lanes touch there (R94). -/
def State.requests (s : State) (c part : Nat) (act : Lanes) (pieces : Nat → List (Loc × Nat)) (l : Nat) : List (Nat × Nat) :=
  let at' := fun (j : Nat) => (s.physOf c part (pieces j)).filterMap fun e => match e.1 with
    | .glob pa => some (pa.toNat, e.2)
    | .scr .. => none
  let all := (laneList act).flatMap at'
  ((at' l).flatMap fun e => linesOf e.1 e.2).eraseDups.map fun ln =>
    let mine := all.filter fun e => e.1 < 128 * ln + 128 && 128 * ln < e.1 + e.2
    blockOf (mine.foldl (fun m e => min m (max e.1 (128 * ln))) (128 * ln + 127))
      (mine.foldl (fun m e => max m (min (e.1 + e.2) (128 * ln + 128))) (128 * ln + 1))

/-- The sectors of some requests that the slices miss are fetched, as far as they can be (R91, R94). -/
def State.fetchBlocks (s : State) (part : Nat) (alloc : Bool) (rs : List (Nat × Nat)) : State :=
  rs.foldl (fun s e => if s.backed part e.1 e.2 && (s.linkCause part e.1 e.2).isNone then s.sliceTouch part e.1 e.2 alloc false else s) s

/-- A line that some bytes lie on may be allocated at its slice (R98, R142). -/
def State.allocAt (s : State) (c part : Nat) (i : Instr) (ps : List (Loc × Nat)) : Bool :=
  (match accessOf i with | some a => a.hint != .home | none => false) && ps.all fun e => match e.1 with
    | .glob va => (match s.xlate c part va false false with | .ok x => x.cache != 2 | .bad .. => false)
    | .scr .. => false

/-- The requests of a performed lane that its core did not serve itself. -/
def State.requested (s : State) (c : Nat) (k : Skein) (p : Pending) (l : Nat) (t : State) : State :=
  let part := s.partOf (s.lotOf k)
  let pieces := fun (j : Nat) => s.touched c k p.i j ((p.addrs[j]?).getD 0)
  if (s.slicesOf c k p.i (pieces l)).isEmpty then t
  else t.fetchBlocks part (s.allocAt c part p.i (pieces l)) (s.requests c part p.info.act pieces l)

/-- One lane of pending result `seq` attempted: none when it has to wait. -/
def State.tryLane (s : State) (c q seq l : Nat) : Option State :=
  match s.skein c q with
  | none => none
  | some k =>
    match k.pend.find? fun p => p.seq == seq with
    | none => none
    | some p =>
      if !p.left.getLsbD l || p.hold || !s.laneFree c q k p l then none
      else match s.performLane c q k p l with
        | .wait => none
        | .bad e d => some (s.setSkein c q (k.setPend (p.fail l e d)))
        | .ok t ws fl o w =>
          let p' := p.got k.width l ws fl o
          let p' := if w then { p' with causes := addCause p'.causes (laneFailed p.info l 0xC1 255 p.seq ((p.addrs[l]?).getD 0)) } else p'
          let ps := s.touched c k p.i l ((p.addrs[l]?).getD 0)
          let t := s.noteServed (s.requested c k p l t) c q p.seq (s.partOf (s.lotOf k)) (s.slicesOf c k p.i ps).isEmpty ps
          some (t.updSkein c q fun k => { (k.setPend p') with oMax := max k.oMax o })

/-- The lanes to attempt together (R94, R203): those on the 128-byte line of one lane still to be performed, which one is
open; an instruction whose lanes go in ascending order attempts them so. -/
def State.lanesNow (s : State) (p : Pending) : List Nat :=
  let ls := laneList p.left
  if ascending p.i then ls
  else match ls[Config.pick s.choices 3 % ls.length]? with
    | some x => let line := fun l => ((p.addrs[l]?).getD 0).toNat / 128
      ls.filter fun l => line l == line x
    | none => []

/-- The state of the skein's pending result. -/
def State.pendOf (s : State) (c q seq : Nat) : Option Pending :=
  (s.skein c q).bind fun k => k.pend.find? fun p => p.seq == seq

/-- The lane waits in the fault buffer: the lanes after it go on (R370). -/
def State.laneHeld (s : State) (c q seq l : Nat) : Bool :=
  match s.pendOf c q seq with
  | some p => s.heldAt (.pend c q seq) ((p.addrs[l]?).getD 0)
  | none => false

/-- Some lanes of a pending result attempted, or only the first that need not wait; those that wait are left. In ascending order, a lane
that waits for anything but its page holds back those after it (R172, R206, R230). -/
def State.tryLanes (s : State) (c q seq : Nat) (asc one : Bool) : List Nat → State
  | [] => s
  | l :: ls => match s.tryLane c q seq l with
    | some t => if one then t else State.tryLanes t c q seq asc one ls
    | none => if asc && !s.laneHeld c q seq l then s else State.tryLanes s c q seq asc one ls

/-- The cause of an instruction, with DONE (R346, R369). -/
def finalCauses (p : Pending) : List Cause := p.causes.map fun z => { z with done := p.info.act &&& ~~~p.withheld }

/-- A write without its withheld lanes; a scalar keeps its value when the lowest active lane is withheld (R44). -/
def Write.withhold (w : Write) (act withheld : Lanes) : Write :=
  match w.dst with
  | .scl _ => match lowest act with
    | some l => if withheld.getLsbD l then { w with mask := 0 } else w
    | none => w
  | _ => { w with mask := w.mask &&& ~~~withheld }

/-- The acquire that a completed result makes: its scope, and the lanes that read what they acquire: of BTEST, those that read true (R104,
R122, R216). -/
def acquires (p : Pending) : Option (Scope × Lanes) :=
  let read := p.info.act &&& ~~~p.withheld
  let m := match p.i with
    | .btest .. => read &&& lanesWhere 64 fun l => p.writes.any fun w => (w.vals[l]?).getD 0 != 0
    | _ => read
  match p.i, accessOf p.i with
  | .btest .., some a => if m == 0 then none else some (a.scope, m)
  | _, some a => if a.kind != .store && MOrd.acquires a.ord && m != 0 then some (a.scope, m) else none
  | _, none => none

/-- An acquire in some lanes: the skein acquires, and each lot by the largest stamp that its lanes have observed (R114, R122). -/
def State.acquireIn (s : State) (c q : Nat) (k : Skein) (x : Scope) (m : Lanes) (seen : List Nat) : State :=
  (k.lots m).foldl (fun s n => s.stampLot n fun l => l.acquireStamp x ((laneList m).foldl (fun o j =>
    if k.laneLot j == n then max o ((seen[j]?).getD 0) else o) 0)) (s.updSkein c q fun k => k.acquire x s.tick)

/-- Every lane of a pending result has been performed or withheld: it has returned, and an acquire takes effect (R114,
R122). A leading lot's result is forwarded to its trailing lot (R405, R407). -/
def State.finishPend (s : State) (c q seq : Nat) : State :=
  match s.skein c q with
  | none => s
  | some k =>
    match k.pend.find? fun p => p.seq == seq with
    | none => s
    | some p =>
      if p.left != 0 || p.returned || s.spawns.any (fun e => e.core == c && e.slot == q && e.seq == seq) then s
      else
        let p := { p with returned := true, causes := finalCauses p
                          writes := p.writes.map fun w => w.withhold p.info.act p.withheld }
        let s := s.setSkein c q (k.setPend p)
        let s := match acquires p with
          | some (x, m) => s.acquireIn c q k x m p.seen
          | none => s
        let lt := s.lot k.lot
        match lt.role, lt.partner with
        | .leading, some n =>
          if forwarded p.i then s.updLot n fun l => { l with fwd := l.fwd ++ [⟨k.lotSkein, seq, 0, p⟩] } else s
        | _, _ => s

/-! ### Accesses that wait at the core for their pages (R376, R379) -/

/-- A decoding load. -/
def isFmtLoad : Instr → Bool
  | .ldFmt .. => true
  | _ => false

/-- Some lanes of an access lie on a page that no translation is known of. -/
def State.pagesMissing (s : State) (c part : Nat) (write : Bool) (m : Lanes) (pieces : Nat → List (Loc × Nat)) : Bool :=
  (laneList m).any fun l => (pieces l).any fun e => match e.1 with
    | .glob va => (match s.xlate c part va write false with | .bad .. => true | .ok _ => false)
    | .scr .. => false

/-- The bytes by which a lane of an access names its pages. -/
def State.pagePieces (s : State) (c : Nat) (k : Skein) (i : Instr) (addrs : List DWord) (l : Nat) : List (Loc × Nat) :=
  let a := (addrs[l]?).getD 0
  if isFmtLoad i then [(.glob a, 1)] else s.touched c k i l a

/-- The alignment that LD.fmt asks of a lane whose page is known (R376). -/
def State.fmtAlign (s : State) (c part : Nat) (va : DWord) : Nat :=
  match s.xlate c part va false false with
  | .ok x => if x.fmt.fmt == 7 then 1 else fmtBytes x.fmt.fmt
  | .bad .. => 1

/-- MISALIGN of LD.fmt in some lanes (R376). -/
def State.fmtHits (s : State) (c part w : Nat) (m : Lanes) (addr : Nat → DWord) : List Hit :=
  let bad := lanesWhere w fun l => m.getLsbD l && (addr l).toNat % s.fmtAlign c part (addr l) != 0
  match lowest bad with
  | some l => [⟨0x34, Nat.log2 (s.fmtAlign c part (addr l)), bad, addr l⟩]
  | none => []

/-- RACE in some lanes (R378, R379): the address is that of the first flagged stamp sector. -/
def raceHit (w : Nat) (m : Lanes) (at' : Nat → Option DWord) : List Hit :=
  hitOn 0x3B 255 (lanesWhere w fun l => m.getLsbD l && (at' l).isSome) fun l => (at' l).getD 0

/-- An access that has waited for its pages meets a precise cause after all: nothing of it is performed, and it counts as not issued. -/
def State.unissue (s : State) (c q : Nat) (info : IssueInfo) (order : Nat) (h : Hit) : State :=
  match s.skein c q with
  | none => s
  | some k =>
    let z : Cause := ⟨info, h.code, h.detail, h.aff, 0, h.addr, false, none, order, []⟩
    (s.setSkein c q { k with retired := k.retired - 1, park := some (.raise z) }).updLot k.lot fun l =>
      { l with retiredCnt := l.retiredCnt - 1 }

/-- A load or an atomic that waits for its pages goes on once each has a translation or is refused: its precise causes are looked for in
all of its lanes at once (R369, R376, R379). Where a lane has been refused, that lower-numbered cause stands, and no lane is performed. -/
def State.unhold (s : State) (c q seq : Nat) : State :=
  match s.skein c q, s.pendOf c q seq with
  | some k, some p =>
    let part := s.partOf (s.lotOf k)
    let write := match accessOf p.i with | some a => a.kind != .load | none => false
    if !p.hold || s.pagesMissing c part write p.left (s.pagePieces c k p.i p.addrs) then s
    else
      let addr := fun l => (p.addrs[l]?).getD 0
      let hits := (if isFmtLoad p.i then s.fmtHits c part k.width p.left addr else []) ++
        raceHit k.width p.left fun l => s.raceAt c k p.i l (addr l) ((p.stamps[l]?).getD 0)
      match lowestHit hits with
      | none => s.setSkein c q (k.setPend { p with hold := false })
      | some h =>
        if p.causes.isEmpty
        then State.unissue (s.setSkein c q { k with pend := k.pend.filter (fun e => e.seq != seq), llCount := k.llCount - 1 }) c q p.info p.seq h
        else s.setSkein c q (k.setPend { p with hold := false, left := 0, withheld := p.info.act })
  | _, _ => s

end Sys2Proof.Machine
end

