-- ==== Sys2Proof/Machine/Memory.lean ====
section
/-! DEFINITION. The issue of memory instructions (R200 to R212, R172, R173): addresses and precise causes (R368, R369, R376 to
R380), loads, stores and the store path of a core (R115, R119, R375), atomics, fences, cache control, prefetch, monitors, and
the launch instructions SPAWN and JOINC. -/

namespace Sys2Proof.Machine

/-! ### Addresses and precise causes -/

/-- The effective address of a lane in a space (R82, R200). -/
def Iss.spaceAddr (x : Iss) (sp : Space) (a : Opnd) (off : DWord) (l : Nat) : DWord :=
  let v := x.address a off l
  if sp == .g then v else (loOf v).setWidth 64

def sx24 (off : BitVec 24) : DWord := off.signExtend 64

/-- The largest offset past the end that an access may reach in a space but `.g`, in a lane (R82, R85). -/
def Iss.extent (x : Iss) (sp : Space) (l : Nat) (a : DWord) : Nat :=
  match sp with
  | .s => (x.s.lot (x.k.laneLot l)).alloc
  | .d => match x.s.dieLot (x.k.laneLot l) a.toNat with
    | some m => (s.lot m).alloc
    | none => 2 ^ 19
  | .c => 65536
  | .l => x.launch.localSize
  | .g => 2 ^ 64
where s := x.s

/-- DETAIL of SPACE_BOUNDS and DIE_ADDRESS (R369). -/
def Space.detail : Space → Nat
  | .g => 0 | .s => 1 | .d => 2 | .c => 3 | .l => 4

/-- The precise causes of an access's addresses (R369, R376, R377). -/
def Iss.spaceHits (x : Iss) (a : Access) (addr : Nat → DWord) : List Hit :=
  let log := Nat.log2 a.size
  match a.sp with
  | .g => x.globalHits log addr
  | sp =>
    hitOn 0x32 255 (x.failing fun l => (x.s.locate x.k sp l (addr l) a.size).any fun e =>
        match e.1 with | .glob va => !canonical va | .scr .. => false) addr ++
      hitOn 0x34 log (x.failing fun l => (addr l).toNat % a.size != 0) addr ++
      hitOn 0x37 (Space.detail sp) (x.failing fun l =>
        decide (x.extent sp l (addr l) < (if sp == .d then bitsOf (addr l).toNat 0 19 else (addr l).toNat) + a.size)) addr ++
      (if sp == .d then hitOn 0x38 2 (x.failing fun l => (x.s.dieLot (x.k.laneLot l) (addr l).toNat).isNone) addr else [])

/-- BARRIER_CLOBBER of a write to `.s` (R380). -/
def Iss.clobberHits (x : Iss) (a : Access) (addr : Nat → DWord) : List Hit :=
  if a.sp == .s && a.kind != .load then
    hitOn 0x3C 255 (x.failing fun l => (x.s.lot (x.k.laneLot l)).clobbers (addr l).toNat a.size) addr
  else []

/-- The stamp of an access of a lane: a release's stamp rises before its write is issued (R122). -/
def Iss.stampAt (x : Iss) (a : Access) (l : Nat) : Nat :=
  let n := x.k.laneLot l
  if x.s.checked n then (x.s.lot n).m + (if a.kind != .load && MOrd.releases a.ord then 1 else 0) else 0

/-- The access waits at the core for its pages: LD.fmt, whose alignment a page gives, and what a checked lot's race test looks at (R376,
R379). -/
def Iss.holds (x : Iss) (i : Instr) (write : Bool) (pieces : Nat → List (Loc × Nat)) : Bool :=
  (isFmtLoad i || (raceTested i && x.s.checked x.k.lot)) && x.s.pagesMissing x.c x.part write x.act pieces

/-- RACE at issue, where every page is known (R378, R379). -/
def Iss.raceHits (x : Iss) (i : Instr) (a : Access) (addr : Nat → DWord) : List Hit :=
  if x.holds i (a.kind != .load) (fun l => x.s.pagePieces x.c x.k i ((List.range x.k.width).map addr) l) then []
  else raceHit x.k.width x.act fun l => x.s.raceAt x.c x.k i l (addr l) (x.stampAt a l)

/-- Every precise cause of an access (R368); of a scratchpad store whose first half has been written, none any more. -/
def Iss.accessHits (x : Iss) (i : Instr) (addr : Access → Nat → DWord) : List Hit :=
  match accessOf i with
  | some a => if x.k.halfSt != 0 then [] else x.spaceHits a (addr a) ++ x.clobberHits a (addr a) ++ x.raceHits i a (addr a)
  | none => []

/-- Some lane accesses a page on which a checked lot's accesses are tested at once (R379). -/
def Iss.onChecked (x : Iss) (i : Instr) (addr : Nat → DWord) : Bool :=
  x.s.checked x.k.lot && (laneList x.act).any fun l => (x.s.touched x.c x.k i l (addr l)).any fun e =>
    match e.1 with
    | .glob va => (match x.s.xlate x.c x.part va false false with | .ok t => t.checked | .bad .. => false)
    | .scr .. => false

/-! ### What the core counts -/

/-- The extra array cycles of a scratchpad access, counted for each array it reaches (R86, R87, R330). -/
def Iss.bankCount (x : Iss) (a : Access) (addr : Nat → DWord) : State :=
  let words : List (Nat × Nat) := ((laneList x.act).flatMap fun l =>
    (x.s.locate x.k a.sp l (addr l) a.size).flatMap fun e => match e.1 with
      | .scr m off => (wordsTouched off e.2).map fun w => (m, w)
      | .glob _ => []).eraseDups
  let place : Nat × Nat → Nat × Nat := fun e =>
    ((x.s.lot e.1).core, if x.launch.fld 693 2 = 1 then (e.2 + e.2 / 192) % 192 else e.2 % 192)
  let ps := words.map place
  (ps.map Prod.fst).eraseDups.foldl (fun s c =>
    let mine := ps.filter fun p => p.1 == c
    s.count (coreCounter c 4) (mine.foldl (fun m p => max m (mine.filter (· == p)).length) 1 - 1)) x.s

/-- The 128-byte lines of some bytes of global memory. -/
def globLines (ps : List (Loc × Nat)) : List Nat :=
  (ps.filterMap fun e => match e.1 with | .glob va => some (va.toNat / 128) | .scr .. => none).eraseDups

/-- A demand access of a line that a PREF of the core has named (R96): one that finds the fill still in flight is counted; the first
that finds the line filled and still held, in L1 for `.l1` and else in its slice, is. -/
def State.prefHit (s : State) (c part line : Nat) : State :=
  match amGet (s.core c).prefs line with
  | some (_, false) => s.count (coreCounter c 2) 1
  | some (into, true) =>
    let held := if into then (amGet (s.core c).l1 line).isSome else s.sliceHolds part (128 * line) 128
    let s := s.updCore c fun u => { u with prefs := amErase u.prefs line }
    if held then s.count (coreCounter c 1) 1 else s
  | none => s

/-- The global requests of an access, by line (R94): one in 2^MEMLOG is sampled (R329), and hits on prefetched lines are counted
(R96). -/
def State.countRequests (s : State) (c q part : Nat) (pc : DWord) (order : Nat) (lines : List Nat) : State :=
  let blk := partRegs part + 0x10
  let per := 2 ^ s.fld blk 11 5
  let n := (s.core c).reqs
  let new : List Sample := (lines.mapIdx fun j ln => (j, ln)).filterMap fun e =>
    if s.fld blk 1 1 == 1 && (n + e.1 + 1) % per == 0
    then some ⟨s.tick, q, pc, BitVec.ofNat 64 (128 * e.2), order, none⟩ else none
  let s := s.updCore c fun u => { u with reqs := n + lines.length, samples := u.samples ++ new }
  if (s.core c).prefs.isEmpty then s
  else lines.foldl (fun s ln => match s.xlate c part (BitVec.ofNat 64 (128 * ln)) false false with
    | .ok t => s.prefHit c part (t.pa / 128)
    | .bad .. => s) s

/-- The requests of an issuing access; those of a decoding load that waits for its pages are known only then. -/
def Iss.requestCount (x : Iss) (i : Instr) (addr : Nat → DWord) : State :=
  x.s.countRequests x.c x.q x.part x.pc x.k.seq (globLines ((laneList x.act).flatMap fun l => x.s.touched x.c x.k i l (addr l)))

/-- A pending access goes on after its pages, and a decoding load's requests are counted (R94, R376, R379). -/
def State.goOn (s : State) (c q seq : Nat) : State :=
  let t := s.unhold c q seq
  match s.skein c q, s.pendOf c q seq, t.pendOf c q seq with
  | some k, some p, some p' =>
    if isFmtLoad p.i && p.hold && !p'.hold && (s.lotOf k).role != .trailing
    then t.countRequests c q (s.partOf (s.lotOf k)) p.info.pc p.seq
      (globLines ((laneList p'.left).flatMap fun l => t.touched c k p.i l ((p.addrs[l]?).getD 0)))
    else t
  | _, _, _ => t

/-- An access is counted where it goes; a trailing lot sends no requests (R405). -/
def Iss.counted (x : Iss) (i : Instr) (addr : Nat → DWord) : Iss :=
  match accessOf i with
  | some a => { x with s := if a.sp == .s || a.sp == .d then x.bankCount a addr
      else if x.lot.role == .trailing then x.s else x.requestCount i addr }
  | none => x

/-- An instruction that marks its lots (R304, R400), with at least one active lane. -/
def Iss.sided (x : Iss) (replay : Bool) : Iss := { x with s := x.s.markSide (x.k.lots x.act) replay }

/-! ### Long-latency accesses -/

/-- Lanes performed at issue; what has to wait stays pending. Whether the second halves of a 16-byte load go at once is open (R106,
log entry 99). -/
def State.performNow (s : State) (c q seq : Nat) (i : Instr) (m : Lanes) : State :=
  let ls := laneList m
  let ls := if halved i && Config.pick s.choices 6 % 2 == 0 then ls ++ ls else ls
  ((s.tryLanes c q seq (ascending i) false ls).finishPend c q seq).boundary c q

/-- A trailing lot takes the result that its leading lot has forwarded (R405, R407). -/
def Iss.takeForward (x : Iss) (p : Pending) : State :=
  match x.lot.fwd.find? x.mine with
  | none => x.s
  | some e =>
    let p := { p with writes := e.p.writes, flags := e.p.flags, left := 0, withheld := e.p.withheld, seen := e.p.seen, returned := true }
    let s := x.s.updLot x.k.lot fun l => { l with fwd := l.fwd.filter fun e => !x.mine e }
    match acquires p with
    | some (sc, m) =>
      let s := s.acquireIn x.c x.q x.k sc m p.seen
      ({ x with s := s, k := x.k.acquire sc x.s.tick } : Iss).issuePend p
    | none => ({ x with s := s } : Iss).issuePend p

/-- The effect of an instruction whose result a trailing lot takes from its leading lot. -/
def Iss.orForward (x : Iss) (i : Instr) (p : Pending) (own : State) : State :=
  if x.lot.role == .trailing && forwarded i then x.takeForward p else own

/-- A load of a scratchpad is performed later than it issues, of an unchecked lot: whether it is is open (R267, log entry 113). -/
def Iss.later (x : Iss) (i : Instr) : Bool :=
  match i with
  | .lds .. | .ldd .. => !x.s.checked x.k.lot && Config.pick x.s.choices 13 % 2 == 1
  | _ => false

/-- A long-latency access: performed at issue where it names a scratchpad or a checked page, else when it returns. -/
def Iss.startAccess (x : Iss) (i : Instr) (addr b c : Nat → DWord) (dsts : List Dst) : State :=
  let p := x.pending i addr b c dsts
  let write := match accessOf i with | some a => a.kind != .load | none => false
  let h := { p with hold := x.holds i write (x.s.pagePieces x.c x.k i p.addrs) }
  let s := (if h.hold && isFmtLoad i then x else x.counted i addr).issuePend h
  let now : Bool := match accessOf i with
    | some a => (a.sp == .s || a.sp == .d || x.onChecked i addr) && !h.hold && !x.later i
    | none => false
  x.orForward i p (if now then s.performNow x.c x.q x.k.seq i x.act else s)

def zeroLane : Nat → DWord := fun _ => 0

/-- The destinations of n consecutive registers. -/
def Iss.dsts (x : Iss) (d : Opnd) (n : Nat) : List Dst := (List.range n).map fun j => (x.dstOf d).next j

/-- An ordered access of a scratchpad at `.quad` or wider, which observes the waits of R115 at its scope (R202). -/
def Access.waits (a : Access) : Bool := a.ord != .plain && Scope.wide a.scope && (a.sp == .s || a.sp == .d)

/-- A load (R200 to R204): `.sc` waits as an `.ar` fence does (R115). -/
def issueLoad (i : Instr) (s : State) (a : Opnd) (off : BitVec 24) (d : Opnd) (n : Nat) :
    Host.Outcome State Fault Refusal :=
  let addr := fun (x : Iss) (acc : Access) => x.spaceAddr acc.sp a (sx24 off)
  issue i s true (fun x => x.accessHits i (addr x)) fun x =>
    match accessOf i with
    | some acc =>
      let go := fun (x : Iss) => x.startAccess i (addr x acc) zeroLane zeroLane (x.dsts d n)
      if acc.ord == .sc || acc.waits then x.afterWrites acc.scope go else go x
    | none => x.s

/-- Registers that an access moves (R201). -/
def MemM.regs (m : MemM) : Nat := Cnt.num m.n * (if MTy.bytes m.t = 8 then 2 else 1)

def execLd (c : Ctl) (m : MemM) (off : BitVec 24) (d a : Opnd) (s : State) : Host.Outcome State Fault Refusal :=
  issueLoad (.ld c m off d a) s a off d (MemM.regs m)
def execLdFmt (c : Ctl) (h : CacheHint) (off : BitVec 24) (d a : Opnd) (s : State) : Host.Outcome State Fault Refusal :=
  let i := Instr.ldFmt c h off d a
  let addr := fun (x : Iss) => x.spaceAddr .g a (sx24 off)
  issue i s true (fun x =>
      hitOn 0x32 255 (x.failing fun l => !canonical (addr x l)) (addr x) ++
        (if x.holds i false (fun l => [(.glob (addr x l), 1)]) then [] else x.s.fmtHits x.c x.part x.k.width x.act (addr x)) ++
        x.raceHits i ⟨.g, 8, .load, .plain, .sk, h, false⟩ (addr x))
    fun x => x.startAccess i (addr x) zeroLane zeroLane (x.dsts d 2)
def execLds (c : Ctl) (m : MemM) (off : BitVec 24) (d a : Opnd) (s : State) : Host.Outcome State Fault Refusal :=
  issueLoad (.lds c m off d a) s a off d (MemM.regs m)
def execLdd (c : Ctl) (m : MemM) (off : BitVec 24) (d a : Opnd) (s : State) : Host.Outcome State Fault Refusal :=
  issueLoad (.ldd c m off d a) s a off d (MemM.regs m)
def execLdc (c : Ctl) (m : MemM) (off : BitVec 24) (d a : Opnd) (s : State) : Host.Outcome State Fault Refusal :=
  issueLoad (.ldc c m off d a) s a off d (MemM.regs m)
def execLdl (c : Ctl) (m : MemM) (off : BitVec 24) (d a : Opnd) (s : State) : Host.Outcome State Fault Refusal :=
  issueLoad (.ldl c m off d a) s a off d (MemM.regs m)

/-- An operand of an atomic, a reduction or a landing under its TYPE: a kind-11 immediate is converted to a floating-point TYPE
(R135). -/
def Iss.typedOp (x : Iss) (t : Fmt) (o : Opnd) (l : Nat) : DWord :=
  match o, Fmt.num t with
  | .imm b, .fp f => BitVec.ofNat 64 (fpImm f b)
  | _, _ => x.op o (Fmt.wide64 t) l

/-- An atomic (R206, R207): a release waits and stamps first (R115, R122). -/
def issueAtomic (i : Instr) (s : State) (a : Opnd) (x : AtomArg) (t : Fmt) (d : Opnd) (side : Iss → Iss) :
    Host.Outcome State Fault Refusal :=
  let off := match x with | .op2 _ _ o => o.signExtend 64 | .cas _ _ o => o.signExtend 64
  let b := match x with | .op2 _ b _ => b | .cas b _ _ => b
  let e := match x with | .op2 .. => Opnd.imm 0 | .cas _ e _ => e
  let wide := Fmt.wide64 t
  let addr := fun (x : Iss) (acc : Access) => x.spaceAddr acc.sp a off
  issue i s true (fun x => x.accessHits i (addr x)) fun x =>
    match accessOf i with
    | some acc =>
      let go := fun (x : Iss) =>
        (side x).startAccess i (addr x acc) (x.typedOp t b) (x.typedOp t e) (x.dsts d (if wide then 2 else 1))
      if MOrd.releases acc.ord then x.released acc.scope go
      else if acc.waits then x.afterWrites acc.scope go else go x
    | none => x.s

def execAtom (c : Ctl) (m : AtomM) (d a : Opnd) (x : AtomArg) (s : State) : Host.Outcome State Fault Refusal :=
  issueAtomic (.atom c m d a x) s a x m.t d fun x => x.sided false
def execAtoms (c : Ctl) (m : AtomM) (die : Bool) (d a : Opnd) (x : AtomArg) (s : State) :
    Host.Outcome State Fault Refusal :=
  issueAtomic (.atoms c m die d a x) s a x m.t d fun x => if die then x.sided false else x

/-! ### The store path of a core -/

/-- A cause joins those that a skein's next boundary delivers: one for each instruction (R346). -/
def joinDeferred (zs : List Cause) (z : Cause) : List Cause :=
  match zs with
  | [] => [z]
  | y :: ys => if y.order == z.order && y.info.pc == z.info.pc then y.join z :: ys else y :: joinDeferred ys z

def State.updStore (s : State) (c seq : Nat) (f : PStore → PStore) : State :=
  s.updCore c fun u => { u with stores := u.stores.map fun p => if p.seq == seq then f p else p }

/-- The size of the page that an address lies in, as far as a translation tells it. -/
def State.pageSize (s : State) (c part : Nat) (va : DWord) : Nat :=
  match s.xlate c part va true false with
  | .ok x => 2 ^ levelShift x.level
  | .bad .. => 65536

/-- The lane waits: for a reply to its fault, for a lower lane of its store that writes one of its bytes, for an older store of the
core that goes to its home slice (R93) or, in the store replay queue, to its page (R119), or for an earlier load or atomic of the
core to its home slice. -/
def State.storeBlocked (s : State) (c : Nat) (p : PStore) (l : Nat) : Bool :=
  let part := s.partOf (s.lot p.lot)
  let ps := p.pieces l
  let sl := ps.filterMap fun e => match e.1 with | .glob va => s.sliceAt c part va | .scr .. => none
  let a := (p.addrs[l]?).getD 0
  let page := s.pageSize c part a
  p.hold || (ps.any fun e => match e.1 with | .glob va => s.heldAt (.store c p.seq) va | .scr .. => false) ||
  ((laneList p.left).any fun j => decide (j < l) && s.sameBytes c part ps (p.pieces j)) ||
  ((s.core c).stores.any fun r => decide (r.seq < p.seq) && (laneList r.left).any fun j =>
    if s.replays c r j then a.toNat / page == ((r.addrs[j]?).getD 0).toNat / page else s.goesTo c part sl (r.pieces j)) ||
  s.behindLoad c sl fun q k o => !p.before q k o

/-- The race test of a lane of an accepted store (R378): the address of the first flagged stamp sector. -/
def State.storeRace (s : State) (c : Nat) (p : PStore) (l : Nat) : Option DWord :=
  if !s.checked p.lot || !raceTested p.i then none
  else (p.pieces l).findSome? fun e => match e.1 with
    | .glob va => (match s.xlate c (s.partOf (s.lot p.lot)) va true false with
      | .ok x => if x.checked
          then (flaggedSector s.sectors x.pa e.2 p.wid ((p.stamps[l]?).getD 0) p.ord).map fun i => va + BitVec.ofNat 64 (32 * i) - BitVec.ofNat 64 x.pa
          else none
      | .bad .. => none)
    | .scr .. => none

/-- A store that waits for its pages goes on, as `State.unhold` says of a load. -/
def State.unholdStore (s : State) (c seq : Nat) : State :=
  match (s.core c).stores.find? fun p => p.seq == seq with
  | none => s
  | some p =>
    if !p.hold || s.pagesMissing c (s.partOf (s.lot p.lot)) true p.left p.pieces then s
    else match raceHit 64 p.left fun l => s.storeRace c p l with
      | [] => s.updStore c seq fun p => { p with hold := false }
      | h :: _ =>
        if p.causes.isEmpty
        then State.unissue (s.updCore c fun u => { u with stores := u.stores.filter fun e => e.seq != seq }) c p.slot p.info p.order h
        else s.updStore c seq fun p => { p with hold := false, left := 0, replay := 0 }

/-- A link cause of a read that a reduction or TLADV makes fails its write (R383). -/
def writeFails (code : Nat) : Nat × Nat := if code = 0x3E || code = 0xA5 then (0x41, code) else (code, 255)

/-- What a lane of an accepted store writes: its bytes, or for RED the new value (R208). -/
def State.storeValue (s : State) (c : Nat) (p : PStore) (l : Nat) : Got :=
  match p.i, accessOf p.i with
  | .red _ o m .., some a =>
    let va := (p.addrs[l]?).getD 0
    let part := s.partOf (s.lot p.lot)
    match s.xlate c part va true false with
    | .bad .. => .wait
    | .ok x => match s.readCause part x.pa a.size with
      | some e => .bad (writeFails e).1 (writeFails e).2
      | none =>
        let old : DWord := BitVec.ofNat 64 (leNat (s.loadBytes x x.pa a.size))
        .ok s (leBytes (atomNew o m.t old (BitVec.ofNat 64 (leNat (p.bytes l a.size)))).1.toNat a.size) 0
  | .tladv .., some a =>
    match s.xlate c (s.partOf (s.lot p.lot)) ((p.addrs[l]?).getD 0) true false with
    | .bad .. => .wait
    | .ok x => match s.readCause (s.partOf (s.lot p.lot)) x.pa a.size with
      | some e => .bad (writeFails e).1 (writeFails e).2
      | none => .ok s (leBytes (max (leNat (p.bytes l 8)) (s.tlValue x.pa)) 8) 0
  | _, some a => .ok s (p.bytes l a.size) 0
  | _, none => .bad 0x30 0

/-- A TLADV publishes its stamp with the value (R122, R125); a JOINC sets its counter for decrements to come (R173, R296). -/
def State.tlPublish (s : State) (c : Nat) (p : PStore) (l : Nat) : State :=
  match p.i, s.xlate c (s.partOf (s.lot p.lot)) ((p.addrs[l]?).getD 0) true false with
  | .tladv .., .ok x =>
    let t := s.tlCtx x.pa
    s.setTl x.pa { t with pub := max t.pub ((p.stamps[l]?).getD 0) }
  | .joinc .., .ok x => { s with joins := amErase s.joins x.pa }
  | _, _ => s

/-- A store of 16 bytes, which is two accesses of 8 bytes (R106), and the half that a lane performs now; which goes first is open
(log entry 99). -/
def PStore.halved (p : PStore) : Bool :=
  match p.i with
  | .st _ m .. | .stl _ m .. => MemM.size m == 16
  | _ => false
def PStore.high (p : PStore) (l : Nat) : Bool :=
  (Config.pick (p.info.tick + 64 * p.seq + l) 5 % 2 == 1) != p.half.getLsbD l
def PStore.piecesNow (p : PStore) (l : Nat) : List (Loc × Nat) :=
  if p.halved then match p.pieces l with
    | [(.glob va, 16)] => [(.glob (if p.high l then va + 8 else va), 8)]
    | ps => if p.high l then ps.drop 2 else ps.take 2
  else p.pieces l

/-- A lane of an accepted store, or its first half, has been performed. -/
def PStore.acked (p : PStore) (l : Nat) : PStore :=
  let m : Lanes := BitVec.ofNat 64 (2 ^ l)
  if p.halved && !p.half.getLsbD l then { p with half := p.half ||| m, replay := p.replay &&& ~~~m }
  else { p with left := p.left &&& ~~~m, done := p.done ||| m, half := p.half &&& ~~~m, replay := p.replay &&& ~~~m }

/-- A cause of a lane of an accepted store (R375). -/
def PStore.met (p : PStore) (l code detail : Nat) : PStore :=
  { p with causes := addCause p.causes (laneFailed p.info l code detail p.order ((p.addrs[l]?).getD 0)) }

/-- A lane of an accepted store fails: it leaves unperformed. -/
def PStore.fail (p : PStore) (l code detail : Nat) : PStore :=
  let m : Lanes := BitVec.ofNat 64 (2 ^ l)
  { p.met l code detail with left := p.left &&& ~~~m, replay := p.replay &&& ~~~m }

/-- A lane of an accepted store attempted: none when it has to wait. -/
def State.ackLane (s : State) (c seq l : Nat) : Option State :=
  match (s.core c).stores.find? fun p => p.seq == seq with
  | none => none
  | some p =>
    let part := s.partOf (s.lot p.lot)
    let fails := fun (code detail : Nat) => some (s.updStore c seq fun p => p.fail l code detail)
    let md : HomeMode := match accessOf p.i with | some a => a.mode | none => ⟨true, false⟩
    if !p.left.getLsbD l || s.storeBlocked c p l then none
    else
      let s0 := s
      match s.storeValue c p l with
      | .wait => none
      | .bad e d => fails e d
      | .ok s bs _ =>
        let bs := if p.halved && p.high l then bs.drop 8 else bs
        match s.storePieces c part p.lot (tripleOf (s.checked p.lot) ((p.stamps[l]?).getD 0) p.wid p.ord) md (p.piecesNow l) bs with
        | (.wait, _) => none
        | (.bad e d, _) => fails e d
        | (.ok _, t) =>
          let hit := (p.pieces l).any fun e => match e.1 with
            | .glob va => s.debugWatch (s.launch (s.lot p.lot).launch) va e.2
            | .scr .. => false
          let t := (t.updStore c seq fun p => if hit then (p.acked l).met l 0xC1 255 else p.acked l).tlPublish c p l
          let t := s0.noteServed t c p.slot p.order part false (p.pieces l)
          some (t.fetchBlocks part (s.allocAt c part p.i (p.pieces l)) (s.requests c part p.info.act p.pieces l))

/-- The cause of a store that has left, with DONE (R346, R369, R375). -/
def PStore.final (p : PStore) : List Cause := p.causes.map fun z => { z with done := p.done }

/-- A store has left: its cause joins those that its skein's next boundary delivers (R375); a lot whose skein has no live fibre fails
(R348). -/
def State.storeLeft (s : State) (c : Nat) (p : PStore) : State :=
  p.final.foldl (fun s z => match s.skein c p.slot with
    | some k => if k.lot == p.lot && k.live != 0 then s.setSkein c p.slot { k with deferred := joinDeferred k.deferred z }
        else s.failLot p.lot z.code 0
    | none => s.failLot p.lot z.code 0) s

/-- A skein that waits at a release receives the causes that have joined (R375). -/
def State.atRelease (s : State) (c q : Nat) : State :=
  match s.skein c q with
  | some k => if k.relWait.isSome && !k.deferred.isEmpty then s.defer c q [] else s
  | none => s

/-- The accepted stores of a core of which no lane is left leave, in the order in which they were accepted. -/
def State.sweepStores (s : State) (c : Nat) : State :=
  let gone := (s.core c).stores.filter fun p => p.left == 0
  let s := s.updCore c fun u => { u with stores := u.stores.filter fun p => p.left != 0 }
  (gone.map PStore.slot).eraseDups.foldl (fun s q => (s.atRelease c q).tretCheck c q) (gone.foldl (fun s p => s.storeLeft c p) s)

/-- Stores whose lanes are performed in ascending order (R173, R208, R218). -/
def ascendingStore : Instr → Bool
  | .red .. | .joinc .. | .tladv .. => true
  | _ => false

/-- Some lanes of an accepted store attempted in ascending order, or only the first that need not wait. Where its lanes must go in that
order, one that waits for anything but its page holds back those after it. -/
def State.ackEach (s : State) (c seq : Nat) (one : Bool) : List Nat → State
  | [] => s
  | l :: ls => match s.ackLane c seq l with
    | some t => if one then t else State.ackEach t c seq one ls
    | none =>
      let stop := match (s.core c).stores.find? fun p => p.seq == seq with
        | some p => ascendingStore p.i && p.left.getLsbD l && !s.replays c p l
        | none => false
      if stop then s else State.ackEach s c seq one ls

/-- Some lanes of an accepted store attempted; the store leaves when none is left. -/
def State.ackLanes (s : State) (c seq : Nat) (one : Bool) (ls : List Nat) : State := ((s.unholdStore c seq).ackEach c seq one ls).sweepStores c

/-- The words of a store's data register and of those after it (R201). -/
def Iss.dataElem (x : Iss) (b : Opnd) (w e l : Nat) : DWord :=
  match b with
  | .vec i => if w = 8 then pairOf (x.k.vlane (i.toNat + 2 * e) l) (x.k.vlane (i.toNat + 2 * e + 1) l)
      else (x.k.vlane (i.toNat + e) l).setWidth 64
  | .scl i => if w = 8 then pairOf (x.k.scalar (i.toNat + 2 * e)) (x.k.scalar (i.toNat + 2 * e + 1))
      else (x.k.scalar (i.toNat + e)).setWidth 64
  | _ => x.op b (w = 8) l

/-- The bytes that a lane stores (R201, R203). -/
def Iss.storeData (x : Iss) (m : MemM) (b : Opnd) (l : Nat) : List Byte :=
  (List.range (Cnt.num m.n)).flatMap fun e => leBytes (x.dataElem b (MTy.bytes m.t) e l).toNat (MTy.bytes m.t)

/-- The data of all lanes as a store keeps it. -/
def Iss.storeWords (x : Iss) (data : Nat → List Byte) : List DWord :=
  (List.range x.k.width).flatMap fun l =>
    [BitVec.ofNat 64 (leNat ((data l).take 8)), BitVec.ofNat 64 (leNat ((data l).drop 8))]

/-- The skein after a store: it takes a number in issue order (R346). -/
def Iss.afterStore (x : Iss) : Skein := x.advance { x.k with seq := x.k.seq + 1 }

/-- The store as its core accepts it (R115, R119). -/
def Iss.pstore (x : Iss) (i : Instr) (addr : Nat → DWord) (data : Nat → List Byte) (ord : Bool) : PStore :=
  { seq := (x.s.core x.c).storeSeq, slot := x.q, lot := x.k.lot, i, info := x.info
    addrs := (List.range x.k.width).map addr, data := x.storeWords data, left := x.act, half := 0, done := 0, replay := 0
    stamps := x.stamps, causes := [], hold := x.holds i true (fun l => globalPieces i (addr l)), wid := x.k.wid, ord, order := x.k.seq }

def State.accept (s : State) (c : Nat) (p : PStore) : State :=
  s.updCore c fun u => { u with stores := u.stores ++ [p], storeSeq := u.storeSeq + 1 }

/-- Some lane stores to a page on which a checked lot's accesses are tested at once (R379). -/
def Iss.storesChecked (x : Iss) (i : Instr) (addr : Nat → DWord) : Bool :=
  x.s.checked x.k.lot && (laneList x.act).any fun l => (globalPieces i (addr l)).any fun e => match e.1 with
    | .glob va => (match x.s.xlate x.c x.part va true false with | .ok t => t.checked | .bad .. => false)
    | .scr .. => false

/-- A store to global memory cannot issue: an older access of its fibre to one of its bytes is still to be performed, on a checked
page it could not be performed at once, or the compare buffer is full (R107, R379, R406). -/
def Iss.storeStuck (x : Iss) (i : Instr) (addr : Nat → DWord) (ord : Bool) : Bool :=
  let ls := laneList x.act
  let p := x.pstore i addr (fun _ => []) ord
  (ls.any fun l => x.s.olderPend x.c x.k x.k.seq l (globalPieces i (addr l))) ||
    match x.lot.role, ord with
    | .trailing, true => false
    | .single, _ | .leading, true => x.storesChecked i addr && ls.any fun l => x.s.storeBlocked x.c p l ||
        (match x.s.xlate x.c x.part (addr l) true false with | .ok t => x.s.marked t.pa | .bad .. => false)
    | _, false => x.act != 0 && 64 ≤ x.lot.cmp.length

/-- A store to a page of a peer device marks its lot when it issues (R304). -/
def Iss.peerSide (x : Iss) (addr : Nat → DWord) : Iss :=
  let peer := fun (l : Nat) => match x.s.xlate x.c x.part (addr l) true false with | .ok t => t.peer | .bad .. => false
  { x with s := x.s.markSide (x.k.lots (lanesWhere x.k.width fun l => x.act.getLsbD l && peer l)) true }

/-- A store to global memory issues (R119, R406): of a redundant pair, plain stores enter the compare buffers and only the leading
lot performs the others; on a checked page it is performed at once (R379). -/
def Iss.storeGlobal (x : Iss) (i : Instr) (addr : Nat → DWord) (data : Nat → List Byte) (ord : Bool) : State :=
  if x.act == 0 then x.finish x.s x.afterStore false
  else
    let now := x.storesChecked i addr
    let x := x.peerSide addr
    let p := x.pstore i addr data ord
    match x.lot.role, ord with
    | .trailing, true => x.finish x.s x.afterStore false
    | .single, _ | .leading, true =>
      let s := x.finish (x.s.accept x.c p) x.afterStore false
      if now && !p.hold then s.ackLanes x.c p.seq false (laneList x.act) else s
    | _, false =>
      x.finish (x.s.updLot x.k.lot fun l =>
        { l with cmp := l.cmp ++ [⟨x.k.lotSkein, i, p.addrs, p.data, x.act, p.info, p.stamps⟩] }) x.afterStore false

/-- The bytes of a lane of a scratchpad access. -/
def Iss.scratchAt (x : Iss) (a : Access) (addr : Nat → DWord) (l : Nat) : List (Loc × Nat) := x.s.locate x.k a.sp l (addr l) a.size

/-- A store to a scratchpad allocation cannot issue: an older access of its fibre to one of its bytes is still to be performed, or a
row has not been cleared (R20, R107). -/
def Iss.scratchStuck (x : Iss) (a : Access) (addr : Nat → DWord) : Bool :=
  (laneList x.act).any fun l => x.s.olderPend x.c x.k x.k.seq l (x.scratchAt a addr l) || (x.scratchAt a addr l).any fun e => match e.1 with
    | .scr m off => !(x.s.lot m).clearedAt off e.2
    | .glob _ => false

/-- The half of a 16-byte scratchpad store that a lane writes first is the high one; which it is is open (log entry 99). -/
def Iss.highFirst (x : Iss) (l : Nat) : Bool := Config.pick (64 * x.k.seq + l) 15 % 2 == 1

/-- Bytes of a lane of a scratchpad store written at an offset in them. -/
def Iss.scratchPut (x : Iss) (a : Access) (addr : Nat → DWord) (data : Nat → List Byte) (from' n : Nat) (s : State) (l : Nat) : State :=
  (x.scratchAt a addr l).foldl (fun s e => match e.1 with
    | .scr m off => s.scrWrite m (off + from') (((data l).drop from').take n)
        (tripleOf (x.s.checked x.k.lot) (x.s.stampOf (x.k.laneLot l)) x.k.wid (a.ord != .plain))
    | .glob _ => s) s

/-- The first half of a 16-byte scratchpad store is written a clock before the rest: whether it is is open (R106, log entry 99). -/
def Iss.halfFirst (x : Iss) (a : Access) : Bool :=
  a.size == 16 && x.k.halfSt == 0 && x.act != 0 && !x.s.checked x.k.lot && Config.pick x.s.choices 14 % 2 == 1

/-- A store to a scratchpad allocation is performed when it issues, lane by lane in ascending order (R86, R203), one of 16 bytes as two
halves (R106); in `.d`, the lanes that would write a barrier unit are withheld (R380). -/
def Iss.storeScratch (x : Iss) (a : Access) (addr : Nat → DWord) (data : Nat → List Byte) : State :=
  let clob := x.failing fun l => !x.k.halfSt.getLsbD l && (x.scratchAt a addr l).any fun e => match e.1 with
    | .scr m off => (x.s.lot m).clobbers off e.2
    | .glob _ => false
  let ls := laneList (x.act &&& ~~~clob)
  if x.halfFirst a then
    let s := ls.foldl (fun s l => x.scratchPut a addr data (if x.highFirst l then 8 else 0) 8 s l) x.s
    s.setSkein x.c x.q { x.k with halfSt := x.act &&& ~~~clob }
  else
    let s := ls.foldl (fun s l => if x.k.halfSt.getLsbD l then x.scratchPut a addr data (if x.highFirst l then 0 else 8) 8 s l
      else x.scratchPut a addr data 0 a.size s l) (x.bankCount a addr)
    let k := { x.k with deferred := match lowest clob with
      | some l => x.k.deferred ++ [⟨x.info, 0x3C, 255, clob, x.act &&& ~~~clob, addr l, true, none, x.k.seq, []⟩]
      | none => x.k.deferred }
    x.finish s ({ x with k := k } : Iss).afterStore false

/-- The address that a store to global memory or to `.l` keeps: in `.l` that of its first word (R84). -/
def Iss.globalAddr (x : Iss) (a : Access) (addr : Nat → DWord) (l : Nat) : DWord :=
  match x.s.locate x.k a.sp l (addr l) a.size with
  | (.glob va, _) :: _ => va
  | _ => 0

/-- An instruction that stores: what keeps it from issuing is looked at first, so that it changes nothing then; a release waits and
stamps (R115, R122). -/
def Iss.stored (x : Iss) (a : Access) (stuck : Bool) (go : Iss → State) : State :=
  if stuck then x.s
  else if MOrd.releases a.ord then x.released a.scope go
  else if a.waits then x.afterWrites a.scope go else go x

/-- A store (R200 to R203). -/
def issueStore (i : Instr) (s : State) (m : MemM) (off : BitVec 24) (a b : Opnd) (side : Iss → Iss) :
    Host.Outcome State Fault Refusal :=
  let addr := fun (x : Iss) (acc : Access) => x.spaceAddr acc.sp a (sx24 off)
  issue i s false (fun x => x.accessHits i (addr x)) fun x =>
    match accessOf i with
    | some acc =>
      let at' := addr x acc
      let data := x.storeData m b
      if acc.sp == .s || acc.sp == .d
      then x.stored acc (x.scratchStuck acc at') fun x => (side x).storeScratch acc at' data
      else
        let va := x.globalAddr acc at'
        x.stored acc (x.storeStuck i va (acc.ord != .plain)) fun x => ((side x).counted i at').storeGlobal i va data (acc.ord != .plain)
    | none => x.s

def execSt (c : Ctl) (m : MemM) (off : BitVec 24) (a b : Opnd) (s : State) : Host.Outcome State Fault Refusal :=
  issueStore (.st c m off a b) s m off a b id
def execSts (c : Ctl) (m : MemM) (off : BitVec 24) (a b : Opnd) (s : State) : Host.Outcome State Fault Refusal :=
  issueStore (.sts c m off a b) s m off a b id
def execStd (c : Ctl) (m : MemM) (off : BitVec 24) (a b : Opnd) (s : State) : Host.Outcome State Fault Refusal :=
  issueStore (.std c m off a b) s m off a b fun x => x.sided false
def execStl (c : Ctl) (m : MemM) (off : BitVec 24) (a b : Opnd) (s : State) : Host.Outcome State Fault Refusal :=
  issueStore (.stl c m off a b) s m off a b id

/-- RED (R208, R426). -/
def execRed (c : Ctl) (o : AOp) (m : AtomM) (off : BitVec 24) (a b : Opnd) (s : State) :
    Host.Outcome State Fault Refusal :=
  let i := Instr.red c o m off a b
  let addr := fun (x : Iss) => x.spaceAddr .g a (sx24 off)
  issue i s false (fun x => x.accessHits i fun _ => addr x) fun x => match accessOf i with
    | some acc => x.stored acc (x.storeStuck i (addr x) true) fun x => ((x.sided false).counted i (addr x)).storeGlobal i (addr x)
        (fun l => leBytes (x.typedOp m.t b l).toNat (atomBytes m.t)) true
    | none => x.s

/-- JOINC (R173). -/
def execJoinc (c : Ctl) (off : BitVec 24) (a b : Opnd) (s : State) : Host.Outcome State Fault Refusal :=
  let i := Instr.joinc c off a b
  let addr := fun (x : Iss) => x.spaceAddr .g a (sx24 off)
  issue i s false (fun x => x.globalHits 2 (addr x)) fun x => if x.storeStuck i (addr x) true then x.s
    else x.released .pkg fun x => ((x.sided true).counted i (addr x)).storeGlobal i (addr x) (fun l => leBytes (x.b32 b l).toNat 4) true

/-- SPAWN (R172). -/
def execSpawn (c : Ctl) (off : BitVec 24) (d a b : Opnd) (s : State) : Host.Outcome State Fault Refusal :=
  let i := Instr.spawn c off d a b
  let addr := fun (x : Iss) => x.spaceAddr .g a (sx24 off)
  issue i s true (fun x => x.globalHits 7 (addr x)) fun x => x.released .pkg fun x =>
    (x.sided true).startAccess i (addr x) (x.op b false) zeroLane [x.dstOf d]

/-! ### Fences, cache control, prefetch and monitors -/

/-- FENCE (R117, R122, R209). An acquire fence stands for the last read before it, and waits for the ordered loads and atomics of its
skein (R108). -/
def execFence (c : Ctl) (ord : MOrd) (sc : Scope) (s : State) : Host.Outcome State Fault Refusal :=
  issue (.fence c ord sc) s false (fun _ => []) fun x =>
    let acq := fun (x : Iss) =>
      if x.act == 0 then x.skeinOnly x.k
      else x.finish (x.s.stampLots (x.k.lots x.act) fun l => l.acquireStamp sc x.k.oMax)
        (x.advance (x.k.acquire sc x.s.tick)) false
    if ord != .rel && x.act != 0 && x.k.pend.any Pending.reads then x.s
    else match ord with
    | .acq => acq x
    | .rel => x.released sc fun x => x.skeinOnly x.k
    | _ => x.released sc acq

/-- CCTL (R210): `.inv1` drops lines of the core's L1 when it issues; `.wbh` and `.invh` act when they return. -/
def execCctl (c : Ctl) (o : CctlOp) (off : BitVec 24) (a b : Opnd) (s : State) : Host.Outcome State Fault Refusal :=
  let i := Instr.cctl c o off a b
  let addr := fun (x : Iss) => x.spaceAddr .g a (sx24 off)
  issue i s (o != .inv1) (fun _ => []) fun x =>
    if o == .inv1 then
      let rs := (laneList x.act).flatMap fun l => x.s.rangePas x.c x.part (addr x l).toNat (x.b32 b l).toNat
      let s := x.s.updCore x.c fun u =>
        { u with l1 := u.l1.filter fun e => !rs.any fun r => r.1 ≤ 128 * e.1 && decide (128 * e.1 < r.2) }
      x.finish s (x.advance x.k) false
    else x.startAccess i (addr x) (x.op b false) zeroLane []

/-- A line that PREF names: its fill begins, where the line can be reached and is not held or on its way already. -/
def State.prefStart (s : State) (c part : Nat) (l1 : Bool) (ln : Nat) : State :=
  match s.xlate c part (BitVec.ofNat 64 (128 * ln)) false false with
  | .bad .. => s
  | .ok t =>
    let line := t.pa / 128
    let into := l1 && t.cache == 0
    let held := if into then (amGet (s.core c).l1 line).isSome else s.sliceHolds part (128 * line) 128
    let flying := match amGet (s.core c).prefs line with | some (_, done) => !done | none => false
    if (s.readCause part t.pa 128).isSome || t.cache == 2 || held || flying then s
    else s.updCore c fun u => { u with prefs := amPut u.prefs line (into, false) }

/-- A fill of a PREF ends (R96, R205): the line is in its slice, and in L1 under `.l1`, and is counted. -/
def State.prefFill (s : State) (c line : Nat) : State :=
  match amGet (s.core c).prefs line with
  | some (into, false) =>
    let part := s.partOfDie (c / 64)
    let s := s.updCore c fun u => { u with prefs := amPut u.prefs line (into, true) }
    if s.wholeLine part line then
      let s := (s.sliceTouch part (128 * line) 128 true false).count (coreCounter c 0) 1
      if into then s.l1Fill c line else s
    else s.updCore c fun u => { u with prefs := amErase u.prefs line }
  | _ => s

/-- PREF (R205): the fills of the lines begin, and end later. A trailing lot reads no memory (R405). -/
def execPref (c : Ctl) (l1 : Bool) (off : BitVec 24) (a : Opnd) (s : State) : Host.Outcome State Fault Refusal :=
  issue (.pref c l1 off a) s false (fun _ => []) fun x =>
    let lines : List Nat := ((laneList x.act).map fun l => (x.spaceAddr .g a (sx24 off) l).toNat / 128).eraseDups
    let s := if x.lot.role == .trailing then x.s else lines.foldl (fun s ln => s.prefStart x.c x.part l1 ln) x.s
    x.finish s (x.advance x.k) false

/-- The watches that a home slice holds (R120). -/
def State.watches (s : State) (slice : Nat) : Nat :=
  (s.skeins.filter fun e => match e.2.watch with
    | some w => !w.scratch && !w.hit && homeSlice (128 * w.line) == slice
    | none => false).length

/-- MON (R120, R211, R368). -/
def execMon (c : Ctl) (scratch : Bool) (off : BitVec 24) (a : Opnd) (s : State) : Host.Outcome State Fault Refusal :=
  issue (.mon c scratch off a) s false (fun _ => []) fun x =>
    match x.low with
    | none => x.skeinOnly x.k
    | some l =>
      let v := x.spaceAddr (if scratch then .s else .g) a (sx24 off) l
      let lot := x.k.laneLot l
      let w : Watch :=
        if scratch then ⟨true, lot, v.toNat / 128, v, decide ((x.s.lot lot).alloc ≤ v.toNat)⟩
        else match x.s.xlate x.c x.part v false false with
          | .bad .. => ⟨false, lot, 0, v, true⟩
          | .ok t => ⟨false, lot, t.pa / 128, v, decide (256 ≤ x.s.watches (homeSlice t.pa))⟩
      x.skeinOnly { x.k with watch := some w }

/-- MWAIT (R120, R212): it implies the marker, and waits unless no watch is armed or the watch has triggered. -/
def execMwait (c : Ctl) (s : State) : Host.Outcome State Fault Refusal :=
  issue (.mwait c) s false (fun _ => []) fun x =>
    let waits := x.act != 0 && match x.k.watch with | some w => !w.hit | none => false
    x.finish x.s (if waits then x.waiting x.k fun _ => .mwait else x.advance x.k) true

end Sys2Proof.Machine
end

