-- ==== Sys2Proof/Machine/Sync.lean ====
section
/-! DEFINITION. Execution barriers (R213, R214), barrier objects (R215, R216), timelines (R217, R218), and the waits that end
by themselves once what they wait for holds: BWAIT, TLWT, CPWT and MWAIT (R120, R125, R127, R128). -/

namespace Sys2Proof.Machine

/-! ### Execution barriers -/

/-- BAR (R31, R213): the skein observes the waits of a release at the scope, then every fibre of the batch arrives. -/
def execBar (c : Ctl) (sc : Scope) (s : State) : Host.Outcome State Fault Refusal :=
  issue (.bar c sc) s false (fun _ => []) fun x => x.afterWrites sc fun x =>
    let lots := x.k.lots x.batch
    match sc with
    | .sk => x.finish x.s ((x.waiting x.k fun _ => .bar .sk false).barSk x.s.tick) true
    | .lot =>
      let k := x.k.mapFibres x.batch fun _ f => { f with arrived := f.arrived ||| 1 }
      lots.foldl (fun s n => s.nbarCheck n 0) (x.finish x.s (x.waiting k fun _ => .nbar 0 false) true)
    | _ => lots.foldl (fun s n => s.barCheck n sc) (x.finish x.s (x.waiting x.k fun _ => .bar sc false) true)

/-- NBAR (R214). -/
def execNbar (c : Ctl) (id : BitVec 4) (arv : Bool) (s : State) : Host.Outcome State Fault Refusal :=
  issue (.nbar c id arv) s false (fun _ => []) fun x => x.afterWrites .lot fun x =>
    let k := x.k.mapFibres x.batch fun _ f => { f with arrived := f.arrived ||| BitVec.ofNat 16 (2 ^ id.toNat) }
    (x.k.lots x.batch).foldl (fun s n => s.nbarCheck n id.toNat)
      (x.finish x.s (if arv then x.advance k else x.waiting k fun _ => .nbar id false) true)

/-! ### Barrier objects -/

/-- The access of a barrier-object instruction. -/
def objAccess (die : Bool) (kind : AccKind) : Access :=
  ⟨if die then .d else .s, 16, kind, .plain, if die then .die else .lot, .page, false⟩

/-- The object that a lane names: its lot and offset. -/
def Iss.objAt (x : Iss) (die : Bool) (a : Opnd) (off : BitVec 24) (l : Nat) : Option (Nat × Nat) :=
  let v := x.spaceAddr (if die then .d else .s) a (sx24 off) l
  match x.s.locate x.k (if die then .d else .s) l v 16 with
  | (.scr n o, _) :: _ => some (n, o)
  | _ => none

/-- The distinct objects that the active lanes name, each with the lowest lane naming it, in ascending order of that lane
(R215). -/
def Iss.objects (x : Iss) (die : Bool) (a : Opnd) (off : BitVec 24) : List ((Nat × Nat) × Nat) :=
  ((laneList x.act).foldl (fun (os : List ((Nat × Nat) × Nat)) l => match x.objAt die a off l with
    | some o => if os.any fun e => e.1 == o then os else os ++ [(o, l)]
    | none => os) [])

/-- The rows of every object named have been cleared (R20). -/
def Iss.objsClear (x : Iss) (os : List ((Nat × Nat) × Nat)) : Bool :=
  os.all fun e => (x.s.lot e.1.1).clearedAt e.1.2 16

/-- The precise causes of a barrier-object instruction (R368). -/
def Iss.objHits (x : Iss) (die : Bool) (a : Opnd) (off : BitVec 24) : List Hit :=
  x.spaceHits (objAccess die .atomic) fun l => x.spaceAddr (if die then .d else .s) a (sx24 off) l

/-- A barrier-object instruction changes an object for a lane: its write carries the m of the lane's lot (R123). -/
def Iss.byInstr (x : Iss) (counts : Bool) (l : Nat) : BarBy := ⟨⟨x.s.stampOf (x.k.laneLot l), x.k.wid, true⟩, counts, true⟩

/-- A change of each object that an instruction names (R215); one in `.d` marks the lot (R304). -/
def Iss.changeObjs (x : Iss) (die : Bool) (a : Opnd) (off : BitVec 24) (f : State → Nat → Nat → Nat → State) : State :=
  let os := x.objects die a off
  if !x.objsClear os then x.s
  else
    let y := if die then x.sided false else x
    x.finish (os.foldl (fun s e => f s e.1.1 e.1.2 e.2) y.s) (x.advance x.k) false

/-- BINIT (R215). -/
def execBinit (c : Ctl) (die : Bool) (off : BitVec 24) (a b : Opnd) (s : State) : Host.Outcome State Fault Refusal :=
  issue (.binit c die off a b) s false (fun x => x.objHits die a off) fun x =>
    x.changeObjs die a off fun s n o l =>
      let s := s.updLot n fun lt => { lt with bar0 := lt.bar0.filter fun e => e.1 != o }
      s.barObjPut n o (BitVec.ofNat 128 (bitsOf (x.b32 b l).toNat 0 16 * 2 ^ 80)) (x.byInstr false l)

/-- BARV (R128, R215): a release at the object's scope; no stamp of its lot rises, but its phase publishes the stamp that the arrival carries
(R122). -/
def execBarv (c : Ctl) (die : Bool) (off : BitVec 24) (a : Opnd) (s : State) : Host.Outcome State Fault Refusal :=
  issue (.barv c die off a) s false (fun x => x.objHits die a off) fun x =>
    if !x.objsClear (x.objects die a off) then x.s
    else x.afterWrites (if die then .die else .lot) fun x =>
      x.changeObjs die a off fun s n o l => s.barArrive n o (x.byInstr true l)

/-- BEXP (R215). -/
def execBexp (c : Ctl) (die : Bool) (off : BitVec 24) (a b : Opnd) (s : State) : Host.Outcome State Fault Refusal :=
  issue (.bexp c die off a b) s false (fun x => x.objHits die a off) fun x =>
    x.changeObjs die a off fun s n o l => s.barPending n o ((x.b32 b l).toNat : Int) (x.byInstr false l)

/-- BWAIT (R216): a batch waits for every object that its active lanes name. -/
def execBwait (c : Ctl) (die : Bool) (off : BitVec 24) (a b : Opnd) (s : State) : Host.Outcome State Fault Refusal :=
  issue (.bwait c die off a b) s false (fun x => x.objHits die a off) fun x =>
    let ls := (laneList x.act).filter fun l => (x.objAt die a off l).isSome
    let os := ls.map fun l => (x.objAt die a off l).getD (0, 0)
    let ps := ls.map fun l => (x.op b false l).getLsbD 0
    if !x.objsClear (x.objects die a off) then x.s
    else
      let s := os.foldl (fun s o => s.updLot o.1 fun lt => { lt with marks := insNat lt.marks (o.2 / 16) }) x.s
      x.finish s (if os.isEmpty then x.advance x.k else x.waiting x.k fun _ => .bwait os ps die) true

/-- BTEST (R216): a long-latency read of the object. -/
def execBtest (c : Ctl) (die : Bool) (off : BitVec 24) (d a b : Opnd) (s : State) : Host.Outcome State Fault Refusal :=
  let i := Instr.btest c die off d a b
  issue i s true (fun x => x.objHits die a off) fun x =>
    x.startAccess i (x.spaceAddr (if die then .d else .s) a (sx24 off)) (x.op b false) zeroLane [x.dstOf d]

/-! ### Timelines -/

def tlScope (pod : Bool) : Scope := if pod then .pod else .pkg

/-- A 64-bit operand of a timeline instruction: a pair, or an immediate sign-extended (R218). -/
def Iss.tlOperand (x : Iss) (b : Opnd) (l : Nat) : DWord := x.op b true l

/-- TLWT (R218). -/
def execTlwt (c : Ctl) (pod : Bool) (off : BitVec 24) (a b : Opnd) (s : State) : Host.Outcome State Fault Refusal :=
  let addr := fun (x : Iss) => x.spaceAddr .g a (sx24 off)
  issue (.tlwt c pod off a b) s false (fun x => x.globalHits 4 (addr x)) fun x =>
    let bs := (laneList x.act).map fun l => (addr x l, x.tlOperand b l)
    x.finish x.s (if bs.isEmpty then x.advance x.k else x.waiting x.k fun _ => .tlwt bs pod) true

/-- TLRD (R218). -/
def execTlrd (c : Ctl) (pod : Bool) (off : BitVec 24) (d a : Opnd) (s : State) : Host.Outcome State Fault Refusal :=
  let i := Instr.tlrd c pod off d a
  let addr := fun (x : Iss) => x.spaceAddr .g a (sx24 off)
  issue i s true (fun x => x.globalHits 4 (addr x)) fun x => x.startAccess i (addr x) zeroLane zeroLane (x.dsts d 2)

/-- TLADV (R218): a release at its scope, performed at the home slice; no stamp of its lot rises (R122). -/
def execTladv (c : Ctl) (pod : Bool) (off : BitVec 24) (a b : Opnd) (s : State) : Host.Outcome State Fault Refusal :=
  let i := Instr.tladv c pod off a b
  let addr := fun (x : Iss) => x.spaceAddr .g a (sx24 off)
  issue i s false (fun x => x.globalHits 4 (addr x)) fun x => if x.storeStuck i (addr x) true then x.s
    else x.afterWrites (tlScope pod) fun x => ((x.sided true).counted i (addr x)).storeGlobal i (addr x) (fun l => leBytes (x.tlOperand b l).toNat 8) true

/-! ### Waits that end -/

/-- The sealed batches of a lot that are unfinished: a batch is finished once it and every earlier one has no copy left
(R127). -/
def State.openBatches (s : State) (n : Nat) : Nat :=
  let l := s.lot n
  let left := (amVals s.copies).filter fun c => c.lot == n && c.stage != .done && c.batch < l.batchSeq &&
    (match c.i with | .shape .. => false | _ => true)
  match left.map Copy.batch with
  | [] => 0
  | b :: bs => l.batchSeq - bs.foldl min b

/-- What a wait that ends acquires: its scope with the largest stamp observed; none of them for CPWT, and nothing while it goes on
(R114, R122, R125, R127, R216). -/
def State.waitOver (s : State) (c : Nat) (k : Skein) (w : Wait) : Option (Option (Scope × Nat)) :=
  match w with
  | .bwait os ps die =>
    if (os.zip ps).all fun e => s.phaseIs e.1.1 e.1.2 e.2
    then some (some (if die then .die else .lot, os.foldl (fun m o => max m ((s.lot o.1).published o.2)) 0)) else none
  | .tlwt bs pod =>
    let part := s.partOf (s.lotOf k)
    let vals := bs.map fun b => match s.xlate c part b.1 false false with
      | .ok x => if (s.readCause part x.pa 8).isNone && decide (b.2.toNat ≤ s.tlValue x.pa) then some (s.tlCtx x.pa).pub else none
      | .bad .. => none
    if vals.all Option.isSome then some (some (tlScope pod, (vals.filterMap id).foldl max 0)) else none
  | .cpwt n => if s.openBatches (s.leadOf k.lot) ≤ n then some none else none
  | _ => none

/-- The TLWT of a pair waits once, in the leading lot (R407): the lane of the leading skein has issued it and waits no more. -/
def State.leadPast (s : State) (k : Skein) (w : WaitRec) (l : Nat) : Bool :=
  match s.partnerSkein k with
  | some e => match e.2.fibre l with
    | some f => !(e.2.cmpOk && f.pc == w.pc) && match f.wait with | some v => (match v.w with | .tlwt .. => false | _ => true) | none => true
    | none => true
  | none => true

/-- A wait of CPWT has the L1 effect of an acquire at `.quad` (R127). -/
def Wait.l1Acquire : Wait → Bool
  | .cpwt _ => true
  | _ => false

/-- A block that a TLWT names cannot be read (R368): UNBACKED or HBM_UNCORRECTABLE, in the lanes that name such a block. -/
def State.tlwtLost (s : State) (c : Nat) (k : Skein) (w : WaitRec) : List Cause :=
  match w.w with
  | .tlwt bs _ =>
    let part := s.partOf (s.lotOf k)
    ((laneList w.act).zip bs).foldl (fun zs e => match s.xlate c part e.2.1 false false with
      | .ok x => (match s.readCause part x.pa 8 with
        | some code => if code = 0x39 || code = 0x3D
            then addCause zs { laneFailed w.info e.1 code 255 k.seq e.2.1 with done := w.act &&& ~~~(BitVec.ofNat 64 (2 ^ e.1)) } else zs
        | none => zs)
      | .bad .. => zs) []
  | _ => []

/-- The wait of a lane ends, if it can (that of a trailing lot's TLWT with its leading lot's, R407), and with it that of every lane that
the same instruction left waiting, as one event (R122); the causes of failed copies are delivered at the boundary of their CPWT (R387). -/
def State.endWait (s : State) (c q l : Nat) : State :=
  match s.skein c q with
  | none => s
  | some k => match (k.fibre l).bind Fibre.wait with
    | none => s
    | some w =>
      let m := lanesWhere k.width fun j => match (k.fibre j).bind Fibre.wait with | some v => decide (v = w) | none => false
      let once : Bool := (s.lotOf k).role == .trailing && match w.w with | .tlwt .. => true | _ => false
      let lost := if once then [] else s.tlwtLost c k w
      if once && s.leadPast k w l then s.setSkein c q (k.wake m)
      else if once then s
      else if !lost.isEmpty then (s.setSkein c q (k.wake m)).defer c q lost
      else match s.waitOver c k w.w with
      | none => s
      | some acq =>
        let k' := match acq with | some e => k.acquire e.1 s.tick | none => k
        let k' := if Wait.l1Acquire w.w then { k' with acqTick := s.tick, hb := s.tick } else k'
        let s := s.setSkein c q (k'.wake m)
        let s := match acq with | some e => s.stampLots (k.lots m) fun lt => lt.acquireStamp e.1 e.2 | none => s
        if Wait.l1Acquire w.w && !k.deferred.isEmpty then s.defer c q [] else s

/-- Every wait of a skein whose end has come. -/
def State.endWaits (s : State) (key : Nat) : State :=
  match amGet s.skeins key with
  | none => s
  | some k => if k.park.isSome then s else (laneList k.live).foldl (fun s l => s.endWait (key / 64) (key % 64) l) s

end Sys2Proof.Machine
end

