-- ==== Sys2Proof/Machine/Causes.lean ====
section
/-! DEFINITION. What the engines share: accesses by virtual address (R106, R377, R381, R383), and the delivery of a deferred
engine cause to its issuer, to its lot or to its launch (R385). -/

namespace Sys2Proof.Machine

/-- What an engine access comes to. -/
inductive Eng where
  | wait
  | bad (code : Nat) (poison : Bool)
  | ok (s : State) (bs : List Byte)
  deriving Repr

/-- A piece of memory read by an engine at its home; an access held by the fault buffer waits. -/
def State.engPiece (s : State) (r : AccRef) (u part : Nat) (va : DWord) (n : Nat) : Eng :=
  if s.heldAt r va then .wait
  else match s.xlate u part va false false with
    | .bad .. => .wait
    | .ok x =>
      match s.readCause part x.pa n with
      | some c => .bad c (s.backed part x.pa n && (s.linkCause part x.pa n).isNone)
      | none => .ok ((s.tlbFill u part va x).sliceTouch part x.pa n (x.cache != 2) false) (s.loadBytes x x.pa n)

/-- Bytes read by an engine, piece by piece where they cross a page. -/
def State.engRead (s : State) (r : AccRef) (u part : Nat) (va : DWord) (n : Nat) : Eng :=
  let head := 65536 - va.toNat % 65536
  if n ≤ head then s.engPiece r u part va n
  else match s.engPiece r u part va head with
    | .ok t bs => match t.engPiece r u part (va + BitVec.ofNat 64 head) (n - head) with
      | .ok t cs => .ok t (bs ++ cs)
      | e => e
    | e => e

/-- Bytes of one page written by an engine at their home; a page marked for a snapshot, or an access held by the fault buffer,
waits (R370, R399). -/
def State.engWrite (s : State) (r : AccRef) (u part lot : Nat) (va : DWord) (bs : List Byte) (t : Option Triple) : Eng :=
  if s.heldAt r va then .wait
  else match s.canWrite u part va bs.length with
    | .wait => .wait
    | .bad c d => .bad (if c = 0x41 then d else c) false
    | .ok x =>
      let s := (s.tlbFill u part va x).storeAt part x true bs t
      .ok (if x.peer then s.markSide [lot] true else s) []

/-- A deferred engine cause (R385): it joins those that its skein's next boundary delivers; a lot whose issuer has no live fibre
fails; of a lot that has retired it is recorded against the launch, which ends failed. -/
def State.engineCause (s : State) (c q n : Nat) (z : Cause) : State :=
  let l := s.lot n
  let recorded := fun (s : State) =>
    match l.status with
    | .retired => ((s.updLaunch l.launch fun ln => { ln with failed := some (ln.failed.getD z.code), stop := true }).giveUp l.launch
        fun code => code).recordFailure n z.code 0 0
    | .failed .. => s.secondFault n z.code (List.replicate 2048 0)
    | .flushed => s
    | .saved => (match ((amGet s.saved n).map Saved.skeins).getD [] |>.find? fun e => e.1 == q && e.2.live != 0 with
      | some _ => { s with saved := amMap (fun k (v : Saved) => if k == n then { v with skeins := v.skeins.map fun e =>
          if e.1 == q then (e.1, { e.2 with deferred := joinDeferred e.2.deferred z }) else e } else v) s.saved }
      | none => s.failLot n z.code 0)
    | _ => s.failLot n z.code 0
  match s.skein c q with
  | some k =>
    if k.live != 0 && (s.lot k.lot).launch == l.launch && l.resident then
      (s.setSkein c q { k with deferred := joinDeferred k.deferred z }).atRelease c q
    else recorded s
  | none => recorded s

/-- The deferred cause of one lane of an engine command. -/
def laneCause (i : IssueInfo) (lane order code detail : Nat) (va : DWord) (tl : List (Nat × Nat × Nat)) : Cause :=
  ⟨i, code, detail, BitVec.ofNat 64 (2 ^ lane), i.act &&& ~~~(BitVec.ofNat 64 (2 ^ lane)), va, true, none, order, tl⟩

end Sys2Proof.Machine
end

