-- ==== Sys2Proof/Machine/Matrix.lean ====
section
/-! DEFINITION. The issue of the matrix instructions (R250 to R258): tiles and their exact checksums (R235, R244), the operands
of an MMA and their checks at issue (R237, R389), and the commands that enter the engine (R241). -/

namespace Sys2Proof.Machine

/-! ### Checksums -/

/-- A dyadic as a count of units of 2^-300 (R235); every value that a checksum takes is one. -/
def unitsOfDy (x : Int × Int) : Int := if -300 ≤ x.2 then x.1 * 2 ^ (x.2 + 300).toNat else x.1 / 2 ^ (-300 - x.2).toNat

/-- The value of an element in checksum units; none when it is infinite or NaN (R244). -/
def elemUnits (int : Bool) (v : Word) : Option Int :=
  if int then some v.toInt
  else match decodeF .f32 v.toNat with
    | .fin n m e => some (unitsOfDy (FVal.fin n m e).dy)
    | _ => none

def addUnits (m : AMap Int) (i : Nat) (x : Int) : AMap Int :=
  let v := (amGet m i).getD 0 + x
  if v = 0 then amErase m i else amPut m i v

/-- rsum[i] and csum[j] take an addition; one that is infinite or NaN excludes row and column (R235, R245). -/
def Tile.addSums (t : Tile) (i j : Nat) (x : Option Int) : Tile :=
  match x with
  | some d => { t with rsum := addUnits t.rsum i d, csum := addUnits t.csum j d }
  | none => { t with rex := insNat t.rex i, cex := insNat t.cex j }

/-- An element loaded by MLDA, with the checksums adjusted by new − old in the mode of the instruction (R245, R253). -/
def Tile.loadElem (int : Bool) (t : Tile) (i j : Nat) (v : Word) : Tile :=
  let d := match elemUnits int v, elemUnits int (t.elem i j) with
    | some a, some b => some (a - b)
    | _, _ => none
  (t.addSums i j d).setElem i j v

/-- The tile that MZERO leaves (R252). -/
def zeroTile (int : Bool) : Tile := { defaultTile with int := int }

/-- n of a fragment instruction (R251). -/
def fragCount (n : BitVec 2) : Nat := 2 ^ n.toNat

/-- Row and column of lane l of fragment f (R251). -/
def fragPlace (f l : Nat) : Nat × Nat := (f / 4, 32 * (f % 4) + l)

/-! ### Operands of an MMA -/

/-- Stored bytes per row per k-step (R234). -/
def rowBytes (t : Fmt) (packed : Bool) : Nat := if t == .e2m1 && packed then 256 else 192

/-- The alignment that base and stride need in a format (R237). -/
def operandAlign (e2m1 packed : Bool) : Nat := if e2m1 then (if packed then 256 else 32) else 16

/-- The base of an operand block or the bytes of a stride register (R255). -/
structure MmaVals where
  baseA : DWord
  baseB : DWord
  strideA : Nat
  strideB : Nat
  deriving DecidableEq, Repr, Inhabited

/-- The register operands of an MMA in a lane (R255). -/
def Iss.mmaVals (x : Iss) (a b : Opnd) (l : Nat) : MmaVals :=
  let w : Nat → Word := fun j => match a with
    | .vec i => x.k.vlane (i.toNat + x.ixAdd false + j) l
    | .scl i => x.k.scalar (i.toNat + j)
    | _ => 0
  let v := (x.b32 b l).toNat
  ⟨pairOf (w 0) (w 1), pairOf (w 2) (w 3), 16 * (v % 65536), 16 * (v / 65536)⟩

/-- The page of a global operand gives its alignment: TYPE leaves the format to it, or the geometry of E2M1 (R237). -/
def MmaX.byPage (x : MmaX) (src : Bool) : Bool := src && (x.t == .raw || x.t == .e2m1)

/-- The check of one operand at issue (R237, R389), with the format of its page where that is needed: DETAIL 0 or 1. -/
def operandCheck (alloc : Nat) (x : MmaX) (src : Bool) (pf : Option PageFmt) (base : DWord) (stride : Nat) : Option Nat :=
  let al := match pf with
    | some f => operandAlign (x.t == .e2m1 || f.fmt == 7) (f.fmt == 7 && f.geo == 1)
    | none => operandAlign (x.t == .e2m1) (x.pkd && !src)
  let b := if src then base.toNat else (loOf base).toNat
  if b % al != 0 || stride % al != 0 then some 0
  else if !src && decide (alloc < b + 127 * stride + (x.km1.toNat + 1) * rowBytes x.t x.pkd) then some 1 else none

/-- The at-issue check of an MMA (R389), with the formats of its operands' pages: the DETAIL of MATRIX_OPERAND. -/
def mmaCheck (alloc : Nat) (x : MmaX) (pa pb : Option PageFmt) (v : MmaVals) : Option Nat :=
  let a := operandCheck alloc x x.ag pa v.baseA v.strideA
  let b := operandCheck alloc x x.bg pb v.baseB v.strideB
  let obj := match x.bobj with | some o => decide (alloc < 16 * o.toNat + 16) | none => false
  if a == some 0 || b == some 0 then some 0
  else if a == some 1 || b == some 1 || obj then some 1
  else if (x.pkd && x.t != .e2m1) || (x.t == .raw && (!x.ag || !x.bg)) then some 2 else none

/-! ### Pages that an instruction names before it can be checked (R376, R389) -/

/-- Those of some addresses whose page has no translation, nor a refused fault of this instruction. -/
def Iss.missing (x : Iss) (vas : List DWord) : List DWord :=
  vas.filter fun va => match x.s.xlate x.c x.part va false false with
    | .ok _ => false
    | .bad .. => !x.k.lost.any fun e => e.1 == va.toNat / 65536

/-- The instruction waits at its address for those pages (R370). -/
def Iss.asking (x : Iss) (vas : List DWord) : State := x.s.setSkein x.c x.q { x.k with asks := x.missing vas }

/-- The cause and the DETAIL of the refused fault on the page of one of some addresses, with that address. -/
def Iss.refused (x : Iss) (vas : List DWord) : Option (Nat × Nat × DWord) :=
  vas.findSome? fun va => (x.k.lost.find? fun e => e.1 == va.toNat / 65536).map fun e => (e.2.1, e.2.2, va)

/-- The operand bases of an MMA whose pages its check at issue reads (R389). -/
def MmaX.bases (x : MmaX) (v : MmaVals) : List DWord :=
  (if MmaX.byPage x x.ag then [v.baseA] else []) ++ if MmaX.byPage x x.bg then [v.baseB] else []

/-- The format of the page of an operand, where its alignment follows from it. -/
def Iss.pageFmt (x : Iss) (m : MmaX) (src : Bool) (base : DWord) : Option PageFmt :=
  if MmaX.byPage m src then match x.s.xlate x.c x.part base false false with | .ok t => some t.fmt | .bad .. => none else none

/-- The at-issue check of an MMA whose pages are known. -/
def Iss.mmaDetail (x : Iss) (m : MmaX) (v : MmaVals) : Option Nat :=
  mmaCheck x.lot.alloc m (x.pageFmt m m.ag v.baseA) (x.pageFmt m m.bg v.baseB) v

/-! ### Commands -/

/-- A command that enters the engine of a core (R241). -/
def State.enterMtx (s : State) (c : Nat) (m : MCmd) : State :=
  s.updCore c fun u => { u with cmds := u.cmds ++ [{ m with entry := u.entry }], entry := u.entry + 1 }

def Iss.mcmd (x : Iss) (tile : Nat) (kind : MKind) : MCmd :=
  { entry := 0, iq := x.q % 4, slot := x.q, lot := x.k.lot, order := x.k.seq, info := x.info, lanes := x.act, tile, kind, started := false
    est := none, bad := none, charged := false, arrived := false, stopReq := false, rowsA := [], rowsB := [], buf := []
    stamp := x.s.stampOf (x.k.laneLot (x.low.getD 0)), wid := x.k.wid, fmt := 0, shortSince := none }

/-- The command of an MMA; one that names a page whose fault was refused has failed before its first fetch (R389). -/
def Iss.mmaCmd (x : Iss) (m : MmaX) (v : MmaVals) : MCmd :=
  let e := x.mcmd m.tile.toNat (.mma ⟨m, m.km1.toNat + 1, v.baseA, v.baseB, v.strideA, v.strideB⟩)
  match x.refused (MmaX.bases m v) with
  | some (code, _, _) => { e with bad := some (0x65, code), est := some 0 }
  | none => e

/-- A matrix command without a result issues: with no active lane it enters nothing (R250), and of a pair only the leading lot's enters
(R407). -/
def Iss.enter (x : Iss) (m : MCmd) : State :=
  let s := x.finish x.s (x.advance { x.k with seq := x.k.seq + 1 }) false
  if x.act == 0 || x.lot.role == .trailing then s else s.enterMtx x.c m

/-- MZERO (R252). -/
def execMzero (c : Ctl) (int : Bool) (tile : BitVec 2) (s : State) : Host.Outcome State Fault Refusal :=
  issue (.mzero c int tile) s false (fun _ => []) fun x => x.enter (x.mcmd tile.toNat (.zero int))

/-- MATRIX_FRAGMENT: the fragments run past 511 (R251, R385). -/
def Iss.fragHits (x : Iss) (o : Opnd) (isA : Bool) (n : Nat) : List Hit :=
  match x.low with
  | some l =>
    let f := (if isA then x.a32 o l else x.b32 o l).toNat
    if 511 < f + n - 1 then [⟨0x66, 255, x.act, 0⟩] else []
  | none => []

/-- MLDA (R253). -/
def execMlda (c : Ctl) (int : Bool) (tile n : BitVec 2) (a b : Opnd) (s : State) : Host.Outcome State Fault Refusal :=
  issue (.mlda c int tile n a b) s false (fun x => x.fragHits b false (fragCount n)) fun x =>
    let f := match x.low with | some l => (x.b32 b l).toNat | none => 0
    let r := match a with | .vec i => i.toNat + x.ixAdd false | _ => 0
    let vals := (List.range (fragCount n)).map fun e => (List.range 32).map fun l => x.k.vlane (r + e) l
    x.enter (x.mcmd tile.toNat (.lda int f (fragCount n) x.act vals))

/-- MSTA (R254): its result returns when the engine runs it. -/
def execMsta (c : Ctl) (tile n : BitVec 2) (d a : Opnd) (s : State) : Host.Outcome State Fault Refusal :=
  let i := Instr.msta c tile n d a
  issue i s true (fun x => x.fragHits a true (fragCount n)) fun x =>
    let f := match x.low with | some l => (x.a32 a l).toNat | none => 0
    let p := x.pending i zeroLane zeroLane zeroLane (x.dsts d (fragCount n))
    let s := x.issuePend p
    x.orForward i p (if x.act == 0 then s else s.enterMtx x.c (x.mcmd tile.toNat (.sta f (fragCount n) x.act x.k.seq)))

/-- MMA (R255, R389). -/
def execMma (c : Ctl) (m : MmaX) (a b : Opnd) (s : State) : Host.Outcome State Fault Refusal :=
  let vals := fun (x : Iss) => x.mmaVals a b (x.low.getD 0)
  let waits := fun (x : Iss) => x.act != 0 && !(x.missing (MmaX.bases m (vals x))).isEmpty
  issue (.mma c m a b) s false
    (fun x => if x.act == 0 || waits x then [] else match x.mmaDetail m (vals x) with
      | some d => [⟨0x65, d, x.act, 0⟩]
      | none => [])
    fun x => if waits x then x.asking (MmaX.bases m (vals x)) else x.enter (x.mmaCmd m (vals x))

/-- MCKPT (R242, R257): its lanes read the checkpoint together when it reaches the engine. -/
def execMckpt (c : Ctl) (tile : BitVec 2) (d a : Opnd) (s : State) : Host.Outcome State Fault Refusal :=
  let i := Instr.mckpt c tile d a
  issue i s true (fun x => hitOn 0x67 255 (x.failing fun l => decide (16640 < (x.a32 a l).toNat)) fun _ => 0) fun x =>
    let p := x.pending i zeroLane (x.opA a false) zeroLane (x.dsts d 2)
    x.orForward i p (x.issuePend p)

/-- LEVEL after every refill that has come due: one at each tick that is a multiple of 512 (R248). -/
def Core.refill (k : Core) (tick rate : Nat) : Core :=
  { k with level := min levelCap (k.level + rate * (tick / 512 - k.refilled)), refilled := max k.refilled (tick / 512) }

/-- MBUD (R258). -/
def execMbud (c : Ctl) (d : Opnd) (s : State) : Host.Outcome State Fault Refusal :=
  let i := Instr.mbud c d
  issue i s true (fun _ => []) fun x =>
    let u := (x.s.core x.c).refill x.s.tick (x.s.rate x.part)
    let w := x.s.rate x.part % 256 + u.lastT % 256 * 2 ^ 8 + if u.level < 255 then 2 ^ 16 else 0
    x.orForward i (x.pending i zeroLane zeroLane zeroLane [])
      (x.pendValues i (x.longWrites true (x.dstOf d) x.act fun _ => pairOf (BitVec.ofNat 32 u.level) (BitVec.ofNat 32 w)) 0)

end Sys2Proof.Machine
end

