-- ==== Sys2Proof/Machine/Skeins.lean ====
section
/-! DEFINITION. Device events of skeins and of a core's load and store path: the REGRP shuffle (R33 to R37), releases of
execution barriers (R31), returns (R55), stalls and slot switches (R143, R297), releases that waited (R115), the clearing and
the handing over of rows (R20, R89), acknowledgements (R116), triggered monitors (R120) and parked traps (R347). An event whose
condition does not hold changes nothing. -/

namespace Sys2Proof.Machine

/-! ### The live map (R58, R326) -/

/-- The ranges of an entry of the live table, read at its virtual address. -/
def State.liveRanges (s : State) (c part tbl ent : Nat) : Option (List (Nat × Nat)) :=
  match s.getVirtual c part (BitVec.ofNat 64 ent) 8 with
  | none => none
  | some bs =>
    match s.getVirtual c part (BitVec.ofNat 64 (tbl + partNat bs 5 3)) (2 * partNat bs 4 1) with
    | none => none
    | some rs => some ((List.range (partNat bs 4 1)).map fun i => (partNat rs (2 * i) 1, partNat rs (2 * i + 1) 1))

/-- The entry of a PC in a kernel's live table. -/
def State.liveEntry (s : State) (c : Nat) (ln : Launch) (pc : DWord) : Option (List (Nat × Nat)) :=
  let off := (pc - BitVec.ofNat 64 (ln.code - ln.entryOff)).toNat
  let tbl := ln.liveTable
  match s.getVirtual c ln.part (BitVec.ofNat 64 tbl) 4 with
  | none => none
  | some bs =>
    match (List.range (leNat bs)).find? fun i =>
        match s.getVirtual c ln.part (BitVec.ofNat 64 (tbl + 4 + 8 * i)) 4 with
        | some e => leNat e == off
        | none => false with
    | some i => s.liveRanges c ln.part tbl (tbl + 4 + 8 * i)
    | none => none

/-- Register v is live by an entry; a PC without an entry counts the whole window (R58). -/
def liveIn (e : Option (List (Nat × Nat))) (v : Nat) : Bool :=
  match e with
  | some rs => rs.any fun r => r.1 ≤ v && v ≤ r.2
  | none => true

/-! ### REGRP (R33 to R37) -/

/-- A fibre that arrived at REGRP: its key, its old place, and the live-map entry of the REGRP that it executed. -/
structure Mover where
  key : Nat
  slot : Nat
  lane : Nat
  fibre : Fibre
  live : Option (List (Nat × Nat))
  deriving Repr, Inhabited

/-- Inserted behind those with the same or a lower key: a stable order. -/
def insMover : List Mover → Mover → List Mover
  | [], m => [m]
  | x :: xs, m => if x.key ≤ m.key then x :: insMover xs m else m :: x :: xs

/-- The sizes of the runs of equal keys. -/
def runSizes : List Mover → List (Nat × Nat)
  | [] => []
  | m :: ms => match runSizes ms with
    | (k, n) :: rs => if k = m.key then (k, n + 1) :: rs else (m.key, 1) :: (k, n) :: rs
    | [] => [(m.key, 1)]

def ceil32 (n : Nat) : Nat := (n + 31) / 32

/-- Skeins for the first j groups key by key and the rest packed densely (R34). -/
def uniformNeed (sizes : List Nat) (j : Nat) : Nat :=
  ((sizes.take j).map ceil32).foldl (· + ·) 0 + ceil32 ((sizes.drop j).foldl (· + ·) 0)

/-- The largest j that fits. -/
def largestFit (sizes : List Nat) (slots : Nat) : Nat → Nat
  | 0 => 0
  | j + 1 => if uniformNeed sizes (j + 1) ≤ slots then j + 1 else largestFit sizes slots j

/-- The places of the fibres in their order: the group g that a fibre belongs to, the position and the next lane (R34). -/
def placeAll (j : Nat) : List Mover → Nat → Nat → Nat → Option Nat → List (Nat × Nat × Mover)
  | [], _, _, _, _ => []
  | m :: ms, g, pos, ln, prev =>
    let first := prev != some m.key
    let g := if first && prev.isSome then g + 1 else g
    let (pos, ln) := if first && g ≤ j && ln != 0 then (pos + 1, 0) else (pos, ln)
    let (pos, ln) := if ln = 32 then (pos + 1, 0) else (pos, ln)
    (pos, ln, m) :: placeAll j ms g pos (ln + 1) (some m.key)

/-- The next writer id; 0 is never assigned (R378). -/
def State.nextWid (s : State) : State × BitVec 20 :=
  let n := s.widCtr % (2 ^ 20 - 1) + 1
  ({ s with widCtr := n }, BitVec.ofNat 20 n)

/-- The fibres of a domain that a shuffle moves, sorted by key, old skein and old lane (R34). -/
def State.movers (s : State) (h : Shuffle) (ks : List (Nat × Skein)) : List Mover :=
  let all := ks.flatMap fun e => (laneList e.2.live).filterMap fun l =>
    match e.2.fibre l with
    | some f => match f.wait with
      | some w => match w.w with
        | .regrp key => some (⟨key.toNat, e.1 % 64, l, f, s.liveEntry h.core (s.launch h.launch) w.pc⟩ : Mover)
        | _ => none
      | none => none
    | none => none
  all.foldl insMover []

/-- A register of a new skein from the values that its fibres carry (R35). -/
def carried (old : Nat → Option Skein) (live : BitVec 32) (ms : List (Nat × Nat × Mover)) (v : Nat) : Reg :=
  let mine := ms.filter fun e => liveIn e.2.2.live v
  if mine.isEmpty then .u 0
  else classify live fun l => match mine.find? fun e => e.2.1 == l with
    | some e => match old e.2.2.slot with
      | some k => k.vlane v e.2.2.lane
      | none => 0
    | none => 0

/-- The REGRPs at which the fibres of a new skein parked, each with its lanes (R59). -/
def marksOf (ms : List (Nat × Nat × Mover)) : List (DWord × Lanes) :=
  ms.foldl (fun z e => match e.2.2.fibre.wait with
    | some w =>
      let m : Lanes := BitVec.ofNat 64 (2 ^ e.2.1)
      if z.any fun a => a.1 == w.pc then z.map fun a => if a.1 == w.pc then (a.1, a.2 ||| m) else a else z ++ [(w.pc, m)]
    | none => z) []

/-- The new skein of a slot (R35): what its fibres carry, and what every new skein of the domain takes. -/
def newSkein (k : Skein) (old : Nat → Option Skein) (ms : List (Nat × Nat × Mover)) (low : Skein) (uni idem : Bool)
    (acq tick : Nat) (flags : BitVec 5) (wid : BitVec 20) : Skein :=
  let live : BitVec 32 := ms.foldl (fun m e => m ||| BitVec.ofNat 32 (2 ^ e.2.1)) 0
  let lanes := (List.range 32).map fun l =>
    (ms.find? fun e => e.2.1 == l).map fun e => { e.2.2.fibre with wait := none, susp := none }
  let regs := (List.range k.window).foldl (fun m v => match carried old live ms v with
    | .u 0 => m
    | r => amPut m (2 * v) r) ([] : AMap Reg)
  ({ k with lanes := lanes, regs := regs, scalars := low.scalars, gens := low.gens, vx := 0, lanepart := 32,
            rguniform := uni, idem := idem, fflags := flags, acqTick := acq, hb := tick, oMax := 0, wid := wid, passes := [], gates := [],
            cur := none, park := none, deferred := [], bad := [], marks := marksOf ms, noFetch := [], asks := [], lost := [], halfSt := 0
            pend := [], trap := none, relWait := none } : Skein).select

/-- The skein slots that take part in a shuffle: those of its lots, and those that members which have failed left to the domain (R33, R363). -/
def State.shuffled (s : State) (h : Shuffle) : List (Nat × Skein) :=
  (s.domainSkeins h.core h.launch).filter fun e => h.lots.contains e.2.lot || !(s.lotOf e.2).resident

/-- REGRP_SHUFFLE_DONE (R34 to R36). -/
def State.shuffleDone (s : State) (h : Shuffle) : State :=
  let ks := s.shuffled h
  let old := fun (q : Nat) => (ks.find? fun e => e.1 % 64 == q).map Prod.snd
  let ms := s.movers h ks
  let sizes := (runSizes ms).map Prod.snd
  let j := largestFit sizes ks.length sizes.length
  let placed := placeAll j ms 0 0 0 none
  let low := match ks with | e :: _ => e.2 | [] => default
  let idem := ks.all fun e => e.2.idem
  let acq := ks.foldl (fun m e => max m e.2.acqTick) 0
  let flags := ks.foldl (fun (m : BitVec 5) e => m ||| e.2.fflags) 0
  let checked := (s.launch h.launch).isChecked
  let t := (ks.zip (List.range ks.length)).foldl (fun s e =>
    let (s, wid) := if checked then s.nextWid else (s, e.1.2.wid)
    (s.setSkein h.core (e.1.1 % 64)
      (newSkein e.1.2 old (placed.filter fun p => p.1 == e.2) low (j == sizes.length) idem acq s.tick flags wid)).dropLatch
      h.core (e.1.1 % 64) (List.range e.1.2.window))
    { s with shuffles := s.shuffles.filter fun x => x != h }
  let moved := ((List.range ks.length).map fun pos => ((List.range low.window).filter fun v =>
    placed.any fun p => p.1 == pos && liveIn p.2.2.live v).length).foldl (· + ·) 0
  let t := (t.count (coreCounter h.core 5) 1).count (coreCounter h.core 6) (64 + (moved + 1) / 2)
  if idem then t else h.lots.foldl (fun s n => s.updLot n fun l => { l with idemr := true }) t

/-- A word that the shuffle carries has more flipped bits than ECC corrects (R363, R364): a live register or the predicate word of a
moving fibre, or a scalar of the skein whose scalars all take. -/
def State.carriesBad (s : State) (h : Shuffle) : Bool :=
  let ks := s.shuffled h
  let ms := s.movers h ks
  let two := fun (k : Skein) (p : Nat × Nat × Word → Bool) => k.bad.any fun b => decide (2 ≤ ones b.2.2) && p b
  (ks.any fun e => two e.2 fun b => ms.any fun m => m.slot == e.1 % 64 && m.lane == b.2.1 &&
    (b.1 == 512 || (decide (b.1 < e.2.window) && liveIn m.live b.1))) ||
    match ks with | e :: _ => two e.2 fun b => decide (256 ≤ b.1 ∧ b.1 < 512) | [] => false

/-- The cause of an uncorrectable word of the staging copy in a skein of the domain (R363). -/
def stagingCause (k : Skein) : Cause :=
  let info := ((laneList k.live).findSome? fun l => ((k.fibre l).bind Fibre.wait).map WaitRec.info).getD default
  ⟨{ info with act := k.live, batch := k.live }, 0x14, 255, k.live, 0, 0, true, none, k.seq, []⟩

/-- An uncorrectable word of the staging copy (R363): REG_UNCORRECTABLE is raised in every skein of the domain, and every lot of it
fails, with the frame of its first skein, or where that cannot be written as R353 says. -/
def State.domainBad (s : State) (h : Shuffle) : State :=
  let ks := (s.shuffled h).filter fun e => e.2.live != 0
  let t := ks.foldl (fun (t : State) e => (t.putFrame h.core (e.1 % 64) e.2 (stagingCause e.2)).getD t)
    { s with shuffles := s.shuffles.filter fun x => x != h }
  h.lots.foldl (fun t n =>
    if !(t.lot n).resident then t
    else match ks.find? fun e => (laneList e.2.live).any fun l => e.2.laneLot l == n with
      | some e => if (s.putFrame h.core (e.1 % 64) e.2 (stagingCause e.2)).isSome
          then t.failLot n 0x14 (s.frameVa (s.partOf (s.lot n)) h.core (e.1 % 64)) else t.failLot n 0x2F 0
      | none => t.failLot n 0x14 0) t

def execRegrpShuffleDone (core launch : Nat) (s : State) : Host.Outcome State Fault Refusal :=
  match s.shuffles.find? fun h => h.core == core && h.launch == launch with
  | some h => .next (if s.carriesBad h then s.domainBad h else s.shuffleDone h)
  | none => .next s

/-! ### Releases of execution barriers (R31) -/

/-- A fibre whose wait, or interrupted wait, satisfies a test waits no more. -/
def Fibre.release (f : Fibre) (p : Wait → Bool) : Fibre :=
  { f with wait := f.wait.filter fun w => !p w.w, susp := f.susp.filter fun w => !p w.w }

def Fibre.waitsFor (f : Fibre) (p : Wait → Bool) : Bool :=
  (f.wait.any fun w => p w.w) || f.susp.any fun w => p w.w

/-- The fibres of some lots that a completed barrier holds go on, and their skeins acquire at its scope (R31, R114). -/
def State.releaseBar (s : State) (keys : Nat → Bool) (lots : Nat → Bool) (x : Scope) (p : Wait → Bool) : State :=
  { s with skeins := amMap (fun key k =>
      let m := lanesWhere k.width fun l => match k.fibre l with
        | some f => keys key && lots f.lot && f.waitsFor p
        | none => false
      if m == 0 then k else ((k.mapFibres m fun _ f => f.release p).acquire x s.tick).reselect) s.skeins }

/-- When a fibre arrived at a barrier that it waits at. -/
def Fibre.arrivedAt (f : Fibre) (p : Wait → Bool) : Nat :=
  max (match f.wait with | some w => if p w.w then w.since else 0 | none => 0)
    (match f.susp with | some w => if p w.w then w.since else 0 | none => 0)

/-- The release once its clocks have passed since the last arrival (R31). -/
def State.releaseAfter (s : State) (d : Nat) (keys : Nat → Bool) (lots : Nat → Bool) (x : Scope) (p : Wait → Bool) : State :=
  let last := s.skeins.foldl (fun m e => if keys e.1 then e.2.lanes.foldl (fun m o => match o with
    | some f => if lots f.lot then max m (f.arrivedAt p) else m
    | none => m) m else m) 0
  if last + d ≤ s.tick then s.releaseBar keys lots x p else s

/-- BARRIER_RELEASE (R31): at the next issue opportunity, or 8, 24 or 96 clocks after the last arrival. -/
def execBarrierRelease (b : BarRef) (s : State) : Host.Outcome State Fault Refusal :=
  match b with
  | .skein c q => .next (s.releaseAfter 0 (· == skKey c q) (fun _ => true) .sk (· == .bar .sk true))
  | .lot n id => .next (s.releaseAfter 8 (fun _ => true) (· == n) .lot (· == .nbar id true))
  | .quad n => .next (s.releaseAfter 24 (fun _ => true) (s.barLots n .quad).contains .quad (· == .bar .quad true))
  | .die n => .next (s.releaseAfter 96 (fun _ => true) (s.barLots n .die).contains .die (· == .bar .die true))

/-! ### Returns, stalls and slot switches -/

/-- The skein is parked, every result of it has returned, and causes are to be delivered. -/
def Skein.mustTrap (k : Skein) : Bool :=
  (k.pend.all fun p => p.returned) &&
    match k.park with
    | some (.raise _) => true
    | some _ => !k.deferred.isEmpty || k.pend.any fun p => !p.causes.isEmpty
    | none => false

/-- The boundary that a return reaches; where causes wait for it, TRAP_DELIVER delivers them. -/
def State.returned (s : State) (c q : Nat) : State :=
  match s.skein c q with
  | some k => if k.mustTrap then s else s.boundary c q
  | none => s

/-- LONG_LATENCY_RETURN (R55): accesses of some lanes are performed, and a complete result stands in the return buffer. -/
def execLongLatencyReturn (c q seq : Nat) (s : State) : Host.Outcome State Fault Refusal :=
  match s.pendOf c q seq with
  | some p => if p.returned || 512 ≤ c || 64 ≤ q then .next s
      else .next ((((s.goOn c q seq).tryLanes c q seq (ascending p.i) (ascending p.i) (s.lanesNow p)).finishPend c q seq).returned c q)
  | none => .next s

/-- TRAP_DELIVER (R347). -/
def execTrapDeliver (c q : Nat) (s : State) : Host.Outcome State Fault Refusal :=
  match s.skein c q with
  | some k => .next (if k.mustTrap then s.boundary c q else s)
  | none => .next s

/-- STALL_EXPIRY (R143). -/
def execStallExpiry (c q : Nat) (s : State) : Host.Outcome State Fault Refusal :=
  .next (s.updSkein c q fun k => if k.stallTo ≤ s.tick then { k with stallTo := 0 } else k)

/-- The one of two skeins that has waited longer since its last issue, the lower slot among equals (R297). -/
def longerWait (a b : Nat × Skein) : Nat × Skein :=
  match a.2.lastIssue, b.2.lastIssue with
  | none, _ => a
  | some _, none => b
  | some x, some y => if x ≤ y then a else b

/-- ISSUE_SLOT_SWITCH (R297): the slot turns to the issuable skein that has waited longest. -/
def execIssueSlotSwitch (c iq : Nat) (s : State) : Host.Outcome State Fault Refusal :=
  let stays := match (((s.core c).iq[iq]?).getD default).cur with
    | some q => s.canIssue c q
    | none => false
  let can := s.skeins.filter fun e => e.1 / 64 == c && e.1 % 4 == iq && s.canIssue c (e.1 % 64)
  match stays, can with
  | false, e :: es =>
    let q := (es.foldl longerWait e).1 % 64
    .next (s.updCore c fun u => { u with iq := u.iq.mapIdx fun i x => if i == iq then { x with cur := some q, run := 0 } else x })
  | _, _ => .next s

/-- RELEASE_WAIT_DONE (R115): the skein may issue its release again. -/
def execReleaseWaitDone (c q : Nat) (s : State) : Host.Outcome State Fault Refusal :=
  match s.skein c q with
  | some k => match k.relWait with
    | some r => .next (if s.releaseReady c q r.scope then (s.throughFor r.scope).setSkein c q { k with relWait := none } else s)
    | none => .next s
  | none => .next s

/-! ### Rows, acknowledgements and monitors -/

/-- ALLOCATION_CLEAR (R20): two rows a clock. -/
def execAllocationClear (n : Nat) (s : State) : Host.Outcome State Fault Refusal :=
  .next (s.updLot n fun l => if l.resident then { l with cleared := min l.rows (l.cleared + 2) } else l)

/-- A line of L1 holds store data whose write has not been acknowledged (R89). -/
def State.lineDirty (s : State) (c line : Nat) : Bool :=
  (s.core c).stores.any fun p => plainStore p.i && (laneList p.left).any fun l => (p.pieces l).any fun e => match e.1 with
    | .glob va => (match s.xlate c (s.partOf (s.lot p.lot)) va true false with | .ok x => x.pa / 128 == line | .bad .. => false)
    | .scr .. => false

/-- CARVE_OUT_HANDOVER (R89): the rows that end lowest change hands once no line in them is dirty and two rows a clock have been dropped;
the lines in them are gone. -/
def execCarveOutHandover (c : Nat) (s : State) : Host.Outcome State Fault Refusal :=
  let u := s.core c
  match u.hands with
  | (rows, t) :: rest =>
    if decide (s.tick < t) || u.l1.any fun e => decide (e.2.row < rows) && s.lineDirty c e.1 then .next s
    else .next (s.setCore c { u with carve := max u.carve rows, hands := rest, l1 := u.l1.filter fun e => decide (rows ≤ e.2.row) })
  | [] => .next s

/-- STORE_ACK (R116): the lanes of a store on one line are performed at its home, which line first is open; those that go in ascending
order one at a time. -/
def execStoreAck (c seq : Nat) (s : State) : Host.Outcome State Fault Refusal :=
  match (s.core c).stores.find? fun p => p.seq == seq with
  | none => .next s
  | some p =>
    let ls := laneList p.left
    let line := fun (l : Nat) => ((p.addrs[l]?).getD 0).toNat / 128
    if ascendingStore p.i then .next (s.ackLanes c seq true ls)
    else match ls[Config.pick s.choices 3 % ls.length]? with
      | some x => .next (s.ackLanes c seq false (ls.filter fun l => line l == line x))
      | none => .next (s.ackLanes c seq false [])

/-- MONITOR_TRIGGER (R120): a triggered watch lets MWAIT return. -/
def execMonitorTrigger (c q : Nat) (s : State) : Host.Outcome State Fault Refusal :=
  .next (s.updSkein c q fun k =>
    if k.watch.all fun w => w.hit then
      k.wake (lanesWhere k.width fun l => match k.fibre l with
        | some f => f.wait.any fun w => w.w == .mwait
        | none => false)
    else k)

end Sys2Proof.Machine
end

