-- ==== Sys2Proof/Machine/MatrixRun.lean ====
section
/-! DEFINITION. The run of the matrix engine: eligible commands (R241), the tile fetch (R237, R238, R389), the toggle estimate
(R247), the k-step (R240), the budget (R248, R249), residuals (R244, R246, R390), and the tile commands (R252 to R254). -/

namespace Sys2Proof.Machine

/-! ### Commands -/

def Core.cmd (k : Core) (entry : Nat) : Option MCmd := k.cmds.find? fun m => m.entry == entry
def State.dropCmd (s : State) (c : Nat) (m : MCmd) : State :=
  s.updCore c fun k => { k with cmds := k.cmds.filter fun e => e.entry != m.entry }

/-- The head of its slot's queue, with no unfinished command on its tile that entered earlier (R241). -/
def Core.eligible (k : Core) (m : MCmd) : Bool :=
  k.cmds.all fun e => m.entry ≤ e.entry || (e.iq != m.iq && e.tile != m.tile)

/-- The eligible MMA heads, in entry order; while one stops for a save none is started (R243). -/
def Core.heads (k : Core) : List MCmd :=
  if k.cmds.any MCmd.stopReq then [] else k.cmds.filter fun m => m.mma?.isSome && k.eligible m

/-! ### Operands (R237, R238, R389) -/

/-- What becomes of a part of an operand's fetch: a value, unless it waits or is refused with this DETAIL. -/
inductive Fetch (α : Type) where
  | wait
  | bad (detail : Nat)
  | ok (a : α)
  deriving Repr

def Mma.src (m : Mma) (isA : Bool) : Bool := if isA then m.x.ag else m.x.bg
def Mma.base (m : Mma) (isA : Bool) : DWord := if isA then m.baseA else m.baseB
def Mma.stride (m : Mma) (isA : Bool) : Nat := if isA then m.strideA else m.strideB

/-- The address of a row of a k-step of an operand in global memory. -/
def Mma.rowVa (m : Mma) (isA : Bool) (packed : Bool) (i step : Nat) : DWord :=
  m.base isA + BitVec.ofNat 64 (i * m.stride isA + step * if packed then 256 else 192)

/-- The format of an operand, and whether its rows are packed: a global one takes it from its page, which must be TYPE's when TYPE
names one (R237, R389). -/
def State.operandFmt (s : State) (r : AccRef) (c lot : Nat) (m : Mma) (isA : Bool) : Fetch (PageFmt × Bool) :=
  if m.src isA then
    if s.heldAt r (m.base isA) then .wait
    else match s.xlate c (s.partOf (s.lot lot)) (m.base isA) false false with
      | .bad .. => .wait
      | .ok x =>
        if (m.x.t != .raw && Fmt.code m.x.t != x.fmt.fmt) || x.fmt.fmt.toNat < 3 || 9 < x.fmt.fmt.toNat then .bad 2
        else .ok (x.fmt, x.fmt.fmt == 7 && x.fmt.geo == 1)
  else .ok (⟨Fmt.code m.x.t, if m.x.pkd then 1 else 0⟩, m.x.pkd)

/-- Every page that a row in global memory touches carries the operand's format (R237, R389). -/
def State.rowFmtOk (s : State) (c part : Nat) (va : DWord) (len : Nat) (pf : PageFmt) : Option Bool :=
  match s.xlate c part va false false, s.xlate c part (va + BitVec.ofNat 64 (len - 1)) false false with
  | .ok x, .ok y => some (x.fmt == pf && y.fmt == pf)
  | _, _ => none

/-- Some bytes of row i of a k-step of an operand, in its stored order (R237). -/
def State.rowPart (s : State) (r : AccRef) (c lot : Nat) (m : Mma) (isA : Bool) (pf : PageFmt) (len step i off n : Nat) :
    Fetch (State × List Byte) :=
  let at' := i * m.stride isA + step * len
  if m.src isA then
    let va := m.base isA + BitVec.ofNat 64 at'
    let part := s.partOf (s.lot lot)
    match s.rowFmtOk c part va len pf, s.engRead r c part (va + BitVec.ofNat 64 off) n with
    | some false, _ => .bad 2
    | _, .bad e _ => .bad e
    | some true, .ok t bs => .ok (t, bs)
    | _, _ => .wait
  else
    let l := s.lot lot
    let o := (loOf (m.base isA)).toNat + at' + off
    if !l.clearedAt o n then .wait else if l.poisoned o n then .bad 0x44 else .ok (s, l.read o n)

/-- Rows of one length cut from their bytes. -/
def cutRows (len : Nat) : Nat → List Byte → List (List Byte)
  | 0, _ => []
  | n + 1, bs => bs.take len :: cutRows len n (bs.drop len)

/-- More of a k-step's operands is read: elements of 4 bytes of one row, in ascending order, how many at once is open (R106, R129). With
the last of them the rows stand complete; where an operand is refused, the command notes it (R389). -/
def State.captureStep (s : State) (c : Nat) (m : MCmd) (a : Mma) (step : Nat) : Option (State × MCmd) :=
  let r := AccRef.mtx c m.entry
  let bad := fun (d : Nat) => some (s, { m with bad := some (0x65, d) })
  match s.operandFmt r c m.lot a true, s.operandFmt r c m.lot a false with
  | .wait, _ => none
  | .bad d, _ => bad d
  | .ok _, .wait => none
  | .ok _, .bad d => bad d
  | .ok (fa, pa), .ok (fb, pb) =>
    if fa.fmt != fb.fmt || (a.x.t == .raw && pa != pb) then bad 2
    else
      let len := fun (p : Bool) => if p then 256 else 192
      let sizeA := 128 * len pa
      let isA := decide (m.buf.length < sizeA)
      let pos := if isA then m.buf.length else m.buf.length - sizeA
      let ln := if isA then len pa else len pb
      let n := 4 * (1 + Config.pick s.choices 8 % ((ln - pos % ln) / 4))
      match s.rowPart r c m.lot a isA (if isA then fa else fb) ln step (pos / ln) (pos % ln) n with
      | .wait => none
      | .bad d => bad d
      | .ok (t, bs) =>
        let buf := m.buf ++ bs
        if buf.length < sizeA + 128 * len pb then some (t, { m with buf := buf })
        else some (t, { m with rowsA := cutRows (len pa) 128 buf, rowsB := cutRows (len pb) 128 (buf.drop sizeA), buf := []
                               fmt := fa.fmt.toNat })

/-! ### Shared fetches (R239) -/

/-- The next bytes of a k-step's operands that are still to be read: where they lie in physical memory and how many are left in their row,
if their operand has its multicast bit set (true: that of A). -/
def State.multicast (s : State) (c step : Nat) (m : MCmd) (a : Mma) : Option (Bool × Nat × Nat) :=
  let r := AccRef.mtx c m.entry
  match s.operandFmt r c m.lot a true, s.operandFmt r c m.lot a false with
  | .ok (_, pa), .ok (_, pb) =>
    let len := fun (p : Bool) => if p then 256 else 192
    let isA := decide (m.buf.length < 128 * len pa)
    let ln := if isA then len pa else len pb
    let pos := if isA then m.buf.length else m.buf.length - 128 * len pa
    let va := a.rowVa isA (ln == 256) (pos / ln) step + BitVec.ofNat 64 (pos % ln)
    if !(a.src isA && if isA then a.x.amc else a.x.bmc) then none
    else match s.xlate c (s.partOf (s.lot m.lot)) va false false with
      | .ok x => some (isA, x.pa, if isA || pos + 192 < 128 * ln then ln - pos % ln else 0)
      | .bad .. => none
  | _, _ => none

/-- The bytes of a k-step's operands read so far, those of A first. -/
def MCmd.got (m : MCmd) : List Byte := m.buf ++ m.rowsA.flatten ++ m.rowsB.flatten

/-- Another core of the quad, whose fetch of the same sectors is outstanding, takes the bytes that a shared fetch has read: each
4-byte element with the one value read. The last row of a k-step it fetches by itself. -/
def State.receive (s : State) (isA : Bool) (pa : Nat) (bs : List Byte) (d : Nat) : State :=
  let u := s.core d
  match (u.running.toList ++ u.cmds.filter fun m => m.est.isNone && u.eligible m && s.skeinQuiet d m.slot m.order m.info.hb).head? with
  | some m => match m.mma? with
    | some a => match s.multicast d (if m.started then (u.tile m.tile).kdone else 0) m a with
      | some (b, p, left) =>
        if b == isA && p == pa && m.bad.isNone && m.rowsA.isEmpty && !m.charged && !m.stopReq && decide (bs.length ≤ left) &&
            decide (pa % 65536 + bs.length ≤ 65536)
        then s.setCmd d { m with buf := m.buf ++ bs } else s
      | none => s
    | none => s
  | none => s

/-- A fetch of bytes of an operand with its multicast bit set may be shared with the other cores of the quad; `m` stood before it and `m'`
after it. Whether it is the spec leaves open (log entry 100). -/
def State.shareFetch (t : State) (c step : Nat) (m m' : MCmd) : State :=
  match m.mma?.bind (t.multicast c step m) with
  | some (isA, pa, _) =>
    if Config.pick t.choices 16 % 2 = 0 then t
    else ((List.range 4).filter fun j => c / 4 * 4 + j != c).foldl (fun t j =>
      t.receive isA pa (m'.got.drop m.got.length) (c / 4 * 4 + j)) t
  | none => t

/-! ### The toggle estimate (R247) -/

def popByte (b : Byte) : Nat := (List.range 8).foldl (fun n i => n + (b.getLsbD i).toNat) 0

/-- The bits that change from each row to the next, over the 192 data bytes. -/
def rowFlips : List (List Byte) → Nat
  | a :: b :: rs => ((a.zip b).take 192).foldl (fun n e => n + popByte (e.1 ^^^ e.2)) 0 + rowFlips (b :: rs)
  | _ => 0

def toggle (ra rb : List (List Byte)) : Nat := 255 * (rowFlips ra + rowFlips rb) / 390144

/-! ### The k-step (R240) -/

/-- The element bytes of a floating-point operand row; for E2M1 its nibbles in logical order, each with its block scale (R78,
R80). -/
def rowVals (fmt : Nat) (band : Nat) (row : List Byte) : List FVal :=
  let packed := row.length == 256
  match fmt with
  | 7 => (List.range 384).map fun i =>
      let (b, hi, sc) := e2m1Place packed i
      let code := partNat row b 1 / (if hi then 16 else 1) % 16
      match sc with
      | some (blk, _) => (scaledVal code (partNat row blk 1) band).1
      | none => decodeF .e2m1 code
  | 3 => (List.range 96).map fun i => decodeF .f16 (partNat row (2 * i) 2)
  | 4 => (List.range 96).map fun i => decodeF .bf16 (partNat row (2 * i) 2)
  | 5 => (List.range 192).map fun i => decodeF .e4m3 (partNat row i 1)
  | _ => (List.range 192).map fun i => decodeF .e5m2 (partNat row i 1)

/-- The band scale of a row: that of the pack of row 0 or of row 64. -/
def bandOf (rows : List (List Byte)) (i : Nat) : Nat := partNat ((rows[64 * (i / 64)]?).getD []) 240 2

def intVals (signed : Bool) (row : List Byte) : List Int := row.map fun b => intOf 8 signed b.toNat

/-- The exponent of a finite FP32 value, floored at -126 (R390). -/
def expOf (v : Nat) : Int :=
  let e : Nat := v / 2 ^ 23 % 256
  if e = 255 then -126 else max (-126) ((e : Int) - 127)

/-- One element of a k-step on an FP32 tile. -/
def Tile.fpStep (t : Tile) (i j : Nat) (terms : List FVal) : Tile :=
  let ch := (chunkVal .rne terms).1
  let r := chunkInto .f32 (t.elem i j).toNat terms
  let units := match ch with | .fin n m e => some (unitsOfDy (FVal.fin n m e).dy) | _ => none
  { ((t.setElem i j (BitVec.ofNat 32 r.1)).addSums i j units) with flags := t.flags ||| r.2, emax := max t.emax (expOf r.1) }

/-- One element of a k-step on an integer tile. -/
def Tile.intStep (t : Tile) (i j : Nat) (add : Int) : Tile :=
  (t.setElem i j (BitVec.ofInt 32 ((t.elem i j).toInt + add))).addSums i j (some add)

/-- Every element of a tile updated. -/
def forTile (t : Tile) (f : Tile → Nat → Nat → Tile) : Tile :=
  (List.range 128).foldl (fun t i => (List.range 128).foldl (fun t j => f t i j) t) t

/-- The update of one k-step (R240): the elements, flags and checksums together. -/
def Tile.kstep (t : Tile) (m : MCmd) : Tile :=
  let done := fun (t : Tile) => { t with kdone := t.kdone + 1, ver := false, ksum := min (2 ^ 32 - 1) (t.ksum + 1) }
  if 8 ≤ m.fmt then
    let a := m.rowsA.map (intVals (m.fmt == 8))
    let b := m.rowsB.map (intVals (m.fmt == 8))
    done (forTile t fun t i j =>
      t.intStep i j ((((a[i]?).getD []).zip ((b[j]?).getD [])).foldl (fun n e => n + e.1 * e.2) 0))
  else
    let a := m.rowsA.mapIdx fun i r => rowVals m.fmt (bandOf m.rowsA i) r
    let b := m.rowsB.mapIdx fun j r => rowVals m.fmt (bandOf m.rowsB j) r
    done (forTile t fun t i j =>
      t.fpStep i j ((((a[i]?).getD []).zip ((b[j]?).getD [])).map fun e => mulTerm e.1 e.2))

/-! ### The run of an MMA -/

/-- A started MMA arrives at its barrier object, once (R255). -/
def State.mmaArriveAt (s : State) (c : Nat) (m : MCmd) : State :=
  match m.mma? with
  | some a => match a.x.bobj with
    | some b => if m.arrived then s
      else (s.setCmd c { m with arrived := true }).forPair m.lot fun s n => s.barArrive n (16 * b.toNat) (byEngine m.stamp m.wid)
    | none => s
  | none => s

/-- An MMA stops before its next k-step (R389): it counts as finished, arrives, and its cause is reported. -/
def State.mmaStop (s : State) (c : Nat) (m : MCmd) (code detail : Nat) : State :=
  (((s.mmaArriveAt c m).dropCmd c m).setTile c m.tile ((s.core c).tile m.tile).mark).engineCause c m.slot m.lot
    ⟨m.info, code, detail, m.lanes, m.info.act &&& ~~~m.lanes, 0, true, none, m.order, []⟩

/-- The operand format is known and does not match the tile's mode (R255, R389). -/
def modeBad (t : Tile) (fmt : Nat) : Bool := fmt != 0 && (t.int != decide (8 ≤ fmt))

/-- An earlier eligible head has its first k-step still to be fetched, and does not wait for a page: first fetches go in entry order
(R249). -/
def State.fetchBehind (s : State) (c : Nat) (m : MCmd) : Bool :=
  (s.core c).cmds.any fun e => decide (e.entry < m.entry) && e.mma?.isSome && e.est.isNone && e.bad.isNone && (s.core c).eligible e &&
    !s.faults.any fun f => f.who.contains (.mtx c e.entry)

/-- A head's estimate is known; of an MMA that has started it is LAST (R258). -/
def State.setEst (s : State) (c : Nat) (m : MCmd) (n : Nat) : State :=
  (s.setCmd c { m with est := some n }).updCore c fun k => if m.started then { k with lastT := n } else k

/-- MMA_FIRST_FETCH (R247, R249): operands of k-step 0 of an eligible head are read, after the accesses that they are ordered after
(R126), and with the last of them its toggle estimate is known; a head that cannot fetch them, or that the tile's mode refuses, takes
0 (R394). -/
def execMmaFirstFetch (c e : Nat) (s : State) : Host.Outcome State Fault Refusal :=
  match (s.core c).cmd e with
  | some m => match m.mma? with
    | some a =>
      if m.est.isSome || m.bad.isSome || !(s.core c).eligible m || !s.skeinQuiet c m.slot m.order m.info.hb || s.fetchBehind c m then .next s
      else match s.captureStep c m a 0 with
        | some (t, m') =>
          let t := t.shareFetch c 0 m m'
          .next (if m'.bad.isSome then t.setEst c m' 0
            else if m'.rowsA.isEmpty then t.setCmd c m'
            else if modeBad ((s.core c).tile m.tile) m'.fmt then t.setEst c m' 0
            else t.setEst c m' (toggle m'.rowsA m'.rowsB))
        | none => .next s
    | none => .next s
  | none => .next s

/-- The head that entered first; the one with the lowest known estimate, the earlier among equals. -/
def firstHead : List MCmd → Option MCmd
  | [] => none
  | m :: ms => match firstHead ms with
    | some e => if m.entry ≤ e.entry then some m else some e
    | none => some m
def lowestHead : List MCmd → Option MCmd
  | [] => none
  | m :: ms => match m.est, lowestHead ms with
    | none, r => r
    | some _, none => some m
    | some a, some e => match e.est with
      | some b => if a < b || (a == b && decide (m.entry < e.entry)) then some m else some e
      | none => some m

/-- The choice of R249. -/
def Core.choose (k : Core) : Option MCmd :=
  let hs := k.heads
  if 255 ≤ k.level then firstHead hs
  else match hs with
    | [m] => some m
    | _ => lowestHead hs

/-- Budget refills that have come due. -/
def State.refillCore (s : State) (c : Nat) : State :=
  (s.countStall c).updCore c fun k => k.refill s.tick (s.rate (s.partOfDie (c / 64)))

/-- The k-step in flight has its operands, and its charge is above LEVEL: it waits for budget from now (R248). -/
def State.awaitBudget (s : State) (c : Nat) : State :=
  let k := s.core c
  match k.running with
  | some m => match m.est with
    | some n => if m.shortSince.isNone && !m.charged && !m.rowsA.isEmpty && decide (k.level < n)
        then s.setCmd c { m with shortSince := some s.tick } else s
    | none => s
  | none => s

/-- MMA_START (R249, R255): one MMA at a time; a stopped one continues before any other (R243). -/
def execMmaStart (c : Nat) (s : State) : Host.Outcome State Fault Refusal :=
  let s := s.refillCore c
  match (s.core c).running, (s.core c).choose with
  | none, some m =>
    match m.mma? with
    | none => .next s
    | some a =>
      let t := (s.core c).tile m.tile
      let s := (s.setCmd c { m with started := true }).setTile c m.tile { t with ktot := a.k, kdone := 0 }
      let fmt := if m.fmt != 0 then m.fmt else (Fmt.code a.x.t).toNat
      let est := if modeBad t fmt then some (m.est.getD 0) else m.est
      let s := match est with | some n => s.updCore c fun k => { k with lastT := n } | none => s
      if modeBad t fmt then .next (s.mmaStop c { m with started := true } 0x65 3)
      else match m.bad with
        | some (code, d) => .next (s.mmaStop c { m with started := true } code d)
        | none => .next (s.awaitBudget c)
  | _, _ => .next s

/-- KSTEP_CHARGE (R248): the next k-step's operands are read, and its charge is taken once the budget allows. -/
def execKstepCharge (c : Nat) (s : State) : Host.Outcome State Fault Refusal :=
  let s := s.refillCore c
  match (s.core c).running with
  | none => .next s
  | some m =>
    match m.mma?, m.bad with
    | some _, some (code, d) => .next (s.mmaStop c m code d)
    | some a, none =>
      let t := (s.core c).tile m.tile
      if m.charged || m.stopReq || a.k ≤ t.kdone then .next s
      else if modeBad t m.fmt then .next (s.mmaStop c m 0x65 3)
      else match m.est with
        | none => .next s
        | some n =>
          if m.rowsA.isEmpty then match s.captureStep c m a t.kdone with
            | none => .next s
            | some (s, m') => match m'.bad with
              | some (code, d) => .next (s.mmaStop c m' code d)
              | none => .next (((s.shareFetch c t.kdone m m').setCmd c m').awaitBudget c)
          else if n ≤ (s.core c).level then
            .next ((s.setCmd c { m with charged := true, shortSince := none }).updCore c fun k => { k with level := k.level - n })
          else .next (s.awaitBudget c)
    | none, _ => .next s

/-- MMA_ARRIVE (R255): the last operand element has been read. -/
def execMmaArrive (c : Nat) (s : State) : Host.Outcome State Fault Refusal :=
  match (s.core c).running with
  | some m => match m.mma? with
    | some a => .next (if m.charged && ((s.core c).tile m.tile).kdone + 1 == a.k then s.mmaArriveAt c m else s)
    | none => .next s
  | none => .next s

/-- KSTEP_COMPLETE (R240): the update of a charged k-step; the last one finishes the MMA, which has arrived before. -/
def execKstepComplete (c : Nat) (s : State) : Host.Outcome State Fault Refusal :=
  match (s.core c).running with
  | some m => match m.mma? with
    | some a =>
      let t := (s.core c).tile m.tile
      let last := t.kdone + 1 == a.k
      if !m.charged || (last && a.x.bobj.isSome && !m.arrived) then .next s
      else
        let s := s.setTile c m.tile (t.kstep m).mark
        .next (if last then s.dropCmd c m
          else s.setCmd c { m with charged := false, rowsA := [], rowsB := [], started := !m.stopReq })
    | none => .next s
  | none => .next s

/-- BUDGET_REFILL (R248). -/
def execBudgetRefill (c : Nat) (s : State) : Host.Outcome State Fault Refusal :=
  .next (if (s.core c).refilled < s.tick / 512 then s.refillCore c else s)

/-! ### Residuals (R244, R246, R390) -/

/-- An element in checksum units; 0 where it is infinite or NaN. -/
def Tile.units (t : Tile) (i j : Nat) : Int := (elemUnits t.int (t.elem i j)).getD 0
def Tile.special (t : Tile) (i j : Nat) : Bool := (elemUnits t.int (t.elem i j)).isNone

/-- A residual in units; taken modulo 2^32 on an integer tile. -/
def Tile.wrapRes (t : Tile) (x : Int) : Int := if t.int then (BitVec.ofInt 32 x).toInt else x
def sum128 (f : Nat → Int) : Int := (List.range 128).foldl (fun n i => n + f i) 0
def Tile.rres (t : Tile) (i : Nat) : Int := t.wrapRes ((amGet t.rsum i).getD 0 - sum128 fun j => t.units i j)
def Tile.cres (t : Tile) (j : Nat) : Int := t.wrapRes ((amGet t.csum j).getD 0 - sum128 fun i => t.units i j)

/-- tol in checksum units (R390): 128 · KSUM · 2^(EMAX - 24). -/
def Tile.tol (t : Tile) : Int := if t.int then 0 else 128 * (t.ksum : Int) * 2 ^ (t.emax + 276).toNat

def Tile.badRows (t : Tile) : List Nat := (List.range 128).filter fun i =>
  !t.rex.contains i && !((List.range 128).any fun j => t.special i j) && decide (t.tol < (t.rres i).natAbs)
def Tile.badCols (t : Tile) : List Nat := (List.range 128).filter fun j =>
  !t.cex.contains j && !((List.range 128).any fun i => t.special i j) && decide (t.tol < (t.cres j).natAbs)

/-- The element restored from its row's checksum. -/
def Tile.restored (t : Tile) (i j : Nat) : Word :=
  let v := (amGet t.rsum i).getD 0 - sum128 fun q => if q = j then 0 else t.units i q
  if t.int then BitVec.ofInt 32 v else BitVec.ofNat 32 (roundVal .f32 .rne 0 (.fin (v < 0) v.natAbs (-300))).1

/-- The comparison before the first MSTA of a changed tile: the tile, and how many elements were corrected; none when more than
one is wrong. -/
def Tile.compare (t : Tile) : Option (Tile × Nat) :=
  if t.ver then some (t, 0)
  else match t.badRows, t.badCols with
    | [], [] => some ({ t with ver := true }, 0)
    | [i], [j] =>
      let agree := if t.int then t.rres i == t.cres j else decide ((t.rres i - t.cres j).natAbs ≤ 2 * t.tol)
      if agree then some ({ t.setElem i j (t.restored i j) with ver := true }, 1) else none
    | _, _ => none

/-! ### Tile commands (R252 to R254) -/

/-- MLDA: the active lanes' values into the tile, in the mode of the instruction. -/
def Tile.load (t : Tile) (int : Bool) (f n : Nat) (act : Lanes) (vals : List (List Word)) : Tile :=
  let t := (List.range n).foldl (fun t e => (laneList (act &&& 0xFFFFFFFF)).foldl (fun t l =>
    let (i, j) := fragPlace (f + e) l
    Tile.loadElem int t i j ((((vals[e]?).getD [])[l]?).getD 0)) t) t
  { t with int := int, ver := false }

/-- MSTA: its results return with the tile's flags; where more than one element is wrong they are withheld (R390). -/
def State.storeTile (s : State) (c : Nat) (m : MCmd) (f n : Nat) (act : Lanes) (seq : Nat) : State :=
  let t := (s.core c).tile m.tile
  match s.pendOf c m.slot seq with
  | none => s.dropCmd c m
  | some p =>
    let put := fun (s : State) (p : Pending) =>
      ((((s.dropCmd c m).updSkein c m.slot fun k => k.setPend p).finishPend c m.slot seq).returned c m.slot)
    match t.compare with
    | none => put (s.setTile c m.tile t.mark) ((laneList act).foldl (fun (p : Pending) l => p.fail l 0x69 255) p)
    | some (t, k) =>
      let s := (s.setTile c m.tile t.mark).count (fixCounter c) k
      let p := (laneList act).foldl (fun (p : Pending) l => p.setLane 32 l ((List.range n).map fun e =>
        let (i, j) := fragPlace (f + e) l
        t.elem i j)) p
      put s { p with left := 0, flags := t.flags }

/-- TILE_COMMAND_RUN (R241): an eligible MZERO, MLDA or MSTA runs and finishes. -/
def execTileCommandRun (c e : Nat) (s : State) : Host.Outcome State Fault Refusal :=
  match (s.core c).cmd e with
  | none => .next s
  | some m =>
    if !(s.core c).eligible m then .next s
    else match m.kind with
      | .zero int => .next ((s.setTile c m.tile (zeroTile int)).dropCmd c m)
      | .lda int f n act vals => .next ((s.setTile c m.tile (((s.core c).tile m.tile).load int f n act vals).mark).dropCmd c m)
      | .sta f n act seq => .next (s.storeTile c m f n act seq)
      | .mma _ => .next s

end Sys2Proof.Machine
end

