-- ==== Sys2Proof/Machine/Records.lean ====
section
/-! DEFINITION. Continuation records in queue rings (R283 to R286, R366): the records that a hub has still to accept, the numbers
that they take on their timelines, and the limits of R284. -/

namespace Sys2Proof.Machine

/-- The unit whose TLB the hubs translate through (R99, log entry 92). -/
def hubUnit : Nat := 512

/-- Record n of a queue as it stands in its ring (R285). -/
def State.qRecord (s : State) (q n : Nat) : BitVec 1024 := BitVec.ofNat 1024 (leNat (s.homeRead (s.qSlot q n) 128))

def recTline (r : BitVec 1024) : DWord := BitVec.ofNat 64 (recF r 512 64)

/-- The record of one of the 1,024 queues that its hub accepts next: TAIL has passed it, and its queue and partition run (R13,
R286). -/
def State.nextRecord (s : State) (q : Nat) : Option (Nat × BitVec 1024) :=
  let n := (s.queueX q).accepted
  if q < 1024 && s.qOn q && s.partOn (s.qPart q) && n != s.qTail q then some (n, s.qRecord q n) else none

/-- A record is accepted with its number on its timeline block, if it names one (R286). -/
def State.acceptRecord (s : State) (q n : Nat) (tl : Option (Nat × Nat)) (refused : Bool) : State :=
  let x := s.queueX q
  let acq := match amGet x.nums n with | some e => max e.acq s.tick | none => s.tick
  s.setQueueX q { x with accepted := (n + 1) % 2 ^ 32, nums := amPut x.nums n ⟨tl, refused, acq⟩ }

/-- The queues of a partition whose next record names a timeline block. -/
def State.tlineWaits (s : State) (part : Nat) : List (Nat × Nat × DWord) :=
  s.queues.filterMap fun e =>
    if s.qPart e.1 == part then
      match s.nextRecord e.1 with
      | some (n, r) => if recTline r == 0 then none else some (e.1, n, recTline r)
      | none => none
    else none

/-- The join counters that completed launches of a partition have still to decrement (R293). -/
def State.jdecWaits (s : State) (part : Nat) : List (Nat × DWord) :=
  s.launches.filterMap fun e => if e.2.part == part && e.2.ending == some false then some (e.1, BitVec.ofNat 64 (e.2.fld 128 64)) else none

/-- The records whose timeline block lies on a refused page take no number (R217), and the launches whose join counter does decrement
nothing (log entry 104). -/
def State.refuseRecords (s : State) (part : Nat) (on : DWord → Bool) : State :=
  let s := (s.tlineWaits part).foldl (fun s e =>
    if on e.2.2 then s.acceptRecord e.1 e.2.1 none true else s) s
  (s.jdecWaits part).foldl (fun s e =>
    if on e.2 then s.updLaunch e.1 fun l => { l with ending := some true } else s) s

/-- RECORD_ACCEPT (R217, R286): the hub numbers the operation of the record; a timeline block that has no translation waits in
the fault buffer. -/
def execRecordAccept (q : Nat) (s : State) : Host.Outcome State Fault Refusal :=
  match s.nextRecord q with
  | none => .next s
  | some (n, r) =>
    let part := s.qPart q
    let va := recTline r
    if va == 0 then .next (s.acceptRecord q n none false)
    else if s.heldAt (.hub part) va then .next s
    else match s.xlate hubUnit part va true false with
      | .bad .. => .next s
      | .ok x =>
        if (s.writeCause part x.pa 16).isSome || (s.readCause part x.pa 16).isSome then .next (s.acceptRecord q n none true)
        else
          let (t, k) := (s.tlbFill hubUnit part va x).tlAccept part x.pa
          .next (t.acceptRecord q n (some (x.pa, k)) false)

/-! ### The limits of a record (R283, R284, R366) -/

/-- Every reserved bit of a record reads 0 (R283). -/
def recReserved (r : BitVec 1024) : Bool :=
  recF r 944 16 == 0 && recF r 752 16 == 0 && recF r 742 4 == 0 && recF r 695 1 == 0

/-- Skein slots of a lot: twins count two (R19). -/
def recTwin (r : BitVec 1024) : Bool := recF r 685 3 == 6
def recSkeins (r : BitVec 1024) : Nat := (recFibres r + (if recTwin r then 63 else 31)) / (if recTwin r then 64 else 32)

/-- The limits that the record and the kernel descriptor decide (R19, R27, R84, R87, R153, R260, R284, R405). `red` says that
REDUNDANT takes effect. Of R283's own limits, those of CODE and SCR count as limits of R284 (log entry 114). -/
def recLimits (r : BitVec 1024) (localSz : Nat) (regroup red : Bool) : Bool :=
  let v := recF r 673 7
  recReserved r && decide (recFibres r ≤ 2048) && decide (recF r 685 3 ≤ 6) && decide (recLots r ≤ 2 ^ 32) &&
    v != 1 && decide (v ≤ 64) && (v == 0 || recLots r % v == 0) && decide (recF r 688 5 ≤ 28) && decide (recF r 693 2 ≤ 1) &&
    recF r 0 64 % 4 == 0 && (localSz == 0 || decide (max v 1 ≤ recF r 928 16 + 1)) &&
    (!regroup || recF r 685 3 == 0 || recF r 685 3 == 5) && !(red && v != 0)

end Sys2Proof.Machine
end

