-- ==== Sys2Proof/Machine/Signatures.lean ====
section
/-! DEFINITION. Whether a signature of a file verifies (R323): Ed25519 in the pure form of RFC 8032 with its SHA-512, and ML-DSA-65 with an
empty context string, by FIPS 204 with its SHAKE128 and SHAKE256. The spec names the two standards and does not print them; what stands
here is taken from the standards themselves (PRESUMED, log entry 10). -/

namespace Sys2Proof.Machine

/-! ### Arithmetic modulo a number -/

/-- b^e modulo m, by the low n bits of e from the highest. -/
def powMod (m b e : Nat) : Nat → Nat
  | 0 => 1 % m
  | n + 1 =>
    let r := powMod m b (e / 2) n
    if e % 2 = 1 then r * r % m * b % m else r * r % m

/-- The largest r below 2^n with p r, for a p that holds up to some number and not beyond. -/
def topNat (p : Nat → Bool) : Nat → Nat → Nat
  | 0, r => r
  | n + 1, r => topNat p n (if p (r + 2 ^ n) then r + 2 ^ n else r)

/-! ### SHA-512 (FIPS 180-4) -/

/-- The first n primes. -/
def primes (n : Nat) : List Nat :=
  (((List.range 410).drop 2).filter fun p => ((List.range 21).drop 2).all fun d => p == d || p % d != 0).take n

/-- The first 64 bits of the fraction of a square root. -/
def sqrtFrac (p : Nat) : DWord := BitVec.ofNat 64 (topNat (fun r => r ^ 2 ≤ p * 2 ^ 128) 70 0)

/-- The first 64 bits of the fraction of a cube root. -/
def cbrtFrac (p : Nat) : DWord := BitVec.ofNat 64 (topNat (fun r => r ^ 3 ≤ p * 2 ^ 192) 70 0)

/-- The 80 round constants. -/
def shaKs : List DWord := (primes 80).map cbrtFrac

/-- The initial hash value. -/
def shaInit : List DWord := (primes 8).map sqrtFrac

/-- A 64-bit word of eight bytes, the highest first. -/
def beWord (bs : List Byte) : DWord := BitVec.ofNat 64 (leNat bs.reverse)

/-- A list cut into n pieces of k. -/
def cut {α : Type} (k : Nat) : Nat → List α → List (List α)
  | 0, _ => []
  | n + 1, l => l.take k :: cut k n (l.drop k)

/-- Word i of a list. -/
def wordAt (l : List DWord) (i : Nat) : DWord := (l[i]?).getD 0

/-- One round: the sixteen words of the schedule that begin at this round, and the eight working variables. -/
def shaRound (w v : List DWord) (k : DWord) : List DWord × List DWord :=
  match v with
  | [a, b, c, d, e, f, g, h] =>
    let s0 := (wordAt w 1).rotateRight 1 ^^^ (wordAt w 1).rotateRight 8 ^^^ wordAt w 1 >>> 7
    let s1 := (wordAt w 14).rotateRight 19 ^^^ (wordAt w 14).rotateRight 61 ^^^ wordAt w 14 >>> 6
    let t1 := h + (e.rotateRight 14 ^^^ e.rotateRight 18 ^^^ e.rotateRight 41) + ((e &&& f) ^^^ (~~~e &&& g)) + k + wordAt w 0
    let t2 := (a.rotateRight 28 ^^^ a.rotateRight 34 ^^^ a.rotateRight 39) + ((a &&& b) ^^^ (a &&& c) ^^^ (b &&& c))
    (w.drop 1 ++ [wordAt w 0 + s0 + wordAt w 9 + s1], [t1 + t2, a, b, c, d + t1, e, f, g])
  | _ => (w, v)

/-- The hash value after a block of 128 bytes. -/
def shaBlock (ks h : List DWord) (block : List Byte) : List DWord :=
  let v := (ks.foldl (fun (x : List DWord × List DWord) k => shaRound x.1 x.2 k) ((cut 8 16 block).map beWord, h)).2
  h.zipWith (· + ·) v

/-- SHA-512. -/
def sha512 (msg : List Byte) : List Byte :=
  let pad := (239 - msg.length % 128) % 128
  let m := msg ++ 0x80#8 :: List.replicate pad 0 ++ (leBytes (8 * msg.length) 16).reverse
  let ks := shaKs
  ((cut 128 (m.length / 128) m).foldl (shaBlock ks) shaInit).flatMap fun w => (leBytes w.toNat 8).reverse

/-! ### Ed25519 (RFC 8032, 5.1) -/

/-- The prime of the field. -/
def edP : Nat := 2 ^ 255 - 19

/-- The order of the base point. -/
def edL : Nat := 2 ^ 252 + 27742317777372353535851937790883648493

/-- The constant d of the curve: -121665 / 121666. -/
def edD : Nat := (edP - 121665) * powMod edP 121666 (edP - 2) 255 % edP

/-- A point of the curve in extended coordinates. -/
structure EdPoint where
  x : Nat
  y : Nat
  z : Nat
  t : Nat
  deriving DecidableEq, Repr

def EdPoint.add (d2 : Nat) (p q : EdPoint) : EdPoint :=
  let a := (p.y + edP - p.x) * (q.y + edP - q.x) % edP
  let b := (p.y + p.x) * (q.y + q.x) % edP
  let c := p.t * q.t % edP * d2 % edP
  let d := 2 * p.z * q.z % edP
  let e := b + edP - a
  let f := d + edP - c
  let g := d + c
  let h := b + a
  ⟨e * f % edP, g * h % edP, f * g % edP, e * h % edP⟩

/-- n times a point, by the low bits of n from the highest. -/
def EdPoint.times (d2 : Nat) (p : EdPoint) (n : Nat) : Nat → EdPoint
  | 0 => ⟨0, 1, 1, 0⟩
  | k + 1 =>
    let r := EdPoint.times d2 p (n / 2) k
    let r := r.add d2 r
    if n % 2 = 1 then r.add d2 p else r

/-- Two points are one. -/
def EdPoint.same (p q : EdPoint) : Bool := (p.x * q.z) % edP == (q.x * p.z) % edP && (p.y * q.z) % edP == (q.y * p.z) % edP

/-- The point that 32 bytes encode, if they encode one (5.1.3). -/
def edDecode (d : Nat) (bs : List Byte) : Option EdPoint :=
  let n := leNat bs
  let y := n % 2 ^ 255
  let odd := n / 2 ^ 255
  let u := (y * y + edP - 1) % edP
  let v := (d * (y * y % edP) + 1) % edP
  let r := u * powMod edP v 3 2 % edP * powMod edP (u * powMod edP v 7 3 % edP) ((edP - 5) / 8) 255 % edP
  let vr := v * (r * r % edP) % edP
  let root :=
    if vr = u then some r
    else if vr = (edP - u) % edP then some (r * powMod edP 2 ((edP - 1) / 4) 255 % edP) else none
  match root with
  | none => none
  | some x =>
    if edP ≤ y || (x == 0 && odd == 1) then none
    else
      let x := if x % 2 = odd then x else edP - x
      some ⟨x, y, 1, x * y % edP⟩

/-- The base point: y = 4/5 with an even x. -/
def edBase : List Byte := 0x58#8 :: List.replicate 31 0x66

/-- An Ed25519 signature verifies: key, bytes signed, signature (5.1.7). The standard lets a verifier multiply its equation by the cofactor
or not; which one the device does is free. -/
def ed25519 (key msg sig : List Byte) : Bool :=
  let d := edD
  let d2 := 2 * d % edP
  let s := leNat (sig.drop 32)
  let k := leNat (sha512 (sig.take 32 ++ key ++ msg)) % edL
  match edDecode d key, edDecode d (sig.take 32), edDecode d edBase with
  | some a, some r, some b =>
    let left := b.times d2 s 253
    let right := r.add d2 (a.times d2 k 253)
    decide (s < edL) && (left.same right || (Config.cofactor && (left.times d2 8 4).same (right.times d2 8 4)))
  | _, _, _ => false

/-! ### SHAKE128 and SHAKE256 (FIPS 202) -/

/-- The powers of x modulo x^8 + x^6 + x^5 + x^4 + 1 from some power on, n of them, each a byte of coefficients: the shift register from
which the round constants of Keccak-f[1600] are taken. -/
def stepBytes : Nat → Byte → List Byte
  | 0, _ => []
  | n + 1, r => r :: stepBytes n (if r.msb then r <<< 1 ^^^ 0x71#8 else r <<< 1)

/-- The constant of a round: bit 2^j - 1 is the constant coefficient of x^(7·round + j), for j below 7. -/
def roundWord (rs : List Byte) (round : Nat) : DWord :=
  (List.range 7).foldl (fun (w : DWord) j =>
    if ((rs.drop (7 * round + j)).headD 0).getLsbD 0 then w ||| 1 <<< (2 ^ j - 1) else w) 0

/-- The 24 round constants. -/
def roundWords : List DWord :=
  let rs := stepBytes 168 1#8
  (List.range 24).map (roundWord rs)

/-- rho and pi in one walk, n steps from step t on: the lane at place i = x + 5y, turned left by (t + 1)(t + 2) / 2, goes to the place of
y and 2x + 3y, whose own lane is the next to move. -/
def moveLanes (a : List DWord) : Nat → Nat → Nat → List DWord → List DWord
  | 0, _, _, out => out
  | n + 1, t, i, out =>
    let p := i / 5 + 5 * ((2 * (i % 5) + 3 * (i / 5)) % 5)
    moveLanes a n (t + 1) p (out.set p ((wordAt a i).rotateLeft ((t + 1) * (t + 2) / 2 % 64)))

/-- One round on the 25 lanes, of which lane x + 5y stands in column x and row y: every lane takes the parities of the column before its own
and, turned by one, of the column behind (theta), the lanes but the first move from place 1 on (rho, pi), every lane takes the lane two
places on in its row where the next one has zeros (chi), and the first lane takes the round's constant (iota). -/
def laneRound (a : List DWord) (k : DWord) : List DWord :=
  let parity := fun x => ((List.range 5).map fun y => wordAt a (5 * y + x)).foldl (· ^^^ ·) 0
  let mixed := a.mapIdx fun i w => w ^^^ parity ((i + 4) % 5) ^^^ (parity ((i + 1) % 5)).rotateLeft 1
  let moved := moveLanes mixed 24 0 1 mixed
  let inRow := fun i n => wordAt moved (i - i % 5 + (i + n) % 5)
  (moved.mapIdx fun i w => w ^^^ (inRow i 2 &&& ~~~inRow i 1)).modify 0 (k ^^^ ·)

/-- Keccak-f[1600]. -/
def keccak (a : List DWord) : List DWord := roundWords.foldl laneRound a

/-- The state after bytes are taken in, with the suffix of SHAKE, at a rate of so many bytes. -/
def shakeIn (rate : Nat) (msg : List Byte) : List DWord :=
  let pad := rate - msg.length % rate
  let m := msg ++ (if pad = 1 then [0x9F] else 0x1F#8 :: List.replicate (pad - 2) 0 ++ [0x80])
  let absorb := fun (a : List DWord) (b : List Byte) =>
    let ws := (cut 8 (rate / 8) b).map fun w => BitVec.ofNat 64 (leNat w)
    keccak (a.mapIdx fun i w => w ^^^ wordAt ws i)
  (cut rate (m.length / rate) m).foldl absorb (List.replicate 25 0)

/-- The bytes that a state gives. -/
def shakeBlock (rate : Nat) (a : List DWord) : List Byte := (a.flatMap fun w => leBytes w.toNat 8).take rate

/-- So many blocks of output. -/
def shakeOut (rate : Nat) : Nat → List DWord → List Byte
  | 0, _ => []
  | n + 1, a => shakeBlock rate a ++ (if n = 0 then [] else shakeOut rate n (keccak a))

/-- n bytes of SHAKE256: H of FIPS 204. -/
def shake256 (msg : List Byte) (n : Nat) : List Byte := (shakeOut 136 ((n + 135) / 136) (shakeIn 136 msg)).take n

/-! ### ML-DSA-65 (FIPS 204) -/

/-- The modulus q. -/
def dsaQ : Nat := 8380417

/-- A byte with its bits in reverse: BitRev8. -/
def bitRev8 (m : Nat) : Nat := (List.range 8).foldl (fun r i => 2 * r + m / 2 ^ i % 2) 0

/-- The factor at node m of the transform: 1753 to the power BitRev8(m). -/
def dsaZeta (m : Nat) : Nat := powMod dsaQ 1753 (bitRev8 m) 8

/-- The number-theoretic transform of the 2^n coefficients below node m. -/
def ntt (m : Nat) : Nat → List Nat → List Nat
  | 0, w => w
  | n + 1, w =>
    let z := dsaZeta m
    let lo := w.take (2 ^ n)
    let hi := (w.drop (2 ^ n)).map fun x => z * x % dsaQ
    ntt (2 * m) n (lo.zipWith (fun a b => (a + b) % dsaQ) hi) ++ ntt (2 * m + 1) n (lo.zipWith (fun a b => (a + dsaQ - b) % dsaQ) hi)

/-- Its inverse, without the factor 2^n. -/
def nttBack (m : Nat) : Nat → List Nat → List Nat
  | 0, w => w
  | n + 1, w =>
    let z := powMod dsaQ (dsaZeta m) (dsaQ - 2) 23
    let a := nttBack (2 * m) n (w.take (2 ^ n))
    let b := nttBack (2 * m + 1) n (w.drop (2 ^ n))
    a.zipWith (fun x y => (x + y) % dsaQ) b ++ a.zipWith (fun x y => (x + dsaQ - y) * z % dsaQ) b

/-- The coefficients of b bits that bytes hold, the lowest bits first. -/
def bitUnpack (b : Nat) : Nat → Nat → List Nat
  | 0, _ => []
  | n + 1, v => v % 2 ^ b :: bitUnpack b n (v / 2 ^ b)

/-- A sample of a uniform polynomial by rejection, from three bytes a coefficient (RejNTTPoly): so many blocks of SHAKE128 at most. -/
def rejPoly : Nat → List DWord → List Nat → List Nat
  | 0, _, out => out.take 256
  | n + 1, a, out =>
    let got := ((cut 3 56 (shakeBlock 168 a)).map fun b => leNat b % 2 ^ 23).filter (· < dsaQ)
    if 256 ≤ (out ++ got).length then (out ++ got).take 256 else rejPoly n (keccak a) (out ++ got)

/-- Entry (r, c) of the matrix of the public seed (ExpandA). -/
def expandA (rho : List Byte) (r c : Nat) : List Nat :=
  rejPoly 64 (shakeIn 168 (rho ++ [BitVec.ofNat 8 c, BitVec.ofNat 8 r])) []

/-- The challenge of 49 coefficients 1 or -1 (SampleInBall): coefficient i of those from 207 up moves the one at a drawn place j ≤ i. -/
def sampleBall (signs : Nat) : Nat → Nat → List Byte → List Nat → List Nat
  | 0, _, _, c => c
  | n + 1, i, bs, c =>
    match bs.dropWhile fun b => decide (i < b.toNat) with
    | [] => c
    | j :: bs =>
      let one := if signs % 2 = 1 then dsaQ - 1 else 1
      sampleBall (signs / 2) n (i + 1) bs ((c.set i (c.getD j.toNat 0)).set j.toNat one)

/-- The hint of a signature: for each of six polynomials the places that it marks, if the bytes are a hint (HintBitUnpack). -/
def hintUnpack (y : List Byte) : Option (List (List Nat)) :=
  let ends := (y.drop 55).map BitVec.toNat
  let begins := 0 :: ends.take 5
  let rows := (begins.zip ends).map fun e => ((y.take e.2).drop e.1).map BitVec.toNat
  let rises := fun (l : List Nat) => (l.zip (l.drop 1)).all fun p => decide (p.1 < p.2)
  if (begins.zip ends).all (fun e => decide (e.1 ≤ e.2 ∧ e.2 ≤ 55)) && rows.all rises &&
    ((y.take 55).drop ((ends[5]?).getD 0)).all (· == 0) then some rows else none

/-- The high part of a coefficient, moved by its hint (Decompose, UseHint), with 2γ2 = 523,776. -/
def useHint (h : Bool) (r : Nat) : Nat :=
  let a := 523776
  let low := r % a
  let pos := decide (low ≤ a / 2)
  let r1 := if pos then (r - low) / a else (r - low) / a + 1
  let (r1, pos) := if r1 = 16 then (0, false) else (r1, pos && low != 0)
  if h then (if pos then (r1 + 1) % 16 else (r1 + 15) % 16) else r1

/-- An ML-DSA-65 signature verifies: key, bytes signed, signature, with an empty context string (ML-DSA.Verify). -/
def mldsa65 (key msg sig : List Byte) : Bool :=
  match hintUnpack (sig.drop 3248) with
  | none => false
  | some hints =>
    let rho := key.take 32
    let t1 := (cut 320 6 (key.drop 32)).map fun b => bitUnpack 10 256 (leNat b)
    let zs := (cut 640 5 (sig.drop 48)).map fun b => (bitUnpack 20 256 (leNat b)).map fun v => (dsaQ + 2 ^ 19 - v) % dsaQ
    let mu := shake256 (shake256 key 64 ++ [0, 0] ++ msg) 64
    let ball := shake256 (sig.take 48) 552
    let c := ntt 1 8 (sampleBall (leNat (ball.take 8)) 49 207 (ball.drop 8) (List.replicate 256 0))
    let zh := zs.map (ntt 1 8)
    let w1 := (t1.zip hints).mapIdx fun r p =>
      let az := zh.mapIdx fun i z => (expandA rho r i).zipWith (fun x y => x * y % dsaQ) z
      let sum := az.foldl (fun x y => x.zipWith (fun a b => (a + b) % dsaQ) y) (List.replicate 256 0)
      let ct := c.zipWith (fun x y => x * y % dsaQ) (ntt 1 8 (p.1.map fun x => x * 2 ^ 13 % dsaQ))
      let w := (nttBack 1 8 (sum.zipWith (fun a b => (a + dsaQ - b) % dsaQ) ct)).map fun x => x * powMod dsaQ 256 (dsaQ - 2) 23 % dsaQ
      w.mapIdx fun i x => useHint (p.2.contains i) x
    let packed := w1.flatMap fun w => (cut 2 128 w).map fun e => BitVec.ofNat 8 ((e[0]?).getD 0 + 16 * (e[1]?).getD 0)
    zs.all (fun p => p.all fun x => decide (x < 524092 ∨ dsaQ - 524092 < x)) && shake256 (mu ++ packed) 48 == sig.take 48

end Sys2Proof.Machine
end

