-- ==== Sys2Proof/Machine/Objects.lean ====
section
/-! DEFINITION. The command ring of a partition (R319, R366), and the files that its commands read: signatures (R323), compressed sections
(R325, R388) and the upload of a code object (R265, R322). -/

namespace Sys2Proof.Machine

/-! ### The ring (R319, R366) -/

/-- The command at the head of the ring of a partition that runs: the address of its slot. -/
def State.cmdSlot (s : State) (part : Nat) : Option Nat :=
  if part < 8 && s.partOn part && s.cmdHead part != s.cmdTail part
  then some (s.cmdBase part + 64 * (s.cmdHead part % 2 ^ s.cmdLog part)) else none

/-- A line that a partition has left in a hub slice, to be written through. -/
def State.leftBy (s : State) (part ln : Nat) : Bool :=
  s.hubDirty.contains ln && match amGet s.hubLines ln with | some h => h.part == part | none => false

/-- The OP of the command at the head; its completion, a release at `.sys`, waits while lines that its partition has left in a hub slice
cannot be written through (R115, R319). -/
def State.cmdOp (s : State) (part : Nat) : Option Nat :=
  if s.hubDirty.any fun ln => s.leftBy part ln && !s.linkUp (hubOf (128 * ln)) then none
  else (s.cmdSlot part).map fun a => memNat s.mem a 1

/-- Argument i of the command at the head. -/
def State.cmdArg (s : State) (part i : Nat) : Nat :=
  match s.cmdSlot part with
  | some a => memNat s.mem (a + 8 + 8 * i) 8
  | none => 0

/-- The lines that a partition has left in the hub slices are written through: a release at `.sys` (R115). -/
def State.hubFlush (s : State) (part : Nat) : State := s.hubClean (s.leftBy part)

/-- The command completes with a cause code: its slot, CMDTL as a release at `.sys`, CMDHEAD, and the interrupt it asks for (R319,
R366). CMDTL is a physical address like CMDBASE beside it (log entry 12). -/
def State.cmdDone (s : State) (part cause : Nat) : State :=
  match s.cmdSlot part with
  | none => s
  | some a =>
    let irq := memNat s.mem (a + 1) 1 % 2 == 1
    let s := (s.homeWrite part (a + 4) (leBytes cause 4) none).hubFlush part
    let s := s.tlMark part (s.cmdTl part) 0
    let s := s.setFld (partBlock part + 48) 0 32 ((s.cmdHead part + 1) % 2 ^ 32)
    if irq then { s with msix := s.msix ++ [part] } else s

/-- A command of one OP at the head of the ring. -/
def State.command (s : State) (part op : Nat) (f : State) : Host.Outcome State Fault Refusal :=
  if s.cmdOp part == some op then .next f else .next s

def badCmd : Nat := 0xA0

/-- A global address that a hub writes for a partition. -/
def State.hubWritable (s : State) (part : Nat) (va : DWord) (n : Nat) : Option Nat :=
  match s.xlate hubUnit part va true false with
  | .ok x => if (s.writeCause part x.pa n).isSome then none else some x.pa
  | .bad .. => none

/-! ### Files (R322, R323) -/

/-- What an access of the hub's command processor comes to: a value, a wait for a page (and whether to write there), or nothing that can be
read or written. -/
inductive HubGet (α : Type) where
  | got (v : α)
  | wait (va : DWord) (write : Bool)
  | bad
  deriving Repr

def HubGet.bind {α β : Type} (x : HubGet α) (f : α → HubGet β) : HubGet β :=
  match x with
  | .got v => f v
  | .wait va w => .wait va w
  | .bad => .bad

/-- Bytes at a virtual address, page by page. -/
def State.readRange (s : State) (u part : Nat) (va : Nat) : Nat → Nat → HubGet (List Byte)
  | 0, _ => .got []
  | pages + 1, n =>
    let m := min n (65536 - va % 65536)
    if n = 0 then .got []
    else match s.xlate u part (BitVec.ofNat 64 va) false false with
      | .bad .. => .wait (BitVec.ofNat 64 va) false
      | .ok x => if (s.readCause part x.pa m).isSome then .bad
        else (State.readRange s u part (va + m) pages (n - m)).bind fun b => .got (s.homeRead x.pa m ++ b)

def State.readSome (s : State) (u part va n : Nat) : HubGet (List Byte) := s.readRange u part va (n / 65536 + 2) n

/-- Bytes written at a virtual address, page by page: those before a page that cannot be written stay written (R386). -/
def State.writeRange (s : State) (u part : Nat) (va : Nat) : Nat → List Byte → State × HubGet Unit
  | 0, _ => (s, .got ())
  | pages + 1, bs =>
    let m := min bs.length (65536 - va % 65536)
    if bs.isEmpty then (s, .got ())
    else match s.xlate u part (BitVec.ofNat 64 va) true false with
      | .bad .. => (s, .wait (BitVec.ofNat 64 va) true)
      | .ok x => if (s.writeCause part x.pa m).isSome then (s, .bad)
        else State.writeRange (s.homeWrite part x.pa (bs.take m) none) u part (va + m) pages (bs.drop m)

def State.writeSome (s : State) (u part va : Nat) (bs : List Byte) : State × HubGet Unit := s.writeRange u part va (bs.length / 65536 + 2) bs

/-- The keys of a list that carry an id (R323). -/
def State.keys (s : State) (part id : Nat) : List Nat :=
  ((List.range 16).map fun i => s.keyList part + 2048 * i).filter fun a => memNat s.mem a 8 == id

/-- Both signatures of a file verify under the keys that their ids name (R323). -/
def State.verified (s : State) (part : Nat) (file sig : List Byte) : Bool :=
  ((s.keys part (partNat sig 0 8)).any fun a => ed25519 (memBytes s.mem (a + 8) 32) file ((sig.drop 16).take 64)) &&
    (s.keys part (partNat sig 8 8)).any fun a => mldsa65 (memBytes s.mem (a + 40) 1952) file ((sig.drop 80).take 3309)

/-- A file at a virtual address and its signature: bytes 0 .. SIGOFF - 1, then `.sig`. -/
def State.signedFile (s : State) (part va : Nat) : HubGet (List Byte × List Byte) :=
  (s.readSome hubUnit part va 64).bind fun h => (s.readSome hubUnit part va (partNat h 8 8)).bind fun f =>
    (s.readSome hubUnit part (va + partNat h 8 8) 3389).bind fun g => .got (f, g)

/-! ### Region lists (R294) -/

/-- The entries of a region list, base and length; a list that cannot be read or has a bad COUNT has none. -/
def State.regionList (s : State) (part va : Nat) : HubGet (List (Nat × Nat)) :=
  if va = 0 then .got []
  else (s.readSome hubUnit part va 8).bind fun h =>
    let n := partNat h 0 4
    if n = 0 || 256 < n then .got []
    else (s.readSome hubUnit part (va + 8) (16 * n)).bind fun bs =>
      .got ((List.range n).map fun i => (partNat bs (16 * i) 8, partNat bs (16 * i + 8) 8))

/-- The entries of a region list as they can be read now. -/
def State.regions (s : State) (part va : Nat) : List (Nat × Nat) :=
  match s.regionList part va with | .got rs => rs | _ => []

/-- The launches of a partition that wait for a page of their region list. -/
def State.listWaits (s : State) (part : Nat) : List (Nat × DWord) :=
  s.launches.filterMap fun e =>
    if e.2.part == part && e.2.list == some false then
      match s.regionList part (e.2.fld 192 64) with | .wait va _ => some (e.1, va) | _ => none
    else none

/-- The fault on a page of a region list is refused: the list names nothing (log entry 104). -/
def State.refuseLists (s : State) (part : Nat) (on : DWord → Bool) : State :=
  (s.listWaits part).foldl (fun s e => if on e.2 then s.updLaunch e.1 fun l => { l with list := some true } else s) s

/-! ### Expansion (R325, R388) -/

/-- more(): following bytes summed to the first below 255, and the bytes behind it; none where they end before. -/
def moreOf : List Byte → Option (Nat × List Byte)
  | [] => none
  | b :: bs => if b = 255 then (moreOf bs).map fun e => (e.1 + 255, e.2) else some (b.toNat, bs)

/-- A length of a token: 15 in its four bits goes on in the bytes behind it. -/
def tokenLen (n add : Nat) (ins : List Byte) : Option (Nat × List Byte) :=
  if n = 15 then (moreOf ins).map fun e => (15 + add + e.1, e.2) else some (n + add, ins)

/-- Bytes repeated from `off` back in `hist`, up to a bound. -/
def copyBack (dict : List Byte) (off bound : Nat) : Nat → List Byte → List Byte
  | 0, out => out
  | n + 1, out =>
    if bound ≤ out.length then out
    else copyBack dict off bound n (out ++ [((dict ++ out)[dict.length + out.length - off]?).getD 0])

/-- The expansion of R325 over the bytes of a stream with the `tail` bytes that follow it in memory: what it puts out, and whether it
stopped at a token that R388 names. -/
def expand (dict : List Byte) (bound tail : Nat) : Nat → List Byte → List Byte → List Byte × Bool
  | 0, _, out => (out, false)
  | _, [], out => (out, false)
  | f + 1, tok :: ins, out =>
    if bound ≤ out.length || ins.length < tail then (out, false)
    else match tokenLen (tok.toNat / 16) 0 ins with
      | none => (out, false)
      | some (lit, ins) =>
        let out := (out ++ ins.take lit).take bound
        if ins.length ≤ tail + lit then (out, false)
        else match ins.drop lit with
          | lo :: hi :: ins =>
            let off := lo.toNat + 256 * hi.toNat
            match tokenLen (tok.toNat % 16) 4 ins with
            | none => (out, true)
            | some (len, ins) =>
              if off = 0 || dict.length + out.length < off || ins.length < tail then (out, true)
              else expand dict bound tail f ins (copyBack dict off bound len out)
          | _ => (out, true)

/-! ### The upload (R265, R322, R388) -/

/-- The header and the section table are those of R322. -/
def goodObject (file : List Byte) : Bool :=
  partNat file 0 4 == 0x4F564F31 && 1 ≤ partNat file 4 1 && 256 ≤ file.length &&
    (List.range 6).all fun i => partNat file (64 + 32 * i) 1 == i

/-- The unit that translates for an upload, which runs on the streamer of quad 0 of the partition's lowest-numbered die (R265). -/
def State.uploadUnit (s : State) (part : Nat) : Nat := 64 * (((List.range 8).find? fun d => (s.partDies part).testBit d).getD 0)

/-- A section of a file as it is uploaded, and whether its stream is malformed: a compressed one by its stream header, with the
dictionary where that header places it (R325). -/
def State.sectionBytes (s : State) (part : Nat) (file : List Byte) (id : Nat) : HubGet (List Byte × Bool) :=
  let e := (file.drop (64 + 32 * id)).take 32
  let stored := file.drop (partNat e 4 4)
  if (partNat e 1 1) % 2 == 1 then
    let ins := stored.drop 32
    (s.readSome (s.uploadUnit part) part (partNat stored 8 8) (partNat stored 20 4)).bind fun dict =>
      .got (expand dict (partNat stored 0 8) (ins.length - partNat stored 24 4) ins.length ins [])
  else .got (stored.take (partNat e 16 4), false)

/-- Where a section goes: `.text` at the load base; the place of the others is open. -/
def State.sectionBase (s : State) (base id : Nat) : Nat := if id = 0 then base else base + 64 * Config.pick s.choices (3000 + id)

/-- Sections written in their order, up to a malformed one, whose bytes before the bad token are written: the code that the command
completes with. What precedes a page that waits or cannot be written is in the state. -/
def State.writeSections (s : State) (part base : Nat) (file : List Byte) : List Nat → State × HubGet Nat
  | [] => (s, .got 0)
  | id :: ids => match s.sectionBytes part file id with
    | .wait va w => (s, .wait va w)
    | .bad => (s, .bad)
    | .got (bs, bad) => match s.writeSome (s.uploadUnit part) part (s.sectionBase base id) bs with
      | (t, .wait va w) => (t, .wait va w)
      | (t, .bad) => (t, .bad)
      | (t, .got _) => if bad then (t, .got 0x64) else State.writeSections t part base file ids

/-- The timeline of an upload can give its number. -/
def State.uploadTl (s : State) (part tl : Nat) : HubGet (Option Nat) :=
  if tl = 0 then .got none
  else match s.xlate hubUnit part (BitVec.ofNat 64 tl) true false with
    | .bad .. => .wait (BitVec.ofNat 64 tl) true
    | .ok x => if (s.writeCause part x.pa 16).isSome then .bad else .got (some x.pa)

/-- The upload of the object that the command at the head names: the code that the command completes with, and for a success the length of
`.text`; with the state that its writes so far leave, which count once every page that it reaches has a translation or has been refused (log
entry 106). -/
def State.upload (s : State) (part : Nat) : State × HubGet (Nat × Option Nat) :=
  let base := s.cmdArg part 1
  let tl := s.cmdArg part 2
  match s.signedFile part (s.cmdArg part 0) with
  | .wait va w => (s, .wait va w)
  | .bad => (s, .got (badCmd, none))
  | .got (file, sig) =>
    if !goodObject file || tl % 16 != 0 || base % 4 != 0 then (s, .got (badCmd, none))
    else if !s.verified part file sig then (s, .got (0xA1, none))
    else match s.uploadTl part tl with
      | .wait va w => (s, .wait va w)
      | .bad => (s, .got (0x63, none))
      | .got tl => match s.writeSections part base file [0, 1, 2, 3] with
        | (t, .wait va w) => (t, .wait va w)
        | (t, .bad) => (t, .got (0x63, none))
        | (t, .got code) =>
          let t := match tl with | some pa => let (t, k) := t.tlAccept part pa; t.tlComplete pa k 0 | none => t
          match s.sectionBytes part file 0 with
          | .got (text, _) => (t, .got (code, if code = 0 then some text.length else none))
          | _ => (t, .got (code, none))

/-- The page for which the command at the head waits, whether to write there, and the code with which the command completes if its fault
is refused. -/
def State.cmdWait (s : State) (part : Nat) : Option (DWord × Bool × Nat) :=
  match s.cmdOp part with
  | some 5 => (match (s.upload part).2 with | .wait va w => some (va, w, 0x63) | _ => none)
  | some 0x10 => (match s.signedFile part (s.cmdArg part 0) with | .wait va w => some (va, w, badCmd) | _ => none)
  | _ => none

/-- A command that waits for a refused page completes; what an upload has written before that page stays written. -/
def State.refuseCmd (s : State) (part : Nat) (on : DWord → Bool) : State :=
  match s.cmdWait part with
  | some (va, _, code) => if on va then (if s.cmdOp part == some 5 then (s.upload part).1 else s).cmdDone part code else s
  | none => s

end Sys2Proof.Machine
end

