-- ==== Sys2Proof/Machine/Engine.lean ====
section
/-! DEFINITION. The issue of the engine commands: the streamer commands (R219 to R229, R260), queries (R230, R231) and landing
(R232, R233). -/

namespace Sys2Proof.Machine

/-- NOT_PRODUCER: a streamer command from a skein without the rights (R222, R260). -/
def Iss.producerHits (x : Iss) : List Hit :=
  if x.act != 0 && x.k.lotSkein != x.launch.producer then [⟨0x60, 255, x.act, 0⟩] else []

/-- The commands that the streamer of a core's quad holds (R222, R259). -/
def State.quadLoad (s : State) (c : Nat) : Nat := (s.copies.filter fun e => (s.lot e.2.lot).core / 4 == c / 4).length

def State.addCopy (s : State) (x : Copy) : State :=
  { s with copies := amPut s.copies s.copySeq { x with id := s.copySeq }, copySeq := s.copySeq + 1 }

/-- The number that an engine command takes on the timeline block it names, once its address translates and the block can be
reached (R217). -/
def State.acceptTl (s : State) (u part : Nat) (va : DWord) : Option (State × Nat × Nat) :=
  match s.xlate u part va true false with
  | .ok x =>
    if (s.writeCause part x.pa 16).isSome || (s.readCause part x.pa 16).isSome then none
    else
      let r := s.tlAccept part x.pa
      some (r.1, x.pa, r.2)
  | .bad .. => none

/-! ### Shape records (R219, R220) -/

def shF (r : BitVec 512) (lo n : Nat) : Nat := bitsOf r.toNat lo n
def shBase (r : BitVec 512) : Nat := shF r 0 64
def shSize (r : BitVec 512) (d : Nat) : Nat := shF r (64 + 32 * d) 32
def shStride (r : BitVec 512) (d : Nat) : Nat := 16 * shF r (224 + 32 * (d - 1)) 32
def shBox (r : BitVec 512) (d : Nat) : Nat := shF r (352 + 16 * d) 16
def shDims (r : BitVec 512) : Nat := shF r 432 3
def shBti (r : BitVec 512) : Bool := r.getLsbD 440
def shLog (r : BitVec 512) : Nat := shF r 448 5

/-- The checks that the record alone decides: DETAIL 0 or 2 of SHAPE_ALIGN (R220, R369). -/
def shapeLimits (r : BitVec 512) : Option Nat :=
  let d := shDims r
  if shBase r % 16 != 0 then some 0
  else if d == 0 || 5 < d || (List.range d).any (fun j => shBox r j == 0 || 1024 < shBox r j) ||
      (shBti r && (16 < shLog r || d < 2)) || shF r 435 5 != 0 || shF r 441 7 != 0 || shF r 453 59 != 0 then some 2
  else none

/-- The check of BOX[0] against the format of the data's page: DETAIL 1. -/
def boxCheck (r : BitVec 512) (pf : PageFmt) : Option Nat :=
  let b := shBox r 0
  let ok := if pf.fmt == 7 then b % (if pf.geo == 1 then 384 else 64) == 0 else b * fmtBytes pf.fmt % 16 == 0
  if ok then none else some 1

/-- What SHAPE comes to (R220): an address on its way has no translation, or cannot be read; a check fails, with its DETAIL; or the record
with its format. -/
inductive ShapeGot where
  | wait (va : DWord)
  | bad (code : Nat) (va : DWord)
  | off (detail : Nat)
  | ok (sh : Shape)
  deriving DecidableEq, Repr

/-- Bytes that a SHAPE reads. -/
def State.shapeRead (s : State) (c part : Nat) (va : DWord) (n : Nat) (go : List Byte → ShapeGot) : ShapeGot :=
  match s.xlate c part va false false with
  | .bad .. => .wait va
  | .ok x => match s.readCause part x.pa n with
    | some e => .bad e va
    | none => go (s.homeRead x.pa n)

/-- A shape record as SHAPE reads it: the record, with BTI the first entry of its table, and the format of the data's page (R220). -/
def State.shapeAt (s : State) (c part : Nat) (va : DWord) : ShapeGot :=
  s.shapeRead c part va 64 fun bs =>
    let r : BitVec 512 := BitVec.ofNat 512 (leNat bs)
    let data := fun (v : DWord) => match s.xlate c part v false false with
      | .bad .. => ShapeGot.wait v
      | .ok x => match boxCheck r x.fmt with
        | some d => .off d
        | none => .ok ⟨r, x.fmt⟩
    match shapeLimits r with
    | some d => .off d
    | none =>
      if shBti r then s.shapeRead c part (BitVec.ofNat 64 (shBase r)) 8 fun b => data (BitVec.ofNat 64 (leNat b))
      else data (BitVec.ofNat 64 (shBase r))

/-- The copy entry that an issuing streamer command makes for one lane. -/
def Iss.copy (x : Iss) (i : Instr) (l : Nat) (block : List Word) (tlVa : Option DWord) : Copy :=
  { id := 0, lot := x.k.lot, slot := x.q, order := x.k.seq, i, info := x.info, lane := l, block, src := 0, dst := 0, tile := none, bar := none, tlVa, tl := none
    batch := x.lot.batchSeq, stage := .queued, shape := none, list := [], units := [], pages := [], outp := 0, inp := 0
    head := [], soft := none, mma := none, stamp := x.s.stampOf (x.k.laneLot l), wid := x.k.wid }

/-- A SHAPE that cannot read what it needs: it has issued, its slot stays as it is, and the cause is deferred (R373, R376). -/
def Iss.shapeFails (x : Iss) (l code detail : Nat) (va : DWord) : State :=
  (x.finish x.s x.afterStore false).engineCause x.c x.q x.k.lot (laneCause x.info l x.k.seq code detail va [])

/-- SHAPE (R219, R220, R376): the record is checked when it issues, once the skein's earlier accesses are performed (R126); while its
page or the data's has no translation, the instruction waits at its address (R370). -/
def execShape (c : Ctl) (slot : BitVec 4) (off : BitVec 24) (a : Opnd) (s : State) : Host.Outcome State Fault Refusal :=
  let i := Instr.shape c slot off a
  let va := fun (x : Iss) => x.spaceAddr .g a (sx24 off) (x.low.getD 0)
  let one := fun (x : Iss) => (BitVec.ofNat 64 (2 ^ x.low.getD 0) : Lanes)
  let quiet := fun (x : Iss) => x.s.skeinQuiet x.c x.q x.k.seq x.k.hb
  issue i s false (fun x =>
      if x.act == 0 then []
      else x.producerHits ++ (if canonical (va x) then [] else [⟨0x32, 255, one x, va x⟩]) ++
        (if quiet x then match x.s.shapeAt x.c x.part (va x) with
          | .off d => [⟨0x35, d, one x, va x⟩]
          | _ => [] else []))
    fun x =>
      if x.act == 0 then x.finish x.s x.afterStore false
      else if !quiet x || 64 ≤ x.s.quadLoad x.c then x.s
      else
        let l := x.low.getD 0
        match x.s.shapeAt x.c x.part (va x) with
        | .wait v => (match x.refused [v] with
          | some (code, d, _) => x.shapeFails l code d v
          | none => x.asking [v])
        | .bad code v => x.shapeFails l code 255 v
        | .off _ => x.s
        | .ok sh => if x.lot.role == .trailing then x.finish x.s x.afterStore false
          else x.finish (x.s.addCopy { x.copy i l [] none with src := va x, shape := some sh }) x.afterStore false

/-! ### Copies (R221 to R228) -/

/-- The copy block of a lane (R221). -/
def Iss.copyBlock (x : Iss) (b : Opnd) (l : Nat) : List Word :=
  match b with
  | .vec i => (List.range 8).map fun j => x.k.vlane (i.toNat + j) l
  | _ => []

/-- The timeline operand of a lane: the kind-11 immediate names none (R221). -/
def Iss.tlOf (x : Iss) (isA : Bool) (o : Opnd) (l : Nat) : Option DWord :=
  match o with
  | .imm _ => none
  | _ => some (if isA then x.opA o true l else x.op o true l)

/-- CPY_ALIGN (R376): the tile, the barrier object and the timeline block are aligned to 16, the list of CPYG to 4. -/
def Iss.copyAlign (x : Iss) (block : Nat → List Word) (tl : Nat → Option DWord) (list : Bool) : List Hit :=
  let t := fun l => blockWord (block l) 5
  let o := fun l => blockWord (block l) 6
  hitOn 0x36 4 (x.failing fun l => (t l).toNat % 16 != 0 || (o l != 0xFFFFFFFF && (o l).toNat % 16 != 0) ||
      (match tl l with | some v => v.toNat % 16 != 0 | none => false)) (fun l => (t l).setWidth 64) ++
    (if list then hitOn 0x36 2 (x.failing fun l => (blockWord (block l) 7).toNat % 4 != 0)
      fun l => (blockWord (block l) 7).setWidth 64 else [])

/-- The places of a copy's tile and barrier object, which stay allocated until it has completed (R221, R262). -/
def State.placed (s : State) (x : Copy) : Copy :=
  let obj := blockWord x.block 6
  if x.isUnz || x.isShape then x
  else { x with tile := s.copyPlace x x.cx.ts (blockWord x.block 5).toNat
                bar := if obj == 0xFFFFFFFF then none else s.copyPlace x x.cx.bs obj.toNat }

/-- The copies of an instruction enter the streamer's queue in ascending lane order, each taking its number where its timeline
block can be reached (R217, R222); a full queue holds the instruction. Those of a pair are performed once, by its leading lot (R407). -/
def Iss.enqueue (x : Iss) (side : Option Bool) (mk : Nat → Copy) : State :=
  let ls := laneList x.act
  if x.lot.role == .trailing then x.finish x.s x.afterStore false
  else if 64 < x.s.quadLoad x.c + ls.length then x.s
  else
    let y := match side with | some r => x.sided r | none => x
    let s := ls.foldl (fun s l =>
      let cp := x.s.placed (mk l)
      match cp.tlVa.bind fun v => s.acceptTl x.c x.part v with
      | some (t, tl) => t.addCopy { cp with tl := some tl }
      | none => s.addCopy cp) y.s
    let s := s.updLot x.k.lot fun lt => { lt with openBatch := lt.openBatch + ls.length }
    x.finish s x.afterStore false

/-- A copy with TS or BS marks its lot (R304). -/
def CpyX.side (m : CpyX) : Option Bool := if m.ts || m.bs then some false else none

/-- CPY (R221 to R225). -/
def execCpy (c : Ctl) (m : CpyMode) (v : CpyX) (a b : Opnd) (s : State) : Host.Outcome State Fault Refusal :=
  let i := Instr.cpy c m v a b
  issue i s false (fun x => x.producerHits ++ x.copyAlign (x.copyBlock b) (x.tlOf true a) false) fun x =>
    x.enqueue (CpyX.side v) fun l => x.copy i l (x.copyBlock b l) (x.tlOf true a l)

/-- CPYG (R226). -/
def execCpyg (c : Ctl) (dec : Bool) (v : CpyX) (a b : Opnd) (s : State) : Host.Outcome State Fault Refusal :=
  let i := Instr.cpyg c dec v a b
  issue i s false (fun x => x.producerHits ++ x.copyAlign (x.copyBlock b) (x.tlOf true a) true) fun x =>
    x.enqueue (CpyX.side v) fun l => x.copy i l (x.copyBlock b l) (x.tlOf true a l)

/-- CPY.unz (R227): destination, source and timeline are pairs. -/
def execCpyUnz (c : Ctl) (d a b : Opnd) (s : State) : Host.Outcome State Fault Refusal :=
  let i := Instr.cpyUnz c d a b
  let dst : Iss → Nat → DWord := fun x l => match d with
    | .vec n => pairOf (x.k.vlane (n.toNat + x.ixAdd true) l) (x.k.vlane (n.toNat + x.ixAdd true + 1) l)
    | .scl n => pairOf (x.k.scalar n.toNat) (x.k.scalar (n.toNat + 1))
    | _ => 0
  issue i s false (fun x => x.producerHits ++
      hitOn 0x36 4 (x.failing fun l => match x.tlOf false b l with | some v => v.toNat % 16 != 0 | none => false)
        fun l => (x.tlOf false b l).getD 0) fun x =>
    x.enqueue (some true) fun l => { x.copy i l [] (x.tlOf false b l) with src := x.opA a true l, dst := dst x l }

/-- The words of the MMA that a lane's copy carries (R228). -/
def Iss.cpymWords (x : Iss) (d : Opnd) (l : Nat) : List Word :=
  match d with
  | .vec n => (List.range 3).map fun j => x.k.vlane (n.toNat + x.ixAdd true + j) l
  | _ => []

/-- The fields of those words. -/
def cpymFields (ws : List Word) : Fields := unpack none (blockWord ws 2 ++ blockWord ws 1 ++ blockWord ws 0)

/-- CPYM_WORDS: the DETAIL of the first field found wrong (R256, R385). -/
def Iss.wordsBad (x : Iss) (ws : List Word) : Option Nat :=
  let f := cpymFields ws
  if f.opc != 0xD3 then some 0
  else if f.guard != 7 then some 12
  else if f.gneg != 0 then some 15
  else (firstCause (some x.env) f).map Prod.snd

/-- The MMA of a lane: its modifiers and the values of its register operands in that lane (R228). -/
def Iss.cpymMma (x : Iss) (ws : List Word) (l : Nat) : Option (MmaX × MmaVals) :=
  match decodeWords (blockWord ws 0) (blockWord ws 1) (blockWord ws 2) 0 with
  | .ok (.mma _ m a b) _ => some (m, ({ x with f := cpymFields ws } : Iss).mmaVals a b l)
  | _ => none

/-- The operand bases whose pages the checks of a CPYM read. -/
def Iss.cpymBases (x : Iss) (d : Opnd) : List DWord :=
  (laneList x.act).flatMap fun l => match x.wordsBad (x.cpymWords d l), x.cpymMma (x.cpymWords d l) l with
    | none, some (m, v) => MmaX.bases m v
    | _, _ => []

/-- The causes of the MMAs of a CPYM at issue, over the lanes that fail, with the DETAIL of the lowest (R385, R389). -/
def Iss.cpymHits (x : Iss) (d : Opnd) : List Hit :=
  let word : Nat → Option Nat := fun l => x.wordsBad (x.cpymWords d l)
  let opnd : Nat → Option Nat := fun l => match word l, x.cpymMma (x.cpymWords d l) l with
    | none, some (m, v) => x.mmaDetail m v
    | _, _ => none
  let hit := fun (code : Nat) (bad : Nat → Option Nat) =>
    let ls := x.failing fun l => (bad l).isSome
    match lowest ls with
    | some l => [(⟨code, (bad l).getD 0, ls, 0⟩ : Hit)]
    | none => []
  if !(x.missing (x.cpymBases d)).isEmpty then [] else hit 0x68 word ++ hit 0x65 opnd

/-- CPYM (R228). -/
def execCpym (c : Ctl) (v : CpyX) (d a b : Opnd) (s : State) : Host.Outcome State Fault Refusal :=
  let i := Instr.cpym c v d a b
  issue i s false (fun x =>
      x.producerHits ++ x.copyAlign (x.copyBlock b) (x.tlOf true a) false ++ x.cpymHits d) fun x =>
    if !(x.missing (x.cpymBases d)).isEmpty then x.asking (x.cpymBases d)
    else x.enqueue (CpyX.side v) fun l =>
      let m : Option MCmd := (x.cpymMma (x.cpymWords d l) l).map fun (e : MmaX × MmaVals) =>
        { x.mmaCmd e.1 e.2 with lanes := BitVec.ofNat 64 (2 ^ l), stamp := x.s.stampOf (x.k.laneLot l) }
      { x.copy i l (x.copyBlock b l) (x.tlOf true a l) with mma := m }

/-- SEAL (R127, R229). -/
def execSeal (c : Ctl) (s : State) : Host.Outcome State Fault Refusal :=
  issue (.seal c) s false (fun x => x.producerHits) fun x =>
    let s := if x.act == 0 then x.s
      else x.s.updLot x.k.lot fun lt => { lt with batchSeq := lt.batchSeq + 1, openBatch := 0 }
    x.finish s (x.advance x.k) false

/-- CPWT (R127, R229). -/
def execCpwt (c : Ctl) (a : Opnd) (s : State) : Host.Outcome State Fault Refusal :=
  issue (.cpwt c a) s false (fun x => x.producerHits) fun x =>
    match x.low with
    | some l => x.finish x.s (x.waiting x.k fun _ => .cpwt (x.a32 a l).toNat) true
    | none => x.finish x.s (x.advance x.k) true

/-! ### Search and landing -/

/-- QSRCH (R230). -/
def execQsrch (c : Ctl) (off : BitVec 24) (a : Opnd) (s : State) : Host.Outcome State Fault Refusal :=
  let i := Instr.qsrch c off a
  let addr := fun (x : Iss) => x.spaceAddr .g a (sx24 off)
  issue i s true (fun x => x.globalHits 7 (addr x)) fun x => (x.sided true).startAccess i (addr x) zeroLane zeroLane []

/-- QSTAT (R231). -/
def execQstat (c : Ctl) (off : BitVec 24) (d a : Opnd) (s : State) : Host.Outcome State Fault Refusal :=
  let i := Instr.qstat c off d a
  issue i s true (fun _ => []) fun x => x.startAccess i (x.spaceAddr .g a (sx24 off)) zeroLane zeroLane [x.dstOf d]

/-- A landing sent by a lane. -/
def State.addLand (s : State) (m : LandMsg) : State :=
  { s with lands := amPut s.lands s.landSeq { m with id := s.landSeq, pos := s.landSeq }, landSeq := s.landSeq + 1 }

/-- The message of a lane: its index is (%pkg, q, n, %lot, %rank) (R232). -/
def Iss.landMsg (x : Iss) (report : Bool) (va val : DWord) (ty : BitVec 4) (l : Nat) : LandMsg :=
  let lot := x.s.lot (x.k.laneLot l)
  let rank := match x.k.fibre l with | some f => f.rank.toNat | none => 0
  { id := 0, report, part := x.part, core := x.c, slot := x.q, lot := x.k.laneLot l, order := x.k.seq, info := x.info, lane := l
    va, val, ty, key := [x.s.pkg, x.launch.q, x.launch.n, lot.idx, rank], pos := 0, det := x.launch.determ
    stamp := x.s.stampOf (x.k.laneLot l), wid := x.k.wid, abroad := false, late := none }

/-- LAND (R232). -/
def execLand (c : Ctl) (t : Fmt) (off : BitVec 24) (a b : Opnd) (s : State) : Host.Outcome State Fault Refusal :=
  let addr := fun (x : Iss) => x.spaceAddr .g a (sx24 off)
  issue (.land c t off a b) s false (fun x => x.globalHits (Nat.log2 t.bytes) (addr x)) fun x =>
    let s := if x.lot.role == .trailing then x.s
      else (laneList x.act).foldl (fun s l => s.addLand
        (x.landMsg false (addr x l) (x.typedOp t b l) t.code l)) (x.sided true).s
    x.finish s x.afterStore false

/-- The lake of a descriptor lies in another module: a proxy lake is registered for it (R321). -/
def State.abroad (s : State) (part : Nat) (va : DWord) : Bool :=
  s.lakes.any fun k => k.part == part && k.va == va && k.desc.getLsbD 437

/-- LANDF (R233, R392): it waits as a release at `.pkg` does, or at `.pod` where the lake lies in another module, and issues once every
earlier LAND of the skein has been answered and a cause of one has been delivered. -/
def execLandf (c : Ctl) (off : BitVec 24) (a : Opnd) (s : State) : Host.Outcome State Fault Refusal :=
  let addr := fun (x : Iss) => x.spaceAddr .g a (sx24 off)
  issue (.landf c off a) s false (fun x => x.globalHits 6 (addr x)) fun x =>
    if (amVals x.s.lands).any fun m => m.core == x.c && m.slot == x.q && !m.report then x.s
    else if !x.k.deferred.isEmpty then x.s.defer x.c x.q []
    else x.afterWrites (if (laneList x.act).any fun l => x.s.abroad x.part (addr x l) then .pod else .pkg) fun x =>
      let descs := (laneList x.act).foldl (fun (ds : List (DWord × Nat)) l =>
        if ds.any fun e => e.1 == addr x l then ds else ds ++ [(addr x l, l)]) []
      let s := if x.lot.role == .trailing then x.s
        else descs.foldl (fun s e =>
          (s.addLand (x.landMsg true e.1 0 0 e.2)).updLot (x.k.laneLot e.2) fun lt =>
            { lt with landed := lt.landed.filter fun d => d.1 != e.1.toNat }) (x.sided true).s
      x.finish s x.afterStore false

end Sys2Proof.Machine
end

