-- ==== Sys2Proof/Machine/Streamer.lean ====
section
/-! DEFINITION. The streamers (R222 to R229, R259 to R265, R325, R386 to R388): the geometry of a copy, its start, its bytes, its
page checks and its completion, and the expansion of `.unz`. A copy advances by units: one 4-byte piece of the tile, or
one token under `.unz`. -/

namespace Sys2Proof.Machine

/-! ### Geometry (R221, R223, R224, R226, R425) -/

def Copy.crec (x : Copy) : BitVec 512 := (x.shape.getD default).crec
def Copy.pf (x : Copy) : PageFmt := (x.shape.getD default).pf
def Copy.mode (x : Copy) : CpyMode :=
  match x.i with
  | .cpy _ m .. => m
  | .cpyg _ dec .. => if dec then .dec else .raw
  | _ => .raw
def Copy.e2 (x : Copy) : Bool := x.pf.fmt == 7
def Copy.packed (x : Copy) : Bool := x.e2 && x.pf.geo == 1
def Copy.rawE2 (x : Copy) : Bool := x.e2 && x.mode == .raw
/-- es of the decoding modes (R224). -/
def Copy.es (x : Copy) : Nat := if !x.e2 && fmtBytes x.pf.fmt == 8 then 8 else 4
def Copy.dims (x : Copy) : Nat := shDims x.crec
def Copy.box (x : Copy) (d : Nat) : Nat := shBox x.crec d
/-- rb (R223). -/
def Copy.rowLen (x : Copy) : Nat :=
  match x.mode with
  | .raw => if x.packed then 256 * x.box 0 / 384 else if x.e2 then x.box 0 / 2 else fmtBytes x.pf.fmt * x.box 0
  | _ => x.es * x.box 0
def Copy.rows (x : Copy) : Nat := (List.range (x.dims - 1)).foldl (fun n d => n * x.box (d + 1)) 1
def Copy.tileLen (x : Copy) : Nat := x.rows * x.rowLen
/-- The bytes of a unit: one element of 4 bytes, or half of one of 8, which is two accesses (R106). -/
def Copy.unit (_x : Copy) : Nat := 4
def Copy.unitCount (x : Copy) : Nat := x.tileLen / x.unit

/-- The first element of dimension 0 to which a byte of a row belongs. -/
def Copy.elem0 (x : Copy) (w : Nat) : Nat :=
  match x.mode with
  | .raw => if x.packed then 384 * (w / 256) else if x.e2 then 64 * (w / 32) else w / fmtBytes x.pf.fmt
  | _ => w / x.es

/-- Box index d of a row. -/
def Copy.rowIdx (x : Copy) (row d : Nat) : Nat :=
  row / (List.range (d - 1)).foldl (fun n j => n * x.box (j + 1)) 1 % x.box d

/-- Coordinate d of box index i: CPYG takes the list's entry along the outermost dimension (R226). -/
def Copy.coord (x : Copy) (d i : Nat) : Int :=
  if x.gathers && d + 1 == x.dims then (((x.list[i]?).getD 0 : Nat) : Int) else (blockWord x.block d).toInt + (i : Int)

/-- The coordinates of the element at a byte of the tile. -/
def Copy.coords (x : Copy) (t : Nat) : List Int :=
  (List.range x.dims).map fun d =>
    if d = 0 then x.coord 0 (x.elem0 (t % x.rowLen)) else x.coord d (x.rowIdx (t / x.rowLen) d)

def Copy.inside (x : Copy) (co : List Int) : Bool :=
  (List.range x.dims).all fun d =>
    let v := (co[d]?).getD 0
    decide (0 ≤ v) && decide (v < ((shSize x.crec d : Nat) : Int))

/-- The block-table entry that the address of an element needs (R223). -/
def Copy.tableVa (x : Copy) (co : List Int) : Option DWord :=
  if shBti x.crec then
    some (BitVec.ofNat 64 (shBase x.crec + 8 * (((co[x.dims - 1]?).getD 0).toNat / 2 ^ shLog x.crec)))
  else none

/-- The address of the row's first byte, from the base address (R223). -/
def Copy.rowAddr (x : Copy) (base : DWord) (co : List Int) : DWord :=
  let top := if shBti x.crec then x.dims - 2 else x.dims - 1
  let out := ((co[x.dims - 1]?).getD 0).toNat
  let base := if shBti x.crec then base + BitVec.ofNat 64 (out % 2 ^ shLog x.crec * shStride x.crec (x.dims - 1)) else base
  (List.range top).foldl (fun a d => a + BitVec.ofInt 64 ((co[d + 1]?).getD 0 * ((shStride x.crec (d + 1) : Nat) : Int))) base

/-- The pieces of global memory that hold what a byte of a raw tile, or the element at it, is made of, in the order in which
the conversion reads them. An E2M1 row is placed by the rule of a page as if it began a page, also where BASE or a stride does not
put it at the start of a group or of a pack, for which the spec states no placement (R80, R220, log entry 114). -/
def Copy.globs (x : Copy) (base : DWord) (t : Nat) (co : List Int) : List (DWord × Nat) :=
  let row := x.rowAddr base co
  let c0 := ((co[0]?).getD 0).toNat
  let w := t % x.rowLen
  let at' := fun (o n : Nat) => (row + BitVec.ofNat 64 o, n)
  match x.mode with
  | .raw =>
    if x.packed then [at' (c0 / 384 * 256 + w % 256) 1]
    else if x.e2 then [at' (c0 / 2 + w % 32) 1]
    else [at' (c0 * fmtBytes x.pf.fmt + w % fmtBytes x.pf.fmt) 1]
  | _ =>
    if x.e2 then
      let (b, _, sc) := e2m1Place x.packed c0
      at' b 1 :: match sc with | some (blk, band) => [at' blk 1, at' band 2] | none => []
    else if x.es == 8 then [at' (c0 * 8 + w % 8) 4]
    else [at' (c0 * fmtBytes x.pf.fmt) (fmtBytes x.pf.fmt)]

/-- The tile bytes of unit e that stand for an element each: every byte under `.raw`, else the first. -/
def Copy.unitBytes (x : Copy) (e : Nat) : List Nat :=
  if x.mode == .raw then (List.range 4).map (· + 4 * e) else [4 * e]

def Copy.core (s : State) (x : Copy) : Nat := (s.lot x.lot).core
def Copy.part (s : State) (x : Copy) : Nat := s.partOf (s.lot x.lot)

/-- The base address for an element: BASE, or the table's entry. -/
def State.copyBase (s : State) (x : Copy) (co : List Int) : Eng × DWord :=
  match x.tableVa co with
  | none => (.ok s [], BitVec.ofNat 64 (shBase x.crec))
  | some va => match s.engRead (.copy x.id) (Copy.core s x) (Copy.part s x) va 8 with
    | .ok t bs => (.ok t [], BitVec.ofNat 64 (leNat bs))
    | e => (e, va)

/-! ### Failure and completion (R387) -/

def State.setCopy (s : State) (x : Copy) : State := { s with copies := amPut s.copies x.id x }
def State.dropCopy (s : State) (x : Copy) : State := { s with copies := amErase s.copies x.id }

/-- A copy has gone: rows of lots that are no longer resident may go with it (R262). -/
def State.copyLeft (s : State) (x : Copy) : State :=
  ((x.tile.toList ++ x.bar.toList).map Prod.fst ++ [x.lot]).eraseDups.foldl (fun s n =>
    if (s.lot n).resident then s else s.departed (s.lot n).core (s.lot n).launch) s

/-- A copy fails: it counts as finished in its batch, and its operation completes at the issuer's TRET (R387). -/
def State.copyFail (s : State) (x : Copy) (code detail : Nat) (va : DWord) : State :=
  ((s.dropCopy x).copyLeft x).engineCause (Copy.core s x) x.slot x.lot
    (laneCause x.info x.lane x.order code detail va (x.tl.map fun e => (e.1, e.2, s.pubOf x.lot x.stamp)).toList)

/-- A cause that is reported with the completion: the first one stays. -/
def Copy.softly (x : Copy) (code detail : Nat) (va : DWord) : Copy :=
  { x with soft := some (x.soft.getD (code, detail, va)) }

/-! ### Start (R219, R220, R261, R386) -/

/-- Where a part of an allocation leaves it: the first byte outside, by the address that names the part; all of it where there is no
allocation. -/
def State.outside (s : State) (p : Option (Nat × Nat)) (addr n : Nat) : Option Nat :=
  match p with
  | some (m, o) => if o + n ≤ (s.lot m).alloc then none else some (addr + ((s.lot m).alloc - o))
  | none => some addr

/-- The checks of a copy at its start, lowest cause first, with the first failing address (R386); one that fails a check of no address names
its tile (log entry 114). -/
def State.startCheck (s : State) (x : Copy) : Option (Nat × Nat × Nat) :=
  let w := fun (j : Nat) => (blockWord x.block j).toNat
  let tileOut := s.outside x.tile (w 5) x.tileLen
  let listOut := if x.gathers then s.outside (some (x.lot, w 7)) (w 7) (4 * x.box (x.dims - 1)) else none
  let barOut := if w 6 = 0xFFFFFFFF then none else s.outside x.bar (w 6) 16
  if x.shape.isNone then some (0x61, 2, w 5)
  else if x.mode == .enc && x.packed then some (0x61, 1, w 5)
  else match tileOut.or listOut, barOut with
    | some a, _ => some (0x62, 0, a)
    | none, some a => some (0x62, 1, a)
    | none, none =>
      if x.rawE2 && (blockWord x.block 0).toInt % (if x.packed then 384 else 64) != 0 then some (0x62, 2, w 5) else none

/-- SHAPE takes effect in its place (R220): its slot is installed. -/
def State.startShape (s : State) (x : Copy) : State :=
  let slot := match x.i with | .shape _ n .. => n.toNat | _ => 0
  let install := fun (sh : Shape) => (s.dropCopy x).updLot x.lot fun l => { l with shapes := amPut l.shapes slot sh }
  match x.shape with
  | some sh => install sh
  | none => s.dropCopy x

/-- The stream header of `.unz` (R325): SLEN, DLEN, DICTVA, BOUND. -/
def State.startUnz (s : State) (x : Copy) : State :=
  match s.engRead (.copy x.id) (Copy.core s x) (Copy.part s x) x.src 32 with
  | .wait => s
  | .bad c _ => s.copyFail x 0x63 c x.src
  | .ok t bs => t.setCopy { x with stage := .started, inp := 32,
                                   head := [partNat bs 24 4, partNat bs 20 4, partNat bs 8 8, partNat bs 0 8] }

/-- A copy of a tile starts. -/
def State.startTile (s : State) (x : Copy) : State :=
  let x := { x with shape := amGet (s.lot x.lot).shapes x.cx.slot.toNat }
  match s.startCheck x with
  | some (c, d, a) => s.copyFail x c d (BitVec.ofNat 64 a)
  | none =>
    let off := (blockWord x.block 7).toNat
    let n := 4 * x.box (x.dims - 1)
    let l := s.lot x.lot
    if x.gathers && !l.clearedAt off n then s
    else if x.gathers && l.poisoned off n then s.copyFail x 0x63 0x44 (BitVec.ofNat 64 off)
    else
      s.setCopy { x with
        stage := .started
        list := if x.gathers then (List.range (x.box (x.dims - 1))).map fun i => memNat l.scratch (off + 4 * i) 4 else [] }

/-- A queued command is its lot's oldest, and the accesses that it is ordered after are performed (R126, R261). -/
def State.copyReady (s : State) (x : Copy) : Bool :=
  x.stage == .queued && (s.copies.all fun e => e.2.lot != x.lot || e.2.stage != .queued || x.id ≤ e.1) &&
    (!(s.lot x.lot).resident || s.skeinQuiet (Copy.core s x) x.slot x.order x.info.hb)

/-- It can start: its timeline block has given its number, and fewer than eight copies of its lot are in progress (R217, R259). -/
def State.copyCan (s : State) (x : Copy) : Bool :=
  s.copyReady x && (x.tlVa.isNone || x.tl.isSome) &&
    decide (((amVals s.copies).filter fun y => y.lot == x.lot && y.stage == .started).length < 8)

/-- The place of a command's lot in the rounds of its quad's streamer: its core, then the `%skein` of its producer (R259). -/
def Copy.place (s : State) (x : Copy) : Nat := 64 * Copy.core s x + x.slot

/-- How far a place is from the one that is next. -/
def turnDist (next p : Nat) : Nat := (p % 256 + 256 - next % 256) % 256

/-- It is the turn of the command's lot among those of the quad that can start (R259). -/
def State.copyTurn (s : State) (x : Copy) : Bool :=
  let quad := Copy.core s x / 4
  let next := (s.core (4 * quad)).turn
  (amVals s.copies).all fun y => Copy.core s y / 4 != quad || !s.copyCan y ||
    decide (turnDist next (Copy.place s x) ≤ turnDist next (Copy.place s y))

/-- COPY_START (R261): the oldest queued command of a lot takes the number of its timeline block (R217), and starts in its lot's
turn (R259). -/
def execCopyStart (n : Nat) (s : State) : Host.Outcome State Fault Refusal :=
  match amGet s.copies n with
  | none => .next s
  | some x =>
    if !s.copyReady x then .next s
    else match x.tlVa, x.tl with
      | some va, none =>
        if s.heldAt (.copy n) va then .next s
        else match s.acceptTl (Copy.core s x) (Copy.part s x) va with
          | some (t, tl) => .next (t.setCopy { x with tl := some tl })
          | none => .next s
      | _, _ =>
        if !s.copyCan x || !s.copyTurn x then .next s
        else
          let s := s.updCore (4 * (Copy.core s x / 4)) fun u => { u with turn := Copy.place s x + 1 }
          .next (if x.isShape then s.startShape x else if x.isUnz then s.startUnz x else s.startTile x)

/-! ### Page checks (R386) -/

/-- The addresses of global memory that a started copy of a tile has still to reach. -/
def State.copyReach (s : State) (x : Copy) : List DWord :=
  (List.range x.unitCount).flatMap fun e =>
    if x.units.contains e then []
    else (x.unitBytes e).flatMap fun t =>
      let co := x.coords t
      if x.inside co then
        match s.copyBase x co with
        | (.ok .., base) => (x.globs base t co).map Prod.fst
        | _ => []
      else []

/-- COPY_PAGE_CHECK (R386): a page that the copy reaches is translated and its format checked. -/
def execCopyPageCheck (n : Nat) (va : BitVec 64) (s : State) : Host.Outcome State Fault Refusal :=
  match amGet s.copies n with
  | none => .next s
  | some x =>
    let page := va.toNat / 65536
    if x.stage != .started || x.isUnz || x.pages.contains page || s.heldAt (.copy n) va ||
        !(s.copyReach x).any fun a => a.toNat / 65536 == page then .next s
    else match s.xlate (Copy.core s x) (Copy.part s x) va x.cx.dir false with
      | .bad .. => .next s
      | .ok t =>
        if x.mode == .enc && t.fmt.fmt == 7 && t.fmt.geo == 1 then .next (s.copyFail x 0x61 1 va)
        else if t.fmt != x.pf then .next (s.copyFail x 0x61 0 va)
        else .next (s.setCopy { x with pages := insNat x.pages page })

/-! ### Bytes (R224, R225) -/

/-- The element of a decoding copy (R204). -/
def Copy.decode (x : Copy) (t : Nat) (bs : List Byte) : List Byte :=
  if x.es == 8 then bs
  else if x.e2 then
    let c0 := ((x.coords t)[0]?).getD 0
    let (_, hi, sc) := e2m1Place x.packed c0.toNat
    leBytes (e2m1Word (partNat bs 0 1 / (if hi then 16 else 1) % 16) (sc.map fun _ => (partNat bs 1 1, partNat bs 2 2))).1 4
  else ((fmtWords x.pf.fmt bs).1.flatMap fun w => leBytes w.toNat 4)

/-- The rounding mode of `.enc` (R68). -/
def rndMode (n : BitVec 3) : RMode :=
  match n.toNat with
  | 1 => .rz | 2 => .rup | 3 => .rdn | 4 => .rna | _ => .rne

/-- The stored value of an encoded element (R224): FP32 rounded once, integers saturated. A value that keeps its format keeps its bits, a
NaN among them (R62, log entry 114). -/
def Copy.encode (x : Copy) (v : Nat) : Nat :=
  match fmtNum x.pf.fmt with
  | .fp .f64 => v
  | .fp .f32 => v
  | .fp t => (cvtOne (.fp t) (.fp .f32) (rndMode x.cx.rnd) 0 v).1.toNat
  | .int 64 _ => v
  | .int w sg => (satInt w sg (intOf 32 sg v)).toNat % 2 ^ w

/-- Pieces read by a copy in order; whether one was poisoned. -/
def State.copyReads (s : State) (x : Copy) : List (DWord × Nat) → Eng × Bool
  | [] => (.ok s [], false)
  | (va, n) :: ps =>
    match s.engRead (.copy x.id) (Copy.core s x) (Copy.part s x) va n with
    | .wait => (.wait, false)
    | .bad c poison =>
      if poison then
        match State.copyReads s x ps with
        | (.ok t bs, _) => (.ok t (List.replicate n 0 ++ bs), true)
        | r => r
      else (.bad c false, false)
    | .ok t bs => match State.copyReads t x ps with
      | (.ok u cs, p) => (.ok u (bs ++ cs), p)
      | r => r

/-- Every page that some pieces lie on has been checked. -/
def Copy.checkedPages (x : Copy) (ps : List (DWord × Nat)) : Bool := ps.all fun p => x.pages.contains (p.1.toNat / 65536)

/-- The triple that a copy's writes leave. -/
def Copy.triple (s : State) (x : Copy) : Option Triple := tripleOf (s.checked x.lot) x.stamp x.wid false

/-- The pending bytes of a unit are subtracted (R225). -/
def State.copyCount (s : State) (x : Copy) : State :=
  match x.bar with
  | some (n, off) => s.forPair n fun s n => s.barPending n off (-((x.unit : Nat) : Int)) (byEngine x.stamp x.wid)
  | none => s

/-- CPYM hands its MMA to the engine, as if its producer issued it now (R228, R241). -/
def State.handOver (s : State) (x : Copy) : State :=
  match x.mma with
  | some m =>
    let c := Copy.core s x
    let m := match s.skein c x.slot with
      | some k => if k.lot == x.lot then { m with order := k.seq, info := { m.info with hb := k.hb } } else m
      | none => m
    if (s.lot x.lot).resident then (s.setCopy { x with mma := none }).enterMtx c m else s
  | none => s

/-- The unit is performed; with the last one the MMA of CPYM enters before the bytes are subtracted (R241). -/
def State.unitDone (s : State) (x : Copy) (e : Nat) : State :=
  let y := { x with units := insNat x.units e }
  let s := s.setCopy y
  (if y.units.length == y.unitCount then s.handOver y else s).copyCount y

/-- Bytes written into the tile: a marked barrier unit is left as it is (R387), poison is kept as poison. -/
def State.tileWrite (s : State) (x : Copy) (e : Nat) (bs : List Byte) (poison : Bool) (va : DWord) : State :=
  let (n, o) := x.tile.getD (0, 0)
  let off := o + e * x.unit
  if (s.lot n).clobbers off x.unit then s.unitDone (x.softly 0x63 0x3C (BitVec.ofNat 64 off)) e
  else
    let s := s.forPair n fun s n => s.scrWrite n off bs (Copy.triple s x)
    if poison then
      (s.forPair n fun s n => s.updLot n fun l => { l with poison := (wordsTouched off x.unit).foldl insNat l.poison }).unitDone
        (x.softly 0x63 0x3D va) e
    else s.unitDone x e

/-- A unit of an `.in` copy. -/
def State.unitIn (s : State) (x : Copy) (e : Nat) : State :=
  let srcs := (x.unitBytes e).map fun t => (t, x.coords t)
  let r := srcs.foldl (fun (r : Eng × Bool × DWord) tc =>
    match r with
    | (.ok t bs, p, va) =>
      if !x.inside tc.2 then (.ok t (bs ++ List.replicate (if x.mode == .raw then 1 else 4) 0), p, va)
      else match t.copyBase x tc.2 with
        | (.ok t _, base) =>
          let ps := x.globs base tc.1 tc.2
          let a := (ps.head?.map Prod.fst).getD 0
          if !x.checkedPages ps then (.wait, p, a)
          else match t.copyReads x ps with
            | (.ok t cs, q) => (.ok t (bs ++ if x.mode == .raw then cs else if q then List.replicate 4 0 else x.decode tc.1 cs),
                p || q, if p then va else a)
            | (e, _) => (e, p, a)
        | (e, base) => (e, p, base)
    | _ => r) (.ok s [], false, 0)
  match r with
  | (.ok t bs, p, va) => t.tileWrite x e bs p va
  | (.bad c _, _, va) => s.copyFail x 0x63 c va
  | (.wait, _, _) => s

/-- One element of an `.out` copy written: its bytes, or a nibble in its byte. -/
def State.unitPut (s : State) (x : Copy) (t : Nat) (v : List Byte) (ps : List (DWord × Nat)) : Eng :=
  let u := Copy.core s x
  let part := Copy.part s x
  match ps with
  | (va, n) :: _ =>
    if x.mode == .raw then s.engWrite (.copy x.id) u part x.lot va (v.take n) (Copy.triple s x)
    else if x.e2 then
      match s.engRead (.copy x.id) u part va 1 with
      | .ok s old =>
        let (_, hi, _) := e2m1Place false (((x.coords t)[0]?).getD 0).toNat
        let code := x.encode (leNat v) % 16
        let b := leNat old
        s.engWrite (.copy x.id) u part x.lot va (leBytes (if hi then b % 16 + 16 * code else b / 16 * 16 + code) 1) (Copy.triple s x)
      | r => r
    else s.engWrite (.copy x.id) u part x.lot va (leBytes (if x.es == 8 then leNat v else x.encode (leNat v)) n) (Copy.triple s x)
  | [] => .ok s []

/-- A unit of an `.out` copy: one with bytes outside SIZE counts once the copy has passed the units before it (R225). -/
def State.unitOut (s : State) (x : Copy) (e : Nat) : State :=
  let (n, o) := x.tile.getD (0, 0)
  let off := o + e * x.unit
  if ((x.unitBytes e).any fun t => !x.inside (x.coords t)) && (List.range e).any (fun j => !x.units.contains j) then s
  else if (s.lot n).poisoned off x.unit then s.copyFail x 0x63 0x44 (BitVec.ofNat 64 off)
  else
    let data := (s.lot n).read off x.unit
    let r := (x.unitBytes e).foldl (fun (r : Eng × DWord) t =>
      match r with
      | (.ok s _, va) =>
        let co := x.coords t
        if !x.inside co then (.ok s [], va)
        else match s.copyBase x co with
          | (.ok s _, base) =>
            let ps := x.globs base t co
            let a := (ps.head?.map Prod.fst).getD 0
            if !x.checkedPages ps then (.wait, a)
            else (s.unitPut x t (if x.mode == .raw then data.drop (t % 4) else data) ps, a)
          | (e, base) => (e, base)
      | _ => r) (.ok s [], 0)
    match r with
    | (.ok t _, _) => t.unitDone x e
    | (.bad c _, va) => s.copyFail x 0x63 c va
    | (.wait, _) => s

/-! ### Expansion (R227, R265, R325, R388) -/

/-- Why a token does not expand now: a byte of it cannot be read yet, or not at all, or the token is malformed. -/
inductive UnzStop where
  | wait (va : DWord)
  | bad (code : Nat) (va : DWord)
  | malformed
  deriving Repr

/-- A byte that an expansion reads. -/
def State.unzByte (s : State) (x : Copy) (va : DWord) : Except UnzStop Nat :=
  match s.engRead (.copy x.id) (Copy.core s x) (Copy.part s x) va 1 with
  | .ok _ bs => .ok (leNat bs)
  | .bad c _ => .error (.bad c va)
  | .wait => .error (.wait va)

def Copy.hd (x : Copy) (i : Nat) : Nat := (x.head[i]?).getD 0

/-- A byte of the stream; within a match the stream must not end (R388). -/
def State.unzAt (s : State) (x : Copy) (inMatch : Bool) (p : Nat) : Except UnzStop Nat :=
  if inMatch && decide (32 + x.hd 0 ≤ p) then .error .malformed else s.unzByte x (x.src + BitVec.ofNat 64 p)

/-- more(): bytes summed to the first below 255; the sum and the position behind it. -/
def State.unzMore (s : State) (x : Copy) (inMatch : Bool) : Nat → Nat → Nat → Except UnzStop (Nat × Nat)
  | 0, acc, p => .ok (acc, p)
  | f + 1, acc, p => match s.unzAt x inMatch p with
    | .error e => .error e
    | .ok b => if b = 255 then State.unzMore s x inMatch f (acc + b) (p + 1) else .ok (acc + b, p + 1)

/-- A length of a token: 15 in its four bits goes on in the bytes at p. -/
def State.unzLen (s : State) (x : Copy) (inMatch : Bool) (n add p : Nat) : Except UnzStop (Nat × Nat) :=
  if n = 15 then s.unzMore x inMatch (x.hd 0 + 1) (15 + add) p else .ok (n + add, p)

/-- Byte i of `hist`: the dictionary, then the output. -/
def State.unzHist (s : State) (x : Copy) (i : Nat) : Except UnzStop Nat :=
  if i < x.hd 1 then s.unzByte x (BitVec.ofNat 64 (x.hd 2 + i)) else .ok ((x.list[i - x.hd 1]?).getD 0)

/-- Bytes emitted: they stop at BOUND. -/
def Copy.emit (x : Copy) (bs : List Nat) : Copy :=
  let bs := bs.take (x.hd 3 - x.list.length)
  { x with list := x.list ++ bs, outp := x.outp + bs.length }

def State.unzLits (s : State) (x : Copy) (p : Nat) : Nat → Copy → Except UnzStop Copy
  | 0, y => .ok y
  | n + 1, y => if y.hd 3 ≤ y.list.length then .ok y
    else match s.unzAt x false p with
      | .ok b => State.unzLits s x (p + 1) n (y.emit [b])
      | .error e => .error e

def State.unzMatch (s : State) (off : Nat) : Nat → Copy → Except UnzStop Copy
  | 0, y => .ok y
  | n + 1, y => if y.hd 3 ≤ y.list.length then .ok y
    else match s.unzHist y (y.hd 1 + y.list.length - off) with
      | .ok b => State.unzMatch s off n (y.emit [b])
      | .error e => .error e

/-- The match of a token, whose offset stands at p. -/
def State.unzBack (s : State) (x y : Copy) (tok p : Nat) : Except UnzStop Copy := do
  let lo ← s.unzAt x true p
  let hi ← s.unzAt x true (p + 1)
  let off := lo + 256 * hi
  let (len, p) ← s.unzLen x true (tok % 16) 4 (p + 2)
  if off = 0 || x.hd 1 + y.list.length < off then throw .malformed
  s.unzMatch off len { y with inp := p }

/-- One token: what follows it, and whether it is malformed, its literals emitted. -/
def State.unzToken (s : State) (x : Copy) : Except UnzStop (Copy × Bool) := do
  let tok ← s.unzAt x false x.inp
  let (lit, p) ← s.unzLen x false (tok / 16) 0 (x.inp + 1)
  let y ← s.unzLits x p lit x
  if 32 + x.hd 0 ≤ p + lit then return ({ y with inp := p + lit }, false)
  match s.unzBack x y tok (p + lit) with
  | .ok z => return (z, false)
  | .error .malformed => return (y, true)
  | .error e => throw e

/-- The bytes that a token emitted, written one by one: what the first of them that is not written comes to, where it lies, and the state
with those before it. -/
def State.unzWrite (s : State) (x : Copy) (at' : Nat) : List Nat → State × Nat × Eng
  | [] => (s, at', .ok s [])
  | b :: bs =>
    match s.engWrite (.copy x.id) (Copy.core s x) (Copy.part s x) x.lot (x.dst + BitVec.ofNat 64 at') (leBytes b 1) (Copy.triple s x) with
    | .ok t _ => State.unzWrite t x (at' + 1) bs
    | r => (s, at', r)

/-- The expansion is over: the stream is consumed or BOUND is reached. -/
def Copy.unzOver (x : Copy) : Bool := decide (32 + x.hd 0 ≤ x.inp) || decide (x.hd 3 ≤ x.list.length)

/-- A token of an expansion. A write that is refused leaves the bytes before it (R386). -/
def State.unzStep (s : State) (x : Copy) : State :=
  if x.unzOver then s
  else match s.unzToken x with
    | .error (.bad c va) => s.copyFail x 0x63 c va
    | .error _ => s
    | .ok (y, bad) =>
      match s.unzWrite x x.list.length (y.list.drop x.list.length) with
      | (_, _, .wait) => s
      | (t, p, .bad c _) => t.copyFail x 0x63 c (x.dst + BitVec.ofNat 64 p)
      | (t, _, .ok ..) => if bad then t.copyFail y 0x64 (x.inp % 256) (x.src + BitVec.ofNat 64 x.inp) else t.setCopy y

/-- COPY_BYTES_PERFORMED (R225): one unit of a started copy, in any order; or the next token. -/
def execCopyBytesPerformed (n e : Nat) (s : State) : Host.Outcome State Fault Refusal :=
  match amGet s.copies n with
  | none => .next s
  | some x =>
    if x.stage != .started then .next s
    else if x.isUnz then .next (s.unzStep x)
    else if x.units.contains e || x.unitCount ≤ e || !(s.lot (x.tile.getD (0, 0)).1).clearedAt ((x.tile.getD (0, 0)).2 + e * x.unit) x.unit then .next s
    else .next (if x.cx.dir then s.unitOut x e else s.unitIn x e)

/-- COPY_COMPLETE (R222, R387): the copy reports to its batch and timeline, and a cause of a copy that completed with one is
reported. -/
def execCopyComplete (n : Nat) (s : State) : Host.Outcome State Fault Refusal :=
  match amGet s.copies n with
  | none => .next s
  | some x =>
    let fin := if x.isUnz then x.unzOver else x.units.length == x.unitCount
    if x.stage != .started || !fin then .next s
    else
      let s := (s.dropCopy x).copyLeft x
      let s := match x.tl with | some (pa, k) => s.tlComplete pa k (s.pubOf x.lot x.stamp) | none => s
      match x.soft with
      | some (c, d, va) => .next (s.engineCause (Copy.core s x) x.slot x.lot (laneCause x.info x.lane x.order c d va []))
      | none => .next s

end Sys2Proof.Machine
end

