-- ==== Sys2Proof/Machine/Woad.lean ====
section
/-! DEFINITION. The Woad engines (R268 to R282, R391, R392): the acceptance of a query, its rounds, its results and its restart;
contributions to a lake, reports and the completion of a round. -/

namespace Sys2Proof.Machine

/-! ### The query packet (R269) -/

def Query.fld (x : Query) (lo n : Nat) : Nat := recF x.pkt lo n
def Query.qvecVa (x : Query) : DWord := BitVec.ofNat 64 (x.fld 0 64)
def Query.vecs (x : Query) : Nat := x.fld 128 64
def Query.result (x : Query) : DWord := BitVec.ofNat 64 (x.fld 192 64)
def Query.tline (x : Query) : DWord := BitVec.ofNat 64 (x.fld 256 64)
def Query.nodes (x : Query) : Nat := x.fld 320 32 + 1
def Query.vstride (x : Query) : Nat := x.fld 352 32
def Query.entry (x : Query) (e : Nat) : Nat := x.fld (384 + 32 * e) 32
def Query.dims (x : Query) : Nat := x.fld 512 11 + 1
def Query.degree (x : Query) : Nat := x.fld 528 7
def Query.beam (x : Query) : Nat := x.fld 536 8 + 1
def Query.k (x : Query) : Nat := x.fld 544 7
def Query.nent (x : Query) : Nat := x.fld 552 2 + 1
def Query.metric (x : Query) : Nat := x.fld 554 2
def Query.homeSel (x : Query) : Nat := x.fld 556 4
def Query.hops (x : Query) : Nat := x.fld 560 16
def Query.listVa (x : Query) (n : Nat) : DWord := BitVec.ofNat 64 (x.fld 64 64 + 4 * x.degree * n)
def Query.vecVa (x : Query) (n : Nat) : DWord := BitVec.ofNat 64 (x.vecs + x.vstride * n)

/-- The byte offset of the lowest failing field of a packet (R391). -/
def Query.packetBad (x : Query) : Option Nat :=
  if x.fld 0 64 % 16 != 0 then some 0
  else if x.fld 64 64 % 4 != 0 then some 8
  else if x.vecs % 16 != 0 then some 16
  else if x.fld 192 64 % 16 != 0 then some 24
  else if x.fld 256 64 % 16 != 0 then some 32
  else if x.vstride % 16 != 0 then some 44
  else match (List.range x.nent).find? fun e => x.nodes ≤ x.entry e with
    | some e => some (48 + 4 * e)
    | none =>
      if x.degree == 0 || 64 < x.degree then some 66
      else if x.k == 0 || 64 < x.k || x.beam < x.k then some 68
      else if x.metric == 3 || 9 ≤ x.homeSel then some 69
      else none

/-! ### Reads of the search (R270, R274, R391) -/

/-- The unit that translates for a query: its home stack's die. -/
def Query.unit (x : Query) : Nat := 512 + x.home

/-- A read of the engine: a page whose fault was refused cannot be read, and a stack that is fenced not by the search, while the
check of the packet names no such cause for the query vector (R391). A line of far memory that it reads is allocated in the slice of its hub,
which R274 does not speak of (log entry 114). -/
def State.searchPiece (s : State) (x : Query) (search : Bool) (va : DWord) (n : Nat) : Eng :=
  if x.lost.contains (va.toNat / 65536) then .bad 0 false
  else match s.xlate x.unit x.part va false false with
    | .ok t => if search && !isFar t.pa && s.fenced (stackOf t.pa) then .bad 0 false else s.engPiece (.query x.id) x.unit x.part va n
    | .bad .. => .wait

/-- A read that may cross pages. -/
def State.searchRead (s : State) (x : Query) (search : Bool) (va : DWord) (n : Nat) : Eng :=
  let head := 65536 - va.toNat % 65536
  if n ≤ head then s.searchPiece x search va n
  else match s.searchPiece x search va head with
    | .ok t bs => match t.searchPiece x search (va + BitVec.ofNat 64 head) (n - head) with
      | .ok t cs => .ok t (bs ++ cs)
      | e => e
    | e => e

/-- The formats of R270. -/
def searchFmt (f : BitVec 4) : Bool := [1, 3, 4, 5, 6, 8, 9].contains f.toNat

/-- An element's exact value. -/
def searchVal (f : Nat) (bs : List Byte) : FVal :=
  match f with
  | 1 => decodeF .f32 (leNat bs)
  | 3 => decodeF .f16 (leNat bs)
  | 4 => decodeF .bf16 (leNat bs)
  | 5 => decodeF .e4m3 (leNat bs)
  | 6 => decodeF .e5m2 (leNat bs)
  | 8 => FVal.ofInt (intOf 8 true (leNat bs))
  | _ => FVal.ofInt (intOf 8 false (leNat bs))

/-- A vector: its format with its elements' encodings; an unaccepted or mixed format is bad. -/
def State.searchVec (s : State) (x : Query) (search : Bool) (va : DWord) : Eng × Nat :=
  match s.xlate x.unit x.part va false false with
  | .bad .. => (if x.lost.contains (va.toNat / 65536) then .bad 0 false else .wait, 0)
  | .ok t =>
    let f := t.fmt.fmt
    let n := x.dims * fmtBytes f
    if !searchFmt f then (.bad 0 false, 0)
    else match s.xlate x.unit x.part (va + BitVec.ofNat 64 (n - 1)) false false with
      | .ok u => if u.fmt.fmt == f then (s.searchRead x search va n, f.toNat) else (.bad 0 false, 0)
      | .bad .. => (s.searchRead x search va n, f.toNat)

/-- The elements of a vector from its bytes. -/
def vecElems (f : Nat) (bs : List Byte) (n : Nat) : List FVal :=
  let w := fmtBytes (BitVec.ofNat 4 f)
  (List.range n).map fun d => searchVal f ((bs.drop (d * w)).take w)

/-! ### Distance and order (R271, R272) -/

def negVal : FVal → FVal
  | .fin s m e => .fin (!s) m e
  | .inf s => .inf (!s)
  | v => v

/-- The exact term of a dimension. -/
def distTerm (metric : Nat) (q x : FVal) : FVal :=
  if metric = 0 then (let d := (addVal .rne q (negVal x)).1; mulTerm d d) else mulTerm (negVal q) x

/-- Chunks of 64 dimensions summed into an FP32 total. -/
def distSum (metric : Nat) : Nat → List FVal → List FVal → Nat × FFlags → Nat × FFlags
  | 0, _, _, t => t
  | n + 1, q, x, (t, fl) =>
    if q.isEmpty then (t, fl)
    else
      let r := chunkInto .f32 t (((q.take 64).zip (x.take 64)).map fun e => distTerm metric e.1 e.2)
      distSum metric n (q.drop 64) (x.drop 64) (r.1, fl ||| r.2)

def distance (metric : Nat) (q x : List FVal) : Nat × FFlags :=
  distSum metric 32 q x (if metric = 2 then 0x3F800000 else 0, 0)

/-- A number that orders FP32 encodings by value; NaN follows every number (R272). -/
def distKey (v : BitVec 32) : Int :=
  let mag : Nat := v.toNat % 2 ^ 31
  if 0x7F800000 < mag then 2 ^ 32 else if v.getLsbD 31 then -(mag : Int) else mag

def candLt (a b : BitVec 32 × Nat × Bool) : Bool :=
  distKey a.1 < distKey b.1 || (distKey a.1 == distKey b.1 && decide (a.2.1 < b.2.1))

/-- A candidate in its place. -/
def insCand : List (BitVec 32 × Nat × Bool) → BitVec 32 × Nat × Bool → List (BitVec 32 × Nat × Bool)
  | [], c => [c]
  | a :: as, c => if candLt c a then c :: a :: as else a :: insCand as c

/-- insert_cand of R273: the best L stay. -/
def Query.insert (x : Query) (c : BitVec 32 × Nat × Bool) : Query := { x with cand := (insCand x.cand c).take x.beam }

/-! ### Rounds (R273, R391) -/

/-- Nodes scored in order: each takes its distance, or NaN with NV where its vector cannot be read or differs in format. None
while a vector waits. -/
def State.score (s : State) (x : Query) : List Nat → Option (State × Query)
  | [] => some (s, x)
  | n :: ns =>
    match s.searchVec x true (x.vecVa n) with
    | (.wait, _) => none
    | (.bad .., _) => State.score s { x.insert (0x7FC00000, n, false) with flags := x.flags ||| fNV } ns
    | (.ok t bs, f) =>
      if f != x.qfmt then State.score t { x.insert (0x7FC00000, n, false) with flags := x.flags ||| fNV } ns
      else
        let q := x.qvec.map fun v => searchVal f (leBytes v 8)
        let r := distance x.metric q (vecElems f bs x.dims)
        State.score t { x.insert (BitVec.ofNat 32 r.1, n, false) with flags := x.flags ||| r.2 } ns

def State.setQuery (s : State) (x : Query) : State := { s with queries := amPut s.queries x.id x }

/-- The result area (R275): the entries, then the status word. -/
def Query.results (x : Query) (status : Nat) : List Byte :=
  let n := min x.k x.cand.length
  ((List.range x.k).flatMap fun i => match x.cand[i]? with
    | some c => if i < n then leBytes c.2.1 4 ++ leBytes c.1.toNat 4 else leBytes 0xFFFFFFFF 4 ++ leBytes 0x7F800000 4
    | none => leBytes 0xFFFFFFFF 4 ++ leBytes 0x7F800000 4) ++
  leBytes (status + 2 ^ 8 * n + 2 ^ 19 * x.flags.toNat + 2 ^ 32 * x.vis.length + 2 ^ 48 * min 65535 x.rounds) 8

/-- 4-byte words written at a virtual address with the issuer's stamp, of which the last two are the status word's, a release (R123,
R276); those of a refused page are dropped. -/
def State.resultWrites (s : State) (x : Query) (va : DWord) : Nat → List Byte → Eng
  | 0, _ => .ok s []
  | n + 1, bs =>
    if x.lost.contains (va.toNat / 65536) then State.resultWrites s x (va + 4) n (bs.drop 4)
    else match s.engWrite (.query x.id) x.unit x.part x.lot va (bs.take 4)
        (tripleOf (s.checked x.lot) x.stamp x.wid (decide (n < 2))) with
      | .ok t _ => State.resultWrites t x (va + 4) n (bs.drop 4)
      | .bad .. => State.resultWrites s x (va + 4) n (bs.drop 4)
      | .wait => .wait

def queryCause (x : Query) (detail : Nat) : Cause := laneCause x.info x.lane x.order 0x6A detail x.pktVa []

/-- The query ends: its results and status word are written, its operation completes (R276). They are written in one step, so that no
agent moves between them (log entry 114). -/
def State.queryEnd (s : State) (x : Query) (status : Nat) : State :=
  match s.resultWrites x x.result (2 * x.k + 2) (x.results status) with
  | .ok t _ =>
    let t := t.setQuery { x with fin := true, running := false }
    let t := match x.tl with | some (pa, k) => t.tlComplete pa k (s.pubOf x.lot x.stamp) | none => t
    let lost := (List.range (2 * x.k + 2)).any fun i => x.lost.contains ((x.result.toNat + 4 * i) / 65536)
    if lost then t.engineCause x.core x.slot x.lot (queryCause x 24) else t
  | _ => s

/-- An ascending list of numbers without repeats. -/
def ascend (l : List Nat) : List Nat := l.foldl insNat []

/-- The ids of a neighbour list that a round scores: in range, not padding, not visited (R273, R391). -/
def Query.fresh (x : Query) (bs : List Byte) : List Nat :=
  ascend (((List.range x.degree).map fun i => partNat bs (4 * i) 4).filter fun i =>
    i != 0xFFFFFFFF && decide (i < x.nodes) && !x.vis.contains i)

/-- QUERY_ROUND (R273): the entry points, or one round; a query with nothing left to expand writes its results. The list of a round
and its vectors are read in one step (R274, log entry 114). -/
def execQueryRound (n : Nat) (s : State) : Host.Outcome State Fault Refusal :=
  match amGet s.queries n with
  | none => .next s
  | some x =>
    if !x.running || x.fin then .next s
    else if x.vis.isEmpty then
      let ids := ((List.range x.nent).map x.entry).eraseDups
      match s.score { x with vis := ascend ids } ids with
      | some (t, y) => .next (t.setQuery y)
      | none => .next s
    else match x.cand.find? fun c => !c.2.2 with
      | none => .next (s.queryEnd x 0)
      | some c =>
        if x.hops != 0 && x.rounds == x.hops then .next (s.queryEnd x 1)
        else match s.searchRead x true (x.listVa c.2.1) (4 * x.degree) with
          | .wait => .next s
          | .bad .. => .next (s.queryEnd x 3)
          | .ok t bs =>
            let fresh := x.fresh bs
            if 8192 < x.vis.length + fresh.length then .next (s.queryEnd x 2)
            else
              let y := { x with vis := fresh.foldl insNat x.vis
                                cand := x.cand.map fun e => if e.2.1 == c.2.1 then (e.1, e.2.1, true) else e }
              match t.score y fresh with
              | some (t, y) => .next ((t.setQuery { y with rounds := y.rounds + 1 }).count (roundCounter x.home) 1)
              | none => .next s

/-- The next stack of the partition behind one that is lost (R391). -/
def State.nextStack (s : State) (part from' : Nat) : Nat :=
  ((((List.range 8).map fun i => (from' + 1 + i) % 8).find? fun d =>
    (s.partDies part).testBit d && !s.fenced d)).getD from'

/-- The home stack of a query: the one it names, or that of ENTRY[0]'s vector; a lost one passes it on. -/
def State.queryHome (s : State) (x : Query) : Option Nat :=
  let pick : Option Nat := if x.homeSel < 8 then some x.homeSel
    else match s.xlate (512 + x.core / 64) x.part (x.vecVa (x.entry 0)) false false with
      | .ok t => some (stackOf t.pa)
      | .bad .. => if x.lost.contains ((x.vecVa (x.entry 0)).toNat / 65536) then some (x.core / 64) else none
  pick.map fun h => if s.fenced h then s.nextStack x.part h else h

/-- A query whose packet breaks the check takes no number and writes no result (R391). -/
def State.queryReject (s : State) (x : Query) (detail : Nat) : State :=
  (s.setQuery { x with fin := true }).engineCause x.core x.slot x.lot (queryCause x detail)

/-- A query of a lower lane of the same instruction is still to be accepted (R230). -/
def State.queryBehind (s : State) (x : Query) : Bool :=
  s.queries.any fun e => e.1 < x.id && e.2.core == x.core && e.2.slot == x.slot && e.2.lot == x.lot && e.2.order == x.order &&
    !e.2.running && !e.2.fin

/-- The fault on the timeline block of a query was refused; none while that is not known (R391). -/
def State.queryTlBad (s : State) (x : Query) : Option Bool :=
  if x.tline == 0 then some false
  else if x.lost.contains (x.tline.toNat / 65536) then some true
  else match s.xlate x.unit x.part x.tline true false with
    | .ok _ => some false
    | .bad .. => none

/-- QUERY_ACCEPT (R16, R217, R230, R276, R391): the queries of one instruction in ascending lane order; an engine holds 1,024. Of
several failing fields the lowest is named: a query vector that fails is field 0, a refused timeline block field 32. -/
def execQueryAccept (n : Nat) (s : State) : Host.Outcome State Fault Refusal :=
  match amGet s.queries n with
  | none => .next s
  | some x =>
    if x.running || x.fin || s.queryBehind x then .next s
    else match x.packetBad, s.queryHome x with
      | some 0, _ => .next (s.queryReject x 0)
      | some d, _ =>
        let y := { x with home := x.core / 64 }
        match s.searchVec y false x.qvecVa with
        | (.wait, _) => .next s
        | (.bad .., _) => .next (s.queryReject x 0)
        | (.ok .., _) =>
          if d ≤ 32 then .next (s.queryReject x d)
          else match s.queryTlBad y with
            | none => .next s
            | some b => .next (s.queryReject x (if b then 32 else d))
      | none, none => .next s
      | none, some h =>
          let x := { x with home := h }
          if 1024 ≤ ((amVals s.queries).filter fun y => y.running && !y.fin && y.home == h).length then .next s else
          match s.searchVec x false x.qvecVa with
          | (.wait, _) => .next s
          | (.bad .., _) => .next (s.queryReject x 0)
          | (.ok s bs, f) =>
            let w := fmtBytes (BitVec.ofNat 4 f)
            let x := { x with qfmt := f, qvec := (List.range x.dims).map fun d => partNat bs (d * w) w, running := true }
            if x.tline == 0 then .next (s.setQuery x)
            else if s.queryTlBad x == some true then .next (s.queryReject { x with running := false } 32)
            else if s.heldAt (.query n) x.tline then .next s
            else match s.acceptTl x.unit x.part x.tline with
              | some (t, tl) => .next (t.setQuery { x with tl := some tl })
              | none => .next s

/-- QUERY_RESTART (R391): a query whose home engine is lost starts again at the next stack, under its number. -/
def execQueryRestart (n : Nat) (s : State) : Host.Outcome State Fault Refusal :=
  match amGet s.queries n with
  | none => .next s
  | some x =>
    if x.running && !x.fin && s.fenced x.home then
      .next (s.setQuery { x with home := s.nextStack x.part x.home, vis := [], cand := [], rounds := 0, flags := 0 })
    else .next s

/-! ### Lakes (R278 to R282) -/

def Lake.fld (l : Lake) (lo n : Nat) : Nat := bitsOf l.desc.toNat lo n
def Lake.base (l : Lake) : Nat := l.fld 0 64
def Lake.size (l : Lake) : Nat := l.fld 64 64
def Lake.tline (l : Lake) : DWord := BitVec.ofNat 64 (l.fld 128 64)
def Lake.expect (l : Lake) : Nat := l.fld 256 16
def Lake.count (l : Lake) : Nat := l.fld 272 16
def Lake.round (l : Lake) : Nat := l.fld 288 32
def Lake.ty (l : Lake) : BitVec 4 := BitVec.ofNat 4 (l.fld 320 4)
def Lake.determ (l : Lake) : Bool := l.desc.getLsbD 324
def Lake.maxc (l : Lake) : Nat := l.fld 336 10 + 1
def Lake.proxy (l : Lake) : Bool := l.desc.getLsbD 437
def Lake.holds (l : Lake) (va : DWord) : Bool := l.base ≤ va.toNat && va.toNat < l.base + l.size

/-- The round of a lake is over: what came early belongs to the next one, unless the lake is to be unregistered (R281, R319). -/
def Lake.nextOpen (l : Lake) : Lake := { l with used := l.early && !l.closing, early := false, reported := [] }

/-- A lake to be unregistered whose last round has completed takes nothing more (R319). -/
def Lake.gone (l : Lake) : Bool := l.closing && !l.used

/-- Bytes of an element of a lake's TYPE. -/
def lakeBytes (t : BitVec 4) : Nat :=
  match t.toNat with
  | 0x4 => 2
  | 0xE | 0xF => 8
  | _ => 4

/-- The sum of R280 and its flags; whether an exact integer sum left the type's range. -/
def landSum (t : BitVec 4) (old c : Nat) : Nat × FFlags × Bool :=
  let int := fun (w : Nat) (sg : Bool) =>
    let x := intOf w sg old + intOf w sg c
    let r := (BitVec.ofInt w x).toNat
    (r, (0 : FFlags), intOf w sg r != x)
  match t.toNat with
  | 0xC => int 32 true
  | 0xD => int 32 false
  | 0xE => int 64 true
  | 0xF => int 64 false
  | 0x4 => let r := chunkInto .bf16 old [decodeF .bf16 (c % 65536)]; (r.1, r.2, false)
  | _ => let r := chunkInto .f32 old [decodeF .f32 (c % 2 ^ 32)]; (r.1, r.2, false)

/-- A floating-point TYPE. -/
def landFp (t : BitVec 4) : Bool := t == 1 || t == 4

/-- FLAGS of a descriptor take more flags, where the descriptor stands (R278). -/
def State.lakeFlags (s : State) (l : Lake) (fl : FFlags) : State :=
  if fl == 0 then s
  else s.homeWrite l.part (l.pa + 43) (leBytes (memNat s.mem (l.pa + 43) 1 ||| fl.toNat * 4) 1) none

/-- A registered lake changed. -/
def State.setLake (s : State) (l : Lake) : State :=
  { s with lakes := s.lakes.map fun e => if e.part == l.part && e.va == l.va then l else e }

/-- DONE and ROUND as the device maintains them in the descriptor. -/
def State.putRound (s : State) (l : Lake) (done round : Nat) : State :=
  let d := (l.desc &&& ~~~(BitVec.ofNat 512 ((2 ^ 48 - 1) * 2 ^ 272))) |||
    BitVec.ofNat 512 (done % 65536 * 2 ^ 272 + round % 2 ^ 32 * 2 ^ 288)
  (s.homeWrite l.part (l.pa + 34) (leBytes done 2 ++ leBytes round 4) none).setLake { l with desc := d }

def State.dropLand (s : State) (m : LandMsg) : State := { s with lands := amErase s.lands m.id }

/-- A contribution answered with a cause (R392); one of another module is answered there. -/
def State.landCause (s : State) (m : LandMsg) (code detail : Nat) : State :=
  if m.abroad then s.dropLand m
  else (s.dropLand m).engineCause m.core m.slot m.lot (laneCause m.info m.lane m.order code detail m.va [])

/-- The lot has contributed to a lake's round without its LANDF yet (R396). -/
def State.landedAt (s : State) (m : LandMsg) (l : Lake) : State :=
  if m.abroad || s.reportedAfter m l.va || (match (s.lot m.lot).status with | .failed .. => true | _ => false) then s
  else s.updLot m.lot fun lt => { lt with landed := if lt.landed.any fun e => e.1 == l.va.toNat then lt.landed
    else (l.va.toNat, l.round) :: lt.landed }

/-- The lot of a landing, in whichever module it runs. -/
def LandMsg.sender (m : LandMsg) : List Nat := m.key.take 4

/-- A contribution belongs to the round behind the open one: its lot's LANDF came before it (R281). -/
def State.nextRound (s : State) (m : LandMsg) (l : Lake) : Bool :=
  l.reported.contains m.sender ||
    s.lands.any fun e => e.2.report && e.1 < m.id && e.2.part == l.part && e.2.va == l.va && e.2.sender == m.sender

/-- A contribution marks its round as one that has received something (R319), and leaves its stamp (R123). -/
def State.received (s : State) (m : LandMsg) (l : Lake) : Lake :=
  let l := { l with stamp := max l.stamp (if m.abroad then m.stamp + 1 else s.pubOf m.lot m.stamp) }
  if s.nextRound m l then { l with early := true } else { l with used := true }

/-- The triple of a landed element: the issuer's stamp (R123). -/
def State.landTriple (s : State) (m : LandMsg) : Option Triple :=
  tripleOf (if m.abroad then m.wid != 0 else s.checked m.lot) m.stamp m.wid false

/-- A contribution stored in the hold area (R278, R280): 16 bytes in its element's share of the area, whose layout the spec does not
give (log entry 61). -/
def State.holdStore (s : State) (l : Lake) (off : Nat) : State :=
  let j := (l.held.filter fun h => h.off == off).length
  let va := l.fld 192 64 + 16 * (off / lakeBytes l.ty * l.maxc + j % l.maxc)
  match s.xlate 512 l.part (BitVec.ofNat 64 va) true false with
  | .ok x => if (s.writeCause l.part x.pa 16).isSome then s
      else s.homeWrite l.part x.pa ((List.range 16).map fun i => BitVec.ofNat 8 (Config.pick s.choices (4000 + i))) none
  | .bad .. => s

/-- The contributions held for an element in a round. -/
def Lake.heldAt (l : Lake) (off round : Nat) : List Held := l.held.filter fun h => h.off == off && h.round == round

/-- A contribution added to its element, or held until its round completes, in deterministic mode, in which an element keeps its value till then
(R280, R282); one of an integer TYPE is held beside the hold area, which has room for those of floating point only (log entry 61). An 8-byte
element takes its low half here, and its high half as a write of its own (R279). -/
def State.landAdd (s : State) (m : LandMsg) (l : Lake) (x : Xl) : State :=
  let n := lakeBytes l.ty
  let off := m.va.toNat - l.base
  let round := l.round + (s.nextRound m l).toNat
  let held := l.heldAt off round
  let full := l.determ && landFp l.ty && decide (l.maxc ≤ held.length)
  if l.ty != m.ty then s.landCause m 0x6B 255
  else if s.poisoned x.pa n then s.landCause m 0x6D 255
  else if full then s.landCause m 0x6E 255
  else if m.det && !l.determ then s.landCause m 0x6F 255
  else if (s.writeCause m.part x.pa n).isSome then s.landCause m 0x6D 255
  else
    let l := s.received m l
    let done := fun (s : State) => (s.dropLand m).landedAt m l
    if l.determ then
      let sum := held.foldl (fun v h => (landSum l.ty v h.val.toNat).1) (memNat s.mem x.pa n)
      let wraps := !landFp l.ty && (landSum l.ty sum m.val.toNat).2.2
      let s := (if landFp l.ty then (done s).holdStore l off else done s).setLake
        { l with held := l.held ++ [⟨off, round, m.key, m.pos, m.val, s.landTriple m⟩] }
      if wraps then s.landCause m 0x6C 255 else s
    else
      let s := s.setLake l
      if n = 8 then
        let v := memNat s.mem x.pa 4 + m.val.toNat % 2 ^ 32
        { s.homeWrite l.part x.pa (leBytes v 4) (s.landTriple m) with
          lands := amPut s.lands m.id { m with late := some (BitVec.ofNat 32 (v / 2 ^ 32), false) } }
      else
        let r := landSum l.ty (memNat s.mem x.pa n) m.val.toNat
        let s := (done (s.homeWrite l.part x.pa (leBytes r.1 n) (s.landTriple m))).lakeFlags l r.2.1
        if r.2.2 then s.landCause m 0x6C 255 else s

/-- The high half of an 8-byte sum (R279): the carry of the low half and the high half of the contribution are added to what stands there
(R282). -/
def State.landHigh (s : State) (m : LandMsg) (l : Lake) (x : Xl) (carry : Word) : State :=
  let old := memNat s.mem (x.pa + 4) 4
  let c := m.val.toNat / 2 ^ 32
  let r := (old + c + carry.toNat) % 2 ^ 32
  let sg := l.ty == 0xE
  let s := ((s.homeWrite l.part (x.pa + 4) (leBytes r 4) (s.landTriple m)).dropLand m).landedAt m l
  if intOf 32 sg r != intOf 32 sg old + intOf 32 sg c + (carry.toNat : Int) then s.landCause m 0x6C 255 else s

/-- What the home lake of a proxy answers, as another module decides it: 0, or a cause of R392 with its DETAIL (log entry 101). -/
def landAnswers : List (Nat × Nat) := [(0, 0), (0x70, 0), (0x70, 1), (0x6B, 255), (0x6F, 255), (0x6E, 255), (0x6D, 255), (0x6C, 255)]

/-- A contribution or report reaches the home lake of a proxy and is answered from there. -/
def State.proxyAnswer (s : State) (m : LandMsg) (l : Lake) (answers : List (Nat × Nat)) : State :=
  let l' := s.received m l
  let l' := if m.report then { l' with used := true, reported := m.sender :: l'.reported } else l'
  match answers[Config.pick s.choices 11 % answers.length]? with
  | some (c + 1, d) => (if c = 0x6B then (s.setLake l').landedAt m l else s).landCause m (c + 1) d
  | _ => let s := (s.setLake l').dropLand m; if m.report then s else s.landedAt m l

/-- FX Link delivers a landing of another module under a number of its own (R321). -/
def State.inbound (s : State) : State :=
  let m := Config.inbound s.choices
  if !s.pkgSet || m.key.head? == some s.pkg || m.key == [] then s
  else { s with lands := amPut s.lands s.landSeq { m with id := s.landSeq, pos := s.landSeq, abroad := true, late := none }
                landSeq := s.landSeq + 1 }

/-- LAND_CONTRIBUTION (R279, R280, R321, R392): contributions of one fibre to one element arrive in order, and so do the halves of an
8-byte sum; one to a proxy lake is answered by its home lake. One that this module does not hold comes over FX Link. -/
def execLandContribution (n : Nat) (s : State) : Host.Outcome State Fault Refusal :=
  match amGet s.lands n with
  | none => .next s.inbound
  | some m =>
    let older := s.lands.any fun e => e.1 != m.id && !e.2.report && e.2.part == m.part && e.2.va == m.va &&
      ((e.1 < m.id && e.2.key == m.key) || e.2.late.isSome)
    if m.report || older || s.heldAt (.land n) m.va then .next s
    else match s.lakes.find? fun l => l.part == m.part && l.holds m.va && !l.gone with
      | none => .next (s.landCause m 0x70 0)
      | some l =>
        match s.xlate (if m.abroad then 512 else m.core) m.part m.va true false with
        | .bad .. => .next s
        | .ok x =>
          if !x.land then .next (s.landCause m 0x70 1)
          else if l.proxy then .next (if l.ty != m.ty then s.landCause m 0x6B 255 else s.proxyAnswer m l landAnswers)
          else match m.late with
            | some (carry, _) => .next (s.landHigh m l x carry)
            | none => if s.marked x.pa then .next s else .next (s.landAdd m l x)

def keyLt : List Nat → List Nat → Bool
  | a :: as, b :: bs => a < b || (a == b && keyLt as bs)
  | _, _ => false

def insHeld : List Held → Held → List Held
  | [], h => [h]
  | x :: xs, h => if keyLt (h.key ++ [h.pos]) (x.key ++ [x.pos]) then h :: x :: xs else x :: insHeld xs h

/-- The triple that the write of a held sum leaves: that of the largest stamp among its contributions (log entry 61). -/
def heldTriple (hs : List Held) : Option Triple :=
  hs.foldl (fun t h => match t, h.t with
    | some a, some b => some (if a.stamp < b.stamp then b else a)
    | none, b => b
    | a, none => a) none

/-- The held sum of one element of the open round (R280): its contributions added in ascending (index, position), as one 4-byte
write, or as two where the element has 8 bytes, the second of which takes the carry of the first (R279). One whose page is `lost` to a refused
fault is dropped. -/
def State.addHeld (s : State) (m : LandMsg) (l : Lake) (off : Nat) (lost : Bool) : State :=
  let mine := (l.heldAt off l.round).foldl insHeld []
  let rest := { l with held := l.held.filter fun h => !(h.off == off && h.round == l.round) }
  match s.xlate 512 l.part (BitVec.ofNat 64 (l.base + off)) true false with
  | .bad .. => if lost then s.setLake rest else s
  | .ok x =>
    let n := lakeBytes l.ty
    if n = 8 then
      let c := mine.foldl (fun v h => v + h.val) (0 : DWord)
      match m.late with
      | some (v, _) => if 2 ≤ v.toNat
          then (s.homeWrite l.part (x.pa + 4) (leBytes ((memNat s.mem (x.pa + 4) 4 + c.toNat / 2 ^ 32 + (v.toNat - 2)) % 2 ^ 32) 4)
            (heldTriple mine)).setLake rest
          else
            let low := memNat s.mem x.pa 4 + c.toNat % 2 ^ 32
            { s.homeWrite l.part x.pa (leBytes low 4) (heldTriple mine) with
              lands := amPut s.lands m.id { m with late := some (BitVec.ofNat 32 (2 + low / 2 ^ 32), false) } }
      | none => s
    else
      let r := mine.foldl (fun (r : Nat × FFlags) h =>
        let t := landSum l.ty r.1 h.val.toNat
        (t.1, r.2 ||| t.2.1)) (memNat s.mem x.pa n, 0)
      ((s.homeWrite l.part x.pa (leBytes r.1 n) (heldTriple mine)).setLake rest).lakeFlags l r.2

/-- The round completes (R281): it counts as an operation of its timeline block (R125), whose value becomes at least the round's number, and
the next round opens. -/
def State.roundDone (s : State) (l : Lake) (block : Option Nat) : State :=
  let s := match block with
    | some pa => (s.tlMark l.part pa l.stamp).tlRaise pa l.round l.stamp
    | none => s
  s.putRound l.nextOpen 0 (l.round + 1)

/-- What the completion of a round writes next: an element of a held sum, then the timeline block. -/
def Lake.closeVa (l : Lake) : DWord :=
  match l.held.find? fun h => h.round == l.round with
  | some h => BitVec.ofNat 64 (l.base + h.off)
  | none => l.tline

/-- A report that completes its round (R281): one held sum after the other is performed, then the round completes. A page that has no
translation waits; where its fault was refused, the write does not happen (log entry 61). -/
def State.closeRound (s : State) (m : LandMsg) (l : Lake) : State :=
  let lost := m.late.any Prod.snd
  let t := { s with lands := amPut s.lands m.id { m with late := some (0, false) } }
  match l.held.find? fun h => h.round == l.round with
  | some h => t.addHeld m l h.off lost
  | none => match s.xlate 512 l.part l.tline true false with
    | .ok x => (s.dropLand m).roundDone l (if (s.writeCause l.part x.pa 16).isSome then none else some x.pa)
    | .bad .. => if lost then (s.dropLand m).roundDone l none else s

/-- LANDF_REPORT (R281, R392): it counts once its lot's earlier contributions have reached their units. -/
def execLandfReport (n : Nat) (s : State) : Host.Outcome State Fault Refusal :=
  match amGet s.lands n with
  | none => .next s
  | some m =>
    let older := s.lands.any fun e => e.1 < m.id && !e.2.report && e.2.sender == m.sender
    let closing := s.lands.any fun e => e.1 != m.id && e.2.report && e.2.part == m.part && e.2.va == m.va && e.2.late.isSome
    if !m.report || older || closing then .next s
    else match s.lakes.find? fun l => l.part == m.part && l.va == m.va && !l.gone with
      | none => .next (s.landCause m 0x70 2)
      | some l =>
        if l.proxy then .next (s.proxyAnswer m l [(0, 0), (0x70, 2)])
        else if m.late.isSome then .next (if s.heldAt (.land n) l.closeVa then s else s.closeRound m l)
        else
          let l := { s.received m l with used := true, reported := m.sender :: l.reported }
          let t := s.putRound l (l.count + 1) l.round
          .next (if l.count + 1 == l.expect then { t with lands := amPut t.lands n { m with late := some (0, false) } } else t.dropLand m)

end Sys2Proof.Machine
end

