-- ==== Sys2Proof/Machine/Faults.lean ====
section
/-! DEFINITION. Page walks and the fault buffers (R99, R370 to R375), the instruction fetch (R95), and the watchdog of waits (R360,
R361, R375). What an access waits for is read off the state: its lanes, words or pages that have no translation yet. -/

namespace Sys2Proof.Machine

/-! ### Who asks (R370, R372) -/

/-- The TLWT of a skein asks for its blocks under this number, which no pending result has. -/
def tlwtSeq : Nat := 2 ^ 32

/-- The unit whose TLBs a requester reads. -/
def State.accUnit (s : State) (r : AccRef) : Nat :=
  match r with
  | .pend c .. | .store c _ | .fetch c .. | .mtx c _ | .ask c _ => c
  | .copy n => match amGet s.copies n with | some x => Copy.core s x | none => 0
  | .query n => match amGet s.queries n with
    | some x => if x.running then x.unit else if x.packetBad.isSome then 512 + x.core / 64
      else match s.queryHome x with | some h => 512 + h | none => 512 + x.core / 64
    | none => 512
  | .land n => match amGet s.lands n with | some m => if m.abroad || m.report then 512 else m.core | none => 0
  | .hub _ => 512

def State.accDie (s : State) (r : AccRef) : Nat :=
  let u := s.accUnit r
  if u < 512 then u / 64 else u - 512

def State.accPart (s : State) (r : AccRef) : Nat :=
  match r with
  | .pend c q _ | .fetch c q _ | .ask c q => match s.skein c q with | some k => s.partOf (s.lotOf k) | none => 0
  | .store c seq => match (s.core c).stores.find? fun p => p.seq == seq with | some p => s.partOf (s.lot p.lot) | none => 0
  | .mtx c e => match (s.core c).cmd e with | some m => s.partOf (s.lot m.lot) | none => 0
  | .copy n => match amGet s.copies n with | some x => Copy.part s x | none => 0
  | .query n => match amGet s.queries n with | some x => x.part | none => 0
  | .land n => match amGet s.lands n with | some m => m.part | none => 0
  | .hub p => p

/-- KIND of an access (R372). -/
def State.accKind (s : State) (r : AccRef) : AccKind :=
  match r with
  | .pend c q seq => match s.pendOf c q seq with
    | some p => match accessOf p.i with | some a => a.kind | none => .load
    | none => .load
  | .store .. => .store
  | .fetch .. => .fetch
  | _ => .engine

/-- CORE and SKEIN of an entry (R372). -/
def State.accPlace (s : State) (r : AccRef) : Nat × Nat :=
  match r with
  | .pend c q _ | .fetch c q _ => (c, q)
  | .store c seq => (c, match (s.core c).stores.find? fun p => p.seq == seq with | some p => p.slot | none => 0)
  | _ => (0, 0)

/-- An address that is wanted, and whether for a write and for a fetch. -/
structure Want where
  va : DWord
  write : Bool
  fetch : Bool
  deriving DecidableEq, Repr, Inhabited

def globsOf (ps : List (Loc × Nat)) (write : Bool) : List Want :=
  ps.filterMap fun e => match e.1 with | .glob va => some ⟨va, write, false⟩ | .scr .. => none

/-- The blocks on which the fibres of a skein wait under TLWT. -/
def Skein.tlBlocks (k : Skein) : List DWord :=
  ((laneList k.live).filterMap fun l => match (k.fibre l).bind Fibre.wait with
    | some w => match w.w with | .tlwt bs _ => some (bs.map Prod.fst) | _ => none
    | none => none).flatten

def State.pendWants (s : State) (k : Skein) (p : Pending) : List Want :=
  match accessOf p.i with
  | none => []
  | some a => (laneList p.left).flatMap fun l =>
    let va := (p.addrs[l]?).getD 0
    match p.i with
    | .ldFmt .. => [⟨va, false, false⟩]
    | _ => globsOf (s.locate k a.sp l va a.size) (a.kind == .atomic)

/-- The first and last byte of a range, for what crosses a page. -/
def rangeWant (va : DWord) (n : Nat) (write : Bool) : List Want := [⟨va, write, false⟩, ⟨va + BitVec.ofNat 64 (n - 1), write, false⟩]

/-- The address that an expansion reaches: of its stream or its dictionary, or of its output where its next token can be read (R386). -/
def State.unzWants (s : State) (x : Copy) : List Want :=
  if x.unzOver then []
  else ⟨x.src + BitVec.ofNat 64 x.inp, false, false⟩ :: match s.unzToken x with
    | .error (.wait va) => [⟨va, false, false⟩]
    | .error _ => []
    | .ok (y, _) =>
      let p := match s.unzWrite x x.list.length (y.list.drop x.list.length) with
        | (_, p, .wait) => p
        | _ => x.list.length
      if y.list.length = x.list.length then [] else [⟨x.dst + BitVec.ofNat 64 p, true, false⟩]

/-- What a streamer command waits for: its timeline block once it is its lot's oldest, a stream header, or what its bytes reach (R217, R261,
R386). -/
def State.copyWants (s : State) (x : Copy) : List Want :=
  match x.stage with
  | .queued =>
    if x.isShape || !s.copyReady x then []
    else match x.tlVa, x.tl with
      | some va, none => [⟨va, true, false⟩]
      | _, _ => if x.isUnz then rangeWant x.src 32 false else []
  | .started =>
    if x.isUnz then s.unzWants x
    else
      ((s.copyReach x).map fun va => (⟨va, x.cx.dir, false⟩ : Want)) ++
        ((List.range x.unitCount).flatMap fun e => (x.unitBytes e).filterMap fun t =>
          if x.inside (x.coords t) then (x.tableVa (x.coords t)).map fun va => (⟨va, false, false⟩ : Want) else none)
  | _ => []

def State.mtxWants (s : State) (c : Nat) (m : MCmd) : List Want :=
  match m.mma? with
  | none => []
  | some a =>
    let step := if m.started then ((s.core c).tile m.tile).kdone else 0
    let rows := fun (isA : Bool) => if a.src isA then (List.range 128).flatMap fun i =>
      let packed := match s.xlate c (s.partOf (s.lot m.lot)) (a.base isA) false false with
        | .ok x => x.fmt.fmt == 7 && x.fmt.geo == 1
        | .bad .. => false
      rangeWant (a.rowVa isA packed i step) (if packed then 256 else 192) false else []
    if m.bad.isSome || !m.rowsA.isEmpty || !(s.core c).eligible m then [] else rows true ++ rows false

/-- What the reading of a vector reaches: its first byte, and once the format there tells its length, its last. -/
def State.vecWants (s : State) (u : Nat) (x : Query) (va : DWord) : List Want :=
  match s.xlate u x.part va false false with
  | .ok t => if searchFmt t.fmt.fmt then rangeWant va (x.dims * fmtBytes t.fmt.fmt) false else [⟨va, false, false⟩]
  | .bad .. => [⟨va, false, false⟩]

/-- What a query waits for: the vector and the timeline block of its packet, and the vector that places it, or what its next round
reaches (R217, R391). -/
def State.queryWants (s : State) (u : Nat) (x : Query) : List Want :=
  let results := rangeWant x.result (8 * x.k + 8) true
  let tline : List Want := if x.tline == 0 then [] else [⟨x.tline, true, false⟩]
  if x.fin then []
  else if !x.running then match x.packetBad with
    | some d => if d = 0 then [] else s.vecWants u x x.qvecVa ++ if d ≤ 32 then [] else tline
    | none => s.vecWants u x x.qvecVa ++ tline ++ if x.homeSel == 8 then [⟨x.vecVa (x.entry 0), false, false⟩] else []
  else if x.vis.isEmpty then (List.range x.nent).flatMap fun e => s.vecWants u x (x.vecVa (x.entry e))
  else match x.cand.find? fun c => !c.2.2 with
    | none => results
    | some c =>
      if x.hops != 0 && x.rounds == x.hops then results
      else match s.searchRead x true (x.listVa c.2.1) (4 * x.degree) with
        | .bad .. => results
        | .wait => rangeWant (x.listVa c.2.1) (4 * x.degree) false
        | .ok _ bs => if 8192 < x.vis.length + (x.fresh bs).length then results
            else rangeWant (x.listVa c.2.1) (4 * x.degree) false ++ (x.fresh bs).flatMap fun n => s.vecWants u x (x.vecVa n)

/-- What an access waits for. -/
def State.wants (s : State) (r : AccRef) : List Want :=
  match r with
  | .pend c q seq => match s.skein c q with
    | none => []
    | some k => if seq = tlwtSeq then (if (s.lotOf k).role == .trailing then [] else k.tlBlocks).map fun va => (⟨va, false, false⟩ : Want)
      else match s.pendOf c q seq with | some p => s.pendWants k p | none => []
  | .store c seq => match (s.core c).stores.find? fun p => p.seq == seq with
    | some p => (laneList p.left).flatMap fun l => globsOf (p.pieces l) true
    | none => []
  | .fetch c q pc => match s.skein c q with
    | some k => if k.cur == some pc && k.park.isNone && !k.noFetch.any fun e => e.1 == pc
        then ((List.range (s.wordsNeeded c q k pc)).drop (k.had pc).length).map fun i =>
          (⟨pc + BitVec.ofNat 64 (4 * i), false, true⟩ : Want) else []
    | none => []
  | .ask c q => match s.skein c q with
    | some k => k.asks.map fun va => ⟨va, false, false⟩
    | none => []
  | .copy n => match amGet s.copies n with | some x => s.copyWants x | none => []
  | .mtx c e => match (s.core c).cmd e with | some m => s.mtxWants c m | none => []
  | .query n => match amGet s.queries n with | some x => s.queryWants (s.accUnit r) x | none => []
  | .land n => match amGet s.lands n with
    | some m => if !m.report then [⟨m.va, true, false⟩]
      else if m.late.isNone then []
      else match s.lakes.find? fun l => l.part == m.part && l.va == m.va && !l.gone with
        | some l => [⟨l.closeVa, true, false⟩]
        | none => []
    | none => []
  | .hub p => ((s.tlineWaits p).map fun e => (⟨e.2.2, true, false⟩ : Want)) ++
      ((s.jdecWaits p).map fun e => (⟨e.2, true, false⟩ : Want)) ++ ((s.listWaits p).map fun e => (⟨e.2, false, false⟩ : Want)) ++
      match s.cmdWait p with | some (va, w, _) => [⟨va, w, false⟩] | none => []

/-! ### Refusal (R373, R375, R386, R389, R391) -/

/-- The lanes of a pending result whose page is refused fail. -/
def State.refusePend (s : State) (c q seq : Nat) (on : DWord → Bool) (code detail : Nat) : State :=
  match s.skein c q, s.pendOf c q seq with
  | some k, some p =>
    let p := ((laneList p.left).filter fun l => (globsOf (s.pagePieces c k p.i p.addrs l) false).any fun w => on w.va).foldl
      (fun (p : Pending) l => p.fail l code detail) p
    ((s.setSkein c q (k.setPend p)).finishPend c q seq).returned c q
  | _, _ => s

/-- A TLWT whose block is refused waits no more: its skein receives the cause. -/
def State.refuseTlwt (s : State) (c q : Nat) (on : DWord → Bool) (code detail : Nat) : State :=
  match s.skein c q with
  | none => s
  | some k =>
    let hit := fun (l : Nat) => match (k.fibre l).bind Fibre.wait with
      | some w => (match w.w with | .tlwt bs _ => bs.any fun b => on b.1 | _ => false)
      | none => false
    let ls := (laneList k.live).filter hit
    match ls.head?.bind k.fibre with
    | some f => match f.wait with
      | some w =>
        let bs := match w.w with | .tlwt bs _ => bs | _ => []
        let aff := ((laneList w.act).zip bs).foldl (fun (m : Lanes) e => if on e.2.1 then m ||| BitVec.ofNat 64 (2 ^ e.1) else m) 0
        let va := ((bs.find? fun b => on b.1).map Prod.fst).getD 0
        let k := k.wake (lanesWhere k.width ls.contains)
        (s.setSkein c q k).defer c q [⟨w.info, code, detail, aff, w.act &&& ~~~aff, va, true, none, k.seq, []⟩]
      | none => s
    | none => s

/-- The lanes of a store still to be performed that reach some addresses. -/
def PStore.lanesOn (p : PStore) (on : DWord → Bool) : Lanes :=
  lanesWhere 64 fun l => p.left.getLsbD l && (globsOf (p.pieces l) true).any fun w => on w.va

/-- Some lanes of an accepted store fail. -/
def PStore.failLanes (p : PStore) (m : Lanes) (code detail : Nat) : PStore :=
  (laneList m).foldl (fun p l => p.fail l code detail) p

/-- A refused store leaves with every younger store of the core behind it on that page, each with one cause for all its lanes there
(R375). -/
def State.refuseStores (s : State) (c seq : Nat) (on : DWord → Bool) (code detail : Nat) : State :=
  (s.updCore c fun u => { u with stores := u.stores.map fun p =>
    if seq ≤ p.seq then p.failLanes (p.lanesOn on) code detail else p }).sweepStores c

/-- A refused fetch is raised once the batch at its PC is the skein's current one (R373); the words behind `pc` that it names are those of one
instruction. -/
def State.refuseFetch (s : State) (c q : Nat) (pc : DWord) (on : DWord → Bool) (code detail : Nat) : State :=
  let va := (((List.range 4).map fun i => pc + BitVec.ofNat 64 (4 * i)).find? on).getD pc
  s.updSkein c q fun k => ({ k with noFetch := (pc, some (va, code, detail)) :: k.noFetch.filter fun e => e.1 != pc } : Skein).reselect

/-- An instruction that asked for a page before its checks takes the refusal up when it is tried again (R376, R389). -/
def Skein.refusedAsk (k : Skein) (on : DWord → Bool) (code detail : Nat) : Skein :=
  { k with lost := ((k.asks.filter on).map fun va => (va.toNat / 65536, code, detail)) ++ k.lost, asks := k.asks.filter fun va => !on va }

/-- A refused access of an engine. -/
def State.refuseCopy (s : State) (x : Copy) (on : DWord → Bool) (code : Nat) : State :=
  s.copyFail x 0x63 code (((s.copyWants x).find? fun w => on w.va).map Want.va |>.getD 0)

/-- A waiting access to some addresses is refused (R373). -/
def State.refuse (s : State) (on : DWord → Bool) (code detail : Nat) (r : AccRef) : State :=
  match r with
  | .pend c q seq => if seq = tlwtSeq then s.refuseTlwt c q on code detail else s.refusePend c q seq on code detail
  | .store c seq => s.refuseStores c seq on code detail
  | .fetch c q pc => s.refuseFetch c q pc on code detail
  | .ask c q => s.updSkein c q fun k => k.refusedAsk on code detail
  | .copy n => match amGet s.copies n with | some x => s.refuseCopy x on code | none => s
  | .mtx c e => match (s.core c).cmd e with
    | some m => s.setEst c { m with bad := some (0x65, code) } (m.est.getD 0)
    | none => s
  | .query n => match amGet s.queries n with
    | some x => s.setQuery { x with lost := ((s.wants r).filter fun w => on w.va).foldl (fun l w => insNat l (w.va.toNat / 65536)) x.lost }
    | none => s
  | .land n => match amGet s.lands n with
    | some m => if m.report then { s with lands := amPut s.lands n { m with late := some ((m.late.getD (0, false)).1, true) } }
        else s.landCause m code detail
    | none => s
  | .hub p => ((s.refuseRecords p on).refuseLists p on).refuseCmd p on

/-- An entry is refused: every access merged into it is. -/
def State.refuseEntry (s : State) (e : FaultEnt) (detail : Nat) : State :=
  e.who.foldl (fun s r => s.refuse e.onPage e.code detail r) { s with faults := s.faults.filter fun f => f != e }

/-! ### Walks (R370 to R372) -/

def kindCode : AccKind → Nat
  | .load => 0 | .store => 1 | .atomic => 2 | .fetch => 3 | .engine => 4 | .peer => 5

/-- The 32 bytes of a fault-ring entry (R372). -/
def FaultEnt.pack (e : FaultEnt) : BitVec 256 :=
  let eng := e.kind == .engine || e.kind == .peer
  BitVec.ofNat 256 (e.va.toNat + e.pte.toNat * 2 ^ 64 + (if eng then 0 else e.skein) * 2 ^ 131 + (if eng then 0 else e.core) * 2 ^ 137 +
    e.level * 2 ^ 146 + kindCode e.kind * 2 ^ 149 + e.code * 2 ^ 152 + e.id.toNat * 2 ^ 160 + e.tick % 2 ^ 64 * 2 ^ 192)

/-- A new entry: the buffer, its copy in the partition's ring, the interrupt (R371). -/
def State.addFault (s : State) (e : FaultEnt) : State :=
  let blk := partRegs e.part + 0x30
  let e := { e with id := BitVec.ofNat 32 (s.fld blk 32 32) }
  let s := s.ringPut e.part blk (s.fld blk 16 4) e.pack
  { s with faults := s.faults ++ [e], msix := s.msix ++ [8 + e.part] }

/-- How many entries a die's buffer holds. -/
def State.faultLoad (s : State) (die : Nat) : Nat := (s.faults.filter fun e => e.die == die).length

/-- An access begins to wait in the fault buffer on a page: the lanes of a store in the replay queue (R119), the batch of a fetch
unrunnable. -/
def State.faultWait (s : State) (r : AccRef) (on : DWord → Bool) : State :=
  match r with
  | .store c seq => s.updStore c seq fun p => { p with replay := p.replay ||| p.lanesOn on }
  | .fetch c q pc => s.updSkein c q fun k => ({ k with noFetch := (pc, none) :: k.noFetch } : Skein).reselect
  | _ => s

/-- A fault of an access: merged where page, cause and kind agree, else a new entry; with the ring disabled it is refused at
once (R370, R371); with the buffer full the walk is made again later. -/
def State.fault (s : State) (r : AccRef) (va : DWord) (code level : Nat) (pte : DWord) : State :=
  let die := s.accDie r
  let part := s.accPart r
  let kind := s.accKind r
  let new : FaultEnt := ⟨die, part, 0, s.tick, code, kind, level, (s.accPlace r).1, (s.accPlace r).2, pte, va, [r]⟩
  let same := fun (e : FaultEnt) => e.die == die && e.part == part && e.onPage va && e.code == code && e.kind == kind
  let s' := s.faultWait r new.onPage
  let full : Bool := match r with
    | .store c seq => decide (64 ≤ ((s.core c).stores.filter fun p => p.replay != 0 && p.seq != seq).length)
    | _ => false
  if s.fld (partRegs part + 0x30) 0 1 == 0 || code == 0x32 then s.refuse new.onPage code (if code == 0x32 then 255 else 2) r
  else if full then s
  else if s.faults.any same then
    { s' with faults := s.faults.map fun e => if same e then { e with who := e.who ++ [r] } else e }
  else if s.faultLoad die < 4096 then s'.addFault new
  else s

/-- A walk for a wanted page: its leaf fills the TLBs, or the access faults. -/
def State.walkFor (s : State) (r : AccRef) (va : DWord) : State :=
  match (s.wants r).find? fun w => w.va.toNat / 65536 == va.toNat / 65536 with
  | none => s
  | some w =>
    if s.heldAt r w.va then s
    else match s.xlate (s.accUnit r) (s.accPart r) w.va w.write w.fetch with
      | .ok x => s.tlbFill (s.accUnit r) (s.accPart r) w.va x
      | .bad code level pte => s.fault r w.va code level pte

/-- WALK_COMPLETE (R370). -/
def execWalkComplete (r : AccRef) (va : BitVec 64) (s : State) : Host.Outcome State Fault Refusal :=
  .next (s.walkFor r va)

/-- FAULT_BUFFER_RETRY (R370): the walk of an access that found the buffer full, once an entry is free. -/
def execFaultBufferRetry (r : AccRef) (va : BitVec 64) (s : State) : Host.Outcome State Fault Refusal :=
  .next (if s.faultLoad (s.accDie r) < 4096 then s.walkFor r va else s)

/-! ### Replies (R373) -/

def State.faultBy (s : State) (part : Nat) (id : BitVec 32) : Option FaultEnt :=
  s.faults.find? fun e => e.part == part && e.id == id

/-- The accesses merged into an entry walk again, from the root: what their TLBs hold of the page goes. -/
def State.retryEntry (s : State) (e : FaultEnt) : State :=
  let us := e.who.flatMap fun r => unitsOf (s.accUnit r)
  let s := { s with faults := s.faults.filter fun f => f != e
                    tlb := s.tlb.filter fun t => !(us.contains t.unit && t.hits t.unit e.part e.va) }
  e.who.foldl (fun s r => match r with
    | .fetch c q pc => s.updSkein c q fun k => ({ k with noFetch := k.noFetch.filter fun f => f.1 != pc } : Skein).reselect
    | _ => s) s

/-- FAULT_RETRY. -/
def execFaultRetry (part : Nat) (id : BitVec 32) (s : State) : Host.Outcome State Fault Refusal :=
  match s.faultBy part id with
  | some e => .next (s.retryEntry e)
  | none => .next s

/-- FAULT_REFUSE. -/
def execFaultRefuse (part : Nat) (id : BitVec 32) (s : State) : Host.Outcome State Fault Refusal :=
  match s.faultBy part id with
  | some e => .next (s.refuseEntry e 0)
  | none => .next s

/-- FAULT_RETRY_ALL: every waiting entry of the partition. -/
def execFaultRetryAll (part : Nat) (s : State) : Host.Outcome State Fault Refusal :=
  .next ((s.faults.filter fun e => e.part == part).foldl State.retryEntry s)

/-- FAULT_REPLY_NONE has no effect. -/
def execFaultReplyNone (_part : Nat) (_id : BitVec 32) (s : State) : Host.Outcome State Fault Refusal := .next s

/-- FAULT_WATCHDOG: an entry that has waited for WDOG × 65,536 ticks is refused with DETAIL 1. -/
def execFaultWatchdog (part : Nat) (id : BitVec 32) (s : State) : Host.Outcome State Fault Refusal :=
  match s.faultBy part id with
  | some e => .next (if s.wdog part != 0 && e.tick + s.wdog part ≤ s.tick then s.refuseEntry e 1 else s)
  | none => .next s

/-! ### Instruction fetch (R95, R132) -/

/-- A word joins those fetched of an instruction; the third of one without a prefix is its last. -/
def joinWord (ws : List Word) (w : Word) : List Word :=
  if ws.length = 2 && !isPfxWord (ws[0]?.getD 0) then ws ++ [w, 0] else ws ++ [w]

/-- INSTRUCTION_FETCH (R95, R147): the next word of an instruction at the PC of a batch, or of one of the three behind it, is
fetched; the words of an instruction in ascending order, which R147 leaves open (log entry 110). -/
def execInstructionFetch (c q : Nat) (pc : BitVec 64) (s : State) : Host.Outcome State Fault Refusal :=
  match s.skein c q with
  | none => .next s
  | some k =>
    let near := k.pcs.flatMap (k.fetchAhead 3)
    let had := k.had pc
    if !near.contains pc || 4 ≤ had.length then .next s
    else match s.wordAt c q k pc had.length with
      | some w => .next (s.setSkein c q { k with
          fetched := ⟨pc, joinWord had w⟩ :: k.fetched.filter fun f => f.pc != pc && near.contains f.pc })
      | none => .next s

/-! ### The watchdog of waits (R360, R361, R375) -/

/-- The waits that the watchdog times: a barrier whose last arrival has been made only lacks its release, and a REGRP whose shuffle runs only
its end. -/
def Wait.timed (shuffling : Bool) : Wait → Bool
  | .bar _ done => !done
  | .nbar _ done => !done
  | .tret _ => false
  | .regrp _ => !shuffling
  | _ => true

/-- A wait that times out is withdrawn (R360). -/
def Fibre.withdraw (f : Fibre) (w : Wait) : Fibre :=
  { f with wait := none
           arrived := match w with | .nbar id _ => f.arrived &&& ~~~(BitVec.ofNat 16 (2 ^ id.toNat)) | _ => f.arrived }

/-- The batch of a skein that waits at an instruction, once its wait, which began with its first fibre, has reached the limit (R360,
R424). -/
def Skein.overdue (k : Skein) (pc : DWord) (shuffling : Bool) (tick limit : Nat) : Lanes :=
  let waits := fun (l : Nat) (late : WaitRec → Bool) => match (k.fibre l).bind Fibre.wait with
    | some w => w.pc == pc && Wait.timed shuffling w.w && late w
    | none => false
  if (List.range k.width).any fun l => waits l fun w => decide (w.since + limit ≤ tick) then lanesWhere k.width fun l => waits l fun _ => true
  else 0

/-- WAIT_TIMEOUT of fibres that wait at an instruction they issued. -/
def State.timeoutWait (s : State) (c q : Nat) (k : Skein) (pc : DWord) (m : Lanes) : State :=
  let recs := (laneList m).filterMap fun l => ((k.fibre l).bind Fibre.wait).map fun w => (l, w)
  match recs with
  | [] => s
  | (_, w) :: _ =>
    let act := recs.foldl (fun (a : Lanes) e => if e.2.act.getLsbD e.1 then a ||| BitVec.ofNat 64 (2 ^ e.1) else a) 0
    let info := { w.info with act := act, batch := m }
    let k := (k.mapFibres m fun _ f => match f.wait with | some w => f.withdraw w.w | none => f)
    (s.setSkein c q k).defer c q [⟨info, 0x16, 0, act, 0, 0, true, some pc, k.seq, []⟩]

/-- WAIT_TIMEOUT (R360, R361, R375): of a wait, of CONV or a member-mask condition, of a release, or of a wait cycle. -/
def execWaitTimeout (c q : Nat) (pc : BitVec 64) (s : State) : Host.Outcome State Fault Refusal :=
  match s.skein c q with
  | none => .next s
  | some k =>
    let limit := s.wdog (s.partOf (s.lotOf k))
    let late := fun (since : Nat) => limit != 0 && decide (since + limit ≤ s.tick)
    let shuffling := s.shuffles.any fun h => h.core == c && h.launch == (s.lotOf k).launch
    let m : Lanes := if limit = 0 then 0 else k.overdue pc shuffling s.tick limit
    if k.park.isSome then .next s
    else if k.cycle && k.pcs.head? == some pc then .next (s.waitCycle c q)
    else if m != 0 then .next (s.timeoutWait c q k pc m)
    else match k.relWait, k.gates.find? fun g => g.pc == pc with
      | some r, _ =>
        if r.pc == pc && late r.since then
          .next ((s.setSkein c q { k with relWait := none }).defer c q [timeoutCause (s.infoAt c q k r.info) 2 k.seq])
        else .next s
      | none, some g =>
        if late g.since && !k.gateOk pc && k.at pc != 0 then .next (s.defer c q [timeoutCause (s.infoAt c q k g.info) 0 k.seq])
        else .next s
      | none, none => .next s

end Sys2Proof.Machine
end

