-- ==== Sys2Proof/Machine/Links.lean ====
section
/-! DEFINITION. The host port, the expander port and their links (R313 to R315, R382 to R384): losses and timeouts of far
requests, host accesses through BAR2, landing windows and their frame marks, and FX Link as far as one module shows it (R321). -/

namespace Sys2Proof.Machine

/-! ### Far requests (R383) -/

/-- The request for an address is outstanding at a hub: it translates to far memory of that hub that its slices do not hold. -/
def State.outstanding (s : State) (r : AccRef) (hub : Bool) (w : Want) : Bool :=
  !s.heldAt r w.va &&
    match s.xlate (s.accUnit r) (s.accPart r) w.va w.write w.fetch with
    | .ok x => isFar x.pa && hubOf x.pa == hub && (w.write || !s.hubHolds (s.accPart r) x.pa 1)
    | .bad .. => false

/-- The lanes of a pending result whose requests are lost fail (R383). -/
def State.loseLanes (s : State) (c q seq : Nat) (hub : Bool) (on : DWord → Bool) (code : Nat) : State :=
  match s.skein c q, s.pendOf c q seq with
  | some k, some p =>
    let write := match accessOf p.i with | some a => a.kind == .atomic | none => false
    let hit := fun (l : Nat) => (globsOf (s.pagePieces c k p.i p.addrs l) write).any fun w => on w.va && s.outstanding (.pend c q seq) hub w
    let p := ((laneList p.left).filter hit).foldl (fun (p : Pending) l => p.fail l code 255) p
    ((s.setSkein c q (k.setPend p)).finishPend c q seq).returned c q
  | _, _ => s

/-- Accepted stores of a core whose requests are lost: each fails on its own with STORE_FAILED, in the lanes that were on their way, and
those that leave are reported together, in issue order (R375, R383). -/
def State.loseStores (s : State) (c : Nat) (sel : PStore → Bool) (hub : Bool) (on : DWord → Bool) (code : Nat) : State :=
  let lost := fun (p : PStore) => lanesWhere 64 fun l => p.left.getLsbD l &&
    (globsOf (p.pieces l) true).any fun w => on w.va && s.outstanding (.store c p.seq) hub w
  (s.updCore c fun u => { u with stores := u.stores.map fun p => if sel p then p.failLanes (lost p) 0x41 code else p }).sweepStores c

/-- The cause of a lost request: of the expander as given, of the host always HOST_TIMEOUT. -/
def lossCode (hub : Bool) (cxl : Nat) : Nat := if hub then cxl else 0xA5

/-- Every outstanding request of a hub fails. -/
def State.loseAll (s : State) (hub : Bool) (code : Nat) : State :=
  let s := s.skeins.foldl (fun s e => e.2.pend.foldl (fun s p =>
    if p.returned then s else s.loseLanes (e.1 / 64) (e.1 % 64) p.seq hub (fun _ => true) code) s) s
  s.cores.foldl (fun s e => s.loseStores e.1 (fun _ => true) hub (fun _ => true) code) s

/-- LINK_DOWN (R382, R383): the requests on their way fail, the loss is counted. -/
def execLinkDown (hub : Bool) (s : State) : Host.Outcome State Fault Refusal :=
  let w := linkWord hub
  let s := (s.setFld w 1 1 0).setFld w 32 32 ((s.fld w 32 32 + 1) % 2 ^ 32)
  .next (s.loseAll hub (lossCode hub 0x3E))

/-- LINK_RETRAIN (R382): LINKUP reads 0 until the training succeeds. -/
def execLinkRetrain (hub : Bool) (s : State) : Host.Outcome State Fault Refusal := .next (s.setFld (linkWord hub) 1 1 0)

/-- LINK_TRAINED (R382). -/
def execLinkTrained (hub : Bool) (s : State) : Host.Outcome State Fault Refusal := .next (s.setFld (linkWord hub) 1 1 1)

/-- The tick at which the instruction of a request issued. -/
def State.accSince (s : State) (r : AccRef) : Nat :=
  match r with
  | .pend c q seq => match s.pendOf c q seq with | some p => p.info.tick | none => s.tick
  | .store c seq => match (s.core c).stores.find? fun p => p.seq == seq with | some p => p.info.tick | none => s.tick
  | .copy n => match amGet s.copies n with | some x => x.info.tick | none => s.tick
  | .mtx c e => match (s.core c).cmd e with | some m => m.info.tick | none => s.tick
  | .query n => match amGet s.queries n with | some x => x.info.tick | none => s.tick
  | .land n => match amGet s.lands n with | some m => m.info.tick | none => s.tick
  | .fetch .. | .ask .. | .hub _ => s.tick

/-- The far addresses that an access has outstanding at a hub. -/
def State.farOut (s : State) (r : AccRef) (hub : Bool) : List DWord := ((s.wants r).filter (s.outstanding r hub)).map Want.va

/-- The requests of an access that are outstanding have gone out: their TIMEOUT runs from now (R383, log entry 2). -/
def State.sendOut (s : State) (r : AccRef) (vas : List DWord) : State :=
  let out := s.farOut r true ++ s.farOut r false
  { s with sent := (r, vas, s.tick) :: s.sent.filter fun e => e.1 != r || e.2.1.any out.contains }

/-- A request of one hub that has waited for TIMEOUT since it went out fails. -/
def State.timeoutAt (s : State) (r : AccRef) (hub : Bool) : State :=
  let code := lossCode hub 0x3F
  let out := s.farOut r hub
  if out.isEmpty then s
  else match s.sent.find? fun e => e.1 == r && decide (s.accSince r ≤ e.2.2) && e.2.1.any out.contains with
    | none => s.sendOut r out
    | some (_, vas, t) =>
      if s.tick < t + s.linkTimeout hub then s
      else match r with
        | .pend c q seq => s.loseLanes c q seq hub vas.contains code
        | .store c seq => s.loseStores c (fun p => p.seq == seq) hub vas.contains code
        | .copy _ | .mtx .. | .query _ | .land _ => s.refuse (fun va => vas.contains va && out.contains va) code 255 r
        | .fetch .. | .ask .. | .hub _ => s

/-- COMPLETION_TIMEOUT (R383): the requests of an access go out, or have waited for TIMEOUT. -/
def execCompletionTimeout (r : AccRef) (s : State) : Host.Outcome State Fault Refusal :=
  .next ((s.timeoutAt r true).timeoutAt r false)

/-- LATE_COMPLETION (R383): discarded. -/
def execLateCompletion (_r : AccRef) (s : State) : Host.Outcome State Fault Refusal := .next s

/-! ### The host (R313, R381) -/

/-- A write of the host or of a peer, at the home slice of each of its lines; a line whose home is lost takes nothing (R402). -/
def State.portWrite (s : State) (part pa : Nat) (data : List Byte) : State :=
  if data.isEmpty then s else (linesOf pa data.length).foldl (fun s ln =>
    let lo := max pa (128 * ln)
    if s.lostHome lo then s else s.homeWrite part lo ((data.drop (lo - pa)).take (128 * ln + 128 - lo)) none) s

/-- HOST_BAR2_ACCESS: bytes of HBM written or read at their home slices; a read of a poisoned sector completes poisoned. An
access outside the BAR does not reach the module. -/
def execHostBar2Access (write : Bool) (pa : Nat) (data : List (BitVec 8)) (s : State) : Host.Outcome State Fault Refusal :=
  if farBase < pa + data.length || data.isEmpty then .next s
  else if write then .next (s.portWrite 0 pa data)
  else .next { s with hostReply := some (s.homeRead pa data.length,
    s.poisoned pa data.length || (linesOf pa data.length).any fun ln => s.lostHome (128 * ln)) }

/-! ### Landing windows (R101, R314, R315, R384) -/

/-- The 64 bytes of a slot that a frame mark touches (R101, R315). -/
def markOffset : Nat := 0x3FFFFFC0

/-- A mark: the slot's earlier writes are performed, so the timeline's VALUE and MARKS rise by 1 together (R125, R315). -/
def State.frameMark (s : State) (w : Nat) : State :=
  let s := s.tlMark (s.winPart w) (s.winTl w) 0
  s.setFld (windowBlock w) 0 32 ((s.fld (windowBlock w) 0 32 + 1) % 2 ^ 32)

/-- WINDOW_MISUSE is recorded in the fault ring of the window's partition with KIND 5 (R384). -/
def State.misused (s : State) (w off : Nat) : State :=
  let part := s.winPart w
  let blk := partRegs part + 0x30
  if s.fld blk 0 1 == 1 then
    let e : FaultEnt := ⟨0, part, BitVec.ofNat 32 (s.fld blk 32 32), s.tick, 0x43, .peer, 0, 0, 0, 0, BitVec.ofNat 64 off, []⟩
    { s.ringPut part blk (s.fld blk 16 4) e.pack with msix := s.msix ++ [8 + part] }
  else s

/-- WINDOW_POSTED_WRITE: one that touches the mark's offsets is a mark, whatever it carries; any other lands with its bytes inside the
window's size, and one with bytes outside is a misuse (log entry 102). -/
def execWindowPostedWrite (w off : Nat) (data : List (BitVec 8)) (s : State) : Host.Outcome State Fault Refusal :=
  if 64 ≤ w || !s.winOn w || data.isEmpty || 2 ^ 30 ≤ off then .next s
  else if markOffset < off + data.length then .next (s.frameMark w)
  else
    let t := s.portWrite (s.winPart w) (s.winTarget w + off) (data.take (s.winSize w - off))
    .next (if s.winSize w < off + data.length then t.misused w off else t)

/-- FRAME_MARK: a posted write at the mark's offset (R315). -/
def execFrameMark (w : Nat) (s : State) : Host.Outcome State Fault Refusal := execWindowPostedWrite w markOffset [0] s

/-- WINDOW_MISUSE (R384): a read, or a request that is not posted, anywhere in an enabled slot, or a posted write outside its window: it is
dropped. -/
def execWindowMisuse (w off : Nat) (write : Bool) (s : State) : Host.Outcome State Fault Refusal :=
  .next (if 64 ≤ w || !s.winOn w || (write && (off < s.winSize w || markOffset ≤ off)) then s else s.misused w off)

/-! ### FX Link (R321, R417) -/

/-- The open round of the proxy lakes whose mirror is a timeline block has completed at their home (R319, R321): what has come for the round
behind it belongs to the one now open. -/
def State.mirrored (s : State) (pa : Nat) : State :=
  { s with lakes := s.lakes.map fun l => if l.proxy && (match s.xlate 512 l.part l.tline false false with
      | .ok x => x.pa == pa
      | .bad .. => false) then l.nextOpen else l }

/-- POD_TIMELINE_ADVANCE (R321): the mirror of a registered pod timeline reaches v, with its stamp. -/
def execPodTimelineAdvance (part : Nat) (block v : BitVec 64) (stamp : Nat) (s : State) : Host.Outcome State Fault Refusal :=
  match s.xlate 512 part block true false with
  | .ok x => match amGet s.podTls x.pa with
    | some (p, home, _) => .next (if p == part && home != s.pkg then
        (if s.tlValue x.pa < v.toNat then s.mirrored x.pa else s).tlRaise x.pa v.toNat stamp else s)
    | none => .next s
  | .bad .. => .next s

end Sys2Proof.Machine
end

