-- ==== Sys2Proof/Machine/Queues.lean ====
section
/-! DEFINITION. The hardware queues (R283 to R289, R296, R366): records pushed by the host and by SPAWN, ready heads, the start of
a launch with its checks, ageing, and trace records (R327, R328). -/

namespace Sys2Proof.Machine

/-! ### Trace records (R327, R328) -/

/-- A 32-byte record in the sample ring of a partition (R328). -/
def State.sampleRecord (s : State) (part tick pc hops event core skein kind st : Nat) : State :=
  let blk := partRegs part + 0x10
  s.ringPut part blk (s.fld blk 19 5) (BitVec.ofNat 256 (tick % 2 ^ 64 + pc % 2 ^ 64 * 2 ^ 64 + hops * 2 ^ 128 + event * 2 ^ 224 +
    core * 2 ^ 232 + skein * 2 ^ 241 + kind * 2 ^ 247 + st * 2 ^ 249))

/-- A trace record, where they are enabled. -/
def State.trace (s : State) (part event record core skein : Nat) : State :=
  if s.fld (partRegs part + 0x10) 2 1 == 1 then s.sampleRecord part s.tick record 0 event core skein 2 0 else s

/-! ### Writes of TAIL (R286) -/

/-- QUEUE_TAIL_WRITE: TAIL of a device-fed queue is read-only. -/
def execQueueTailWrite (q : Nat) (v : BitVec 32) (s : State) : Host.Outcome State Fault Refusal :=
  if 1024 ≤ q || s.qDev q then .next s
  else .next ((s.setFld (queueBlock q + 24) 32 32 v.toNat).setQueueX q (s.queueX q))

/-- A push: the record goes to slot TAIL of an enabled device-fed queue of its partition that is not full (R286, R355). -/
def State.push (s : State) (e : Spawn) (issued : Nat) : State × Bool :=
  let q := e.q
  if s.qOn q && s.qPart q == e.part && s.qDev q && !s.qFull q then
    let n := s.qTail q
    let s := s.homeWrite e.part (s.qSlot q n) (leBytes e.crec.toNat 128) none
    let s := s.setFld (queueBlock q + 24) 32 32 ((n + 1) % 2 ^ 32)
    let x := s.queueX q
    (s.setQueueX q { x with nums := amPut x.nums n ⟨none, false, max s.tick (issued + 64)⟩ }, true)
  else (s, false)

/-- SPAWN_PUSH (R172, R286): the lanes of one SPAWN push in their order; the result is the lane's predicate. -/
def execSpawnPush (n : Nat) (s : State) : Host.Outcome State Fault Refusal :=
  match s.spawns.find? fun e => e.id == n with
  | none => .next s
  | some e =>
    if s.spawns.any fun f => f.id < n && f.core == e.core && f.slot == e.slot && f.seq == e.seq then .next s
    else
      let p := s.pendOf e.core e.slot e.seq
      let (t, ok) := s.push e (match p with | some p => p.info.tick | none => s.tick)
      let t := { t with spawns := t.spawns.filter fun f => f.id != n }
      match t.skein e.core e.slot, p with
      | some k, some p =>
        let t := t.setSkein e.core e.slot (k.setPend (p.setLane k.width e.lane [if ok then 1 else 0]))
        .next ((t.finishPend e.core e.slot e.seq).returned e.core e.slot)
      | _, _ => .next t

/-! ### Ready heads (R287) -/

/-- The record at the head of a queue: accepted and not yet started. -/
def State.headRecord (s : State) (q : Nat) : Option (Nat × BitVec 1024) :=
  let h := s.qHead q
  if h == (s.queueX q).accepted then none else some (h, s.qRecord q h)

/-- What a hub reads of a location that a record names; an address that cannot be reached has not been reached. -/
def State.hubPa (s : State) (part : Nat) (va : DWord) (n : Nat) : Option Nat :=
  match s.xlate hubUnit part va false false with
  | .ok x => if (s.readCause part x.pa n).isSome then none else some x.pa
  | .bad .. => none

/-- A timeline wait of a record holds. -/
def State.waitMet (s : State) (part : Nat) (va v : Nat) : Bool :=
  va == 0 || match s.hubPa part (BitVec.ofNat 64 va) 8 with
    | some pa => decide (v ≤ s.tlValue pa)
    | none => false

/-- The join counter of a record reads 0. -/
def State.joinMet (s : State) (part : Nat) (va : Nat) : Bool :=
  va == 0 || match s.hubPa part (BitVec.ofNat 64 va) 4 with
    | some pa => memNat s.mem pa 4 == 0
    | none => false

def State.headReady (s : State) (q : Nat) : Bool :=
  let part := s.qPart q
  match s.headRecord q with
  | some (_, r) =>
    s.qOn q && s.partOn part && s.waitMet part (recF r 256 64) (recF r 320 64) && s.waitMet part (recF r 384 64) (recF r 448 64) &&
      s.joinMet part (recF r 960 64) && decide (s.launches.length < 4096)
  | none => false

/-- A queue's head is evaluated again; a head that is found ready has been so since (R299). -/
def State.reevaluate (s : State) (q : Nat) : State :=
  let x := s.queueX q
  let ready := s.headReady q
  s.setQueueX q { x with ready, since := if ready then some (x.since.getD s.tick) else none }

/-- Every head of a partition is evaluated again. -/
def State.reevaluateAll (s : State) (part : Nat) : State :=
  s.queues.foldl (fun s e => if s.qPart e.1 == part then s.reevaluate e.1 else s) s

/-- HEAD_REEVALUATE (R287). -/
def execHeadReevaluate (q : Nat) (s : State) : Host.Outcome State Fault Refusal :=
  match amGet s.queues q with
  | some _ => .next (s.reevaluate q)
  | none => .next s

/-! ### The launch that a queue dispatches from (R288) -/

/-- N: the lots of a launch (R284). -/
def Launch.total (l : Launch) : Nat := recLots l.crec

/-- A launch has something to dispatch: a saved unit, a re-run, or lots that no core has taken yet; nothing of one that has failed (R395), or
whose start still waits for its region list. -/
def Launch.dispatchable (l : Launch) : Bool :=
  !l.stop && l.list != some false && (l.recs != [] || decide (l.next < l.total) || l.chunks.any fun c => decide (c.disp < c.count))

/-- The first launch of a queue that has something to dispatch. -/
def State.front (s : State) (q : Nat) : Option Nat := (s.queueX q).flying.find? fun n => (s.launch n).dispatchable

/-- The front of a queue as it was before a change: the age of a new front counts from now on, of one that has never been behind another
from the tick at which it became a ready head (R288). -/
def State.frontSince (s : State) (q : Nat) (old : Option Nat) : State :=
  let now := s.front q
  if now == old then s
  else
    let x := s.queueX q
    s.setQueueX q { x with readyAt := now.map fun n => if old.isNone then (s.launch n).started else s.tick, age := 0 }

/-- The ageing steps that have come due: floor(w ÷ AGE) (R288). -/
def State.aged (s : State) (q : Nat) : State :=
  let x := s.queueX q
  let iv := s.age (s.qPart q)
  match x.readyAt with
  | some t => if iv = 0 then s else s.setQueueX q { x with age := (s.tick - t) / iv }
  | none => s

/-- AGEING_STEP (R288). -/
def execAgeingStep (q : Nat) (s : State) : Host.Outcome State Fault Refusal :=
  match amGet s.queues q with
  | some _ => .next (s.aged q)
  | none => .next s

/-! ### The start of a launch (R286, R296, R333, R366, R399) -/

/-- The physical pages of 64 KiB that a region list overlaps (R399). -/
def State.regionPages (s : State) (part : Nat) (va : Nat) : List Nat :=
  (s.regions part va).foldl (fun ps r =>
    if r.2 = 0 then ps
    else (List.range ((r.1 + r.2 - 1) / 65536 + 1 - r.1 / 65536)).foldl (fun ps i =>
      match s.xlate hubUnit part (BitVec.ofNat 64 (65536 * (r.1 / 65536 + i))) false false with
      | .ok x => insNat ps (x.pa / 65536)
      | .bad .. => ps) ps) []

/-- The flags with which a record starts (R333). -/
def startFlags (mode : Nat) (r : BitVec 1024) : BitVec 6 :=
  let f : BitVec 6 := BitVec.ofNat 6 (recF r 736 6)
  let f := if modeGrd mode then f else f &&& 0b110001#6
  if modeDet mode then f ||| 0b010000#6 else f

/-- The causes of a record that does not start (R366, R414). -/
def State.recordCauses (s : State) (part q n : Nat) (r : BitVec 1024) (kd : Option (BitVec 512)) : List Nat :=
  let x := s.queueX q
  let tlBad := match amGet x.nums n with | some e => e.refused | none => false
  let flags := startFlags (s.partMode part) r
  let d := kd.getD 0
  let ok := kd.isSome && !tlBad && recLimits r (16 * bitsOf d.toNat 320 14) (d.getLsbD 298) (flags.getLsbD 1)
  let width := kd.isSome && (bitsOf d.toNat 45 3 != recF r 685 3 || bitsOf d.toNat 40 5 != recF r 680 5)
  (if ok then [] else [0x80]) ++ (if width then [0x82] else []) ++ if x.doomed.contains n then [0xA6] else []

/-- The base stamp of a checked launch (R121, R296): the largest stamp published by its timeline waits and by the launches that have
decremented its JWAIT counter. -/
def State.baseStamp (s : State) (part : Nat) (r : BitVec 1024) : Nat :=
  let tl := fun (va : Nat) => if va = 0 then 0 else match s.hubPa part (BitVec.ofNat 64 va) 8 with
    | some pa => (s.tlCtx pa).pub
    | none => 0
  let jw := if recF r 960 64 = 0 then 0 else match s.hubPa part (BitVec.ofNat 64 (recF r 960 64)) 4 with
    | some pa => (amGet s.joins pa).getD 0
    | none => 0
  max jw (max (tl (recF r 256 64)) (tl (recF r 384 64)))

/-- HEAD advances past a record (R286, R366). -/
def State.headPast (s : State) (q n : Nat) : State :=
  let s := s.setFld (queueBlock q + 24) 0 32 ((n + 1) % 2 ^ 32)
  let x := s.queueX q
  s.setQueueX q { x with nums := amErase x.nums n, doomed := x.doomed.filter (· != n), ready := false, since := none }

/-- At the start of a launch with ROLLBACK the hub marks the pages of its region list (R399); it waits for a page of the list that has no
translation, and a list of which a page is refused names nothing (log entry 104). -/
def State.markRegions (s : State) (id : Nat) : State :=
  let ln := s.launch id
  if !ln.rollbackable then s
  else s.updLaunch id fun l => match s.regionList ln.part (ln.fld 192 64) with
    | .wait .. => if l.list == some true then l else { l with list := some false }
    | _ => { l with list := none, marks := s.regionPages ln.part (ln.fld 192 64) }

/-- A launch of a queue whose start waits for its region list. -/
def State.unmarked (s : State) (q : Nat) : Option Nat :=
  (s.queueX q).flying.find? fun id => (s.launch id).list == some false && (s.launch id).level.isNone

/-- A record enters the launch table (R286). -/
def State.enterLaunch (s : State) (part q n : Nat) (r : BitVec 1024) (kd : BitVec 512) : State :=
  let x := s.queueX q
  let e := (amGet x.nums n).getD ⟨none, false, s.tick⟩
  let flags := startFlags (s.partMode part) r
  let id := s.launchSeq + 1
  let ln : Launch :=
    { (default : Launch) with
        crec := r, kdesc := kd, slotAddr := s.qSlot q n, q, n, part
        tl := e.tl, flags, bnd := modeBnd (s.partMode part), snapOk := true, started := x.since.getD s.tick, acq := e.acq
        base := if flags.getLsbD 3 then s.baseStamp part r else 0 }
  let old := s.front q
  let s := ({ s with launches := amPut s.launches id ln, launchSeq := id } : State).headPast q n
  let s := s.markRegions id
  let x := s.queueX q
  let s := (s.setQueueX q { x with flying := x.flying ++ [id] }).frontSince q old
  s.trace part 1 (s.qSlot q n) 0 0

/-- LAUNCH_START (R286, R366): a ready head is checked and copied into the launch table, or recorded as failed; a start that waited for its
region list goes on. -/
def execLaunchStart (q : Nat) (s : State) : Host.Outcome State Fault Refusal :=
  let part := s.qPart q
  let s := match s.unmarked q with | some id => s.markRegions id | none => s
  match s.headRecord q, (s.queueX q).ready && s.headReady q with
  | some (n, r), true =>
    let kd := (s.getVirtual hubUnit part (BitVec.ofNat 64 (recF r 768 64)) 64).map fun bs => (BitVec.ofNat 512 (leNat bs) : BitVec 512)
    match s.recordCauses part q n r kd with
    | [] => .next (s.enterLaunch part q n r (kd.getD 0))
    | cs =>
      let slot := s.qSlot q n
      let s := match amGet (s.queueX q).nums n with
        | some e => (match e.tl with | some (pa, k) => s.tlComplete pa k 0 | none => s)
        | none => s
      .next ((cs.foldl (fun s c => s.failEntry part slot 0xFFFFFFFF c 0 0 0 0 0 0) s).headPast q n)
  | _, _ => .next s

end Sys2Proof.Machine
end

