-- ==== Sys2Proof/Machine/Fit.lean ====
section
/-! DEFINITION. Placement: free skein slots, windows and rows (R29, R42, R88), what a core takes (R236, R290, R291, R333), and the
seating of a lot on a core, fresh (R19, R20) or from a context. -/

namespace Sys2Proof.Machine

/-- Where a lot goes on a core: a slot and a window for each lot skein (two windows for a twin), and its first row. -/
structure Fit where
  slots : List Nat
  wins : List (Nat × Nat)
  row0 : Nat
  deriving DecidableEq, Repr, Inhabited

/-! ### Slots (R29) -/

/-- The skein slots taken on a core. -/
def State.slotsTaken (s : State) (c : Nat) : List Nat :=
  s.skeins.flatMap fun e => if e.1 / 64 == c then (if e.2.twin then [e.1 % 64, e.1 % 64 + 4] else [e.1 % 64]) else []

/-- The lowest free slot, or pair of slots, of an issue slot. -/
def slotIn (taken : List Nat) (twin : Bool) (i : Nat) : Option Nat :=
  ((List.range 16).map fun j => 4 * j + i).find? fun q =>
    !taken.contains q && (!twin || (decide (q % 8 < 4) && !taken.contains (q + 4)))

/-- The issue slot with the most free slots, the lowest among equals. -/
def freestIssue (taken : List Nat) : Nat :=
  let used := fun (i : Nat) => (taken.filter fun q => q % 4 == i).length
  (List.range 4).foldl (fun b i => if used i < used b then i else b) 0

/-- Slots for lot skeins k, k + 1, ... in rotation. -/
def placeSlots (twin : Bool) (b : Nat) : Nat → Nat → List Nat → Option (List Nat)
  | 0, _, _ => some []
  | n + 1, k, taken =>
    match (List.range 4).findSome? fun j => slotIn taken twin ((b + k + j) % 4) with
    | none => none
    | some q => (placeSlots twin b n (k + 1) (q :: if twin then (q + 4) :: taken else taken)).map (q :: ·)

/-! ### Windows and rows (R42, R88) -/

/-- The lowest start, a multiple of `step`, of a free range of `n` below a limit. -/
def lowestRun (used : List (Nat × Nat)) (step n limit : Nat) : Option Nat :=
  ((List.range (limit / step + 1)).map (step * ·)).find? fun a => decide (a + n ≤ limit) && used.all (apart (a, n))

/-- The windows taken from a core's register pool. -/
def State.winsTaken (s : State) (c : Nat) : List (Nat × Nat) :=
  s.skeins.flatMap fun e => if e.1 / 64 == c then
    (if e.2.twin then [(e.2.base, e.2.window), (e.2.base2, e.2.window)] else [(e.2.base, e.2.window)]) else []

/-- Windows for some lot skeins, each the lowest free run at a multiple of 8 (R42; which run is log entry 88). -/
def placeWins (twin : Bool) (size : Nat) : Nat → List (Nat × Nat) → Option (List (Nat × Nat))
  | 0, _ => some []
  | n + 1, used =>
    match lowestRun used 8 size 4096 with
    | none => none
    | some a =>
      if twin then
        match lowestRun ((a, size) :: used) 8 size 4096 with
        | none => none
        | some b => (placeWins twin size n ((a, size) :: (b, size) :: used)).map ((a, b) :: ·)
      else (placeWins twin size n ((a, size) :: used)).map ((a, 0) :: ·)

/-- The rows that allocations hold on a core. -/
def State.rowsTaken (s : State) (c : Nat) : List (Nat × Nat) :=
  s.lots.filterMap fun e => if e.2.core == c && e.2.rows != 0 && s.rowsHeld e.1 then some (e.2.row0, e.2.rows) else none

/-- Room on a core for `n` lot skeins and some rows. -/
def State.fitOn (s : State) (c n : Nat) (twin : Bool) (window rows : Nat) : Option Fit :=
  let taken := s.slotsTaken c
  match placeSlots twin (freestIssue taken) n 0 taken, placeWins twin window n (s.winsTaken c),
      (if rows = 0 then some 0 else lowestRun (s.rowsTaken c) 16 rows 448) with
  | some slots, some wins, some row0 => some ⟨slots, wins, row0⟩
  | _, _, _ => none

/-! ### What a core takes (R290, R291, R333) -/

/-- The estimate of a lot of a launch (R289). -/
def State.estimateOf (s : State) (ln : Launch) : Nat :=
  if ln.estLot != 0 then ln.estLot else if ln.retired != 0 then ln.sumCyc / ln.retired else s.defEst ln.part

/-- A die's dispatcher rebuilds its tables while lots are resident there (R367). -/
def State.rebuilding (s : State) (d : Nat) : Bool := (s.die d).rebuild && s.lots.any fun e => e.2.core / 64 == d && e.2.resident

/-- Dispatch to a die goes on: it belongs to the partition, no fence has begun and no rebuild is under way (R335, R367, R402). -/
def State.dieOpen (s : State) (d part : Nat) : Bool :=
  s.partOn part && (s.partDies part).testBit d && !s.fenced d && !(s.die d).stopped && !s.rebuilding d

/-- No lot runs on a core. -/
def State.coreFree (s : State) (c : Nat) : Bool := s.lots.all fun e => !(e.2.core == c && e.2.resident)

/-- The maturity of some cores: the latest dispatch tick + estimate of the lots that run on them (R291). -/
def State.maturityOf (s : State) (cs : List Nat) : Nat :=
  s.lots.foldl (fun m e => if e.2.resident && cs.contains e.2.core then max m (e.2.dispatched + e.2.estimate) else m) 0

/-- The maturity of a reservation (R291, R300). -/
def State.maturity (s : State) (r : Reserve) : Nat := if r.mordant then r.maturity else s.maturityOf r.cores

/-- A core's reservations let a lot of a launch in: the first of them is for that launch, or the core is free and the lot back-fills it (R291).
Another record may have reserved the core behind the first, whose action on it was under way (R312). -/
def State.coreOpen (s : State) (c id est : Nat) : Bool :=
  let ln := s.launch id
  s.dieOpen (c / 64) ln.part && !(ln.bnd && ln.bound == 0 && decide (64 ≤ c % 64 + s.resv ln.part)) &&
    match s.reserves.find? fun r => r.cores.contains c with
    | some r => r.launch == id || (s.coreFree c && decide (s.tick + est ≤ s.maturity r))
    | none => true

/-- No other lot with the matrix flag is resident (R236). -/
def State.matrixFree (s : State) (c : Nat) (ln : Launch) : Bool :=
  !ln.matrix || s.lots.all fun e => !(e.2.core == c && e.2.resident && (s.launch e.2.launch).matrix)

def Launch.twin (l : Launch) : Bool := l.widthCode == 6
def Launch.skeinCount (l : Launch) : Nat := recSkeins l.crec

/-- A fresh lot of a launch fits a core (R290). -/
def State.fitLot (s : State) (c id est : Nat) : Option Fit :=
  let ln := s.launch id
  if s.coreOpen c id est && s.matrixFree c ln then s.fitOn c ln.skeinCount ln.twin ln.window ln.rowsEach else none

/-- The lowest-numbered local block that no lot of the launch holds (R84). -/
def Launch.freeBlock (l : Launch) : Option Nat :=
  (List.range l.blockCount).find? fun b => !(amVals l.blocks).contains b

/-- A lot that needs a local block and holds none takes one; none while every block is held (R84). -/
def Launch.takeBlock (l : Launch) (idx : Nat) : Option Launch :=
  if l.localSize = 0 || (amGet l.blocks idx).isSome then some l
  else l.freeBlock.map fun b => { l with blocks := amPut l.blocks idx b }

/-- The resident skeins of a core. -/
def State.skeinLoad (s : State) (c : Nat) : Nat := (s.skeins.filter fun e => e.1 / 64 == c).length

/-- The fitting core with the fewest resident skeins, the lowest among equals (R290). -/
def State.bestCore (s : State) (d : Nat) (ok : Nat → Bool) : Option Nat :=
  (List.range 64).foldl (fun (b : Option Nat) i =>
    let c := 64 * d + i
    if !ok c then b
    else match b with
      | some e => if s.skeinLoad c < s.skeinLoad e then some c else b
      | none => some c) none

/-- The hand-overs of a core once rows up to `fin` pass to scratchpad too: the lines of what was not passing yet are dropped at two rows a
clock, after those that pass already (R89). -/
def Core.passing (k : Core) (fin tick : Nat) : List (Nat × Nat) :=
  if k.hands.any fun e => e.1 == fin then k.hands
  else
    let below := k.hands.filter fun e => decide (e.1 < fin)
    let above := k.hands.filter fun e => decide (fin < e.1)
    let t := below.foldl (fun m e => max m e.2) tick + (fin - below.foldl (fun m e => max m e.1) k.carve + 1) / 2
    below ++ (fin, above.foldl (fun m e => min m e.2) t) :: above

/-! ### Seating (R20, R89, R292, R310) -/

/-- A lot takes its place on a core: slots, windows, rows, and the accumulator file if its kernel has the matrix flag. -/
def State.seat (s : State) (n : Nat) (l : Lot) (c : Nat) (f : Fit) (ks : List Skein) : State :=
  let ln := s.launch l.launch
  let known := s.lots.any fun e => e.2.core == c && e.2.launch == l.launch && e.2.resident
  let fin := f.row0 + l.rows
  let s := s.updDie (c / 64) fun d => { d with rebuild := false }
  let s := s.setLot n { l with core := c, slots := f.slots, row0 := f.row0, dispatched := s.tick, firstIssue := none
                               freeAt := none, act := none }
  let s := ((ks.zip f.slots).zip f.wins).foldl (fun s e =>
    s.setSkein c e.1.2 { e.1.1 with base := e.2.1, base2 := e.2.2 }) s
  s.updCore c fun k =>
    { k with ccache := if known then k.ccache else []
             hands := if l.rows != 0 && k.carve < fin then k.passing fin s.tick else k.hands
             owner := if ln.matrix then some n else k.owner
             tiles := if ln.matrix then List.replicate 4 defaultTile else k.tiles }

/-- `%lanepart` at lot start (R20, R27). -/
def Launch.lanepart (l : Launch) : Nat := if l.widthCode = 6 then 64 else if 1 ≤ l.widthCode && l.widthCode ≤ 4 then 2 ^ l.widthCode else 32

/-- The fibre of rank r at lot start (R19, R20, R84). -/
def startFibre (pc : DWord) (n r : Nat) : Fibre :=
  { pc, preds := 0, rank := BitVec.ofNat 32 r, lot := n, localIdx := r, arrived := 0, wait := none, susp := none, young := false }

/-- Lot skein k at lot start (R20, R74). -/
def startSkein (ln : Launch) (n k : Nat) (wid : BitVec 20) : Skein :=
  let w := if ln.twin then 64 else 32
  let pc : DWord := BitVec.ofNat 64 ln.code
  let frame : DWord := BitVec.ofNat 64 ln.frame
  { (default : Skein) with
      lot := n, lotSkein := k, twin := ln.twin, window := ln.window, lanepart := ln.lanepart, rguniform := true, idem := ln.idem, wid
      lanes := (List.range w).map fun l => if w * k + l < recFibres ln.crec then some (startFibre pc n (w * k + l)) else none
      scalars := amPut (amPut [] 0 (loOf frame)) 1 (hiOf frame), acqTick := ln.acq, cur := some pc }

/-- The skeins of a fresh lot; in a checked launch each takes a writer id (R378). -/
def State.startSkeins (s : State) (ln : Launch) (n : Nat) : Nat → Nat → State × List Skein
  | 0, _ => (s, [])
  | m + 1, k =>
    let (s, wid) := if ln.isChecked then s.nextWid else (s, 0)
    let (s, ks) := State.startSkeins s ln n m (k + 1)
    (s, startSkein ln n k wid :: ks)

/-- A lot at its start (R20, R121, R284, R301). -/
def startLot (ln : Launch) (id idx : Nat) (role : Role) (partner : Option Nat) (c est : Nat) : Lot :=
  let v := ln.vatSize
  { (default : Lot) with
      launch := id, idx, core := c, status := .waiting, role, partner, vrank := if v = 0 then 0 else idx % v
      vat := if v = 0 then 0 else idx / v, rows := ln.rowsEach, rankCtr := recFibres ln.crec
      stamps := List.replicate 7 ln.base, block := amGet ln.blocks idx, firstCore := c % 64, estimate := est }

def Role.code : Role → Nat
  | .trailing => 1
  | _ => 0

/-- A fresh lot is dispatched to a core. -/
def State.startOn (s : State) (id idx : Nat) (role : Role) (partner : Option Nat) (c est : Nat) (f : Fit) : State :=
  let ln := s.launch id
  let n := lotKey id role.code idx
  let (s, ks) := s.startSkeins ln n ln.skeinCount 0
  s.seat n (startLot ln id idx role partner c est) c f ks

end Sys2Proof.Machine
end

