-- ==== Sys2Proof/Machine/Context.lean ====
section
/-! DEFINITION. Saved contexts: what a save keeps (R59), its price and its bytes in the context heap (R307 to R309), the heap's
areas, and the way out of a core and back onto one (R243, R263, R306, R310, R311). -/

namespace Sys2Proof.Machine

/-! ### Live registers (R58, R59) -/

/-- The instruction whose live-map entry applies to a fibre: the waiting instruction, the marked one at which it parked, after a REGRP its
own, or the one where it stands. -/
def Skein.livePc (k : Skein) (l : Nat) (f : Fibre) : DWord :=
  match f.wait with
  | some w => w.pc
  | none => ((k.marks.find? fun e => e.2.getLsbD l).map Prod.fst).getD f.pc

/-- The entries that apply to a skein's batches. -/
def State.liveEntries (s : State) (c : Nat) (k : Skein) : List (Option (List (Nat × Nat))) :=
  let pcs := (laneList k.live).foldl (fun ps l => match k.fibre l with
    | some f => insPc ps (k.livePc l f)
    | none => ps) ([] : List DWord)
  pcs.map fun pc => s.liveEntry c (s.launchOf k) pc

/-- The live registers of a skein's window, ascending. -/
def State.liveRegs (s : State) (c : Nat) (k : Skein) : List Nat :=
  let es := s.liveEntries c k
  (List.range k.window).filter fun v => es.any fun e => liveIn e v

/-! ### Sizes (R52, R302, R307, R308) -/

def pad16 (n : Nat) : Nat := (n + 15) / 16 * 16
def pad128 (n : Nat) : Nat := (n + 127) / 128 * 128

/-- The halves of a skein that a context holds as sections: two of a twin (R309). -/
def Skein.halves (k : Skein) : List Nat := if k.twin then [0, 1] else [0]

/-- A register as a context prices it before it is written (R302). -/
def State.skeinPrice (s : State) (c : Nat) (k : Skein) : Nat :=
  let live := s.liveRegs c k
  (k.halves.map fun h => pad16 (1088 + (live.map fun v => Reg.cost (k.reg h v)).foldl (· + ·) 0)).foldl (· + ·) 0

/-- The bytes of a scratchpad bitmap (R307). -/
def bitmapSize (rows : Nat) : Nat := pad16 ((6 * rows + 7) / 8)

def tileSize : Nat := 90176

/-- The parts of a context that do not depend on its skeins. -/
def restSize (l : Lot) (copies cmds tiles : Nat) : Nat :=
  64 * (l.shapes.length + copies + cmds) + bitmapSize l.rows + 128 * l.written.length + tileSize * tiles

/-- S: the size of the context that a save would write now (R302). -/
def State.contextPrice (s : State) (n : Nat) : Nat :=
  let l := s.lot n
  let x := s.capture n
  128 + ((s.skeins.filter fun e => e.2.lot == n).map fun e => s.skeinPrice l.core e.2).foldl (· + ·) 0 +
    restSize l x.copies.length x.cmds.length x.tiles.length

/-! ### Bytes (R307 to R309) -/

/-- Bytes whose layout the spec does not give. -/
def State.openBytes (s : State) (tag n : Nat) : List Byte := (List.range n).map fun i => BitVec.ofNat 8 (Config.pick s.choices (tag + i))

def packFields (fs : List (Nat × Nat)) : Nat := fs.foldl (fun n e => n + e.2 * 2 ^ e.1) 0

/-- A register of a half: U, A, or G with the mask of its nonzero lanes (R308). -/
def regBytes : Reg → List Byte
  | .u v => leBytes v.toNat 4
  | .a b st => leBytes b.toNat 4 ++ leBytes st.toNat 4
  | .g w =>
    let nz := (List.range 32).filter fun l => (w[l]?).getD 0 != 0
    leBytes (nz.foldl (fun m l => m + 2 ^ l) 0) 4 ++ nz.flatMap fun l => leBytes ((w[l]?).getD 0).toNat 4

/-- The 16 bytes of a lane. -/
def laneBytes (k : Skein) (l : Nat) : List Byte :=
  match k.fibre l with
  | none => List.replicate 16 0
  | some f =>
    let pc := match f.wait with | some w => w.pc | none => f.pc
    leBytes pc.toNat 8 ++ leBytes f.rank.toNat 4 ++
      leBytes (packFields [(0, f.preds.toNat), (7, 1), (8, f.localIdx % 2048), (19, if f.wait.isSome then 1 else 0)]) 4

/-- The first 64 bytes of a skein section, of half h of the skein in slot q: its fields in the order in which R308 names them, one word
each. The order and the widths are the model's (log entry 103), and the bytes behind them are open. -/
def State.skeinFields (s : State) (q : Nat) (k : Skein) (h : Nat) : List Byte :=
  [q + 4 * h, 32 * h, k.vx.toNat, k.lanepart, k.fflags.toNat, k.idem.toNat, k.rguniform.toNat, k.wid.toNat, k.window, k.pcs.length].flatMap
    (fun v => leBytes v 4) ++ s.openBytes 1000 24

/-- A skein section: half h of the skein in slot q with its live registers (R308). -/
def State.skeinSection (s : State) (q : Nat) (k : Skein) (h : Nat) (live : List Nat) : List Byte :=
  let lanes := (List.range 32).map (· + 32 * h)
  let bar := fun (id : Nat) => (List.range 32).foldl (fun m i => match k.fibre (32 * h + i) with
    | some f => if f.arrived.getLsbD id then m + 2 ^ i else m
    | none => m) 0
  let tag := fun (v : Nat) => if live.contains v then (k.reg h v).tag else 3
  let body := s.skeinFields q k h ++ (List.range 16).flatMap (fun id => leBytes (bar id) 4) ++
    leBytes ((List.range 256).foldl (fun m v => m + tag v * 4 ^ v) 0) 64 ++
    (List.range 64).flatMap (fun n => leBytes (k.scalar n).toNat 4) ++ lanes.flatMap (fun l => leBytes (k.gen l).toNat 4) ++
    lanes.flatMap (laneBytes k) ++ live.flatMap fun v => regBytes (k.reg h v)
  body ++ List.replicate (pad16 body.length - body.length) 0

/-- The 64 bytes of a tile's state (R307), of its checkpoint (R242, R243): an MMA that stops before its first k-step has changed none of
it. -/
def tileState (t : Tile) : List Byte :=
  let bits := fun (xs : List Nat) => leBytes (xs.foldl (fun m i => m + 2 ^ i) 0) 16
  leBytes (packFields [(0, if t.int then 1 else 0), (1, if t.ver then 1 else 0)]) 1 ++ leBytes t.flags.toNat 1 ++ leBytes t.ckDone 1 ++
    leBytes t.ckTot 1 ++ leBytes t.ksum 4 ++ leBytes (BitVec.ofInt 32 t.emax).toNat 4 ++ List.replicate 4 0 ++
    bits t.rex ++ bits t.cex ++ List.replicate 16 0

/-- A checksum: 768-bit two's complement. -/
def sumBytes (x : Int) : List Byte := leBytes (x % 2 ^ 768).toNat 96

/-- An accumulator tile: elements, rsum, csum, state. -/
def tileBytes (t : Tile) : List Byte :=
  ((List.range 16384).flatMap fun i => leBytes (t.elem (i / 128) (i % 128)).toNat 4) ++
    ((List.range 128).flatMap fun i => sumBytes ((amGet t.rsum i).getD 0)) ++
    ((List.range 128).flatMap fun j => sumBytes ((amGet t.csum j).getD 0)) ++ tileState t

/-- The lot header (R309). -/
def State.headerBytes (s : State) (n : Nat) (x : Saved) (next : Nat) : List Byte :=
  let l := x.lot
  let ln := s.launch l.launch
  let set := fun (ks : List Nat) => ks.foldl (fun m i => m + 2 ^ i) 0
  let sections := (x.skeins.map fun e => e.2.halves.length).foldl (· + ·) 0
  leBytes (packFields
    [(928, l.vat % 2 ^ 32), (896, l.vrank % 64), (832, next), (768, if ln.localSize = 0 then 0 else l.blockBase ln),
     (448, ((l.stamps.zip (List.range 7)).map fun e => e.1 % 2 ^ 44 * 2 ^ (44 * e.2)).foldl (· + ·) 0), (384, l.written.length),
     (352, s.openBatches n % 2 ^ 32), (320, l.batchSeq % 2 ^ 32), (296, set (x.tiles.map Prod.fst)), (288, x.cmds.length % 256),
     (272, x.copies.length % 256), (256, l.phases.toNat), (240, set (l.shapes.map Prod.fst)), (232, (sections - 1) % 64),
     (231, if l.idemx then 1 else 0), (230, if l.side then 1 else 0), (224, l.firstCore % 64), (192, l.idx % 2 ^ 32),
     (128, l.elapsed0 % 2 ^ 64), (64, l.retiredCnt % 2 ^ 64), (0, ln.slotAddr % 2 ^ 64)]) 128

/-- A context in the layout of R307: the records of streamer and matrix commands have no layout in the spec. -/
def State.contextBytes (s : State) (n : Nat) (x : Saved) (live : Nat → List Nat) (next : Nat) : List Byte :=
  let l := x.lot
  let map := leBytes (l.written.foldl (fun m b => m + 2 ^ b) 0) (bitmapSize l.rows)
  s.headerBytes n x next ++
    x.skeins.flatMap (fun e => e.2.halves.flatMap fun h => s.skeinSection e.1 e.2 h (live e.1)) ++
    l.shapes.flatMap (fun e => leBytes e.2.crec.toNat 64) ++ s.openBytes 2000 (64 * x.copies.length) ++ map ++
    l.written.flatMap (fun b => l.read (128 * b) 128) ++ s.openBytes 10000 (64 * x.cmds.length) ++ x.tiles.flatMap fun e => tileBytes e.2

/-! ### Leaving a core (R59, R243, R263, R306, R375) -/

/-- A skein that a save can take: it is parked behind its boundary or every batch of it waits. -/
def Skein.atRest (k : Skein) : Bool := k.park.isNone && k.pend.isEmpty && k.trap.isNone && (!k.forced || k.cur.isNone)

/-- A save of a lot can write its context: its skeins rest, its shuffle, its started copies and its stores are done, and the
matrix engine has stopped. -/
def State.saveReady (s : State) (n : Nat) : Bool :=
  let l := s.lot n
  (s.skeins.all fun e => e.2.lot != n || e.2.atRest) && (s.shuffles.all fun h => !h.lots.contains n) &&
    ((amVals s.copies).all fun x => x.lot != n || x.stage != .started) && ((s.core l.core).stores.all fun p => p.lot != n) &&
    ((s.core l.core).cmds.all fun m => m.lot != n || !(m.started && m.charged))

def insSkein : List (Nat × Skein) → Nat × Skein → List (Nat × Skein)
  | [], e => [e]
  | x :: xs, e => if x.2.lotSkein ≤ e.2.lotSkein then x :: insSkein xs e else e :: x :: xs

/-- A skein as its context keeps it: the registers that are live, and no watch (R58, R120). -/
def Skein.kept (k : Skein) (live : List Nat) : Skein :=
  { k with regs := k.regs.filter fun e => live.contains (e.1 / 2), watch := none, forced := false, fetched := [], relWait := none
           noFetch := [], asks := [], lost := [] }

/-- What a save takes of a lot, without its area. -/
def State.context (s : State) (n : Nat) : Saved :=
  let l := s.lot n
  let x := s.capture n
  { x with
      lot := { l with elapsed0 := s.elapsed l, firstIssue := none, status := .saved, marks := [] }
      skeins := ((s.skeins.filter fun e => e.2.lot == n).map fun e => (e.1 % 64, e.2.kept (s.liveRegs l.core e.2))).foldl insSkein []
      cmds := x.cmds.map fun (m : MCmd) =>
        { m with stopReq := m.stopReq || m.started, started := false, charged := false
                 rowsA := [], rowsB := [], buf := [], shortSince := none } }

/-- A context's live registers by skein slot. -/
def State.liveOf (s : State) (c : Nat) (x : Saved) (q : Nat) : List Nat :=
  match x.skeins.find? fun e => e.1 == q with
  | some e => s.liveRegs c e.2
  | none => []

/-- Contexts of some lots with their areas, in their order; none when the heap is full. -/
def State.placeContexts (s : State) : List Nat → List (Nat × Nat) → Option (List (Nat × Saved))
  | [], _ => some []
  | n :: ns, more =>
    let x := s.context n
    let size := pad128 (s.contextBytes n x (s.liveOf x.lot.core x) 0).length
    match s.heapFind x.part size 128 more with
    | none => none
    | some a => (State.placeContexts s ns ((a, size) :: more)).map ((n, { x with area := a, size := size }) :: ·)

/-- The contexts written, each header naming the next (R309); none when one cannot be written. -/
def State.writeContexts (s : State) : List (Nat × Saved) → Option State
  | [] => some s
  | e :: es =>
    if (s.writeCause e.2.part e.2.area e.2.size).isSome then none
    else
      let next := match es with | f :: _ => f.2.area | [] => 0
      let bs := s.contextBytes e.1 e.2 (s.liveOf e.2.lot.core e.2) next
      State.writeContexts (s.homeWrite e.2.part e.2.area bs none) es

/-- A skein slot that a lot leaves: its own, and with the last resident member of a regroup domain those that failed members left to it (R33,
R363). -/
def State.leaves (s : State) (n : Nat) (e : Nat × Skein) : Bool :=
  let l := s.lot n
  let on := fun (m : Lot) => m.core == l.core && m.launch == l.launch
  e.2.lot == n || (e.1 / 64 == l.core && on (s.lot e.2.lot) && !(s.lot e.2.lot).resident &&
    s.lots.all fun o => o.1 == n || !(on o.2 && o.2.resident))

/-- A lot leaves its core: its slots, windows, rows and tiles are free (R306), and its waiting for budget has been counted (R248). The copies
of a retired lot that have not started are still performed (R22). -/
def State.leaveCore (s : State) (n : Nat) (st : LotStatus) : State :=
  let l := s.lot n
  let s := s.countStall l.core
  let s := ({ s with skeins := s.skeins.filter fun e => !s.leaves n e
                     copies := s.copies.filter fun e => st == .retired || e.2.lot != n || e.2.stage != .queued } : State)
  let s := s.updCore l.core fun k =>
    { k with cmds := k.cmds.filter fun m => m.lot != n, owner := if k.owner == some n then none else k.owner
             tiles := if k.owner == some n then List.replicate 4 defaultTile else k.tiles }
  (s.updLot n fun l => { l with status := st }).departed l.core l.launch

/-- A unit of lots is saved (R306, R311): its resumption record goes in front of its launch; a save that fails fails the unit. -/
def State.saveUnit (s : State) (ns : List Nat) : State :=
  match ns with
  | [] => s
  | n :: _ =>
    let l := s.lot n
    match (s.placeContexts ns []).bind fun cs => (s.writeContexts cs).map fun t => (cs, t) with
    | none => (s.failLot n 0x83 0).updDie l.die fun d => { d with unsaved := d.unsaved || d.stopped }
    | some (cs, t) =>
      let t := cs.foldl (fun t e =>
        let t := (t.updLot e.1 fun _ => e.2.lot).leaveCore e.1 .saved
        let t : State := { t with saved := amPut t.saved e.1 { e.2 with shared := ns } }
        t.trace e.2.part 5 (t.launch e.2.lot.launch).slotAddr e.2.lot.core 0) t
      t.updLaunch l.launch fun ln => { ln with recs := (true, n, l.estimate) :: ln.recs }

/-! ### Back onto a core (R310, R311) -/

/-- A saved lot fits a core. -/
def State.fitSaved (s : State) (c n : Nat) : Option Fit :=
  match amGet s.saved n with
  | none => none
  | some x =>
    let ln := s.launch x.lot.launch
    if s.coreOpen c x.lot.launch x.lot.estimate && s.matrixFree c ln then
      s.fitOn c x.skeins.length ln.twin ln.window x.lot.rows
    else none

/-- A fibre at resume: a parked MWAIT returns (R120), and other waits go on from now. -/
def Fibre.resumed (f : Fibre) (tick : Nat) : Fibre :=
  { f with wait := match f.wait with
      | some w => if w.w == .mwait then none else some { w with since := tick }
      | none => none }

def Skein.resumed (k : Skein) (tick : Nat) : Skein :=
  let k := k.mapFibres 0xFFFFFFFFFFFFFFFF fun _ f => f.resumed tick
  ({ k with acqTick := tick, stallTo := 0, cur := none, gates := k.gates.map fun g => { g with since := tick } } : Skein).select

/-- A saved lot returns: skeins in new slots, its commands ahead of any new one, a stopped MMA at its k-step. -/
def State.restoreLot (s : State) (n c : Nat) (f : Fit) : State :=
  match amGet s.saved n with
  | none => s
  | some x =>
    let slots := (x.skeins.map Prod.fst).zip f.slots
    let new := fun (q : Nat) => ((slots.find? fun e => e.1 == q).map Prod.snd).getD q
    let l := { x.lot with status := .waiting, cleared := x.lot.rows }
    let s := s.seat n l c f (x.skeins.map fun e => e.2.resumed s.tick)
    let cmds := x.cmds.mapIdx fun i (m : MCmd) =>
      { m with entry := (s.core c).entry + i, slot := new m.slot, iq := new m.slot % 4, started := m.stopReq, stopReq := false }
    let s := s.updCore c fun k =>
      { k with cmds := k.cmds ++ cmds, entry := k.entry + cmds.length
               tiles := x.tiles.foldl (fun ts e => ts.set e.1 e.2) k.tiles }
    let s : State :=
      { s with copies := x.copies.foldl (fun m y => amPut m y.id { y with slot := new y.slot, mma := y.mma.map fun (m : MCmd) => { m with slot := new m.slot, iq := new m.slot % 4 } }) s.copies
               queries := amMap (fun _ y => if y.lot == n then { y with core := c, slot := new y.slot } else y) s.queries
               lands := amMap (fun _ y => if y.lot == n then { y with core := c, slot := new y.slot } else y) s.lands
               saved := amErase s.saved n }
    s.trace x.part 6 (s.launch l.launch).slotAddr c 0

/-- A saved lot is discarded: its lakes take their reports, its queued copies complete their numbers and hold no rows any more; and how many
of both there are (R396). -/
def State.discardSaved (s : State) (n : Nat) : State × Nat :=
  match amGet s.saved n with
  | none => (s, 0)
  | some x =>
    let owed := (s.owedLakes n).length
    let s : State := { s.dropReports n with saved := amErase s.saved n }
    (x.copies.foldl (fun s c =>
      (match c.tl with | some (pa, k) => s.tlComplete pa k (s.pubOf c.lot c.stamp) | none => s).copyLeft c) s, x.copies.length + owed)

/-- Saved lots that cannot come back fail as a unit (R395, R404, R414), with an entry and a dump of their contexts (R410). -/
def State.failSaved (s : State) (n code : Nat) : State :=
  match amGet s.saved n with
  | none => s
  | some x =>
    let ln := s.launch x.lot.launch
    let d : Dump := ⟨ln.part, n, code, s.tick, List.replicate 2048 0, ln.slotAddr, x.lot.idx, x.shared.filterMap (amGet s.saved), ln, []⟩
    let (s, dropped) := x.shared.foldl (fun (p : State × Nat) u =>
      let (s, k) := p.1.discardSaved u
      (s.updLot u fun l => { l with status := .failed code 0 }, p.2 + k)) (s, 0)
    let s := s.updLaunch x.lot.launch fun l =>
      { l with stop := true, failed := some (l.failed.getD code), recs := l.recs.filter fun e => !(e.1 && x.shared.contains e.2.1) }
    (s.recordFailure n code dropped 0).queueDump ln.part d

/-- A launch that ends failed, or that runs again, leaves its saved lots and its records (R395, R400). -/
def State.discardRecs (s : State) (id : Nat) : State :=
  ((s.saved.filter fun e => e.2.lot.launch == id).foldl (fun s e => (s.discardSaved e.1).1) s).updLaunch id fun l => { l with recs := [] }

/-- The contexts of a unit can be read (R404). -/
def State.contextsLost (s : State) (ns : List Nat) : Bool :=
  ns.any fun n => match amGet s.saved n with
    | some x => (s.readCause x.part x.area x.size).isSome
    | none => false

/-- A unit returns to given cores, one after another; none where one does not fit. -/
def State.restoreOn (s : State) : List (Nat × Nat) → Option State
  | [] => some s
  | e :: es => match s.fitSaved e.2 e.1 with
    | some f => State.restoreOn (s.restoreLot e.1 e.2 f) es
    | none => none

end Sys2Proof.Machine
end

