-- ==== Sys2Proof/Machine/Dispatching.lean ====
section
/-! DEFINITION. Dispatch: chunks (R292), arbitration by reservation, level and deficit round-robin (R288), placement of lots, vats
and pairs (R290, R291, R405), resumption and re-run records (R305, R310), and a lot's first issue (R292). -/

namespace Sys2Proof.Machine

/-! ### What a launch dispatches next -/

/-- A saved unit by a lot of it, a flushed one by its first lot with its estimate, or the lot of a chunk. -/
inductive NextUnit where
  | resume (n : Nat)
  | rerun (idx est : Nat)
  | fresh (idx : Nat)
  deriving DecidableEq, Repr, Inhabited

/-- Records in front of the launch go first (R305, R310), then lots in ascending `%lot` (R292); of a launch that has failed nothing is
dispatched any more (R395). -/
def Launch.nextUnit (l : Launch) : Option NextUnit :=
  if l.stop then none
  else match l.recs with
  | (true, n, _) :: _ => some (.resume n)
  | (false, i, e) :: _ => some (.rerun i e)
  | [] => if l.next < l.total then some (.fresh l.next) else none

/-- The undispatched lots of a launch at a die begin at `i`. -/
def Launch.chunkAt (l : Launch) (d i : Nat) : Bool :=
  l.chunks.any fun c => c.die == d && c.first + c.disp == i && decide (c.disp < c.count)

/-- The die of the chunk that holds a lot, on which the lot runs again (R290, R305); any die once dispatch to that one has stopped. -/
def State.rerunOn (s : State) (id d i : Nat) : Bool :=
  (s.launch id).chunks.all fun c => c.die == d || i < c.first || c.first + c.count ≤ i || !s.dieOpen c.die (s.launch id).part

/-! ### Placement (R30, R290, R291, R405) -/

/-- The smallest power of two that is not less than v. -/
def vatStep (v : Nat) : Nat := if v ≤ 1 then 1 else 2 ^ (Nat.log2 (v - 1) + 1)

/-- The aligned runs of v cores of a die (R30). -/
def vatRuns (d v : Nat) : List (List Nat) :=
  ((List.range (64 / vatStep v)).map fun i => vatStep v * i).filterMap fun a =>
    if a + v ≤ 64 then some ((List.range v).map fun j => 64 * d + a + j) else none

/-- The runs that a vat may take on a die: those that a resumption names (the one at its old c0), and where it has reserved one, only
that (R291, R311). -/
def State.vatChoice (s : State) (d id : Nat) (runs : List (List Nat)) : List (List Nat) :=
  match s.reserves.find? fun r => r.die == d && r.launch == id with
  | some r => runs.filter fun e => e.all r.cores.contains
  | none => runs

/-- The first aligned run whose cores are free and fit the launch's lots. -/
def State.vatPlace (s : State) (d id est : Nat) : Option (List Nat) :=
  (s.vatChoice d id (vatRuns d (s.launch id).vatSize)).find? fun r => r.all fun c => s.coreFree c && (s.fitLot c id est).isSome

/-- Local blocks for some lots, in ascending order. -/
def Launch.takeBlocks (l : Launch) : List Nat → Option Launch
  | [] => some l
  | i :: is => (l.takeBlock i).bind fun l => Launch.takeBlocks l is

/-- Lots start on given cores. -/
def State.startAll (s : State) (id est : Nat) (role : Role) : List (Nat × Nat) → Option State
  | [] => some s
  | (i, c) :: es => match s.fitLot c id est with
    | some f =>
      let partner := match role with | .leading => some (lotKey id 1 i) | .trailing => some (lotKey id 0 i) | .single => none
      State.startAll (s.startOn id i role partner c est f) id est role es
    | none => none

/-- The lots of a unit that starts at `i`: one lot, or the lots of its vat. -/
def Launch.unitLots (l : Launch) (i : Nat) : List Nat :=
  if l.vatSize = 0 then [i] else (List.range l.vatSize).map (· + i)

/-- A lot of a launch has retired: it does not run again with its vat (R305). -/
def State.over (s : State) (id i : Nat) : Bool :=
  match amGet s.lots (lotKey id 0 i) with | some l => l.status == .retired | none => false

/-- Two fitting cores of different quads for a pair (R405). -/
def State.pairCores (s : State) (d id est : Nat) : Option (Nat × Nat) :=
  let fits := fun (c : Nat) => (s.fitLot c id est).isSome
  match s.bestCore d fits with
  | some a => (s.bestCore d fun c => c / 4 != a / 4 && fits c).map fun b => (a, b)
  | none => none

/-- Checkpoint 0 of a redundant pair is its start (R407). -/
def State.checkpoint0 (s : State) (n : Nat) : State :=
  { s with ckpts := amPut s.ckpts n { s.context n with lot := s.lot n, size := 0 } }

/-- The cores for a unit's lots on a die, and where the trailing lot of a pair goes. -/
def State.unitCores (s : State) (d id i est : Nat) : Option (List (Nat × Nat) × Option Nat) :=
  let ln := s.launch id
  if ln.vatSize != 0 then (s.vatPlace d id est).map fun cs => (((ln.unitLots i).zip cs).filter fun e => !s.over id e.1, none)
  else if ln.redundant then (s.pairCores d id est).map fun p => ([(i, p.1)], some p.2)
  else (s.bestCore d fun c => (s.fitLot c id est).isSome).map fun c => ([(i, c)], none)

/-- A unit starts on a die (R84, R290, R405); none when it does not fit there. -/
def State.startUnit (s : State) (d id i est : Nat) : Option State :=
  let ln := s.launch id
  match s.unitCores d id i est, ln.takeBlocks ((ln.unitLots i).filter fun j => !s.over id j) with
  | some (es, trail), some ln =>
    let s := s.setLaunch id ln
    match trail with
    | none => s.startAll id est .single es
    | some c =>
      match (s.startAll id est .leading es).bind fun t => t.startAll id est .trailing [(i, c)] with
      | some t => some ((t.checkpoint0 (lotKey id 0 i)).checkpoint0 (lotKey id 1 i))
      | none => none
  | _, _ => none

/-- The run of a saved vat on a die: the one at its old c0 (R311). -/
def State.oldRun (s : State) (d n : Nat) : List Nat :=
  match amGet s.saved n with
  | some x => (List.range (s.launch x.lot.launch).vatSize).map fun j => 64 * d + x.lot.core % 64 - x.lot.vrank + j
  | none => []

/-- Where a saved unit resumes on a die (R310, R311, R405): a vat on the free run at its old c0, a pair in two quads, any other unit on
one core. -/
def State.resumeCores (s : State) (d n : Nat) : Option (List (Nat × Nat)) :=
  match amGet s.saved n with
  | none => none
  | some x =>
    let id := x.lot.launch
    let lots := x.shared.filterMap fun u => (amGet s.saved u).map fun y => (u, y.lot)
    let fits := fun (es : List (Nat × Nat)) => (s.restoreOn es).isSome
    if (s.launch id).vatSize != 0 then
      if (s.vatChoice d id [s.oldRun d n]).any fun r => r.all s.coreFree then some (lots.map fun e => (e.1, 64 * d + e.2.core % 64)) else none
    else match lots, x.lot.partner with
      | [a, b], some _ => (s.bestCore d fun c => fits [(a.1, c)]).bind fun c =>
          (s.bestCore d fun e => e / 4 != c / 4 && fits [(b.1, e)]).map fun e => [(a.1, c), (b.1, e)]
      | _, _ => (s.bestCore d fun c => fits (lots.map fun e => (e.1, c))).map fun c => lots.map fun e => (e.1, c)

/-- A saved unit resumes on a die; one whose context is lost fails (R404). -/
def State.resumeUnit (s : State) (d n : Nat) : Option State :=
  match amGet s.saved n with
  | none => none
  | some x =>
    if s.contextsLost x.shared then (if s.dieOpen d x.part then some (s.failSaved n 0x84) else none)
    else ((s.resumeCores d n).bind s.restoreOn).map fun t =>
      t.updLaunch x.lot.launch fun l => { l with recs := l.recs.filter fun e => !(e.1 && x.shared.contains e.2.1) }

/-- The next unit of a launch placed on a die. -/
def State.placeNext (s : State) (d id : Nat) : Option State :=
  let ln := s.launch id
  match ln.nextUnit with
  | some (.resume n) => s.resumeUnit d n
  | some (.rerun i e) => if s.rerunOn id d i then (s.startUnit d id i e).map fun t => t.updLaunch id fun l => { l with recs := l.recs.drop 1 } else none
  | some (.fresh i) => if ln.chunkAt d i then s.startUnit d id i (s.estimateOf ln) else none
  | none => none

/-! ### Reservations (R291) -/

/-- The head vat reserves the run with the earliest maturity, the lowest among equals; one that resumes has one run only (R311). -/
def State.reserveRun (s : State) (d id : Nat) : State :=
  let ln := s.launch id
  let open' := fun (c : Nat) => s.dieOpen d ln.part && !(ln.bnd && ln.bound == 0 && decide (64 ≤ c % 64 + s.resv ln.part)) &&
    s.reserves.all fun r => !r.cores.contains c
  let runs := match ln.nextUnit with | some (.resume n) => [s.oldRun d n] | _ => vatRuns d ln.vatSize
  let best := (runs.filter fun r => r.all open').foldl (fun (b : Option (List Nat)) r =>
    match b with
    | some e => if s.maturityOf r < s.maturityOf e then some r else b
    | none => some r) none
  match best with
  | some r => { s with reserves := s.reserves ++ [⟨d, id, r, 0, false⟩] }
  | none => s

/-- The vat that a launch places next finds a free run on a die; a saved one the run at its old c0 (R291, R311). -/
def State.runFree (s : State) (d id : Nat) : Bool :=
  match (s.launch id).nextUnit with
  | some (.resume n) => (s.oldRun d n).all fun c => s.coreFree c && s.coreOpen c id 0
  | some (.rerun _ e) => (s.vatPlace d id e).isSome
  | some (.fresh _) => (s.vatPlace d id (s.estimateOf (s.launch id))).isSome
  | none => true

/-- A reservation whose launch dispatches no more, or whose cores its launch has taken, ends. -/
def State.dropReserves (s : State) : State :=
  { s with reserves := s.reserves.filterMap fun r =>
      let cs := if r.mordant then r.cores.filter fun c => s.lots.all fun e => !(e.2.core == c && e.2.launch == r.launch && e.2.resident)
        else r.cores
      if cs.isEmpty || !(s.launch r.launch).dispatchable || (amGet s.launches r.launch).isNone then none else some { r with cores := cs } }

/-! ### Arbitration (R288) -/

/-- The effective level of a queue's front launch. -/
def State.levelOf (s : State) (q id : Nat) : Nat :=
  let ln := s.launch id
  match ln.level with
  | some l => l
  | none => min (max (ln.fld 700 4) ln.prio) (ln.prio + (s.queueX q).age)

/-- The queues of a partition with the launch that each dispatches from, ascending. -/
def State.cands (s : State) (part : Nat) : List (Nat × Nat) :=
  s.queues.filterMap fun e => match s.front e.1 with
    | some id => if (s.launch id).part == part then some (e.1, id) else none
    | none => none

def State.topLevel (s : State) (cs : List (Nat × Nat)) : Nat := cs.foldl (fun m e => max m (s.levelOf e.1 e.2)) 0

def State.setDeficit (s : State) (q : Nat) (v : Int) : State :=
  (s.setQueueX q { s.queueX q with deficit := v }).setQDef q (v / 1024)

/-- The turn of a level goes to a queue, which adds its quantum. -/
def State.giveTurn (s : State) (part q level : Nat) : State :=
  let s := { s with queues := amMap (fun n (x : QueueX) =>
    if s.qPart n != part then x
    else if n == q then { x with turn := some level }
    else if x.turn == some level then { x with turn := none } else x) s.queues }
  s.setDeficit q ((s.queueX q).deficit + 2 ^ s.qQuant q)

/-- Whose lot a die draws next: a matured reservation, else by level and by the turn of that level; and the state with the ages that have come
due and the turn passed on. -/
def State.draw (s : State) (d : Nat) : State × Option (Nat × Nat) :=
  let part := s.partOfDie d
  let s := s.queues.foldl (fun s e => if s.qPart e.1 == part then s.aged e.1 else s) s
  let cs := s.cands part
  let ok := cs.filter fun e => (s.placeNext d e.2).isSome
  match ok.find? fun e => s.reserves.any fun r => r.die == d && !r.mordant && r.launch == e.2 && decide (s.maturity r ≤ s.tick) with
  | some e => (s, some e)
  | none =>
    let top := s.topLevel ok
    let lv := ok.filter fun e => s.levelOf e.1 e.2 == top
    match lv.find? fun e => (s.queueX e.1).turn == some top && decide (0 < (s.queueX e.1).deficit) with
    | some e => (s, some e)
    | none =>
      let holder := (s.queues.find? fun e => s.qPart e.1 == part && e.2.turn == some top).map Prod.fst
      let after := lv.find? fun e => match holder with | some h => decide (h < e.1) | none => true
      match (match after with | some e => some e | none => lv.head?) with
      | none => (s, none)
      | some e =>
        let t := s.giveTurn part e.1 top
        (t, if 0 < (t.queueX e.1).deficit then some e else none)

/-- What a dispatch leaves in the queue and the launch: its level, its age, and for new lots the chunk, the counter and the
estimates debited (R288, R289, R292). -/
def State.drawn (s t : State) (q id : Nat) : State :=
  let ln := s.launch id
  let old := s.front q
  let t := t.updLaunch id fun l => { l with level := some (s.levelOf q id) }
  let t := match ln.nextUnit with
    | some (.fresh i) =>
      let n := (ln.unitLots i).length
      let t := t.updLaunch id fun l =>
        { l with next := l.next + n
                 chunks := l.chunks.map fun (c : Chunk) =>
                   if c.first + c.disp == i && decide (c.disp < c.count) then { c with disp := c.disp + n } else c }
      t.setDeficit q ((t.queueX q).deficit - ((s.estimateOf ln * n : Nat) : Int))
    | _ => t
  let x := t.queueX q
  let t := t.setQueueX q { x with readyAt := x.readyAt.map fun _ => t.tick, age := 0 }
  let t := { t with reserves := t.reserves.filter fun r => r.launch != id || ln.vatSize == 0 }
  (t.frontSince q old).dropReserves

/-- The context of a saved unit is there to resume from. -/
def State.resumable (s : State) (n : Nat) : Bool := match amGet s.saved n with | some x => !s.contextsLost x.shared | none => false

/-- LOT_DISPATCH (R288 to R292, R298, R405): the lots of the unit drawn are placed; a head vat that finds no free run reserves
one. -/
def execLotDispatch (d : Nat) (s : State) : Host.Outcome State Fault Refusal :=
  let part := s.partOfDie d
  if 8 ≤ d || !s.dieOpen d part then .next s
  else
    let cs := s.cands part
    let wants := cs.find? fun e => s.levelOf e.1 e.2 == s.topLevel cs && (s.launch e.2).vatSize != 0 && !s.runFree d e.2 &&
      (s.reserves.all fun r => r.launch != e.2) && match (s.launch e.2).nextUnit with
        | some (.fresh i) => (s.launch e.2).chunkAt d i
        | some (.resume n) => s.resumable n
        | some (.rerun i _) => s.rerunOn e.2 d i
        | none => false
    let s := match wants with | some e => s.reserveRun d e.2 | none => s
    match s.draw d with
    | (s, some (q, id)) =>
      match (s.launch id).nextUnit, s.placeNext d id with
      | some (.resume _), _ => .next s
      | _, some t => .next (s.drawn t q id)
      | _, none => .next s
    | (s, none) => .next s

/-- RESUME_LOT (R310, R311, R404): the resumption record drawn by a die of its partition takes its place there. -/
def execResumeLot (n : Nat) (s : State) : Host.Outcome State Fault Refusal :=
  let pick := (List.range 8).findSome? fun d =>
    if !s.dieOpen d (s.partOfDie d) then none
    else match s.draw d with
      | (t, some (q, id)) => if (t.launch id).nextUnit == some (.resume n) then (t.placeNext d id).map fun u => t.drawn u q id else none
      | _ => none
  .next (pick.getD s)

/-! ### Chunks (R292) -/

/-- The first lot that no chunk holds. -/
def Launch.uncovered (l : Launch) : Nat :=
  l.chunks.foldl (fun n c => if c.first ≤ n && n < c.first + c.count then c.first + c.count else n) l.next

/-- Where the next chunk above a lot begins, or N. -/
def Launch.ceiling (l : Launch) (n : Nat) : Nat := l.chunks.foldl (fun m c => if n < c.first then min m c.first else m) l.total

def insChunk : List Chunk → Chunk → List Chunk
  | [], c => [c]
  | x :: xs, c => if x.first ≤ c.first then x :: insChunk xs c else c :: x :: xs

/-- The size of a chunk: max(16, v) rounded up to a multiple of v. -/
def chunkSize (v : Nat) : Nat := if v = 0 then 16 else (max 16 v + v - 1) / v * v

/-- CHUNK_REQUEST: a die with a core that fits, a free local block among what fits (R290), and no undispatched lot of the launch takes
the next chunk. -/
def execChunkRequest (d id : Nat) (s : State) : Host.Outcome State Fault Refusal :=
  match amGet s.launches id with
  | none => .next s
  | some ln =>
    let i := ln.uncovered
    let fits := (List.range 64).any fun j => (s.fitLot (64 * d + j) id (s.estimateOf ln)).isSome
    let has := ln.chunks.any fun c => c.die == d && decide (c.disp < c.count)
    let block := (ln.takeBlocks (ln.unitLots i)).isSome
    if 8 ≤ d || !s.dieOpen d ln.part || ln.stop || has || ln.total ≤ i || s.front ln.q != some id || !fits || !block then .next s
    else
      let n := min (chunkSize ln.vatSize) (ln.ceiling i - i)
      .next (s.setLaunch id { ln with chunks := insChunk ln.chunks ⟨d, i, n, 0, 0, false⟩ })

/-! ### The first issue (R89, R292) -/

/-- LOT_FIRST_ISSUE: 192 clocks after the dispatch, or at the end of the hand-over of its rows. -/
def execLotFirstIssue (n : Nat) (s : State) : Host.Outcome State Fault Refusal :=
  match amGet s.lots n with
  | none => .next s
  | some l =>
    let ready := l.rows == 0 || decide (l.row0 + l.rows ≤ (s.core l.core).carve)
    if l.status == .waiting && ready && decide (max l.dispatched (s.launch l.launch).acq + 192 ≤ s.tick) then
      .next (s.setLot n { l with status := .running, firstIssue := some s.tick, started := true })
    else .next s

end Sys2Proof.Machine
end

