-- ==== Sys2Proof/Machine/Launches.lean ====
section
/-! DEFINITION. The end of lots and launches: retirement (R22, R289), the counter tree and completion (R131, R293, R296, R366),
the end of a failed launch (R395), and the snapshot and rollback of a launch (R399, R400). -/

namespace Sys2Proof.Machine

/-! ### Retirement (R22, R289, R301) -/

/-- Every command that a lot has issued has been accepted by its unit (R217): its copies have the numbers of their timelines, its queries run,
and its landings have reached their units. -/
def State.accepted (s : State) (n : Nat) : Bool :=
  ((amVals s.copies).all fun x => x.lot != n || x.tlVa.isNone || x.tl.isSome) &&
    ((amVals s.queries).all fun x => x.lot != n || x.running || x.fin) && (amVals s.lands).all fun m => m.lot != n

/-- Every engine command of a lot has been accepted, and its copies have handed over their MMAs (R22). -/
def State.commandsTaken (s : State) (n : Nat) : Bool :=
  s.accepted n && (amVals s.copies).all fun x => x.lot != n || x.mma.isNone

/-- A lot has no live fibre, and its unit has nothing left that must be accepted; a lot with the matrix flag has no matrix
command (R22, R236). A flip that its last instruction has made due comes first (R420). -/
def State.lotDone (s : State) (n : Nat) : Bool :=
  let l := s.lot n
  (match l.status with | .running | .saving | .flushing => true | _ => false) && (s.lotFibres n).isEmpty &&
    (s.skeins.all fun e => e.2.lot != n || (e.2.pend.isEmpty && e.2.park.isNone && !s.flipDue e.2)) && l.cmp.isEmpty &&
    ((s.core l.core).stores.all fun p => p.lot != n) && ((s.core l.core).cmds.all fun m => m.lot != n) && s.commandsTaken n

/-- The lots that retire together: a regroup domain, a redundant pair, or the lot alone (R22, R405). -/
def State.retireUnit (s : State) (n : Nat) : List Nat :=
  if (s.launch (s.lot n).launch).vatSize = 0 then s.unitOf n else [n]

/-- A lot retires: it leaves its core, and the counter of its core counts it (R330). -/
def State.retireOne (s : State) (n : Nat) : State :=
  let l := s.lot n
  ((s.leaveCore n .retired).count (coreCounter l.core 7) 1).updLaunch l.launch fun ln => { ln with final := max ln.final l.m }

/-- What a retired lot leaves in its launch and queue: the means of R289 and R301, its chunk's count (R293), its local block
(R84), and DEF charged back with estimate - actual. -/
def State.retireCount (s : State) (n : Nat) : State :=
  let l := s.lot n
  let e := s.elapsed l
  let s := s.updLaunch l.launch fun ln =>
    { ln with retired := ln.retired + 1, sumIns := ln.sumIns + l.retiredCnt, sumCyc := ln.sumCyc + e
              noReplay := ln.noReplay || l.noReplay, blocks := amErase ln.blocks l.idx
              chunks := ln.chunks.map fun (c : Chunk) =>
                if c.first ≤ l.idx && decide (l.idx < c.first + c.count) then { c with ret := c.ret + 1 } else c }
  let q := (s.launch l.launch).q
  s.setDeficit q ((s.queueX q).deficit + (l.estimate : Int) - (e : Int))

/-- LOT_RETIRE (R22, R289): a lot whose unit has ended retires, and with it its domain or pair; a pair is counted once. -/
def execLotRetire (n : Nat) (s : State) : Host.Outcome State Fault Refusal :=
  match amGet s.lots n with
  | none => .next s
  | some l =>
    let unit := s.retireUnit n
    if !l.resident || !unit.all s.lotDone then .next s
    else
      let t := unit.foldl (fun t u => if (t.lot u).role == .trailing then t else t.retireCount u) s
      let t := unit.foldl State.retireOne t
      .next ({ t with ckpts := t.ckpts.filter fun e => !unit.contains e.1 } : State).dropReserves

/-! ### Completion (R131, R293, R296) -/

/-- CHUNK_REPORT: a die reports a chunk whose lots have all retired. -/
def execChunkReport (id first : Nat) (s : State) : Host.Outcome State Fault Refusal :=
  .next (s.updLaunch id fun ln =>
    { ln with chunks := ln.chunks.map fun (c : Chunk) => if c.first == first && c.ret == c.count then { c with reported := true } else c })

/-- The lots that the reported chunks cover. -/
def Launch.reportedLots (l : Launch) : Nat := l.chunks.foldl (fun n c => if c.reported then n + c.count else n) 0

/-- A lot belongs to a launch. -/
def State.lotIn (s : State) (id n : Nat) : Bool := (s.lot n).launch == id

/-- Every write of a launch's lots and engine operations has been performed (R131). -/
def State.writesDone (s : State) (id : Nat) : Bool :=
  ((amVals s.copies).all fun x => !s.lotIn id x.lot) && ((amVals s.queries).all fun x => x.fin || !s.lotIn id x.lot) &&
    ((amVals s.lands).all fun m => !s.lotIn id m.lot) &&
    (s.cores.all fun e => e.2.stores.all fun p => !s.lotIn id p.lot) && s.spawns.all fun e => match s.skein e.core e.slot with
      | some k => !s.lotIn id k.lot
      | none => true

/-- A launch has no resident lot and nothing saved or to run again; of a failed launch that is not dispatched any more (R395). -/
def State.drained (s : State) (id : Nat) : Bool :=
  (s.lots.all fun e => !(e.2.launch == id && e.2.resident)) && ((s.launch id).stop || (s.launch id).recs.isEmpty)

/-- L1 lines of some physical ranges leave every core of a partition. -/
def State.dropLines (s : State) (part : Nat) (rs : List (Nat × Nat)) : State :=
  { s with cores := amMap (fun c (k : Core) =>
      if (s.partDies part).testBit (c / 64)
      then { k with l1 := k.l1.filter fun e => !rs.any fun r => r.1 ≤ 128 * e.1 && decide (128 * e.1 < r.2) } else k) s.cores }

/-- The listed regions: hub-homed lines are written back, L1 lines dropped (R293, R294). -/
def State.cleanRegions (s : State) (ln : Launch) : State :=
  (s.regions ln.part (ln.fld 192 64)).foldl (fun s r =>
    (s.cleanRange hubUnit ln.part r.1 r.2 false).dropLines ln.part (s.rangePas hubUnit ln.part r.1 r.2)) s

/-- One more than the largest final stamp of its lots (R296); 0 for a launch without the checked flag. -/
def State.finalStamp (s : State) (id : Nat) : Nat :=
  let ln := s.launch id
  if ln.isChecked then s.lots.foldl (fun m e => if e.2.launch == id then max m e.2.m else m) ln.final + 1 else 0

/-- The join counter of a record goes down by 1, as an atomic release at `.pkg`; at 0 it stays, and the failure is recorded
(R293, R366). What a record that waits on the counter takes of it is the stamp of its last decrement (R121, R296). -/
def State.joinDown (s : State) (ln : Launch) (stamp : Nat) : State :=
  let va := ln.fld 128 64
  if va = 0 then s
  else match s.xlate hubUnit ln.part (BitVec.ofNat 64 va) true false with
    | .bad .. => s
    | .ok x =>
      if (s.writeCause ln.part x.pa 4).isSome || (s.readCause ln.part x.pa 4).isSome then s
      else match memNat s.mem x.pa 4 with
        | 0 => s.failEntry ln.part ln.slotAddr 0xFFFFFFFF 0x81 0 0 0 ln.replays 0 0
        | v + 1 =>
          let s := s.homeWrite ln.part x.pa (leBytes v 4) (if ln.isChecked then some ⟨stamp, 0, true⟩ else none)
          { s with joins := amPut s.joins x.pa stamp }

/-- The decrement of a join counter waits for its page (R370). -/
def State.joinWaits (s : State) (ln : Launch) : Bool :=
  let va : DWord := BitVec.ofNat 64 (ln.fld 128 64)
  va != 0 && ln.ending != some true &&
    (s.heldAt (.hub ln.part) va || match s.xlate hubUnit ln.part va true false with | .bad .. => true | .ok _ => false)

/-- A launch leaves the launch table; its queue may turn to the next one. -/
def State.eraseLaunch (s : State) (id : Nat) : State :=
  let q := (s.launch id).q
  let old := s.front q
  let s := { s with launches := amErase s.launches id, lots := s.lots.filter fun e => e.2.launch != id
                    reserves := s.reserves.filter fun r => r.launch != id }
  let x := s.queueX q
  (s.setQueueX q { x with flying := x.flying.filter (· != id) }).frontSince q old

/-- The operation on TLINE completes. -/
def State.launchTl (s : State) (ln : Launch) (stamp : Nat) : State :=
  match ln.tl with
  | some (pa, k) => s.tlComplete pa k stamp
  | none => s

/-- The region list of a launch that completes lies on a page for which the completion waits (R294, R370). -/
def State.listHeld (s : State) (ln : Launch) : Bool :=
  ln.ending.isNone && ln.list != some true && match s.regionList ln.part (ln.fld 192 64) with | .wait .. => true | _ => false

/-- The steps of R293 in their order, once the region list can be read, and the fourth once the join counter's page can be reached; a launch
that ends failed does the first three of them, its entries go out, and what it has saved is discarded (R395). -/
def State.endLaunch (s : State) (id : Nat) (ok : Bool) : State :=
  let ln := s.launch id
  let stamp := s.finalStamp id
  if s.listHeld ln then s.updLaunch id fun l => { l with list := some false }
  else
    let s := if ok then s else s.discardRecs id
    let s := if ln.ending.isSome then s else (s.cleanRegions ln).launchTl ln stamp
    if ok && s.joinWaits ln then s.updLaunch id fun l => { l with ending := some false, list := none }
    else
      let s := if ok then s.joinDown ln stamp else s
      let s := (s.reevaluateAll ln.part).eraseLaunch id
      s.trace ln.part 2 ln.slotAddr 0 0

/-- LAUNCH_COMPLETE (R293, R395): the reported lots number N, or a failed launch that is not rolled back has drained. -/
def execLaunchComplete (id : Nat) (s : State) : Host.Outcome State Fault Refusal :=
  match amGet s.launches id with
  | none => .next s
  | some ln =>
    if !s.writesDone id || !s.drained id then .next s
    else match ln.failed with
      | none => if ln.reportedLots == ln.total then .next (s.endLaunch id true) else .next s
      | some _ => if ln.rollbackable then .next s else .next (s.endLaunch id false)

/-! ### Snapshot and rollback (R399, R400) -/

/-- SNAPSHOT_PAGE_COPY (R399): a page that a launch has marked is copied into the context heap, and its mark is cleared. -/
def execSnapshotPageCopy (id page : Nat) (s : State) : Host.Outcome State Fault Refusal :=
  .next (if (s.launch id).marks.contains page then s.snapPage page else s)

/-- Failures that a rollback does not undo (R401, R414, R416). -/
def noRollback (code : Nat) : Bool := code == 0xA3 || code == 0xA6 || code == 0xC4

/-- One of the instructions that prevent replay was issued, or NOREPLAY is set (R400). -/
def Launch.barred (s : State) (id : Nat) (ln : Launch) : Bool :=
  ln.flags.getLsbD 5 || ln.noReplay || s.lots.any fun e => e.2.launch == id && e.2.noReplay

/-- The copy of a saved page can be read in the context heap, and the page written back. -/
def State.snapReadable (s : State) (ln : Launch) : Bool :=
  ln.snap.all fun e => (s.readCause ln.part e.2.1 65536).isNone && (s.writeCause ln.part (65536 * e.1) 65536).isNone

/-- The lines of a page leave their L2 slices, raising the floors (R123), or their hub slices. -/
def State.dropPage (s : State) (page : Nat) : State :=
  let on := fun (m : List Nat) (k : Nat) => m.filter fun i => i / k == page
  let s := (on (s.sectors.map Prod.fst) 2048).foldl State.dropStamp s
  (on (s.hubLines.map Prod.fst) 512).foldl State.hubDrop ((on (s.l2.map Prod.fst) 512).foldl State.l2Drop s)

/-- A page as its copy in the context heap holds it, with the sectors that were poisoned. -/
def State.restorePage (s : State) (part page area : Nat) (poison : List Nat) : State :=
  let s := s.homeWrite part (65536 * page) (s.homeRead area 65536) none
  { s with poison := poison.foldl insNat s.poison }

/-- The saved pages return, and their lines leave the L1s of the partition and L2 (R400). -/
def State.restoreSnap (s : State) (ln : Launch) : State :=
  ln.snap.foldl (fun s e => s.dropPage e.1)
    ((ln.snap.foldl (fun s e => s.restorePage ln.part e.1 e.2.1 e.2.2) s).dropLines ln.part
      (ln.snap.map fun e => (65536 * e.1, 65536 * e.1 + 65536)))

/-- The record runs again from lot 0 with the same TLINE number, in front of its queue; what it has saved is discarded. -/
def State.replayLaunch (s : State) (id : Nat) (ln : Launch) : State :=
  let s := s.discardRecs id
  let new := s.launchSeq + 1
  let old := s.front ln.q
  let ln' : Launch :=
    { (default : Launch) with
        crec := ln.crec, kdesc := ln.kdesc, slotAddr := ln.slotAddr, q := ln.q, n := ln.n, part := ln.part, tl := ln.tl
        flags := ln.flags, bnd := ln.bnd, snapOk := true, started := s.tick, acq := s.tick
        base := if ln.isChecked then s.baseStamp ln.part ln.crec else 0
        replays := ln.replays + 1, log := ln.log, privPages := ln.privPages }
  let s := { s with launches := amPut (amErase s.launches id) new ln', launchSeq := new
                    lots := s.lots.filter fun e => e.2.launch != id
                    reserves := s.reserves.filter fun r => r.launch != id }
  let s := s.markRegions new
  let x := s.queueX ln.q
  ((s.setQueueX ln.q { x with flying := new :: x.flying.filter (· != id) }).frontSince ln.q old).trace ln.part 1 ln.slotAddr 0 0

/-- ROLLBACK (R400): a failed launch with the rollback flag, drained, is rolled back, or it is settled that it ends failed. -/
def execRollback (id : Nat) (s : State) : Host.Outcome State Fault Refusal :=
  match amGet s.launches id with
  | none => .next s
  | some ln =>
    match ln.failed with
    | none => .next s
    | some code =>
      if !ln.rollbackable || !s.writesDone id || !s.drained id then .next s
      else
        let bar := Launch.barred s id ln
        if noRollback code || bar || !ln.snapOk || 2 ≤ ln.replays || !s.snapReadable ln then
          let cause := fun (c : Nat) => if noRollback code then c else if bar then 0x89
            else if !ln.snapOk || !s.snapReadable ln then 0x88 else c
          .next (s.giveUp id cause)
        else .next (((s.restoreSnap ln).failsOut ln id' 1 (ln.replays + 1)).replayLaunch id ln)
where id' (c : Nat) : Nat := c

end Sys2Proof.Machine
end

