-- ==== Sys2Proof/Machine/Preempt.lean ====
section
/-! DEFINITION. Mordant (R299 to R304, R312): the record served, the cost of draining, flushing and saving, the choice; and the
flush and the save that follow (R305, R306, R243). -/

namespace Sys2Proof.Machine

/-! ### What an action costs (R301, R302, R304) -/

/-- The expected total X of a lot (R301). -/
def State.expected (s : State) (l : Lot) : Nat :=
  let ln := s.launch l.launch
  if ln.hint != 0 then ln.hint else if ln.retired != 0 then ln.sumIns / ln.retired else if ln.estLot != 0 then ln.estLot else s.defEst ln.part

def ceilDiv (a b : Nat) : Nat := (a + b - 1) / b

/-- An action for a unit: the tick at which it frees the core, and the core-cycles that it wastes. -/
structure Plan where
  act : Action
  free : Nat
  waste : Nat
  deriving DecidableEq, Repr, Inhabited

def State.drainTick (s : State) (n : Nat) : Nat :=
  let l := s.lot n
  let x := s.expected l
  let rem := max (x - l.retiredCnt) (x / 32)
  if l.retiredCnt = 0 then s.tick + l.estimate else s.tick + ceilDiv (s.elapsed l * rem) l.retiredCnt

/-- No skein of a lot is in a handler. -/
def State.outOfTraps (s : State) (n : Nat) : Bool := s.skeins.all fun e => e.2.lot != n || e.2.trap.isNone

/-- A flush is legal for a lot (R304). -/
def State.flushLegal (s : State) (n : Nat) : Bool :=
  let l := s.lot n
  (s.launch l.launch).idem && s.outOfTraps n && !l.idemx && !l.idemr && !l.side

def State.saveTicks (s : State) (n : Nat) : Nat := ceilDiv (s.contextPrice n) 40 + 3200

def sumOf (ns : List Nat) (f : Nat → Nat) : Nat := ns.foldl (fun m n => m + f n) 0
def maxOf (ns : List Nat) (f : Nat → Nat) : Nat := ns.foldl (fun m n => max m (f n)) 0

/-- The legal actions for a unit, in the order of preference among equals (R302, R303). -/
def State.plans (s : State) (ns : List Nat) (again : Bool) : List Plan :=
  (if again then [] else [⟨.drain, maxOf ns s.drainTick, 0⟩]) ++
    (if !ns.all s.flushLegal then [] else [⟨.flush, s.tick + 256, sumOf ns fun n => s.elapsed (s.lot n)⟩]) ++
    if !ns.all s.outOfTraps then [] else [⟨.save, s.tick + maxOf ns s.saveTicks, 2 * sumOf ns s.saveTicks⟩]

/-- The first plan that no other one beats. -/
def bestPlan (better : Plan → Plan → Bool) : List Plan → Option Plan
  | [] => none
  | p :: ps => match bestPlan better ps with
    | some q => if better q p then some q else some p
    | none => some p

/-- The choice of R303 against a deadline. -/
def choosePlan (ps : List Plan) (due : Nat) : Option Plan :=
  match bestPlan (fun a b => decide (a.waste < b.waste)) (ps.filter fun p => decide (p.free ≤ due)) with
  | some p => some p
  | none => bestPlan (fun a b => decide (a.free < b.free) || (a.free == b.free && decide (a.waste < b.waste))) ps

/-- The plan for a resident lot's unit: an action under way stands (R312). -/
def State.planOf (s : State) (n due : Nat) (again : Bool) : Option Plan :=
  let l := s.lot n
  match l.act, l.freeAt with
  | some .flush, some t => some ⟨.flush, t, 0⟩
  | some .save, some t => some ⟨.save, t, 0⟩
  | _, _ => choosePlan (s.plans (s.unitOf n) again) due

/-! ### The decision (R299, R300) -/

/-- The resident lots of a core. -/
def State.coreLots (s : State) (c : Nat) : List Nat :=
  (s.lots.filter fun e => e.2.core == c && e.2.resident).map Prod.fst

/-- The machine as it will be once some lots have left a core. -/
def State.without (s : State) (ns : List Nat) : State :=
  { s with skeins := s.skeins.filter fun e => !ns.contains e.2.lot, lots := s.lots.filter fun e => !ns.contains e.1 }

/-- A lot is a victim candidate (R299). -/
def State.victim (s : State) (prio n : Nat) : Bool :=
  let ln := s.launch (s.lot n).launch
  decide (ln.level.getD (s.levelOf ln.q (s.lot n).launch) < prio)

/-- The resident lots of a core that prevent a lot of a launch from fitting (R290, R300): every one where the core must be free, or lacks
slots or windows; else those with rows where it lacks rows, and the one with the matrix flag (log entry 64). -/
def State.preventing (s : State) (c id : Nat) : List Nat :=
  let ln := s.launch id
  let ns := s.coreLots c
  let short := (s.fitOn c ln.skeinCount ln.twin ln.window 0).isNone
  let rows := (s.fitOn c ln.skeinCount ln.twin ln.window ln.rowsEach).isNone
  if ln.vatSize != 0 || short then ns
  else ns.filter fun n => (rows && (s.lot n).rows != 0) || (ln.matrix && (s.launch (s.lot n).launch).matrix)

/-- The free tick of a candidate core; none for a core that is not considered, such as one reserved for another vat (R290, R300). A core on which an
action for a record before it is under way counts as freeing when that ends (R312). -/
def State.freeTick (s : State) (c id est due : Nat) : Option Nat :=
  let ns := s.preventing c id
  let t := { s.without ns with reserves := [] }
  if !(s.coreLots c).all (s.victim (s.launch id).prio) || (t.fitLot c id est).isNone ||
    s.reserves.any (fun r => !r.mordant && r.launch != id && r.cores.contains c) then none
  else ns.foldl (fun t n => match t, s.planOf n due false with
    | some t, some p => some (max t p.free)
    | _, _ => none) (some s.tick)

def insTick : List (Nat × Nat) → Nat × Nat → List (Nat × Nat)
  | [], e => [e]
  | x :: xs, e => if x.1 ≤ e.1 then x :: insTick xs e else e :: x :: xs

/-- The cores for a record's first chunk, or the run for its vat, with their free ticks (R300). -/
def State.freeCores (s : State) (d id est due : Nat) : List (Nat × Nat) :=
  let ln := s.launch id
  let v := ln.vatSize
  if v != 0 then
    let runs := (vatRuns d v).filterMap fun r =>
      r.foldl (fun (t : Option (List (Nat × Nat))) c => match t, s.freeTick c id est due with
        | some t, some f => some (t ++ [(f, c)])
        | _, _ => none) (some [])
    let last := fun (r : List (Nat × Nat)) => r.foldl (fun m e => max m e.1) 0
    (runs.foldl (fun (b : Option (List (Nat × Nat))) r => match b with
      | some e => if last r < last e then some r else b
      | none => some r) none).getD []
  else
    (((List.range 64).filterMap fun j => (s.freeTick (64 * d + j) id est due).map fun f => (f, 64 * d + j)).foldl insTick []).take
      (min (chunkSize v) ln.total)

/-- D: the deadline of a bounded record (R299). -/
def Launch.deadline (l : Launch) : Nat := l.started + l.bound - 192

/-- An action is applied to the unit of a lot. -/
def State.applyPlan (s : State) (n : Nat) (p : Plan) : State :=
  let l := s.lot n
  if l.act == some .flush || l.act == some .save then s
  else
    let s := (s.unitOf n).foldl (fun s u => s.updLot u fun l =>
      { l with act := some p.act, freeAt := some p.free, status := if p.act == .flush then .flushing else l.status }) s
    let ln := s.launch l.launch
    match p.act with
    | .drain => s.trace ln.part 3 ln.slotAddr l.core 0
    | .flush => s.trace ln.part 4 ln.slotAddr l.core 0
    | .save => s

/-- The record that Mordant serves next on a die: bounded, nothing of it dispatched, no room for it on any die, no cores being
freed for it; the earliest arrival, then the lowest queue (R299). -/
def State.mordantHead (s : State) (part : Nat) : Option Nat :=
  let ids := (s.cands part).filterMap fun e =>
    let ln := s.launch e.2
    let est := s.estimateOf ln
    let blocked := (List.range 8).all fun d => !s.dieOpen d part || (s.startUnit d e.2 0 est).isNone
    if ln.bound != 0 && ln.level.isNone && ln.recs.isEmpty && blocked && s.reserves.all (fun r => !(r.mordant && r.launch == e.2))
    then some e.2 else none
  ids.foldl (fun (b : Option Nat) id => match b with
    | some e => if (s.launch id).started < (s.launch e).started then some id else b
    | none => some id) none

/-- MORDANT_DECIDE (R299 to R303): cores of a die are chosen for the record, reserved, and the actions applied to the lots there that
prevent its lots from fitting. A run that a vat has reserved for itself gives way to the one that Mordant frees. -/
def execMordantDecide (d : Nat) (s : State) : Host.Outcome State Fault Refusal :=
  let part := s.partOfDie d
  if 8 ≤ d || !s.dieOpen d part then .next s
  else match s.mordantHead part with
    | none => .next s
    | some id =>
      let ln := s.launch id
      let due := ln.deadline
      match s.freeCores d id (s.estimateOf ln) due with
      | [] => .next s
      | cs =>
        let ns := cs.flatMap fun e => s.preventing e.2 id
        let plans := ns.filterMap fun n => (s.planOf n due false).map fun p => (n, p)
        let t := plans.foldl (fun t e => if (t.lot e.1).act == (s.lot e.1).act then t.applyPlan e.1 e.2 else t) s
        .next { t with reserves := (t.reserves.filter fun r => r.launch != id) ++ [⟨d, id, cs.map Prod.snd, maxOf (cs.map Prod.fst) fun f => f, true⟩] }

/-- DRAIN_DEADLINE (R312): a drained lot that has not retired in time is decided once more, without drain; not on a die whose dispatcher rebuilds
its tables (R367). -/
def execDrainDeadline (n : Nat) (s : State) : Host.Outcome State Fault Refusal :=
  match amGet s.lots n with
  | none => .next s
  | some l =>
    match l.act, l.freeAt with
    | some .drain, some t =>
      if !l.resident || s.tick < t || s.rebuilding l.die then .next s
      else
        let due := match s.reserves.find? fun r => r.mordant && r.cores.contains l.core with
          | some r => (s.launch r.launch).deadline
          | none => s.tick
        match s.planOf n due true with
        | some p => .next (s.applyPlan n p)
        | none => .next (s.updLot n fun l => { l with freeAt := none })
    | _, _ => .next s

/-! ### Flush (R305) -/

/-- Every long-latency result of a lot has returned, its commands are accepted, its stores are performed and its shuffle is done (R305). -/
def State.quiet (s : State) (n : Nat) : Bool :=
  (s.skeins.all fun e => e.2.lot != n || e.2.pend.all fun p => p.returned) && s.accepted n &&
    ((s.core (s.lot n).core).stores.all fun p => p.lot != n) && s.shuffles.all fun h => !h.lots.contains n

/-- A key that no lot uses, for the rows of a discarded lot that started copies still hold. -/
def State.ghostKey (s : State) : Nat := s.lots.foldl (fun m e => max m (e.1 + 1)) (2 ^ 128)

/-- A copy of a discarded lot goes on under another key. -/
def Copy.rekey (x : Copy) (n g : Nat) : Copy :=
  let f := fun (p : Nat × Nat) => if p.1 == n then (g, p.2) else p
  { x with lot := if x.lot == n then g else x.lot, tile := x.tile.map f, bar := x.bar.map f, mma := none }

/-- A lot is discarded: its queued copies complete their numbers, its started ones keep its rows. -/
def State.discard (s : State) (n : Nat) : State :=
  let g := s.ghostKey
  let (s, _) := s.dropWork n
  let s := { s with copies := amMap (fun _ (x : Copy) => x.rekey n g) s.copies }
  let s := s.setLot g { s.lot n with status := .flushed, act := none, freeAt := none, partner := none }
  let s := s.leaveCore n .flushed
  { s with lots := amErase s.lots n, ckpts := amErase s.ckpts n }

/-- The logs of lots that run again begin anew in the first run of their launch (R416). -/
def Launch.relog (l : Launch) (idxs : List Nat) : Launch :=
  if l.replays != 0 then l
  else { l with log := idxs.foldl (fun m i => match amGet m i with | some e => amPut m i (e.1, 0) | none => m) l.log }

/-- FLUSH_LOT (R305): a flushing unit that is quiet is discarded; its re-run records go in front of its launch. -/
def execFlushLot (n : Nat) (s : State) : Host.Outcome State Fault Refusal :=
  match amGet s.lots n with
  | none => .next s
  | some l =>
    let unit := s.unitOf n
    if l.status != .flushing || !unit.all s.quiet then .next s
    else
      let old := s.front (s.launch l.launch).q
      let idxs := if (s.launch l.launch).vatSize != 0 then [l.vat * (s.launch l.launch).vatSize] else (unit.map fun u => (s.lot u).idx).eraseDups
      let t := unit.foldl State.discard s
      let t := t.updLaunch l.launch fun ln =>
        { ln.relog (unit.map fun u => (s.lot u).idx) with recs := idxs.map (fun i => (false, i, l.estimate)) ++ ln.recs }
      .next (t.frontSince (s.launch l.launch).q old)

/-! ### Save (R243, R306) -/

/-- A skein is asked to park (R306). One without a pending result stands at a boundary already, and is saved where it stands (R340). Of
any other the next instruction that it issues is its boundary; a skein of a redundant pair, which might wait there for its partner, parks
before that instruction (log entries 52 and 105). -/
def Skein.ask (k : Skein) (pair : Bool) : Skein :=
  if k.park.isSome || k.pend.isEmpty then k
  else if pair then { k with park := some .go }
  else if k.cur.isSome then { k with forced := true } else k

/-- SAVE_REQUEST (R306, R311): the save chosen for a unit begins. -/
def execSaveRequest (n : Nat) (s : State) : Host.Outcome State Fault Refusal :=
  match amGet s.lots n with
  | none => .next s
  | some l =>
    if l.act != some .save || !(l.status == .running || l.status == .waiting) then .next s
    else .next ((s.unitOf n).foldl (fun s u =>
      let run := (s.lot u).status == .running
      let s := s.updLot u fun l => { l with status := .saving }
      let pair := (s.lot u).partner.isSome
      if run then { s with skeins := amMap (fun _ (k : Skein) => if k.lot == u then k.ask pair else k) s.skeins } else s) s)

/-- The engine stops the MMA of a lot at the boundary after the k-step that it has started (R243); one that waits for budget waits no more
(R248). -/
def State.stopMma (s : State) (n : Nat) : State :=
  (s.refillCore (s.lot n).core).updCore (s.lot n).core fun k =>
    { k with cmds := k.cmds.map fun m => if m.lot == n && m.started && m.mma?.isSome then { m with stopReq := true, shortSince := none } else m }

/-- The entry of a lot that a fence by command moves to another die (R398, R402). -/
def State.movedEntry (s : State) (n : Nat) : State :=
  let l := s.lot n
  let ln := s.launch l.launch
  s.failEntry ln.part ln.slotAddr l.idx 0xA2 3 l.die (l.core % 64) ln.replays 0 0

/-- SAVE_COMPLETE (R306, R311): a unit whose skeins rest stops the engine, and is saved once everything is at rest. -/
def execSaveComplete (n : Nat) (s : State) : Host.Outcome State Fault Refusal :=
  match amGet s.lots n with
  | none => .next s
  | some l =>
    let unit := s.unitOf n
    let saving := unit.all fun u => (s.lot u).status == .saving
    let rest := s.skeins.all fun e => !unit.contains e.2.lot || e.2.atRest
    if l.status != .saving || !saving || !rest then .next s
    else
      let t := unit.foldl State.stopMma s
      if !unit.all t.saveReady then .next t
      else
        let q := (t.launch l.launch).q
        let moved := (t.die l.die).stopped && !t.fenced l.die
        let u := (t.saveUnit unit).frontSince q (t.front q)
        .next (unit.foldl (fun u n => if moved && (u.lot n).status == .saved then u.movedEntry n else u) u)

end Sys2Proof.Machine
end

