-- ==== Sys2Proof/Machine/Partitions.lean ====
section
/-! DEFINITION. Partitions and dies: enabling (R318), reset (R401), fences (R402, R403), a scheduler in an illegal state (R367), the
loss of a peer module (R417), register writes (R6), the stop word (R417), bring-up (R334) and module reset. -/

namespace Sys2Proof.Machine

/-! ### The partition block (R317, R318, R331) -/

/-- The budgets of a partition's cores are refilled at the RATE so far (R331). -/
def State.refillPart (s : State) (part : Nat) : State :=
  s.cores.foldl (fun s e => if (s.partDies part).testBit (e.1 / 64) then s.refillCore e.1 else s) s

/-- The RW fields of a partition's first word; DIES only while EN is 0. -/
def State.partFields (s : State) (part : Nat) (v : DWord) : State :=
  let off := partBlock part
  let m := if s.partOn part then rwMask off &&& ~~~0xFF#64 else rwMask off
  s.wr off ((s.rd off &&& ~~~m) ||| (v &&& m))

/-- Those fields written while the module runs. A change of MODE is traced (R328). -/
def State.partWrite (s : State) (part : Nat) (v : DWord) : State :=
  let old := s.partMode part
  let s := (s.refillPart part).partFields part v
  if s.partMode part == old then s else s.trace part 7 0 0 0

/-- EN = 1 is refused (R318). -/
def State.enableRefused (s : State) (part dies : Nat) : Bool :=
  !s.moduleReady || dies == 0 || ((List.range 8).any fun d => dies.testBit d && (s.fenced d || !s.dieOk d)) ||
    (List.range 8).any fun p => p != part && s.partOn p && Nat.land (s.partDies p) dies != 0

/-- PARTITION_ENABLE (R318): a write with EN = 1. -/
def execPartitionEnable (part : Nat) (v : BitVec 64) (s : State) : Host.Outcome State Fault Refusal :=
  if 8 ≤ part || !v.getLsbD 8 then .next s
  else
    let on := s.partOn part
    let t := s.partWrite part v
    if !on && s.enableRefused part (fieldOf v 0 8) then .next (t.setFld statusWord 3 1 1)
    else .next (((t.setFld (partBlock part) 8 1 1).setFld statusWord 3 1 0).reevaluateAll part)

/-! ### Partition reset (R401) -/

/-- A launch ends failed with a code, without being rolled back: it dispatches no more, and the failures that waited for its rollback are
entered. -/
def State.failLaunch (s : State) (id code : Nat) (cause : Nat → Nat) : State :=
  (s.giveUp id cause).updLaunch id fun l => { l with stop := true, failed := some code }

/-- The launches of a partition. -/
def State.partLaunches (s : State) (part : Nat) : List Nat :=
  (s.launches.filter fun e => e.2.part == part).map Prod.fst

/-- Resident lots fail without a frame, each unit once. -/
def State.failAll (s : State) (ns : List Nat) (code : Nat) : State :=
  ns.foldl (fun s n => if (s.lot n).resident then s.failLot n code 0 else s) s

/-- A running launch ends failed by a reset (R401), with its CAUSE: in the entries that waited for its rollback and in those of the lots that
fail here, or where there are none in an entry for the launch as a whole. -/
def State.resetLaunch (s : State) (id : Nat) : State :=
  let ln := s.launch id
  let lots := s.lots.any (fun e => e.2.launch == id && e.2.resident) || s.saved.any fun e => e.2.lot.launch == id
  let s := s.failLaunch id 0xA3 fun _ => 0xA3
  if lots || ln.rollbackable && ln.fails != [] then s else s.failEntry ln.part ln.slotAddr 0xFFFFFFFF 0xA3 0 0 0 ln.replays 0 0

/-- PARTITION_RESET (R401): a write with EN = 0; of a partition that does not run, it sets the RW fields. -/
def execPartitionReset (part : Nat) (v : BitVec 64) (s : State) : Host.Outcome State Fault Refusal :=
  if 8 ≤ part || v.getLsbD 8 then .next s
  else if !s.partOn part then .next (s.partWrite part v)
  else
    let ids := s.partLaunches part
    let t := ids.foldl State.resetLaunch s
    let t := t.failAll ((s.lots.filter fun e => ids.contains e.2.launch).map Prod.fst) 0xA3
    let t := s.saved.foldl (fun t e => if e.2.part == part then t.failSaved e.1 0xA3 else t) t
    let t := ids.foldl (fun t id => t.updLaunch id fun l => { l with recs := [] }) t
    let t := (t.faults.filter fun e => e.part == part).foldl (fun t e => t.refuseEntry e 0) t
    let t := { t with lakes := t.lakes.filter fun e => e.part != part, reserves := t.reserves.filter fun r => !ids.contains r.launch }
    let t := t.setFld (partBlock part + 48) 0 32 (t.cmdTail part)
    .next (((t.partWrite part v).setFld (partBlock part) 8 1 0).failEntry part 0 0xFFFFFFFF 0xA3 0 0 0 0 0 0)

/-! ### Dies (R367, R402, R403) -/

/-- The resident lots of a die. -/
def State.dieLots (s : State) (d : Nat) : List Nat :=
  (s.lots.filter fun e => e.2.core / 64 == d && e.2.resident).map Prod.fst

/-- The undispatched lots of a die's chunks go back to be handed out again (R403). -/
def Launch.giveBack (l : Launch) (d : Nat) : Launch :=
  { l with chunks := l.chunks.filterMap fun c =>
      if c.die == d then (if c.disp = 0 then none else some { c with count := c.disp }) else some c }

/-- The leader of a partition: its lowest-numbered unfenced die (R292, R403). -/
def State.leader (s : State) (part : Nat) : Option Nat :=
  (List.range 8).find? fun d => (s.partDies part).testBit d && !s.fenced d

/-- The counter of a launch is rebuilt after its leader has failed: the next lot is one past the highest of any reported chunk, so that a
chunk of the fenced die above it from which nothing was dispatched goes back; one whose lots have all retired has reported; any other
gap fails the launch (log entry 75). A die that did not lead gives its undispatched lots back (R403). -/
def State.regap (s : State) (id d : Nat) (led : Bool) : State :=
  let ln := s.launch id
  if led then
    let top := ln.chunks.foldl (fun m c => if c.die == d && c.ret != c.count then m else max m (c.first + c.count)) 0
    let back := fun (c : Chunk) => c.die == d && c.ret != c.count && c.disp == 0 && decide (top ≤ c.first)
    let gap := ln.chunks.any fun c => c.die == d && c.ret != c.count && !back c
    let s := s.updLaunch id fun l =>
      { l with chunks := (l.chunks.filter fun c => !back c).map fun (c : Chunk) =>
          if c.die == d && c.ret == c.count then { c with reported := true } else c }
    if gap && ln.failed.isNone then
      let s := s.updLaunch id fun l => { l with stop := true, failed := some 0xA2 }
      if ln.rollbackable then s.updLaunch id fun l => { l with fails := l.fails ++ [⟨0xFFFFFFFF, 0xA2, d, 0, 0, s.tick, 0⟩] }
      else s.failEntry ln.part ln.slotAddr 0xFFFFFFFF 0xA2 0 d 0 ln.replays 0 0
    else s
  else s.updLaunch id fun l => l.giveBack d

/-- DIE_FENCE_BY_DEVICE (R402, R403): the lots of the die fail, and FENCED is set. -/
def execDieFenceByDevice (d : Nat) (l2Lost : Bool) (s : State) : Host.Outcome State Fault Refusal :=
  if 8 ≤ d || s.fenced d then .next s
  else
    let part := s.partOfDie d
    let led := s.leader part == some d
    let t := (s.failAll (s.dieLots d) 0xA2).updDie d fun e => { e with l2Lost := l2Lost, stopped := true }
    let t := ((t.partLaunches part).foldl (fun t id => t.regap id d led) t).setFld statusWord (24 + d) 1 1
    .next { t with reserves := t.reserves.filter fun r => r.die != d }

/-- SCHED_STATE_RECOVERY (R367): the failure is recorded against the die; dispatch there goes on once its lots have drained, from
the tables that the dispatcher rebuilds, which say what they said. -/
def execSchedStateRecovery (d : Nat) (s : State) : Host.Outcome State Fault Refusal :=
  if 8 ≤ d || s.fenced d then .next s
  else .next ((s.failEntry (s.partOfDie d) 0 0xFFFFFFFF 0x85 0 d 0 0 0 0).updDie d fun e => { e with rebuild := true })

/-! ### FX Link (R321, R417) -/

/-- A landing on its way to a proxy lake whose home is a given module. -/
def State.landsAt (s : State) (m : LandMsg) (pkg : BitVec 10) : Bool :=
  s.lakes.any fun k => k.part == m.part && k.desc.getLsbD 437 && bitsOf k.desc.toNat 438 10 == pkg.toNat &&
    (if m.report then k.va == m.va
     else decide (bitsOf k.desc.toNat 0 64 ≤ m.va.toNat && m.va.toNat < bitsOf k.desc.toNat 0 64 + bitsOf k.desc.toNat 64 64))

/-- The partition has a proxy lake or a pod timeline whose home is a given module. -/
def State.uses (s : State) (part : Nat) (pkg : BitVec 10) : Bool :=
  (s.lakes.any fun k => k.part == part && k.desc.getLsbD 437 && bitsOf k.desc.toNat 438 10 == pkg.toNat) ||
    s.podTls.any fun e => e.2.1 == part && e.2.2.1 == pkg.toNat

/-- FABRIC_LOST (R353, R417): lots whose landings were on their way to the peer fail, and each partition that uses the peer gets an
entry. -/
def execFabricLost (pkg : BitVec 10) (s : State) : Host.Outcome State Fault Refusal :=
  let lost := (amVals s.lands).filter fun m => s.landsAt m pkg
  let t := { s with lands := s.lands.filter fun e => !lost.contains e.2 }
  let t := t.failAll (lost.map LandMsg.lot) 0xA4
  .next ((List.range 8).foldl (fun t p => if s.partOn p && s.uses p pkg then t.failEntry p 0 0xFFFFFFFF 0xA4 0 0 0 0 0 0 else t) t)

/-! ### Bring-up and registers (R6, R334) -/

/-- PKG_WRITE (R334): written once. -/
def execPkgWrite (v : BitVec 10) (s : State) : Host.Outcome State Fault Refusal :=
  .next (if s.pkgSet then s else { s.setFld statusWord 32 10 v.toNat with pkgSet := true })

/-- SELF_TEST_COMPLETE (R334). -/
def execSelfTestComplete (dies : BitVec 8) (s : State) : Host.Outcome State Fault Refusal :=
  .next ((s.setFld statusWord 16 8 dies.toNat).setFld statusWord 0 1 1)

/-- FX_LINK_TRAINED (R334). -/
def execFxLinkTrained (s : State) : Host.Outcome State Fault Refusal :=
  .next ((s.setFld statusWord 1 1 1).setFld statusWord 2 1 1)

/-- The word of a reply (R373): its partition. -/
def replyPart (off : Nat) : Option Nat :=
  if 0x0F0000 ≤ off && off < 0x0F0200 && off % 64 == 0x28 then some ((off - 0x0F0000) / 64) else none

/-- A queue whose second control word lies at an offset (R285). -/
def tailQueue (off : Nat) : Option Nat :=
  let o := off % hub1
  if 0x100000 ≤ o && o < 0x104000 && o % 32 == 24 then some ((o - 0x100000) / 32 + 512 * (off / hub1)) else none

/-- TICK_STOP is recorded in the failure ring of a partition once the module runs again and the ring is enabled (R417). -/
def State.recordStop (s : State) (part : Nat) : State :=
  match amGet s.stops part with
  | some t => if s.fld (failRing part) 0 1 == 1
      then { s.failEntryAt t part 0 0xFFFFFFFF 0xC3 0 0 0 0 0 0 with stops := amErase s.stops part } else s
  | none => s

/-- A write to a word of the fields that a write sets; a mode word acts from the next refill on (R331). -/
def State.fieldsWrite (s : State) (off : Nat) (v : DWord) : State :=
  let m := rwMask off
  let s := if 0x0F0000 ≤ off && off < 0x0F0200 && off % 64 == 8 then s.refillPart ((off - 0x0F0000) / 64) else s
  let s := s.wr off ((s.rd off &&& ~~~m) ||| (v &&& m))
  let s := if 0x0F0800 ≤ off && off < 0x0F0A00 then s.recordStop ((off - 0x0F0800) / 64) else s
  let o := off % hub1
  if 0x100000 ≤ o && o < 0x104000 then
    let q := (o - 0x100000) / 32 + 512 * (off / hub1)
    s.setQueueX q (s.queueX q)
  else s

/-- A write to a register while every clock but that of BAR0 stands (R417): fields are set as ever, those of EN, TAIL and PKG too, and no
unit acts on it. -/
def State.stoppedWrite (s : State) (off : Nat) (v : DWord) : State :=
  let plain := s.wr off ((s.rd off &&& ~~~(rwMask off)) ||| (v &&& rwMask off))
  if 0x0E0000 ≤ off && off < 0x0E0800 && off % 256 == 0 then
    let part := (off - 0x0E0000) / 256
    let t := s.partFields part v
    if !v.getLsbD 8 then t.setFld off 8 1 0
    else if !s.partOn part && s.enableRefused part (fieldOf v 0 8) then t.setFld statusWord 3 1 1
    else (t.setFld off 8 1 1).setFld statusWord 3 1 0
  else if off = statusWord then (if s.pkgSet then s else { s.setFld statusWord 32 10 (fieldOf v 32 10) with pkgSet := true })
  else match tailQueue off with
    | some q => if s.qDev q then s else s.setFld off 32 32 (fieldOf v 32 32)
    | none => plain

/-- REGISTER_WRITE (R6; width and alignment are log entry 85): a 64-bit write sets the RW fields of the register; a word whose write has a
step of its own does that step. -/
def execRegisterWrite (off : Nat) (v : BitVec 64) (s : State) : Host.Outcome State Fault Refusal :=
  if off % 8 != 0 || 2 * hub1 ≤ off then .next s
  else if s.stopped then .next (s.stoppedWrite off v)
  else if 0x0E0000 ≤ off && off < 0x0E0800 && off % 256 == 0 then
    (if v.getLsbD 8 then execPartitionEnable ((off - 0x0E0000) / 256) v s else execPartitionReset ((off - 0x0E0000) / 256) v s)
  else if off = statusWord then execPkgWrite (v.extractLsb' 32 10) s
  else if off = linkWord false || off = linkWord true then
    let t := s.fieldsWrite off v
    if v.getLsbD 0 then execLinkRetrain (off = linkWord true) t else .next t
  else match replyPart off, tailQueue off with
    | some p, _ => match fieldOf v 32 2 with
      | 0 => execFaultRetry p (v.setWidth 32) s
      | 1 => execFaultRefuse p (v.setWidth 32) s
      | 2 => execFaultRetryAll p s
      | _ => execFaultReplyNone p (v.setWidth 32) s
    | none, some q => execQueueTailWrite q (v.extractLsb' 32 32) s
    | none, none => .next (s.fieldsWrite off v)

/-! ### Stopping and resetting (R248, R417) -/

/-- TICK_STOP (R417): at STOPTICK every clock domain is gated. -/
def execTickStop (s : State) : Host.Outcome State Fault Refusal :=
  .next s.tickStop

/-- MODULE_RESET: every register and every unit returns to its reset state; what lies outside the module stays. A stop before it
is recorded in the failure ring of each partition that ran, once that ring is enabled again (R417, log entry 115). -/
def execModuleReset (s : State) : Host.Outcome State Fault Refusal :=
  let ps := (List.range 8).filter s.partOn
  .next { State.reset with
    grant := s.grant, choices := s.choices, inputs := s.inputs, far := s.far, mem := s.far
    stops := if s.stopped then ps.map fun p => (p, s.tick) else [] }

end Sys2Proof.Machine
end

