-- ==== Sys2Proof/Machine/Commands.lean ====
section
/-! DEFINITION. The commands of a partition's ring (R319, R335): translations (R100), lakes (R278, R393), pod timelines (R321), code
objects (R265, R322 to R325, R414), breakpoints (R413), and the live operations (R402, R404). -/

namespace Sys2Proof.Machine

/-! ### The ring (R366) -/

/-- BAD_COMMAND (R366): an OP that is not listed. -/
def execBadCommand (part : Nat) (s : State) : Host.Outcome State Fault Refusal :=
  match s.cmdOp part with
  | none => .next s
  | some op =>
    if [0x01, 0x02, 0x03, 0x04, 0x05, 0x06, 0x10, 0x11, 0x12, 0x20, 0x21].contains op then .next s else .next (s.cmdDone part badCmd)

/-! ### Translations (R100, R120) -/

/-- A cached translation covers a byte of a range. -/
def TlbEnt.covers (e : TlbEnt) (part lo n : Nat) : Bool :=
  e.part == part && e.vpn * 2 ^ levelShift e.level < lo + n && decide (lo < (e.vpn + 1) * 2 ^ levelShift e.level)

/-- A watch whose line's translation is invalidated triggers. -/
def Skein.watchCut (k : Skein) (lo n : Nat) : Skein :=
  match k.watch with
  | some w => if !w.scratch && w.va.toNat / 128 * 128 < lo + n && decide (lo < w.va.toNat / 128 * 128 + 128)
      then { k with watch := some { w with hit := true } } else k
  | none => k

/-- Something still uses a translation of a range that was made before (R100): a fill of a PREF in flight on the partition's cores, or an
operation that has its number on a timeline block there and will advance it. -/
def State.oldUses (s : State) (part lo n : Nat) : Bool :=
  let here := fun (va : Nat) => decide (va < lo + n && lo < va + 16)
  (s.cores.any fun e => (s.partDies part).testBit (e.1 / 64) && e.2.prefs.any fun f => !f.2.2) ||
    ((amVals s.copies).any fun x => Copy.part s x == part && x.tl.isSome && x.tlVa.any fun va => here va.toNat) ||
    ((amVals s.queries).any fun x => x.part == part && x.tl.isSome && !x.fin && here x.tline.toNat) ||
    ((amVals s.launches).any fun l => l.part == part && l.tl.isSome && here (l.fld 512 64)) ||
    s.queues.any fun e => s.qPart e.1 == part && e.2.nums.any fun r => r.2.tl.isSome && here (recTline (s.qRecord e.1 r.1)).toNat

/-- INVALIDATE_TRANSLATIONS (R100): the TLBs drop what covers the range, and the command completes once nothing uses an old translation of it
(log entry 116). -/
def execInvalidateTranslations (part : Nat) (s : State) : Host.Outcome State Fault Refusal :=
  let lo := s.cmdArg part 0
  let n := s.cmdArg part 1
  s.command part 1
    (if s.oldUses part lo n then s else State.cmdDone { s with
      tlb := s.tlb.filter fun e => !e.covers part lo n
      skeins := amMap (fun _ (k : Skein) => if s.partOf (s.lotOf k) == part then k.watchCut lo n else k) s.skeins } part 0)

/-! ### Lakes and pod timelines (R278, R319, R321, R393) -/

/-- A lake descriptor that breaks R278: its reserved bits, alignments and ranges. HOLD is 0 exactly under MODE 0, whatever the TYPE (log entry
114). -/
def badLake (d : BitVec 512) : Bool :=
  let f := fun (lo n : Nat) => bitsOf d.toNat lo n
  let proxy := d.getLsbD 437
  f 351 86 != 0 || f 325 11 != 0 || !([0xC, 0xD, 0xE, 0xF, 0x1, 0x4].contains (f 320 4)) || f 0 64 % 65536 != 0 ||
    f 64 64 == 0 || f 64 64 % 65536 != 0 || f 128 64 % 16 != 0 ||
    if proxy then f 448 64 % 64 != 0
    else f 256 16 == 0 || f 448 64 != 0 || f 438 10 != 0 || ((d.getLsbD 324) != (f 192 64 != 0))

/-- The descriptor of a lake as registration leaves it: ROUND 1 and DONE 0; both read 0 in a proxy's. -/
def freshLake (d : BitVec 512) : BitVec 512 :=
  (d &&& ~~~(BitVec.ofNat 512 ((2 ^ 48 - 1) * 2 ^ 272))) ||| if d.getLsbD 437 then 0 else BitVec.ofNat 512 (2 ^ 288)

/-- REGISTER_LAKE (R278, R393). -/
def execRegisterLake (part : Nat) (s : State) : Host.Outcome State Fault Refusal :=
  let va : DWord := BitVec.ofNat 64 (s.cmdArg part 0)
  s.command part 2 (match s.hubWritable part va 64, s.getVirtual hubUnit part va 64 with
    | some pa, some bs =>
      let d : BitVec 512 := BitVec.ofNat 512 (leNat bs)
      if va.toNat % 64 != 0 || badLake d then s.cmdDone part badCmd
      else if modeDet (s.partMode part) && !d.getLsbD 324 && !d.getLsbD 437 then s.cmdDone part 0x6F
      else
        let d := freshLake d
        let l : Lake := ⟨part, va, pa, d, [], false, false, [], false, 0⟩
        let t := s.homeWrite part (pa + 34) (leBytes (bitsOf d.toNat 272 48) 6) none
        ({ t with lakes := t.lakes.filter (fun e => !(e.part == part && e.va == va)) ++ [l] } : State).cmdDone part 0
    | _, _ => s.cmdDone part badCmd)

/-- UNREGISTER_LAKE (R319): once its open round completes, or at once when nothing has arrived in it. -/
def execUnregisterLake (part : Nat) (s : State) : Host.Outcome State Fault Refusal :=
  let va : DWord := BitVec.ofNat 64 (s.cmdArg part 0)
  s.command part 3 (match s.lakes.find? fun l => l.part == part && l.va == va with
    | none => s.cmdDone part badCmd
    | some l =>
      if l.used then s.setLake { l with closing := true }
      else ({ s with lakes := s.lakes.filter fun e => !(e.part == part && e.va == va) } : State).cmdDone part 0)

/-- REGISTER_POD_TIMELINE (R321). -/
def execRegisterPodTimeline (part : Nat) (s : State) : Host.Outcome State Fault Refusal :=
  let va : DWord := BitVec.ofNat 64 (s.cmdArg part 0)
  let home := s.cmdArg part 1
  s.command part 4 (match s.hubWritable part va 16 with
    | some pa =>
      if va.toNat % 16 != 0 || 1024 ≤ home then s.cmdDone part badCmd
      else ({ s with podTls := amPut s.podTls pa (part, home, s.cmdArg part 2) } : State).cmdDone part 0
    | none => s.cmdDone part badCmd)

/-! ### Code objects (R265, R414) -/

/-- UPLOAD_CODE_OBJECT (R265, R322 to R325, R388): the object's `.text` is known from then on. -/
def execUploadCodeObject (part : Nat) (s : State) : Host.Outcome State Fault Refusal :=
  let base := s.cmdArg part 1
  s.command part 5 (match s.upload part with
    | (t, .got (code, some len)) =>
      ({ t with objects := (t.objects.filter fun o => !(o.1 == part && o.2.1 == base)) ++ [(part, base, len)] } : State).cmdDone part code
    | (t, .got (code, none)) => t.cmdDone part code
    | _ => s)

/-- An address lies in the `.text` of an object. -/
def inText (o : Nat × Nat × Nat) (va : Nat) : Bool := o.2.1 ≤ va && decide (va < o.2.1 + o.2.2)

/-- A fibre's PC, of a waiting one that of the instruction at which it waits, lies in the `.text` of an object. -/
def Skein.runsIn (k : Skein) (o : Nat × Nat × Nat) : Bool :=
  k.lanes.any fun f => f.any fun f => inText o (match f.wait with | some w => w.pc | none => f.pc).toNat

/-- The resident lots, the saved lots, the re-run records and the unstarted records of a partition that use an object. -/
def State.lotsIn (s : State) (o : Nat × Nat × Nat) : List Nat :=
  (s.skeins.filter fun e => s.partOf (s.lotOf e.2) == o.1 && e.2.runsIn o).map fun e => e.2.lot
def State.savedIn (s : State) (o : Nat × Nat × Nat) : List Nat :=
  (s.saved.filter fun e => e.2.part == o.1 && e.2.skeins.any fun k => k.2.runsIn o).map Prod.fst
def State.rerunsIn (s : State) (o : Nat × Nat × Nat) : List Nat :=
  (s.launches.filter fun e => e.2.part == o.1 && inText o e.2.code && e.2.recs.any fun r => !r.1).map Prod.fst
def State.recordsIn (s : State) (o : Nat × Nat × Nat) : List (Nat × Nat) :=
  s.queues.flatMap fun e =>
    if s.qPart e.1 != o.1 then []
    else
      let n := (s.qTail e.1 + 2 ^ 32 - s.qHead e.1) % 2 ^ 32
      ((List.range n).map fun i => (e.1, (s.qHead e.1 + i) % 2 ^ 32)).filter fun r => inText o (recF (s.qRecord r.1 r.2) 0 64)

/-- What uses an object ends failed with CODE_UNLOADED, and is not rolled back. -/
def State.evict (s : State) (o : Nat × Nat × Nat) : State :=
  let ids := (((s.lotsIn o ++ s.savedIn o).map fun n => (s.lot n).launch) ++ s.rerunsIn o).eraseDups
  let s := s.failAll (s.lotsIn o) 0xA6
  let s := (s.savedIn o).foldl (fun s n => s.failSaved n 0xA6) s
  let s := (s.rerunsIn o).foldl (fun s id =>
    let ln := s.launch id
    let s := (ln.recs.filter fun r => !r.1).foldl (fun s r => s.failEntry ln.part ln.slotAddr r.2.1 0xA6 0 0 0 ln.replays 0 0) s
    s.updLaunch id fun l => { l with recs := l.recs.filter fun r => r.1 }) s
  let s := ids.foldl (fun s id => s.failLaunch id 0xA6 fun c => c) s
  (s.recordsIn o).foldl (fun s r =>
    let x := s.queueX r.1
    s.setQueueX r.1 { x with doomed := insNat x.doomed r.2 }) s

/-- UNLOAD_CODE_OBJECT (R414). -/
def execUnloadCodeObject (part : Nat) (s : State) : Host.Outcome State Fault Refusal :=
  let base := s.cmdArg part 0
  let force := s.cmdArg part 1 % 2 == 1
  s.command part 6 (match s.objects.find? fun o => o.1 == part && o.2.1 == base with
    | none => s.cmdDone part badCmd
    | some o =>
      let used := s.lotsIn o != [] || s.savedIn o != [] || s.rerunsIn o != [] || s.recordsIn o != []
      if used && !force then s.cmdDone part 0xA7
      else
        let t := if used then s.evict o else s
        ({ t with objects := t.objects.filter (· != o) } : State).cmdDone part 0)

/-! ### Breakpoints (R413) -/

/-- The launch that a command names by its queue slot. -/
def State.launchAt (s : State) (part drec : Nat) : Option Nat :=
  (s.launches.find? fun e => e.2.part == part && e.2.slotAddr == drec).map Prod.fst

/-- BRK: W0, W1 and W2. -/
def brkBytes : List Byte := leBytes 0x70E2 4 ++ leBytes 0 8

/-- The private copy of a code page, made when the launch has none; none when it holds 16 or the heap is full. -/
def State.privPage (s : State) (id page pa : Nat) : Option (State × Nat) :=
  let ln := s.launch id
  match amGet ln.privPages page with
  | some a => some (s, a)
  | none =>
    if 16 ≤ ln.privPages.length then none
    else match s.heapFind ln.part 65536 65536 [] with
      | none => none
      | some a =>
        let s := s.homeWrite ln.part a (s.homeRead (pa / 65536 * 65536) 65536) none
        some (s.updLaunch id fun l => { l with privPages := amPut l.privPages page a }, a)

/-- SET_BREAKPOINT. -/
def execSetBreakpoint (part : Nat) (s : State) : Host.Outcome State Fault Refusal :=
  let va : DWord := BitVec.ofNat 64 (s.cmdArg part 0)
  s.command part 0x20 (match s.launchAt part (s.cmdArg part 1), s.xlate hubUnit part va false true with
    | some id, .ok x =>
      if va.toNat % 4 != 0 then s.cmdDone part badCmd
      else match s.privPage id (va.toNat / 65536) x.pa with
        | some (t, a) =>
          let off := va.toNat % 65536
          (t.homeWrite part (a + off) (brkBytes.take (65536 - off)) none).cmdDone part 0
        | none => s.cmdDone part badCmd
    | _, _ => s.cmdDone part badCmd)

/-- CLEAR_BREAKPOINT. -/
def execClearBreakpoint (part : Nat) (s : State) : Host.Outcome State Fault Refusal :=
  let va : DWord := BitVec.ofNat 64 (s.cmdArg part 0)
  s.command part 0x21 (match s.launchAt part (s.cmdArg part 1), s.xlate hubUnit part va false true with
    | some id, .ok x => match amGet (s.launch id).privPages (va.toNat / 65536) with
      | some a =>
        let off := va.toNat % 65536
        (s.homeWrite part (a + off) (s.homeRead x.pa (min 12 (65536 - off))) none).cmdDone part 0
      | none => s.cmdDone part badCmd
    | _, _ => s.cmdDone part badCmd)

/-! ### Live operations (R335, R402, R404) -/

/-- A live operation is traced (R328). -/
def State.liveDone (s : State) (part cause : Nat) : State := (s.cmdDone part cause).trace part 8 0 0 0

/-- REPLACE_FIRMWARE. -/
def execReplaceFirmware (part : Nat) (s : State) : Host.Outcome State Fault Refusal :=
  let va := s.cmdArg part 0
  let target := s.cmdArg part 1
  let known := target < 2 || (8 ≤ target && target < 16 && (s.partDies part).testBit (target - 8))
  s.command part 0x10 (if !known then s.cmdDone part badCmd
    else match s.signedFile part va with
      | .wait .. => s
      | .bad => s.cmdDone part badCmd
      | .got (file, sig) =>
        if !s.verified part file sig then s.liveDone part 0xA1
        else if Config.imageOk s.choices then
          ({ s with firmware := amPut s.firmware target (BitVec.ofNat 64 va) } : State).liveDone part 0
        else s.liveDone part 0xA8)

/-- A page of a stack is mapped below a table: `n` is the level of the table plus 1. -/
def mapsStack (m : Memory) (stack : Nat) : Nat → Nat → Bool
  | 0, _ => false
  | n + 1, tbl => (List.range (if n = 0 then 32 else 512)).any fun i =>
    let e : DWord := BitVec.ofNat 64 (memNat m (tbl + 8 * i) 8)
    e.getLsbD 0 && !badEntry n e &&
      (if e.getLsbD 1 then !isFar (fieldOf e 16 25 * 65536) && stackOf (fieldOf e 16 25 * 65536) == stack
       else mapsStack m stack n (fieldOf e 8 33 * 256))

/-- A page of a stack is still mapped or cached, or a lake lies there. -/
def State.stackUsed (s : State) (part stack : Nat) : Bool :=
  mapsStack s.mem stack 5 (s.root part) ||
    (s.tlb.any fun e => e.part == part && !isFar (leafPa e.leaf 0 0) && stackOf (leafPa e.leaf 0 0) == stack) ||
    s.lakes.any fun l => l.part == part && match s.xlate hubUnit part (BitVec.ofNat 64 l.base) false false with
      | .ok x => !isFar x.pa && stackOf x.pa == stack
      | .bad .. => false

/-- RECALIBRATE_STACK. -/
def execRecalibrateStack (part : Nat) (s : State) : Host.Outcome State Fault Refusal :=
  let d := s.cmdArg part 0
  s.command part 0x11 (if 8 ≤ d || !(s.partDies part).testBit d || s.stackUsed part d then s.cmdDone part badCmd
    else if Config.calibrated s.choices then
      ({ s with unserved := s.unserved.filter (· != d) } : State).liveDone part 0
    else
      (({ s with unserved := insNat s.unserved d } : State).setFld statusWord (16 + d) 1 0).liveDone part 0xA9)

/-- A lot of a die to be fenced is saved (R335). -/
def State.fenceLot (s : State) (n : Nat) : State :=
  let l := s.lot n
  if l.act == some .flush || l.act == some .save then s
  else (s.unitOf n).foldl (fun s u => s.updLot u fun l => { l with act := some .save, freeAt := some (s.tick + s.saveTicks u) }) s

/-- FENCE_DIE (R335, R402, R404): dispatch stops and the lots are saved; once none is left, FENCED is set, the die leaves DIES, and the slot
receives the cause of a save that failed. -/
def execFenceDie (part : Nat) (s : State) : Host.Outcome State Fault Refusal :=
  let d := s.cmdArg part 0
  s.command part 0x12 (if 8 ≤ d || !(s.partDies part).testBit d || s.fenced d then s.cmdDone part badCmd
    else if !(s.die d).stopped then (s.dieLots d).foldl State.fenceLot (s.updDie d fun e => { e with stopped := true })
    else if (s.dieLots d).isEmpty then
      let t := (s.setFld statusWord (24 + d) 1 1).setFld (partBlock part) d 1 0
      let t := (t.partLaunches part).foldl (fun t id => t.updLaunch id fun l => l.giveBack d) t
      let cause := if (t.die d).unsaved then 0x83 else 0
      let t := t.updDie d fun e => { e with unsaved := false }
      ({ t with reserves := t.reserves.filter fun r => r.die != d } : State).liveDone part cause
    else s)

end Sys2Proof.Machine
end

