-- ==== Sys2Proof/Machine/Integer.lean ====
section
/-! DEFINITION. Integer arithmetic, logic, shifts, bit fields, compares, moves, address arithmetic, special registers and
tags (R154 to R164). -/

namespace Sys2Proof.Machine

def execIadd (c : Ctl) (t : ITy) (sat : Bool) (d a b : Opnd) (s : State) : Host.Outcome State Fault Refusal :=
  issueFixed (.iadd c t sat d a b) s fun x => x.int2 t sat (fun p q => tagLin [p, q]) (· + ·) d a b
def execIsub (c : Ctl) (t : ITy) (sat : Bool) (d a b : Opnd) (s : State) : Host.Outcome State Fault Refusal :=
  issueFixed (.isub c t sat d a b) s fun x => x.int2 t sat (fun p q => tagLin [p, q]) (· - ·) d a b

/-- Add with carry (R157): the sum, then the carry-out predicate. -/
def Iss.addCarry (x : Iss) (ci co : BitVec 3) (d a b : Opnd) : Skein :=
  let sum := fun l => (x.a32 a l).toNat + (x.b32 b l).toNat + (x.k.pred ci.toNat l).toNat
  let u := fun h => if ci = 7 then tagU [x.tagOf true a h, x.tagOf false b h] else .g
  let k := x.put x.k (x.dstOf d) u fun l => BitVec.ofNat 32 (sum l)
  x.put k (.prd co.toNat) (fun _ => .g) fun l => if 2 ^ 32 ≤ sum l then 1 else 0

def execIaddc (c : Ctl) (t : ITy) (ci co : BitVec 3) (d a b : Opnd) (s : State) : Host.Outcome State Fault Refusal :=
  issueFixed (.iaddc c t ci co d a b) s fun x => x.addCarry ci co d a b
def execImul (c : Ctl) (t : ITy) (sat : Bool) (d a b : Opnd) (s : State) : Host.Outcome State Fault Refusal :=
  issueFixed (.imul c t sat d a b) s fun x => x.int2 t sat tagMul (· * ·) d a b
def execImulh (c : Ctl) (t : ITy) (d a b : Opnd) (s : State) : Host.Outcome State Fault Refusal :=
  issueFixed (.imulh c t d a b) s fun x => x.int2 t false (fun p q => tagU [p, q])
    (fun p q => (p * q) / 2 ^ ITy.bits t) d a b

/-- a × b + c in one fit (R156). -/
def Iss.mulAdd (x : Iss) (t : ITy) (sat : Bool) (d a b e : Opnd) : Skein :=
  let w := ITy.wide t
  let u := fun h => tagU [x.tagOf true a h, x.tagOf false b h, x.tagOf false e h]
  x.putT t sat d u u fun l => fit t sat (intVal t (x.opA a w l) * intVal t (x.op b w l) + intVal t (x.op e w l))

def execImad (c : Ctl) (t : ITy) (sat : Bool) (d a b e : Opnd) (s : State) : Host.Outcome State Fault Refusal :=
  issueFixed (.imad c t sat d a b e) s fun x => x.mulAdd t sat d a b e

/-- IMADW: 32-bit factors, a 64-bit addend and result (R156). -/
def Iss.mulAddWide (x : Iss) (t : ITy) (d a b e : Opnd) : Skein :=
  let t2 : ITy := if t == .n32 then .n64 else .i64
  x.put64 x.k (x.dstOf d)
    fun l => BitVec.ofInt 64 (intVal t (x.opA a false l) * intVal t (x.op b false l) + intVal t2 (x.op e true l))

def execImadw (c : Ctl) (t : ITy) (d a b e : Opnd) (s : State) : Host.Outcome State Fault Refusal :=
  issueFixed (.imadw c t d a b e) s fun x => x.mulAddWide t d a b e
def execImin (c : Ctl) (t : ITy) (d a b : Opnd) (s : State) : Host.Outcome State Fault Refusal :=
  issueFixed (.imin c t d a b) s fun x => x.int2 t false (fun p q => tagU [p, q]) min d a b
def execImax (c : Ctl) (t : ITy) (d a b : Opnd) (s : State) : Host.Outcome State Fault Refusal :=
  issueFixed (.imax c t d a b) s fun x => x.int2 t false (fun p q => tagU [p, q]) max d a b
def execIabs (c : Ctl) (t : ITy) (sat : Bool) (d a : Opnd) (s : State) : Host.Outcome State Fault Refusal :=
  issueFixed (.iabs c t sat d a) s fun x => x.int1 t sat (fun p => tagU [p]) (fun n => n.natAbs) d a
def execIneg (c : Ctl) (t : ITy) (sat : Bool) (d a : Opnd) (s : State) : Host.Outcome State Fault Refusal :=
  issueFixed (.ineg c t sat d a) s fun x => x.int1 t sat (fun p => tagLin [p]) (fun n => -n) d a
def execAnd (c : Ctl) (t : ITy) (d a b : Opnd) (s : State) : Host.Outcome State Fault Refusal :=
  issueFixed (.and c t d a b) s fun x => x.bits2 t (· &&& ·) d a b
def execOr (c : Ctl) (t : ITy) (d a b : Opnd) (s : State) : Host.Outcome State Fault Refusal :=
  issueFixed (.or c t d a b) s fun x => x.bits2 t (· ||| ·) d a b
def execXor (c : Ctl) (t : ITy) (d a b : Opnd) (s : State) : Host.Outcome State Fault Refusal :=
  issueFixed (.xor c t d a b) s fun x => x.bits2 t (· ^^^ ·) d a b

/-- A one-source operation on bit patterns, with its own result width. -/
def Iss.bits1 (x : Iss) (t : ITy) (wideRes : Bool) (f : DWord → DWord) (d a : Opnd) : Skein :=
  let u := fun h => x.tagOf true a h (ITy.wide t)
  let val := fun l => f (zbits t (x.opA a (ITy.wide t) l))
  if wideRes then x.put64 x.k (x.dstOf d) val else x.put x.k (x.dstOf d) (fun h => tagU [u h]) fun l => loOf (val l)

def execNot (c : Ctl) (t : ITy) (d a : Opnd) (s : State) : Host.Outcome State Fault Refusal :=
  issueFixed (.not c t d a) s fun x => x.bits1 t (ITy.wide t) (~~~·) d a

/-- The table of BOOL3 at every bit position (R158). -/
def bool3Bits (tbl : BitVec 8) (a b e : DWord) : DWord :=
  let pick := fun (i : Nat) (p q r : DWord) => if tbl.getLsbD i then p &&& q &&& r else 0
  pick 0 (~~~a) (~~~b) (~~~e) ||| pick 1 a (~~~b) (~~~e) ||| pick 2 (~~~a) b (~~~e) ||| pick 3 a b (~~~e) |||
    pick 4 (~~~a) (~~~b) e ||| pick 5 a (~~~b) e ||| pick 6 (~~~a) b e ||| pick 7 a b e

/-- A three-source operation on bit patterns. -/
def Iss.bits3 (x : Iss) (t : ITy) (f : DWord → DWord → DWord → DWord) (d a b e : Opnd) : Skein :=
  let w := ITy.wide t
  let u := fun h => tagU [x.tagOf true a h, x.tagOf false b h, x.tagOf false e h]
  x.putT t false d u u fun l => f (x.opA a w l) (x.op b w l) (x.op e w l)

def execBool3 (c : Ctl) (t : ITy) (tbl : BitVec 8) (d a b e : Opnd) (s : State) : Host.Outcome State Fault Refusal :=
  issueFixed (.bool3 c t tbl d a b e) s fun x => x.bits3 t (bool3Bits tbl) d a b e

def shlBits (t : ITy) (a : DWord) (n : Nat) : DWord := if ITy.bits t ≤ n then 0 else zbits t (a <<< n)
def shrBits (t : ITy) (a : DWord) (n : Nat) : DWord := if ITy.bits t ≤ n then 0 else zbits t a >>> n
def sarBits (t : ITy) (a : DWord) (n : Nat) : DWord :=
  let v : Int := if ITy.wide t then a.toInt else (loOf a).toInt
  if ITy.bits t ≤ n then (if v < 0 then -1 else 0) else BitVec.ofInt 64 (v / 2 ^ n)
def rotlBits (t : ITy) (a : DWord) (n : Nat) : DWord :=
  let w := ITy.bits t
  zbits t (zbits t a <<< (n % w)) ||| (zbits t a >>> (w - n % w))

/-- A shift or rotate: the count is 32 bits wide in every form (R159). -/
def Iss.shift (x : Iss) (t : ITy) (lin : TagR → TagR → TagR) (f : DWord → Nat → DWord) (d a b : Opnd) : Skein :=
  x.putT t false d (fun h => lin (x.tagOf true a h) (x.tagOf false b h))
    (fun h => tagU [x.tagOf true a h, x.tagOf false b h]) fun l => f (x.opA a (ITy.wide t) l) (x.b32 b l).toNat

def execShl (c : Ctl) (t : ITy) (d a b : Opnd) (s : State) : Host.Outcome State Fault Refusal :=
  issueFixed (.shl c t d a b) s fun x => x.shift t tagShl (shlBits t) d a b
def execShr (c : Ctl) (t : ITy) (d a b : Opnd) (s : State) : Host.Outcome State Fault Refusal :=
  issueFixed (.shr c t d a b) s fun x => x.shift t (fun p q => tagU [p, q]) (shrBits t) d a b
def execSar (c : Ctl) (t : ITy) (d a b : Opnd) (s : State) : Host.Outcome State Fault Refusal :=
  issueFixed (.sar c t d a b) s fun x => x.shift t (fun p q => tagU [p, q]) (sarBits t) d a b
def execRotl (c : Ctl) (t : ITy) (d a b : Opnd) (s : State) : Host.Outcome State Fault Refusal :=
  issueFixed (.rotl c t d a b) s fun x => x.shift t (fun p q => tagU [p, q]) (rotlBits t) d a b

/-- The funnel shift of concat(b, a) by min(count, 32) (R159). -/
def funnel (right : Bool) (a b e : DWord) : DWord :=
  let v := pairOf (loOf a) (loOf b)
  let n := min (loOf e).toNat 32
  if right then (loOf (v >>> n)).setWidth 64 else (hiOf (v <<< n)).setWidth 64

def execFshf (c : Ctl) (right : Bool) (t : ITy) (d a b e : Opnd) (s : State) : Host.Outcome State Fault Refusal :=
  issueFixed (.fshf c right t d a b e) s fun x => x.bits3 t (funnel right) d a b e

/-- BFX (R160). -/
def bfxBits (signed : Bool) (a b : Word) : Word :=
  let pos := min (bitsOf b.toNat 0 8) 32
  let len := min (bitsOf b.toNat 8 8) 32
  let v : DWord := if signed then a.signExtend 64 else a.setWidth 64
  let f := (v >>> pos).toNat % 2 ^ len
  if signed && 0 < len && 2 ^ (len - 1) ≤ f then BitVec.ofInt 32 ((f : Int) - 2 ^ len) else BitVec.ofNat 32 f

/-- BFI (R160): the length comes from SRCD under a prefix. -/
def bfiBits (a b e : Word) (w : Option Word) : Word :=
  let pos := min (bitsOf b.toNat 0 8) 32
  let len := match w with | some w => min (bitsOf w.toNat 0 8) 32 | none => min (bitsOf b.toNat 8 8) 32
  let m : Word := BitVec.ofNat 32 ((2 ^ len - 1) * 2 ^ pos)
  (e &&& ~~~m) ||| (BitVec.ofNat 32 (a.toNat * 2 ^ pos) &&& m)

def execBfx (c : Ctl) (t : ITy) (d a b : Opnd) (s : State) : Host.Outcome State Fault Refusal :=
  issueFixed (.bfx c t d a b) s fun x => x.bits2 t (fun p q => (bfxBits (t == .i32) (loOf p) (loOf q)).setWidth 64) d a b

/-- BFI with its three or four sources. -/
def Iss.insertField (x : Iss) (c : Ctl) (d a b e : Opnd) : Skein :=
  let w := c.pre.map fun p => p.srcd
  let ts := fun h => [x.tagOf true a h, x.tagOf false b h, x.tagOf false e h] ++
    (match w with | some o => [x.tagOf false o h] | none => [])
  x.put x.k (x.dstOf d) (fun h => tagU (ts h)) fun l => bfiBits (x.a32 a l) (x.b32 b l) (x.b32 e l) (w.map fun o => x.b32 o l)

def execBfi (c : Ctl) (d a b e : Opnd) (s : State) : Host.Outcome State Fault Refusal :=
  issueFixed (.bfi c d a b e) s fun x => x.insertField c d a b e

/-- The number of 1 bits below bit n. -/
def popBits (v : DWord) (n : Nat) : Nat := ((List.range n).filter fun i => v.getLsbD i).length
/-- Leading zeros of the low n bits. -/
def clzBits (v : DWord) (n : Nat) : Nat := ((List.range n).find? fun i => v.getLsbD (n - 1 - i)).getD n
/-- Trailing zeros of the low n bits. -/
def ctzBits (v : DWord) (n : Nat) : Nat := ((List.range n).find? fun i => v.getLsbD i).getD n
/-- The low n bits in reverse order. -/
def revBits (v : DWord) (n : Nat) : DWord :=
  (List.range n).foldl (fun r i => if v.getLsbD i then r ||| BitVec.ofNat 64 (2 ^ (n - 1 - i)) else r) 0

def execPopc (c : Ctl) (t : ITy) (d a : Opnd) (s : State) : Host.Outcome State Fault Refusal :=
  issueFixed (.popc c t d a) s fun x => x.bits1 t false (fun v => BitVec.ofNat 64 (popBits v (ITy.bits t))) d a
def execClz (c : Ctl) (t : ITy) (d a : Opnd) (s : State) : Host.Outcome State Fault Refusal :=
  issueFixed (.clz c t d a) s fun x => x.bits1 t false (fun v => BitVec.ofNat 64 (clzBits v (ITy.bits t))) d a
def execCtz (c : Ctl) (t : ITy) (d a : Opnd) (s : State) : Host.Outcome State Fault Refusal :=
  issueFixed (.ctz c t d a) s fun x => x.bits1 t false (fun v => BitVec.ofNat 64 (ctzBits v (ITy.bits t))) d a
def execBrev (c : Ctl) (t : ITy) (d a : Opnd) (s : State) : Host.Outcome State Fault Refusal :=
  issueFixed (.brev c t d a) s fun x => x.bits1 t (ITy.wide t) (fun v => revBits v (ITy.bits t)) d a

/-- BYTEP (R160). -/
def bytepBits (sel : BitVec 16) (a b : DWord) : DWord :=
  let v := pairOf (loOf a) (loOf b)
  ofBytes fun i =>
    let n := bitsOf sel.toNat (4 * i) 4
    let y := v.extractLsb' (8 * (n % 8)) 8
    if 8 ≤ n then (if y.getLsbD 7 then 0xFF else 0) else y.setWidth 64

def execBytep (c : Ctl) (sel : BitVec 16) (d a b : Opnd) (s : State) : Host.Outcome State Fault Refusal :=
  issueFixed (.bytep c sel d a b) s fun x => x.bits2 .i32 (bytepBits sel) d a b

/-- An integer condition (R146, R161). -/
def Cond.holds : Cond → Int → Int → Bool
  | .eq, a, b => a == b
  | .ne, a, b => a != b
  | .lt, a, b => decide (a < b)
  | .le, a, b => decide (a ≤ b)
  | .gt, a, b => decide (b < a)
  | .ge, a, b => decide (b ≤ a)

/-- A compare in a lane. -/
def Iss.compare (x : Iss) (cc : Cond) (t : ITy) (a b : Opnd) (l : Nat) : Bool :=
  Cond.holds cc (intVal t (x.opA a (ITy.wide t) l)) (intVal t (x.op b (ITy.wide t) l))

def execIcmp (c : Ctl) (cc : Cond) (t : ITy) (d a b : Opnd) (s : State) : Host.Outcome State Fault Refusal :=
  issueFixed (.icmp c cc t d a b) s fun x => x.putPred x.k d (x.compare cc t a b)
def execIset (c : Ctl) (cc : Cond) (t : ITy) (d a b : Opnd) (s : State) : Host.Outcome State Fault Refusal :=
  issueFixed (.iset c cc t d a b) s fun x =>
    x.put x.k (x.dstOf d) (fun h => tagU [x.tagOf true a h (ITy.wide t), x.tagOf false b h (ITy.wide t)])
      fun l => if x.compare cc t a b l then 1 else 0

/-- SEL (R161): it reads a predicate as data, so its result is G (R50). -/
def Iss.choose (x : Iss) (t : ITy) (neg : Bool) (d a b p : Opnd) : Skein :=
  let w := ITy.wide t
  let val := fun l => if (x.predOp p neg l).getLsbD 0 then x.opA a w l else x.op b w l
  x.putT t false d (fun _ => .g) (fun _ => .g) val

def execSel (c : Ctl) (t : ITy) (neg : Bool) (d a b p : Opnd) (s : State) : Host.Outcome State Fault Refusal :=
  issueFixed (.sel c t neg d a b p) s fun x => x.choose t neg d a b p
def execMov (c : Ctl) (t : ITy) (d a : Opnd) (s : State) : Host.Outcome State Fault Refusal :=
  issueFixed (.mov c t d a) s fun x => x.putT t false d (fun h => tagLin [x.tagOf true a h])
    (fun h => tagU [x.tagOf true a h]) fun l => x.opA a (ITy.wide t) l
def execMovi (c : Ctl) (t : ITy) (v : BitVec 24) (d : Opnd) (s : State) : Host.Outcome State Fault Refusal :=
  issueFixed (.movi c t v d) s fun x => x.putT t false d (fun _ => .u) (fun _ => .u) fun _ => v.signExtend 64
def execMovih (c : Ctl) (v : BitVec 16) (d a : Opnd) (s : State) : Host.Outcome State Fault Refusal :=
  issueFixed (.movih c v d a) s fun x =>
    x.put x.k (x.dstOf d) (fun h => tagU [x.tagOf true a h]) fun l => v ++ (x.a32 a l).extractLsb' 0 16
def execLea (c : Ctl) (sh : BitVec 3) (d a b : Opnd) (s : State) : Host.Outcome State Fault Refusal :=
  issueFixed (.lea c sh d a b) s fun x =>
    x.put x.k (x.dstOf d) (fun h => tagLin [x.tagOf true a h, x.tagOf false b h])
      fun l => x.a32 a l + (x.b32 b l <<< sh.toNat)
def execLea64 (c : Ctl) (t : ITy) (sh : BitVec 3) (d a b : Opnd) (s : State) : Host.Outcome State Fault Refusal :=
  issueFixed (.lea64 c t sh d a b) s fun x =>
    x.put64 x.k (x.dstOf d)
      fun l => x.opA a true l + ((if t == .n32 then (x.b32 b l).setWidth 64 else (x.b32 b l).signExtend 64) <<< sh.toNat)

/-- SPR (R46, R163): %lane and %rank are classified; the rest read as U, both halves of the tick from one sample. -/
def Iss.readSpecial (x : Iss) (t : ITy) (d a : Opnd) : Skein :=
  match a with
  | .spc i =>
    let n := i.val + 64
    let rd := fun m l => special x.s x.c x.q x.k m l
    if ITy.wide t then x.put (x.put x.k (x.dstOf d) (fun _ => .u) (rd n)) ((x.dstOf d).next 1) (fun _ => .u) (rd (n + 1))
    else if n = 64 || n = 67 then x.putClassed x.k (x.dstOf d) (rd n)
    else x.put x.k (x.dstOf d) (fun _ => .u) (rd n)
  | _ => x.k

def execSpr (c : Ctl) (t : ITy) (d a : Opnd) (s : State) : Host.Outcome State Fault Refusal :=
  issueFixed (.spr c t d a) s fun x => x.readSpecial t d a

/-- SPW (R163): the value of the lowest active lane, the RW fields only. -/
def Iss.writeSpecial (x : Iss) (d a : Opnd) : Skein :=
  match x.low, d with
  | some l, .spc i =>
    let v := x.a32 a l
    match i.val + 64 with
    | 74 => x.setPart x.k v.toNat
    | 76 => { x.k with fflags := v.setWidth 5 }
    | 77 => { x.k with vx := v &&& 0x1FF }
    | _ => x.k
  | _, _ => x.k

def execSpw (c : Ctl) (d a : Opnd) (s : State) : Host.Outcome State Fault Refusal :=
  issueFixed (.spw c d a) s fun x => x.writeSpecial d a

/-- VTAG (R49, R163): the tag of the register after IX, itself tagged U; each half of a twin reads its own. -/
def Iss.readTag (x : Iss) (d a : Opnd) : Skein :=
  match a with
  | .vec i => x.put x.k (x.dstOf d) (fun _ => .u) fun l =>
      BitVec.ofNat 32 (x.k.reg (l / 32) (i.toNat + x.ixAdd false)).tag
  | _ => x.k

def execVtag (c : Ctl) (d a : Opnd) (s : State) : Host.Outcome State Fault Refusal :=
  issueFixed (.vtag c d a) s fun x => x.readTag d a

/-- SETIX (R163). -/
def Iss.setIndex (x : Iss) (tgt : Bool) (a : Opnd) : Skein :=
  match x.low with
  | some l => { x.k with vx := (BitVec.ofBool tgt ++ (x.a32 a l).extractLsb' 0 8 : BitVec 9).setWidth 32 }
  | none => x.k

def execSetix (c : Ctl) (tgt : Bool) (a : Opnd) (s : State) : Host.Outcome State Fault Refusal :=
  issueFixed (.setix c tgt a) s fun x => x.setIndex tgt a

end Sys2Proof.Machine
end

