-- ==== Sys2Proof/Machine/Redundant.lean ====
section
/-! DEFINITION. Redundant pairs (R405 to R408): the comparison of buffered stores and of comparison points, checkpoints, and the
return to one after a mismatch; the injected flip (R420). -/

namespace Sys2Proof.Machine

/-! ### What is compared (R406, R407) -/

/-- The skein of a lot that runs a lot skein, with its core and slot. -/
def State.pairSkein (s : State) (n k : Nat) : Option (Nat × Nat × Skein) :=
  (s.skeins.find? fun e => e.2.lot == n && e.2.lotSkein == k).map fun e => (e.1 / 64, e.1 % 64, e.2)

/-- The instruction at which a skein stands, with what it sees. -/
def State.standing (s : State) (c q : Nat) (k : Skein) : Option (Instr × Iss) :=
  match k.park, k.cur with
  | none, some pc =>
    if !k.runnable pc then none
    else match s.fetch c q k pc with
      | .words [w0, w1, w2, w3] => match decodeWords w0 w1 w2 w3 with
        | .ok i _ => i.toFields.map fun f => (i, issOf s c q k pc f)
        | .bad .. => none
      | _ => none
  | _, _ => none

/-- A skein stands at a comparison point that has not been compared. -/
def State.atPoint (s : State) (c q : Nat) (k : Skein) : Option (Instr × Iss) :=
  match s.standing c q k with
  | some (i, x) => if comparePoint i && !k.cmpOk then some (i, x) else none
  | none => none

/-- The stores of two buffers agree: address, data and lane mask. -/
def CmpEntry.agrees (a b : CmpEntry) : Bool :=
  a.i == b.i && a.mask == b.mask && (laneList a.mask).all fun l =>
    a.addrs[l]? == b.addrs[l]? && a.data[2 * l]? == b.data[2 * l]? && a.data[2 * l + 1]? == b.data[2 * l + 1]?

/-- A word that an instruction reads, in a lane: registers as `Skein.bad` numbers them. -/
def Iss.readWord (x : Iss) (r l : Nat) : Word :=
  if r < 256 then x.k.vlane r l else if r < 512 then x.k.scalar (r - 256) else (x.k.predWord l).setWidth 32

/-- Two comparison points agree: RETIRED, the instruction, its lanes, its operands, and every register that it reads, such as a copy's block
or the words that CPYM carries. -/
def pointsAgree (a b : Instr × Iss) : Bool :=
  a.1 == b.1 && a.2.k.retired == b.2.k.retired && a.2.act == b.2.act && a.2.batch == b.2.batch && a.2.info.opnds == b.2.info.opnds &&
    (laneList a.2.act).all fun l => a.2.reads.all fun r => a.2.readWord r l == b.2.readWord r l

/-! ### Checkpoints (R407) -/

/-- A lot at a moment at which a checkpoint of it can be taken: every result has returned, no copy is on its way and no k-step. -/
def State.ckptReady (s : State) (n : Nat) : Bool :=
  (s.skeins.all fun e => e.2.lot != n || e.2.pend.all fun p => p.returned) &&
    ((amVals s.copies).all fun x => x.lot != n || x.stage != .started) &&
    (s.core (s.lot n).core).cmds.all fun m => m.lot != n || !(m.started && m.charged)

/-- The checkpoint of a lot as it stands, its returned results with it. -/
def State.checkpoint (s : State) (n : Nat) : Saved :=
  { s.context n with
      lot := s.lot n
      skeins := ((s.skeins.filter fun e => e.2.lot == n).map fun e => (e.1 % 64, e.2)).foldl insSkein [] }

/-- A checkpoint of the leading lot is written to the context heap; the pair fails where it cannot be. -/
def State.writeCheckpoint (s : State) (n : Nat) : State :=
  let x := s.checkpoint n
  let t : State := { s with ckpts := amErase s.ckpts n }
  let bs := s.contextBytes n x (s.liveOf x.lot.core x) 0
  let size := pad128 bs.length
  match t.heapFind x.part size 128 [] with
  | none => s.failLot n 0x86 0
  | some a =>
    if (t.writeCause x.part a size).isSome then s.failLot n 0x86 0
    else
      let t := t.homeWrite x.part a bs none
      let t := { t with ckpts := amPut t.ckpts n { x with area := a, size := size } }
      t.updLot n fun l => { l with ckDue := [], retries := 0 }

/-! ### The return to a checkpoint (R408) -/

/-- A skein of a checkpoint in the place of the skein that runs it now. -/
def Skein.back (old now : Skein) (n : Nat) : Skein :=
  { old with
      lot := n, base := now.base, base2 := now.base2, wid := now.wid, cmpOk := false, fetched := [], watch := none, relWait := none
      lanes := old.lanes.map fun f => f.map fun f => { f with lot := n } }

/-- A lot of a pair as the checkpoint has it. -/
def Lot.back (old now : Lot) : Lot :=
  { old with
      core := now.core, status := now.status, role := now.role, partner := now.partner, slots := now.slots, row0 := now.row0
      cleared := now.cleared, block := now.block, act := now.act, freeAt := now.freeAt, firstIssue := now.firstIssue
      dispatched := now.dispatched, elapsed0 := now.elapsed0, mism := now.mism, retries := now.retries, started := now.started
      cmp := [], fwd := [], ckDue := [] }

/-- One lot of a pair returns to the checkpoint: skeins and allocation, and of the leading lot, which alone performs them, the queued commands
and the tiles (R407). -/
def State.backTo (s : State) (n : Nat) (x : Saved) : State :=
  let l := s.lot n
  let lead := l.role == .leading
  let slot := fun (q : Nat) => match x.skeins.find? fun e => e.1 == q with
    | some e => ((s.pairSkein n e.2.lotSkein).map fun p => p.2.1).getD q
    | none => q
  let put := fun (k : Skein) => match x.skeins.find? fun e => e.2.lotSkein == k.lotSkein with
    | some e => e.2.back k n
    | none => k
  let move := fun (m : MCmd) => { m with slot := slot m.slot, iq := slot m.slot % 4 }
  let copies : List Copy := if lead then x.copies.map fun (y : Copy) => { y with slot := slot y.slot, mma := y.mma.map move } else []
  let cmds : List MCmd := if lead then x.cmds.map move else []
  let s := { s with skeins := amMap (fun _ (k : Skein) => if k.lot == n then put k else k) s.skeins
                    spawns := s.spawns.filter fun e => !(e.core == l.core && l.slots.contains e.slot)
                    copies := copies.foldl (fun m (y : Copy) => amPut m y.id y) (s.copies.filter fun e => e.2.lot != n) }
  let s := (s.countStall l.core).updCore l.core fun k =>
    { k with cmds := (k.cmds.filter fun m => m.lot != n) ++ cmds.mapIdx fun i (m : MCmd) =>
               { m with entry := k.entry + i, started := m.stopReq, stopReq := false }
             entry := k.entry + cmds.length
             tiles := if k.owner == some n then x.tiles.foldl (fun ts e => ts.set e.1 e.2) (List.replicate 4 defaultTile) else k.tiles }
  s.updLot n fun l => x.lot.back l

/-- A mismatch (R408): both lots return to the last checkpoint and an entry is written; the third without a new checkpoint, or a
checkpoint that cannot be read, fails the pair. -/
def State.mismatch (s : State) (n m : Nat) : State :=
  let l := s.lot n
  let ln := s.launch l.launch
  match amGet s.ckpts n with
  | none => s.failLot n 0x86 0
  | some x =>
    if x.size != 0 && (s.readCause x.part x.area x.size).isSome then s.failLot n 0x86 0
    else if 2 ≤ l.retries then s.failLot n 0x87 0
    else
      let s := s.updLot n fun l => { l with retries := l.retries + 1, mism := l.mism + 1 }
      let s := (s.backTo n x).backTo m x
      s.failEntry ln.part ln.slotAddr l.idx 0x86 2 l.die (l.core % 64) (l.mism + 1) 0 0

/-! ### The comparison -/

/-- The leading store of a matched pair is performed, and both leave their buffers (R406). -/
def State.release (s : State) (n m c q : Nat) (k : Skein) (a b : CmpEntry) : State :=
  let p : PStore :=
    { seq := (s.core c).storeSeq, slot := q, lot := n, i := a.i, info := a.info, addrs := a.addrs, data := a.data, left := a.mask, half := 0
      done := 0, replay := 0, stamps := a.stamps, causes := [], hold := false, wid := k.wid, ord := false, order := 0 }
  ((s.accept c p).updLot n fun l => { l with cmp := l.cmp.erase a }).updLot m fun l => { l with cmp := l.cmp.erase b }

/-- A comparison point matched: both skeins issue it; a checkpoint may be due after 4,096 instructions (R407). -/
def State.passPoint (s : State) (n m k : Nat) : State :=
  let s := { s with skeins := amMap (fun _ (x : Skein) =>
    if (x.lot == n || x.lot == m) && x.lotSkein == k then { x with cmpOk := true } else x) s.skeins }
  let last := match amGet s.ckpts n with | some x => x.lot.retiredCnt | none => 0
  s.updLot n fun l => if last + 4096 ≤ l.retiredCnt && l.cmp.isEmpty then { l with ckDue := insNat l.ckDue k } else l

/-- REDUNDANT_COMPARE (R406, R407): the next stores of a lot skein in both buffers, or its comparison point; a checkpoint that is
due first. -/
def execRedundantCompare (n k : Nat) (s : State) : Host.Outcome State Fault Refusal :=
  let l := s.lot n
  match l.role, l.partner, s.pairSkein n k with
  | .leading, some m, some (c, q, a) =>
    if !l.resident || !(s.lot m).resident then .next s
    else if l.ckDue != [] then (if l.cmp.isEmpty && s.ckptReady n then .next (s.writeCheckpoint n) else .next s)
    else match s.pairSkein m k with
      | none => .next s
      | some (c', q', b) =>
        match l.cmp.find? fun e => e.lotSkein == k, (s.lot m).cmp.find? fun e => e.lotSkein == k with
        | some x, some y => if x.agrees y then .next (s.release n m c q a x y) else .next (s.mismatch n m)
        | x, y => match s.atPoint c q a, s.atPoint c' q' b with
          | some i, some j => if x.isNone && y.isNone && pointsAgree i j then .next (s.passPoint n m k) else .next (s.mismatch n m)
          | _, _ => .next s
  | _, _, _ => .next s

/-! ### The injected flip (R420) -/

/-- The skein that has come to the count first among those of a partition in which the flip is due. -/
def State.flipSkein (s : State) (part : Nat) : Option (Nat × Skein) :=
  (s.skeins.filter fun e => s.partOf (s.lotOf e.2) == part && s.flipDue e.2).foldl (fun b e => match b with
    | some f => if e.2.lastIssue.getD 0 < f.2.lastIssue.getD 0 then some e else b
    | none => some e) none

/-- INJECTION_FLIP: a bit of a lane of a register of the named skein, like a fixed-latency result whose source is the register itself (R50);
ARM clears. -/
def execInjectionFlip (part : Nat) (s : State) : Host.Outcome State Fault Refusal :=
  let w := injectWord part
  match s.flipSkein part with
  | none => .next s
  | some (key, k) =>
    let r := s.fld w 12 8
    let lane := s.fld w 7 5
    let act : Lanes := BitVec.ofNat 64 (2 ^ lane)
    let t := s.setFld w 0 1 0
    if k.window ≤ r then .next t
    else
      let v : Word := k.vlane r lane ^^^ BitVec.ofNat 32 (2 ^ s.fld w 20 5)
      let tag : Nat → TagR := fun h => if (k.reg h r).tag == 0 then .u else .g
      .next ((t.setSkein (key / 64) (key % 64) ((k.supersede (.vec r) act).writeFixed r act 0 tag fun _ => v)).dropLatch
        (key / 64) (key % 64) [r])

end Sys2Proof.Machine
end

