-- ==== Sys2Proof/Machine/Observe.lean ====
section
/-! DEFINITION. Observation and damage: PC samples (R328, R415), memory samples (R329), dumps (R409 to R411), and soft errors
(R364, R365, R381, R390, R394). -/

namespace Sys2Proof.Machine

/-! ### PC samples (R328, R415) -/

/-- PC_SAMPLE: the oldest sample of a core that has been taken is written, for the partition that has its die. -/
def execPcSample (c : Nat) (s : State) : Host.Outcome State Fault Refusal :=
  match (s.core c).due with
  | [] => .next s
  | d :: ds =>
    let t := s.updCore c fun k => { k with due := ds }
    .next (match s.ownerOfDie (c / 64) with
      | some part => t.sampleRecord part d.tick d.pc.toNat 0 0 c d.slot 0 d.state
      | none => t)

/-! ### Memory samples (R329) -/

/-- The die at whose hub attachment a request of a die reaches a hub: 0 or 4 for hub 0, 3 or 7 for hub 1 (R93). -/
def attached (die : Nat) (hub1 : Bool) : Bool := if hub1 then die % 4 == 3 else die % 4 == 0

/-- The queueing times of a request: how long at a hop is open; a hop that it did not pass reads 0. One that the core served itself passed no
other; one for far memory passes the hub and no slice or memory controller of a die; a hit in L2 passes no memory controller (R93, R329,
log entry 2). -/
def State.hops (s : State) (c part : Nat) (m : Sample) : Nat :=
  let pa := match s.xlate c part m.line false false with | .ok x => some x.pa | .bad .. => none
  let far := pa.any isFar
  let near := match pa with
    | some p => if isFar p then attached (c / 64) (hubOf p) else stackOf p == c / 64
    | none => true
  let out := m.served != some 0
  let passed : Nat → Bool := fun i => match i with
    | 0 => true
    | 1 => out && pa.isSome && !far
    | 2 => out && pa.isSome
    | 3 => out && !near
    | 4 => out && far
    | _ => out && pa.isSome && !far && m.served != some 1
  (List.range 6).foldl (fun n i =>
    n + (if passed i then min 65535 (Config.queueing s.choices i) else 0) * 2 ^ (16 * i)) 0

/-- The instruction of a sampled request has not returned. -/
def State.sampleOut (s : State) (c : Nat) (m : Sample) : Bool :=
  (match s.skein c m.slot with
    | some k => k.pend.any fun p => p.seq == m.order && p.info.tick == m.tick && !p.returned
    | none => false) ||
  (s.core c).stores.any fun p => p.slot == m.slot && p.order == m.order && p.info.tick == m.tick

/-- MEMORY_SAMPLE: a sampled request that has returned is written, for the partition that has its die. -/
def execMemorySample (c : Nat) (s : State) : Host.Outcome State Fault Refusal :=
  match (s.core c).samples.find? fun m => !s.sampleOut c m with
  | none => .next s
  | some m =>
    let t := s.updCore c fun k => { k with samples := k.samples.erase m }
    .next (match s.ownerOfDie (c / 64) with
      | some part => t.sampleRecord part m.tick m.pc.toNat (s.hops c part m) 0 c m.slot 1 0
      | none => t)

/-! ### Dumps (R409 to R411) -/

/-- A header of a dump, or of a secondary record in it, with the code, the tick and the `%lot` of its fault. -/
def dumpHeader (d : Dump) (code tick lotIdx second bytes : Nat) (trunc : Bool) : List Byte :=
  leBytes (packFields [(0, 0xD0D0), (16, if trunc then 1 else 0), (24, second % 256), (32, code % 256), (64, bytes % 2 ^ 32),
    (96, lotIdx % 2 ^ 32), (128, d.slotAddr % 2 ^ 64), (192, tick % 2 ^ 64)]) 64

/-- The machine as the contexts of a dump are read in it: with its lots, its launch and its copies as they stood when the unit failed. -/
def State.asOf (s : State) (d : Dump) : State :=
  d.ctx.foldl (fun s x =>
    { s with lots := amPut s.lots (lotKey x.lot.launch x.lot.role.code x.lot.idx) x.lot
             launches := amPut s.launches x.lot.launch d.ln
             copies := x.copies.foldl (fun m y => amPut m y.id y) s.copies }) s

/-- The contexts of a dump from an address on, each header naming the next (R309, R410). -/
def State.dumpContexts (s : State) : Nat → List Saved → List Byte
  | _, [] => []
  | a, x :: xs =>
    let n := lotKey x.lot.launch x.lot.role.code x.lot.idx
    let body := fun next => s.contextBytes n x (s.liveOf x.lot.core x) next
    let len := pad128 (body 0).length
    let bs := body (if xs.isEmpty then 0 else a + len)
    bs ++ List.replicate (len - bs.length) 0 ++ State.dumpContexts s (a + len) xs

/-- What follows the header of a dump that begins at an address: the frame, the contexts, the secondary records. -/
def State.dumpBody (s : State) (d : Dump) (a : Nat) : List Byte :=
  d.image ++ (s.asOf d).dumpContexts (a + 64 + d.image.length) d.ctx ++
    (d.second.mapIdx fun i e => dumpHeader d e.1 e.2.1 e.2.2.1 (i + 1) 2112 false ++ e.2.2.2).flatten

/-- DUMP_WRITE (R410): the oldest dump of a partition goes behind the one before, or at BASE where it does not fit; then DONE
advances. -/
def execDumpWrite (part : Nat) (s : State) : Host.Outcome State Fault Refusal :=
  match s.dumps.find? fun d => d.part == part with
  | none => .next s
  | some d =>
    let blk := dumpBlock part
    let area := 1048576 * s.fld blk 16 8
    let start := (s.rd (blk + 8)).toNat
    let bytes := 64 + (s.dumpBody d start).length
    let at' := (amGet s.dumpPos part).getD 0
    let pos := if at' + bytes ≤ area then at' else 0
    let trunc := decide (area < bytes)
    let s := s.homeWrite part (start + pos + 64) ((s.dumpBody d (start + pos)).take (area - 64)) none
    let s := s.homeWrite part (start + pos) (dumpHeader d d.code d.tick d.lotIdx d.second.length bytes trunc) none
    let s := { s with dumps := s.dumps.erase d, dumpPos := amPut s.dumpPos part (if trunc then area else pos + bytes) }
    .next ((s.setFld blk 32 32 ((s.fld blk 32 32 + 1) % 2 ^ 32)).dumpsQueued part)

/-! ### Soft errors (R364, R365, R381, R390, R394) -/

/-- Bits of a register word flip (R364): a bit that flips twice stands as it was. -/
def State.regError (s : State) (c q code lane : Nat) (b : Word) : State :=
  s.updSkein c q fun k =>
    let old : Word := ((k.bad.find? fun e => e.1 == code && e.2.1 == lane).map fun e => e.2.2).getD 0
    let rest := k.bad.filter fun e => !(e.1 == code && e.2.1 == lane)
    { k with bad := if old ^^^ b == 0 then rest else (code, lane, old ^^^ b) :: rest }

/-- The instruction that a skein issues next reads a vector register. -/
def State.operand (s : State) (c q : Nat) (k : Skein) (r : Nat) : Option Iss :=
  match s.standing c q k with
  | some (_, x) => if x.reads.contains r then some x else none
  | none => none

/-- A latch entry fails parity (R365): it is dropped, and its operand is read from its bank. Where the same operand of the same instruction has
failed before, the lot fails; DETAIL holds the register (R355). -/
def State.latchFail (s : State) (c q r : Nat) : State :=
  let slot := ((s.core c).iq[q % 4]?).getD default
  if !slot.latch.any fun e => e.slot == q && e.reg == r then
    match s.skein c q with
    | some k => match s.operand c q k r with
      | some x => if slot.erred == some (q, r, k.retired)
          then s.deliver c q ⟨x.info, 0x15, r, x.act, 0, 0, false, none, k.seq, []⟩ [] else s
      | none => s
    | none => s
  else
    let t := s.dropLatch c q [r]
    match s.skein c q with
    | some k => match s.operand c q k r with
      | some _ => t.updCore c fun u => { u with iq := u.iq.mapIdx fun i e => if i == q % 4 then { e with erred := some (q, r, k.retired) } else e }
      | none => t
    | none => t

/-- LEVEL fails parity (R394): it reads 0, and the refills from now on fill it. -/
def State.levelFail (s : State) (c : Nat) : State :=
  ((s.refillCore c).updCore c fun u => { u with level := 0 }).awaitBudget c

/-- A flipped bit of a sector or a scratchpad word that SECDED corrects is counted (R381), by the counter of corrected errors of a core: of a
sector that of the first core of its stack's die (log entry 77). -/
def State.corrected (s : State) (c : Nat) : State := s.count (eccCounter c) 1

/-- SOFT_ERROR. -/
def execSoftError (t : SoftTarget) (s : State) : Host.Outcome State Fault Refusal :=
  match t with
  | .vreg c q lane r b => .next (s.regError c q r lane b)
  | .sreg c q r b => .next (s.regError c q (256 + r) 0 b)
  | .tag c q r h w b => .next (s.regError c q (1024 + 4 * r + 2 * (h % 2) + w % 2) 0 b)
  | .preds c q lane b => .next (s.regError c q 512 lane (b.setWidth 32))
  | .latch c q r => .next (s.latchFail c q r)
  | .scratch n w b => .next (if 2 ≤ ones b then s.updLot n fun l => { l with poison := insNat l.poison w }
      else if ones b = 1 then s.corrected (s.lot n).core else s)
  | .sector pa b => .next (if 2 ≤ ones b then { s with poison := insNat s.poison (pa / 16) }
      else if ones b = 1 then s.corrected (64 * stackOf pa) else s)
  | .elem c tl i j b =>
    let flip := fun (n : Nat) (e : Tile) => if n == tl then e.setElem i j (e.elem i j ^^^ b) else e
    .next (s.updCore c fun u => { u with tiles := u.tiles.mapIdx flip })
  | .level c => .next (s.levelFail c)
  | .staging c n => match s.shuffles.find? fun h => h.core == c && h.launch == n with
    | some h => .next (s.domainBad h)
    | none => .next s

end Sys2Proof.Machine
end

