-- ==== Sys2Proof/Machine/Dispatch.lean ====
section
/-! DEFINITION. One arm per constructor of `Instr`: the direct call of its meaning. -/

namespace Sys2Proof.Machine
open Sys2Proof

def exec (i : Instr) (s : State) : Host.Outcome State Fault Refusal :=
  match i with
  | .iadd c t sat d a b => Sys2Proof.Machine.execIadd c t sat d a b s
  | .isub c t sat d a b => Sys2Proof.Machine.execIsub c t sat d a b s
  | .iaddc c t ci co d a b => Sys2Proof.Machine.execIaddc c t ci co d a b s
  | .imul c t sat d a b => Sys2Proof.Machine.execImul c t sat d a b s
  | .imulh c t d a b => Sys2Proof.Machine.execImulh c t d a b s
  | .imad c t sat d a b e => Sys2Proof.Machine.execImad c t sat d a b e s
  | .imadw c t d a b e => Sys2Proof.Machine.execImadw c t d a b e s
  | .imin c t d a b => Sys2Proof.Machine.execImin c t d a b s
  | .imax c t d a b => Sys2Proof.Machine.execImax c t d a b s
  | .iabs c t sat d a => Sys2Proof.Machine.execIabs c t sat d a s
  | .ineg c t sat d a => Sys2Proof.Machine.execIneg c t sat d a s
  | .and c t d a b => Sys2Proof.Machine.execAnd c t d a b s
  | .or c t d a b => Sys2Proof.Machine.execOr c t d a b s
  | .xor c t d a b => Sys2Proof.Machine.execXor c t d a b s
  | .not c t d a => Sys2Proof.Machine.execNot c t d a s
  | .bool3 c t tbl d a b e => Sys2Proof.Machine.execBool3 c t tbl d a b e s
  | .shl c t d a b => Sys2Proof.Machine.execShl c t d a b s
  | .shr c t d a b => Sys2Proof.Machine.execShr c t d a b s
  | .sar c t d a b => Sys2Proof.Machine.execSar c t d a b s
  | .rotl c t d a b => Sys2Proof.Machine.execRotl c t d a b s
  | .fshf c right t d a b e => Sys2Proof.Machine.execFshf c right t d a b e s
  | .bfx c t d a b => Sys2Proof.Machine.execBfx c t d a b s
  | .bfi c d a b e => Sys2Proof.Machine.execBfi c d a b e s
  | .popc c t d a => Sys2Proof.Machine.execPopc c t d a s
  | .clz c t d a => Sys2Proof.Machine.execClz c t d a s
  | .ctz c t d a => Sys2Proof.Machine.execCtz c t d a s
  | .brev c t d a => Sys2Proof.Machine.execBrev c t d a s
  | .bytep c sel d a b => Sys2Proof.Machine.execBytep c sel d a b s
  | .icmp c cc t d a b => Sys2Proof.Machine.execIcmp c cc t d a b s
  | .iset c cc t d a b => Sys2Proof.Machine.execIset c cc t d a b s
  | .sel c t neg d a b p => Sys2Proof.Machine.execSel c t neg d a b p s
  | .mov c t d a => Sys2Proof.Machine.execMov c t d a s
  | .movi c t v d => Sys2Proof.Machine.execMovi c t v d s
  | .movih c v d a => Sys2Proof.Machine.execMovih c v d a s
  | .lea c sh d a b => Sys2Proof.Machine.execLea c sh d a b s
  | .lea64 c t sh d a b => Sys2Proof.Machine.execLea64 c t sh d a b s
  | .spr c t d a => Sys2Proof.Machine.execSpr c t d a s
  | .spw c d a => Sys2Proof.Machine.execSpw c d a s
  | .vtag c d a => Sys2Proof.Machine.execVtag c d a s
  | .setix c tgt a => Sys2Proof.Machine.execSetix c tgt a s
  | .pand c na nb d a b => Sys2Proof.Machine.execPand c na nb d a b s
  | .por c na nb d a b => Sys2Proof.Machine.execPor c na nb d a b s
  | .pxor c na nb d a b => Sys2Proof.Machine.execPxor c na nb d a b s
  | .pnot c na d a => Sys2Proof.Machine.execPnot c na d a s
  | .pmov c na d a => Sys2Proof.Machine.execPmov c na d a s
  | .bra c off => Sys2Proof.Machine.execBra c off s
  | .brx c a => Sys2Proof.Machine.execBrx c a s
  | .call c off d => Sys2Proof.Machine.execCall c off d s
  | .callx c d a => Sys2Proof.Machine.execCallx c d a s
  | .ret c a => Sys2Proof.Machine.execRet c a s
  | .exit c => Sys2Proof.Machine.execExit c s
  | .yield c => Sys2Proof.Machine.execYield c s
  | .nop c => Sys2Proof.Machine.execNop c s
  | .conv c => Sys2Proof.Machine.execConv c s
  | .fnew c off d a b => Sys2Proof.Machine.execFnew c off d a b s
  | .elect c last d => Sys2Proof.Machine.execElect c last d s
  | .regrp c a => Sys2Proof.Machine.execRegrp c a s
  | .spawn c off d a b => Sys2Proof.Machine.execSpawn c off d a b s
  | .joinc c off a b => Sys2Proof.Machine.execJoinc c off a b s
  | .idmb c => Sys2Proof.Machine.execIdmb c s
  | .idme c => Sys2Proof.Machine.execIdme c s
  | .fadd c t r d a b => Sys2Proof.Machine.execFadd c t r d a b s
  | .fsub c t r d a b => Sys2Proof.Machine.execFsub c t r d a b s
  | .fmul c t r d a b => Sys2Proof.Machine.execFmul c t r d a b s
  | .ffma c t r d a b e => Sys2Proof.Machine.execFfma c t r d a b e s
  | .fmin c t d a b => Sys2Proof.Machine.execFmin c t d a b s
  | .fmax c t d a b => Sys2Proof.Machine.execFmax c t d a b s
  | .fminm c t d a b => Sys2Proof.Machine.execFminm c t d a b s
  | .fmaxm c t d a b => Sys2Proof.Machine.execFmaxm c t d a b s
  | .fcmp c cc t d a b => Sys2Proof.Machine.execFcmp c cc t d a b s
  | .fset c cc t d a b => Sys2Proof.Machine.execFset c cc t d a b s
  | .frnd c t r x d a => Sys2Proof.Machine.execFrnd c t r x d a s
  | .fclass c t d a => Sys2Proof.Machine.execFclass c t d a s
  | .fscl c t r d a b => Sys2Proof.Machine.execFscl c t r d a b s
  | .fext c sig t d a => Sys2Proof.Machine.execFext c sig t d a s
  | .cmul c r cja d a b => Sys2Proof.Machine.execCmul c r cja d a b s
  | .cfma c r cja d a b e => Sys2Proof.Machine.execCfma c r cja d a b e s
  | .vdot2 c t r d a b e => Sys2Proof.Machine.execVdot2 c t r d a b e s
  | .vdot4 c ua ub sat d a b e => Sys2Proof.Machine.execVdot4 c ua ub sat d a b e s
  | .rcp c t r d a => Sys2Proof.Machine.execRcp c t r d a s
  | .rsq c t d a => Sys2Proof.Machine.execRsq c t d a s
  | .sqrt c t r d a => Sys2Proof.Machine.execSqrt c t r d a s
  | .exp2 c t d a => Sys2Proof.Machine.execExp2 c t d a s
  | .log2 c t d a => Sys2Proof.Machine.execLog2 c t d a s
  | .sinp c t d a => Sys2Proof.Machine.execSinp c t d a s
  | .cosp c t d a => Sys2Proof.Machine.execCosp c t d a s
  | .tanh c t d a => Sys2Proof.Machine.execTanh c t d a s
  | .welf c r d a => Sys2Proof.Machine.execWelf c r d a s
  | .wmrg c r d a => Sys2Proof.Machine.execWmrg c r d a s
  | .cvt c df sf r d a b => Sys2Proof.Machine.execCvt c df sf r d a b s
  | .cvts c df sf r d a b => Sys2Proof.Machine.execCvts c df sf r d a b s
  | .srseed c a => Sys2Proof.Machine.execSrseed c a s
  | .packf c t r hi d a b => Sys2Proof.Machine.execPackf c t r hi d a b s
  | .unpkf c t q d a => Sys2Proof.Machine.execUnpkf c t q d a s
  | .bsinit c d a w => Sys2Proof.Machine.execBsinit c d a w s
  | .bsrd c signed d a b => Sys2Proof.Machine.execBsrd c signed d a b s
  | .part c a => Sys2Proof.Machine.execPart c a s
  | .vote c m wide neg mask d a => Sys2Proof.Machine.execVote c m wide neg mask d a s
  | .shfl c m wide wrap pf mask d a b => Sys2Proof.Machine.execShfl c m wide wrap pf mask d a b s
  | .mtch c one wide mask d a => Sys2Proof.Machine.execMtch c one wide mask d a s
  | .redux c o t mask d a => Sys2Proof.Machine.execRedux c o t mask d a s
  | .scan c o t excl mask d a => Sys2Proof.Machine.execScan c o t excl mask d a s
  | .ld c m off d a => Sys2Proof.Machine.execLd c m off d a s
  | .ldFmt c cache off d a => Sys2Proof.Machine.execLdFmt c cache off d a s
  | .lds c m off d a => Sys2Proof.Machine.execLds c m off d a s
  | .ldd c m off d a => Sys2Proof.Machine.execLdd c m off d a s
  | .ldc c m off d a => Sys2Proof.Machine.execLdc c m off d a s
  | .ldl c m off d a => Sys2Proof.Machine.execLdl c m off d a s
  | .pref c l1 off a => Sys2Proof.Machine.execPref c l1 off a s
  | .st c m off a b => Sys2Proof.Machine.execSt c m off a b s
  | .sts c m off a b => Sys2Proof.Machine.execSts c m off a b s
  | .std c m off a b => Sys2Proof.Machine.execStd c m off a b s
  | .stl c m off a b => Sys2Proof.Machine.execStl c m off a b s
  | .atom c m d a x => Sys2Proof.Machine.execAtom c m d a x s
  | .atoms c m die d a x => Sys2Proof.Machine.execAtoms c m die d a x s
  | .red c o m off a b => Sys2Proof.Machine.execRed c o m off a b s
  | .fence c ord scope => Sys2Proof.Machine.execFence c ord scope s
  | .cctl c o off a b => Sys2Proof.Machine.execCctl c o off a b s
  | .mon c scratch off a => Sys2Proof.Machine.execMon c scratch off a s
  | .mwait c => Sys2Proof.Machine.execMwait c s
  | .bar c scope => Sys2Proof.Machine.execBar c scope s
  | .nbar c id arv => Sys2Proof.Machine.execNbar c id arv s
  | .binit c die off a b => Sys2Proof.Machine.execBinit c die off a b s
  | .barv c die off a => Sys2Proof.Machine.execBarv c die off a s
  | .bexp c die off a b => Sys2Proof.Machine.execBexp c die off a b s
  | .bwait c die off a b => Sys2Proof.Machine.execBwait c die off a b s
  | .btest c die off d a b => Sys2Proof.Machine.execBtest c die off d a b s
  | .tlwt c pod off a b => Sys2Proof.Machine.execTlwt c pod off a b s
  | .tlrd c pod off d a => Sys2Proof.Machine.execTlrd c pod off d a s
  | .tladv c pod off a b => Sys2Proof.Machine.execTladv c pod off a b s
  | .shape c slot off a => Sys2Proof.Machine.execShape c slot off a s
  | .cpy c m x a b => Sys2Proof.Machine.execCpy c m x a b s
  | .cpyUnz c d a b => Sys2Proof.Machine.execCpyUnz c d a b s
  | .cpyg c dec x a b => Sys2Proof.Machine.execCpyg c dec x a b s
  | .cpym c x d a b => Sys2Proof.Machine.execCpym c x d a b s
  | .seal c => Sys2Proof.Machine.execSeal c s
  | .cpwt c a => Sys2Proof.Machine.execCpwt c a s
  | .qsrch c off a => Sys2Proof.Machine.execQsrch c off a s
  | .qstat c off d a => Sys2Proof.Machine.execQstat c off d a s
  | .land c t off a b => Sys2Proof.Machine.execLand c t off a b s
  | .landf c off a => Sys2Proof.Machine.execLandf c off a s
  | .mzero c int tile => Sys2Proof.Machine.execMzero c int tile s
  | .mlda c int tile n a b => Sys2Proof.Machine.execMlda c int tile n a b s
  | .msta c tile n d a => Sys2Proof.Machine.execMsta c tile n d a s
  | .mma c x a b => Sys2Proof.Machine.execMma c x a b s
  | .mckpt c tile d a => Sys2Proof.Machine.execMckpt c tile d a s
  | .mbud c d => Sys2Proof.Machine.execMbud c d s
  | .trap c n => Sys2Proof.Machine.execTrap c n s
  | .tret c a => Sys2Proof.Machine.execTret c a s
  | .brk c => Sys2Proof.Machine.execBrk c s
  | .regrpShuffleDone core launch => Sys2Proof.Machine.execRegrpShuffleDone core launch s
  | .barrierRelease b => Sys2Proof.Machine.execBarrierRelease b s
  | .longLatencyReturn core slot seq => Sys2Proof.Machine.execLongLatencyReturn core slot seq s
  | .stallExpiry core slot => Sys2Proof.Machine.execStallExpiry core slot s
  | .issueSlotSwitch core iq => Sys2Proof.Machine.execIssueSlotSwitch core iq s
  | .releaseWaitDone core slot => Sys2Proof.Machine.execReleaseWaitDone core slot s
  | .allocationClear lot => Sys2Proof.Machine.execAllocationClear lot s
  | .carveOutHandover core => Sys2Proof.Machine.execCarveOutHandover core s
  | .storeAck core seq => Sys2Proof.Machine.execStoreAck core seq s
  | .monitorTrigger core slot => Sys2Proof.Machine.execMonitorTrigger core slot s
  | .walkComplete r va => Sys2Proof.Machine.execWalkComplete r va s
  | .faultBufferRetry r va => Sys2Proof.Machine.execFaultBufferRetry r va s
  | .faultRetry part id => Sys2Proof.Machine.execFaultRetry part id s
  | .faultRefuse part id => Sys2Proof.Machine.execFaultRefuse part id s
  | .faultRetryAll part => Sys2Proof.Machine.execFaultRetryAll part s
  | .faultReplyNone part id => Sys2Proof.Machine.execFaultReplyNone part id s
  | .faultWatchdog part id => Sys2Proof.Machine.execFaultWatchdog part id s
  | .waitTimeout core slot pc => Sys2Proof.Machine.execWaitTimeout core slot pc s
  | .trapDeliver core slot => Sys2Proof.Machine.execTrapDeliver core slot s
  | .linkDown hub => Sys2Proof.Machine.execLinkDown hub s
  | .completionTimeout r => Sys2Proof.Machine.execCompletionTimeout r s
  | .lateCompletion r => Sys2Proof.Machine.execLateCompletion r s
  | .linkRetrain hub => Sys2Proof.Machine.execLinkRetrain hub s
  | .linkTrained hub => Sys2Proof.Machine.execLinkTrained hub s
  | .hostBar2Access write pa data => Sys2Proof.Machine.execHostBar2Access write pa data s
  | .windowPostedWrite w off data => Sys2Proof.Machine.execWindowPostedWrite w off data s
  | .frameMark w => Sys2Proof.Machine.execFrameMark w s
  | .windowMisuse w off write => Sys2Proof.Machine.execWindowMisuse w off write s
  | .copyStart n => Sys2Proof.Machine.execCopyStart n s
  | .copyBytesPerformed n e => Sys2Proof.Machine.execCopyBytesPerformed n e s
  | .copyComplete n => Sys2Proof.Machine.execCopyComplete n s
  | .copyPageCheck n va => Sys2Proof.Machine.execCopyPageCheck n va s
  | .mmaStart core => Sys2Proof.Machine.execMmaStart core s
  | .mmaFirstFetch core entry => Sys2Proof.Machine.execMmaFirstFetch core entry s
  | .kstepCharge core => Sys2Proof.Machine.execKstepCharge core s
  | .kstepComplete core => Sys2Proof.Machine.execKstepComplete core s
  | .mmaArrive core => Sys2Proof.Machine.execMmaArrive core s
  | .tileCommandRun core entry => Sys2Proof.Machine.execTileCommandRun core entry s
  | .budgetRefill core => Sys2Proof.Machine.execBudgetRefill core s
  | .queryAccept n => Sys2Proof.Machine.execQueryAccept n s
  | .queryRound n => Sys2Proof.Machine.execQueryRound n s
  | .queryRestart n => Sys2Proof.Machine.execQueryRestart n s
  | .landContribution n => Sys2Proof.Machine.execLandContribution n s
  | .landfReport n => Sys2Proof.Machine.execLandfReport n s
  | .podTimelineAdvance part block v stamp => Sys2Proof.Machine.execPodTimelineAdvance part block v stamp s
  | .fabricLost pkg => Sys2Proof.Machine.execFabricLost pkg s
  | .queueTailWrite q v => Sys2Proof.Machine.execQueueTailWrite q v s
  | .spawnPush n => Sys2Proof.Machine.execSpawnPush n s
  | .recordAccept q => Sys2Proof.Machine.execRecordAccept q s
  | .headReevaluate q => Sys2Proof.Machine.execHeadReevaluate q s
  | .launchStart q => Sys2Proof.Machine.execLaunchStart q s
  | .ageingStep q => Sys2Proof.Machine.execAgeingStep q s
  | .lotDispatch die => Sys2Proof.Machine.execLotDispatch die s
  | .chunkRequest die launch => Sys2Proof.Machine.execChunkRequest die launch s
  | .lotFirstIssue lot => Sys2Proof.Machine.execLotFirstIssue lot s
  | .lotRetire lot => Sys2Proof.Machine.execLotRetire lot s
  | .chunkReport launch first => Sys2Proof.Machine.execChunkReport launch first s
  | .launchComplete launch => Sys2Proof.Machine.execLaunchComplete launch s
  | .mordantDecide die => Sys2Proof.Machine.execMordantDecide die s
  | .drainDeadline lot => Sys2Proof.Machine.execDrainDeadline lot s
  | .flushLot lot => Sys2Proof.Machine.execFlushLot lot s
  | .saveRequest lot => Sys2Proof.Machine.execSaveRequest lot s
  | .saveComplete lot => Sys2Proof.Machine.execSaveComplete lot s
  | .resumeLot lot => Sys2Proof.Machine.execResumeLot lot s
  | .partitionEnable part v => Sys2Proof.Machine.execPartitionEnable part v s
  | .partitionReset part v => Sys2Proof.Machine.execPartitionReset part v s
  | .invalidateTranslations part => Sys2Proof.Machine.execInvalidateTranslations part s
  | .registerLake part => Sys2Proof.Machine.execRegisterLake part s
  | .unregisterLake part => Sys2Proof.Machine.execUnregisterLake part s
  | .registerPodTimeline part => Sys2Proof.Machine.execRegisterPodTimeline part s
  | .uploadCodeObject part => Sys2Proof.Machine.execUploadCodeObject part s
  | .unloadCodeObject part => Sys2Proof.Machine.execUnloadCodeObject part s
  | .setBreakpoint part => Sys2Proof.Machine.execSetBreakpoint part s
  | .clearBreakpoint part => Sys2Proof.Machine.execClearBreakpoint part s
  | .replaceFirmware part => Sys2Proof.Machine.execReplaceFirmware part s
  | .recalibrateStack part => Sys2Proof.Machine.execRecalibrateStack part s
  | .fenceDie part => Sys2Proof.Machine.execFenceDie part s
  | .badCommand part => Sys2Proof.Machine.execBadCommand part s
  | .pkgWrite v => Sys2Proof.Machine.execPkgWrite v s
  | .pcSample core => Sys2Proof.Machine.execPcSample core s
  | .memorySample core => Sys2Proof.Machine.execMemorySample core s
  | .schedStateRecovery die => Sys2Proof.Machine.execSchedStateRecovery die s
  | .dieFenceByDevice die l2Lost => Sys2Proof.Machine.execDieFenceByDevice die l2Lost s
  | .snapshotPageCopy launch page => Sys2Proof.Machine.execSnapshotPageCopy launch page s
  | .rollback launch => Sys2Proof.Machine.execRollback launch s
  | .redundantCompare lot k => Sys2Proof.Machine.execRedundantCompare lot k s
  | .injectionFlip part => Sys2Proof.Machine.execInjectionFlip part s
  | .dumpWrite part => Sys2Proof.Machine.execDumpWrite part s
  | .tickStop => Sys2Proof.Machine.execTickStop s
  | .moduleReset => Sys2Proof.Machine.execModuleReset s
  | .registerWrite off v => Sys2Proof.Machine.execRegisterWrite off v s
  | .softError t => Sys2Proof.Machine.execSoftError t s
  | .instructionFetch core slot pc => Sys2Proof.Machine.execInstructionFetch core slot pc s
  | .fxLinkTrained => Sys2Proof.Machine.execFxLinkTrained s
  | .selfTestComplete dies => Sys2Proof.Machine.execSelfTestComplete dies s

end Sys2Proof.Machine
end

