-- ==== Sys2Proof/Machine/Place.lean ====
section
/-! DEFINITION. The placing of one instruction where the next step fetches it: what a loader, a launch and a dispatch do
before a program's first instruction (log entry 11). -/

namespace Sys2Proof.Machine

/-- The little-endian bytes of an instruction of `w`'s bits, four words of them (R4). -/
def tableBytes (w : Nat) : List Byte := leBytes w 16

/-- The continuation record of the placed program: one lot of one fibre, a window of 256 registers, entry at 0x10_0000. -/
def placedRecord : BitVec 1024 := BitVec.ofNat 1024 (0x100000 + 31 * 2 ^ 680)

/-- The descriptor of the placed program's kernel: matrix and regroup flags set, so that no lot is refused them (R326). -/
def placedDesc : BitVec 512 := BitVec.ofNat 512 (3 * 2 ^ 298 + 256 * 2 ^ 320)

def placedLaunch : Launch :=
  { (default : Launch) with crec := placedRecord, kdesc := placedDesc, part := 0, q := 0, n := 0, next := 1,
                            chunks := [⟨0, 0, 1, 1, 0, false⟩], snapOk := false }

/-- The fibre of rank 0 at the kernel entry (R20). -/
def placedFibre (lot : Nat) : Fibre :=
  { pc := 0x100000, preds := 0, rank := 0, lot, localIdx := 0, arrived := 0, wait := none, susp := none, young := false }

def placedSkein (lot : Nat) : Skein :=
  { (default : Skein) with
      lot, window := 256, lanes := some (placedFibre lot) :: List.replicate 31 none, lanepart := 32, rguniform := true,
      cur := some 0x100000, wid := 1 }

def placedLot : Lot :=
  { (default : Lot) with launch := 1, idx := 0, core := 0, status := .running, role := .single, slots := [0], rows := 448,
                         cleared := 448, rankCtr := 1, stamps := List.replicate 7 0, block := some 0, started := true,
                         firstIssue := some 0 }

/-- Page tables that map the first GiB to itself: a root, a level-3 table and a level-2 table with one leaf (R97, R98). -/
def placedTables (m : Memory) : Memory :=
  memPut (memPut (memPut m 0x1000 8 0x2001) 0x2000 8 0x3001) 0x3000 8 3

/-- The machine with an instruction placed where its next step issues it: partition 0 enabled with the page tables above,
one lot resident on core 0 whose skein in slot 0 stands at the instruction. -/
def State.place (s : State) (w : Nat) : State :=
  let n := lotKey 1 0 0
  let s := { s with mem := memStore (placedTables s.mem) 0x100000 (tableBytes w), grant := .issue 0 0
                    launches := amPut s.launches 1 placedLaunch, launchSeq := max 1 s.launchSeq, lots := amPut s.lots n placedLot }
  let s := (s.wr (partBlock 0) 0x101).wr (partBlock 0 + 72) 0x1000
  let s := s.updCore 0 fun k => { k with iq := k.iq.set 0 ⟨some 0, 0, [], none⟩, owner := some n }
  s.setSkein 0 0 (placedSkein n)

end Sys2Proof.Machine
end

