-- ==== Sys2Proof/Machine/Settle.lean ====
section
/-! DEFINITION. What follows the meaning in every step. -/

namespace Sys2Proof.Machine

/-- A lot whose sync stamps have passed their limit fails (R122, R379). -/
def State.stampsOver (s : State) : State :=
  s.lots.foldl (fun s e => if (s.lot e.1).resident && s.checked e.1 && stampLimit ≤ (s.lot e.1).m
    then s.failLot e.1 0x42 0 else s) s

/-! ### PC samples (R328, R415) -/

/-- The skein of a slot; the upper slot of a twin shows the twin. -/
def State.slotSkein (s : State) (c q : Nat) : Option Skein :=
  match s.skein c q with
  | some k => some k
  | none => if 4 ≤ q then match s.skein c (q - 4) with | some k => if k.twin then some k else none | none => none else none

/-- The STATE and the PC of a sample: the first that applies (R415). -/
def State.sampleOf (s : State) (c q tick : Nat) : Nat × DWord :=
  match s.slotSkein c q with
  | none => (4, 0)
  | some k =>
    let home := match s.skein c q with | some _ => q | none => q - 4
    let pc := k.cur.getD ((k.pcs.find? k.fetchWaits).getD (k.pcs.headD k.lastPc))
    let fetching := s.unheld c home k && k.ready pc &&
      (k.fetchWaits pc || (match s.fetch c home k pc with | .missing => true | _ => false))
    if k.live == 0 && k.exitPc.isSome then (3, k.exitPc.getD 0)
    else if k.lastIssue == some tick then (0, k.lastPc)
    else if fetching then (2, pc)
    else (1, pc)

/-- The sample of a core at a tick: slots 0..63 in rotation. -/
def State.takeSample (s : State) (c m : Nat) : State :=
  let q := (s.core c).rot % 64
  let r := s.sampleOf c q m
  s.updCore c fun k => { k with due := k.due ++ [⟨m, q, r.1, r.2⟩], rot := (q + 1) % 64 }

/-- The multiples of a period among `d` ticks from `t` on. -/
def multiples (per t d : Nat) : List Nat :=
  (List.range ((t + d + per - 1) / per - (t + per - 1) / per)).map fun i => ((t + per - 1) / per + i) * per

/-- The samples that fall due as `d` ticks pass: at each multiple of 2^PER, one of each core of a partition that takes them. -/
def State.takeSamples (s : State) (d : Nat) : State :=
  (List.range 8).foldl (fun s p =>
    let blk := partRegs p + 0x10
    if s.fld blk 0 1 != 1 || !s.partOn p then s
    else (multiples (2 ^ s.fld blk 24 5) s.tick d).foldl (fun s m =>
      ((List.range 512).filter fun c => (s.partDies p).testBit (c / 64)).foldl (fun s c => s.takeSample c m) s) s) s

/-! ### The end of a step -/

/-- A move that takes no clock of its own: the first issue of a lot becomes possible, or an issue slot turns to another skein (R15, R297). -/
def instant : Grant → Bool
  | .event (.lotFirstIssue ..) | .event (.issueSlotSwitch ..) => true
  | _ => false

/-- An issue slot can still issue in the clock that is under way: the slots of a core issue in ascending order, each once (R21, R297). -/
def State.slotLeft (s : State) (c q : Nat) : Bool := s.skeins.all fun e => e.1 / 64 != c || e.2.lastIssue != some s.tick || decide (e.1 % 4 < q % 4)

/-- The next agent's move can belong to the clock that is under way (R15, log entry 2): issues of one clock may have moves between them that
take none. -/
def State.sameClock (s : State) (g : Grant) : Bool :=
  ((match s.grant with | .issue .. => true | _ => false) || instant s.grant) &&
    match g with
    | .issue c q => s.slotLeft c q
    | g => instant g

/-- The ticks that pass after the n-th step; a stop that is armed comes at its tick (R417). -/
def State.passing (s : State) (n : Nat) : Nat :=
  let d := Config.ticks n + if s.sameClock (Config.grant n) then 0 else 1
  if s.stopDue (s.tick + d) then min d ((s.rd (stopWord + 8)).toNat - s.tick) else d

/-- Time passes: fibres created in the clock that ends may issue (R169), PC samples are taken (R328), the tick advances (R5), and an armed
stop may come about (R417). -/
def State.pass (s : State) (d : Nat) : State :=
  let s := s.takeSamples d
  let s := if d = 0 || !(amVals s.skeins).any (fun k => k.lanes.any fun o => o.any Fibre.young) then s
    else { s with skeins := amMap (fun _ k => if k.park.isNone then k.grown.reselect else k.grown) s.skeins }
  ({ s with tick := s.tick + d } : State).tickStop

/-- Lines and translations that leave their places, and a fill of a PREF that ends, as nothing but the cache's own choice decides (R84, R90,
R91, R92, R96, R99, log entry 6). -/
def State.evictions (s : State) (n : Nat) : State :=
  let some' := fun (s : State) (e : Option (Nat × Nat)) (f : Core → Nat → Core) => match e with
    | some (c, ln) => (match amGet s.cores c with | some k => s.setCore c (f k ln) | none => s)
    | none => s
  let s := some' s (Config.l1Evicted n) fun k ln => { k with l1 := amErase k.l1 ln }
  let s := some' s (Config.ccEvicted n) fun k ln => { k with ccache := amErase k.ccache ln }
  let s := match Config.evicted n with | some ln => s.l2Drop ln | none => s
  let s := match Config.hubEvicted n with
    | some ln => if s.hubDirty.contains ln && !s.linkUp (hubOf (128 * ln)) then s else s.hubDrop ln
    | none => s
  let s := match Config.prefDone n with | some (c, ln) => s.prefFill c ln | none => s
  match Config.tlbDropped n with
  | some i => { s with tlb := s.tlb.eraseIdx i }
  | none => s

/-- The end of a step: waits that are over end (R120, R125, R127, R128), lines leave their caches, time passes, and the next agent to move is
drawn (log entries 1, 2 and 6). A stopped module's clocks stand, the tick among them (R417). -/
def State.settle (s : State) : State :=
  let n := s.choices
  if s.stopped then { s with choices := n + 1, grant := Config.grant n } else
  let s := (s.skeins.foldl (fun s e => s.endWaits e.1) s.stampsOver).evictions n
  { s.pass (s.passing n) with choices := n + 1, grant := Config.grant n }

end Sys2Proof.Machine
end

