-- ==== Sys2Proof/Machine/Step.lean ====
section
/-! DEFINITION. One step: the agent that the state names moves, then the tick advances and the next agent is drawn. -/

namespace Sys2Proof.Machine

/-- What follows a meaning in a step: a next state settles; a fault or a refusal stays. -/
def finishStep : Host.Outcome State Fault Refusal → Host.Outcome State Fault Refusal
  | .next t => .next t.settle
  | .fault r => .fault r
  | .refused r => .refused r

/-- What a stopped module still takes: accesses to its registers, and module reset (R417). -/
def whileStopped : Instr → Bool
  | .registerWrite .. | .moduleReset => true
  | _ => false

/-- Before anything but an issue happens, the skeins that were turned away may try again; a slot switch chooses among those that have not
been (R297). -/
def State.roused (s : State) (e : Instr) : State := match e with | .issueSlotSwitch .. => s | _ => s.rouse

/-- One step of the module (log entry 1). A stopped module takes only register writes and its reset (R417). -/
def step (s : State) : Host.Outcome State Fault Refusal :=
  match s.grant with
  | .issue c q =>
    if s.stopped then .next s.settle
    else match s.turn c q with
      | .idle => .next s.settle
      | .run i => finishStep (exec i s)
      | .trap t => .next t.settle
  | .event e =>
    if !s.stopped && !isExternal e && e.toFields.isNone && eventOk e then finishStep (exec e (s.roused e)) else .next s.settle
  | .input =>
    match s.inputs with
    | [] => .next s.settle
    | e :: es => if isExternal e && eventOk e && (!s.stopped || whileStopped e) then finishStep (exec e ({ s with inputs := es } : State).rouse)
        else .next ({ s with inputs := es } : State).settle

/-- The machine with an instruction of the opcode table placed where its next step fetches it (log entry 11). -/
def State.withFetchWord (s : State) (_nbits w : Nat) : State := s.place w

end Sys2Proof.Machine
end

