-- ==== Sys2Proof/WellFormed.lean ====
section
/-! DEFINITION. Which terms of `Instr` are instructions: one of level OVB-1 whose fields pass every check of R354 that does
not depend on the window or on %vx. The typed syntax rules out what its types do not hold (an unassigned opcode, a
reserved TYPE code, a rounding code 6 or 7); these checks rule out the rest. -/

namespace Sys2Proof

/-- The first encoding cause that an instruction's fields meet, with its DETAIL (R346, R354). -/
def Instr.encodingCause (i : Instr) : Option (Nat × Nat) :=
  match i.toFields with
  | some f => firstCause none f
  | none => none

/-- A well-formed instruction of level OVB-1. Device events have no encoding and are not instructions of a program. -/
def Instr.wf (i : Instr) : Bool := i.toFields.isSome && i.encodingCause.isNone

end Sys2Proof
end

