-- ==== Sys2Proof/Safety.lean ====
section
/-! DEFINITION. The terms in which claims about the machine are stated: what it is for an instruction to issue, which
results it leaves in which lanes, what its issue changes beside them, and what holds of the memories in every state. -/

namespace Sys2Proof.Machine

/-- Both memories stand in the canonical form. -/
def State.MemOk (s : State) : Prop := Memory.wf s.mem = true ∧ Memory.wf s.far = true

/-- Every lot's scratchpad memory stands in the canonical form. -/
def State.ScratchOk (s : State) : Prop := ∀ n, Memory.wf (s.lot n).scratch = true

/-! ### Issuing -/

/-- The instruction issues: it stands at the current batch of the skein that is granted, its skein waits neither at a comparison point for
its redundant partner nor for a result of that partner, and it meets no precise cause (R346). `ll` says that it is long-latency (R57),
`own` are its own causes. -/
structure Issues (i : Instr) (s : State) (x : Iss) (ll : Bool) (own : List Hit) : Prop where
  sees : mkIss i s = some x
  free : x.mustCompare i = false
  ready : x.noForward i = false
  clear : x.cause ll own = none

/-- What follows the effect of an instruction of a redundant pair (R405, R407) or of a debugged launch (R416), the correction of flipped
bits that it read (R364), and the mark of a skein that could not issue (R297). -/
def Iss.after (x : Iss) (i : Instr) (t : State) : State := x.tried (x.scrub (x.logPoint i (x.dueCkpt i (x.forwardTick t))))

/-- No boundary follows the instruction (R55), and its lot keeps no sync stamps (R121). -/
structure Iss.Plain (x : Iss) : Prop where
  unmarked : x.f.sw = 0
  free : x.k.forced = false
  unchecked : x.s.checked x.k.lot = false

/-- The lot stands alone: it belongs to no redundant pair, its launch is not being recorded or replayed by a debugger, and no word that
the instruction reads has a flipped bit. -/
structure Iss.Alone (x : Iss) : Prop where
  single : x.lot.role = .single
  unlogged : x.s.fld (debugBlock x.part) 2 1 = 0
  sound : x.badReads = []

/-! ### Results -/

/-- Results by destination, in the order in which they are written: the value of each lane. -/
abbrev Results := List (Dst × (Nat → Word))

/-- What the last of some results for a destination leaves there. -/
def Results.last (ws : Results) (d : Dst) : Option (Nat → Word) := (ws.reverse.find? fun e => e.1 == d).map Prod.snd

/-- The results of an instruction with one destination operand: a register, or a pair, low half first (R43). -/
def Iss.results (x : Iss) (wide : Bool) (d : Opnd) (val : Nat → DWord) : Results :=
  (x.dstOf d, fun l => loOf (val l)) :: if wide then [((x.dstOf d).next 1, fun l => hiOf (val l))] else []

/-- A truth value as a word. -/
def truth (b : Bool) : Word := if b then 1 else 0

/-- The results of a predicate destination: one predicate, or a pair with the complement second (R136). -/
def predResults (d : Opnd) (val : Nat → Bool) : Results :=
  match d with
  | .prd p => [(.prd p.toNat, fun l => truth (val l))]
  | .ppair p q => [(.prd p.toNat, fun l => truth (val l)), (.prd q.toNat, fun l => truth (!val l))]
  | _ => []

/-- The lanes in which a result is written: under a zeroing merge mask a vector register also takes zeros (R145). -/
def Iss.lanesOf (x : Iss) (d : Dst) : Lanes := match d with | .vec _ => x.act ||| x.zero | _ => x.act

/-- The skein with its results written (R44, R45, R50, R55, R145): in every live lane of every vector register, in every scalar
and predicate, the last result that names it, and all else as it was; the older pending results lose the lanes written, of
a scalar the whole (log entry 19). -/
structure Wrote (x : Iss) (k : Skein) (ws : Results) (flags : BitVec 5) : Prop where
  vec : ∀ v l, l < x.k.width → x.k.live.getLsbD l = true → k.vlane v l =
    match ws.last (.vec v) with
    | some f => if x.act.getLsbD l then f l else if x.zero.getLsbD l then 0 else x.k.vlane v l
    | none => x.k.vlane v l
  scl : ∀ n, k.scalar n =
    match ws.last (.scl n), x.low with
    | some f, some l => f l
    | _, _ => x.k.scalar n
  prd : ∀ p l, p < 7 → k.pred p l =
    match ws.last (.prd p), ws.last .pword with
    | some f, _ => if x.act.getLsbD l then f l != 0 else x.k.pred p l
    | none, some f => if x.act.getLsbD l then (f l).getLsbD p else x.k.pred p l
    | none, none => x.k.pred p l
  fibres : ∀ l, (k.fibre l).map (fun f => { f with preds := 0 }) = (x.k.fibre l).map fun f => { f with preds := 0 }
  flags : k.fflags = x.k.fflags ||| flags
  pend : k.pend = (ws.foldl (fun k e => k.supersede e.1 (x.lanesOf e.1)) x.k).pend
  bad : ∀ e ∈ k.bad, e ∈ x.k.bad
  rest : { k with regs := x.k.regs, scalars := x.k.scalars, lanes := x.k.lanes, fflags := x.k.fflags, pend := x.k.pend
                  bad := x.k.bad } = x.k

/-- The instruction completes with these results, and its batch goes on behind it. -/
def Completes (i : Instr) (s : State) (x : Iss) (ws : Results) (flags : BitVec 5 := 0) : Prop :=
  ∃ k, Wrote x k ws flags ∧ exec i s = .next (x.after i (x.skeinOnly k))

/-- The instruction completes with these results for every state in which it issues. -/
def Gives (i : Instr) (ws : Iss → Results) (flags : Iss → BitVec 5 := fun _ => 0) : Prop :=
  ∀ s x, Issues i s x false [] → Completes i s x (ws x) (flags x)

/-- Like `Gives`, with a further change of the skein beside its results. -/
def GivesAnd (i : Instr) (ws : Iss → Results) (flags : Iss → BitVec 5) (more : Iss → Skein → Skein) : Prop :=
  ∀ s x, Issues i s x false [] →
    ∃ k, Wrote x k (ws x) (flags x) ∧ exec i s = .next (x.after i (x.skeinOnly (more x k)))

/-- Wherever the instruction issues and a further condition holds, its next state is that of an effect. -/
def Answers (i : Instr) (ll : Bool) (own : Iss → List Hit) (pre : Iss → Prop) (eff : Iss → State) : Prop :=
  ∀ s x, Issues i s x ll (own x) → pre x → exec i s = .next (x.after i (eff x))

/-- The lanes of a destination that a result of some lanes writes: a vector register also takes the zeros of a merge mask, and a scalar the
value of the lowest active lane, where that lane has a result. -/
def Iss.lanesIn (x : Iss) (part : Lanes) (d : Dst) : Lanes :=
  match d with | .vec _ => part ||| x.zero | .scl _ => x.lowIn part | _ => part

/-- A pending result holds these results for some lanes of the issue (R55, R145). -/
structure Pending.Holds (p : Pending) (x : Iss) (i : Instr) (part : Lanes) (ws : Results) (flags : BitVec 5) : Prop where
  instr : p.i = i
  order : p.seq = x.k.seq
  lanes : p.left = 0
  flags : p.flags = flags
  dsts : p.writes.map Write.dst = ws.map Prod.fst
  vals : ∀ (n : Nat) (w : Write) (e : Dst × (Nat → Word)), p.writes[n]? = some w → ws[n]? = some e → ∀ l, l < x.k.width →
    w.mask.getLsbD l = (x.lanesIn part e.1).getLsbD l ∧
      (w.mask.getLsbD l = true → (w.vals[l]?).getD 0 = if part.getLsbD l then e.2 l else 0)

/-- The instruction completes with a result that is known at issue and stands in the return buffer (R55). -/
def CompletesPending (i : Instr) (s : State) (x : Iss) (part : Lanes) (ws : Results) (flags : BitVec 5) : Prop :=
  ∃ (p : Pending) (y : Skein), p.Holds x i part ws flags ∧ p.returned = false ∧ p.causes = [] ∧
    { y with gates := x.k.gates } = x.k ∧ exec i s = .next (x.after i (({ x with k := y } : Iss).skeinOnly (y.addPend p)))

/-- A long-latency instruction of one value per lane, known when it issues. -/
def GivesPending (i : Instr) (ws : Iss → Results) (flags : Iss → BitVec 5) : Prop :=
  ∀ s x, Issues i s x true [] → CompletesPending i s x x.act (ws x) (flags x)

/-- A pending result whose active lanes have still to be performed at these addresses, for these destinations (R55). -/
structure Pending.Asks (p : Pending) (x : Iss) (i : Instr) (addr : Nat → DWord) (dsts : List Dst) : Prop where
  instr : p.i = i
  order : p.seq = x.k.seq
  lanes : p.left = x.act
  clear : p.causes = []
  waits : p.returned = false
  dsts : p.writes.map Write.dst = dsts
  addrs : ∀ l, l < x.k.width → p.addrs[l]? = some (addr l)

/-- From one machine to another no byte of memory and no skein has changed. -/
structure State.Keeps (y s : State) : Prop where
  mem : y.mem = s.mem
  far : y.far = s.far
  skeins : y.skeins = s.skeins

/-- The instruction completes as a long-latency access (R55): its lanes have still to be performed. -/
def CompletesAccess (i : Instr) (s : State) (x : Iss) (addr : Nat → DWord) (dsts : List Dst) : Prop :=
  ∃ (p : Pending) (y : State), p.Asks x i addr dsts ∧ y.Keeps x.s ∧
    exec i s = .next (x.after i (({ x with s := y } : Iss).skeinOnly (x.k.addPend p)))

/-- The instruction completes as an access that is performed at once, as far as nothing makes a lane wait (R86). -/
def CompletesNow (i : Instr) (s : State) (x : Iss) (addr : Nat → DWord) (dsts : List Dst) : Prop :=
  ∃ (p : Pending) (y : State), p.Asks x i addr dsts ∧ y.Keeps x.s ∧
    exec i s = .next (x.after i ((({ x with s := y } : Iss).skeinOnly (x.k.addPend p)).performNow x.c x.q x.k.seq i x.act))

/-- A store as its core holds it: the addresses and bytes of the active lanes, none of them performed yet (R119). -/
structure PStore.Holds (p : PStore) (x : Iss) (i : Instr) (addr : Nat → DWord) (data : Nat → List Byte) : Prop where
  instr : p.i = i
  slot : p.slot = x.q
  lot : p.lot = x.k.lot
  lanes : p.left = x.act
  done : p.done = 0
  order : p.order = x.k.seq
  addrs : ∀ l, l < x.k.width → p.addrs[l]? = some (addr l)
  bytes : ∀ l, l < x.k.width → p.bytes l (data l).length = data l

/-- The instruction completes as a store that its core has accepted (R115, R119). -/
def CompletesStore (i : Instr) (s : State) (x : Iss) (addr : Nat → DWord) (data : Nat → List Byte) : Prop :=
  ∃ (p : PStore) (y : State), p.Holds x i addr data ∧ y.Keeps x.s ∧
    exec i s = .next (x.after i (({ x with s := y } : Iss).finish (y.accept x.c p) x.afterStore false))

/-- The instruction completes with no active lane: it only moves on. -/
def CompletesIdle (i : Instr) (s : State) (x : Iss) : Prop :=
  ∃ y : State, y.Keeps x.s ∧ exec i s = .next (x.after i (({ x with s := y } : Iss).finish y x.afterStore false))

/-- The first half of a 16-byte store that a lane writes by itself, and what is left to write where it has been written: the start and the
size (R106, log entry 99). -/
def Iss.firstHalf (x : Iss) (l : Nat) : Nat × Nat := (if x.highFirst l then 8 else 0, 8)
def Iss.rest (x : Iss) (l : Nat) : Nat × Nat := if x.k.halfSt.getLsbD l then (if x.highFirst l then 0 else 8, 8) else (0, 16)

/-- The bytes of each active lane, in ascending order, written at an offset of an allocation, of each the part given by start and size. -/
def Iss.scratchAll (x : Iss) (lot off : Nat → Nat) (data : Nat → List Byte) (part : Nat → Nat × Nat) (y : State) : State :=
  (laneList x.act).foldl (fun s l => s.scrWrite (lot l) (off l + (part l).1) (((data l).drop (part l).1).take (part l).2) none) y

/-- From one machine to another no byte of any memory and no skein has changed. -/
structure State.KeepsAll (y s : State) : Prop where
  keeps : y.Keeps s
  lots : y.lots.map Prod.fst = s.lots.map Prod.fst
  scratch : ∀ n, (y.lot n).scratch = (s.lot n).scratch

/-- The instruction completes as a store in a scratchpad, which is performed at once (R86), as far as its first half has not been (R106). -/
def CompletesScratch (i : Instr) (s : State) (x : Iss) (lot off : Nat → Nat) (data : Nat → List Byte) : Prop :=
  ∃ y : State, y.KeepsAll x.s ∧
    exec i s = .next (x.after i (({ x with s := y } : Iss).finish (x.scratchAll lot off data x.rest y) x.afterStore false))

/-- A store in a scratchpad of 16 bytes writes its first half; the instruction stays where it is (R106, log entry 99). -/
def StartsScratch (i : Instr) (s : State) (x : Iss) (lot off : Nat → Nat) (data : Nat → List Byte) : Prop :=
  ∃ y : State, y.KeepsAll x.s ∧
    exec i s = .next (x.after i ((x.scratchAll lot off data x.firstHalf y).setSkein x.c x.q { x.k with halfSt := x.act }))

/-- No older access of a lane of the instruction is still to be performed. -/
def Iss.NoneOlder (x : Iss) : Prop := ∀ l, x.act.getLsbD l = true → ∀ p ∈ x.k.pend, p.left.getLsbD l = false

/-- The lot performs its accesses itself, and its launch is not checked for races. -/
structure Iss.Ordinary (x : Iss) : Prop where
  single : x.lot.role = .single
  unchecked : x.s.checked x.k.lot = false

/-- A release at this scope need not wait; at `.sys`, no far line is dirty (R115). -/
structure Iss.Ready (x : Iss) (sc : Scope) : Prop where
  ready : x.s.releaseReady x.c x.q sc = true
  clean : sc = .sys → x.s.hubDirty = []

/-! ### What an issue leaves alone -/

/-- The parts of a skein that its issue leaves, beside results and PCs: the hints, counts and marks of an issue are out of
account. -/
def Skein.content (k : Skein) : Skein :=
  { k with lanes := [], cur := none, passes := [], gates := [], stallTo := 0, lastIssue := none, lastPc := 0, afterTret := false
           retired := 0, fetched := [], relWait := none, cmpOk := false, marks := [], halfSt := 0, asks := [], lost := []
           idle := false }

/-- A control transfer (R24, R166): the active fibres of the batch stand at their targets, the others behind the instruction,
and beside them and the link nothing of the skein has changed. -/
def Transfers (i : Instr) (tgt : Iss → Nat → DWord) (link : Iss → Results) : Prop :=
  ∀ s x, Issues i s x false (x.targetHits (tgt x)) → x.Plain →
    ∃ k t k', Wrote x k (link x) 0 ∧ exec i s = .next (x.after i t) ∧ t.skein x.c x.q = some k' ∧ k'.content = k.content ∧
      (∀ l, k'.fibre l = (k.fibre l).map fun f => if x.batch.getLsbD l
        then { f with pc := if x.act.getLsbD l then tgt x l else x.fall } else f) ∧ t.mem = x.s.mem ∧ t.far = x.s.far

/-- From the machine `x.s` to `t` only the issuing skein has changed, to `k` with its batch at the fall-through PC, and what
every issue counts: the instructions retired of its lot, and its issue slot. -/
structure Iss.OnlySkein (x : Iss) (k : Skein) (t : State) : Prop where
  skein : ∃ k', t.skein x.c x.q = some k' ∧ k'.content = k.content ∧ k'.retired = k.retired + 1 ∧
    ∀ l, k'.fibre l = (k.fibre l).map fun f => if x.batch.getLsbD l then { f with pc := x.fall } else f
  others : ∀ n, n ≠ skKey x.c x.q → amGet t.skeins n = amGet x.s.skeins n
  lot : t.lot k.lot = if (amGet x.s.lots k.lot).isSome
    then { x.s.lot k.lot with retiredCnt := (x.s.lot k.lot).retiredCnt + 1 } else default
  lots : ∀ n, n ≠ k.lot → amGet t.lots n = amGet x.s.lots n
  core : { t.core x.c with iq := (x.s.core x.c).iq } = x.s.core x.c
  cores : ∀ n, n ≠ x.c → amGet t.cores n = amGet x.s.cores n
  rest : { t with skeins := x.s.skeins, lots := x.s.lots, cores := x.s.cores } = x.s

/-! ### Which instructions -/

/-- The instructions whose whole effect is on their skein, with a result known at once (R55) or none: the fixed-latency ones of
straight-line code. -/
def Instr.onSkein : Instr → Bool
  | .iadd .. | .isub .. | .iaddc .. | .imul .. | .imulh .. | .imad .. | .imadw .. | .imin .. | .imax .. | .iabs .. | .ineg ..
  | .and .. | .or .. | .xor .. | .not .. | .bool3 .. | .shl .. | .shr .. | .sar .. | .rotl .. | .fshf .. | .bfx .. | .bfi ..
  | .popc .. | .clz .. | .ctz .. | .brev .. | .bytep .. | .icmp .. | .iset .. | .sel .. | .mov .. | .movi .. | .movih ..
  | .lea .. | .lea64 .. | .spr .. | .spw .. | .vtag .. | .setix .. | .pand .. | .por .. | .pxor .. | .pnot .. | .pmov ..
  | .nop .. | .elect .. | .idmb .. | .fadd .. | .fsub .. | .fmul .. | .ffma .. | .fmin .. | .fmax .. | .fminm .. | .fmaxm ..
  | .fcmp .. | .fset .. | .frnd .. | .fclass .. | .fscl .. | .fext .. | .cmul .. | .cfma .. | .vdot2 .. | .vdot4 ..
  | .welf .. | .wmrg .. | .cvt .. | .cvts .. | .srseed .. | .packf .. | .unpkf .. | .bsinit .. | .bsrd .. | .part .. => true
  | _ => false

/-- The instructions whose result stands in the return buffer, so that they count for the limit of a segment (R55, R57). -/
def Instr.long : Instr → Bool
  | .rcp .. | .rsq .. | .sqrt .. | .exp2 .. | .log2 .. | .sinp .. | .cosp .. | .tanh .. | .vote .. | .shfl .. | .mtch .. | .redux ..
  | .scan .. | .ld .. | .ldFmt .. | .lds .. | .ldd .. | .ldc .. | .ldl .. | .atom .. | .atoms .. | .spawn .. | .btest .. | .tlrd ..
  | .qsrch .. | .qstat .. | .msta .. | .mckpt .. | .mbud .. => true
  | .cctl _ o .. => o != .inv1
  | _ => false

/-- The causes of its own that an instruction meets where it issues, beside those of its encoding, its segment, its registers and STEP
(R346, R355, R357, R368, R385). -/
def Instr.hits (i : Instr) (x : Iss) : List Hit :=
  let global := fun (log : Nat) (a : Opnd) (off : BitVec 24) => x.globalHits log (x.spaceAddr .g a (sx24 off))
  let access := fun (a : Opnd) (off : DWord) => x.accessHits i fun acc => x.spaceAddr acc.sp a off
  match i with
  | .bra _ off => x.targetHits fun _ => x.label off
  | .call _ off _ => x.targetHits fun _ => x.label off
  | .brx _ a | .callx _ _ a | .ret _ a => x.targetHits (x.opA a true)
  | .regrp .. => x.regrpHits
  | .trap _ n => x.trapHits (0xE0 + n.toNat)
  | .brk _ => x.trapHits 0xC0
  | .tret _ a => x.tretHits a
  | .vote _ _ _ _ mask .. | .shfl _ _ _ _ _ mask .. | .mtch _ _ _ mask .. | .redux _ _ _ mask .. | .scan _ _ _ _ mask .. => x.maskHits mask
  | .ld _ _ off _ a | .lds _ _ off _ a | .ldd _ _ off _ a | .ldc _ _ off _ a | .ldl _ _ off _ a => access a (sx24 off)
  | .st _ _ off a _ | .sts _ _ off a _ | .std _ _ off a _ | .stl _ _ off a _ => access a (sx24 off)
  | .ldFmt _ h off _ a =>
    let addr := x.spaceAddr .g a (sx24 off)
    hitOn 0x32 255 (x.failing fun l => !canonical (addr l)) addr ++
      (if x.holds i false (fun l => [(.glob (addr l), 1)]) then [] else x.s.fmtHits x.c x.part x.k.width x.act addr) ++
      x.raceHits i ⟨.g, 8, .load, .plain, .sk, h, false⟩ addr
  | .atom _ _ _ a v | .atoms _ _ _ _ a v => access a (match v with | .op2 _ _ o => o.signExtend 64 | .cas _ _ o => o.signExtend 64)
  | .red _ _ _ off a _ => x.accessHits i fun _ => x.spaceAddr .g a (sx24 off)
  | .joinc _ off a _ => global 2 a off
  | .spawn _ off _ a _ => global 7 a off
  | .qsrch _ off a => global 7 a off
  | .tlwt _ _ off a _ | .tlrd _ _ off _ a | .tladv _ _ off a _ => global 4 a off
  | .land _ t off a _ => global (Nat.log2 t.bytes) a off
  | .landf _ off a => global 6 a off
  | .binit _ die off a _ | .barv _ die off a | .bexp _ die off a _ | .bwait _ die off a _ | .btest _ die off _ a _ => x.objHits die a off
  | .shape _ _ off a =>
    let va := x.spaceAddr .g a (sx24 off) (x.low.getD 0)
    let one : Lanes := BitVec.ofNat 64 (2 ^ x.low.getD 0)
    if x.act == 0 then []
    else x.producerHits ++ (if canonical va then [] else [⟨0x32, 255, one, va⟩]) ++
      (if x.s.skeinQuiet x.c x.q x.k.seq x.k.hb then match x.s.shapeAt x.c x.part va with
        | .off d => [⟨0x35, d, one, va⟩]
        | _ => [] else [])
  | .cpy _ _ _ a b => x.producerHits ++ x.copyAlign (x.copyBlock b) (x.tlOf true a) false
  | .cpyg _ _ _ a b => x.producerHits ++ x.copyAlign (x.copyBlock b) (x.tlOf true a) true
  | .cpym _ _ d a b => x.producerHits ++ x.copyAlign (x.copyBlock b) (x.tlOf true a) false ++ x.cpymHits d
  | .cpyUnz _ _ _ b => x.producerHits ++
      hitOn 0x36 4 (x.failing fun l => match x.tlOf false b l with | some v => v.toNat % 16 != 0 | none => false)
        fun l => (x.tlOf false b l).getD 0
  | .seal _ | .cpwt .. => x.producerHits
  | .mlda _ _ _ n _ b => x.fragHits b false (fragCount n)
  | .msta _ _ n _ a => x.fragHits a true (fragCount n)
  | .mma _ m a b =>
    let v := x.mmaVals a b (x.low.getD 0)
    if x.act == 0 || (x.act != 0 && !(x.missing (MmaX.bases m v)).isEmpty) then []
    else match x.mmaDetail m v with | some d => [⟨0x65, d, x.act, 0⟩] | none => []
  | .mckpt _ _ _ a => hitOn 0x67 255 (x.failing fun l => decide (16640 < (x.a32 a l).toNat)) fun _ => 0
  | _ => []

/-- The precise cause of an instruction as its skein keeps it until its delivery (R345, R349). -/
def Iss.causeOf (x : Iss) (h : Hit) : Cause := ⟨x.info, h.code, h.detail, h.aff, 0, h.addr, false, none, x.k.seq, []⟩

end Sys2Proof.Machine
end

