-- ==== Sys2Proof/Certificates/Slice0/Obligations.lean ====
section
/-! DEFINITION. The statements for the provers. `Gives`, `Answers`, `Transfers`, `Completes…` and `Wrote` are those of
Sys2Proof/Safety.lean: every one of them concludes that `exec` answers a next state, and says which. -/

open Sys2Proof Sys2Proof.Machine

/-! ### The encoding -/

/-- Decoding undoes encoding, prefix and every operand included (R132, R133, R144). -/
def Obligations.DecodeEncode : Prop :=
  ∀ i : Instr, i.wf = true → decodeList (encode i) = some (.ok i (4 * (encode i).length))

/-- Words written out from R133 to R146 decode to the instructions that they stand for. -/
def Obligations.DecodedWords : Prop :=
  let c : Ctl := ⟨7, false, false, 0, 0, false, false, none⟩
  -- IADD.i32 v4, v5, v6
  decodeList [0x14047000, 0x00000060, 0x00030000] = some (.ok (.iadd c .i32 false (.vec 4) (.vec 5) (.vec 6)) 12) ∧
  -- PAND p1, p2, p3
  decodeList [0x0A017030, 0x00002038, 0x00000000] = some (.ok (.pand c false false (.prd 1) (.prd 2) (.prd 3)) 12) ∧
  -- NOP, EXIT with the switch marker, TRET v8:v9
  decodeList [0x0000703D, 0, 0] = some (.ok (.nop c) 12) ∧
  decodeList [0x0000703B, 0, 0x80000000] = some (.ok (.exit { c with sw := true }) 12) ∧
  decodeList [0x200070E1, 0, 0] = some (.ok (.tret c (.vec 8)) 12)

/-- The bits of an instruction are its fields, and the reserved ones are zero in every instruction (R133). -/
def Obligations.InstructionFields : Prop :=
  (∀ f : Fields,
    f.pack.extractLsb' 0 8 = f.opc ∧ f.pack.extractLsb' 8 4 = f.sub ∧ f.pack.extractLsb' 12 3 = f.guard ∧
    f.pack.extractLsb' 15 1 = f.gneg ∧ f.pack.extractLsb' 16 10 = f.dst ∧ f.pack.extractLsb' 26 10 = f.a ∧
    f.pack.extractLsb' 36 10 = f.b ∧ f.pack.extractLsb' 46 24 = f.imm ∧ f.pack.extractLsb' 70 12 = f.mod ∧
    f.pack.extractLsb' 82 1 = f.ix ∧ f.pack.extractLsb' 83 4 = f.r1 ∧ f.pack.extractLsb' 87 2 = f.hold ∧
    f.pack.extractLsb' 89 3 = f.stall ∧ f.pack.extractLsb' 92 1 = f.yh ∧ f.pack.extractLsb' 93 2 = f.r2 ∧
    f.pack.extractLsb' 95 1 = f.sw) ∧
  ∀ (i : Instr) (f : Fields), i.toFields = some f → f.r1 = 0 ∧ f.r2 = 0

/-- Words whose opcode R146 does not assign raise ILLEGAL_OPCODE with DETAIL 255, and a prefix before a prefix BAD_PREFIX, or
RESERVED_FIELD where its reserved bits are set (R353, R354). -/
def Obligations.UnassignedOpcodes : Prop :=
  ∀ w0 w1 w2 w3 : Word,
    (isPfxWord w0 = false → formOf (unpack none (words96 w0 w1 w2)) = none →
      decodeWords w0 w1 w2 w3 = .bad 0x01 255 (unpack none (words96 w0 w1 w2)) 12) ∧
    (isPfxWord w0 = true → isPfxWord w1 = true → w0.extractLsb' 26 6 = 0 →
      decodeWords w0 w1 w2 w3 = .bad 0x05 96 (unpack (some (unpackPfx w0)) (words96 w1 w2 w3)) 16) ∧
    (isPfxWord w0 = true → isPfxWord w1 = true → w0.extractLsb' 26 6 ≠ 0 →
      decodeWords w0 w1 w2 w3 = .bad 0x03 122 (unpack (some (unpackPfx w0)) (words96 w1 w2 w3)) 16)

/-! ### Memory -/

/-- Memory is little-endian, and an instruction is three little-endian words behind its prefix (R4). -/
def Obligations.LittleEndian : Prop :=
  (∀ (m : Memory) (a n x : Nat), Memory.wf m = true → x < 2 ^ (8 * n) →
    memNat (memPut m a n x) a n = x ∧ (0 < n → memRead (memPut m a n x) a = BitVec.ofNat 8 x) ∧
    ∀ b, b < a ∨ a + n ≤ b → memRead (memPut m a n x) b = memRead m b) ∧
  (∀ (i : Instr) (f : Fields), i.toFields = some f →
    encode i = (match f.pfx with | none => [] | some p => [p.pack]) ++
      [f.pack.extractLsb' 0 32, f.pack.extractLsb' 32 32, f.pack.extractLsb' 64 32]) ∧
  ∀ w : Word, bytesOfWords [w] = leBytes w.toNat 4

/-- A write performed at its home slice changes the bytes that it names and no other byte, and clears the poison of the sectors
that it covers (R116, R381), behind the copy of a page that a launch has marked, which changes bytes of a context heap only (R399). Near
memory has no copy behind it; a far line that its hub slice holds for the partition is dirty after the write, and of any other the memory behind
takes the bytes (R91, R92, R115, R320). -/
def Obligations.HomeWriteFrame : Prop :=
  ∀ (s : State) (part pa : Nat) (bs : List Byte) (t : Option Triple), s.MemOk →
    let u := s.snapPages pa bs.length
    let v := s.homeWrite part pa bs t
    (∀ n (h : n < bs.length), memRead v.mem (pa + n) = bs[n]) ∧
    (∀ a, a < pa ∨ pa + bs.length ≤ a → memRead v.mem a = memRead u.mem a) ∧
    ((∀ p ∈ pagesOf pa bs.length, s.marked (65536 * p) = false) → u = s) ∧
    (∀ a, memRead u.mem a ≠ memRead s.mem a → ∃ p, s.heapBase p ≤ a ∧ a < s.heapBase p + s.heapSize p) ∧
    (isFar pa = false → v.far = s.far) ∧
    (isFar pa = true → ∀ ln ∈ linesOf pa bs.length,
      let held := ∃ h, amGet s.hubLines ln = some h ∧ h.part = part
      (held → ln ∈ v.hubDirty) ∧ (¬held → ∀ j, j < 128 → memRead v.far (128 * ln + j) = memRead v.mem (128 * ln + j))) ∧
    (∀ a, a / 128 ∉ linesOf pa bs.length → memRead v.far a = memRead s.far a) ∧
    ∀ x, x ∈ v.poison ↔ x ∈ u.poison ∧ ¬(pa ≤ 16 * x ∧ 16 * x + 16 ≤ pa + bs.length)

/-- Both memories keep their canonical form through every step. The form is the model's choice (log entry 4). -/
def Obligations.StepKeepsMemory : Prop := ∀ s t : State, s.MemOk → step s = .next t → t.MemOk

/-- The scratchpad memories of the lots keep their canonical form through every step. The form is the model's choice (log entry
4). -/
def Obligations.StepKeepsScratch : Prop := ∀ s t : State, s.ScratchOk → step s = .next t → t.ScratchOk

/-! ### Reset, steps and frames -/

/-- The module after reset: both memories are canonical, nothing runs, no partition is enabled, the tick counter reads 0, and
every hub register of a partition block reads 0 (R317). The tick at 0 and nothing resident are the model's choices (log entry
7). -/
def Obligations.ResetState : Prop :=
  State.reset.MemOk ∧ State.reset.ScratchOk ∧ State.reset.tick = 0 ∧ State.reset.skeins = [] ∧ State.reset.lots = [] ∧ State.reset.launches = [] ∧
  State.reset.copies = [] ∧ State.reset.queries = [] ∧ State.reset.lands = [] ∧ State.reset.faults = [] ∧ State.reset.tlb = [] ∧
  ∀ p, p < 8 → State.reset.partOn p = false ∧ ∀ n, n < 16 → State.reset.rd (partBlock p + 8 * n) = 0

/-- A step of an issue slot runs what its skein decodes at its PC: the words fetched there, and nothing else, are the
instruction that `exec` is asked for; what every step ends with follows (log entry 1). Where the fault of its fetch has been refused, that
cause is raised instead (R373). A slot that no core has issues nothing (R16). -/
def Obligations.StepRunsDecoded : Prop :=
  ∀ (s : State) (c q : Nat) (k : Skein) (pc : DWord) (w0 w1 w2 w3 : Word) (i : Instr) (n : Nat),
    s.grant = .issue c q → s.stopped = false →
    (512 ≤ c ∨ 64 ≤ q → step s = .next s.settle) ∧
    (c < 512 → q < 64 → s.skein c q = some k → s.issuable c q = true → k.cur = some pc →
      let refused := (k.noFetch.find? fun e => e.1 == pc).bind Prod.snd
      (refused = none → s.fetch c q k pc = .words [w0, w1, w2, w3] → decodeWords w0 w1 w2 w3 = .ok i n → i.wf = true →
        step s = finishStep (exec i s)) ∧
      ∀ va code d, refused = some (va, code, d) → step s = .next (s.fetchTrap c q k pc va code d).settle)

/-- A step of the device runs the granted event, and a step of the outside world takes the oldest input, where they name cores, slots,
queues, dies and partitions that the module has; skeins that were turned away may try again after either, but a slot switch chooses among
the others. Their order is the model's choice (log entries 1 and 3). -/
def Obligations.StepRunsEvents : Prop :=
  ∀ (s : State) (e : Instr), s.stopped = false → e.isIsa = false → eventOk e = true →
    (s.grant = .event e → isExternal e = false →
      step s = finishStep (exec e (s.roused e))) ∧
    ∀ es, s.grant = .input → s.inputs = e :: es → isExternal e = true →
      step s = finishStep (exec e ({ s with inputs := es } : State).rouse)

/-- Every instruction answers a next state wherever a skein issues it, and every device event in every state: none faults or is
refused there. -/
def Obligations.ExecAnswers : Prop :=
  ∀ (i : Instr) (s : State), (i.isIsa = true → (mkIss i s).isSome = true) → ∃ t, exec i s = .next t

/-- The frame of straight-line code: an instruction of fixed latency changes its own skein, the count of retired instructions of
its lot and its issue slot, and nothing else: no byte of memory, no other skein, no special or hub register. The batch moves to
the fall-through PC (R132). -/
def Obligations.SkeinFrame : Prop :=
  ∀ (i : Instr) (s : State) (x : Iss), Instr.onSkein i = true → Issues i s x false [] → x.Plain → x.Alone →
    ∃ k t, exec i s = .next t ∧ x.OnlySkein k t ∧
      (∀ a, memRead t.mem a = memRead s.mem a) ∧ ∀ a, memRead t.far a = memRead s.far a

/-- An instruction that meets a precise cause has no effect: the cause is raised instead. While results are pending, or a store of its core to
the frame is still to be performed, the skein parks with the cause; else the cause is delivered at once, unless a deferred one comes first
(R345, R346, R418). In a debugged launch that logs, a TRAP is logged as well (R416). -/
def Obligations.PreciseCause : Prop :=
  ∀ (i : Instr) (s : State) (x : Iss) (h : Hit), mkIss i s = some x → x.mustCompare i = false →
    x.cause (Instr.long i) (Instr.hits i x) = some h →
    exec i s = .next (x.raise h) ∧
    (x.logging = false →
      let k := { x.k with park := some (.raise (x.causeOf h)), relWait := none }
      let busy := (s.setSkein x.c x.q k).frameBusy x.c x.q k false
      (x.k.pend ≠ [] ∨ x.k.deferred = [] ∧ busy = true → x.raise h = s.setSkein x.c x.q k) ∧
      (x.k.pend = [] → x.k.deferred = [] → busy = false →
        x.raise h = (s.setSkein x.c x.q { x.k with llCount := 0, park := none, forced := false, relWait := none }).deliver x.c x.q (x.causeOf h) []))

/-- Delivery of a cause, precise or deferred (R347), whose frame can be written, of a twin both halves, and whose table entry can be read and
is valid: the frame's address stands in s62:s63, every fibre of BATCH stands at the handler and waits for nothing, the skein is in the handler
for the cause, and its vector registers, its other scalars, %vx, %lanepart and %fflags keep their values. The frame holds what R349 says, in
memory; an encoding cause's operands are those after the park that preceded it (R347). -/
def Obligations.TrapDelivery : Prop :=
  (∀ (s u : State) (c q : Nat) (z : Cause) (later : List Cause) (k : Skein) (e : Xl),
    let part := s.partOf (s.lotOf k)
    let frame := s.frameVa part c q
    let batch := z.info.batch &&& k.live
    let s0 := s.setSkein c q { k with park := none, deferred := [] }
    let y := s0.reread c q k z
    let low := frameBytes k y q 0 s.tick
    s.skein c q = some k → k.trap = none → escalated z.code = false → batch ≠ 0 →
    (k.twin = false → s0.putVirtual c part frame low = some u) →
    (k.twin = true → (s0.putVirtual c part frame low).bind (fun t => t.putVirtual c part (frame + 8192) (frameBytes k y q 1 s.tick)) = some u) →
    u.xlate c part (u.trapTab part + BitVec.ofNat 64 (8 * z.code)) false false = .ok e →
    u.readCause part e.pa 8 = none → memNat u.mem e.pa 8 % 2 = 1 →
    ∃ k', (s.deliver c q z later).skein c q = some k' ∧ k'.scalar 62 = loOf frame ∧ k'.scalar 63 = hiOf frame ∧
      (∀ n, n ≠ 62 → n ≠ 63 → k'.scalar n = k.scalar n) ∧ k'.regs = k.regs ∧ k'.vx = k.vx ∧ k'.lanepart = k.lanepart ∧
      k'.fflags = k.fflags ∧ k'.park = none ∧ k'.trap = some ⟨batch, z.info.act, z.aff, frame, z.code, z.tl, later⟩ ∧
      (∀ l, batch.getLsbD l = true → k'.fibre l = (k.fibre l).map fun f =>
        { f with pc := BitVec.ofNat 64 (memNat u.mem e.pa 8) &&& ~~~3#64, wait := none, susp := f.wait }) ∧
      ∀ l, batch.getLsbD l = false → k'.fibre l = k.fibre l) ∧
  (∀ (s u : State) (c part : Nat) (va : DWord) (bs : List Byte) (e : Xl), s.MemOk → s.xlate c part va true false = .ok e → e.peer = false →
    s.putVirtual c part va bs = some u → ∀ n (h : n < bs.length), memRead u.mem (e.pa + n) = bs[n]) ∧
  ∀ (k : Skein) (z : Cause) (q h tick : Nat), z.info.words.length = 4 → (frameBytes k z q h tick).length = 2048 ∧
    partNat (frameBytes k z q h tick) 0 8 = z.info.pc.toNat ∧ partNat (frameBytes k z q h tick) 24 8 = tick % 2 ^ 64 ∧
    partNat (frameBytes k z q h tick) 64 4 = (k.scalar 62).toNat ∧ partNat (frameBytes k z q h tick) 68 4 = (k.scalar 63).toNat ∧
    partNat (frameBytes k z q h tick) 44 4 = (halfLanes z.aff h).toNat

/-! ### Integer instructions -/

/-- IADD, ISUB, IMUL, IMULH, IMIN, IMAX, IABS and INEG (R154 to R156): the exact result of the operands' values, fitted to the
type; a 64-bit result goes to a pair, low half first. -/
def Obligations.IntegerArithmetic : Prop :=
  ∀ (c : Ctl) (t : ITy) (sat : Bool) (d a b : Opnd),
    let two := fun (st : Bool) (f : Int → Int → Int) (x : Iss) =>
      x.results (ITy.wide t) d fun l => lane2 t st f a b (x.opA a (ITy.wide t) l) (x.op b (ITy.wide t) l)
    let one := fun (f : Int → Int) (x : Iss) => x.results (ITy.wide t) d fun l => lane1 t sat f a (x.opA a (ITy.wide t) l)
    Gives (.iadd c t sat d a b) (two sat (· + ·)) ∧ Gives (.isub c t sat d a b) (two sat (· - ·)) ∧
    Gives (.imul c t sat d a b) (two sat (· * ·)) ∧
    Gives (.imulh c t d a b) (two false fun p q => (p * q) / 2 ^ ITy.bits t) ∧
    Gives (.imin c t d a b) (two false min) ∧ Gives (.imax c t d a b) (two false max) ∧
    Gives (.iabs c t sat d a) (one fun n => |n|) ∧ Gives (.ineg c t sat d a) (one fun n => -n)

/-- IADDC (R157): the sum of the sources and the carry-in modulo 2^32, and the carry-out predicate; ci is read before co is
written, and a write to p7 goes nowhere; ci and co stand in OPX, the low six bits of MOD. -/
def Obligations.AddWithCarry : Prop :=
  ∀ (c : Ctl) (t : ITy) (ci co : BitVec 3) (d a b : Opnd),
    (Gives (.iaddc c t ci co d a b) fun x =>
      let sum := fun l => (x.a32 a l).toNat + (x.b32 b l).toNat + (if ci = 7 ∨ x.k.pred ci.toNat l = true then 1 else 0)
      [(x.dstOf d, fun l => BitVec.ofNat 32 (sum l)), (.prd co.toNat, fun l => truth (decide (2 ^ 32 ≤ sum l)))]) ∧
    ∀ f, (Instr.iaddc c t ci co d a b).toFields = some f →
      (f.mod.extractLsb' 0 6).extractLsb' 0 3 = ci ∧ (f.mod.extractLsb' 0 6).extractLsb' 3 3 = co

/-- IMAD rounds once: a × b + c is exact before the fit; IMADW takes 32-bit factors and a 64-bit addend (R156). -/
def Obligations.MultiplyAdd : Prop :=
  ∀ (c : Ctl) (t : ITy) (sat : Bool) (d a b e : Opnd),
    Gives (.imad c t sat d a b e) (fun x => x.results (ITy.wide t) d fun l =>
      fit t sat (intVal t (x.opA a (ITy.wide t) l) * intVal t (x.op b (ITy.wide t) l) + intVal t (x.op e (ITy.wide t) l))) ∧
    Gives (.imadw c t d a b e) fun x => x.results true d fun l =>
      BitVec.ofInt 64 (intVal t (x.opA a false l) * intVal t (x.op b false l) +
        if t = .n32 then ((x.op e true l).toNat : Int) else (x.op e true l).toInt)

/-- AND, OR, XOR, NOT and BOOL3 (R158): bit i of BOOL3's result is the table's entry a_i + 2 b_i + 4 c_i. -/
def Obligations.Logic : Prop :=
  ∀ (c : Ctl) (t : ITy) (tbl : BitVec 8) (d a b e : Opnd),
    let w := ITy.wide t
    Gives (.and c t d a b) (fun x => x.results w d fun l => x.opA a w l &&& x.op b w l) ∧
    Gives (.or c t d a b) (fun x => x.results w d fun l => x.opA a w l ||| x.op b w l) ∧
    Gives (.xor c t d a b) (fun x => x.results w d fun l => x.opA a w l ^^^ x.op b w l) ∧
    Gives (.not c t d a) (fun x => x.results w d fun l => ~~~(x.opA a w l)) ∧
    (Gives (.bool3 c t tbl d a b e) fun x => x.results w d fun l => bool3Bits tbl (x.opA a w l) (x.op b w l) (x.op e w l)) ∧
    ∀ (p q r : DWord) (i : Nat), i < 64 → (bool3Bits tbl p q r).getLsbD i =
      tbl.getLsbD ((p.getLsbD i).toNat + 2 * (q.getLsbD i).toNat + 4 * (r.getLsbD i).toNat)

/-- SHL, SHR, SAR, ROTL and FSHF (R159): the count is an unsigned 32-bit value in every form, and counts of the width or more
have defined results. -/
def Obligations.ShiftsAndRotates : Prop :=
  ∀ (c : Ctl) (right : Bool) (t : ITy) (d a b e : Opnd),
    let wide := ITy.wide t
    let w := if wide then 64 else 32
    let shift := fun (f : Nat → Nat → DWord) (x : Iss) => x.results wide d fun l =>
      f (if wide then (x.opA a true l).toNat else (x.a32 a l).toNat) (x.b32 b l).toNat
    Gives (.shl c t d a b) (shift fun v n => if w ≤ n then 0 else BitVec.ofNat 64 (v * 2 ^ n % 2 ^ w)) ∧
    Gives (.shr c t d a b) (shift fun v n => if w ≤ n then 0 else BitVec.ofNat 64 (v / 2 ^ n)) ∧
    Gives (.sar c t d a b) (shift fun v n =>
      let z : Int := if v < 2 ^ (w - 1) then v else v - 2 ^ w
      if w ≤ n then (if z < 0 then -1 else 0) else BitVec.ofInt 64 (z / 2 ^ n)) ∧
    Gives (.rotl c t d a b) (shift fun v n =>
      BitVec.ofNat 64 (v * 2 ^ (n % w) % 2 ^ w + v / 2 ^ (w - n % w))) ∧
    Gives (.fshf c right t d a b e) fun x => x.results wide d fun l =>
      let v := (x.b32 b l).toNat * 2 ^ 32 + (x.a32 a l).toNat
      let n := min (x.b32 e l).toNat 32
      BitVec.ofNat 64 (if right then v / 2 ^ n % 2 ^ 32 else v * 2 ^ n / 2 ^ 32 % 2 ^ 32)

/-- BFX, BFI, POPC, CLZ, CTZ, BREV and BYTEP, and the bits that they read (R160): leading and trailing zeros count up to the first 1
bit, BREV mirrors, and an inserted field takes its bits from a and the others from c. -/
def Obligations.BitFields : Prop :=
  (∀ (c : Ctl) (t : ITy) (sel : BitVec 16) (d a b e : Opnd),
    let w := ITy.wide t
    let count := fun (f : DWord → Nat) (x : Iss) => x.results false d fun l => BitVec.ofNat 64 (f (zbits t (x.opA a w l)))
    Gives (.bfx c t d a b) (fun x => x.results w d fun l =>
      (bfxBits (t == .i32) (loOf (x.opA a w l)) (loOf (x.op b w l))).setWidth 64) ∧
    Gives (.bfi c d a b e) (fun x => [(x.dstOf d, fun l =>
      bfiBits (x.a32 a l) (x.b32 b l) (x.b32 e l) (c.pre.map fun p => x.b32 p.srcd l))]) ∧
    Gives (.popc c t d a) (count fun v => popBits v (ITy.bits t)) ∧ Gives (.clz c t d a) (count fun v => clzBits v (ITy.bits t)) ∧
    Gives (.ctz c t d a) (count fun v => ctzBits v (ITy.bits t)) ∧
    Gives (.brev c t d a) (fun x => x.results w d fun l => revBits (zbits t (x.opA a w l)) (ITy.bits t)) ∧
    Gives (.bytep c sel d a b) fun x => x.results false d fun l => bytepBits sel (x.opA a false l) (x.op b false l)) ∧
  ∀ (v : DWord) (n i : Nat) (a b e : Word),
    (n ≤ 64 → i < n → (revBits v n).getLsbD i = v.getLsbD (n - 1 - i)) ∧
    ((clzBits v n < n → v.getLsbD (n - 1 - clzBits v n) = true) ∧
      ∀ j, j < clzBits v n → j < n → v.getLsbD (n - 1 - j) = false) ∧
    ((ctzBits v n < n → v.getLsbD (ctzBits v n) = true) ∧ ∀ j, j < ctzBits v n → j < n → v.getLsbD j = false) ∧
    (i < 32 → (bfiBits a b e none).getLsbD i =
      if min (b.toNat % 256) 32 ≤ i ∧ i < min (b.toNat % 256) 32 + min (b.toNat / 256 % 256) 32
      then a.getLsbD (i - min (b.toNat % 256) 32) else e.getLsbD i)

/-- ICMP, ISET, SEL, MOV, MOVI, MOVIH, LEA and LEA64 (R161, R162). -/
def Obligations.ComparesAndMoves : Prop :=
  ∀ (c : Ctl) (cc : Cond) (t : ITy) (neg : Bool) (v : BitVec 24) (h : BitVec 16) (sh : BitVec 3) (d a b p : Opnd),
    let w := ITy.wide t
    let holds := fun (x : Iss) l => Cond.holds cc (intVal t (x.opA a w l)) (intVal t (x.op b w l))
    Gives (.icmp c cc t d a b) (fun x => predResults d (holds x)) ∧
    Gives (.iset c cc t d a b) (fun x => [(x.dstOf d, fun l => truth (holds x l))]) ∧
    Gives (.sel c t neg d a b p) (fun x => x.results w d fun l => if (x.predOp p neg l).getLsbD 0 then x.opA a w l else x.op b w l) ∧
    Gives (.mov c t d a) (fun x => x.results w d fun l => x.opA a w l) ∧
    Gives (.movi c t v d) (fun x => x.results w d fun _ => v.signExtend 64) ∧
    Gives (.movih c h d a) (fun x => [(x.dstOf d, fun l => h ++ (x.a32 a l).extractLsb' 0 16)]) ∧
    Gives (.lea c sh d a b) (fun x => [(x.dstOf d, fun l => x.a32 a l + x.b32 b l <<< sh.toNat)]) ∧
    Gives (.lea64 c t sh d a b) fun x => x.results true d fun l =>
      x.opA a true l + (if t = .n32 then (x.b32 b l).setWidth 64 else (x.b32 b l).signExtend 64) <<< sh.toNat

/-- SPR reads a special register (its destination is never a predicate), VTAG a tag; SPW and SETIX write %lanepart, %fflags and %vx from
the lowest active lane, and with no active lane nothing (R46, R163). -/
def Obligations.SpecialRegisters : Prop :=
  ∀ (c : Ctl) (t : ITy) (n : Fin 192) (tgt : Bool) (d a : Opnd) (r : BitVec 8),
    (d.code.extractLsb' 8 2 ≠ 2 → Gives (.spr c t d (.spc n)) fun x => x.results (ITy.wide t) d fun l =>
      pairOf (special x.s x.c x.q x.k (n.val + 64) l) (special x.s x.c x.q x.k (n.val + 65) l)) ∧
    Gives (.vtag c d (.vec r)) (fun x => [(x.dstOf d, fun l => BitVec.ofNat 32 (x.k.reg (l / 32) (r.toNat + x.ixAdd false)).tag)]) ∧
    GivesAnd (.spw c (.spc 10) a) (fun _ => []) (fun _ => 0) (fun x k => match x.low with
      | some l => { k with lanepart := clampPart (declaredWidth x.launch.widthCode) x.k.width (x.a32 a l).toNat }
      | none => k) ∧
    GivesAnd (.spw c (.spc 12) a) (fun _ => []) (fun _ => 0) (fun x k => match x.low with
      | some l => { k with fflags := (x.a32 a l).setWidth 5 }
      | none => k) ∧
    GivesAnd (.spw c (.spc 13) a) (fun _ => []) (fun _ => 0) (fun x k => match x.low with
      | some l => { k with vx := x.a32 a l &&& 0x1FF }
      | none => k) ∧
    GivesAnd (.setix c tgt a) (fun _ => []) (fun _ => 0) (fun x k => match x.low with
      | some l => { k with vx := (BitVec.ofBool tgt ++ (x.a32 a l).extractLsb' 0 8 : BitVec 9).setWidth 32 }
      | none => k)

/-! ### Predicates, control and fibres -/

/-- PAND, POR, PXOR, PNOT and PMOV on one predicate or on the predicate word (R165), and ELECT (R170). That PNOT takes a negated
source is the model's reading (log entry 37). -/
def Obligations.PredicateOps : Prop :=
  ∀ (c : Ctl) (na nb last : Bool) (d a b : Opnd),
    let bits := fun (v : Iss → Nat → BitVec 7) (x : Iss) => match x.dstOf d with
      | .prd p => ([(.prd p, fun l => truth ((v x l).getLsbD 0))] : Results)
      | e => [(e, fun l => (v x l).setWidth 32)]
    Gives (.pand c na nb d a b) (bits fun x l => x.predOp a na l &&& x.predOp b nb l) ∧
    Gives (.por c na nb d a b) (bits fun x l => x.predOp a na l ||| x.predOp b nb l) ∧
    Gives (.pxor c na nb d a b) (bits fun x l => x.predOp a na l ^^^ x.predOp b nb l) ∧
    Gives (.pnot c na d a) (bits fun x l => ~~~(x.predOp a na l)) ∧
    Gives (.pmov c na d a) (bits fun x l => x.moveBits na a l) ∧
    Gives (.elect c last d) fun x => predResults d fun l =>
      let ls := laneList (x.act &&& x.k.tile l)
      (if last then ls.getLast? else ls.head?) == some l

/-- BRA, BRX, CALL, CALLX and RET (R166): active lanes take their targets, the others of the batch fall through, and a call's
link, the instruction's address + 12, is written in the active lanes after the target was read. -/
def Obligations.ControlTransfers : Prop :=
  ∀ (c : Ctl) (off : BitVec 24) (d a : Opnd),
    let label := fun (x : Iss) (_ : Nat) => x.pc + 4 * off.signExtend 64
    let link := fun (x : Iss) => x.results true d fun _ => x.pc + 12
    Transfers (.bra c off) label (fun _ => []) ∧ Transfers (.brx c a) (fun x => x.opA a true) (fun _ => []) ∧
    Transfers (.call c off d) label link ∧ Transfers (.callx c d a) (fun x => x.opA a true) link ∧
    Transfers (.ret c a) (fun x => x.opA a true) fun _ => []

/-- NOP, YIELD, EXIT, IDMB, IDME and CONV (R22, R24, R167, R168, R174). EXIT parks the skein with its active fibres at the EXIT until they
end, and the rest of the batch stands behind it; a CONV goes on once every live fibre that may issue stands at it. Which fibres a CONV
waits for is the model's reading (log entry 45). -/
def Obligations.StraightControl : Prop :=
  ∀ c : Ctl,
    Gives (.nop c) (fun _ => []) ∧
    GivesAnd (.idmb c) (fun _ => []) (fun _ => 0) (fun x k => if x.act = 0 then k else { k with idem := true }) ∧
    Answers (.yield c) false (fun _ => []) (fun x => x.act ≠ 0)
      (fun x => x.finish x.s (x.s.arrive x.c x.q (x.advance x.k)).yieldTo false) ∧
    Answers (.yield c) false (fun _ => []) (fun x => x.act = 0) (fun x => x.skeinOnly x.k) ∧
    Answers (.exit c) false (fun _ => []) (fun x => x.act ≠ 0 ∧ x.act ≠ x.batch) (fun x => x.finish x.s
      { (x.advance x.k).mapFibres x.act fun _ f => { f with pc := x.pc } with park := some (.exit x.act) } true) ∧
    Answers (.exit c) false (fun _ => []) (fun x => x.act ≠ 0 ∧ x.act = x.batch) (fun x => x.finish x.s
      { x.k.setPass x.pc 0 with cur := none, gates := x.k.gates.filter (fun g => g.pc != x.pc), park := some (.exit x.act) } true) ∧
    Answers (.exit c) false (fun _ => []) (fun x => x.act = 0 ∧ x.batch ≠ 0) (fun x => x.finish x.s (x.advance x.k) true) ∧
    Answers (.idme c) false (fun _ => []) (fun x => x.act ≠ 0) (fun x => x.finish
      ((laneList x.act).foldl (fun s l => s.updLot (x.k.laneLot l) fun l => { l with idemx := true }) x.s)
      (x.advance { x.k with idem := false }) false) ∧
    ∀ s x, Issues (.conv c) s x false [] → x.k.present &&& ~~~x.batch = 0 → x.k.gates = [] →
      ∃ g, exec (.conv c) s = .next (x.after (.conv c) (({ x with k := { x.k with gates := [g] } } : Iss).skeinOnly { x.k with gates := [g] }))

/-- FNEW and REGRP (R21, R33, R84, R169, R171): a fibre made by FNEW stands at the label in an empty lane with the next rank of
its lot and all predicates false, and issues from the next clock on; a batch that issues REGRP waits there with its keys. That FNEW waits while
its domain shuffles is the model's choice (log entry 111). -/
def Obligations.Fibres : Prop :=
  (∀ (c : Ctl) (off : BitVec 24) (d a b : Opnd) (s : State) (x : Iss), Issues (.fnew c off d a b) s x false [] →
    (x.shuffling = false → exec (.fnew c off d a b) s = .next (x.after (.fnew c off d a b) (x.createFibres off d a b))) ∧
    (x.shuffling = true → exec (.fnew c off d a b) s = .next (x.after (.fnew c off d a b) x.s))) ∧
  (∀ (s t : State) (n q l v : Nat) (pc : DWord) (tag : TagR) (w : Word) (k : Skein), s.emptyLane n = some (q, l, k) →
    s.skein (s.lot n).core q = some k → l < k.lanes.length → s.newFibre n pc v tag w = some t → (amGet s.lots n).isSome = true →
    (t.lot n).rankCtr = (s.lot n).rankCtr + 1 ∧ t.mem = s.mem ∧
    ∃ k' f, t.skein (s.lot n).core q = some k' ∧ k'.fibre l = some f ∧ f.pc = pc ∧ f.preds = 0 ∧ f.lot = n ∧ f.wait = none ∧
      f.young = true ∧ f.rank = BitVec.ofNat 32 (s.lot n).rankCtr ∧ ∀ j, j ≠ l → k'.fibre j = k.fibre j) ∧
  ∀ (c : Ctl) (a : Opnd), Answers (.regrp c a) false Iss.regrpHits (fun _ => True) fun x =>
    x.finish x.s (x.waiting x.k fun l => .regrp ((x.a32 a l).setWidth 16)) true

/-! ### Floating point -/

/-- FADD, FSUB, FMUL, FFMA, FMIN, FMAX, FMINM and FMAXM (R177 to R179), element by element, with an operand or a wide immediate
second; the flags of an instruction are those of its active lanes together (R48). -/
def Obligations.FpArithmetic : Prop :=
  ∀ (c : Ctl) (t : FTy) (r : RMode) (d a b e : Opnd) (v : BitVec 24),
    let f := FTy.fp t
    let w := FTy.wide t
    let lane2 := fun (g : Nat → Nat → Nat × FFlags) (x : Iss) l =>
      fpPack t fun i => g (fpElem t a (x.opA a w l) i) (fpElem t b (x.op b w l) i)
    let laneW := fun (g : Nat → Nat → Nat × FFlags) (x : Iss) l => fpPack t fun i => g (fpElem t a (x.opA a w l) i) (wideImm t v)
    let both := fun (i : FSrc → Instr) (g : Nat → Nat → Nat × FFlags) =>
      Gives (i (.opnd b)) (fun x => x.results w d fun l => (lane2 g x l).1) (fun x => orFlags (x.lanes (lane2 g x))) ∧
      Gives (i (.wide v)) (fun x => x.results w d fun l => (laneW g x l).1) (fun x => orFlags (x.lanes (laneW g x)))
    let lane3 := fun (x : Iss) l => fpPack t fun i => fpFma f (effMode c r) (decodeF f (fpElem t a (x.opA a w l) i))
      (decodeF f (fpElem t b (x.op b w l) i)) (decodeF f (fpElem t e (x.op e w l) i))
    both (.fadd c t r d a) (onVals t (fpAdd f (effMode c r))) ∧
    both (.fsub c t r d a) (onVals t fun p q => fpAdd f (effMode c r) p q.negate) ∧
    both (.fmul c t r d a) (onVals t (fpMul f (effMode c r))) ∧
    both (.fmin c t d a) (fpMinMax f false false) ∧ both (.fmax c t d a) (fpMinMax f true false) ∧
    both (.fminm c t d a) (fpMinMax f false true) ∧ both (.fmaxm c t d a) (fpMinMax f true true) ∧
    Gives (.ffma c t r d a b e) (fun x => x.results w d fun l => (lane3 x l).1) fun x => orFlags (x.lanes (lane3 x))

/-- FCMP and FSET write the truth of the condition, FCLASS one bit of ten, FRND, FSCL and FEXT a value (R180, R181); each with
its flags. -/
def Obligations.FpComparesAndScale : Prop :=
  ∀ (c : Ctl) (cc : FCond) (t : FTy) (r : RMode) (exact : Bool) (d a b : Opnd),
    let f := FTy.fp t
    let w := FTy.wide t
    let cmp := fun (x : Iss) l =>
      let p := fpCmp cc (decodeF f (fpElem t a (x.opA a w l) 0)) (decodeF f (fpElem t b (x.op b w l) 0))
      ((if p.1 then 1 else 0 : DWord), p.2)
    let one := fun (g : Nat → Nat × FFlags) (x : Iss) l => fpPack t fun i => g (fpElem t a (x.opA a w l) i)
    let ext := fun (x : Iss) l =>
      let p := fpExtExp (decodeF f (fpElem t a (x.opA a w l) 0))
      ((p.1.setWidth 64 : DWord), p.2)
    let scl := fun (x : Iss) l => fpPack t fun i => fpScl f (effMode c r) (decodeF f (fpElem t a (x.opA a w l) i)) (x.b32 b l).toInt
    Gives (.fcmp c cc t d a b) (fun x => predResults d fun l => (cmp x l).1 != 0) (fun x => orFlags (x.lanes (cmp x))) ∧
    Gives (.fset c cc t d a b) (fun x => x.results false d fun l => (cmp x l).1) (fun x => orFlags (x.lanes (cmp x))) ∧
    Gives (.frnd c t r exact d a) (fun x => x.results w d fun l => (one (fpRnd f (effMode c r) exact) x l).1)
      (fun x => orFlags (x.lanes (one (fpRnd f (effMode c r) exact) x))) ∧
    Gives (.fclass c t d a) (fun x => x.results false d fun l =>
      BitVec.ofNat 64 (fpClass f (fpElem t a (x.opA a w l) 0))) ∧
    Gives (.fscl c t r d a b) (fun x => x.results w d fun l => (scl x l).1) (fun x => orFlags (x.lanes (scl x))) ∧
    Gives (.fext c true t d a) (fun x => x.results w d fun l => (one (fun p => fpExtSig f (decodeF f p)) x l).1)
      (fun x => orFlags (x.lanes (one (fun p => fpExtSig f (decodeF f p)) x))) ∧
    Gives (.fext c false t d a) (fun x => x.results false d fun l => (ext x l).1) fun x => orFlags (x.lanes (ext x))

/-- CMUL, CFMA, VDOT2 and VDOT4 (R182, R183): the parts of a complex product and the dot products are chunks, rounded once. -/
def Obligations.ComplexAndDots : Prop :=
  ∀ (c : Ctl) (t : FTy) (r : RMode) (cja ua ub sat : Bool) (d a b e : Opnd),
    let m := effMode c r
    let mul := fun (x : Iss) l => complexLane m cja (x.opA a true l) (x.op b true l) none
    let fma := fun (x : Iss) l => complexLane m cja (x.opA a true l) (x.op b true l) (some (x.op e true l))
    let dot := fun (x : Iss) l =>
      let term := fun i => mulTerm (decodeF (FTy.fp t) (fpElem t a (x.opA a false l) i)) (decodeF (FTy.fp t) (fpElem t b (x.op b false l) i))
      let p := roundChunk .f32 m [term 0, term 1, decodeF .f32 (fpElem .f32 e (x.op e false l) 0)]
      ((BitVec.ofNat 64 p.1 : DWord), p.2)
    let byte := fun (u : Bool) (o : Opnd) (v : DWord) (i : Nat) =>
      if u then ((byteOf o v i).toNat : Int) else ((byteOf o v i).extractLsb' 0 8 : BitVec 8).toInt
    let sum := fun (x : Iss) l => (x.b32 e l).toInt +
      byte ua a (x.opA a false l) 0 * byte ub b (x.op b false l) 0 + byte ua a (x.opA a false l) 1 * byte ub b (x.op b false l) 1 +
      byte ua a (x.opA a false l) 2 * byte ub b (x.op b false l) 2 + byte ua a (x.opA a false l) 3 * byte ub b (x.op b false l) 3
    Gives (.cmul c r cja d a b) (fun x => x.results true d fun l => (mul x l).1) (fun x => orFlags (x.lanes (mul x))) ∧
    Gives (.cfma c r cja d a b e) (fun x => x.results true d fun l => (fma x l).1) (fun x => orFlags (x.lanes (fma x))) ∧
    Gives (.vdot2 c t r d a b e) (fun x => x.results false d fun l => (dot x l).1) (fun x => orFlags (x.lanes (dot x))) ∧
    Gives (.vdot4 c ua ub sat d a b e) fun x => x.results false d fun l => fit .i32 sat (sum x l)

/-- The special functions are long-latency: their correctly rounded results wait in the return buffer (R55, R184, R185). -/
def Obligations.SpecialFunctions : Prop :=
  ∀ (c : Ctl) (t : FTy) (r : RMode) (d a : Opnd),
    let lane := fun (g : FVal → Nat × FFlags) (x : Iss) l =>
      let p := g (decodeF (FTy.fp t) (fpElem t a (x.opA a (FTy.wide t) l) 0))
      ((BitVec.ofNat 64 p.1 : DWord), p.2)
    let by' := fun (i : Instr) (g : FVal → Nat × FFlags) => GivesPending i
      (fun x => x.results (FTy.wide t) d fun l => (lane g x l).1) (fun x => orFlags (x.lanes (lane g x)))
    by' (.rcp c t r d a) (fpDiv (FTy.fp t) (effMode c r) (FVal.ofInt 1)) ∧ by' (.rsq c t d a) (fpRsq (FTy.fp t) .rne) ∧
    by' (.sqrt c t r d a) (fpSqrt (FTy.fp t) (effMode c r)) ∧ by' (.exp2 c t d a) (fpExp2 (FTy.fp t) .rne) ∧
    by' (.log2 c t d a) (fpLog2 (FTy.fp t) .rne) ∧ by' (.sinp c t d a) (fpSinCos (FTy.fp t) .rne false) ∧
    by' (.cosp c t d a) (fpSinCos (FTy.fp t) .rne true) ∧ by' (.tanh c t d a) (fpTanh (FTy.fp t) .rne)

/-- CVT, CVTS, SRSEED, PACKF and UNPKF (R74, R187 to R192): under SR the generators of the active lanes advance by one draw per
element, in every other mode they keep their states; SRSEED seeds every lane of the skein. -/
def Obligations.Conversions : Prop :=
  ∀ (c : Ctl) (df sf t : Fmt) (r : RMode) (hi : Bool) (q : BitVec 2) (d a b : Opnd),
    let m := effMode c r
    let draws := fun (n : Nat) (x : Iss) (k : Skein) => if m = .sr then
      { k with gens := (laneList x.act).foldl (fun g l => amPut g l (genDraw (x.k.gen l) n).2) x.k.gens } else k
    let rw := fun (n : Nat) (x : Iss) (l e : Nat) => if m = .sr then ((genDraw (x.k.gen l) n).1[e]?).getD 0 else 0
    let wide := fun (u : Fmt) => NumTy.is64 (Fmt.num u)
    let cvt := fun (x : Iss) l => cvtOne (Fmt.num df) (Fmt.num sf) m (rw 1 x l 0) (numElem (Fmt.num sf) a (x.opA a (wide sf) l))
    let two := fun (x : Iss) l =>
      let p := cvtOne (Fmt.num df) (Fmt.num sf) m (rw 2 x l 0) (numElem (Fmt.num sf) a (x.opA a false l))
      let u := cvtOne (Fmt.num df) (Fmt.num sf) m (rw 2 x l 1) (numElem (Fmt.num sf) b (x.op b false l))
      (p.1 ||| u.1 <<< 16, p.2 ||| u.2)
    let cvts := fun (x : Iss) l => cvtScaled (Fmt.num df) (Fmt.num sf) m (rw 1 x l 0) (numElem (Fmt.num sf) a (x.opA a (wide sf) l))
      (fpElem .f32 b (x.op b false l) 0)
    let src := fun (x : Iss) (l n : Nat) => if n < 2 then (x.opA a true l).toNat / 2 ^ (32 * n) % 2 ^ 32
      else (x.op b true l).toNat / 2 ^ (32 * (n - 2)) % 2 ^ 32
    let pack := fun (x : Iss) l =>
      let el := fun n => cvtOne (Fmt.num t) (.fp .f32) m (rw 4 x l n) (src x l n)
      let sum := fun (w : Nat) => (el 0).1.toNat % 2 ^ w + (el 1).1.toNat % 2 ^ w * 2 ^ w + (el 2).1.toNat % 2 ^ w * 2 ^ (2 * w) +
        (el 3).1.toNat % 2 ^ w * 2 ^ (3 * w)
      let old := (x.dstWord d l).toNat
      let v := if t = .e2m1 then (if hi then old % 2 ^ 16 + sum 4 * 2 ^ 16 else old / 2 ^ 16 * 2 ^ 16 + sum 4) else sum 8
      ((BitVec.ofNat 64 v : DWord), (el 0).2 ||| (el 1).2 ||| (el 2).2 ||| (el 3).2)
    let unpack2 := fun (x : Iss) l =>
      let w := match t with | .e2m1 => 4 | .e4m3 | .e5m2 => 8 | _ => 16
      let first := match t with | .e2m1 => 2 * q.toNat | .e4m3 | .e5m2 => 2 * (q.toNat % 2) | _ => 0
      let el := fun n => match a with
        | .imm v => (match Fmt.num t with | .fp f => fpImm f v | _ => 0)
        | _ => (x.opA a false l).toNat / 2 ^ (w * (first + n)) % 2 ^ w
      let p := cvtOne (.fp .f32) (Fmt.num t) .rne 0 (el 0)
      let u := cvtOne (.fp .f32) (Fmt.num t) .rne 0 (el 1)
      (p.1 ||| u.1 <<< 32, p.2 ||| u.2)
    GivesAnd (.cvt c df sf r d a none) (fun x => x.results (wide df) d fun l => (cvt x l).1) (fun x => orFlags (x.lanes (cvt x))) (draws 1) ∧
    GivesAnd (.cvt c df sf r d a (some b)) (fun x => x.results false d fun l => (two x l).1) (fun x => orFlags (x.lanes (two x))) (draws 2) ∧
    GivesAnd (.cvts c df sf r d a b) (fun x => x.results (wide df) d fun l => (cvts x l).1) (fun x => orFlags (x.lanes (cvts x))) (draws 1) ∧
    GivesAnd (.srseed c a) (fun _ => []) (fun _ => 0) (fun x k => match x.low with
      | some l => { k with gens := (List.range x.k.width).map fun i => (i, x.a32 a l ^^^ BitVec.ofNat 32 (i * 0x9E3779B9)) }
      | none => k) ∧
    GivesAnd (.packf c t r hi d a b) (fun x => x.results false d fun l => (pack x l).1) (fun x => orFlags (x.lanes (pack x))) (draws 4) ∧
    Gives (.unpkf c t q d a) (fun x => x.results true d fun l => (unpack2 x l).1) fun x => orFlags (x.lanes (unpack2 x))

/-- WELF and WMRG update a triple of registers, BSINIT and BSRD a stream block, and BSRD delivers its field (R186, R193 to
R195). -/
def Obligations.TriplesAndStreams : Prop :=
  ∀ (c : Ctl) (r : RMode) (signed : Bool) (cur : BitVec 5) (v : BitVec 8) (d a b : Opnd),
    let base := fun (x : Iss) => v.toNat + x.ixAdd true
    let blk := fun (x : Iss) => v.toNat + x.ixAdd false
    let triple := fun (g : Iss → Nat → Triple3) (x : Iss) => ([
      (.vec (base x), fun l => BitVec.ofNat 32 (g x l).n), (.vec (base x + 1), fun l => BitVec.ofNat 32 (g x l).mean),
      (.vec (base x + 2), fun l => BitVec.ofNat 32 (g x l).m)] : Results)
    let flags := fun (g : Iss → Nat → Triple3) (x : Iss) => orFlags (x.lanes fun l => (0, (g x l).fl))
    let old := fun (x : Iss) (i l : Nat) => (x.k.vlane (base x + i) l).toNat
    let welf := fun (x : Iss) l => welfStep (effMode c r) (old x 0 l) (old x 1 l) (old x 2 l) (fpElem .f32 a (x.opA a false l) 0)
    let wmrg := fun (x : Iss) l => wmrgStep (effMode c r) (old x 0 l) (old x 1 l) (old x 2 l)
      (x.groupLane a 0 l).toNat (x.groupLane a 1 l).toNat (x.groupLane a 2 l).toNat
    let read := fun (x : Iss) l => readStream signed (pairOf (x.k.vlane (blk x) l) (x.k.vlane (blk x + 1) l))
      (pairOf (x.k.vlane (blk x + 2) l) (x.k.vlane (blk x + 3) l)) (x.k.vlane (blk x + 4) l) (x.b32 b l)
    Gives (.welf c r (.vec v) a) (triple welf) (flags welf) ∧ Gives (.wmrg c r (.vec v) a) (triple wmrg) (flags wmrg) ∧
    Gives (.bsinit c (.vec v) a (some (b, cur))) (fun x => [
      (.vec (base x), fun l => loOf (x.opA a true l)), (.vec (base x + 1), fun l => hiOf (x.opA a true l)),
      (.vec (base x + 2), fun l => loOf (x.op b true l)), (.vec (base x + 3), fun l => hiOf (x.op b true l)),
      (.vec (base x + 4), fun _ => cur.setWidth 32 ||| 0x80)]) ∧
    Gives (.bsinit c (.vec v) a none) (fun x => [
      (.vec (base x + 2), fun l => loOf (x.opA a true l)), (.vec (base x + 3), fun l => hiOf (x.opA a true l)),
      (.vec (base x + 4), fun l => x.k.vlane (base x + 4) l &&& 0x11F ||| 0x80)]) ∧
    Gives (.bsrd c signed d (.vec v) b) fun x => [
      (.vec (blk x), fun l => loOf (read x l).win), (.vec (blk x + 1), fun l => hiOf (read x l).win),
      (.vec (blk x + 2), fun l => loOf (read x l).rf), (.vec (blk x + 3), fun l => hiOf (read x l).rf),
      (.vec (blk x + 4), fun l => (read x l).cw), (x.dstOf d, fun l => (read x l).fld)]

/-! ### Cross-lane -/

/-- PART sets the tile width; VOTE, SHFL, MATCH, REDUX and SCAN issue once every live lane of their member mask stands in the batch, whose
gate there is theirs, and their results wait in the return buffer (R26, R38, R197 to R199). How MATCH answers in a tile of 64 lanes and
what VOTE.every takes of guarded-off lanes are the model's readings (log entries 41 and 23). -/
def Obligations.CrossLane : Prop :=
  ∀ (c : Ctl) (wide wrap neg one excl : Bool) (sm : ShflM) (o : RedOp) (t : Fmt) (pf : BitVec 3) (mask : Option (BitVec 6)) (d a b : Opnd),
    let gathered := fun (x : Iss) => x.k.present &&& lanesWhere x.k.width (x.k.inMask mask) &&& ~~~x.batch = 0 ∧
      ∀ g ∈ x.k.gates, g.pc = x.pc → g.conv = false ∧ g.mask = mask
    let gives := fun (i : Instr) (ws : Iss → Lanes → Results) (fl : Iss → Lanes → FFlags) =>
      ∀ s x, Issues i s x true (x.maskHits mask) → gathered x →
        CompletesPending i s x (x.participants mask) (ws x (x.participants mask)) (fl x (x.participants mask))
    let votes := fun (x : Iss) (part : Lanes) l => (laneList (part &&& x.k.tile l)).map fun i => (x.predOp a neg i).getLsbD 0
    let keys := fun (x : Iss) (part : Lanes) l => (laneList (part &&& x.k.tile l)).map fun i => (i, x.opA a wide i)
    let sum := fun (counts : Nat → Nat → Bool) (x : Iss) (part : Lanes) l => if part.getLsbD l
      then x.combine o t (effMode c .rne) a ((laneList (part &&& x.k.tile l)).filter (counts l)) else (0, 0)
    let big := t == .f64 || t == .i64 || t == .n64
    let flagsOf := fun (counts : Nat → Nat → Bool) (x : Iss) (part : Lanes) => orFlags ((List.range x.k.width).map (sum counts x part))
    let before := fun l i => if excl then decide (i < l) else decide (i ≤ l)
    GivesAnd (.part c a) (fun _ => []) (fun _ => 0) (fun x k => match x.low with
      | some l => { k with lanepart := clampPart (declaredWidth x.launch.widthCode) x.k.width (x.a32 a l).toNat }
      | none => k) ∧
    gives (.vote c .every wide neg mask d a) (fun x part => predResults d fun l => (votes x part l).all id) (fun _ _ => 0) ∧
    gives (.vote c .some wide neg mask d a) (fun x part => predResults d fun l => (votes x part l).any id) (fun _ _ => 0) ∧
    gives (.vote c .same wide neg mask d a) (fun x part => predResults d fun l =>
      (votes x part l).all id || !(votes x part l).any id) (fun _ _ => 0) ∧
    gives (.vote c .bits wide neg mask d a) (fun x part => x.results wide d fun l =>
      x.tileMask (laneList (part &&& x.k.tile l)) fun i => (x.predOp a neg i).getLsbD 0) (fun _ _ => 0) ∧
    gives (.shfl c sm wide wrap pf mask d a b) (fun x _ =>
      x.results wide d (fun l => x.opA a wide ((x.shflFrom sm wrap mask b l).getD l)) ++
        [(.prd pf.toNat, fun l => truth (x.shflFrom sm wrap mask b l).isNone)]) (fun _ _ => 0) ∧
    gives (.mtch c one wide mask d a) (fun x part => if one
      then predResults d fun l => (keys x part l).all fun e => e.2 == x.opA a wide l
      else x.results false d fun l => x.tileMask (laneList (part &&& x.k.tile l)) fun i => x.opA a wide i == x.opA a wide l)
      (fun _ _ => 0) ∧
    gives (.redux c o t mask d a) (fun x part => x.results big d fun l => (sum (fun _ _ => true) x part l).1) (flagsOf fun _ _ => true) ∧
    gives (.scan c o t excl mask d a) (fun x part => x.results big d fun l => (sum before x part l).1) (flagsOf before)

/-! ### Memory instructions -/

/-- LD, LDC, LDL and LD.fmt (R200 to R204): a load of ordinary lots is pending with its lane addresses and its consecutive
destinations; a `.sc` load first waits as a release does (R115). -/
def Obligations.Loads : Prop :=
  ∀ (c : Ctl) (m : MemM) (h : CacheHint) (off : BitVec 24) (d a : Opnd) (s : State) (x : Iss), x.Ordinary →
    let addr := fun (sp : Space) => x.spaceAddr sp a (sx24 off)
    let loads := fun (i : Instr) (sp : Space) => Issues i s x true (x.accessHits i fun acc => addr acc.sp) →
      (m.ord = .sc → x.Ready m.scope) → CompletesAccess i s x (addr sp) (x.dsts d (MemM.regs m))
    loads (.ld c m off d a) .g ∧ loads (.ldc c m off d a) .c ∧ loads (.ldl c m off d a) .l ∧
    (Issues (.ldFmt c h off d a) s x true (Instr.hits (.ldFmt c h off d a) x) →
      CompletesAccess (.ldFmt c h off d a) s x (addr .g) (x.dsts d 2))

/-- LDS, LDD, BTEST, ATOM and ATOMS (R202, R206, R207, R216): a read of a scratchpad, and an atomic there, is performed when it issues, as
far as nothing makes a lane wait, but that a load may be performed later (R267, log entry 113); a global atomic is pending with its lane
addresses; a release, and there every ordered access at `.quad` or wider, first waits (R115, R202). The value read goes to the
destination. That no release waits with no active lane is the model's reading (log entry 51). -/
def Obligations.ScratchLoadsAndAtomics : Prop :=
  (∀ (c : Ctl) (m : MemM) (die : Bool) (off : BitVec 24) (d a b : Opnd) (s : State) (x : Iss), x.Ordinary →
    let addr := fun (sp : Space) => x.spaceAddr sp a (sx24 off)
    let loads := fun (i : Instr) (sp : Space) => Issues i s x true (x.accessHits i fun acc => addr acc.sp) →
      (m.ord = .sc ∨ m.ord ≠ .plain ∧ Scope.wide m.scope = true → x.act ≠ 0 → x.Ready m.scope) →
      (x.later i = false → CompletesNow i s x (addr sp) (x.dsts d (MemM.regs m))) ∧
        (x.later i = true → CompletesAccess i s x (addr sp) (x.dsts d (MemM.regs m)))
    loads (.lds c m off d a) .s ∧ loads (.ldd c m off d a) .d ∧
    (Issues (.btest c die off d a b) s x true (x.objHits die a off) →
      CompletesNow (.btest c die off d a b) s x (addr (if die then .d else .s)) [x.dstOf d])) ∧
  ∀ (c : Ctl) (m : AtomM) (die : Bool) (d a : Opnd) (v : AtomArg) (s : State) (x : Iss), x.Ordinary →
    let releases := MOrd.releases m.ord = true → x.act ≠ 0 → x.Ready m.scope
    let off : DWord := match v with | .op2 _ _ o => o.signExtend 64 | .cas _ _ o => o.signExtend 64
    let dsts := x.dsts d (if Fmt.wide64 m.t then 2 else 1)
    (Issues (.atom c m d a v) s x true (x.accessHits (.atom c m d a v) fun acc => x.spaceAddr acc.sp a off) → releases →
      CompletesAccess (.atom c m d a v) s x (x.spaceAddr .g a off) dsts) ∧
    (Issues (.atoms c m die d a v) s x true (x.accessHits (.atoms c m die d a v) fun acc => x.spaceAddr acc.sp a off) → releases →
      (m.ord ≠ .plain ∧ Scope.wide m.scope = true → x.act ≠ 0 → x.Ready m.scope) →
      CompletesNow (.atoms c m die d a v) s x (x.spaceAddr (if die then .d else .s) a off) dsts)

/-- ST, STL, RED, JOINC and TLADV (R84, R173, R201, R208, R218): the core accepts the store with the addresses and bytes of its
active lanes, an immediate of RED converted to a floating-point TYPE (R135); a release first waits (R115). With no active lane nothing is
stored. That no release waits then is the model's reading (log entry 51). -/
def Obligations.GlobalStores : Prop :=
  ∀ (c : Ctl) (m : MemM) (o : AOp) (r : AtomM) (pod : Bool) (off : BitVec 24) (a b : Opnd) (s : State) (x : Iss), x.Ordinary →
    let addr := fun (sp : Space) => x.spaceAddr sp a (sx24 off)
    let word0 := fun (l : Nat) => match x.s.locate x.k .l l (addr .l l) (MemM.size m) with
      | (.glob va, _) :: _ => va
      | _ => 0
    let stores := fun (i : Instr) (own : List Hit) (rel : Bool) (sc : Scope) (at' : Nat → DWord) (data : Nat → List Byte) =>
      Issues i s x false own →
        (x.act ≠ 0 → (rel = true → x.Ready sc) → x.NoneOlder → CompletesStore i s x at' data) ∧ (x.act = 0 → CompletesIdle i s x)
    (Cnt.num m.n * MTy.bytes m.t ≤ 16 →
      stores (.st c m off a b) (x.accessHits (.st c m off a b) fun acc => addr acc.sp) (MOrd.releases m.ord) m.scope (addr .g)
        (x.storeData m b) ∧
      stores (.stl c m off a b) (x.accessHits (.stl c m off a b) fun acc => addr acc.sp) (MOrd.releases m.ord) m.scope word0
        (x.storeData m b)) ∧
    stores (.red c o r off a b) (x.accessHits (.red c o r off a b) fun _ => addr .g) (MOrd.releases r.ord) r.scope (addr .g)
      (fun l => leBytes (match b, Fmt.num r.t with
        | .imm v, .fp f => BitVec.ofNat 64 (fpImm f v)
        | _, _ => x.op b (Fmt.wide64 r.t) l).toNat (atomBytes r.t)) ∧
    stores (.joinc c off a b) (x.globalHits 2 (addr .g)) true .pkg (addr .g) (fun l => leBytes (x.b32 b l).toNat 4) ∧
    stores (.tladv c pod off a b) (x.globalHits 4 (addr .g)) true (tlScope pod) (addr .g) fun l => leBytes (x.op b true l).toNat 8

/-- STS and STD (R86, R203): a store in a scratchpad is performed when it issues; the bytes written are those of its lanes, and no
other byte of the allocation changes. One of 16 bytes may write one half of each lane first, and the other when it issues (R106, log entry 99). -/
def Obligations.ScratchStores : Prop :=
  (∀ (c : Ctl) (m : MemM) (off : BitVec 24) (a b : Opnd) (s : State) (x : Iss) (tgt : Nat → Nat), x.Ordinary → x.NoneOlder →
    (MOrd.releases m.ord = true ∨ m.ord ≠ .plain ∧ Scope.wide m.scope = true → x.act ≠ 0 → x.Ready m.scope) →
    let addr := fun (sp : Space) (l : Nat) => (x.spaceAddr sp a (sx24 off) l).toNat
    let ready := fun (lot o : Nat → Nat) => ∀ l, x.act.getLsbD l = true → (x.s.lot (lot l)).clearedAt (o l) (MemM.size m) = true ∧
      (x.k.halfSt.getLsbD l = false → (x.s.lot (lot l)).clobbers (o l) (MemM.size m) = false)
    let stores := fun (i : Instr) (lot o : Nat → Nat) => ∀ acc, accessOf i = some acc →
      (x.halfFirst acc = false → CompletesScratch i s x lot o (x.storeData m b)) ∧
      (x.halfFirst acc = true → StartsScratch i s x lot o (x.storeData m b))
    (Issues (.sts c m off a b) s x false (x.accessHits (.sts c m off a b) fun acc => x.spaceAddr acc.sp a (sx24 off)) →
      ready x.k.laneLot (addr .s) → stores (.sts c m off a b) x.k.laneLot (addr .s)) ∧
    (Issues (.std c m off a b) s x false (x.accessHits (.std c m off a b) fun acc => x.spaceAddr acc.sp a (sx24 off)) →
      (∀ l, x.act.getLsbD l = true → x.s.dieLot (x.k.laneLot l) (addr .d l) = some (tgt l)) →
      ready tgt (fun l => addr .d l % 2 ^ 19) →
      stores (.std c m off a b) tgt (fun l => addr .d l % 2 ^ 19))) ∧
  ∀ (s : State) (n off : Nat) (bs : List Byte) (t : Option Triple), s.ScratchOk → (amGet s.lots n).isSome = true →
    (∀ j (h : j < bs.length), memRead ((s.scrWrite n off bs t).lot n).scratch (off + j) = bs[j]) ∧
    (∀ j, j < off ∨ off + bs.length ≤ j → memRead ((s.scrWrite n off bs t).lot n).scratch j = memRead (s.lot n).scratch j) ∧
    (∀ p, p ≠ n → (s.scrWrite n off bs t).lot p = s.lot p) ∧ (s.scrWrite n off bs t).mem = s.mem

/-- The acknowledgement of a store of one lane performs its bytes at their home, of 16 bytes one half (R106): they are the bytes stored, and
no other byte of memory changes (R116). What a peer device does with the bytes of a PEER page is its own (log entry 8), and which half of 16
bytes goes first is left open (log entry 99). -/
def Obligations.StoreAckWrites : Prop :=
  ∀ (s : State) (core seq : Nat) (p : PStore) (c : Ctl) (m : MemM) (off : BitVec 24) (a b : Opnd) (l : Nat) (e : Xl),
    s.MemOk → ((s.core core).stores.find? fun p => p.seq == seq) = some p → p.i = .st c m off a b → MemM.size m ≤ 16 →
    l < 64 → p.left = BitVec.ofNat 64 (2 ^ l) → s.storeBlocked core p l = false → s.checked p.lot = false →
    p.causes = [] → (∀ r ∈ (s.core core).stores, r ≠ p → r.left ≠ 0 ∧ r.seq ≠ seq) →
    let part := s.partOf (s.lot p.lot)
    let va := (p.addrs[l]?).getD 0
    let half := if MemM.size m = 16 && p.high l then 8 else 0
    let bytes := ((p.bytes l (MemM.size m)).drop half).take 8
    va.toNat % MemM.size m = 0 → s.xlate core part (va + BitVec.ofNat 64 half) true false = .ok e → s.marked e.pa = false →
    s.writeCause part e.pa bytes.length = none → s.debugWatch (s.launch (s.lot p.lot).launch) va (MemM.size m) = false →
    (∀ k, s.skein core p.slot = some k → k.trap = none ∧ k.relWait = none) →
    ∃ t, exec (.storeAck core seq) s = .next t ∧ (isFar e.pa = false → m.scope ≠ .sys → t.far = s.far) ∧
      (e.peer = true → t.mem = s.mem) ∧
      (e.peer = false → (∀ n (h : n < bytes.length), memRead t.mem (e.pa + n) = bytes[n]) ∧
        ∀ n, n < e.pa ∨ e.pa + bytes.length ≤ n → memRead t.mem n = memRead s.mem n)

/-- FENCE and CCTL (R108, R114, R115, R117, R209, R210): an acquire waits for the ordered loads and atomics before it, a release until the
writes before it are performed; at `.sys` it writes every dirty far line through to its memory; an acquire drops what L1 holds from
before; `.inv1` drops the lines it names. -/
def Obligations.FencesAndCaches : Prop :=
  (∀ (c : Ctl) (ord : MOrd) (sc : Scope) (s : State) (x : Iss), Issues (.fence c ord sc) s x false [] → x.act ≠ 0 →
    let acq := fun (y : Iss) => y.finish (y.s.stampLots (y.k.lots y.act) fun l => l.acquireStamp sc y.k.oMax)
      (y.advance (y.k.acquire sc y.s.tick)) false
    let rel : Iss := { x with s := (x.s.throughFor sc).stampLots (x.k.lots x.act) fun l => l.releaseStamp sc }
    let ready := x.s.releaseReady x.c x.q sc
    let reads := x.k.pend.any Pending.reads
    (ord ≠ .rel → reads = true → exec (.fence c ord sc) s = .next (x.after (.fence c ord sc) x.s)) ∧
    (ord = .acq → reads = false → exec (.fence c ord sc) s = .next (x.after (.fence c ord sc) (acq x))) ∧
    (ord = .rel → ready = true → exec (.fence c ord sc) s = .next (x.after (.fence c ord sc) (rel.skeinOnly x.k))) ∧
    (ord = .ar ∨ ord = .sc → reads = false → ready = true → exec (.fence c ord sc) s = .next (x.after (.fence c ord sc) (acq rel))) ∧
    (ord = .rel ∨ (ord = .ar ∨ ord = .sc) ∧ reads = false → ready = false → exec (.fence c ord sc) s = .next (x.after (.fence c ord sc)
      (x.s.setSkein x.c x.q { x.k with relWait := some ⟨x.pc, sc, x.s.tick, x.info⟩ })))) ∧
  (∀ s : State, s.MemOk → (s.throughFor .sys).hubDirty = [] ∧ (s.throughFor .sys).mem = s.mem ∧
    (∀ ln j, ln ∈ s.hubDirty → j < 128 → memRead (s.throughFor .sys).far (128 * ln + j) = memRead s.mem (128 * ln + j)) ∧
    ∀ n, n / 128 ∉ s.hubDirty → memRead (s.throughFor .sys).far n = memRead s.far n) ∧
  ∀ (c : Ctl) (o : CctlOp) (off : BitVec 24) (a b : Opnd) (s : State) (x : Iss), x.Ordinary →
    let addr := x.spaceAddr .g a (sx24 off)
    (Issues (.cctl c .inv1 off a b) s x false [] → ∃ y, y.Keeps x.s ∧
      exec (.cctl c .inv1 off a b) s = .next (x.after (.cctl c .inv1 off a b) (x.finish y (x.advance x.k) false)) ∧
      ∀ e, e ∈ (y.core x.c).l1 ↔ e ∈ (x.s.core x.c).l1 ∧ ∀ l, x.act.getLsbD l = true →
        ∀ r ∈ x.s.rangePas x.c x.part (addr l).toNat (x.b32 b l).toNat, ¬(r.1 ≤ 128 * e.1 ∧ 128 * e.1 < r.2)) ∧
    (o ≠ .inv1 → Issues (.cctl c o off a b) s x true [] → CompletesAccess (.cctl c o off a b) s x addr [])

/-- PREF, MON and MWAIT (R120, R205, R211, R212): a prefetch changes no byte of memory and no skein but its own; the fill of a line that
can be reached and that its slice, or under `.l1` L1, does not hold begins, and at its end the line is in its slice and, under `.l1`, in
L1; MON arms the watch of its lowest active lane, and MWAIT waits while an armed watch has not triggered. A watch on a scratchpad line
outside the allocation is armed as triggered, by the model's reading (log entry 50). -/
def Obligations.HintsAndMonitors : Prop :=
  ∀ (c : Ctl) (l1 scratch : Bool) (off : BitVec 24) (a : Opnd),
    (∀ s x, Issues (.pref c l1 off a) s x false [] → ∃ y, y.Keeps x.s ∧
      exec (.pref c l1 off a) s = .next (x.after (.pref c l1 off a) (x.finish y (x.advance x.k) false)) ∧
      ∀ l t, laneList x.act = [l] → x.lot.role ≠ .trailing →
        let line := (x.spaceAddr .g a (sx24 off) l).toNat / 128
        let into := l1 && t.cache == 0
        let held := if into then (amGet (x.s.core x.c).l1 (t.pa / 128)).isSome else x.s.sliceHolds x.part (128 * (t.pa / 128)) 128
        x.s.xlate x.c x.part (BitVec.ofNat 64 (128 * line)) false false = .ok t →
        (held = true ∨ t.cache = 2 → y = x.s) ∧
        (held = false → t.cache ≠ 2 → x.s.readCause x.part t.pa 128 = none →
          (∃ b, amGet (y.core x.c).prefs (t.pa / 128) = some (b, false)) ∧
          (amGet (x.s.core x.c).prefs (t.pa / 128) = none → amGet (y.core x.c).prefs (t.pa / 128) = some (into, false)))) ∧
    (∀ (s : State) (core line : Nat) (into : Bool), amGet (s.core core).prefs line = some (into, false) →
      s.wholeLine (s.partOfDie (core / 64)) line = true →
      (s.prefFill core line).mem = s.mem ∧ (s.prefFill core line).skeins = s.skeins ∧
      (isFar (128 * line) = true → (amGet (s.prefFill core line).hubLines line).isSome = true) ∧
      (isFar (128 * line) = false → (amGet (s.prefFill core line).l2 line).isSome = true) ∧
      (into = true → (amGet ((s.prefFill core line).core core).l1 line).isSome = true)) ∧
    Answers (.mon c scratch off a) false (fun _ => []) (fun x => x.low = none) (fun x => x.skeinOnly x.k) ∧
    (∀ s x l, Issues (.mon c scratch off a) s x false [] → x.low = some l →
      let v := x.spaceAddr (if scratch then .s else .g) a (sx24 off) l
      let n := x.k.laneLot l
      let armed := fun (w : Watch) => exec (.mon c scratch off a) s =
        .next (x.after (.mon c scratch off a) (x.skeinOnly { x.k with watch := some w }))
      (scratch = true → armed ⟨true, n, v.toNat / 128, v, decide ((x.s.lot n).alloc ≤ v.toNat)⟩) ∧
      (∀ t, scratch = false → x.s.xlate x.c x.part v false false = .ok t →
        armed ⟨false, n, t.pa / 128, v, decide (256 ≤ x.s.watches (homeSlice t.pa))⟩) ∧
      ∀ e j g, scratch = false → x.s.xlate x.c x.part v false false = .bad e j g → armed ⟨false, n, 0, v, true⟩) ∧
    Answers (.mwait c) false (fun _ => []) (fun x => x.act ≠ 0 ∧ ∃ w, x.k.watch = some w ∧ w.hit = false)
      (fun x => x.finish x.s (x.waiting x.k fun _ => .mwait) true) ∧
    Answers (.mwait c) false (fun _ => []) (fun x => x.act = 0 ∨ x.k.watch = none ∨ ∃ w, x.k.watch = some w ∧ w.hit = true)
      fun x => x.finish x.s (x.advance x.k) true

/-! ### Barriers and timelines -/

/-- BAR and NBAR (R31, R213, R214): once the writes before it are performed, every fibre of the batch arrives and waits, but
that an NBAR that only arrives goes on; the barrier completes when its participants have all arrived. That no release waits with
no active lane is the model's reading (log entry 51). -/
def Obligations.ExecutionBarriers : Prop :=
  ∀ (c : Ctl) (id : BitVec 4) (sc : Scope),
    let ready := fun (sc : Scope) (x : Iss) => x.act ≠ 0 → x.Ready sc
    let arrived := fun (x : Iss) (n : Nat) => x.k.mapFibres x.batch fun _ f => { f with arrived := f.arrived ||| BitVec.ofNat 16 (2 ^ n) }
    let checkAll := fun (x : Iss) (f : State → Nat → State) (s : State) => (x.k.lots x.batch).foldl f s
    Answers (.bar c .sk) false (fun _ => []) (ready .sk) (fun x =>
      x.finish x.s ((x.waiting x.k fun _ => .bar .sk false).barSk x.s.tick) true) ∧
    Answers (.bar c .lot) false (fun _ => []) (ready .lot) (fun x =>
      checkAll x (fun s n => s.nbarCheck n 0) (x.finish x.s (x.waiting (arrived x 0) fun _ => .nbar 0 false) true)) ∧
    (sc ≠ .sk → sc ≠ .lot → Answers (.bar c sc) false (fun _ => []) (ready sc) fun x =>
      checkAll x (fun s n => s.barCheck n sc) (x.finish x.s (x.waiting x.k fun _ => .bar sc false) true)) ∧
    Answers (.nbar c id true) false (fun _ => []) (ready .lot) (fun x =>
      checkAll x (fun s n => s.nbarCheck n id.toNat) (x.finish x.s (x.advance (arrived x id.toNat)) true)) ∧
    Answers (.nbar c id false) false (fun _ => []) (ready .lot) fun x =>
      checkAll x (fun s n => s.nbarCheck n id.toNat) (x.finish x.s (x.waiting (arrived x id.toNat) fun _ => .nbar id false) true)

/-- BINIT, BARV, BEXP and BWAIT (R128, R215, R216): each object that the active lanes name is changed once, by its lowest lane,
with the completion test after it; BWAIT waits for the phases of the objects named. -/
def Obligations.BarrierObjects : Prop :=
  (∀ (c : Ctl) (die : Bool) (off : BitVec 24) (a b : Opnd),
    let own := fun (x : Iss) => x.objHits die a off
    let clear := fun (x : Iss) => x.objsClear (x.objects die a off) = true
    let marked := fun (x : Iss) => if die then x.s.markSide (x.k.lots x.act) false else x.s
    let each := fun (x : Iss) (f : State → Nat → Nat → Nat → State) (s : State) =>
      x.finish ((x.objects die a off).foldl (fun s e => f s e.1.1 e.1.2 e.2) s) (x.advance x.k) false
    let sc : Scope := if die then .die else .lot
    Answers (.binit c die off a b) false own clear (fun x => each x (fun s n o l =>
      (s.updLot n fun lt => { lt with bar0 := lt.bar0.filter fun e => e.1 != o }).barObjPut n o
        (BitVec.ofNat 128 ((x.b32 b l).toNat % 2 ^ 16 * 2 ^ 80)) (x.byInstr false l)) (marked x)) ∧
    Answers (.bexp c die off a b) false own clear (fun x => each x (fun s n o l =>
      s.barPending n o ((x.b32 b l).toNat : Int) (x.byInstr false l)) (marked x)) ∧
    Answers (.barv c die off a) false own (fun x => clear x ∧ (x.act ≠ 0 → x.Ready sc)) (fun x => each x (fun s n o l =>
      s.barArrive n o (x.byInstr true l)) (marked x)) ∧
    Answers (.bwait c die off a b) false own (fun x => clear x ∧ ∃ l, x.act.getLsbD l = true ∧ (x.objAt die a off l).isSome = true)
      (fun x =>
        let ls := (laneList x.act).filter fun l => (x.objAt die a off l).isSome
        let os := ls.map fun l => (x.objAt die a off l).getD (0, 0)
        x.finish (os.foldl (fun s o => s.updLot o.1 fun lt => { lt with marks := insNat lt.marks (o.2 / 16) }) x.s)
          (x.waiting x.k fun _ => .bwait os (ls.map fun l => (x.op b false l).getLsbD 0) die) true)) ∧
  ∀ o : BitVec 128,
    let done := o.extractLsb' 64 16 = o.extractLsb' 80 16 ∧ o.extractLsb' 0 48 = 0
    (done → (barObjTest o).1.extractLsb' 64 16 = 0 ∧ (barObjTest o).1.getLsbD 96 = !o.getLsbD 96 ∧
      (barObjTest o).1.extractLsb' 80 16 = o.extractLsb' 80 16 ∧ (barObjTest o).1.extractLsb' 0 48 = 0) ∧
    (¬done → (barObjTest o).1 = o)

/-- TLWT, TLRD, SPAWN, QSRCH and QSTAT (R172, R218, R230, R231): TLWT waits for the values its active lanes name; the others are
pending with their lane addresses. That no release waits with no active lane is the model's reading (log entry 51). -/
def Obligations.TimelinesAndQueries : Prop :=
  ∀ (c : Ctl) (pod : Bool) (off : BitVec 24) (d a b : Opnd) (s : State) (x : Iss), x.Ordinary →
    let addr := x.spaceAddr .g a (sx24 off)
    (Issues (.tlwt c pod off a b) s x false (x.globalHits 4 addr) → x.act ≠ 0 →
      exec (.tlwt c pod off a b) s = .next (x.after (.tlwt c pod off a b) (x.finish x.s
        (x.waiting x.k fun _ => .tlwt ((laneList x.act).map fun l => (addr l, x.op b true l)) pod) true))) ∧
    (Issues (.tlrd c pod off d a) s x true (x.globalHits 4 addr) → CompletesAccess (.tlrd c pod off d a) s x addr (x.dsts d 2)) ∧
    (Issues (.spawn c off d a b) s x true (x.globalHits 7 addr) → (x.act ≠ 0 → x.Ready .pkg) →
      CompletesAccess (.spawn c off d a b) s x addr [x.dstOf d]) ∧
    (Issues (.qsrch c off a) s x true (x.globalHits 7 addr) → CompletesAccess (.qsrch c off a) s x addr []) ∧
    (Issues (.qstat c off d a) s x true [] → CompletesAccess (.qstat c off d a) s x addr [x.dstOf d])

/-! ### Engine commands -/

/-- CPY, CPYG, CPYM and CPY.unz (R217, R221 to R228): one copy for each active lane, in ascending order, enters the streamer's
queue with the allocations of its tile and of its barrier object, and the timeline block of a lane gives its number; a CPYM whose MMA names
a page that its check has to see and that has no translation waits for it (R389). -/
def Obligations.CopyCommands : Prop :=
  ∀ (c : Ctl) (m : CpyMode) (v : CpyX) (dec : Bool) (d a b : Opnd),
    let room := fun (x : Iss) => x.lot.role = .single ∧ x.s.quadLoad x.c + (laneList x.act).length ≤ 64
    let queue := fun (x : Iss) (y : State) (mk : Nat → Copy) =>
      let s := (laneList x.act).foldl (fun (s : State) (l : Nat) => match (mk l).tlVa.bind fun v => s.acceptTl x.c x.part v with
        | some (t, tl) => t.addCopy { mk l with tl := some tl }
        | none => s.addCopy (mk l)) y
      x.finish (s.updLot x.k.lot fun lt => { lt with openBatch := lt.openBatch + (laneList x.act).length }) x.afterStore false
    let side := fun (x : Iss) => if v.ts || v.bs then x.s.markSide (x.k.lots x.act) false else x.s
    let plain := fun (i : Instr) (x : Iss) l =>
      let y := x.copy i l (x.copyBlock b l) (x.tlOf true a l)
      let obj := blockWord y.block 6
      { y with tile := x.s.copyPlace y v.ts (blockWord y.block 5).toNat
               bar := if obj == 0xFFFFFFFF then none else x.s.copyPlace y v.bs obj.toNat }
    let own := fun (list : Bool) (x : Iss) => x.producerHits ++ x.copyAlign (x.copyBlock b) (x.tlOf true a) list
    Answers (.cpy c m v a b) false (own false) room (fun x => queue x (side x) (plain (.cpy c m v a b) x)) ∧
    Answers (.cpyg c dec v a b) false (own true) room (fun x => queue x (side x) (plain (.cpyg c dec v a b) x)) ∧
    Answers (.cpym c v d a b) false (fun x => own false x ++ x.cpymHits d) (fun x => room x ∧ x.missing (x.cpymBases d) = [])
      (fun x => queue x (side x) fun l =>
        let cmd := fun (e : MmaX × MmaVals) =>
          { x.mmaCmd e.1 e.2 with lanes := BitVec.ofNat 64 (2 ^ l), stamp := x.s.stampOf (x.k.laneLot l) }
        { plain (.cpym c v d a b) x l with mma := (x.cpymMma (x.cpymWords d l) l).map cmd }) ∧
    Answers (.cpym c v d a b) false (fun x => own false x ++ x.cpymHits d) (fun x => x.missing (x.cpymBases d) ≠ [])
      (fun x => x.asking (x.cpymBases d)) ∧
    ∀ n : BitVec 8, Answers (.cpyUnz c (.vec n) a b) false (fun x => x.producerHits ++
        hitOn 0x36 4 (x.failing fun l => match x.tlOf false b l with | some v => v.toNat % 16 != 0 | none => false)
          fun l => (x.tlOf false b l).getD 0) room fun x =>
      queue x (x.s.markSide (x.k.lots x.act) true) fun l =>
        { x.copy (.cpyUnz c (.vec n) a b) l [] (x.tlOf false b l) with
          src := x.opA a true l
          dst := pairOf (x.k.vlane (n.toNat + x.ixAdd true) l) (x.k.vlane (n.toNat + x.ixAdd true + 1) l) }

/-- SHAPE, SEAL, CPWT, LAND and LANDF (R127, R219, R220, R229, R232, R233, R392): SHAPE enters the streamer's queue with its record once the
skein's earlier accesses are performed, and waits for a page of it that has no translation; SEAL closes the open batch of its lot, and CPWT waits
for the batches that it names; each active lane of LAND sends its contribution, an immediate of which is converted to a floating TYPE (R135);
LANDF, which waits as a release at `.pkg` does, or at `.pod` for a lake of another module, sends its report once every earlier LAND of the skein
has been answered and no cause of one waits. -/
def Obligations.StreamerAndLandingCommands : Prop :=
  (∀ (c : Ctl) (slot : BitVec 4) (off : BitVec 24) (a : Opnd),
    let i := Instr.shape c slot off a
    (∀ s x l, x.low = some l → x.lot.role = .single → x.s.skeinQuiet x.c x.q x.k.seq x.k.hb = true → x.s.quadLoad x.c < 64 →
      let va := x.spaceAddr .g a (sx24 off) l
      Issues i s x false (Instr.hits i x) →
      (∀ sh, x.s.shapeAt x.c x.part va = .ok sh → exec i s = .next (x.after i
        (x.finish (x.s.addCopy { x.copy i l [] none with src := va, shape := some sh }) x.afterStore false))) ∧
      (∀ v, x.s.shapeAt x.c x.part va = .wait v → x.refused [v] = none → exec i s = .next (x.after i (x.asking [v]))) ∧
      ∀ v code, x.s.shapeAt x.c x.part va = .bad code v → exec i s = .next (x.after i
        ((x.finish x.s x.afterStore false).engineCause x.c x.q x.k.lot (laneCause x.info l x.k.seq code 255 v [])))) ∧
    Answers (.seal c) false Iss.producerHits (fun x => x.act ≠ 0) (fun x =>
      x.finish (x.s.updLot x.k.lot fun lt => { lt with batchSeq := lt.batchSeq + 1, openBatch := 0 }) (x.advance x.k) false) ∧
    ∀ s x l, x.low = some l → Issues (.cpwt c a) s x false x.producerHits →
      exec (.cpwt c a) s = .next (x.after (.cpwt c a) (x.finish x.s (x.waiting x.k fun _ => .cpwt (x.a32 a l).toNat) true))) ∧
  ∀ (c : Ctl) (t : Fmt) (off : BitVec 24) (a b : Opnd),
    let addr := fun (x : Iss) => x.spaceAddr .g a (sx24 off)
    let val := fun (x : Iss) l => match b, Fmt.num t with
      | .imm v, .fp f => BitVec.ofNat 64 (fpImm f v)
      | _, _ => x.op b (Fmt.wide64 t) l
    Answers (.land c t off a b) false (fun x => x.globalHits (Nat.log2 t.bytes) (addr x)) (fun x => x.lot.role = .single) (fun x =>
      x.finish ((laneList x.act).foldl (fun s l =>
        s.addLand (x.landMsg false (addr x l) (val x l) t.code l)) (x.s.markSide (x.k.lots x.act) true))
        x.afterStore false) ∧
    ∀ s x l, Issues (.landf c off a) s x false (x.globalHits 6 (addr x)) → laneList x.act = [l] → x.lot.role = .single →
      x.Ready (if x.s.abroad x.part (addr x l) then .pod else .pkg) → x.k.deferred = [] →
      (∀ m ∈ amVals x.s.lands, m.core = x.c → m.slot = x.q → m.report = true) →
      exec (.landf c off a) s = .next (x.after (.landf c off a) (x.finish
        (((x.s.markSide (x.k.lots x.act) true).addLand (x.landMsg true (addr x l) 0 0 l)).updLot (x.k.laneLot l) fun lt =>
          { lt with landed := lt.landed.filter fun d => d.1 != (addr x l).toNat }) x.afterStore false))

/-- MZERO, MLDA, MMA and MSTA enter the matrix engine in their place, and MSTA's result is pending; MCKPT reads an element, a
checksum or the status of a tile when it reaches the engine, and MBUD the level, the rate and the last estimate of its core (R242, R248,
R250 to R258). An MMA that names a page which its check has to see and which has no translation waits for it (R389). PKD with another TYPE as an
operand cause is the model's reading (log entry 13). -/
def Obligations.MatrixCommands : Prop :=
  (∀ (c : Ctl) (int : Bool) (tile n : BitVec 2) (m : MmaX) (d a b : Opnd) (r : BitVec 8) (s : State) (x : Iss) (l : Nat),
    x.low = some l → x.lot.role = .single →
    let enters := fun (i : Instr) (own : List Hit) (tile : Nat) (kind : MKind) => Issues i s x false own →
      exec i s = .next (x.after i ((x.finish x.s (x.advance { x.k with seq := x.k.seq + 1 }) false).enterMtx x.c (x.mcmd tile kind)))
    let v := x.mmaVals a b l
    enters (.mzero c int tile) [] tile.toNat (.zero int) ∧
    enters (.mlda c int tile n (.vec r) b) (x.fragHits b false (fragCount n)) tile.toNat (.lda int (x.b32 b l).toNat (fragCount n) x.act
      ((List.range (fragCount n)).map fun e => (List.range 32).map fun j => x.k.vlane (r.toNat + x.ixAdd false + e) j)) ∧
    (x.missing (MmaX.bases m v) = [] → x.refused (MmaX.bases m v) = none →
      enters (.mma c m a b) (match x.mmaDetail m v with | some d => [⟨0x65, d, x.act, 0⟩] | none => []) m.tile.toNat
        (.mma ⟨m, m.km1.toNat + 1, v.baseA, v.baseB, v.strideA, v.strideB⟩)) ∧
    (x.missing (MmaX.bases m v) ≠ [] → Issues (.mma c m a b) s x false [] →
      exec (.mma c m a b) s = .next (x.after (.mma c m a b) (x.asking (MmaX.bases m v)))) ∧
    (Issues (.msta c tile n d a) s x true (x.fragHits a true (fragCount n)) →
      ∃ p, p.Asks x (.msta c tile n d a) (fun _ => 0) (x.dsts d (fragCount n)) ∧
        exec (.msta c tile n d a) s = .next (x.after (.msta c tile n d a) ((x.skeinOnly (x.k.addPend p)).enterMtx x.c
          (x.mcmd tile.toNat (.sta (x.a32 a l).toNat (fragCount n) x.act x.k.seq)))))) ∧
  ∀ (c : Ctl) (tile : BitVec 2) (d a : Opnd) (s : State) (x : Iss), x.lot.role = .single →
    (Issues (.mckpt c tile d a) s x true (hitOn 0x67 255 (x.failing fun l => decide (16640 < (x.a32 a l).toNat)) fun _ => 0) →
      ∃ p, p.Asks x (.mckpt c tile d a) (fun _ => 0) (x.dsts d 2) ∧ (∀ l, l < x.k.width → p.b[l]? = some (x.opA a false l)) ∧
        exec (.mckpt c tile d a) s = .next (x.after (.mckpt c tile d a) (x.skeinOnly (x.k.addPend p)))) ∧
    (∀ (t : State) (u q l : Nat) (k : Skein) (p : Pending), p.i = .mckpt c tile d a →
      let v := (t.core u).ckpt tile.toNat (loOf ((p.b[l]?).getD 0)).toNat
      t.performLane u q k p l = .ok t [loOf v, hiOf v] 0 0 false) ∧
    (Issues (.mbud c d) s x true [] → CompletesPending (.mbud c d) s x x.act (x.results true d fun _ =>
      let u := (x.s.core x.c).refill x.s.tick (x.s.rate x.part)
      pairOf (BitVec.ofNat 32 u.level)
        (BitVec.ofNat 32 (x.s.rate x.part % 256 + u.lastT % 256 * 2 ^ 8 + if u.level < 255 then 2 ^ 16 else 0))) 0) ∧
    ∀ (u : Core) (t n : Nat), (u.refill t n).level = min 16320 (u.level + n * (t / 512 - u.refilled)) ∧
      (u.refill t n).refilled = max u.refilled (t / 512)

/-! ### Traps -/

/-- TRAP and BRK raise their causes, for their active lanes and with DETAIL 255, unless an earlier cause is met; with no active
lane they only end the segment. TRET waits with its targets, as read at issue (R175, R351, R352). -/
def Obligations.TrapInstructions : Prop :=
  ∀ (c : Ctl) (n : BitVec 5) (a : Opnd) (s : State) (x : Iss),
    let raises := fun (i : Instr) (code : Nat) => mkIss i s = some x → x.mustCompare i = false → x.cause false [] = none →
      (x.act ≠ 0 → exec i s = .next (x.raise ⟨code, 255, x.act, 0⟩)) ∧
      (x.act = 0 → exec i s = .next (x.after i (x.finish x.s (x.advance x.k) true)))
    raises (.trap c n) (0xE0 + n.toNat) ∧ raises (.brk c) 0xC0 ∧
    (Issues (.tret c a) s x false (x.tretHits a) →
      exec (.tret c a) s = .next (x.after (.tret c a) (x.finish x.s { x.k.mapFibres x.batch (fun l f =>
        { f with wait := some ⟨.tret (x.opA a true l), x.pc, x.s.tick, x.act, x.info⟩ }) with cur := none } true)))

/-- The return from a handler (R351), once every live fibre of BATCH stands at a TRET and no store of the skein to its frames is on its way: the
handler is left, s62:s63 take their words of the frame, and every fibre of BATCH stands at its target. Each half of a twin has a frame with a
STATUS of its own: without WB there nothing else of its registers changes; with it the slots of the AFFECTED lanes go to the destination, of
vector registers lane by lane, of scalars the slot of the lowest active lane if that is AFFECTED, of predicates all seven of a lane. -/
def Obligations.TretRestores : Prop :=
  ∀ (s : State) (c q : Nat) (k : Skein) (z : TrapCtx) (f0 f1 : List Byte) (tgt : Nat → DWord),
    s.skein c q = some k → k.trap = some z → k.park = none → z.later = [] → z.tl = [] → z.batch &&& k.live ≠ 0 →
    s.frameBusy c q k true = false →
    (∀ l f, (z.batch &&& k.live).getLsbD l = true → k.fibre l = some f → f.susp = none ∧ ∃ w, f.wait = some w ∧ w.w = .tret (tgt l)) →
    s.getVirtual c (s.partOf (s.lotOf k)) z.frame 2048 = some f0 →
    (k.twin = true → s.getVirtual c (s.partOf (s.lotOf k)) (z.frame + 8192) 2048 = some f1) →
    let fr := fun (l : Nat) => if l < 32 then f0 else f1
    let st := fun (l : Nat) => (BitVec.ofNat 64 (partNat (fr l) 32 8) : DWord)
    let slot := fun (d l : Nat) => (BitVec.ofNat 32 (partNat (fr l) (1152 + 128 * d + 4 * (l % 32)) 4) : Word)
    let first := fun (l : Nat) => ((st l).extractLsb' 16 8).toNat
    -- register n of kind `kind` takes its slot in lane l
    let takes := fun (kind : BitVec 2) (n l : Nat) => (st l).getLsbD 24 = true ∧ (st l).extractLsb' 11 2 = kind ∧ z.aff.getLsbD l = true ∧
      first l ≤ n ∧ n < first l + min 4 ((st l).extractLsb' 13 3).toNat
    ∃ k', (s.tretCheck c q).skein c q = some k' ∧ k'.trap = none ∧
      k'.scalar 62 = BitVec.ofNat 32 (partNat f0 64 4) ∧ k'.scalar 63 = BitVec.ofNat 32 (partNat f0 68 4) ∧
      (∀ l, (z.batch &&& k.live).getLsbD l = true → (k'.fibre l).map (fun f => (f.pc, f.wait)) = some (tgt l, none)) ∧
      ((∀ l, l < k.width → (st l).getLsbD 24 = false) → k'.regs = k.regs) ∧
      (∀ v l, l < k.width → k.live.getLsbD l = true →
        (takes 1 v l ∧ v < k.window → k'.vlane v l = slot (v - first l) l) ∧
        (¬(takes 1 v l ∧ v < k.window) → k'.vlane v l = k.vlane v l)) ∧
      (∀ n, n ≠ 62 → n ≠ 63 →
        (∀ l, lowest z.act = some l → l < k.width → takes 2 n l → n < 64 → k'.scalar n = slot (n - first l) l) ∧
        ((∀ l, lowest z.act = some l → l < k.width → takes 2 n l → 64 ≤ n) → k'.scalar n = k.scalar n)) ∧
      ∀ l, l < k.width → (k'.fibre l).map Fibre.preds = (k.fibre l).map fun f =>
        if (st l).getLsbD 24 && (st l).extractLsb' 11 2 == 3 && z.aff.getLsbD l then BitVec.ofNat 7 (partNat (fr l) (1664 + l % 32) 1) else f.preds

/-! ### Device events -/

/-- Events of a skein (R31, R33 to R36, R55, R115, R120, R143, R297, R347, R360, R363): the shuffle of a regroup, or the failing of its
domain where a word that it carries is uncorrectable, the releases of barriers
8, 24 and 96 clocks after the last arrival, a return, a trap delivered, a stall that ends, the switch of an issue slot to the
skein that has waited longest, a release that may issue again, a triggered watch, and a wait that times out. -/
def Obligations.SkeinEvents : Prop :=
  (∀ (s : State) (c n : Nat) (h : Shuffle), (s.shuffles.find? fun h => h.core == c && h.launch == n) = some h →
    exec (.regrpShuffleDone c n) s = .next (if s.carriesBad h then s.domainBad h else s.shuffleDone h)) ∧
  (∀ (s : State) (c q n : Nat) (id : BitVec 4),
    let releases := fun (b : BarRef) (d : Nat) (keys lots : Nat → Bool) (sc : Scope) (p : Wait → Bool) => d ≤ s.tick →
      (∀ e ∈ s.skeins, keys e.1 = true → ∀ f, some f ∈ e.2.lanes → lots f.lot = true → f.arrivedAt p + d ≤ s.tick) →
      exec (.barrierRelease b) s = .next (s.releaseBar keys lots sc p)
    releases (.skein c q) 0 (· == skKey c q) (fun _ => true) .sk (· == .bar .sk true) ∧
    releases (.lot n id) 8 (fun _ => true) (· == n) .lot (· == .nbar id true) ∧
    releases (.quad n) 24 (fun _ => true) (s.barLots n .quad).contains .quad (· == .bar .quad true) ∧
    releases (.die n) 96 (fun _ => true) (s.barLots n .die).contains .die (· == .bar .die true)) ∧
  (∀ (s : State) (c q : Nat) (k : Skein) (keys lots : Nat → Bool) (sc : Scope) (p : Wait → Bool), s.skein c q = some k →
    ∃ k', (s.releaseBar keys lots sc p).skein c q = some k' ∧ ∀ l, l < k.width → k'.fibre l = (k.fibre l).map fun f =>
      if keys (skKey c q) && lots f.lot && f.waitsFor p then f.release p else f) ∧
  (∀ (s : State) (c q seq : Nat) (k : Skein), s.skein c q = some k →
    (∀ p, s.pendOf c q seq = some p → p.returned = false → c < 512 → q < 64 →
      exec (.longLatencyReturn c q seq) s =
        .next ((((s.goOn c q seq).tryLanes c q seq (ascending p.i) (ascending p.i) (s.lanesNow p)).finishPend c q seq).returned c q)) ∧
    (k.mustTrap = true → exec (.trapDeliver c q) s = .next (s.boundary c q)) ∧
    (k.stallTo ≤ s.tick → exec (.stallExpiry c q) s = .next (s.setSkein c q { k with stallTo := 0 })) ∧
    (∀ r, k.relWait = some r → s.releaseReady c q r.scope = true →
      exec (.releaseWaitDone c q) s = .next ((s.throughFor r.scope).setSkein c q { k with relWait := none })) ∧
    (∀ w, k.watch = some w → w.hit = true → ∃ k', exec (.monitorTrigger c q) s = .next (s.setSkein c q k') ∧
      ∀ l, l < k.width → k'.fibre l = (k.fibre l).map fun f => if f.wait.any (fun w => w.w == .mwait) then { f with wait := none } else f) ∧
    ∀ pc, let limit := s.wdog (s.partOf (s.lotOf k))
      let late := k.overdue pc (s.shuffles.any fun h => h.core == c && h.launch == (s.lotOf k).launch) s.tick limit
      limit ≠ 0 → k.park = none → k.cycle = false → late ≠ 0 → exec (.waitTimeout c q pc) s = .next (s.timeoutWait c q k pc late)) ∧
  ∀ (s : State) (c iq : Nat) (e : Nat × Skein),
    let can := fun (e : Nat × Skein) => e ∈ s.skeins ∧ e.1 / 64 = c ∧ e.1 % 4 = iq ∧ s.canIssue c (e.1 % 64) = true
    (∀ q, (((s.core c).iq[iq]?).getD default).cur = some q → s.canIssue c q = false) → can e →
    ∃ f, can f ∧ (∀ g, can g → f.2.lastIssue = none ∨ ∃ a b, f.2.lastIssue = some a ∧ g.2.lastIssue = some b ∧ a ≤ b) ∧
      exec (.issueSlotSwitch c iq) s = .next (s.updCore c fun u =>
        { u with iq := u.iq.mapIdx fun i x => if i == iq then { x with cur := some (f.1 % 64), run := 0 } else x })

/-- Events of a core and of its translations (R20, R89, R95, R99, R370 to R374): rows cleared and handed over, an instruction
fetched word by word, a walk that fills the TLBs or faults, and the replies to a fault and its watchdog; what a retried access knew of the page
goes, so that it walks from the root. The lines that a hand-over drops are those in the rows that pass, once none of them is dirty and two rows a
clock have been dropped; which row a line lies in is the model's choice (log entry 58). -/
def Obligations.CoreAndFaultEvents : Prop :=
  (∀ (s : State) (n : Nat), (s.lot n).resident = true →
    exec (.allocationClear n) s = .next (s.updLot n fun l => { l with cleared := min l.rows (l.cleared + 2) })) ∧
  (∀ (s : State) (c rows t : Nat) (rest : List (Nat × Nat)), (s.core c).hands = (rows, t) :: rest →
    let u := s.core c
    (t ≤ s.tick → (∀ e ∈ u.l1, e.2.row < rows → s.lineDirty c e.1 = false) → exec (.carveOutHandover c) s =
      .next (s.setCore c { u with carve := max u.carve rows, hands := rest, l1 := u.l1.filter fun e => decide (rows ≤ e.2.row) })) ∧
    (s.tick < t ∨ (∃ e ∈ u.l1, e.2.row < rows ∧ s.lineDirty c e.1 = true) → exec (.carveOutHandover c) s = .next s)) ∧
  (∀ (s : State) (c q : Nat) (k : Skein) (pc : DWord) (w : Word), s.skein c q = some k →
    let near := k.pcs.flatMap (k.fetchAhead 3)
    near.contains pc = true → (k.had pc).length < 4 → s.wordAt c q k pc (k.had pc).length = some w →
    ∃ k', exec (.instructionFetch c q pc) s = .next (s.setSkein c q k') ∧ { k' with fetched := k.fetched } = k ∧
      k'.had pc = joinWord (k.had pc) w ∧ ∀ p ∈ near, p ≠ pc → k'.had p = k.had p) ∧
  (∀ (s : State) (r : AccRef) (va : DWord) (w : Want), ((s.wants r).find? fun w => w.va.toNat / 65536 == va.toNat / 65536) = some w →
    s.heldAt r w.va = false →
    let walks := fun (i : Instr) =>
      (∀ x, s.xlate (s.accUnit r) (s.accPart r) w.va w.write w.fetch = .ok x →
        exec i s = .next (s.tlbFill (s.accUnit r) (s.accPart r) w.va x)) ∧
      ∀ code level pte, s.xlate (s.accUnit r) (s.accPart r) w.va w.write w.fetch = .bad code level pte →
        exec i s = .next (s.fault r w.va code level pte)
    walks (.walkComplete r va) ∧ (s.faultLoad (s.accDie r) < 4096 → walks (.faultBufferRetry r va))) ∧
  ∀ (s : State) (part : Nat) (id : BitVec 32) (e : FaultEnt), s.faultBy part id = some e →
    exec (.faultRetry part id) s = .next (s.retryEntry e) ∧
    (s.retryEntry e).faults = s.faults.filter (fun f => f != e) ∧
    (∀ r ∈ e.who, ∀ u ∈ unitsOf (s.accUnit r), ∀ t ∈ (s.retryEntry e).tlb, t.hits u e.part e.va = false) ∧
    exec (.faultRefuse part id) s = .next (s.refuseEntry e 0) ∧
    exec (.faultRetryAll part) s = .next ((s.faults.filter fun f => f.part == part).foldl State.retryEntry s) ∧
    exec (.faultReplyNone part id) s = .next s ∧
    (s.wdog part ≠ 0 → e.tick + s.wdog part ≤ s.tick → exec (.faultWatchdog part id) s = .next (s.refuseEntry e 1))

/-- Events of the links, the host and the peers (R101, R313 to R315, R321, R334, R382 to R384, R417): a loss is counted and
fails what is outstanding, and so does the timeout of a request that has gone out, a training sets LINKUP, BAR2 reads and writes HBM, posted writes
land, one that touches the mark's offset is a mark, a mark takes the next number of its timeline, which VALUE reaches once no operation before it
runs, and counts in MARKS, and a misuse is recorded. LINKUP while a link retrains, the address of a misuse, a write partly outside its window and
when a request goes out are the model's readings (log entries 56, 63, 102 and 2). -/
def Obligations.LinkEvents : Prop :=
  (∀ (s : State) (hub : Bool),
    exec (.linkDown hub) s = .next (((s.setFld (linkWord hub) 1 1 0).setFld (linkWord hub) 32 32
      ((s.fld (linkWord hub) 32 32 + 1) % 2 ^ 32)).loseAll hub (if hub then 0x3E else 0xA5)) ∧
    exec (.linkRetrain hub) s = .next (s.setFld (linkWord hub) 1 1 0) ∧
    exec (.linkTrained hub) s = .next (s.setFld (linkWord hub) 1 1 1) ∧
    exec .fxLinkTrained s = .next ((s.setFld statusWord 1 1 1).setFld statusWord 2 1 1)) ∧
  (∀ (s : State) (r : AccRef), exec (.lateCompletion r) s = .next s ∧
    exec (.completionTimeout r) s = .next ((s.timeoutAt r true).timeoutAt r false)) ∧
  (∀ (s : State) (r : AccRef) (hub : Bool), s.farOut r hub ≠ [] →
    let sent := s.sent.find? fun e => e.1 == r && decide (s.accSince r ≤ e.2.2) && e.2.1.any (s.farOut r hub).contains
    (sent = none → s.timeoutAt r hub = s.sendOut r (s.farOut r hub)) ∧
    ∀ e, sent = some e → (s.tick < e.2.2 + s.linkTimeout hub → s.timeoutAt r hub = s) ∧
      ∀ c q seq, r = .pend c q seq → e.2.2 + s.linkTimeout hub ≤ s.tick →
        s.timeoutAt r hub = s.loseLanes c q seq hub e.2.1.contains (if hub then 0x3F else 0xA5)) ∧
  (∀ (s : State) (part pa : Nat) (bs : List Byte), s.MemOk → (∀ p ∈ pagesOf pa bs.length, s.marked (65536 * p) = false) →
    (∀ n (h : n < bs.length),
      memRead (s.portWrite part pa bs).mem (pa + n) = if s.lostHome (pa + n) then memRead s.mem (pa + n) else bs[n]) ∧
    (∀ a, a < pa ∨ pa + bs.length ≤ a → memRead (s.portWrite part pa bs).mem a = memRead s.mem a) ∧
    (bs ≠ [] → pa + bs.length ≤ 2 ^ 39 →
      exec (.hostBar2Access true pa bs) s = .next (s.portWrite 0 pa bs) ∧
      exec (.hostBar2Access false pa bs) s = .next { s with hostReply := some (s.homeRead pa bs.length,
        s.poisoned pa bs.length || (linesOf pa bs.length).any fun ln => s.lostHome (128 * ln)) })) ∧
  (∀ (s : State) (w off : Nat) (bs : List Byte) (wr : Bool), w < 64 → s.winOn w = true →
    (bs ≠ [] → off < 2 ^ 30 →
      (off + bs.length ≤ markOffset → off + bs.length ≤ s.winSize w →
        exec (.windowPostedWrite w off bs) s = .next (s.portWrite (s.winPart w) (s.winTarget w + off) bs)) ∧
      (off + bs.length ≤ markOffset → s.winSize w < off + bs.length → exec (.windowPostedWrite w off bs) s =
        .next ((s.portWrite (s.winPart w) (s.winTarget w + off) (bs.take (s.winSize w - off))).misused w off)) ∧
      (markOffset < off + bs.length → exec (.windowPostedWrite w off bs) s = exec (.frameMark w) s)) ∧
    (∀ pa, pa = s.winTl w → s.MemOk → (∀ p ∈ pagesOf pa 16, s.marked (65536 * p) = false) →
      (∀ n ∈ (s.tlCtx pa).opn, n ≤ s.tlIssued pa) → s.tlIssued pa + 1 < 2 ^ 64 →
      ∃ t, exec (.frameMark w) s = .next t ∧ t.tlIssued pa = s.tlIssued pa + 1 ∧
        t.tlValue pa = (if (s.tlCtx pa).opn = [] then max (s.tlValue pa) (s.tlIssued pa + 1) else s.tlValue pa) ∧
        t.fld (windowBlock w) 0 32 = (s.fld (windowBlock w) 0 32 + 1) % 2 ^ 32) ∧
    ((wr = true → s.winSize w ≤ off ∧ off < markOffset) → s.fld (partRegs (s.winPart w) + 0x30) 0 1 = 1 →
      ∃ e : FaultEnt, e.va = BitVec.ofNat 64 off ∧ e.code = 0x43 ∧ e.kind = .peer ∧ e.part = s.winPart w ∧ exec (.windowMisuse w off wr) s = .next
        { s.ringPut (s.winPart w) (partRegs (s.winPart w) + 0x30) (s.fld (partRegs (s.winPart w) + 0x30) 16 4) e.pack with
          msix := s.msix ++ [8 + s.winPart w] })) ∧
  (∀ (s : State) (part stamp home : Nat) (block v : DWord) (x : Xl) (z : Nat), s.xlate 512 part block true false = .ok x →
    amGet s.podTls x.pa = some (part, home, z) → home ≠ s.pkg →
    exec (.podTimelineAdvance part block v stamp) s =
      .next ((if s.tlValue x.pa < v.toNat then s.mirrored x.pa else s).tlRaise x.pa v.toNat stamp)) ∧
  ∀ (s : State) (pkg : BitVec 10),
    let cut : State := { s with lands := s.lands.filter fun e => !s.landsAt e.2 pkg }
    exec (.fabricLost pkg) s = .next ((List.range 8).foldl (fun t p =>
      if s.partOn p && s.uses p pkg then t.failEntry p 0 0xFFFFFFFF 0xA4 0 0 0 0 0 0 else t)
      (cut.failAll (((amVals s.lands).filter fun m => s.landsAt m pkg).map LandMsg.lot) 0xA4))

/-- Events of a streamer (R217, R220, R222 to R225, R228, R241, R259, R261, R386, R387): a queued command takes its number and starts in its
lot's turn, or fails its checks; a page is checked; a unit is performed, and with the last one the MMA of CPYM enters; a finished copy
completes its number. Which address a failed start names and that a token of `.unz` is one unit are the model's readings (log entries 114 and
97). -/
def Obligations.StreamerEvents : Prop :=
  ∀ (s : State) (n e : Nat) (va : DWord) (x : Copy), amGet s.copies n = some x →
    (x.stage = .queued → (∀ y ∈ s.copies, y.2.lot = x.lot → y.2.stage = .queued → x.id ≤ y.1) →
      ((s.lot x.lot).resident = true → s.skeinQuiet (Copy.core s x) x.slot x.order x.info.hb = true) →
      let go := fun (t : State) => exec (.copyStart n) s = .next t
      (∀ a t tl, x.tlVa = some a → x.tl = none → s.heldAt (.copy n) a = false →
        s.acceptTl (Copy.core s x) (Copy.part s x) a = some (t, tl) → go (t.setCopy { x with tl := some tl })) ∧
      (x.tlVa = none ∨ x.tl.isSome = true →
        ((amVals s.copies).filter fun y => y.lot == x.lot && y.stage == .started).length < 8 → s.copyTurn x = true →
        let u := s.updCore (4 * (Copy.core s x / 4)) fun k => { k with turn := Copy.place s x + 1 }
        (∀ c (m : BitVec 4) off a sh, x.i = .shape c m off a → x.shape = some sh →
          go ((u.dropCopy x).updLot x.lot fun l => { l with shapes := amPut l.shapes m.toNat sh })) ∧
        (x.isShape = true → x.shape = none → go (u.dropCopy x)) ∧
        (x.isShape = false → x.isUnz = true → go (u.startUnz x)) ∧
        (x.isShape = false → x.isUnz = false →
          let y := { x with shape := amGet (u.lot x.lot).shapes x.cx.slot.toNat }
          let off := (blockWord x.block 7).toNat
          (∀ c d a, u.startCheck y = some (c, d, a) → go (u.copyFail y c d (BitVec.ofNat 64 a))) ∧
          (u.startCheck y = none → y.gathers = false → go (u.setCopy { y with stage := .started, list := [] })) ∧
          (u.startCheck y = none → y.gathers = true → (u.lot x.lot).clearedAt off (4 * y.box (y.dims - 1)) = true →
            (u.lot x.lot).poisoned off (4 * y.box (y.dims - 1)) = false → go (u.setCopy { y with
              stage := .started
              list := (List.range (y.box (y.dims - 1))).map fun i => memNat (u.lot x.lot).scratch (off + 4 * i) 4 }))))) ∧
    (x.stage = .started → x.isUnz = false → x.pages.contains (va.toNat / 65536) = false → s.heldAt (.copy n) va = false →
      ((s.copyReach x).any fun a => a.toNat / 65536 == va.toNat / 65536) = true →
      ∀ t, s.xlate (Copy.core s x) (Copy.part s x) va x.cx.dir false = .ok t →
        let fails := fun d => exec (.copyPageCheck n va) s = .next (s.copyFail x 0x61 d va)
        let packed := x.mode = .enc ∧ t.fmt.fmt = 7 ∧ t.fmt.geo = 1
        (packed → fails 1) ∧ (¬packed → t.fmt ≠ x.pf → fails 0) ∧
        (¬packed → t.fmt = x.pf → exec (.copyPageCheck n va) s =
          .next (s.setCopy { x with pages := insNat x.pages (va.toNat / 65536) }))) ∧
    (x.stage = .started → x.isUnz = true → exec (.copyBytesPerformed n e) s = .next (s.unzStep x)) ∧
    (x.stage = .started → x.isUnz = false → x.units.contains e = false → e < x.unitCount →
      (s.lot (x.tile.getD (0, 0)).1).clearedAt ((x.tile.getD (0, 0)).2 + e * x.unit) x.unit = true →
      exec (.copyBytesPerformed n e) s = .next (if x.cx.dir then s.unitOut x e else s.unitIn x e)) ∧
    (∀ m, x.mma = some m → (s.lot x.lot).resident = true →
      let y := { x with units := insNat x.units e }
      y.units.length = y.unitCount → ∃ m' : MCmd, m'.kind = m.kind ∧ m'.tile = m.tile ∧ m'.lot = m.lot ∧
        s.unitDone x e = (((s.setCopy y).setCopy { y with mma := none }).enterMtx (Copy.core s x) m').copyCount y) ∧
    (x.stage = .started → (if x.isUnz then x.unzOver = true else x.units.length = x.unitCount) →
      let u := (s.dropCopy x).copyLeft x
      let t := match x.tl with
        | some (pa, k) => u.tlComplete pa k (u.pubOf x.lot x.stamp)
        | none => u
      exec (.copyComplete n) s = .next (match x.soft with
        | some (c, d, va) => t.engineCause (Copy.core t x) x.slot x.lot (laneCause x.info x.lane x.order c d va [])
        | none => t))

/-- Events of a matrix engine (R240, R241, R247 to R249, R252 to R255): tile commands run, the chosen MMA starts, its operands
are fetched piece by piece, some of the pieces shared by cores of a quad, and estimated, in entry order, a k-step is charged and completes, the
MMA arrives at its barrier object, and the budget is refilled, the clocks of a wait for it counted. The order in which operand bytes are read is
the model's choice (log entry 60); which fetches are shared is left open (log entry 100). -/
def Obligations.MatrixEvents : Prop :=
  (∀ (s : State) (c e : Nat) (m : MCmd), (s.core c).cmd e = some m → (s.core c).eligible m = true →
    let tile := (s.core c).tile m.tile
    (∀ int, m.kind = .zero int → exec (.tileCommandRun c e) s = .next ((s.setTile c m.tile (zeroTile int)).dropCmd c m)) ∧
    (∀ int f n act vals, m.kind = .lda int f n act vals →
      exec (.tileCommandRun c e) s = .next ((s.setTile c m.tile (tile.load int f n act vals).mark).dropCmd c m)) ∧
    (∀ f n act seq, m.kind = .sta f n act seq → exec (.tileCommandRun c e) s = .next (s.storeTile c m f n act seq)) ∧
    ∀ a t m', m.kind = .mma a → m.est = none → m.bad = none → s.skeinQuiet c m.slot m.order m.info.hb = true → s.fetchBehind c m = false →
      s.captureStep c m a 0 = some (t, m') →
      let gives := fun (u : State) => exec (.mmaFirstFetch c e) s = .next u
      let u := t.shareFetch c 0 m m'
      (m'.bad ≠ none → gives (u.setEst c m' 0)) ∧
      (m'.bad = none → m'.rowsA = [] → gives (u.setCmd c m')) ∧
      (m'.bad = none → m'.rowsA ≠ [] →
        gives (u.setEst c m' (if modeBad tile m'.fmt then 0 else toggle m'.rowsA m'.rowsB)))) ∧
  (∀ (s : State) (c : Nat) (m : MCmd) (a : Mma), m.kind = .mma a →
    let r := s.refillCore c
    let tile := fun (s : State) => (s.core c).tile m.tile
    ((r.core c).running = none → (r.core c).choose = some m → m.bad = none →
      modeBad (tile r) (if m.fmt != 0 then m.fmt else (Fmt.code a.x.t).toNat) = false →
      let t := (r.setCmd c { m with started := true }).setTile c m.tile { tile r with ktot := a.k, kdone := 0 }
      exec (.mmaStart c) s = .next ((match m.est with
        | some n => t.updCore c fun k => { k with lastT := n }
        | none => t).awaitBudget c)) ∧
    (∀ n, (r.core c).running = some m → m.bad = none → m.charged = false → m.stopReq = false → (tile r).kdone < a.k →
      modeBad (tile r) m.fmt = false → m.est = some n →
      (m.rowsA ≠ [] → exec (.kstepCharge c) s = .next (if n ≤ (r.core c).level
        then (r.setCmd c { m with charged := true, shortSince := none }).updCore c fun k => { k with level := k.level - n }
        else match m.shortSince with
          | none => r.setCmd c { m with shortSince := some r.tick }
          | some _ => r)) ∧
      ∀ t m', m.rowsA = [] → r.captureStep c m a (tile r).kdone = some (t, m') → m'.bad = none →
        exec (.kstepCharge c) s = .next (((t.shareFetch c (tile r).kdone m m').setCmd c m').awaitBudget c)) ∧
    (∀ n t, (s.core c).running = some m → m.est = some n → m.shortSince = some t →
      let stop := (s.core c).budgetAt (s.rate (s.partOfDie (c / 64))) n s.tick
      s.countStall c = (s.count (coreCounter c 3) (stop - t)).setCmd c
        { m with shortSince := if stop < s.tick then none else some s.tick }) ∧
    ((s.core c).running = some m → m.charged = true → (tile s).kdone + 1 = a.k →
      exec (.mmaArrive c) s = .next (s.mmaArriveAt c m)) ∧
    ((s.core c).running = some m → m.charged = true → ((tile s).kdone + 1 = a.k → a.x.bobj.isSome = true → m.arrived = true) →
      exec (.kstepComplete c) s = .next (if (tile s).kdone + 1 = a.k then (s.setTile c m.tile ((tile s).kstep m).mark).dropCmd c m
        else (s.setTile c m.tile ((tile s).kstep m).mark).setCmd c
          { m with charged := false, rowsA := [], rowsB := [], started := !m.stopReq }))) ∧
  ∀ (s : State) (c : Nat), (s.core c).refilled < s.tick / 512 → ∃ t, exec (.budgetRefill c) s = .next t ∧
    (t.core c).level = min 16320 ((s.core c).level + s.rate (s.partOfDie (c / 64)) * (s.tick / 512 - (s.core c).refilled)) ∧
    (t.core c).refilled = s.tick / 512

/-- Events of a search engine and of a landing unit (R217, R273, R276, R279 to R281, R391, R392): a query is rejected or
accepted, in the order of its instruction's lanes and while its engine has room, it takes its rounds and ends, it starts again where its
engine is lost; a contribution is added or refused, in halves where its element has 8 bytes, a report is counted, and a round that has all
its reports performs its held sums and is done. Where contributions of other modules come from, how a proxy's home lake answers and that the
results of a query, and the list and vectors of a round, are one step each are the model's readings (log entries 61, 101 and 114). -/
def Obligations.SearchAndLandingEvents : Prop :=
  (∀ (s : State) (n : Nat) (x : Query), amGet s.queries n = some x →
    (x.running = false → x.fin = false → s.queryBehind x = false →
      (x.packetBad = some 0 → exec (.queryAccept n) s = .next (s.queryReject x 0)) ∧
      (∀ d, x.packetBad = some d → d ≠ 0 →
        let y := { x with home := x.core / 64 }
        let r := (s.searchVec y false x.qvecVa).1
        (∀ e p, r = .bad e p → exec (.queryAccept n) s = .next (s.queryReject x 0)) ∧
        ∀ t bs, r = .ok t bs →
          (d ≤ 32 → exec (.queryAccept n) s = .next (s.queryReject x d)) ∧
          ∀ b, 32 < d → s.queryTlBad y = some b → exec (.queryAccept n) s = .next (s.queryReject x (if b then 32 else d))) ∧
      ∀ h, x.packetBad = none → s.queryHome x = some h →
        ((amVals s.queries).filter fun y => y.running && !y.fin && y.home == h).length < 1024 →
        let r := s.searchVec { x with home := h } false x.qvecVa
        (∀ e p, r.1 = .bad e p → exec (.queryAccept n) s = .next (s.queryReject { x with home := h } 0)) ∧
        ∀ t bs f, r = (.ok t bs, f) →
          let w := fmtBytes (BitVec.ofNat 4 f)
          let y := { x with home := h, qfmt := f, qvec := (List.range x.dims).map (fun d => partNat bs (d * w) w), running := true }
          (x.tline = 0 → exec (.queryAccept n) s = .next (t.setQuery y)) ∧
          (x.tline ≠ 0 → x.lost.contains (x.tline.toNat / 65536) = true →
            exec (.queryAccept n) s = .next (t.queryReject { y with running := false } 32)) ∧
          ∀ u tl, x.tline ≠ 0 → x.lost.contains (x.tline.toNat / 65536) = false → t.heldAt (.query n) x.tline = false →
            t.acceptTl (512 + h) x.part x.tline = some (u, tl) → exec (.queryAccept n) s = .next (u.setQuery { y with tl := some tl })) ∧
    (x.running = true → x.fin = false →
      let done := fun (status : Nat) => exec (.queryRound n) s = .next (s.queryEnd x status)
      let ids := ((List.range x.nent).map x.entry).eraseDups
      (∀ t y, x.vis = [] → s.score { x with vis := ascend ids } ids = some (t, y) → exec (.queryRound n) s = .next (t.setQuery y)) ∧
      (x.vis ≠ [] → (∀ c ∈ x.cand, c.2.2 = true) → done 0) ∧
      ∀ c, x.vis ≠ [] → (x.cand.find? fun c => !c.2.2) = some c →
        (x.hops ≠ 0 → x.rounds = x.hops → done 1) ∧
        (∀ e p, (x.hops ≠ 0 → x.rounds ≠ x.hops) → s.searchRead x true (x.listVa c.2.1) (4 * x.degree) = .bad e p → done 3) ∧
        ∀ t bs, (x.hops ≠ 0 → x.rounds ≠ x.hops) → s.searchRead x true (x.listVa c.2.1) (4 * x.degree) = .ok t bs →
          let fresh := x.fresh bs
          let y := { x with vis := fresh.foldl insNat x.vis, cand := x.cand.map fun e => if e.2.1 == c.2.1 then (e.1, e.2.1, true) else e }
          (8192 < x.vis.length + fresh.length → done 2) ∧
          ∀ u z, x.vis.length + fresh.length ≤ 8192 → t.score y fresh = some (u, z) →
            exec (.queryRound n) s = .next ((u.setQuery { z with rounds := z.rounds + 1 }).count (roundCounter x.home) 1)) ∧
    (x.running = true → x.fin = false → s.fenced x.home = true → exec (.queryRestart n) s =
      .next (s.setQuery { x with home := s.nextStack x.part x.home, vis := [], cand := [], rounds := 0, flags := 0 }))) ∧
  (∀ (s : State) (n : Nat), amGet s.lands n = none → exec (.landContribution n) s = .next s.inbound) ∧
  ∀ (s : State) (n : Nat) (m : LandMsg), amGet s.lands n = some m →
    (m.report = false → (∀ e ∈ s.lands, e.1 ≠ m.id → e.2.report = false → e.2.part = m.part → e.2.va = m.va →
        ¬(e.1 < m.id ∧ e.2.key = m.key) ∧ e.2.late = none) → s.heldAt (.land n) m.va = false →
      let gives := fun (t : State) => exec (.landContribution n) s = .next t
      ((s.lakes.find? fun l => l.part == m.part && l.holds m.va && !l.gone) = none → gives (s.landCause m 0x70 0)) ∧
      ∀ l x, (s.lakes.find? fun l => l.part == m.part && l.holds m.va && !l.gone) = some l →
        s.xlate (if m.abroad then 512 else m.core) m.part m.va true false = .ok x →
        (x.land = false → gives (s.landCause m 0x70 1)) ∧
        (x.land = true → l.proxy = true → gives (if l.ty = m.ty then s.proxyAnswer m l landAnswers else s.landCause m 0x6B 255)) ∧
        (x.land = true → l.proxy = false → m.late = none → s.marked x.pa = false → gives (s.landAdd m l x)) ∧
        ∀ v o, x.land = true → l.proxy = false → m.late = some (v, o) → gives (s.landHigh m l x v)) ∧
    (m.report = true → (∀ e ∈ s.lands, e.1 < m.id → e.2.report = false → e.2.sender ≠ m.sender) →
      (∀ e ∈ s.lands, e.1 ≠ m.id → e.2.report = true → e.2.part = m.part → e.2.va = m.va → e.2.late = none) →
      let gives := fun (t : State) => exec (.landfReport n) s = .next t
      ((s.lakes.find? fun l => l.part == m.part && l.va == m.va && !l.gone) = none → gives (s.landCause m 0x70 2)) ∧
      ∀ l, (s.lakes.find? fun l => l.part == m.part && l.va == m.va && !l.gone) = some l →
        (l.proxy = true → gives (s.proxyAnswer m l [(0, 0), (0x70, 2)])) ∧
        (l.proxy = false → m.late = none →
          let l' := { s.received m l with used := true, reported := m.sender :: l.reported }
          let t := s.putRound l' (l.count + 1) l.round
          gives (if l.count + 1 = l.expect then { t with lands := amPut t.lands n { m with late := some (0, false) } } else t.dropLand m)) ∧
        ∀ v, l.proxy = false → m.late = some v → s.heldAt (.land n) l.closeVa = false →
          (∀ h, (l.held.find? fun h => h.round == l.round) = some h → gives (State.addHeld
            { s with lands := amPut s.lands m.id { m with late := some (0, false) } } m l h.off v.2)) ∧
          ∀ x, (l.held.find? fun h => h.round == l.round) = none → s.xlate 512 l.part l.tline true false = .ok x →
            s.writeCause l.part x.pa 16 = none → gives ((s.dropLand m).roundDone l (some x.pa)))

/-- Events of the hardware queues (R172, R217, R286 to R288, R296, R366): TAIL is written, a SPAWN pushes its record, a record
takes its number, a head is evaluated, a launch starts or fails its checks, or marks its regions once their list can be read, and a queue
ages. That a queue's BASE is a physical address and that a start waits for its region list are the model's readings (log entries 28 and
104). -/
def Obligations.QueueEvents : Prop :=
  (∀ (s : State) (q : Nat) (v : BitVec 32), q < 1024 → s.qDev q = false →
    exec (.queueTailWrite q v) s = .next ((s.setFld (queueBlock q + 24) 32 32 v.toNat).setQueueX q (s.queueX q)) ∧
    (s.setFld (queueBlock q + 24) 32 32 v.toNat).qTail q = v.toNat) ∧
  (∀ (s : State) (e : Spawn) (k : Skein) (p : Pending), (s.spawns.find? fun f => f.id == e.id) = some e →
    (∀ f ∈ s.spawns, f.id < e.id → f.core = e.core → f.slot = e.slot → f.seq ≠ e.seq) → s.skein e.core e.slot = some k →
    s.pendOf e.core e.slot e.seq = some p →
    let r := s.push e p.info.tick
    let t := { r.1 with spawns := r.1.spawns.filter fun f => f.id != e.id }
    (r.2 = true ↔ s.qOn e.q = true ∧ s.qPart e.q = e.part ∧ s.qDev e.q = true ∧ s.qFull e.q = false) ∧
    ∀ k', t.skein e.core e.slot = some k' → exec (.spawnPush e.id) s =
      .next (((t.setSkein e.core e.slot (k'.setPend (p.setLane k'.width e.lane [if r.2 then 1 else 0]))).finishPend
        e.core e.slot e.seq).returned e.core e.slot)) ∧
  (∀ (s : State) (q n : Nat) (r : BitVec 1024) (x : Xl), s.nextRecord q = some (n, r) →
    (recTline r = 0 → exec (.recordAccept q) s = .next (s.acceptRecord q n none false)) ∧
    (recTline r ≠ 0 → s.heldAt (.hub (s.qPart q)) (recTline r) = false → s.xlate hubUnit (s.qPart q) (recTline r) true false = .ok x →
      let reached := s.writeCause (s.qPart q) x.pa 16 = none ∧ s.readCause (s.qPart q) x.pa 16 = none
      let t := (s.tlbFill hubUnit (s.qPart q) (recTline r) x).tlAccept (s.qPart q) x.pa
      (reached → exec (.recordAccept q) s = .next (t.1.acceptRecord q n (some (x.pa, t.2)) false)) ∧
      (¬reached → exec (.recordAccept q) s = .next (s.acceptRecord q n none true)))) ∧
  (∀ (s : State) (q n : Nat) (r : BitVec 1024), s.nextRecord q = some (n, r) → q < 1024) ∧
  (∀ (s : State) (q : Nat) (x : QueueX), amGet s.queues q = some x →
    exec (.headReevaluate q) s = .next (s.setQueueX q { x with
      ready := s.headReady q, since := if s.headReady q then some (x.since.getD s.tick) else none }) ∧
    ∀ t, x.readyAt = some t → s.age (s.qPart q) ≠ 0 →
      exec (.ageingStep q) s = .next (s.setQueueX q { x with age := (s.tick - t) / s.age (s.qPart q) })) ∧
  (∀ (s : State) (q id : Nat), s.unmarked q = some id → s.headRecord q = none → exec (.launchStart q) s = .next (s.markRegions id)) ∧
  ∀ (s : State) (q n : Nat) (r : BitVec 1024), s.unmarked q = none → s.headRecord q = some (n, r) → (s.queueX q).ready = true →
    s.headReady q = true →
    let part := s.qPart q
    let kd := (s.getVirtual hubUnit part (BitVec.ofNat 64 (recF r 768 64)) 64).map fun bs => (BitVec.ofNat 512 (leNat bs) : BitVec 512)
    (s.recordCauses part q n r kd = [] → exec (.launchStart q) s = .next (s.enterLaunch part q n r (kd.getD 0))) ∧
    ∀ cs, s.recordCauses part q n r kd = cs → cs ≠ [] →
      let t := match (amGet (s.queueX q).nums n).bind RecNum.tl with
        | some (pa, k) => s.tlComplete pa k 0
        | none => s
      exec (.launchStart q) s =
        .next ((cs.foldl (fun t c => t.failEntry part (s.qSlot q n) 0xFFFFFFFF c 0 0 0 0 0 0) t).headPast q n)

/-- Events of dispatch and of the end of lots and launches (R289 to R293, R399, R400, R405 to R408, R420): a unit drawn is
placed, a die takes a chunk, a lot issues first, a unit retires, a chunk reports, a launch completes, a marked page is copied, a
failed launch rolls back or ends, a pair compares, and an armed flip strikes. When a lot retires, the turns of the queues and
what REPLAYS counts are the model's readings (log entries 59, 65 and 76). -/
def Obligations.LaunchEvents : Prop :=
  (∀ (s t u : State) (d q id : Nat), d < 8 → s.dieOpen d (s.partOfDie d) = true → (∀ e ∈ s.cands (s.partOfDie d), (s.launch e.2).vatSize = 0) →
    s.draw d = (t, some (q, id)) → (∀ n, (t.launch id).nextUnit ≠ some (.resume n)) → t.placeNext d id = some u →
    exec (.lotDispatch d) s = .next (t.drawn u q id)) ∧
  (∀ (s : State) (d id : Nat) (ln : Launch), amGet s.launches id = some ln → d < 8 → s.dieOpen d ln.part = true → ln.stop = false →
    (∀ c ∈ ln.chunks, c.die = d → c.count ≤ c.disp) → ln.uncovered < ln.total → s.front ln.q = some id →
    (∃ j, j < 64 ∧ (s.fitLot (64 * d + j) id (s.estimateOf ln)).isSome = true) →
    (ln.takeBlocks (ln.unitLots ln.uncovered)).isSome = true →
    let new : Chunk := ⟨d, ln.uncovered, min (chunkSize ln.vatSize) (ln.ceiling ln.uncovered - ln.uncovered), 0, 0, false⟩
    exec (.chunkRequest d id) s = .next (s.setLaunch id { ln with chunks := insChunk ln.chunks new })) ∧
  (∀ (s : State) (n : Nat) (l : Lot), amGet s.lots n = some l →
    (l.status = .waiting → l.rows = 0 ∨ l.row0 + l.rows ≤ (s.core l.core).carve →
      max l.dispatched (s.launch l.launch).acq + 192 ≤ s.tick →
      exec (.lotFirstIssue n) s = .next (s.setLot n { l with status := .running, firstIssue := some s.tick, started := true })) ∧
    (l.resident = true → l.role = .single → s.retireUnit n = [n] → s.lotDone n = true →
      let t := (s.retireCount n).retireOne n
      exec (.lotRetire n) s = .next ({ t with ckpts := t.ckpts.filter fun e => e.1 != n } : State).dropReserves)) ∧
  (∀ (s : State) (id first page : Nat) (ln : Launch), amGet s.launches id = some ln →
    exec (.chunkReport id first) s = .next (s.setLaunch id { ln with chunks := ln.chunks.map fun (c : Chunk) =>
      if c.first == first && c.ret == c.count then { c with reported := true } else c }) ∧
    (page ∈ ln.marks → exec (.snapshotPageCopy id page) s = .next (s.snapPage page)) ∧
    (s.writesDone id = true → s.drained id = true →
      (ln.failed = none → ln.reportedLots = ln.total → exec (.launchComplete id) s = .next (s.endLaunch id true)) ∧
      ∀ code, ln.failed = some code →
        (ln.rollbackable = false → exec (.launchComplete id) s = .next (s.endLaunch id false)) ∧
        (ln.rollbackable = true → noRollback code = false → Launch.barred s id ln = false → ln.snapOk = true → ln.replays < 2 →
          s.snapReadable ln = true → exec (.rollback id) s =
            .next (((s.restoreSnap ln).failsOut ln (fun c => c) 1 (ln.replays + 1)).replayLaunch id ln)) ∧
        (ln.rollbackable = true → Launch.barred s id ln = true →
          exec (.rollback id) s = .next (s.giveUp id fun c => if noRollback c then c else 0x89)) ∧
        (ln.rollbackable = true → Launch.barred s id ln = false → ln.snapOk = false ∨ s.snapReadable ln = false →
          exec (.rollback id) s = .next (s.giveUp id fun c => if noRollback c then c else 0x88)) ∧
        ∀ f : Nat → Nat, s.giveUp id f = (s.failsOut ln f 0 ln.replays).updLaunch id fun l =>
          { l with flags := l.flags &&& ~~~4, marks := [], snap := [], fails := [] })) ∧
  (∀ (s : State) (n m k c q c' q' : Nat) (a b : Skein), (s.lot n).role = .leading → (s.lot n).partner = some m →
    s.pairSkein n k = some (c, q, a) → s.pairSkein m k = some (c', q', b) → (s.lot n).resident = true → (s.lot m).resident = true →
    ((s.lot n).ckDue ≠ [] → (s.lot n).cmp = [] → s.ckptReady n = true → exec (.redundantCompare n k) s = .next (s.writeCheckpoint n)) ∧
    ∀ x y, (s.lot n).ckDue = [] → ((s.lot n).cmp.find? fun e => e.lotSkein == k) = some x →
      ((s.lot m).cmp.find? fun e => e.lotSkein == k) = some y →
      exec (.redundantCompare n k) s = .next (if x.agrees y then s.release n m c q a x y else s.mismatch n m)) ∧
  (∀ (s : State) (n m k c q c' q' : Nat) (a b : Skein) (i j : Instr × Iss), (s.lot n).role = .leading → (s.lot n).partner = some m →
    s.pairSkein n k = some (c, q, a) → s.pairSkein m k = some (c', q', b) → (s.lot n).resident = true → (s.lot m).resident = true →
    (s.lot n).ckDue = [] → (∀ e ∈ (s.lot n).cmp ++ (s.lot m).cmp, e.lotSkein ≠ k) → s.atPoint c q a = some i → s.atPoint c' q' b = some j →
    exec (.redundantCompare n k) s = .next (if pointsAgree i j then s.passPoint n m k else s.mismatch n m)) ∧
  ∀ (s : State) (part key : Nat) (k : Skein), s.flipSkein part = some (key, k) →
    let w := injectWord part
    let r := s.fld w 12 8
    let lane := s.fld w 7 5
    k.window ≤ 256 → r < k.window → lane < k.width → k.live.getLsbD lane = true →
    ∃ k', exec (.injectionFlip part) s =
        .next (((s.setFld w 0 1 0).setSkein (key / 64) (key % 64) k').dropLatch (key / 64) (key % 64) [r]) ∧
      ∀ v l, l < k.width → k.live.getLsbD l = true → k'.vlane v l =
        if v = r ∧ l = lane then k.vlane v l ^^^ BitVec.ofNat 32 (2 ^ s.fld w 20 5) else k.vlane v l

/-- Events of preemption (R299 to R306, R310 to R312): Mordant chooses cores, and actions for the lots there that prevent its lots from
fitting, a missed drain is decided again, a quiet flushed unit is discarded, a save begins and ends, and a saved unit resumes. When Mordant
acts, which lots prevent a fit and where a skein parks are the model's readings (log entries 66, 64, 52 and 105). -/
def Obligations.PreemptionEvents : Prop :=
  (∀ (s : State) (d id : Nat) (cs : List (Nat × Nat)), d < 8 → s.dieOpen d (s.partOfDie d) = true →
    s.mordantHead (s.partOfDie d) = some id →
    s.freeCores d id (s.estimateOf (s.launch id)) (s.launch id).deadline = cs → cs ≠ [] →
    let plans := (cs.flatMap fun e => s.preventing e.2 id).filterMap fun n => (s.planOf n (s.launch id).deadline false).map fun p => (n, p)
    let t := plans.foldl (fun t e => if (t.lot e.1).act == (s.lot e.1).act then t.applyPlan e.1 e.2 else t) s
    let r : Reserve := ⟨d, id, cs.map Prod.snd, maxOf (cs.map Prod.fst) fun f => f, true⟩
    exec (.mordantDecide d) s = .next { t with reserves := (t.reserves.filter fun e => e.launch != id) ++ [r] }) ∧
  (∀ (s : State) (n t : Nat) (l : Lot), amGet s.lots n = some l → l.resident = true →
    (l.act = some .drain → s.rebuilding l.die = true → exec (.drainDeadline n) s = .next s) ∧
    (l.act = some .drain → l.freeAt = some t → t ≤ s.tick → s.rebuilding l.die = false →
      let due := match s.reserves.find? fun r => r.mordant && r.cores.contains l.core with
        | some r => (s.launch r.launch).deadline
        | none => s.tick
      exec (.drainDeadline n) s = .next (match s.planOf n due true with
        | some p => s.applyPlan n p
        | none => s.updLot n fun l => { l with freeAt := none })) ∧
    (l.status = .flushing → s.unitOf n = [n] → s.quiet n = true → (s.launch l.launch).vatSize = 0 →
      exec (.flushLot n) s = .next (((s.discard n).updLaunch l.launch fun ln =>
        { ln.relog [l.idx] with recs := (false, l.idx, l.estimate) :: ln.recs }).frontSince (s.launch l.launch).q (s.front (s.launch l.launch).q))) ∧
    (l.act = some .save → l.status = .running → s.unitOf n = [n] → ∃ u, exec (.saveRequest n) s = .next u ∧
      u.lot n = { l with status := .saving } ∧ u.skeins = amMap (fun _ (k : Skein) => if k.lot == n then k.ask l.partner.isSome else k) s.skeins) ∧
    (l.status = .saving → s.unitOf n = [n] → (∀ e ∈ s.skeins, e.2.lot = n → e.2.atRest = true) →
      let u := s.stopMma n
      (u.saveReady n = false → exec (.saveComplete n) s = .next u) ∧
      (u.saveReady n = true → (u.die l.die).stopped = false → exec (.saveComplete n) s =
        .next ((u.saveUnit [n]).frontSince (u.launch l.launch).q (u.front (u.launch l.launch).q))))) ∧
  ∀ (s t u : State) (n d q id : Nat), d < 8 → (∀ j, j < d → s.dieOpen j (s.partOfDie j) = false) → s.dieOpen d (s.partOfDie d) = true →
    s.draw d = (t, some (q, id)) → (t.launch id).nextUnit = some (.resume n) → t.placeNext d id = some u →
    exec (.resumeLot n) s = .next (t.drawn u q id)

/-- Events of partitions and dies, of registers and of observation (R6, R317, R318, R328, R329, R334, R364, R367, R381, R401 to
R403, R410, R415, R417). Details of dumps, samples, a fence by the device and a partition's reset are the model's readings (log
entries 69, 72, 74 and 75). -/
def Obligations.PartitionAndRegisterEvents : Prop :=
  (∀ (s : State) (part : Nat) (v : DWord), part < 8 →
    (v.getLsbD 8 = true → s.partOn part = false → exec (.partitionEnable part v) s = .next (if s.enableRefused part (fieldOf v 0 8)
      then (s.partWrite part v).setFld statusWord 3 1 1
      else (((s.partWrite part v).setFld (partBlock part) 8 1 1).setFld statusWord 3 1 0).reevaluateAll part)) ∧
    (v.getLsbD 8 = false → s.partOn part = false → exec (.partitionReset part v) s = .next (s.partWrite part v)) ∧
    (v.getLsbD 8 = false → s.partOn part = true → ∃ t : State, t.partOn part = false ∧ t.cmdHead part = t.cmdTail part ∧
      (∀ l ∈ t.lakes, l.part ≠ part) ∧ exec (.partitionReset part v) s = .next (t.failEntry part 0 0xFFFFFFFF 0xA3 0 0 0 0 0 0)) ∧
    (s.stopped = false → exec (.registerWrite (0x0E0000 + 256 * part) v) s =
      if v.getLsbD 8 then exec (.partitionEnable part v) s else exec (.partitionReset part v) s)) ∧
  (∀ (s : State) (d : Nat) (lost : Bool), d < 8 → s.fenced d = false →
    (∃ t, exec (.dieFenceByDevice d lost) s = .next t ∧ t.fenced d = true ∧ (t.die d).stopped = true ∧ (t.die d).l2Lost = lost ∧
      ∀ r ∈ t.reserves, r.die ≠ d) ∧
    exec (.schedStateRecovery d) s = .next ((s.failEntry (s.partOfDie d) 0 0xFFFFFFFF 0x85 0 d 0 0 0 0).updDie d fun e =>
      { e with rebuild := true })) ∧
  (∀ (s : State) (v : BitVec 10) (dies : BitVec 8), ∃ t u : State,
    exec (.pkgWrite v) s = .next t ∧ t.pkgSet = true ∧ t.pkg = (if s.pkgSet then s.pkg else v.toNat) ∧
    exec (.selfTestComplete dies) s = .next u ∧ u.moduleReady = true ∧ u.fld statusWord 16 8 = dies.toNat) ∧
  (∀ (s : State) (part : Nat) (v : DWord), part < 8 → s.stopped = true → v.getLsbD 8 = true → s.partOn part = false →
    s.enableRefused part (fieldOf v 0 8) = false →
    ∃ t, exec (.registerWrite (0x0E0000 + 256 * part) v) s = .next t ∧ t.partOn part = true ∧ t.fld statusWord 3 1 = 0) ∧
  (∀ (s : State) (off : Nat) (v : DWord), off % 8 = 0 → off < 2 * hub1 →
    ¬(0x0E0000 ≤ off ∧ off < 0x0E0800 ∧ off % 256 = 0) → off ≠ statusWord → off ≠ linkWord false → off ≠ linkWord true →
    replyPart off = none → tailQueue off = none → s.stops = [] → ∃ t, exec (.registerWrite off v) s = .next t ∧
      t.rd off = (s.rd off &&& ~~~(rwMask off)) ||| (v &&& rwMask off) ∧
      ∀ a, a / 8 ≠ off / 8 → (∀ c, a / 8 ≠ coreCounter c 3 / 8) → t.rd a = s.rd a) ∧
  (∀ s : State, s.fld stopWord 0 1 = 1 → (s.rd (stopWord + 8)).toNat ≤ s.tick →
    ∃ t, exec .tickStop s = .next t ∧ t.stopped = true ∧ t.mem = s.mem) ∧
  (∀ s : State, ∃ t, exec .moduleReset s = .next t ∧ t.far = s.far ∧ t.hub = State.reset.hub ∧ t.skeins = [] ∧ t.lots = [] ∧
    t.launches = [] ∧ t.tick = State.reset.tick) ∧
  (∀ (s : State) (c : Nat), c < 512 →
    let owned := fun (t : State) (f : Nat → State) => (Host.Outcome.next (match s.ownerOfDie (c / 64) with
      | some part => f part
      | none => t) : Host.Outcome State Fault Refusal)
    (∀ d ds, (s.core c).due = d :: ds →
      let t := s.updCore c fun k => { k with due := ds }
      exec (.pcSample c) s = owned t fun part => t.sampleRecord part d.tick d.pc.toNat 0 0 c d.slot 0 d.state) ∧
    ∀ m, ((s.core c).samples.find? fun m => !s.sampleOut c m) = some m →
      let t := s.updCore c fun k => { k with samples := k.samples.erase m }
      exec (.memorySample c) s = owned t fun part => t.sampleRecord part m.tick m.pc.toNat (s.hops c part m) 0 c m.slot 1 0) ∧
  (∀ (s : State) (part : Nat) (d : Dump), (s.dumps.find? fun d => d.part == part) = some d →
    let blk := dumpBlock part
    let start := (s.rd (blk + 8)).toNat
    let area := 1048576 * s.fld blk 16 8
    let bytes := 64 + (s.dumpBody d start).length
    let pos := (amGet s.dumpPos part).getD 0
    let base := start + pos
    pos + bytes ≤ area →
    let w := (s.homeWrite part (base + 64) ((s.dumpBody d base).take (area - 64)) none).homeWrite part base
        (dumpHeader d d.code d.tick d.lotIdx d.second.length bytes false) none
    let u : State := { w with dumps := w.dumps.erase d, dumpPos := amPut w.dumpPos part (pos + bytes) }
    exec (.dumpWrite part) s = .next ((u.setFld blk 32 32 ((u.fld blk 32 32 + 1) % 2 ^ 32)).dumpsQueued part)) ∧
  ∀ (s : State) (c q lane r n w pa tl i j h : Nat) (b : BitVec 32) (wide : BitVec 128) (p : BitVec 7),
    exec (.softError (.vreg c q lane r b)) s = .next (s.regError c q r lane b) ∧
    exec (.softError (.sreg c q r b)) s = .next (s.regError c q (256 + r) 0 b) ∧
    exec (.softError (.tag c q r h w b)) s = .next (s.regError c q (1024 + 4 * r + 2 * (h % 2) + w % 2) 0 b) ∧
    exec (.softError (.preds c q lane p)) s = .next (s.regError c q 512 lane (p.setWidth 32)) ∧
    (∀ h, (s.shuffles.find? fun h => h.core == c && h.launch == n) = some h →
      exec (.softError (.staging c n)) s = .next (s.domainBad h)) ∧
    exec (.softError (.latch c q r)) s = .next (s.latchFail c q r) ∧
    (2 ≤ ones b → exec (.softError (.scratch n w b)) s = .next (s.updLot n fun l => { l with poison := insNat l.poison w })) ∧
    (ones b = 1 → exec (.softError (.scratch n w b)) s = .next (s.count (eccCounter (s.lot n).core) 1)) ∧
    (ones wide = 1 → exec (.softError (.sector pa wide)) s = .next (s.count (eccCounter (64 * stackOf pa)) 1)) ∧
    (2 ≤ ones wide → exec (.softError (.sector pa wide)) s = .next { s with poison := insNat s.poison (pa / 16) }) ∧
    (∃ t, exec (.softError (.elem c tl i j b)) s = .next t ∧
      (i < 128 → j < 128 → tl < (s.core c).tiles.length → ((t.core c).tile tl).elem i j = ((s.core c).tile tl).elem i j ^^^ b)) ∧
    ∃ t, exec (.softError (.level c)) s = .next t ∧ (t.core c).level = 0 ∧ s.tick / 512 ≤ (t.core c).refilled

/-- The commands of a partition's ring (R100, R265, R278, R319, R321 to R325, R335, R366, R388, R393, R402, R404, R413, R414): each
completes with the cause of its rule and as an operation on CMDTL, whose VALUE follows once no operation before it runs, and what it does
where its checks hold. That the ring's addresses and CMDTL are physical, that an upload counts once it has all its pages, where its
sections lie and for what an INVALIDATE waits are the model's readings (log entries 12, 28, 106, 71 and 116); how a signature verifies is
taken from the standards that R323 names, and the outcome of a self-test is left open (log entry 10). -/
def Obligations.RingCommands : Prop :=
  (∀ (s : State) (part cause a : Nat), s.MemOk → s.cmdSlot part = some a → cause < 2 ^ 32 →
    let pa := s.cmdTl part
    a + 8 ≤ pa ∨ pa + 16 ≤ a + 4 → (∀ p ∈ pagesOf (a + 4) 4 ++ pagesOf pa 16, s.marked (65536 * p) = false) →
    memNat (s.cmdDone part cause).mem (a + 4) 4 = cause ∧ (s.cmdDone part cause).cmdHead part = (s.cmdHead part + 1) % 2 ^ 32 ∧
    (s.tlIssued pa + 1 < 2 ^ 64 →
      ((s.tlCtx pa).opn = [] → (s.cmdDone part cause).tlValue pa = max (s.tlValue pa) (s.tlIssued pa + 1)) ∧
      ((s.tlCtx pa).opn ≠ [] → (∀ n ∈ (s.tlCtx pa).opn, n ≤ s.tlIssued pa) → (s.cmdDone part cause).tlValue pa = s.tlValue pa))) ∧
  ∀ (s : State) (part : Nat),
    let arg := s.cmdArg part
    let va : DWord := BitVec.ofNat 64 (arg 0)
    let on := fun (op : Nat) (e : Instr) (t : State) => s.cmdOp part = some op → exec e s = .next t
    (∀ op, s.cmdOp part = some op → op ∉ [0x01, 0x02, 0x03, 0x04, 0x05, 0x06, 0x10, 0x11, 0x12, 0x20, 0x21] →
      exec (.badCommand part) s = .next (s.cmdDone part 0xA0)) ∧
    on 1 (.invalidateTranslations part) (if s.oldUses part (arg 0) (arg 1) then s else State.cmdDone { s with
      tlb := s.tlb.filter fun e => !e.covers part (arg 0) (arg 1)
      skeins := amMap (fun _ (k : Skein) => if s.partOf (s.lotOf k) == part then k.watchCut (arg 0) (arg 1) else k) s.skeins } part 0) ∧
    (∀ pa bs, s.hubWritable part va 64 = some pa → s.getVirtual hubUnit part va 64 = some bs → va.toNat % 64 = 0 →
      let d : BitVec 512 := BitVec.ofNat 512 (leNat bs)
      badLake d = false → (modeDet (s.partMode part) = true → d.getLsbD 324 = false → d.getLsbD 437 = true) →
      let l : Lake := ⟨part, va, pa, freshLake d, [], false, false, [], false, 0⟩
      let t := s.homeWrite part (pa + 34) (leBytes (bitsOf (freshLake d).toNat 272 48) 6) none
      on 2 (.registerLake part)
        (({ t with lakes := t.lakes.filter (fun e => !(e.part == part && e.va == va)) ++ [l] } : State).cmdDone part 0)) ∧
    (∀ l, (s.lakes.find? fun l => l.part == part && l.va == va) = some l → on 3 (.unregisterLake part)
      (if l.used then s.setLake { l with closing := true }
        else ({ s with lakes := s.lakes.filter fun e => !(e.part == part && e.va == va) } : State).cmdDone part 0)) ∧
    (∀ pa, s.hubWritable part va 16 = some pa → va.toNat % 16 = 0 → arg 1 < 1024 → on 4 (.registerPodTimeline part)
      (({ s with podTls := amPut s.podTls pa (part, arg 1, arg 2) } : State).cmdDone part 0)) ∧
    (∀ file sig, s.signedFile part (arg 0) = .got (file, sig) → goodObject file = true → arg 2 % 16 = 0 → arg 1 % 4 = 0 →
      (s.verified part file sig = false → on 5 (.uploadCodeObject part) (s.cmdDone part 0xA1)) ∧
      (∀ tl t, s.verified part file sig = true → s.uploadTl part (arg 2) = .got tl →
        s.writeSections part (arg 1) file [0, 1, 2, 3] = (t, .bad) → on 5 (.uploadCodeObject part) (t.cmdDone part 0x63)) ∧
      ∀ tl t code, s.verified part file sig = true → s.uploadTl part (arg 2) = .got tl →
        s.writeSections part (arg 1) file [0, 1, 2, 3] = (t, .got code) →
        let u := match tl with
          | some pa => (t.tlAccept part pa).1.tlComplete pa (t.tlAccept part pa).2 0
          | none => t
        (code ≠ 0 → on 5 (.uploadCodeObject part) (u.cmdDone part code)) ∧
        ∀ text bad, code = 0 → s.sectionBytes part file 0 = .got (text, bad) → on 5 (.uploadCodeObject part) (({ u with
          objects := (u.objects.filter fun o => !(o.1 == part && o.2.1 == arg 1)) ++ [(part, arg 1, text.length)] } :
            State).cmdDone part 0)) ∧
    (∀ o, (s.objects.find? fun o => o.1 == part && o.2.1 == arg 0) = some o →
      let used := s.lotsIn o != [] || s.savedIn o != [] || s.rerunsIn o != [] || s.recordsIn o != []
      on 6 (.unloadCodeObject part) (if used && arg 1 % 2 != 1 then s.cmdDone part 0xA7
        else let t := if used then s.evict o else s
          ({ t with objects := t.objects.filter (· != o) } : State).cmdDone part 0)) ∧
    (∀ id x t a, s.launchAt part (arg 1) = some id → s.xlate hubUnit part va false true = .ok x → va.toNat % 4 = 0 →
      s.privPage id (va.toNat / 65536) x.pa = some (t, a) → on 0x20 (.setBreakpoint part)
        ((t.homeWrite part (a + va.toNat % 65536) (brkBytes.take (65536 - va.toNat % 65536)) none).cmdDone part 0)) ∧
    (∀ id x a, s.launchAt part (arg 1) = some id → s.xlate hubUnit part va false true = .ok x →
      amGet (s.launch id).privPages (va.toNat / 65536) = some a → on 0x21 (.clearBreakpoint part)
        ((s.homeWrite part (a + va.toNat % 65536) (s.homeRead x.pa (min 12 (65536 - va.toNat % 65536))) none).cmdDone part 0)) ∧
    (∀ file sig, (arg 1 < 2 ∨ 8 ≤ arg 1 ∧ arg 1 < 16 ∧ (s.partDies part).testBit (arg 1 - 8) = true) →
      s.signedFile part (arg 0) = .got (file, sig) → on 0x10 (.replaceFirmware part) (if s.verified part file sig
        then (if Config.imageOk s.choices then ({ s with firmware := amPut s.firmware (arg 1) va } : State).liveDone part 0
          else s.liveDone part 0xA8)
        else s.liveDone part 0xA1)) ∧
    (arg 0 < 8 → (s.partDies part).testBit (arg 0) = true →
      (s.stackUsed part (arg 0) = false → on 0x11 (.recalibrateStack part) (if Config.calibrated s.choices
        then ({ s with unserved := s.unserved.filter (· != arg 0) } : State).liveDone part 0
        else (({ s with unserved := insNat s.unserved (arg 0) } : State).setFld statusWord (16 + arg 0) 1 0).liveDone part 0xA9)) ∧
      (s.fenced (arg 0) = false → on 0x12 (.fenceDie part) (if (s.die (arg 0)).stopped = false
        then (s.dieLots (arg 0)).foldl State.fenceLot (s.updDie (arg 0) fun e => { e with stopped := true })
        else if s.dieLots (arg 0) = [] then
          let t := (s.setFld statusWord (24 + arg 0) 1 1).setFld (partBlock part) (arg 0) 1 0
          let t := (t.partLaunches part).foldl (fun t id => t.updLaunch id fun l => l.giveBack (arg 0)) t
          let u := t.updDie (arg 0) fun e => { e with unsaved := false }
          ({ u with reserves := u.reserves.filter fun r => r.die != arg 0 } : State).liveDone part (if (t.die (arg 0)).unsaved then 0x83 else 0)
        else s)))
end

