-- ==== Sys2Proof/Laws/Encoding.lean ====
section
/-! SUPPORT. Laws of the encoding tables: every code is read back as what it stands for, and every packed field as the field. -/

namespace Sys2Proof

/-! ### Parts of appended vectors -/

/-- A part that lies in the low vector. -/
theorem part_low {m n i k : Nat} {x : BitVec m} {y : BitVec n} {z : BitVec k} (h : i + k ≤ n) (hy : y.extractLsb' i k = z) :
    (x ++ y).extractLsb' i k = z := (BitVec.extractLsb'_append_eq_of_add_le h).trans hy

/-- The high vector. -/
theorem part_high {m n i : Nat} {x : BitVec m} {y : BitVec n} (h : i = n) : (x ++ y).extractLsb' i m = x := by
  subst h
  rw [BitVec.extractLsb'_append_eq_of_le (Nat.le_refl _), Nat.sub_self, BitVec.extractLsb'_eq_self]

/-- The last of the appended vectors. -/
theorem part_all {n : Nat} {x : BitVec n} : x.extractLsb' 0 n = x := BitVec.extractLsb'_eq_self

theorem bit_low {m n i : Nat} {x : BitVec m} {y : BitVec n} {z : Bool} (h : i < n) (hy : y.getLsbD i = z) :
    (x ++ y).getLsbD i = z := by rw [BitVec.getLsbD_append, if_pos h, hy]

theorem bit_high {n i : Nat} {x : Bool} {y : BitVec n} (h : i = n) : (BitVec.ofBool x ++ y).getLsbD i = x := by
  subst h
  rw [BitVec.getLsbD_append, if_neg (Nat.lt_irrefl _), Nat.sub_self]
  cases x <;> rfl

/-! ### Codes -/

@[simp] theorem Opnd.ofCode_code (o : Opnd) : Opnd.ofCode o.code = o := by
  cases o with
  | vec i => revert i; decide
  | scl i => revert i; decide
  | spc k =>
    have h8 : (code (.spc k)).extractLsb' 8 2 = 1 := part_high rfl
    have h0 : (code (.spc k)).extractLsb' 0 8 = BitVec.ofNat 8 (k.val + 64) := part_low (by decide) part_all
    have hk : (BitVec.ofNat 8 (k.val + 64)).toNat = k.val + 64 := by
      rw [BitVec.toNat_ofNat]
      omega
    simp only [ofCode, h8, h0, hk]
    simp
  | prd n => revert n; decide
  | pword => decide
  | ppair p q => revert p q; decide
  | imm v => revert v; decide

@[simp] theorem RMode.ofCode_code (r : RMode) : RMode.ofCode r.code = r := by cases r <;> rfl
@[simp] theorem MPol.ofCode_code (r : MPol) : MPol.ofCode r.code = r := by cases r <;> rfl
@[simp] theorem ITy.ofCode_code (t : ITy) : ITy.ofCode t.code = t := by cases t <;> rfl
@[simp] theorem FTy.ofCode_code (t : FTy) : FTy.ofCode t.code t.pk = t := by cases t <;> rfl
@[simp] theorem Fmt.ofCode_code (t : Fmt) : Fmt.ofCode t.code = t := by cases t <;> rfl
@[simp] theorem MTy.ofFmt_fmt (t : MTy) : MTy.ofFmt t.fmt = t := by cases t <;> rfl
@[simp] theorem MTy.code_ne_zero (t : MTy) : (t.fmt.code = 0#4) = False := by cases t <;> decide
@[simp] theorem Cond.ofCode_code (x : Cond) : Cond.ofCode x.code = x := by cases x <;> rfl
@[simp] theorem FCond.ofCode_code (x : FCond) : FCond.ofCode x.code = x := by cases x <;> rfl
@[simp] theorem MOrd.ofCode_code (x : MOrd) : MOrd.ofCode x.code = x := by cases x <;> rfl
@[simp] theorem Scope.ofCode_code (x : Scope) : Scope.ofCode x.code = x := by cases x <;> rfl
@[simp] theorem CacheHint.ofCode_code (x : CacheHint) : CacheHint.ofCode x.code = x := by cases x <;> rfl
@[simp] theorem Cnt.ofCode_code (x : Cnt) : Cnt.ofCode x.code = x := by cases x <;> rfl
@[simp] theorem VoteM.ofCode_code (x : VoteM) : VoteM.ofCode x.code = x := by cases x <;> rfl
@[simp] theorem ShflM.ofCode_code (x : ShflM) : ShflM.ofCode x.code = x := by cases x <;> rfl
@[simp] theorem RedOp.ofCode_code (x : RedOp) : RedOp.ofCode x.code = x := by cases x <;> rfl
@[simp] theorem AOp.ofCode_code (x : AOp) : AOp.ofCode x.code = x := by cases x <;> rfl
@[simp] theorem AOp.code_ne_seven (x : AOp) : (x.code = 7#4) = False := by cases x <;> decide
@[simp] theorem CctlOp.ofCode_code (x : CctlOp) : CctlOp.ofCode x.code = x := by cases x <;> rfl
@[simp] theorem CpyMode.ofCode_code (x : CpyMode) : CpyMode.ofCode x.code = x := by cases x <;> rfl
@[simp] theorem CpyMode.code_ne_three (x : CpyMode) : (x.code = 3#4) = False := by cases x <;> decide

@[simp] theorem ofBool_eq_one (b : Bool) : (BitVec.ofBool b == 1#1) = b := by cases b <;> rfl

@[simp] theorem maskOf_maskImm (m : Option (BitVec 6)) : maskOf (maskImm m) = m := by
  cases m with
  | none => rfl
  | some i => revert i; decide

theorem Pfx.ofFields_fields (p : Pfx) : Pfx.ofFields p.fields = p := by simp [ofFields, fields]

/-! ### Fields of MOD and of the immediates -/

@[simp] theorem CpyX.ofCode_code (x : CpyX) : CpyX.ofCode x.code = x := by
  have h1 : x.code.extractLsb' 7 3 = x.rnd := part_low (by decide) (part_high rfl)
  have h2 : x.code.getLsbD 6 = x.bs := bit_low (by decide) (bit_low (by decide) (bit_high rfl))
  have h3 : x.code.getLsbD 5 = x.ts := bit_low (by decide) (bit_low (by decide) (bit_low (by decide) (bit_high rfl)))
  have h4 : x.code.getLsbD 4 = x.dir :=
    bit_low (by decide) (bit_low (by decide) (bit_low (by decide) (bit_low (by decide) (bit_high rfl))))
  have h5 : x.code.extractLsb' 0 4 = x.slot :=
    part_low (by decide) (part_low (by decide) (part_low (by decide) (part_low (by decide) (part_low (by decide) part_all))))
  simp only [ofCode, h1, h2, h3, h4, h5]

/-- A flag held in bit 0. -/
@[simp] theorem flag_bit {n : Nat} (b : Bool) (h : 0 < n) : (if b = true then 1#n else 0#n)[0] = b := by cases b <;> simp

@[simp] theorem flag_one {n : Nat} (b : Bool) (h : 0 < n) : ((if b = true then 1#n else 0#n) == 1#n) = b := by
  cases b
  · simp
    omega
  · simp

@[simp] theorem flag_type {x y : BitVec 4} (b : Bool) (h : (y == x) = false) : ((if b = true then x else y) == x) = b := by
  cases b
  · simpa using h
  · simp

/-- A field that stands alone in a wider one. -/
@[simp] theorem part_narrow {m n : Nat} (x : BitVec m) (h : m ≤ n) : (x.setWidth n).extractLsb' 0 m = x := by
  apply BitVec.eq_of_getLsbD_eq
  intro i hi
  rw [BitVec.getLsbD_extractLsb', BitVec.getLsbD_setWidth, Nat.zero_add]
  simp only [hi, decide_true, Bool.true_and, show i < n by omega]

@[simp] theorem part_table (e : Opnd) (x : BitVec 8) : (imm3 e (x.setWidth 14)).extractLsb' 10 8 = x := by
  have h : (imm3 e (x.setWidth 14)).extractLsb' 10 14 = x.setWidth 14 := part_high rfl
  apply BitVec.eq_of_getLsbD_eq
  intro i hi
  have hb := congrArg (fun y : BitVec 14 => y.getLsbD i) h
  simp only [BitVec.getLsbD_extractLsb', BitVec.getLsbD_setWidth, show i < 14 by omega, decide_true, Bool.true_and] at hb
  rw [BitVec.getLsbD_extractLsb', hb]
  simp [hi]

@[simp] theorem pair_bit0 (x y : Bool) : (0#10 ++ (BitVec.ofBool y ++ BitVec.ofBool x) : BitVec 12)[0] = x := by
  cases x <;> cases y <;> decide
@[simp] theorem pair_bit1 (x y : Bool) : (0#10 ++ (BitVec.ofBool y ++ BitVec.ofBool x) : BitVec 12)[1] = y := by
  cases x <;> cases y <;> decide
@[simp] theorem triple_bit0 (x y z : Bool) : (0#1 ++ (BitVec.ofBool z ++ (BitVec.ofBool y ++ BitVec.ofBool x)) : BitVec 4)[0] = x := by
  cases x <;> cases y <;> cases z <;> decide
@[simp] theorem triple_bit1 (x y z : Bool) : (0#1 ++ (BitVec.ofBool z ++ (BitVec.ofBool y ++ BitVec.ofBool x)) : BitVec 4)[1] = y := by
  cases x <;> cases y <;> cases z <;> decide
@[simp] theorem triple_bit2 (x y z : Bool) : (0#1 ++ (BitVec.ofBool z ++ (BitVec.ofBool y ++ BitVec.ofBool x)) : BitVec 4)[2] = z := by
  cases x <;> cases y <;> cases z <;> decide

@[simp] theorem modI_ty (t : ITy) (sat : Bool) (o : BitVec 6) : (modI t sat o).extractLsb' 8 4 = t.code := part_high rfl
@[simp] theorem modI_sat (t : ITy) (sat : Bool) (o : BitVec 6) : (modI t sat o)[7] = sat :=
  bit_low (by decide) (bit_high rfl)
@[simp] theorem modI_bit0 (t : ITy) (sat : Bool) (o : BitVec 6) : (modI t sat o)[0] = o[0] :=
  bit_low (by decide) (bit_low (by decide) (bit_low (by decide) rfl))
@[simp] theorem modI_lo (t : ITy) (sat : Bool) (co ci : BitVec 3) : (modI t sat (co ++ ci)).extractLsb' 0 3 = ci :=
  part_low (by decide) (part_low (by decide) (part_low (by decide) (part_low (by decide) part_all)))
@[simp] theorem modI_hi (t : ITy) (sat : Bool) (co ci : BitVec 3) : (modI t sat (co ++ ci)).extractLsb' 3 3 = co :=
  part_low (by decide) (part_low (by decide) (part_low (by decide) (part_high rfl)))

@[simp] theorem modF_ty (ty : BitVec 4) (r : BitVec 3) (pk : Bool) (o : BitVec 4) :
    (modF ty r pk o).extractLsb' 8 4 = ty := part_high rfl
@[simp] theorem modF_rnd (ty : BitVec 4) (r : BitVec 3) (pk : Bool) (o : BitVec 4) :
    (modF ty r pk o).extractLsb' 5 3 = r := part_low (by decide) (part_high rfl)
@[simp] theorem modF_pk (ty : BitVec 4) (r : BitVec 3) (pk : Bool) (o : BitVec 4) : (modF ty r pk o)[4] = pk :=
  bit_low (by decide) (bit_low (by decide) (bit_high rfl))
theorem modF_opx (ty : BitVec 4) (r : BitVec 3) (pk : Bool) (o : BitVec 4) (i : Nat) (h : i < 4) :
    (modF ty r pk o)[i] = o[i] :=
  bit_low (show i < 3 + (1 + 4) by omega) (bit_low (show i < 1 + 4 by omega) (bit_low h rfl))
@[simp] theorem modF_bit0 (ty : BitVec 4) (r : BitVec 3) (pk : Bool) (o : BitVec 4) : (modF ty r pk o)[0] = o[0] :=
  modF_opx ty r pk o 0 (by decide)
@[simp] theorem modF_bit1 (ty : BitVec 4) (r : BitVec 3) (pk : Bool) (o : BitVec 4) : (modF ty r pk o)[1] = o[1] :=
  modF_opx ty r pk o 1 (by decide)
@[simp] theorem modF_bit2 (ty : BitVec 4) (r : BitVec 3) (pk : Bool) (o : BitVec 4) : (modF ty r pk o)[2] = o[2] :=
  modF_opx ty r pk o 2 (by decide)
@[simp] theorem modF_bit3 (ty : BitVec 4) (r : BitVec 3) (pk : Bool) (o : BitVec 4) : (modF ty r pk o)[3] = o[3] :=
  modF_opx ty r pk o 3 (by decide)
@[simp] theorem modF_quarter (ty : BitVec 4) (r : BitVec 3) (pk : Bool) (q : BitVec 2) :
    (modF ty r pk (q.zeroExtend 4)).extractLsb' 0 2 = q :=
  part_low (by decide) (part_low (by decide) (part_low (by decide) (by revert q; decide)))
@[simp] theorem FSrc.opx_wide (v : BitVec 24) : (FSrc.wide v).opx[3] = true := show (8 : BitVec 4)[3] = true by decide
@[simp] theorem FSrc.opx_opnd (o : Opnd) : (FSrc.opnd o).opx[3] = false := show (0 : BitVec 4)[3] = false by decide

@[simp] theorem modC_df (df sf : Fmt) (r : RMode) (pk : Bool) : (modC df sf r pk).extractLsb' 8 4 = df.code := part_high rfl
@[simp] theorem modC_rnd (df sf : Fmt) (r : RMode) (pk : Bool) : (modC df sf r pk).extractLsb' 5 3 = r.code :=
  part_low (by decide) (part_high rfl)
@[simp] theorem modC_sf (df sf : Fmt) (r : RMode) (pk : Bool) : (modC df sf r pk).extractLsb' 1 4 = sf.code :=
  part_low (by decide) (part_low (by decide) (part_high rfl))
@[simp] theorem modC_pk (df sf : Fmt) (r : RMode) (pk : Bool) : (modC df sf r pk)[0] = pk :=
  bit_low (by decide) (bit_low (by decide) (bit_low (by decide) (by cases pk <;> rfl)))

@[simp] theorem modX_ty (ty : BitVec 4) (o : BitVec 8) : (modX ty o).extractLsb' 8 4 = ty := part_high rfl
@[simp] theorem modX_bit0 (ty : BitVec 4) (o : BitVec 8) : (modX ty o)[0] = o[0] := bit_low (by decide) rfl
@[simp] theorem modX_wrap (ty : BitVec 4) (wrap : Bool) (pf : BitVec 3) :
    (modX ty (0#4 ++ (BitVec.ofBool wrap ++ pf)))[3] = wrap :=
  bit_low (by decide) (bit_low (by decide) (bit_high rfl))
@[simp] theorem modX_pf (ty : BitVec 4) (wrap : Bool) (pf : BitVec 3) :
    (modX ty (0#4 ++ (BitVec.ofBool wrap ++ pf))).extractLsb' 0 3 = pf :=
  part_low (by decide) (part_low (by decide) (part_low (by decide) part_all))
@[simp] theorem modX_tile (ty : BitVec 4) (n tile : BitVec 2) :
    (modX ty (0#4 ++ (n ++ tile))).extractLsb' 0 2 = tile :=
  part_low (by decide) (part_low (by decide) (part_low (by decide) part_all))
@[simp] theorem modX_count (ty : BitVec 4) (n tile : BitVec 2) :
    (modX ty (0#4 ++ (n ++ tile))).extractLsb' 2 2 = n :=
  part_low (by decide) (part_low (by decide) (part_high rfl))
@[simp] theorem modX_only (ty : BitVec 4) (tile : BitVec 2) : (modX ty (tile.zeroExtend 8)).extractLsb' 0 2 = tile :=
  part_low (by decide) (by revert tile; decide)
@[simp] theorem wideCode_wide (w : Bool) : (wideCode w == 0xE#4) = w := by cases w <;> rfl

@[simp] theorem modM_ty (ty : BitVec 4) (o : MOrd) (s : Scope) (k : BitVec 2) : (modM ty o s k).extractLsb' 8 4 = ty :=
  part_high rfl
@[simp] theorem modM_ord (ty : BitVec 4) (o : MOrd) (s : Scope) (k : BitVec 2) : (modM ty o s k).extractLsb' 5 3 = o.code :=
  part_low (by decide) (part_high rfl)
@[simp] theorem modM_scope (ty : BitVec 4) (o : MOrd) (s : Scope) (k : BitVec 2) : (modM ty o s k).extractLsb' 2 3 = s.code :=
  part_low (by decide) (part_low (by decide) (part_high rfl))
@[simp] theorem modM_cache (ty : BitVec 4) (o : MOrd) (s : Scope) (k : BitVec 2) : (modM ty o s k).extractLsb' 0 2 = k :=
  part_low (by decide) (part_low (by decide) (part_low (by decide) part_all))
@[simp] theorem modM_bit0 (ty : BitVec 4) (o : MOrd) (s : Scope) (k : BitVec 2) : (modM ty o s k)[0] = k[0] :=
  bit_low (by decide) (bit_low (by decide) (bit_low (by decide) rfl))
@[simp] theorem pod_or_pkg (pod : Bool) : ((if pod then Scope.pod else .pkg).code == 5#3) = pod := by cases pod <;> rfl

@[simp] theorem MmaX.ofCode_mod_imm (x : MmaX) : MmaX.ofCode x.mod x.imm = x := by
  have h1 : x.mod.extractLsb' 8 4 = x.t.code := part_high rfl
  have h2 : x.mod.getLsbD 6 = x.pkd := bit_low (by decide) (bit_low (by decide) (bit_high rfl))
  have h3 : x.mod.getLsbD 5 = x.bmc := bit_low (by decide) (bit_low (by decide) (bit_low (by decide) (bit_high rfl)))
  have h4 : x.mod.getLsbD 4 = x.amc :=
    bit_low (by decide) (bit_low (by decide) (bit_low (by decide) (bit_low (by decide) (bit_high rfl))))
  have h5 : x.mod.getLsbD 3 = x.bg := bit_low (by decide) (bit_low (by decide) (bit_low (by decide)
    (bit_low (by decide) (bit_low (by decide) (bit_high rfl)))))
  have h6 : x.mod.getLsbD 2 = x.ag := bit_low (by decide) (bit_low (by decide) (bit_low (by decide)
    (bit_low (by decide) (bit_low (by decide) (bit_low (by decide) (bit_high rfl))))))
  have h7 : x.mod.extractLsb' 0 2 = x.tile := part_low (by decide) (part_low (by decide) (part_low (by decide)
    (part_low (by decide) (part_low (by decide) (part_low (by decide) (part_low (by decide) part_all))))))
  obtain ⟨t, tile, ag, bg, amc, bmc, pkd, km1, _ | o⟩ := x
  · have h8 : (MmaX.imm ⟨t, tile, ag, bg, amc, bmc, pkd, km1, none⟩).getLsbD 7 = false :=
      show ((0 : BitVec 18) ++ km1).getLsbD 7 = false by
        rw [BitVec.getLsbD_append, if_neg (by decide)]
        decide
    have h9 : (MmaX.imm ⟨t, tile, ag, bg, amc, bmc, pkd, km1, none⟩).extractLsb' 0 6 = km1 := part_low (by decide) part_all
    simp only [ofCode, h1, h2, h3, h4, h5, h6, h7, h8, h9, Fmt.ofCode_code]
    rfl
  · have h8 : (MmaX.imm ⟨t, tile, ag, bg, amc, bmc, pkd, km1, some o⟩).getLsbD 7 = true :=
      bit_low (by decide) (bit_high (x := true) rfl)
    have h9 : (MmaX.imm ⟨t, tile, ag, bg, amc, bmc, pkd, km1, some o⟩).extractLsb' 0 6 = km1 :=
      part_low (by decide) (part_low (by decide) (part_low (by decide) part_all))
    have h10 : (MmaX.imm ⟨t, tile, ag, bg, amc, bmc, pkd, km1, some o⟩).extractLsb' 8 16 = o := part_high rfl
    simp only [ofCode, h1, h2, h3, h4, h5, h6, h7, h8, h9, h10, Fmt.ofCode_code, if_true]

@[simp] theorem imm3_c (e : Opnd) (i : BitVec 14) : (imm3 e i).extractLsb' 0 10 = e.code := part_low (by decide) part_all
@[simp] theorem imm3_imm (e : Opnd) (i : BitVec 14) : (imm3 e i).extractLsb' 10 14 = i := part_high rfl

@[simp] theorem barrier_id (a : Bool) (x : BitVec 4) : (0#19 ++ (BitVec.ofBool a ++ x) : BitVec 24).extractLsb' 0 4 = x :=
  part_low (by decide) (part_low (by decide) part_all)
@[simp] theorem barrier_arrive (a : Bool) (x : BitVec 4) : (0#19 ++ (BitVec.ofBool a ++ x) : BitVec 24)[4] = a :=
  bit_low (by decide) (bit_high rfl)
@[simp] theorem mod_bit0 (m : AtomM) (k : BitVec 2) : (m.mod k)[0] = k[0] := modM_bit0 ..

/-! ### Fields of an instruction -/

@[simp] theorem Ctl.ofFields_mkF (c : Ctl) (o : BitVec 8) (s : BitVec 4) (m : BitVec 12) (d a b : BitVec 10) (i : BitVec 24) :
    Ctl.ofFields (mkF c o s m d a b i) = c := by
  obtain ⟨guard, gneg, ix, hold, stall, yh, sw, _ | p⟩ := c <;>
    simp [Ctl.ofFields, mkF, Pfx.ofFields_fields]

@[simp] theorem mkF_dOp (c : Ctl) (o : BitVec 8) (s : BitVec 4) (m : BitVec 12) (d : Opnd) (a b : BitVec 10) (i : BitVec 24) :
    (mkF c o s m d.code a b i).dOp = d := d.ofCode_code
@[simp] theorem mkF_aOp (c : Ctl) (o : BitVec 8) (s : BitVec 4) (m : BitVec 12) (a : Opnd) (d b : BitVec 10) (i : BitVec 24) :
    (mkF c o s m d a.code b i).aOp = a := a.ofCode_code
@[simp] theorem mkF_bOp (c : Ctl) (o : BitVec 8) (s : BitVec 4) (m : BitVec 12) (b : Opnd) (d a : BitVec 10) (i : BitVec 24) :
    (mkF c o s m d a b.code i).bOp = b := b.ofCode_code
@[simp] theorem mkF_cOp (c : Ctl) (o : BitVec 8) (s : BitVec 4) (m : BitVec 12) (e : Opnd) (d a b : BitVec 10) (i : BitVec 14) :
    (mkF c o s m d a b (imm3 e i)).cOp = e := (congrArg Opnd.ofCode (imm3_c e i)).trans e.ofCode_code
@[simp] theorem mkF_sub (c : Ctl) (o : BitVec 8) (s : BitVec 4) (m : BitVec 12) (d a b : BitVec 10) (i : BitVec 24) :
    (mkF c o s m d a b i).sub = s := rfl
@[simp] theorem mkF_mod (c : Ctl) (o : BitVec 8) (s : BitVec 4) (m : BitVec 12) (d a b : BitVec 10) (i : BitVec 24) :
    (mkF c o s m d a b i).mod = m := rfl
@[simp] theorem mkF_imm (c : Ctl) (o : BitVec 8) (s : BitVec 4) (m : BitVec 12) (d a b : BitVec 10) (i : BitVec 24) :
    (mkF c o s m d a b i).imm = i := rfl
@[simp] theorem mkF_bit0 (c : Ctl) (o : BitVec 8) (s : BitVec 4) (m : BitVec 12) (d a b : BitVec 10) (i : BitVec 24) :
    (mkF c o s m d a b i).bit0 = m[0] := rfl
@[simp] theorem mkF_ity (c : Ctl) (o : BitVec 8) (s : BitVec 4) (t : ITy) (sat : Bool) (x : BitVec 6) (d a b : BitVec 10)
    (i : BitVec 24) : (mkF c o s (modI t sat x) d a b i).ity = t :=
  (congrArg ITy.ofCode (modI_ty t sat x)).trans t.ofCode_code
@[simp] theorem mkF_fty (c : Ctl) (o : BitVec 8) (s : BitVec 4) (t : FTy) (r : BitVec 3) (x : BitVec 4) (d a b : BitVec 10)
    (i : BitVec 24) : (mkF c o s (modF t.code r t.pk x) d a b i).fty = t := by
  unfold Fields.fty
  simp
@[simp] theorem mkF_rnd (c : Ctl) (o : BitVec 8) (s : BitVec 4) (ty : BitVec 4) (r : RMode) (pk : Bool) (x : BitVec 4)
    (d a b : BitVec 10) (i : BitVec 24) : (mkF c o s (modF ty r.code pk x) d a b i).rnd = r := by
  unfold Fields.rnd
  simp
@[simp] theorem mkF_rndC (c : Ctl) (o : BitVec 8) (s : BitVec 4) (df sf : Fmt) (r : RMode) (pk : Bool) (d a b : BitVec 10)
    (i : BitVec 24) : (mkF c o s (modC df sf r pk) d a b i).rnd = r := by
  unfold Fields.rnd
  simp
@[simp] theorem mkF_fmtC (c : Ctl) (o : BitVec 8) (s : BitVec 4) (df sf : Fmt) (r : RMode) (pk : Bool) (d a b : BitVec 10)
    (i : BitVec 24) : (mkF c o s (modC df sf r pk) d a b i).fmt = df := by
  unfold Fields.fmt
  simp
@[simp] theorem mkF_fmtF (c : Ctl) (o : BitVec 8) (s : BitVec 4) (t : Fmt) (r : BitVec 3) (pk : Bool) (x : BitVec 4)
    (d a b : BitVec 10) (i : BitVec 24) : (mkF c o s (modF t.code r pk x) d a b i).fmt = t := by
  unfold Fields.fmt
  simp
@[simp] theorem mkF_fmtX (c : Ctl) (o : BitVec 8) (s : BitVec 4) (t : Fmt) (x : BitVec 8) (d a b : BitVec 10)
    (i : BitVec 24) : (mkF c o s (modX t.code x) d a b i).fmt = t := by
  unfold Fields.fmt
  simp
@[simp] theorem mkF_fmtL (c : Ctl) (o : BitVec 8) (s : BitVec 4) (t : Fmt) (d a b : BitVec 10) (i : BitVec 24) :
    (mkF c o s (t.code ++ 0#8) d a b i).fmt = t := by
  have h : (t.code ++ 0#8 : BitVec 12).extractLsb' 8 4 = t.code := part_high rfl
  exact (congrArg Fmt.ofCode h).trans t.ofCode_code
@[simp] theorem mkF_wide (c : Ctl) (o : BitVec 8) (s : BitVec 4) (w : Bool) (x : BitVec 8) (d a b : BitVec 10)
    (i : BitVec 24) : (mkF c o s (modX (wideCode w) x) d a b i).wide = w := by
  unfold Fields.wide
  simp
@[simp] theorem mkF_fsrc (c : Ctl) (o : BitVec 8) (s : BitVec 4) (ty : BitVec 4) (r : BitVec 3) (pk : Bool) (x : FSrc)
    (d a : BitVec 10) : (mkF c o s (modF ty r pk x.opx) d a x.b x.imm).fsrc = x := by
  unfold Fields.fsrc
  cases x <;> simp [FSrc.b, FSrc.imm]
@[simp] theorem mkF_mem (c : Ctl) (o : BitVec 8) (m : MemM) (d a b : BitVec 10) (i : BitVec 24) :
    (mkF c o m.n.code m.mod d a b i).mem = m := by
  unfold Fields.mem Fields.fmt MemM.mod
  simp
@[simp] theorem mkF_atm (c : Ctl) (o : BitVec 8) (s : BitVec 4) (m : AtomM) (k : BitVec 2) (d a b : BitVec 10) (i : BitVec 24) :
    (mkF c o s (m.mod k) d a b i).atm = m := by
  unfold Fields.atm Fields.fmt AtomM.mod
  simp
@[simp] theorem mkF_atomArg (c : Ctl) (o : BitVec 8) (m : BitVec 12) (x : AtomArg) (d a : BitVec 10) :
    (mkF c o x.sub m d a x.b x.imm).atomArg = x := by
  unfold Fields.atomArg
  cases x <;> simp [AtomArg.sub, AtomArg.b, AtomArg.imm]

/-! ### The packed words -/

theorem unpack_pack (f : Fields) : unpack f.pfx f.pack = f := by
  cases f
  unfold unpack Fields.pack
  congr 1
  all_goals
    repeat apply part_low (by decide)
    first
      | exact part_all
      | exact part_high rfl

theorem unpackPfx_pack (p : PFields) : unpackPfx p.pack = p := by
  cases p
  unfold unpackPfx PFields.pack
  congr 1
  all_goals
    repeat apply part_low (by decide)
    first
      | exact part_all
      | exact part_high rfl

theorem isPfxWord_pack (p : PFields) : isPfxWord p.pack = true := by
  have h : p.pack.extractLsb' 0 8 = 0xFE := by
    unfold PFields.pack
    repeat apply part_low (by decide)
    exact part_all
  simp [isPfxWord, h]

theorem Fields.pack_opc (f : Fields) : f.pack.extractLsb' 0 8 = f.opc := congrArg Fields.opc (unpack_pack f)

theorem words96_wordsOf (x : BitVec 96) : words96 (x.extractLsb' 0 32) (x.extractLsb' 32 32) (x.extractLsb' 64 32) = x := by
  apply BitVec.eq_of_getLsbD_eq
  intro i h
  unfold words96
  rw [BitVec.getLsbD_append, BitVec.getLsbD_append]
  simp only [BitVec.getLsbD_extractLsb']
  split
  · split
    · simp_all
    · rw [show 32 + (i - 32) = i by omega, decide_eq_true (by omega : i - 32 < 32), Bool.true_and]
  · rw [show 64 + (i - (32 + 32)) = i by omega, decide_eq_true (by omega : i - (32 + 32) < 32), Bool.true_and]

end Sys2Proof
end

