-- ==== Sys2Proof/Laws/Memory.lean ====
section
/-! SUPPORT. The laws of the plain-data maps: reading after a write, and the canonical form that every memory operation
keeps. -/

namespace Sys2Proof.Machine

/-! ### Entries by key -/

theorem amGet_amPut {β : Type} (m : AMap β) (a b : Nat) (v : β) :
    amGet (amPut m a v) b = if a = b then some v else amGet m b := by
  induction m with
  | nil => simp [amPut, amGet]
  | cons e m ih =>
    obtain ⟨k, w⟩ := e
    simp only [amPut]
    split
    · simp only [amGet, ih]; split <;> split <;> first | rfl | omega
    · split <;> simp only [amGet]
      all_goals repeat' split
      all_goals first | rfl | omega

@[simp] theorem amGet_amPut_same {β : Type} (m : AMap β) (a : Nat) (v : β) : amGet (amPut m a v) a = some v := by
  simp [amGet_amPut]

theorem amGet_amPut_other {β : Type} (m : AMap β) {a b : Nat} (v : β) (h : b ≠ a) : amGet (amPut m a v) b = amGet m b := by
  simp [amGet_amPut, Ne.symm h]

/-! ### One byte -/

/-- Every listed address is above `a`. -/
def memAll (a : Nat) : Memory → Prop
  | [] => True
  | (k, _) :: m => a < k ∧ memAll a m

theorem memAll_mono {a b : Nat} (h : a ≤ b) : ∀ {m : Memory}, memAll b m → memAll a m
  | [], _ => trivial
  | (_, _) :: _, ⟨h1, h2⟩ => ⟨Nat.lt_of_le_of_lt h h1, memAll_mono h h2⟩

theorem memAll_of_wf : ∀ {a : Nat} {m : Memory}, memAbove a m = true → Memory.wf m = true → memAll a m
  | _, [], _, _ => trivial
  | a, (k, b) :: m, h, hw => by
    simp only [memAbove, decide_eq_true_eq] at h
    simp only [Memory.wf, Bool.and_eq_true] at hw
    exact ⟨h, memAll_mono (Nat.le_of_lt h) (memAll_of_wf hw.1.2 hw.2)⟩

theorem memAbove_of_memAll {a : Nat} : ∀ {m : Memory}, memAll a m → memAbove a m = true
  | [], _ => rfl
  | (_, _) :: _, h => by simpa [memAbove] using h.1

theorem memRead_of_memAll {a : Nat} : ∀ {m : Memory}, memAll a m → memRead m a = 0
  | [], _ => rfl
  | (k, _) :: m, ⟨h1, h2⟩ => by
    simp only [memRead, if_neg (Nat.ne_of_gt h1)]
    exact memRead_of_memAll h2

theorem memErase_wf : ∀ {m : Memory}, Memory.wf m = true → ∀ a, Memory.wf (memErase m a) = true ∧ ∀ c, memAll c m → memAll c (memErase m a)
  | [], _, _ => ⟨rfl, fun _ _ => trivial⟩
  | (k, b) :: m, hw, a => by
    simp only [Memory.wf, Bool.and_eq_true] at hw
    have ih := memErase_wf hw.2 a
    simp only [memErase]
    split
    · refine ⟨?_, fun c h => ⟨h.1, ih.2 c h.2⟩⟩
      simp only [Memory.wf, Bool.and_eq_true]
      exact ⟨⟨hw.1.1, memAbove_of_memAll (ih.2 k (memAll_of_wf hw.1.2 hw.2))⟩, ih.1⟩
    · split
      · exact ⟨hw.2, fun c h => h.2⟩
      · exact ⟨by simpa [Memory.wf] using hw, fun c h => h⟩

theorem memInsert_wf : ∀ {m : Memory}, Memory.wf m = true → ∀ a v, v ≠ 0 →
    Memory.wf (memInsert m a v) = true ∧ ∀ c, c < a → memAll c m → memAll c (memInsert m a v)
  | [], _, a, v, hv => ⟨by simpa [memInsert, Memory.wf, memAbove] using hv, fun c h _ => ⟨h, trivial⟩⟩
  | (k, b) :: m, hw, a, v, hv => by
    have hw' := hw
    simp only [Memory.wf, Bool.and_eq_true] at hw
    have ih := memInsert_wf hw.2 a v hv
    have hm := memAll_of_wf hw.1.2 hw.2
    simp only [memInsert]
    split
    · rename_i hk
      refine ⟨?_, fun c h1 h2 => ⟨h2.1, ih.2 c h1 h2.2⟩⟩
      simp only [Memory.wf, Bool.and_eq_true]
      exact ⟨⟨hw.1.1, memAbove_of_memAll (ih.2 k hk hm)⟩, ih.1⟩
    · split
      · rename_i hk
        subst hk
        exact ⟨by simpa [Memory.wf, hw.1.2, hw.2] using hv, fun c h1 h2 => ⟨h1, h2.2⟩⟩
      · rename_i h1 h2
        refine ⟨?_, fun c h3 h4 => ⟨h3, h4⟩⟩
        simp only [Memory.wf, Bool.and_eq_true]
        refine ⟨⟨by simpa using hv, by simp [memAbove]; omega⟩, by simpa [Memory.wf] using hw'⟩

/-- A write keeps the canonical form. -/
theorem memWrite_wf {m : Memory} (h : Memory.wf m = true) (a : Nat) (v : Byte) : Memory.wf (memWrite m a v) = true := by
  unfold memWrite
  split
  · exact (memErase_wf h a).1
  · exact (memInsert_wf h a v (by assumption)).1

theorem memRead_memInsert (m : Memory) (a b : Nat) (v : Byte) :
    memRead (memInsert m a v) b = if a = b then v else memRead m b := by
  induction m with
  | nil => simp [memInsert, memRead]
  | cons e m ih =>
    obtain ⟨k, w⟩ := e
    simp only [memInsert]
    split
    · simp only [memRead, ih]; split <;> split <;> first | rfl | omega
    · split <;> simp only [memRead]
      all_goals repeat' split
      all_goals first | rfl | omega

theorem memRead_memErase {m : Memory} (h : Memory.wf m = true) (a b : Nat) :
    memRead (memErase m a) b = if a = b then 0 else memRead m b := by
  induction m with
  | nil => simp [memErase, memRead]
  | cons e m ih =>
    obtain ⟨k, w⟩ := e
    simp only [Memory.wf, Bool.and_eq_true] at h
    have hm := memAll_of_wf h.1.2 h.2
    simp only [memErase]
    split
    · simp only [memRead, ih h.2]; split <;> split <;> first | rfl | omega
    · split
      · rename_i hk; subst hk
        simp only [memRead]
        split
        · rename_i hb; subst hb; exact memRead_of_memAll hm
        · rfl
      · by_cases hb : a = b
        · subst hb
          rw [if_pos rfl, memRead, if_neg (by omega)]
          exact memRead_of_memAll (memAll_mono (by omega) hm)
        · rw [if_neg hb]

/-- What a byte reads after one byte has been written. -/
theorem memRead_memWrite {m : Memory} (h : Memory.wf m = true) (a b : Nat) (v : Byte) :
    memRead (memWrite m a v) b = if a = b then v else memRead m b := by
  unfold memWrite
  split
  · rename_i hv; subst hv; exact memRead_memErase h a b
  · exact memRead_memInsert m a b v

/-! ### Several bytes -/

/-- A store keeps the canonical form. -/
theorem memStore_wf : ∀ {m : Memory} (a : Nat) (bs : List Byte), Memory.wf m = true → Memory.wf (memStore m a bs) = true
  | _, _, [], h => h
  | _, a, b :: bs, h => memStore_wf (a + 1) bs (memWrite_wf h a b)

/-- What a byte reads after some bytes have been stored. -/
theorem memRead_memStore : ∀ {m : Memory} (a : Nat) (bs : List Byte) (b : Nat), Memory.wf m = true →
    memRead (memStore m a bs) b = if a ≤ b ∧ b < a + bs.length then (bs[b - a]?).getD 0 else memRead m b
  | _, a, [], b, _ => by rw [memStore, if_neg (by simp)]
  | m, a, x :: bs, b, h => by
    rw [memStore, memRead_memStore (a + 1) bs b (memWrite_wf h a x), memRead_memWrite h]
    simp only [List.length_cons]
    by_cases h1 : a + 1 ≤ b ∧ b < a + 1 + bs.length
    · rw [if_pos h1, if_pos (by omega)]
      obtain ⟨n, rfl⟩ : ∃ n, b = a + 1 + n := ⟨b - (a + 1), by omega⟩
      rw [show a + 1 + n - a = n + 1 by omega, show a + 1 + n - (a + 1) = n by omega]
      rfl
    · rw [if_neg h1]
      by_cases h2 : a = b
      · subst h2; rw [if_pos rfl, if_pos (by omega)]; simp
      · rw [if_neg h2, if_neg (by omega)]

theorem memBytes_length (m : Memory) (a n : Nat) : (memBytes m a n).length = n := by
  induction n generalizing a with
  | zero => rfl
  | succ n ih => simp [memBytes, ih]

theorem memBytes_get (m : Memory) (a n i : Nat) (h : i < n) : (memBytes m a n)[i]? = some (memRead m (a + i)) := by
  induction n generalizing a i with
  | zero => omega
  | succ n ih =>
    cases i with
    | zero => simp [memBytes]
    | succ i => simp only [memBytes, List.getElem?_cons_succ]; rw [ih (a + 1) i (by omega)]; congr 2; omega

/-- Bytes read where they have just been stored. -/
theorem memBytes_memStore {m : Memory} (a : Nat) (bs : List Byte) (h : Memory.wf m = true) :
    memBytes (memStore m a bs) a bs.length = bs := by
  apply List.ext_getElem?
  intro i
  by_cases hi : i < bs.length
  · rw [memBytes_get _ _ _ _ hi, memRead_memStore a bs (a + i) h, if_pos (by omega)]
    rw [show a + i - a = i by omega, List.getElem?_eq_getElem hi]; simp
  · rw [List.getElem?_eq_none (by simpa [memBytes_length] using hi), List.getElem?_eq_none (by omega)]

theorem memPut_wf {m : Memory} (a n x : Nat) (h : Memory.wf m = true) : Memory.wf (memPut m a n x) = true :=
  memStore_wf a _ h

theorem memFilter_all {a : Nat} (p : Host.Cell → Bool) : ∀ {m : Memory}, memAll a m → memAll a (m.filter p)
  | [], _ => trivial
  | (k, b) :: m, ⟨h1, h2⟩ => by
    rw [List.filter_cons]
    split
    · exact ⟨h1, memFilter_all p h2⟩
    · exact memFilter_all p h2

theorem memFilter_wf (p : Host.Cell → Bool) : ∀ {m : Memory}, Memory.wf m = true → Memory.wf (m.filter p) = true
  | [], _ => rfl
  | (k, b) :: m, h => by
    simp only [Memory.wf, Bool.and_eq_true] at h
    rw [List.filter_cons]
    split
    · simp only [Memory.wf, Bool.and_eq_true]
      exact ⟨⟨h.1.1, memAbove_of_memAll (memFilter_all p (memAll_of_wf h.1.2 h.2))⟩, memFilter_wf p h.2⟩
    · exact memFilter_wf p h.2

/-- Clearing a range keeps the canonical form. -/
theorem memClear_wf {m : Memory} (a n : Nat) (h : Memory.wf m = true) : Memory.wf (memClear m a n) = true := memFilter_wf _ h

/-! ### Little-endian numbers (R4) -/

@[simp] theorem leBytes_length (x n : Nat) : (leBytes x n).length = n := by
  induction n generalizing x with
  | zero => rfl
  | succ n ih => simp [leBytes, ih]

theorem leNat_leBytes (x n : Nat) : leNat (leBytes x n) = x % 256 ^ n := by
  induction n generalizing x with
  | zero => simp [leBytes, leNat, Nat.mod_one]
  | succ n ih =>
    rw [leBytes, leNat, ih, BitVec.toNat_ofNat, pow_succ' 256 n, Nat.mod_mul]

/-- A number read where it has just been stored. -/
theorem memNat_memPut {m : Memory} (a n x : Nat) (h : Memory.wf m = true) : memNat (memPut m a n x) a n = x % 256 ^ n := by
  have := memBytes_memStore a (leBytes x n) h
  rw [leBytes_length] at this
  rw [memNat, memPut, this, leNat_leBytes]

/-- A number read is that of another memory that reads the same there. -/
theorem memNat_congr {m m' : Memory} (n : Nat) : ∀ a, (∀ b, a ≤ b → b < a + n → memRead m b = memRead m' b) →
    memNat m a n = memNat m' a n := by
  have h : ∀ n a, (∀ b, a ≤ b → b < a + n → memRead m b = memRead m' b) → memBytes m a n = memBytes m' a n := by
    intro n
    induction n with
    | zero => intro a _; rfl
    | succ n ih => intro a e; rw [memBytes, memBytes, e a (by omega) (by omega), ih (a + 1) fun b h h' => e b (by omega) (by omega)]
  intro a e
  rw [memNat, memNat, h n a e]

end Sys2Proof.Machine
end

