-- ==== Sys2Proof/Laws/Registers.lean ====
section
/-! SUPPORT. The laws of lanes and registers: what a lane reads after a write of a vector register (R50, R51), a scalar (R44)
or a predicate (R45), whatever tag the result takes. -/

namespace Sys2Proof.Machine

/-! ### Sets of lanes -/

theorem lanesFold_getLsbD (p : Nat → Bool) (ls : List Nat) (m : Lanes) (l : Nat) (hl : l < 64) :
    (ls.foldl (fun m l => if p l then m ||| BitVec.ofNat 64 (2 ^ l) else m) m).getLsbD l =
      (m.getLsbD l || (decide (l ∈ ls) && p l)) := by
  induction ls generalizing m with
  | nil => simp
  | cons a ls ih =>
    rw [List.foldl_cons, ih]
    by_cases hp : p a
    · simp only [hp, if_true, BitVec.getLsbD_or, BitVec.getLsbD_ofNat, Nat.testBit_two_pow, List.mem_cons, hl, decide_true,
        Bool.true_and]
      by_cases ha : a = l
      · subst ha; simp [hp]
      · have : ¬ l = a := fun h => ha h.symm
        simp [ha, this]
    · simp only [hp, Bool.false_eq_true, if_false, List.mem_cons]
      by_cases ha : l = a
      · subst ha; simp [hp]
      · simp [ha]

/-- Lane l stands in the lanes below n that satisfy a test. -/
theorem lanesWhere_getLsbD (n : Nat) (p : Nat → Bool) (l : Nat) :
    (lanesWhere n p).getLsbD l = (decide (l < 64) && decide (l < n) && p l) := by
  by_cases hl : l < 64
  · rw [lanesWhere, lanesFold_getLsbD p _ _ l hl]; simp [hl]
  · rw [BitVec.getLsbD_of_ge _ _ (by omega)]; simp [hl]

theorem mem_laneList (m : Lanes) (l : Nat) : l ∈ laneList m ↔ m.getLsbD l = true := by
  simp only [laneList, List.mem_filter, List.mem_range, and_iff_right_iff_imp]
  intro h
  by_contra h'
  rw [BitVec.getLsbD_of_ge _ _ (by omega)] at h
  exact absurd h (by simp)

/-- The lowest lane of a set is in it. -/
theorem lowest_mem {m : Lanes} {l : Nat} (h : lowest m = some l) : m.getLsbD l = true :=
  (mem_laneList m l).1 (List.mem_of_mem_head? h)

/-- Only the empty set has no lowest lane. -/
theorem lowest_none {m : Lanes} (h : lowest m = none) (l : Nat) : m.getLsbD l = false := by
  have h0 : laneList m = [] := List.head?_eq_none_iff.1 h
  by_contra h1
  have := (mem_laneList m l).2 (by simpa using h1)
  simp [h0] at this

theorem halfLanes_getLsbD (m : Lanes) (h i : Nat) (hi : i < 32) : (halfLanes m h).getLsbD i = m.getLsbD (32 * h + i) := by
  simp [halfLanes, hi]

/-! ### Fibres -/

theorem Skein.fibre_mapFibres (k : Skein) (m : Lanes) (f : Nat → Fibre → Fibre) (l : Nat) :
    (k.mapFibres m f).fibre l = (k.fibre l).map fun x => if m.getLsbD l then f l x else x := by
  simp only [Skein.fibre, Skein.mapFibres, List.getElem?_mapIdx]
  cases h : k.lanes[l]? with
  | none => simp
  | some o => cases o <;> by_cases hm : m.getLsbD l <;> simp [hm]

theorem Skein.live_getLsbD (k : Skein) (l : Nat) :
    k.live.getLsbD l = (decide (l < 64) && decide (l < k.width) && (k.fibre l).isSome) := by
  rw [Skein.live, lanesWhere_getLsbD]

theorem Skein.width_le (k : Skein) : k.width ≤ 64 := by unfold Skein.width; split <;> omega

/-! ### Tags (R49 to R51) -/

@[simp] theorem words32_at (f : Nat → Word) {l : Nat} (h : l < 32) : (Reg.g (words32 f)).at l = f l := by
  simp [Reg.at, words32, h]

theorem sameOn_spec {m : BitVec 32} {f : Nat → Word} {v : Word} (h : sameOn m f = some v) {l : Nat} (hl : l < 32)
    (hm : m.getLsbD l = true) : f l = v := by
  unfold sameOn at h
  split at h
  · simp at h
  · rename_i y _
    split at h
    · rename_i ha
      rw [List.all_eq_true] at ha
      have := ha l (List.mem_range.2 hl)
      simp only [hm, Bool.not_true, Bool.false_or, beq_iff_eq] at this
      simpa [this] using h
    · simp at h

/-- A classified register reads every live lane's value. -/
theorem classify_at (live : BitVec 32) (f : Nat → Word) {l : Nat} (hl : l < 32) (hm : live.getLsbD l = true) :
    (classify live f).at l = f l := by
  unfold classify
  split
  · rename_i h
    simp only [isAffine, Bool.and_eq_true, List.all_eq_true] at h
    have := h.2 l (List.mem_range.2 hl)
    simp only [beq_iff_eq] at this
    exact this.symm
  · split
    · rename_i v h
      exact (sameOn_spec h hl hm).symm
    · exact words32_at f hl

theorem Reg.classed_at (old : Reg) (live act : BitVec 32) (val : Nat → Word) {l : Nat} (hl : l < 32)
    (hm : live.getLsbD l = true) : (old.classed live act val).at l = if act.getLsbD l then val l else old.at l := by
  unfold Reg.classed
  split
  · rename_i h
    simp only [beq_iff_eq] at h
    simp [h]
  · exact classify_at live _ hl hm

theorem sub_of_full {a b : BitVec 32} (h : (a &&& ~~~b == 0) = true) {l : Nat} (hl : l < 32) (ha : a.getLsbD l = true) :
    b.getLsbD l = true := by
  simp only [beq_iff_eq] at h
  have := congrArg (fun x : BitVec 32 => x.getLsbD l) h
  simpa [ha, hl] using this

/-- A fixed-latency result reads in every live lane what was written there, and the old value elsewhere. -/
theorem Reg.fixed_at (old : Reg) (live act zero : BitVec 32) (t : TagR) (val : Nat → Word) {l : Nat} (hl : l < 32)
    (hm : live.getLsbD l = true) :
    (old.fixed live act zero t val).at l = if act.getLsbD l then val l else if zero.getLsbD l then 0 else old.at l := by
  have hw : ∀ wr : BitVec 32, wr = act ||| zero → ∀ o : Word,
      (if wr.getLsbD l then (if act.getLsbD l then val l else 0) else o) =
        if act.getLsbD l then val l else if zero.getLsbD l then 0 else o := by
    intro wr hwr o
    subst hwr
    by_cases ha : act.getLsbD l <;> by_cases hz : zero.getLsbD l <;> simp [ha, hz]
  have hg := words32_at (fun l => if (act ||| zero).getLsbD l then (if act.getLsbD l then val l else 0) else old.at l) hl
  unfold Reg.fixed
  simp only
  split
  · rename_i h
    simp only [beq_iff_eq] at h
    rw [← hw _ rfl, h]
    simp
  · split
    · rename_i hf
      have hin := sub_of_full hf hl hm
      cases t with
      | u =>
        simp only
        split
        · rename_i x h
          have := sameOn_spec h hl hin
          rw [← hw _ rfl, if_pos hin]
          exact this.symm
        · rw [hg, hw _ rfl]
      | a =>
        simp only
        split
        · rename_i h
          rw [List.all_eq_true] at h
          have := h l (List.mem_range.2 hl)
          simp only [hin, Bool.not_true, Bool.false_or, beq_iff_eq] at this
          rw [← hw _ rfl, if_pos hin, this]
          split
          · rename_i h0
            simp only [beq_iff_eq] at h0
            simp [Reg.at, h0]
          · rfl
        · rw [hg, hw _ rfl]
      | g => rw [hg, hw _ rfl]
    · split
      · rename_i x
        split
        · rename_i h
          simp only [beq_iff_eq] at h
          rw [← hw _ rfl]
          split
          · rename_i h1; exact (sameOn_spec h hl h1).symm
          · rfl
        · rw [hg, hw _ rfl]
      · rw [hg, hw _ rfl]

/-! ### Registers of a skein -/

theorem Skein.reg_setReg (k : Skein) (h v h' v' : Nat) (r : Reg) (hh : h < 2) (hh' : h' < 2) :
    (k.setReg h v r).reg h' v' = if h = h' ∧ v = v' then r else k.reg h' v' := by
  simp only [Skein.reg, Skein.setReg, amGet_amPut]
  by_cases hc : h = h' ∧ v = v'
  · obtain ⟨rfl, rfl⟩ := hc; simp
  · rw [if_neg (by omega), if_neg hc]

@[simp] theorem Skein.setReg_width (k : Skein) (h v : Nat) (r : Reg) : (k.setReg h v r).width = k.width := rfl

theorem Skein.putVec_eq (k : Skein) (v : Nat) (f : Nat → Reg → Reg) :
    k.putVec v f = if k.twin then (k.setReg 0 v (f 0 (k.reg 0 v))).setReg 1 v (f 1 ((k.setReg 0 v (f 0 (k.reg 0 v))).reg 1 v))
      else k.setReg 0 v (f 0 (k.reg 0 v)) := rfl

/-- What a lane reads after an update of the halves of one register. -/
theorem Skein.vlane_putVec (k : Skein) (v : Nat) (f : Nat → Reg → Reg) (u l : Nat) (hl : l < k.width) :
    (k.putVec v f).vlane u l = if u = v then (f (l / 32) (k.reg (l / 32) v)).at (l % 32) else k.vlane u l := by
  rw [Skein.putVec_eq]
  unfold Skein.vlane
  unfold Skein.width at hl
  split
  · rename_i ht
    have h2 : l / 32 < 2 := by simp only [ht, if_true] at hl; omega
    rw [Skein.reg_setReg _ _ _ _ _ _ (by omega) h2, Skein.reg_setReg _ _ _ _ _ _ (by omega) h2,
      Skein.reg_setReg _ _ _ _ _ _ (by omega) (by omega)]
    by_cases hu : u = v
    · subst hu
      have : l / 32 = 0 ∨ l / 32 = 1 := by omega
      rcases this with h0 | h0 <;> simp [h0]
    · have hv : ¬ v = u := fun h => hu h.symm
      simp [hu, hv]
  · rename_i ht
    have h0 : l / 32 = 0 := by simp only [ht] at hl; simp at hl; omega
    rw [Skein.reg_setReg _ _ _ _ _ _ (by omega) (by omega)]
    by_cases hu : u = v
    · subst hu; simp [h0]
    · have hv : ¬ v = u := fun h => hu h.symm
      simp [hu, hv]

/-- The update of a vector register leaves all else. -/
theorem Skein.putVec_rest (k : Skein) (v : Nat) (f : Nat → Reg → Reg) : { k.putVec v f with regs := k.regs } = k := by
  rw [Skein.putVec_eq]; split <;> rfl

/-- Writing some words mends them, and leaves all else (R364). -/
theorem Skein.mend_rest (k : Skein) (v : Nat) (m : Lanes) : { k.mend v m with bad := k.bad } = k := by
  unfold Skein.mend; split <;> rfl

theorem Skein.mend_bad (k : Skein) (v : Nat) (m : Lanes) {e : Nat × Nat × Word} (h : e ∈ (k.mend v m).bad) : e ∈ k.bad := by
  unfold Skein.mend at h
  split at h
  · exact h
  · exact (List.mem_filter.1 h).1

end Sys2Proof.Machine
end

