-- ==== Sys2Proof/Laws/Results.lean ====
section
/-! SUPPORT. What an instruction sees when it issues, and the results that the shared writing operations leave: each write of
`Iss.put` adds one result to those that `Wrote` lists. -/

namespace Sys2Proof.Machine

/-! ### The issuing instruction -/

/-- What `mkIss` answers is the view of the current batch of the skein that is granted. -/
theorem mkIss_eq {i : Instr} {s : State} {x : Iss} (h : mkIss i s = some x) :
    s.grant = .issue x.c x.q ∧ s.skein x.c x.q = some x.k ∧ x.k.cur = some x.pc ∧ i.toFields = some x.f ∧
      x = issOf s x.c x.q x.k x.pc x.f := by
  unfold mkIss at h
  split at h
  · rename_i c q f hg hf
    split at h
    · rename_i k hk
      split at h
      · rename_i pc hp
        obtain rfl := Option.some.inj h
        exact ⟨hg, hk, hp, hf, rfl⟩
      · simp at h
    · simp at h
  · simp at h

/-- Every lane that an instruction touches holds a live fibre. -/
structure Iss.Sound (x : Iss) : Prop where
  act : ∀ l, x.act.getLsbD l = true → x.k.live.getLsbD l = true
  zero : ∀ l, x.zero.getLsbD l = true → x.k.live.getLsbD l = true
  batch : ∀ l, x.batch.getLsbD l = true → x.k.live.getLsbD l = true
  acts : ∀ l, x.act.getLsbD l = true → x.batch.getLsbD l = true

theorem Skein.at_live (k : Skein) (pc : DWord) (l : Nat) (h : (k.at pc).getLsbD l = true) : k.live.getLsbD l = true := by
  rw [Skein.at, lanesWhere_getLsbD] at h
  rw [Skein.live_getLsbD]
  simp only [Bool.and_eq_true] at h ⊢
  refine ⟨h.1, ?_⟩
  have := h.2.2
  split at this
  · rename_i hf; simp [hf]
  · simp at this

theorem mkIss_sound {i : Instr} {s : State} {x : Iss} (h : mkIss i s = some x) : x.Sound := by
  obtain ⟨_, _, _, _, hx⟩ := mkIss_eq h
  have hb : x.batch = x.k.at x.pc := by rw [hx]; rfl
  have ha : ∀ l, x.act.getLsbD l = true → x.batch.getLsbD l = true := by
    intro l hl
    rw [hx] at hl ⊢
    simp only [issOf, lanesWhere_getLsbD, Bool.and_eq_true] at hl ⊢
    exact hl.2.1.1
  have hz : ∀ l, x.zero.getLsbD l = true → x.batch.getLsbD l = true := by
    intro l hl
    rw [hx] at hl ⊢
    simp only [issOf, lanesWhere_getLsbD, Bool.and_eq_true] at hl ⊢
    exact hl.2.1.1.1
  have hl : ∀ l, x.batch.getLsbD l = true → x.k.live.getLsbD l = true := fun l h' => Skein.at_live _ _ _ (hb ▸ h')
  exact ⟨fun l h' => hl l (ha l h'), fun l h' => hl l (hz l h'), hl, ha⟩

theorem Iss.low_act {x : Iss} {l : Nat} (h : x.low = some l) : x.act.getLsbD l = true := lowest_mem h

/-! ### Lists of results -/

@[simp] theorem Results.last_nil (d : Dst) : Results.last [] d = none := rfl

theorem Results.last_append (ws : Results) (d e : Dst) (f : Nat → Word) :
    Results.last (ws ++ [(d, f)]) e = if d = e then some f else ws.last e := by
  simp only [Results.last, List.reverse_append, List.reverse_cons, List.reverse_nil, List.nil_append, List.cons_append,
    List.find?_cons]
  by_cases h : d = e
  · subst h; simp
  · have hb : (d == e) = false := by simpa using h
    simp [h, hb]

/-- Nothing written. -/
theorem Wrote.nothing (x : Iss) : Wrote x x.k [] 0 where
  vec := fun _ _ _ _ => rfl
  scl := fun _ => rfl
  prd := fun _ _ _ => rfl
  fibres := fun _ => rfl
  flags := by simp
  pend := rfl
  bad := fun _ h => h
  rest := rfl

theorem Wrote.width {x : Iss} {k : Skein} {ws : Results} {fl : BitVec 5} (h : Wrote x k ws fl) : k.width = x.k.width := by
  have := congrArg Skein.twin h.rest
  simp only at this
  simp [Skein.width, this]

theorem Wrote.some_fibre {x : Iss} {k : Skein} {ws : Results} {fl : BitVec 5} (h : Wrote x k ws fl) (l : Nat) :
    (k.fibre l).isSome = (x.k.fibre l).isSome := by
  have := congrArg Option.isSome (h.fibres l)
  simpa using this

theorem Wrote.live {x : Iss} {k : Skein} {ws : Results} {fl : BitVec 5} (h : Wrote x k ws fl) (l : Nat) :
    k.live.getLsbD l = x.k.live.getLsbD l := by
  rw [Skein.live_getLsbD, Skein.live_getLsbD, h.width, h.some_fibre]

/-- Flags joined afterwards. -/
theorem Wrote.addFlags {x : Iss} {k : Skein} {ws : Results} {fl : BitVec 5} (h : Wrote x k ws 0) :
    Wrote x { k with fflags := k.fflags ||| fl } ws fl where
  vec := h.vec
  scl := h.scl
  prd := h.prd
  fibres := h.fibres
  flags := by rw [h.flags]; simp
  pend := h.pend
  bad := h.bad
  rest := by have := h.rest; exact this

/-! ### One write -/

theorem Wrote.fold_pend (x : Iss) (ws : Results) (d : Dst) (f : Nat → Word) :
    ((ws ++ [(d, f)]).foldl (fun k e => k.supersede e.1 (x.lanesOf e.1)) x.k).pend =
      ((ws.foldl (fun k e => k.supersede e.1 (x.lanesOf e.1)) x.k).supersede d (x.lanesOf d)).pend := by
  simp

theorem supersede_pend_congr {k k' : Skein} (h : k.pend = k'.pend) (d : Dst) (m : Lanes) :
    (k.supersede d m).pend = (k'.supersede d m).pend := by simp [Skein.supersede, h]

/-- An update of a vector register changes the registers and the words found bad only. -/
theorem Skein.putVec_eta (k : Skein) (v : Nat) (f : Nat → Reg → Reg) :
    k.putVec v f = { k with regs := (k.putVec v f).regs } := by rw [Skein.putVec_eq]; split <;> rfl

theorem Skein.mend_eta (k : Skein) (v : Nat) (m : Lanes) : k.mend v m = { k with bad := (k.mend v m).bad } := by
  unfold Skein.mend; split <;> rfl

theorem Skein.writeFixed_eta (k : Skein) (v : Nat) (m z : Lanes) (t : Nat → TagR) (f : Nat → Word) :
    ∃ R, k.writeFixed v m z t f = { k with regs := R, bad := (k.mend v (m ||| z)).bad } := by
  unfold Skein.writeFixed
  rw [Skein.putVec_eta, Skein.mend_eta]
  exact ⟨_, rfl⟩

theorem Skein.writeClassed_eta (k : Skein) (v : Nat) (m : Lanes) (f : Nat → Word) :
    ∃ R, k.writeClassed v m f = { k with regs := R, bad := (k.mend v m).bad } := by
  unfold Skein.writeClassed
  rw [Skein.putVec_eta, Skein.mend_eta]
  exact ⟨_, rfl⟩

@[simp] theorem Skein.mend_reg (k : Skein) (v : Nat) (m : Lanes) (h u : Nat) : (k.mend v m).reg h u = k.reg h u := by
  have := congrArg Skein.regs (Skein.mend_rest k v m)
  simp only at this
  simp [Skein.reg, this]

@[simp] theorem Skein.mend_width (k : Skein) (v : Nat) (m : Lanes) : (k.mend v m).width = k.width := by
  have := congrArg Skein.twin (Skein.mend_rest k v m)
  simp only at this
  simp [Skein.width, this]

/-- What a live lane reads after a fixed-latency write (R50, R145). -/
theorem Skein.vlane_writeFixed (k : Skein) (v : Nat) (m z : Lanes) (t : Nat → TagR) (f : Nat → Word) (u l : Nat)
    (hl : l < k.width) (hv : k.live.getLsbD l = true) :
    (k.writeFixed v m z t f).vlane u l =
      if u = v then (if m.getLsbD l then f l else if z.getLsbD l then 0 else k.vlane u l) else k.vlane u l := by
  have h64 := k.width_le
  have hd : 32 * (l / 32) + l % 32 = l := by omega
  unfold Skein.writeFixed
  rw [Skein.vlane_putVec _ _ _ _ _ (by simpa using hl)]
  by_cases hu : u = v
  · subst hu
    rw [if_pos rfl, if_pos rfl, Reg.fixed_at _ _ _ _ _ _ (by omega) (by rw [halfLanes_getLsbD _ _ _ (by omega), hd]; exact hv)]
    rw [halfLanes_getLsbD _ _ _ (by omega), halfLanes_getLsbD _ _ _ (by omega), hd]
    simp [Skein.vlane]
  · rw [if_neg hu, if_neg hu]; simp [Skein.vlane]

/-- What a live lane reads after a classified write (R51). -/
theorem Skein.vlane_writeClassed (k : Skein) (v : Nat) (m : Lanes) (f : Nat → Word) (u l : Nat)
    (hl : l < k.width) (hv : k.live.getLsbD l = true) :
    (k.writeClassed v m f).vlane u l = if u = v then (if m.getLsbD l then f l else k.vlane u l) else k.vlane u l := by
  have h64 := k.width_le
  have hd : 32 * (l / 32) + l % 32 = l := by omega
  unfold Skein.writeClassed
  rw [Skein.vlane_putVec _ _ _ _ _ (by simpa using hl)]
  by_cases hu : u = v
  · subst hu
    rw [if_pos rfl, if_pos rfl, Reg.classed_at _ _ _ _ (by omega) (by rw [halfLanes_getLsbD _ _ _ (by omega), hd]; exact hv)]
    rw [halfLanes_getLsbD _ _ _ (by omega), hd]
    simp [Skein.vlane]
  · rw [if_neg hu, if_neg hu]; simp [Skein.vlane]

theorem setPred_getLsbD (w : BitVec 7) (p q : Nat) (v : Bool) (hq : q < 7) :
    (setPred w p v).getLsbD q = if p = q then v else w.getLsbD q := by
  have h2 : (BitVec.ofNat 7 (2 ^ p)).getLsbD q = decide (p = q) := by
    rw [BitVec.getLsbD_ofNat, Nat.testBit_two_pow]; simp [hq]
  unfold setPred
  generalize BitVec.ofNat 7 (2 ^ p) = m at h2 ⊢
  cases v <;> simp only [Bool.false_eq_true, if_false, if_true, BitVec.getLsbD_and, BitVec.getLsbD_or, BitVec.getLsbD_not, h2]
    <;> by_cases h : p = q <;> simp [h, hq]

/-- A skein whose vector registers alone have changed. -/
theorem Wrote.ofRegs {x : Iss} {k : Skein} {ws : Results} {fl : BitVec 5} (h : Wrote x k ws fl) {v : Nat} {f : Nat → Word}
    {R : AMap Reg} {B : List (Nat × Nat × Word)} (hB : ∀ e ∈ B, e ∈ k.bad)
    (hv : ∀ u l, l < x.k.width → x.k.live.getLsbD l = true → ({ k with regs := R } : Skein).vlane u l =
      if u = v then (if x.act.getLsbD l then f l else if x.zero.getLsbD l then 0 else k.vlane u l) else k.vlane u l) :
    Wrote x { k.supersede (.vec v) (x.lanesOf (.vec v)) with regs := R, bad := B } (ws ++ [(.vec v, f)]) fl where
  vec := by
    intro u l hlt hlv
    have := hv u l hlt hlv
    rw [show ({ k.supersede (.vec v) (x.lanesOf (.vec v)) with regs := R, bad := B } : Skein).vlane u l =
      ({ k with regs := R } : Skein).vlane u l from rfl, this, h.vec u l hlt hlv, Results.last_append]
    by_cases hu : u = v
    · subst hu
      simp only [if_true]
      split
      · rfl
      · split
        · rfl
        · split <;> simp_all
    · have : ¬ (Dst.vec v = Dst.vec u) := by simpa using fun e => hu e.symm
      simp [hu, this]
  scl := by
    intro n
    rw [Results.last_append]
    simp only [reduceCtorEq, if_false]
    exact h.scl n
  prd := by
    intro p l hp
    rw [Results.last_append, Results.last_append]
    simp only [reduceCtorEq, if_false]
    exact h.prd p l hp
  fibres := h.fibres
  flags := h.flags
  pend := by rw [Wrote.fold_pend]; exact supersede_pend_congr h.pend _ _
  bad := fun e he => h.bad e (hB e he)
  rest := h.rest

theorem Skein.supersede_eta (k : Skein) (d : Dst) (m : Lanes) : k.supersede d m = { k with pend := (k.supersede d m).pend } := rfl

/-- The write of a vector register adds its result. -/
theorem Wrote.putVec {x : Iss} {k : Skein} {ws : Results} {fl : BitVec 5} (h : Wrote x k ws fl) (v : Nat)
    (t : Nat → TagR) (f : Nat → Word) : Wrote x (x.put k (.vec v) t f) (ws ++ [(.vec v, f)]) fl := by
  obtain ⟨R, hR⟩ := Skein.writeFixed_eta (k.supersede (.vec v) (x.act ||| x.zero)) v x.act x.zero t f
  rw [show x.put k (.vec v) t f = (k.supersede (.vec v) (x.act ||| x.zero)).writeFixed v x.act x.zero t f from rfl, hR]
  refine h.ofRegs (fun e he => Skein.mend_bad (k.supersede (.vec v) (x.act ||| x.zero)) v (x.act ||| x.zero) he)
    fun u l hl hv => ?_
  have := Skein.vlane_writeFixed (k.supersede (.vec v) (x.act ||| x.zero)) v x.act x.zero t f u l
    (show l < k.width by rw [h.width]; exact hl)
    (show k.live.getLsbD l = true by rw [h.live]; exact hv)
  rw [hR] at this
  exact this

/-- The classified write of a vector register adds its result. -/
theorem Wrote.putClassed {x : Iss} {k : Skein} {ws : Results} {fl : BitVec 5} (h : Wrote x k ws fl) (v : Nat)
    (f : Nat → Word) (hz : ∀ l, x.zero.getLsbD l = true → x.act.getLsbD l = false) :
    Wrote x (x.putClassed k (.vec v) f) (ws ++ [(.vec v, f)]) fl := by
  obtain ⟨R, hR⟩ := Skein.writeClassed_eta (k.supersede (.vec v) (x.act ||| x.zero)) v (x.act ||| x.zero)
    fun l => if x.zero.getLsbD l then 0 else f l
  rw [show x.putClassed k (.vec v) f = (k.supersede (.vec v) (x.act ||| x.zero)).writeClassed v (x.act ||| x.zero)
    (fun l => if x.zero.getLsbD l then 0 else f l) from rfl, hR]
  refine h.ofRegs (fun e he => Skein.mend_bad (k.supersede (.vec v) (x.act ||| x.zero)) v (x.act ||| x.zero) he)
    fun u l hl hv => ?_
  have := Skein.vlane_writeClassed (k.supersede (.vec v) (x.act ||| x.zero)) v (x.act ||| x.zero)
    (fun l => if x.zero.getLsbD l then 0 else f l) u l
    (show l < k.width by rw [h.width]; exact hl)
    (show k.live.getLsbD l = true by rw [h.live]; exact hv)
  rw [hR] at this
  rw [show ({ k with regs := R } : Skein).vlane u l = _ from this]
  by_cases ha : x.act.getLsbD l
  · have : x.zero.getLsbD l = false := by
      by_contra hc; exact absurd (hz l (by simpa using hc)) (by simp [ha])
    simp [ha, this, Skein.supersede, Skein.vlane, Skein.reg]
  · by_cases hc : x.zero.getLsbD l <;> simp [ha, hc, Skein.supersede, Skein.vlane, Skein.reg]

/-- The write of a scalar adds its result (R44). -/
theorem Wrote.putScl {x : Iss} {k : Skein} {ws : Results} {fl : BitVec 5} (h : Wrote x k ws fl) (n : Nat)
    (t : Nat → TagR) (f : Nat → Word) : Wrote x (x.put k (.scl n) t f) (ws ++ [(.scl n, f)]) fl := by
  have he : x.put k (.scl n) t f = (k.supersede (.scl n) x.act).writeScalar n x.act f := rfl
  rw [he]
  unfold Skein.writeScalar
  constructor
  · intro u l hl hv
    rw [Results.last_append]
    simp only [reduceCtorEq, if_false]
    rw [← h.vec u l hl hv]
    split <;> rfl
  · intro m
    rw [Results.last_append]
    have h0 := h.scl m
    cases hlow : x.low with
    | none =>
      rw [show lowest x.act = none from hlow]
      simp only [hlow] at h0
      by_cases hm : n = m
      · subst hm
        simp only [if_true]
        refine Eq.trans ?_ (h0.trans ?_)
        · rfl
        · split <;> first | rfl | simp_all
      · have : ¬ Dst.scl n = Dst.scl m := by simpa using hm
        simp only [this, if_false]
        exact h0
    | some l =>
      rw [show lowest x.act = some l from hlow]
      simp only [hlow] at h0
      by_cases hm : n = m
      · subst hm; simp [Skein.scalar, Skein.setScalar]
      · have : ¬ Dst.scl n = Dst.scl m := by simpa using hm
        simp only [this, if_false]
        rw [← h0]
        simp [Skein.scalar, Skein.setScalar, Skein.supersede, amGet_amPut, hm]
  · intro p l hp
    rw [Results.last_append, Results.last_append]
    simp only [reduceCtorEq, if_false]
    rw [← h.prd p l hp]
    split <;> rfl
  · intro l
    rw [← h.fibres l]
    split <;> rfl
  · rw [← h.flags]
    split <;> rfl
  · rw [Wrote.fold_pend]
    refine Eq.trans ?_ (supersede_pend_congr h.pend _ _)
    split <;> rfl
  · intro e he
    refine h.bad e ?_
    split at he
    · exact he
    · exact (List.mem_filter.1 he).1
  · refine Eq.trans ?_ h.rest
    split <;> rfl

/-- A change of the predicates of the active lanes, as a result of a predicate or of the predicate word. -/
theorem Wrote.ofPreds {x : Iss} (hx : x.Sound) {k : Skein} {ws : Results} {fl : BitVec 5} (h : Wrote x k ws fl) (d : Dst)
    (a : Nat → Word) (g : Nat → Fibre → Fibre) (hd : d = .pword ∨ ∃ p, d = .prd p) (hg : ∀ l f, { g l f with preds := f.preds } = f)
    (hp : ∀ p l f, p < 7 → (g l f).preds.getLsbD p =
      if d = .prd p then a l != 0 else if d = .pword then (a l).getLsbD p else f.preds.getLsbD p)
    (hlast : d = .pword → ∀ p, ws.last (.prd p) = none) :
    Wrote x (((k.supersede d x.act).mend 512 x.act).mapFibres x.act g) (ws ++ [(d, a)]) fl := by
  have hfib : ∀ l, (((k.supersede d x.act).mend 512 x.act).mapFibres x.act g).fibre l =
      (k.fibre l).map fun f => if x.act.getLsbD l then g l f else f := by
    intro l
    rw [Skein.fibre_mapFibres, Skein.mend_eta]
    rfl
  have hv : ∀ v, ¬ d = .vec v := by rintro v rfl; rcases hd with h | ⟨p, h⟩ <;> simp at h
  have hs : ∀ n, ¬ d = .scl n := by rintro n rfl; rcases hd with h | ⟨p, h⟩ <;> simp at h
  have hlan : x.lanesOf d = x.act := by rcases hd with h | ⟨p, h⟩ <;> subst h <;> rfl
  constructor
  · intro v l hl hlv
    rw [Results.last_append, if_neg (hv v), ← h.vec v l hl hlv, Skein.mend_eta]
    rfl
  · intro n
    rw [Results.last_append, if_neg (hs n), ← h.scl n, Skein.mend_eta]
    rfl
  · intro p l hp7
    have h0 := h.prd p l hp7
    have hpred : ∀ (z : Skein), z.pred p l = match z.fibre l with | some f => f.preds.getLsbD p | none => false := by
      intro z; simp only [Skein.pred]; exact if_neg (by omega)
    rw [Results.last_append, Results.last_append, hpred, hfib]
    rw [hpred k] at h0
    cases hf : k.fibre l with
    | none =>
      have hxf : x.k.pred p l = false := by
        have := h.some_fibre l
        rw [hf] at this
        have hx0 : x.k.fibre l = none := Option.isNone_iff_eq_none.1 (by simpa using this.symm)
        rw [hpred, hx0]
      have hact : x.act.getLsbD l = false := by
        by_contra hc
        have := hx.act l (by simpa using hc)
        rw [Skein.live_getLsbD, ← h.some_fibre l, hf] at this
        simp at this
      simp only [Option.map_none, hact, Bool.false_eq_true, if_false, hxf]
      repeat' split
      all_goals rfl
    | some f =>
      rw [hf] at h0
      simp only at h0
      by_cases ha : x.act.getLsbD l
      · simp only [ha, if_true] at h0 ⊢
        simp only [Option.map_some, hp p l f hp7]
        by_cases h1 : d = .prd p
        · simp [h1]
        · by_cases h2 : d = .pword
          · have h3 := hlast h2 p
            subst h2
            simp [h3]
          · simp only [h1, h2, if_false]; exact h0
      · have ha' : x.act.getLsbD l = false := by simpa using ha
        simp only [Option.map_some, ha', Bool.false_eq_true, if_false] at h0 ⊢
        have h0' : f.preds.getLsbD p = x.k.pred p l := by rw [h0]; (repeat' split) <;> rfl
        rw [h0']
        repeat' split
        all_goals rfl
  · intro l
    rw [← h.fibres l, hfib]
    cases hf : k.fibre l with
    | none => rfl
    | some f =>
      simp only [Option.map_some, Option.some.injEq]
      split
      · exact congrArg (fun z : Fibre => { z with preds := 0 }) (hg l f)
      · rfl
  · have := h.flags
    rw [← this, Skein.mend_eta]
    rfl
  · rw [Wrote.fold_pend, hlan]
    refine Eq.trans ?_ (supersede_pend_congr h.pend _ _)
    rw [Skein.mend_eta]
    rfl
  · intro e he
    refine h.bad e ?_
    have : e ∈ ((k.supersede d x.act).mend 512 x.act).bad := he
    exact Skein.mend_bad (k.supersede d x.act) 512 x.act this
  · refine Eq.trans ?_ h.rest
    rw [Skein.mend_eta]
    rfl

/-- The write of a predicate adds its result (R45). -/
theorem Wrote.putPrd {x : Iss} (hx : x.Sound) {k : Skein} {ws : Results} {fl : BitVec 5} (h : Wrote x k ws fl) (p : Nat) (hp : p < 7)
    (t : Nat → TagR) (f : Nat → Word) : Wrote x (x.put k (.prd p) t f) (ws ++ [(.prd p, f)]) fl := by
  have he : x.put k (.prd p) t f = ((k.supersede (.prd p) x.act).mend 512 x.act).mapFibres x.act
      fun l g => { g with preds := setPred g.preds p (f l != 0) } := by
    show (k.supersede (.prd p) x.act).writePred p x.act _ = _
    unfold Skein.writePred
    rw [if_neg (by omega)]
  rw [he]
  refine h.ofPreds hx _ f _ (.inr ⟨p, rfl⟩) (fun _ _ => rfl) ?_ (by simp)
  intro q l g hq
  rw [setPred_getLsbD _ _ _ _ hq]
  simp

/-- The write of the predicate word adds its result (R136). -/
theorem Wrote.putPWord {x : Iss} (hx : x.Sound) {k : Skein} {ws : Results} {fl : BitVec 5} (h : Wrote x k ws fl)
    (hw : ∀ p, ws.last (.prd p) = none) (t : Nat → TagR) (f : Nat → Word) :
    Wrote x (x.put k .pword t f) (ws ++ [(.pword, f)]) fl := by
  refine h.ofPreds hx _ f (fun l g => { g with preds := (f l).setWidth 7 }) (.inl rfl) (fun _ _ => rfl) ?_ (fun _ => hw)
  intro q l g hq
  simp [hq]

/-- A discarded result changes nothing. -/
theorem Wrote.putNone {x : Iss} {k : Skein} {ws : Results} {fl : BitVec 5} (h : Wrote x k ws fl)
    (t : Nat → TagR) (f : Nat → Word) : Wrote x (x.put k .none t f) (ws ++ [(.none, f)]) fl where
  vec := by
    intro v l hl hv
    rw [Results.last_append, if_neg (by simp)]
    exact h.vec v l hl hv
  scl := by
    intro n
    rw [Results.last_append, if_neg (by simp)]
    exact h.scl n
  prd := by
    intro p l hp
    rw [Results.last_append, Results.last_append, if_neg (by simp), if_neg (by simp)]
    exact h.prd p l hp
  fibres := h.fibres
  flags := h.flags
  pend := by rw [Wrote.fold_pend]; exact supersede_pend_congr h.pend _ _
  bad := h.bad
  rest := h.rest

/-- One fixed-latency result adds to those written: a predicate's index is at most 7, and the predicate word is written before no
predicate. -/
theorem Wrote.put {x : Iss} (hx : x.Sound) {k : Skein} {ws : Results} {fl : BitVec 5} (h : Wrote x k ws fl) (d : Dst)
    (hp : ∀ p, d = .prd p → p < 7) (hw : d = .pword → ∀ p, ws.last (.prd p) = none)
    (t : Nat → TagR) (f : Nat → Word) : Wrote x (x.put k d t f) (ws ++ [(d, f)]) fl := by
  cases d with
  | none => exact h.putNone t f
  | vec v => exact h.putVec v t f
  | scl n => exact h.putScl n t f
  | prd p => exact h.putPrd hx p (hp p rfl) t f
  | pword => exact h.putPWord hx (hw rfl) t f

end Sys2Proof.Machine
end

