-- ==== Sys2Proof/Laws/State.lean ====
section
/-! SUPPORT. What each named update of the machine leaves of every field: one lemma per field and update, so that no later
proof unfolds a record update. -/

namespace Sys2Proof.Machine

section setSkein
variable (s : State) (c q : Nat) (k : Skein)
@[simp] theorem State.setSkein_tick : (s.setSkein c q k).tick = s.tick := rfl
@[simp] theorem State.setSkein_grant : (s.setSkein c q k).grant = s.grant := rfl
@[simp] theorem State.setSkein_choices : (s.setSkein c q k).choices = s.choices := rfl
@[simp] theorem State.setSkein_inputs : (s.setSkein c q k).inputs = s.inputs := rfl
@[simp] theorem State.setSkein_mem : (s.setSkein c q k).mem = s.mem := rfl
@[simp] theorem State.setSkein_far : (s.setSkein c q k).far = s.far := rfl
@[simp] theorem State.setSkein_l2 : (s.setSkein c q k).l2 = s.l2 := rfl
@[simp] theorem State.setSkein_hubLines : (s.setSkein c q k).hubLines = s.hubLines := rfl
@[simp] theorem State.setSkein_hubDirty : (s.setSkein c q k).hubDirty = s.hubDirty := rfl
@[simp] theorem State.setSkein_sectors : (s.setSkein c q k).sectors = s.sectors := rfl
@[simp] theorem State.setSkein_floors : (s.setSkein c q k).floors = s.floors := rfl
@[simp] theorem State.setSkein_joins : (s.setSkein c q k).joins = s.joins := rfl
@[simp] theorem State.setSkein_poison : (s.setSkein c q k).poison = s.poison := rfl
@[simp] theorem State.setSkein_hub : (s.setSkein c q k).hub = s.hub := rfl
@[simp] theorem State.setSkein_pkgSet : (s.setSkein c q k).pkgSet = s.pkgSet := rfl
@[simp] theorem State.setSkein_cores : (s.setSkein c q k).cores = s.cores := rfl
@[simp] theorem State.setSkein_lots : (s.setSkein c q k).lots = s.lots := rfl
@[simp] theorem State.setSkein_launches : (s.setSkein c q k).launches = s.launches := rfl
@[simp] theorem State.setSkein_launchSeq : (s.setSkein c q k).launchSeq = s.launchSeq := rfl
@[simp] theorem State.setSkein_queues : (s.setSkein c q k).queues = s.queues := rfl
@[simp] theorem State.setSkein_spawns : (s.setSkein c q k).spawns = s.spawns := rfl
@[simp] theorem State.setSkein_spawnSeq : (s.setSkein c q k).spawnSeq = s.spawnSeq := rfl
@[simp] theorem State.setSkein_tlb : (s.setSkein c q k).tlb = s.tlb := rfl
@[simp] theorem State.setSkein_faults : (s.setSkein c q k).faults = s.faults := rfl
@[simp] theorem State.setSkein_copies : (s.setSkein c q k).copies = s.copies := rfl
@[simp] theorem State.setSkein_copySeq : (s.setSkein c q k).copySeq = s.copySeq := rfl
@[simp] theorem State.setSkein_queries : (s.setSkein c q k).queries = s.queries := rfl
@[simp] theorem State.setSkein_querySeq : (s.setSkein c q k).querySeq = s.querySeq := rfl
@[simp] theorem State.setSkein_lands : (s.setSkein c q k).lands = s.lands := rfl
@[simp] theorem State.setSkein_landSeq : (s.setSkein c q k).landSeq = s.landSeq := rfl
@[simp] theorem State.setSkein_lakes : (s.setSkein c q k).lakes = s.lakes := rfl
@[simp] theorem State.setSkein_tls : (s.setSkein c q k).tls = s.tls := rfl
@[simp] theorem State.setSkein_podTls : (s.setSkein c q k).podTls = s.podTls := rfl
@[simp] theorem State.setSkein_dies : (s.setSkein c q k).dies = s.dies := rfl
@[simp] theorem State.setSkein_reserves : (s.setSkein c q k).reserves = s.reserves := rfl
@[simp] theorem State.setSkein_saved : (s.setSkein c q k).saved = s.saved := rfl
@[simp] theorem State.setSkein_ckpts : (s.setSkein c q k).ckpts = s.ckpts := rfl
@[simp] theorem State.setSkein_dumps : (s.setSkein c q k).dumps = s.dumps := rfl
@[simp] theorem State.setSkein_dumpPos : (s.setSkein c q k).dumpPos = s.dumpPos := rfl
@[simp] theorem State.setSkein_failDrops : (s.setSkein c q k).failDrops = s.failDrops := rfl
@[simp] theorem State.setSkein_shuffles : (s.setSkein c q k).shuffles = s.shuffles := rfl
@[simp] theorem State.setSkein_widCtr : (s.setSkein c q k).widCtr = s.widCtr := rfl
@[simp] theorem State.setSkein_msix : (s.setSkein c q k).msix = s.msix := rfl
@[simp] theorem State.setSkein_hostReply : (s.setSkein c q k).hostReply = s.hostReply := rfl
@[simp] theorem State.setSkein_sent : (s.setSkein c q k).sent = s.sent := rfl
@[simp] theorem State.setSkein_stops : (s.setSkein c q k).stops = s.stops := rfl
@[simp] theorem State.setSkein_objects : (s.setSkein c q k).objects = s.objects := rfl
@[simp] theorem State.setSkein_firmware : (s.setSkein c q k).firmware = s.firmware := rfl
@[simp] theorem State.setSkein_unserved : (s.setSkein c q k).unserved = s.unserved := rfl
end setSkein

section setLot
variable (s : State) (n : Nat) (l : Lot)
@[simp] theorem State.setLot_tick : (s.setLot n l).tick = s.tick := rfl
@[simp] theorem State.setLot_grant : (s.setLot n l).grant = s.grant := rfl
@[simp] theorem State.setLot_choices : (s.setLot n l).choices = s.choices := rfl
@[simp] theorem State.setLot_inputs : (s.setLot n l).inputs = s.inputs := rfl
@[simp] theorem State.setLot_mem : (s.setLot n l).mem = s.mem := rfl
@[simp] theorem State.setLot_far : (s.setLot n l).far = s.far := rfl
@[simp] theorem State.setLot_l2 : (s.setLot n l).l2 = s.l2 := rfl
@[simp] theorem State.setLot_hubLines : (s.setLot n l).hubLines = s.hubLines := rfl
@[simp] theorem State.setLot_hubDirty : (s.setLot n l).hubDirty = s.hubDirty := rfl
@[simp] theorem State.setLot_sectors : (s.setLot n l).sectors = s.sectors := rfl
@[simp] theorem State.setLot_floors : (s.setLot n l).floors = s.floors := rfl
@[simp] theorem State.setLot_joins : (s.setLot n l).joins = s.joins := rfl
@[simp] theorem State.setLot_poison : (s.setLot n l).poison = s.poison := rfl
@[simp] theorem State.setLot_hub : (s.setLot n l).hub = s.hub := rfl
@[simp] theorem State.setLot_pkgSet : (s.setLot n l).pkgSet = s.pkgSet := rfl
@[simp] theorem State.setLot_cores : (s.setLot n l).cores = s.cores := rfl
@[simp] theorem State.setLot_skeins : (s.setLot n l).skeins = s.skeins := rfl
@[simp] theorem State.setLot_launches : (s.setLot n l).launches = s.launches := rfl
@[simp] theorem State.setLot_launchSeq : (s.setLot n l).launchSeq = s.launchSeq := rfl
@[simp] theorem State.setLot_queues : (s.setLot n l).queues = s.queues := rfl
@[simp] theorem State.setLot_spawns : (s.setLot n l).spawns = s.spawns := rfl
@[simp] theorem State.setLot_spawnSeq : (s.setLot n l).spawnSeq = s.spawnSeq := rfl
@[simp] theorem State.setLot_tlb : (s.setLot n l).tlb = s.tlb := rfl
@[simp] theorem State.setLot_faults : (s.setLot n l).faults = s.faults := rfl
@[simp] theorem State.setLot_copies : (s.setLot n l).copies = s.copies := rfl
@[simp] theorem State.setLot_copySeq : (s.setLot n l).copySeq = s.copySeq := rfl
@[simp] theorem State.setLot_queries : (s.setLot n l).queries = s.queries := rfl
@[simp] theorem State.setLot_querySeq : (s.setLot n l).querySeq = s.querySeq := rfl
@[simp] theorem State.setLot_lands : (s.setLot n l).lands = s.lands := rfl
@[simp] theorem State.setLot_landSeq : (s.setLot n l).landSeq = s.landSeq := rfl
@[simp] theorem State.setLot_lakes : (s.setLot n l).lakes = s.lakes := rfl
@[simp] theorem State.setLot_tls : (s.setLot n l).tls = s.tls := rfl
@[simp] theorem State.setLot_podTls : (s.setLot n l).podTls = s.podTls := rfl
@[simp] theorem State.setLot_dies : (s.setLot n l).dies = s.dies := rfl
@[simp] theorem State.setLot_reserves : (s.setLot n l).reserves = s.reserves := rfl
@[simp] theorem State.setLot_saved : (s.setLot n l).saved = s.saved := rfl
@[simp] theorem State.setLot_ckpts : (s.setLot n l).ckpts = s.ckpts := rfl
@[simp] theorem State.setLot_dumps : (s.setLot n l).dumps = s.dumps := rfl
@[simp] theorem State.setLot_dumpPos : (s.setLot n l).dumpPos = s.dumpPos := rfl
@[simp] theorem State.setLot_failDrops : (s.setLot n l).failDrops = s.failDrops := rfl
@[simp] theorem State.setLot_shuffles : (s.setLot n l).shuffles = s.shuffles := rfl
@[simp] theorem State.setLot_widCtr : (s.setLot n l).widCtr = s.widCtr := rfl
@[simp] theorem State.setLot_msix : (s.setLot n l).msix = s.msix := rfl
@[simp] theorem State.setLot_hostReply : (s.setLot n l).hostReply = s.hostReply := rfl
@[simp] theorem State.setLot_sent : (s.setLot n l).sent = s.sent := rfl
@[simp] theorem State.setLot_stops : (s.setLot n l).stops = s.stops := rfl
@[simp] theorem State.setLot_objects : (s.setLot n l).objects = s.objects := rfl
@[simp] theorem State.setLot_firmware : (s.setLot n l).firmware = s.firmware := rfl
@[simp] theorem State.setLot_unserved : (s.setLot n l).unserved = s.unserved := rfl
end setLot

section setLaunch
variable (s : State) (n : Nat) (l : Launch)
@[simp] theorem State.setLaunch_tick : (s.setLaunch n l).tick = s.tick := rfl
@[simp] theorem State.setLaunch_grant : (s.setLaunch n l).grant = s.grant := rfl
@[simp] theorem State.setLaunch_choices : (s.setLaunch n l).choices = s.choices := rfl
@[simp] theorem State.setLaunch_inputs : (s.setLaunch n l).inputs = s.inputs := rfl
@[simp] theorem State.setLaunch_mem : (s.setLaunch n l).mem = s.mem := rfl
@[simp] theorem State.setLaunch_far : (s.setLaunch n l).far = s.far := rfl
@[simp] theorem State.setLaunch_l2 : (s.setLaunch n l).l2 = s.l2 := rfl
@[simp] theorem State.setLaunch_hubLines : (s.setLaunch n l).hubLines = s.hubLines := rfl
@[simp] theorem State.setLaunch_hubDirty : (s.setLaunch n l).hubDirty = s.hubDirty := rfl
@[simp] theorem State.setLaunch_sectors : (s.setLaunch n l).sectors = s.sectors := rfl
@[simp] theorem State.setLaunch_floors : (s.setLaunch n l).floors = s.floors := rfl
@[simp] theorem State.setLaunch_joins : (s.setLaunch n l).joins = s.joins := rfl
@[simp] theorem State.setLaunch_poison : (s.setLaunch n l).poison = s.poison := rfl
@[simp] theorem State.setLaunch_hub : (s.setLaunch n l).hub = s.hub := rfl
@[simp] theorem State.setLaunch_pkgSet : (s.setLaunch n l).pkgSet = s.pkgSet := rfl
@[simp] theorem State.setLaunch_cores : (s.setLaunch n l).cores = s.cores := rfl
@[simp] theorem State.setLaunch_skeins : (s.setLaunch n l).skeins = s.skeins := rfl
@[simp] theorem State.setLaunch_lots : (s.setLaunch n l).lots = s.lots := rfl
@[simp] theorem State.setLaunch_launchSeq : (s.setLaunch n l).launchSeq = s.launchSeq := rfl
@[simp] theorem State.setLaunch_queues : (s.setLaunch n l).queues = s.queues := rfl
@[simp] theorem State.setLaunch_spawns : (s.setLaunch n l).spawns = s.spawns := rfl
@[simp] theorem State.setLaunch_spawnSeq : (s.setLaunch n l).spawnSeq = s.spawnSeq := rfl
@[simp] theorem State.setLaunch_tlb : (s.setLaunch n l).tlb = s.tlb := rfl
@[simp] theorem State.setLaunch_faults : (s.setLaunch n l).faults = s.faults := rfl
@[simp] theorem State.setLaunch_copies : (s.setLaunch n l).copies = s.copies := rfl
@[simp] theorem State.setLaunch_copySeq : (s.setLaunch n l).copySeq = s.copySeq := rfl
@[simp] theorem State.setLaunch_queries : (s.setLaunch n l).queries = s.queries := rfl
@[simp] theorem State.setLaunch_querySeq : (s.setLaunch n l).querySeq = s.querySeq := rfl
@[simp] theorem State.setLaunch_lands : (s.setLaunch n l).lands = s.lands := rfl
@[simp] theorem State.setLaunch_landSeq : (s.setLaunch n l).landSeq = s.landSeq := rfl
@[simp] theorem State.setLaunch_lakes : (s.setLaunch n l).lakes = s.lakes := rfl
@[simp] theorem State.setLaunch_tls : (s.setLaunch n l).tls = s.tls := rfl
@[simp] theorem State.setLaunch_podTls : (s.setLaunch n l).podTls = s.podTls := rfl
@[simp] theorem State.setLaunch_dies : (s.setLaunch n l).dies = s.dies := rfl
@[simp] theorem State.setLaunch_reserves : (s.setLaunch n l).reserves = s.reserves := rfl
@[simp] theorem State.setLaunch_saved : (s.setLaunch n l).saved = s.saved := rfl
@[simp] theorem State.setLaunch_ckpts : (s.setLaunch n l).ckpts = s.ckpts := rfl
@[simp] theorem State.setLaunch_dumps : (s.setLaunch n l).dumps = s.dumps := rfl
@[simp] theorem State.setLaunch_dumpPos : (s.setLaunch n l).dumpPos = s.dumpPos := rfl
@[simp] theorem State.setLaunch_failDrops : (s.setLaunch n l).failDrops = s.failDrops := rfl
@[simp] theorem State.setLaunch_shuffles : (s.setLaunch n l).shuffles = s.shuffles := rfl
@[simp] theorem State.setLaunch_widCtr : (s.setLaunch n l).widCtr = s.widCtr := rfl
@[simp] theorem State.setLaunch_msix : (s.setLaunch n l).msix = s.msix := rfl
@[simp] theorem State.setLaunch_hostReply : (s.setLaunch n l).hostReply = s.hostReply := rfl
@[simp] theorem State.setLaunch_sent : (s.setLaunch n l).sent = s.sent := rfl
@[simp] theorem State.setLaunch_stops : (s.setLaunch n l).stops = s.stops := rfl
@[simp] theorem State.setLaunch_objects : (s.setLaunch n l).objects = s.objects := rfl
@[simp] theorem State.setLaunch_firmware : (s.setLaunch n l).firmware = s.firmware := rfl
@[simp] theorem State.setLaunch_unserved : (s.setLaunch n l).unserved = s.unserved := rfl
end setLaunch

section setCore
variable (s : State) (c : Nat) (k : Core)
@[simp] theorem State.setCore_tick : (s.setCore c k).tick = s.tick := rfl
@[simp] theorem State.setCore_grant : (s.setCore c k).grant = s.grant := rfl
@[simp] theorem State.setCore_choices : (s.setCore c k).choices = s.choices := rfl
@[simp] theorem State.setCore_inputs : (s.setCore c k).inputs = s.inputs := rfl
@[simp] theorem State.setCore_mem : (s.setCore c k).mem = s.mem := rfl
@[simp] theorem State.setCore_far : (s.setCore c k).far = s.far := rfl
@[simp] theorem State.setCore_l2 : (s.setCore c k).l2 = s.l2 := rfl
@[simp] theorem State.setCore_hubLines : (s.setCore c k).hubLines = s.hubLines := rfl
@[simp] theorem State.setCore_hubDirty : (s.setCore c k).hubDirty = s.hubDirty := rfl
@[simp] theorem State.setCore_sectors : (s.setCore c k).sectors = s.sectors := rfl
@[simp] theorem State.setCore_floors : (s.setCore c k).floors = s.floors := rfl
@[simp] theorem State.setCore_joins : (s.setCore c k).joins = s.joins := rfl
@[simp] theorem State.setCore_poison : (s.setCore c k).poison = s.poison := rfl
@[simp] theorem State.setCore_hub : (s.setCore c k).hub = s.hub := rfl
@[simp] theorem State.setCore_pkgSet : (s.setCore c k).pkgSet = s.pkgSet := rfl
@[simp] theorem State.setCore_skeins : (s.setCore c k).skeins = s.skeins := rfl
@[simp] theorem State.setCore_lots : (s.setCore c k).lots = s.lots := rfl
@[simp] theorem State.setCore_launches : (s.setCore c k).launches = s.launches := rfl
@[simp] theorem State.setCore_launchSeq : (s.setCore c k).launchSeq = s.launchSeq := rfl
@[simp] theorem State.setCore_queues : (s.setCore c k).queues = s.queues := rfl
@[simp] theorem State.setCore_spawns : (s.setCore c k).spawns = s.spawns := rfl
@[simp] theorem State.setCore_spawnSeq : (s.setCore c k).spawnSeq = s.spawnSeq := rfl
@[simp] theorem State.setCore_tlb : (s.setCore c k).tlb = s.tlb := rfl
@[simp] theorem State.setCore_faults : (s.setCore c k).faults = s.faults := rfl
@[simp] theorem State.setCore_copies : (s.setCore c k).copies = s.copies := rfl
@[simp] theorem State.setCore_copySeq : (s.setCore c k).copySeq = s.copySeq := rfl
@[simp] theorem State.setCore_queries : (s.setCore c k).queries = s.queries := rfl
@[simp] theorem State.setCore_querySeq : (s.setCore c k).querySeq = s.querySeq := rfl
@[simp] theorem State.setCore_lands : (s.setCore c k).lands = s.lands := rfl
@[simp] theorem State.setCore_landSeq : (s.setCore c k).landSeq = s.landSeq := rfl
@[simp] theorem State.setCore_lakes : (s.setCore c k).lakes = s.lakes := rfl
@[simp] theorem State.setCore_tls : (s.setCore c k).tls = s.tls := rfl
@[simp] theorem State.setCore_podTls : (s.setCore c k).podTls = s.podTls := rfl
@[simp] theorem State.setCore_dies : (s.setCore c k).dies = s.dies := rfl
@[simp] theorem State.setCore_reserves : (s.setCore c k).reserves = s.reserves := rfl
@[simp] theorem State.setCore_saved : (s.setCore c k).saved = s.saved := rfl
@[simp] theorem State.setCore_ckpts : (s.setCore c k).ckpts = s.ckpts := rfl
@[simp] theorem State.setCore_dumps : (s.setCore c k).dumps = s.dumps := rfl
@[simp] theorem State.setCore_dumpPos : (s.setCore c k).dumpPos = s.dumpPos := rfl
@[simp] theorem State.setCore_failDrops : (s.setCore c k).failDrops = s.failDrops := rfl
@[simp] theorem State.setCore_shuffles : (s.setCore c k).shuffles = s.shuffles := rfl
@[simp] theorem State.setCore_widCtr : (s.setCore c k).widCtr = s.widCtr := rfl
@[simp] theorem State.setCore_msix : (s.setCore c k).msix = s.msix := rfl
@[simp] theorem State.setCore_hostReply : (s.setCore c k).hostReply = s.hostReply := rfl
@[simp] theorem State.setCore_sent : (s.setCore c k).sent = s.sent := rfl
@[simp] theorem State.setCore_stops : (s.setCore c k).stops = s.stops := rfl
@[simp] theorem State.setCore_objects : (s.setCore c k).objects = s.objects := rfl
@[simp] theorem State.setCore_firmware : (s.setCore c k).firmware = s.firmware := rfl
@[simp] theorem State.setCore_unserved : (s.setCore c k).unserved = s.unserved := rfl
end setCore

section updCore
variable (s : State) (c : Nat) (f : Core → Core)
@[simp] theorem State.updCore_tick : (s.updCore c f).tick = s.tick := rfl
@[simp] theorem State.updCore_grant : (s.updCore c f).grant = s.grant := rfl
@[simp] theorem State.updCore_choices : (s.updCore c f).choices = s.choices := rfl
@[simp] theorem State.updCore_inputs : (s.updCore c f).inputs = s.inputs := rfl
@[simp] theorem State.updCore_mem : (s.updCore c f).mem = s.mem := rfl
@[simp] theorem State.updCore_far : (s.updCore c f).far = s.far := rfl
@[simp] theorem State.updCore_l2 : (s.updCore c f).l2 = s.l2 := rfl
@[simp] theorem State.updCore_hubLines : (s.updCore c f).hubLines = s.hubLines := rfl
@[simp] theorem State.updCore_hubDirty : (s.updCore c f).hubDirty = s.hubDirty := rfl
@[simp] theorem State.updCore_sectors : (s.updCore c f).sectors = s.sectors := rfl
@[simp] theorem State.updCore_floors : (s.updCore c f).floors = s.floors := rfl
@[simp] theorem State.updCore_joins : (s.updCore c f).joins = s.joins := rfl
@[simp] theorem State.updCore_poison : (s.updCore c f).poison = s.poison := rfl
@[simp] theorem State.updCore_hub : (s.updCore c f).hub = s.hub := rfl
@[simp] theorem State.updCore_pkgSet : (s.updCore c f).pkgSet = s.pkgSet := rfl
@[simp] theorem State.updCore_skeins : (s.updCore c f).skeins = s.skeins := rfl
@[simp] theorem State.updCore_lots : (s.updCore c f).lots = s.lots := rfl
@[simp] theorem State.updCore_launches : (s.updCore c f).launches = s.launches := rfl
@[simp] theorem State.updCore_launchSeq : (s.updCore c f).launchSeq = s.launchSeq := rfl
@[simp] theorem State.updCore_queues : (s.updCore c f).queues = s.queues := rfl
@[simp] theorem State.updCore_spawns : (s.updCore c f).spawns = s.spawns := rfl
@[simp] theorem State.updCore_spawnSeq : (s.updCore c f).spawnSeq = s.spawnSeq := rfl
@[simp] theorem State.updCore_tlb : (s.updCore c f).tlb = s.tlb := rfl
@[simp] theorem State.updCore_faults : (s.updCore c f).faults = s.faults := rfl
@[simp] theorem State.updCore_copies : (s.updCore c f).copies = s.copies := rfl
@[simp] theorem State.updCore_copySeq : (s.updCore c f).copySeq = s.copySeq := rfl
@[simp] theorem State.updCore_queries : (s.updCore c f).queries = s.queries := rfl
@[simp] theorem State.updCore_querySeq : (s.updCore c f).querySeq = s.querySeq := rfl
@[simp] theorem State.updCore_lands : (s.updCore c f).lands = s.lands := rfl
@[simp] theorem State.updCore_landSeq : (s.updCore c f).landSeq = s.landSeq := rfl
@[simp] theorem State.updCore_lakes : (s.updCore c f).lakes = s.lakes := rfl
@[simp] theorem State.updCore_tls : (s.updCore c f).tls = s.tls := rfl
@[simp] theorem State.updCore_podTls : (s.updCore c f).podTls = s.podTls := rfl
@[simp] theorem State.updCore_dies : (s.updCore c f).dies = s.dies := rfl
@[simp] theorem State.updCore_reserves : (s.updCore c f).reserves = s.reserves := rfl
@[simp] theorem State.updCore_saved : (s.updCore c f).saved = s.saved := rfl
@[simp] theorem State.updCore_ckpts : (s.updCore c f).ckpts = s.ckpts := rfl
@[simp] theorem State.updCore_dumps : (s.updCore c f).dumps = s.dumps := rfl
@[simp] theorem State.updCore_dumpPos : (s.updCore c f).dumpPos = s.dumpPos := rfl
@[simp] theorem State.updCore_failDrops : (s.updCore c f).failDrops = s.failDrops := rfl
@[simp] theorem State.updCore_shuffles : (s.updCore c f).shuffles = s.shuffles := rfl
@[simp] theorem State.updCore_widCtr : (s.updCore c f).widCtr = s.widCtr := rfl
@[simp] theorem State.updCore_msix : (s.updCore c f).msix = s.msix := rfl
@[simp] theorem State.updCore_hostReply : (s.updCore c f).hostReply = s.hostReply := rfl
@[simp] theorem State.updCore_sent : (s.updCore c f).sent = s.sent := rfl
@[simp] theorem State.updCore_stops : (s.updCore c f).stops = s.stops := rfl
@[simp] theorem State.updCore_objects : (s.updCore c f).objects = s.objects := rfl
@[simp] theorem State.updCore_firmware : (s.updCore c f).firmware = s.firmware := rfl
@[simp] theorem State.updCore_unserved : (s.updCore c f).unserved = s.unserved := rfl
end updCore

section updDie
variable (s : State) (d : Nat) (f : Die → Die)
@[simp] theorem State.updDie_tick : (s.updDie d f).tick = s.tick := rfl
@[simp] theorem State.updDie_grant : (s.updDie d f).grant = s.grant := rfl
@[simp] theorem State.updDie_choices : (s.updDie d f).choices = s.choices := rfl
@[simp] theorem State.updDie_inputs : (s.updDie d f).inputs = s.inputs := rfl
@[simp] theorem State.updDie_mem : (s.updDie d f).mem = s.mem := rfl
@[simp] theorem State.updDie_far : (s.updDie d f).far = s.far := rfl
@[simp] theorem State.updDie_l2 : (s.updDie d f).l2 = s.l2 := rfl
@[simp] theorem State.updDie_hubLines : (s.updDie d f).hubLines = s.hubLines := rfl
@[simp] theorem State.updDie_hubDirty : (s.updDie d f).hubDirty = s.hubDirty := rfl
@[simp] theorem State.updDie_sectors : (s.updDie d f).sectors = s.sectors := rfl
@[simp] theorem State.updDie_floors : (s.updDie d f).floors = s.floors := rfl
@[simp] theorem State.updDie_joins : (s.updDie d f).joins = s.joins := rfl
@[simp] theorem State.updDie_poison : (s.updDie d f).poison = s.poison := rfl
@[simp] theorem State.updDie_hub : (s.updDie d f).hub = s.hub := rfl
@[simp] theorem State.updDie_pkgSet : (s.updDie d f).pkgSet = s.pkgSet := rfl
@[simp] theorem State.updDie_cores : (s.updDie d f).cores = s.cores := rfl
@[simp] theorem State.updDie_skeins : (s.updDie d f).skeins = s.skeins := rfl
@[simp] theorem State.updDie_lots : (s.updDie d f).lots = s.lots := rfl
@[simp] theorem State.updDie_launches : (s.updDie d f).launches = s.launches := rfl
@[simp] theorem State.updDie_launchSeq : (s.updDie d f).launchSeq = s.launchSeq := rfl
@[simp] theorem State.updDie_queues : (s.updDie d f).queues = s.queues := rfl
@[simp] theorem State.updDie_spawns : (s.updDie d f).spawns = s.spawns := rfl
@[simp] theorem State.updDie_spawnSeq : (s.updDie d f).spawnSeq = s.spawnSeq := rfl
@[simp] theorem State.updDie_tlb : (s.updDie d f).tlb = s.tlb := rfl
@[simp] theorem State.updDie_faults : (s.updDie d f).faults = s.faults := rfl
@[simp] theorem State.updDie_copies : (s.updDie d f).copies = s.copies := rfl
@[simp] theorem State.updDie_copySeq : (s.updDie d f).copySeq = s.copySeq := rfl
@[simp] theorem State.updDie_queries : (s.updDie d f).queries = s.queries := rfl
@[simp] theorem State.updDie_querySeq : (s.updDie d f).querySeq = s.querySeq := rfl
@[simp] theorem State.updDie_lands : (s.updDie d f).lands = s.lands := rfl
@[simp] theorem State.updDie_landSeq : (s.updDie d f).landSeq = s.landSeq := rfl
@[simp] theorem State.updDie_lakes : (s.updDie d f).lakes = s.lakes := rfl
@[simp] theorem State.updDie_tls : (s.updDie d f).tls = s.tls := rfl
@[simp] theorem State.updDie_podTls : (s.updDie d f).podTls = s.podTls := rfl
@[simp] theorem State.updDie_reserves : (s.updDie d f).reserves = s.reserves := rfl
@[simp] theorem State.updDie_saved : (s.updDie d f).saved = s.saved := rfl
@[simp] theorem State.updDie_ckpts : (s.updDie d f).ckpts = s.ckpts := rfl
@[simp] theorem State.updDie_dumps : (s.updDie d f).dumps = s.dumps := rfl
@[simp] theorem State.updDie_dumpPos : (s.updDie d f).dumpPos = s.dumpPos := rfl
@[simp] theorem State.updDie_failDrops : (s.updDie d f).failDrops = s.failDrops := rfl
@[simp] theorem State.updDie_shuffles : (s.updDie d f).shuffles = s.shuffles := rfl
@[simp] theorem State.updDie_widCtr : (s.updDie d f).widCtr = s.widCtr := rfl
@[simp] theorem State.updDie_msix : (s.updDie d f).msix = s.msix := rfl
@[simp] theorem State.updDie_hostReply : (s.updDie d f).hostReply = s.hostReply := rfl
@[simp] theorem State.updDie_sent : (s.updDie d f).sent = s.sent := rfl
@[simp] theorem State.updDie_stops : (s.updDie d f).stops = s.stops := rfl
@[simp] theorem State.updDie_objects : (s.updDie d f).objects = s.objects := rfl
@[simp] theorem State.updDie_firmware : (s.updDie d f).firmware = s.firmware := rfl
@[simp] theorem State.updDie_unserved : (s.updDie d f).unserved = s.unserved := rfl
end updDie

section setTl
variable (s : State) (pa : Nat) (t : TlCtx)
@[simp] theorem State.setTl_tick : (s.setTl pa t).tick = s.tick := rfl
@[simp] theorem State.setTl_grant : (s.setTl pa t).grant = s.grant := rfl
@[simp] theorem State.setTl_choices : (s.setTl pa t).choices = s.choices := rfl
@[simp] theorem State.setTl_inputs : (s.setTl pa t).inputs = s.inputs := rfl
@[simp] theorem State.setTl_mem : (s.setTl pa t).mem = s.mem := rfl
@[simp] theorem State.setTl_far : (s.setTl pa t).far = s.far := rfl
@[simp] theorem State.setTl_l2 : (s.setTl pa t).l2 = s.l2 := rfl
@[simp] theorem State.setTl_hubLines : (s.setTl pa t).hubLines = s.hubLines := rfl
@[simp] theorem State.setTl_hubDirty : (s.setTl pa t).hubDirty = s.hubDirty := rfl
@[simp] theorem State.setTl_sectors : (s.setTl pa t).sectors = s.sectors := rfl
@[simp] theorem State.setTl_floors : (s.setTl pa t).floors = s.floors := rfl
@[simp] theorem State.setTl_joins : (s.setTl pa t).joins = s.joins := rfl
@[simp] theorem State.setTl_poison : (s.setTl pa t).poison = s.poison := rfl
@[simp] theorem State.setTl_hub : (s.setTl pa t).hub = s.hub := rfl
@[simp] theorem State.setTl_pkgSet : (s.setTl pa t).pkgSet = s.pkgSet := rfl
@[simp] theorem State.setTl_cores : (s.setTl pa t).cores = s.cores := rfl
@[simp] theorem State.setTl_skeins : (s.setTl pa t).skeins = s.skeins := rfl
@[simp] theorem State.setTl_lots : (s.setTl pa t).lots = s.lots := rfl
@[simp] theorem State.setTl_launches : (s.setTl pa t).launches = s.launches := rfl
@[simp] theorem State.setTl_launchSeq : (s.setTl pa t).launchSeq = s.launchSeq := rfl
@[simp] theorem State.setTl_queues : (s.setTl pa t).queues = s.queues := rfl
@[simp] theorem State.setTl_spawns : (s.setTl pa t).spawns = s.spawns := rfl
@[simp] theorem State.setTl_spawnSeq : (s.setTl pa t).spawnSeq = s.spawnSeq := rfl
@[simp] theorem State.setTl_tlb : (s.setTl pa t).tlb = s.tlb := rfl
@[simp] theorem State.setTl_faults : (s.setTl pa t).faults = s.faults := rfl
@[simp] theorem State.setTl_copies : (s.setTl pa t).copies = s.copies := rfl
@[simp] theorem State.setTl_copySeq : (s.setTl pa t).copySeq = s.copySeq := rfl
@[simp] theorem State.setTl_queries : (s.setTl pa t).queries = s.queries := rfl
@[simp] theorem State.setTl_querySeq : (s.setTl pa t).querySeq = s.querySeq := rfl
@[simp] theorem State.setTl_lands : (s.setTl pa t).lands = s.lands := rfl
@[simp] theorem State.setTl_landSeq : (s.setTl pa t).landSeq = s.landSeq := rfl
@[simp] theorem State.setTl_lakes : (s.setTl pa t).lakes = s.lakes := rfl
@[simp] theorem State.setTl_podTls : (s.setTl pa t).podTls = s.podTls := rfl
@[simp] theorem State.setTl_dies : (s.setTl pa t).dies = s.dies := rfl
@[simp] theorem State.setTl_reserves : (s.setTl pa t).reserves = s.reserves := rfl
@[simp] theorem State.setTl_saved : (s.setTl pa t).saved = s.saved := rfl
@[simp] theorem State.setTl_ckpts : (s.setTl pa t).ckpts = s.ckpts := rfl
@[simp] theorem State.setTl_dumps : (s.setTl pa t).dumps = s.dumps := rfl
@[simp] theorem State.setTl_dumpPos : (s.setTl pa t).dumpPos = s.dumpPos := rfl
@[simp] theorem State.setTl_failDrops : (s.setTl pa t).failDrops = s.failDrops := rfl
@[simp] theorem State.setTl_shuffles : (s.setTl pa t).shuffles = s.shuffles := rfl
@[simp] theorem State.setTl_widCtr : (s.setTl pa t).widCtr = s.widCtr := rfl
@[simp] theorem State.setTl_msix : (s.setTl pa t).msix = s.msix := rfl
@[simp] theorem State.setTl_hostReply : (s.setTl pa t).hostReply = s.hostReply := rfl
@[simp] theorem State.setTl_sent : (s.setTl pa t).sent = s.sent := rfl
@[simp] theorem State.setTl_stops : (s.setTl pa t).stops = s.stops := rfl
@[simp] theorem State.setTl_objects : (s.setTl pa t).objects = s.objects := rfl
@[simp] theorem State.setTl_firmware : (s.setTl pa t).firmware = s.firmware := rfl
@[simp] theorem State.setTl_unserved : (s.setTl pa t).unserved = s.unserved := rfl
end setTl

section setQueueX
variable (s : State) (q : Nat) (x : QueueX)
@[simp] theorem State.setQueueX_tick : (s.setQueueX q x).tick = s.tick := rfl
@[simp] theorem State.setQueueX_grant : (s.setQueueX q x).grant = s.grant := rfl
@[simp] theorem State.setQueueX_choices : (s.setQueueX q x).choices = s.choices := rfl
@[simp] theorem State.setQueueX_inputs : (s.setQueueX q x).inputs = s.inputs := rfl
@[simp] theorem State.setQueueX_mem : (s.setQueueX q x).mem = s.mem := rfl
@[simp] theorem State.setQueueX_far : (s.setQueueX q x).far = s.far := rfl
@[simp] theorem State.setQueueX_l2 : (s.setQueueX q x).l2 = s.l2 := rfl
@[simp] theorem State.setQueueX_hubLines : (s.setQueueX q x).hubLines = s.hubLines := rfl
@[simp] theorem State.setQueueX_hubDirty : (s.setQueueX q x).hubDirty = s.hubDirty := rfl
@[simp] theorem State.setQueueX_sectors : (s.setQueueX q x).sectors = s.sectors := rfl
@[simp] theorem State.setQueueX_floors : (s.setQueueX q x).floors = s.floors := rfl
@[simp] theorem State.setQueueX_joins : (s.setQueueX q x).joins = s.joins := rfl
@[simp] theorem State.setQueueX_poison : (s.setQueueX q x).poison = s.poison := rfl
@[simp] theorem State.setQueueX_hub : (s.setQueueX q x).hub = s.hub := rfl
@[simp] theorem State.setQueueX_pkgSet : (s.setQueueX q x).pkgSet = s.pkgSet := rfl
@[simp] theorem State.setQueueX_cores : (s.setQueueX q x).cores = s.cores := rfl
@[simp] theorem State.setQueueX_skeins : (s.setQueueX q x).skeins = s.skeins := rfl
@[simp] theorem State.setQueueX_lots : (s.setQueueX q x).lots = s.lots := rfl
@[simp] theorem State.setQueueX_launches : (s.setQueueX q x).launches = s.launches := rfl
@[simp] theorem State.setQueueX_launchSeq : (s.setQueueX q x).launchSeq = s.launchSeq := rfl
@[simp] theorem State.setQueueX_spawns : (s.setQueueX q x).spawns = s.spawns := rfl
@[simp] theorem State.setQueueX_spawnSeq : (s.setQueueX q x).spawnSeq = s.spawnSeq := rfl
@[simp] theorem State.setQueueX_tlb : (s.setQueueX q x).tlb = s.tlb := rfl
@[simp] theorem State.setQueueX_faults : (s.setQueueX q x).faults = s.faults := rfl
@[simp] theorem State.setQueueX_copies : (s.setQueueX q x).copies = s.copies := rfl
@[simp] theorem State.setQueueX_copySeq : (s.setQueueX q x).copySeq = s.copySeq := rfl
@[simp] theorem State.setQueueX_queries : (s.setQueueX q x).queries = s.queries := rfl
@[simp] theorem State.setQueueX_querySeq : (s.setQueueX q x).querySeq = s.querySeq := rfl
@[simp] theorem State.setQueueX_lands : (s.setQueueX q x).lands = s.lands := rfl
@[simp] theorem State.setQueueX_landSeq : (s.setQueueX q x).landSeq = s.landSeq := rfl
@[simp] theorem State.setQueueX_lakes : (s.setQueueX q x).lakes = s.lakes := rfl
@[simp] theorem State.setQueueX_tls : (s.setQueueX q x).tls = s.tls := rfl
@[simp] theorem State.setQueueX_podTls : (s.setQueueX q x).podTls = s.podTls := rfl
@[simp] theorem State.setQueueX_dies : (s.setQueueX q x).dies = s.dies := rfl
@[simp] theorem State.setQueueX_reserves : (s.setQueueX q x).reserves = s.reserves := rfl
@[simp] theorem State.setQueueX_saved : (s.setQueueX q x).saved = s.saved := rfl
@[simp] theorem State.setQueueX_ckpts : (s.setQueueX q x).ckpts = s.ckpts := rfl
@[simp] theorem State.setQueueX_dumps : (s.setQueueX q x).dumps = s.dumps := rfl
@[simp] theorem State.setQueueX_dumpPos : (s.setQueueX q x).dumpPos = s.dumpPos := rfl
@[simp] theorem State.setQueueX_failDrops : (s.setQueueX q x).failDrops = s.failDrops := rfl
@[simp] theorem State.setQueueX_shuffles : (s.setQueueX q x).shuffles = s.shuffles := rfl
@[simp] theorem State.setQueueX_widCtr : (s.setQueueX q x).widCtr = s.widCtr := rfl
@[simp] theorem State.setQueueX_msix : (s.setQueueX q x).msix = s.msix := rfl
@[simp] theorem State.setQueueX_hostReply : (s.setQueueX q x).hostReply = s.hostReply := rfl
@[simp] theorem State.setQueueX_sent : (s.setQueueX q x).sent = s.sent := rfl
@[simp] theorem State.setQueueX_stops : (s.setQueueX q x).stops = s.stops := rfl
@[simp] theorem State.setQueueX_objects : (s.setQueueX q x).objects = s.objects := rfl
@[simp] theorem State.setQueueX_firmware : (s.setQueueX q x).firmware = s.firmware := rfl
@[simp] theorem State.setQueueX_unserved : (s.setQueueX q x).unserved = s.unserved := rfl
end setQueueX

section wr
variable (s : State) (off : Nat) (v : DWord)
@[simp] theorem State.wr_tick : (s.wr off v).tick = s.tick := rfl
@[simp] theorem State.wr_grant : (s.wr off v).grant = s.grant := rfl
@[simp] theorem State.wr_choices : (s.wr off v).choices = s.choices := rfl
@[simp] theorem State.wr_inputs : (s.wr off v).inputs = s.inputs := rfl
@[simp] theorem State.wr_mem : (s.wr off v).mem = s.mem := rfl
@[simp] theorem State.wr_far : (s.wr off v).far = s.far := rfl
@[simp] theorem State.wr_l2 : (s.wr off v).l2 = s.l2 := rfl
@[simp] theorem State.wr_hubLines : (s.wr off v).hubLines = s.hubLines := rfl
@[simp] theorem State.wr_hubDirty : (s.wr off v).hubDirty = s.hubDirty := rfl
@[simp] theorem State.wr_sectors : (s.wr off v).sectors = s.sectors := rfl
@[simp] theorem State.wr_floors : (s.wr off v).floors = s.floors := rfl
@[simp] theorem State.wr_joins : (s.wr off v).joins = s.joins := rfl
@[simp] theorem State.wr_poison : (s.wr off v).poison = s.poison := rfl
@[simp] theorem State.wr_pkgSet : (s.wr off v).pkgSet = s.pkgSet := rfl
@[simp] theorem State.wr_cores : (s.wr off v).cores = s.cores := rfl
@[simp] theorem State.wr_skeins : (s.wr off v).skeins = s.skeins := rfl
@[simp] theorem State.wr_lots : (s.wr off v).lots = s.lots := rfl
@[simp] theorem State.wr_launches : (s.wr off v).launches = s.launches := rfl
@[simp] theorem State.wr_launchSeq : (s.wr off v).launchSeq = s.launchSeq := rfl
@[simp] theorem State.wr_queues : (s.wr off v).queues = s.queues := rfl
@[simp] theorem State.wr_spawns : (s.wr off v).spawns = s.spawns := rfl
@[simp] theorem State.wr_spawnSeq : (s.wr off v).spawnSeq = s.spawnSeq := rfl
@[simp] theorem State.wr_tlb : (s.wr off v).tlb = s.tlb := rfl
@[simp] theorem State.wr_faults : (s.wr off v).faults = s.faults := rfl
@[simp] theorem State.wr_copies : (s.wr off v).copies = s.copies := rfl
@[simp] theorem State.wr_copySeq : (s.wr off v).copySeq = s.copySeq := rfl
@[simp] theorem State.wr_queries : (s.wr off v).queries = s.queries := rfl
@[simp] theorem State.wr_querySeq : (s.wr off v).querySeq = s.querySeq := rfl
@[simp] theorem State.wr_lands : (s.wr off v).lands = s.lands := rfl
@[simp] theorem State.wr_landSeq : (s.wr off v).landSeq = s.landSeq := rfl
@[simp] theorem State.wr_lakes : (s.wr off v).lakes = s.lakes := rfl
@[simp] theorem State.wr_tls : (s.wr off v).tls = s.tls := rfl
@[simp] theorem State.wr_podTls : (s.wr off v).podTls = s.podTls := rfl
@[simp] theorem State.wr_dies : (s.wr off v).dies = s.dies := rfl
@[simp] theorem State.wr_reserves : (s.wr off v).reserves = s.reserves := rfl
@[simp] theorem State.wr_saved : (s.wr off v).saved = s.saved := rfl
@[simp] theorem State.wr_ckpts : (s.wr off v).ckpts = s.ckpts := rfl
@[simp] theorem State.wr_dumps : (s.wr off v).dumps = s.dumps := rfl
@[simp] theorem State.wr_dumpPos : (s.wr off v).dumpPos = s.dumpPos := rfl
@[simp] theorem State.wr_failDrops : (s.wr off v).failDrops = s.failDrops := rfl
@[simp] theorem State.wr_shuffles : (s.wr off v).shuffles = s.shuffles := rfl
@[simp] theorem State.wr_widCtr : (s.wr off v).widCtr = s.widCtr := rfl
@[simp] theorem State.wr_msix : (s.wr off v).msix = s.msix := rfl
@[simp] theorem State.wr_hostReply : (s.wr off v).hostReply = s.hostReply := rfl
@[simp] theorem State.wr_sent : (s.wr off v).sent = s.sent := rfl
@[simp] theorem State.wr_stops : (s.wr off v).stops = s.stops := rfl
@[simp] theorem State.wr_objects : (s.wr off v).objects = s.objects := rfl
@[simp] theorem State.wr_firmware : (s.wr off v).firmware = s.firmware := rfl
@[simp] theorem State.wr_unserved : (s.wr off v).unserved = s.unserved := rfl
end wr

section setFld
variable (s : State) (off lo n v : Nat)
@[simp] theorem State.setFld_tick : (s.setFld off lo n v).tick = s.tick := rfl
@[simp] theorem State.setFld_grant : (s.setFld off lo n v).grant = s.grant := rfl
@[simp] theorem State.setFld_choices : (s.setFld off lo n v).choices = s.choices := rfl
@[simp] theorem State.setFld_inputs : (s.setFld off lo n v).inputs = s.inputs := rfl
@[simp] theorem State.setFld_mem : (s.setFld off lo n v).mem = s.mem := rfl
@[simp] theorem State.setFld_far : (s.setFld off lo n v).far = s.far := rfl
@[simp] theorem State.setFld_l2 : (s.setFld off lo n v).l2 = s.l2 := rfl
@[simp] theorem State.setFld_hubLines : (s.setFld off lo n v).hubLines = s.hubLines := rfl
@[simp] theorem State.setFld_hubDirty : (s.setFld off lo n v).hubDirty = s.hubDirty := rfl
@[simp] theorem State.setFld_sectors : (s.setFld off lo n v).sectors = s.sectors := rfl
@[simp] theorem State.setFld_floors : (s.setFld off lo n v).floors = s.floors := rfl
@[simp] theorem State.setFld_joins : (s.setFld off lo n v).joins = s.joins := rfl
@[simp] theorem State.setFld_poison : (s.setFld off lo n v).poison = s.poison := rfl
@[simp] theorem State.setFld_pkgSet : (s.setFld off lo n v).pkgSet = s.pkgSet := rfl
@[simp] theorem State.setFld_cores : (s.setFld off lo n v).cores = s.cores := rfl
@[simp] theorem State.setFld_skeins : (s.setFld off lo n v).skeins = s.skeins := rfl
@[simp] theorem State.setFld_lots : (s.setFld off lo n v).lots = s.lots := rfl
@[simp] theorem State.setFld_launches : (s.setFld off lo n v).launches = s.launches := rfl
@[simp] theorem State.setFld_launchSeq : (s.setFld off lo n v).launchSeq = s.launchSeq := rfl
@[simp] theorem State.setFld_queues : (s.setFld off lo n v).queues = s.queues := rfl
@[simp] theorem State.setFld_spawns : (s.setFld off lo n v).spawns = s.spawns := rfl
@[simp] theorem State.setFld_spawnSeq : (s.setFld off lo n v).spawnSeq = s.spawnSeq := rfl
@[simp] theorem State.setFld_tlb : (s.setFld off lo n v).tlb = s.tlb := rfl
@[simp] theorem State.setFld_faults : (s.setFld off lo n v).faults = s.faults := rfl
@[simp] theorem State.setFld_copies : (s.setFld off lo n v).copies = s.copies := rfl
@[simp] theorem State.setFld_copySeq : (s.setFld off lo n v).copySeq = s.copySeq := rfl
@[simp] theorem State.setFld_queries : (s.setFld off lo n v).queries = s.queries := rfl
@[simp] theorem State.setFld_querySeq : (s.setFld off lo n v).querySeq = s.querySeq := rfl
@[simp] theorem State.setFld_lands : (s.setFld off lo n v).lands = s.lands := rfl
@[simp] theorem State.setFld_landSeq : (s.setFld off lo n v).landSeq = s.landSeq := rfl
@[simp] theorem State.setFld_lakes : (s.setFld off lo n v).lakes = s.lakes := rfl
@[simp] theorem State.setFld_tls : (s.setFld off lo n v).tls = s.tls := rfl
@[simp] theorem State.setFld_podTls : (s.setFld off lo n v).podTls = s.podTls := rfl
@[simp] theorem State.setFld_dies : (s.setFld off lo n v).dies = s.dies := rfl
@[simp] theorem State.setFld_reserves : (s.setFld off lo n v).reserves = s.reserves := rfl
@[simp] theorem State.setFld_saved : (s.setFld off lo n v).saved = s.saved := rfl
@[simp] theorem State.setFld_ckpts : (s.setFld off lo n v).ckpts = s.ckpts := rfl
@[simp] theorem State.setFld_dumps : (s.setFld off lo n v).dumps = s.dumps := rfl
@[simp] theorem State.setFld_dumpPos : (s.setFld off lo n v).dumpPos = s.dumpPos := rfl
@[simp] theorem State.setFld_failDrops : (s.setFld off lo n v).failDrops = s.failDrops := rfl
@[simp] theorem State.setFld_shuffles : (s.setFld off lo n v).shuffles = s.shuffles := rfl
@[simp] theorem State.setFld_widCtr : (s.setFld off lo n v).widCtr = s.widCtr := rfl
@[simp] theorem State.setFld_msix : (s.setFld off lo n v).msix = s.msix := rfl
@[simp] theorem State.setFld_hostReply : (s.setFld off lo n v).hostReply = s.hostReply := rfl
@[simp] theorem State.setFld_sent : (s.setFld off lo n v).sent = s.sent := rfl
@[simp] theorem State.setFld_stops : (s.setFld off lo n v).stops = s.stops := rfl
@[simp] theorem State.setFld_objects : (s.setFld off lo n v).objects = s.objects := rfl
@[simp] theorem State.setFld_firmware : (s.setFld off lo n v).firmware = s.firmware := rfl
@[simp] theorem State.setFld_unserved : (s.setFld off lo n v).unserved = s.unserved := rfl
end setFld

section count
variable (s : State) (off n : Nat)
@[simp] theorem State.count_tick : (s.count off n).tick = s.tick := rfl
@[simp] theorem State.count_grant : (s.count off n).grant = s.grant := rfl
@[simp] theorem State.count_choices : (s.count off n).choices = s.choices := rfl
@[simp] theorem State.count_inputs : (s.count off n).inputs = s.inputs := rfl
@[simp] theorem State.count_mem : (s.count off n).mem = s.mem := rfl
@[simp] theorem State.count_far : (s.count off n).far = s.far := rfl
@[simp] theorem State.count_l2 : (s.count off n).l2 = s.l2 := rfl
@[simp] theorem State.count_hubLines : (s.count off n).hubLines = s.hubLines := rfl
@[simp] theorem State.count_hubDirty : (s.count off n).hubDirty = s.hubDirty := rfl
@[simp] theorem State.count_sectors : (s.count off n).sectors = s.sectors := rfl
@[simp] theorem State.count_floors : (s.count off n).floors = s.floors := rfl
@[simp] theorem State.count_joins : (s.count off n).joins = s.joins := rfl
@[simp] theorem State.count_poison : (s.count off n).poison = s.poison := rfl
@[simp] theorem State.count_pkgSet : (s.count off n).pkgSet = s.pkgSet := rfl
@[simp] theorem State.count_cores : (s.count off n).cores = s.cores := rfl
@[simp] theorem State.count_skeins : (s.count off n).skeins = s.skeins := rfl
@[simp] theorem State.count_lots : (s.count off n).lots = s.lots := rfl
@[simp] theorem State.count_launches : (s.count off n).launches = s.launches := rfl
@[simp] theorem State.count_launchSeq : (s.count off n).launchSeq = s.launchSeq := rfl
@[simp] theorem State.count_queues : (s.count off n).queues = s.queues := rfl
@[simp] theorem State.count_spawns : (s.count off n).spawns = s.spawns := rfl
@[simp] theorem State.count_spawnSeq : (s.count off n).spawnSeq = s.spawnSeq := rfl
@[simp] theorem State.count_tlb : (s.count off n).tlb = s.tlb := rfl
@[simp] theorem State.count_faults : (s.count off n).faults = s.faults := rfl
@[simp] theorem State.count_copies : (s.count off n).copies = s.copies := rfl
@[simp] theorem State.count_copySeq : (s.count off n).copySeq = s.copySeq := rfl
@[simp] theorem State.count_queries : (s.count off n).queries = s.queries := rfl
@[simp] theorem State.count_querySeq : (s.count off n).querySeq = s.querySeq := rfl
@[simp] theorem State.count_lands : (s.count off n).lands = s.lands := rfl
@[simp] theorem State.count_landSeq : (s.count off n).landSeq = s.landSeq := rfl
@[simp] theorem State.count_lakes : (s.count off n).lakes = s.lakes := rfl
@[simp] theorem State.count_tls : (s.count off n).tls = s.tls := rfl
@[simp] theorem State.count_podTls : (s.count off n).podTls = s.podTls := rfl
@[simp] theorem State.count_dies : (s.count off n).dies = s.dies := rfl
@[simp] theorem State.count_reserves : (s.count off n).reserves = s.reserves := rfl
@[simp] theorem State.count_saved : (s.count off n).saved = s.saved := rfl
@[simp] theorem State.count_ckpts : (s.count off n).ckpts = s.ckpts := rfl
@[simp] theorem State.count_dumps : (s.count off n).dumps = s.dumps := rfl
@[simp] theorem State.count_dumpPos : (s.count off n).dumpPos = s.dumpPos := rfl
@[simp] theorem State.count_failDrops : (s.count off n).failDrops = s.failDrops := rfl
@[simp] theorem State.count_shuffles : (s.count off n).shuffles = s.shuffles := rfl
@[simp] theorem State.count_widCtr : (s.count off n).widCtr = s.widCtr := rfl
@[simp] theorem State.count_msix : (s.count off n).msix = s.msix := rfl
@[simp] theorem State.count_hostReply : (s.count off n).hostReply = s.hostReply := rfl
@[simp] theorem State.count_sent : (s.count off n).sent = s.sent := rfl
@[simp] theorem State.count_stops : (s.count off n).stops = s.stops := rfl
@[simp] theorem State.count_objects : (s.count off n).objects = s.objects := rfl
@[simp] theorem State.count_firmware : (s.count off n).firmware = s.firmware := rfl
@[simp] theorem State.count_unserved : (s.count off n).unserved = s.unserved := rfl
end count

section updSkein
variable (s : State) (c q : Nat) (f : Skein → Skein)
@[simp] theorem State.updSkein_tick : (s.updSkein c q f).tick = s.tick := by unfold State.updSkein; split <;> rfl
@[simp] theorem State.updSkein_grant : (s.updSkein c q f).grant = s.grant := by unfold State.updSkein; split <;> rfl
@[simp] theorem State.updSkein_choices : (s.updSkein c q f).choices = s.choices := by unfold State.updSkein; split <;> rfl
@[simp] theorem State.updSkein_inputs : (s.updSkein c q f).inputs = s.inputs := by unfold State.updSkein; split <;> rfl
@[simp] theorem State.updSkein_mem : (s.updSkein c q f).mem = s.mem := by unfold State.updSkein; split <;> rfl
@[simp] theorem State.updSkein_far : (s.updSkein c q f).far = s.far := by unfold State.updSkein; split <;> rfl
@[simp] theorem State.updSkein_l2 : (s.updSkein c q f).l2 = s.l2 := by unfold State.updSkein; split <;> rfl
@[simp] theorem State.updSkein_hubLines : (s.updSkein c q f).hubLines = s.hubLines := by unfold State.updSkein; split <;> rfl
@[simp] theorem State.updSkein_hubDirty : (s.updSkein c q f).hubDirty = s.hubDirty := by unfold State.updSkein; split <;> rfl
@[simp] theorem State.updSkein_sectors : (s.updSkein c q f).sectors = s.sectors := by unfold State.updSkein; split <;> rfl
@[simp] theorem State.updSkein_floors : (s.updSkein c q f).floors = s.floors := by unfold State.updSkein; split <;> rfl
@[simp] theorem State.updSkein_joins : (s.updSkein c q f).joins = s.joins := by unfold State.updSkein; split <;> rfl
@[simp] theorem State.updSkein_poison : (s.updSkein c q f).poison = s.poison := by unfold State.updSkein; split <;> rfl
@[simp] theorem State.updSkein_hub : (s.updSkein c q f).hub = s.hub := by unfold State.updSkein; split <;> rfl
@[simp] theorem State.updSkein_pkgSet : (s.updSkein c q f).pkgSet = s.pkgSet := by unfold State.updSkein; split <;> rfl
@[simp] theorem State.updSkein_cores : (s.updSkein c q f).cores = s.cores := by unfold State.updSkein; split <;> rfl
@[simp] theorem State.updSkein_lots : (s.updSkein c q f).lots = s.lots := by unfold State.updSkein; split <;> rfl
@[simp] theorem State.updSkein_launches : (s.updSkein c q f).launches = s.launches := by unfold State.updSkein; split <;> rfl
@[simp] theorem State.updSkein_launchSeq : (s.updSkein c q f).launchSeq = s.launchSeq := by unfold State.updSkein; split <;> rfl
@[simp] theorem State.updSkein_queues : (s.updSkein c q f).queues = s.queues := by unfold State.updSkein; split <;> rfl
@[simp] theorem State.updSkein_spawns : (s.updSkein c q f).spawns = s.spawns := by unfold State.updSkein; split <;> rfl
@[simp] theorem State.updSkein_spawnSeq : (s.updSkein c q f).spawnSeq = s.spawnSeq := by unfold State.updSkein; split <;> rfl
@[simp] theorem State.updSkein_tlb : (s.updSkein c q f).tlb = s.tlb := by unfold State.updSkein; split <;> rfl
@[simp] theorem State.updSkein_faults : (s.updSkein c q f).faults = s.faults := by unfold State.updSkein; split <;> rfl
@[simp] theorem State.updSkein_copies : (s.updSkein c q f).copies = s.copies := by unfold State.updSkein; split <;> rfl
@[simp] theorem State.updSkein_copySeq : (s.updSkein c q f).copySeq = s.copySeq := by unfold State.updSkein; split <;> rfl
@[simp] theorem State.updSkein_queries : (s.updSkein c q f).queries = s.queries := by unfold State.updSkein; split <;> rfl
@[simp] theorem State.updSkein_querySeq : (s.updSkein c q f).querySeq = s.querySeq := by unfold State.updSkein; split <;> rfl
@[simp] theorem State.updSkein_lands : (s.updSkein c q f).lands = s.lands := by unfold State.updSkein; split <;> rfl
@[simp] theorem State.updSkein_landSeq : (s.updSkein c q f).landSeq = s.landSeq := by unfold State.updSkein; split <;> rfl
@[simp] theorem State.updSkein_lakes : (s.updSkein c q f).lakes = s.lakes := by unfold State.updSkein; split <;> rfl
@[simp] theorem State.updSkein_tls : (s.updSkein c q f).tls = s.tls := by unfold State.updSkein; split <;> rfl
@[simp] theorem State.updSkein_podTls : (s.updSkein c q f).podTls = s.podTls := by unfold State.updSkein; split <;> rfl
@[simp] theorem State.updSkein_dies : (s.updSkein c q f).dies = s.dies := by unfold State.updSkein; split <;> rfl
@[simp] theorem State.updSkein_reserves : (s.updSkein c q f).reserves = s.reserves := by unfold State.updSkein; split <;> rfl
@[simp] theorem State.updSkein_saved : (s.updSkein c q f).saved = s.saved := by unfold State.updSkein; split <;> rfl
@[simp] theorem State.updSkein_ckpts : (s.updSkein c q f).ckpts = s.ckpts := by unfold State.updSkein; split <;> rfl
@[simp] theorem State.updSkein_dumps : (s.updSkein c q f).dumps = s.dumps := by unfold State.updSkein; split <;> rfl
@[simp] theorem State.updSkein_dumpPos : (s.updSkein c q f).dumpPos = s.dumpPos := by unfold State.updSkein; split <;> rfl
@[simp] theorem State.updSkein_failDrops : (s.updSkein c q f).failDrops = s.failDrops := by unfold State.updSkein; split <;> rfl
@[simp] theorem State.updSkein_shuffles : (s.updSkein c q f).shuffles = s.shuffles := by unfold State.updSkein; split <;> rfl
@[simp] theorem State.updSkein_widCtr : (s.updSkein c q f).widCtr = s.widCtr := by unfold State.updSkein; split <;> rfl
@[simp] theorem State.updSkein_msix : (s.updSkein c q f).msix = s.msix := by unfold State.updSkein; split <;> rfl
@[simp] theorem State.updSkein_hostReply : (s.updSkein c q f).hostReply = s.hostReply := by unfold State.updSkein; split <;> rfl
@[simp] theorem State.updSkein_sent : (s.updSkein c q f).sent = s.sent := by unfold State.updSkein; split <;> rfl
@[simp] theorem State.updSkein_stops : (s.updSkein c q f).stops = s.stops := by unfold State.updSkein; split <;> rfl
@[simp] theorem State.updSkein_objects : (s.updSkein c q f).objects = s.objects := by unfold State.updSkein; split <;> rfl
@[simp] theorem State.updSkein_firmware : (s.updSkein c q f).firmware = s.firmware := by unfold State.updSkein; split <;> rfl
@[simp] theorem State.updSkein_unserved : (s.updSkein c q f).unserved = s.unserved := by unfold State.updSkein; split <;> rfl
end updSkein

section updLot
variable (s : State) (n : Nat) (f : Lot → Lot)
@[simp] theorem State.updLot_tick : (s.updLot n f).tick = s.tick := by unfold State.updLot; split <;> rfl
@[simp] theorem State.updLot_grant : (s.updLot n f).grant = s.grant := by unfold State.updLot; split <;> rfl
@[simp] theorem State.updLot_choices : (s.updLot n f).choices = s.choices := by unfold State.updLot; split <;> rfl
@[simp] theorem State.updLot_inputs : (s.updLot n f).inputs = s.inputs := by unfold State.updLot; split <;> rfl
@[simp] theorem State.updLot_mem : (s.updLot n f).mem = s.mem := by unfold State.updLot; split <;> rfl
@[simp] theorem State.updLot_far : (s.updLot n f).far = s.far := by unfold State.updLot; split <;> rfl
@[simp] theorem State.updLot_l2 : (s.updLot n f).l2 = s.l2 := by unfold State.updLot; split <;> rfl
@[simp] theorem State.updLot_hubLines : (s.updLot n f).hubLines = s.hubLines := by unfold State.updLot; split <;> rfl
@[simp] theorem State.updLot_hubDirty : (s.updLot n f).hubDirty = s.hubDirty := by unfold State.updLot; split <;> rfl
@[simp] theorem State.updLot_sectors : (s.updLot n f).sectors = s.sectors := by unfold State.updLot; split <;> rfl
@[simp] theorem State.updLot_floors : (s.updLot n f).floors = s.floors := by unfold State.updLot; split <;> rfl
@[simp] theorem State.updLot_joins : (s.updLot n f).joins = s.joins := by unfold State.updLot; split <;> rfl
@[simp] theorem State.updLot_poison : (s.updLot n f).poison = s.poison := by unfold State.updLot; split <;> rfl
@[simp] theorem State.updLot_hub : (s.updLot n f).hub = s.hub := by unfold State.updLot; split <;> rfl
@[simp] theorem State.updLot_pkgSet : (s.updLot n f).pkgSet = s.pkgSet := by unfold State.updLot; split <;> rfl
@[simp] theorem State.updLot_cores : (s.updLot n f).cores = s.cores := by unfold State.updLot; split <;> rfl
@[simp] theorem State.updLot_skeins : (s.updLot n f).skeins = s.skeins := by unfold State.updLot; split <;> rfl
@[simp] theorem State.updLot_launches : (s.updLot n f).launches = s.launches := by unfold State.updLot; split <;> rfl
@[simp] theorem State.updLot_launchSeq : (s.updLot n f).launchSeq = s.launchSeq := by unfold State.updLot; split <;> rfl
@[simp] theorem State.updLot_queues : (s.updLot n f).queues = s.queues := by unfold State.updLot; split <;> rfl
@[simp] theorem State.updLot_spawns : (s.updLot n f).spawns = s.spawns := by unfold State.updLot; split <;> rfl
@[simp] theorem State.updLot_spawnSeq : (s.updLot n f).spawnSeq = s.spawnSeq := by unfold State.updLot; split <;> rfl
@[simp] theorem State.updLot_tlb : (s.updLot n f).tlb = s.tlb := by unfold State.updLot; split <;> rfl
@[simp] theorem State.updLot_faults : (s.updLot n f).faults = s.faults := by unfold State.updLot; split <;> rfl
@[simp] theorem State.updLot_copies : (s.updLot n f).copies = s.copies := by unfold State.updLot; split <;> rfl
@[simp] theorem State.updLot_copySeq : (s.updLot n f).copySeq = s.copySeq := by unfold State.updLot; split <;> rfl
@[simp] theorem State.updLot_queries : (s.updLot n f).queries = s.queries := by unfold State.updLot; split <;> rfl
@[simp] theorem State.updLot_querySeq : (s.updLot n f).querySeq = s.querySeq := by unfold State.updLot; split <;> rfl
@[simp] theorem State.updLot_lands : (s.updLot n f).lands = s.lands := by unfold State.updLot; split <;> rfl
@[simp] theorem State.updLot_landSeq : (s.updLot n f).landSeq = s.landSeq := by unfold State.updLot; split <;> rfl
@[simp] theorem State.updLot_lakes : (s.updLot n f).lakes = s.lakes := by unfold State.updLot; split <;> rfl
@[simp] theorem State.updLot_tls : (s.updLot n f).tls = s.tls := by unfold State.updLot; split <;> rfl
@[simp] theorem State.updLot_podTls : (s.updLot n f).podTls = s.podTls := by unfold State.updLot; split <;> rfl
@[simp] theorem State.updLot_dies : (s.updLot n f).dies = s.dies := by unfold State.updLot; split <;> rfl
@[simp] theorem State.updLot_reserves : (s.updLot n f).reserves = s.reserves := by unfold State.updLot; split <;> rfl
@[simp] theorem State.updLot_saved : (s.updLot n f).saved = s.saved := by unfold State.updLot; split <;> rfl
@[simp] theorem State.updLot_ckpts : (s.updLot n f).ckpts = s.ckpts := by unfold State.updLot; split <;> rfl
@[simp] theorem State.updLot_dumps : (s.updLot n f).dumps = s.dumps := by unfold State.updLot; split <;> rfl
@[simp] theorem State.updLot_dumpPos : (s.updLot n f).dumpPos = s.dumpPos := by unfold State.updLot; split <;> rfl
@[simp] theorem State.updLot_failDrops : (s.updLot n f).failDrops = s.failDrops := by unfold State.updLot; split <;> rfl
@[simp] theorem State.updLot_shuffles : (s.updLot n f).shuffles = s.shuffles := by unfold State.updLot; split <;> rfl
@[simp] theorem State.updLot_widCtr : (s.updLot n f).widCtr = s.widCtr := by unfold State.updLot; split <;> rfl
@[simp] theorem State.updLot_msix : (s.updLot n f).msix = s.msix := by unfold State.updLot; split <;> rfl
@[simp] theorem State.updLot_hostReply : (s.updLot n f).hostReply = s.hostReply := by unfold State.updLot; split <;> rfl
@[simp] theorem State.updLot_sent : (s.updLot n f).sent = s.sent := by unfold State.updLot; split <;> rfl
@[simp] theorem State.updLot_stops : (s.updLot n f).stops = s.stops := by unfold State.updLot; split <;> rfl
@[simp] theorem State.updLot_objects : (s.updLot n f).objects = s.objects := by unfold State.updLot; split <;> rfl
@[simp] theorem State.updLot_firmware : (s.updLot n f).firmware = s.firmware := by unfold State.updLot; split <;> rfl
@[simp] theorem State.updLot_unserved : (s.updLot n f).unserved = s.unserved := by unfold State.updLot; split <;> rfl
end updLot

section updLaunch
variable (s : State) (n : Nat) (f : Launch → Launch)
@[simp] theorem State.updLaunch_tick : (s.updLaunch n f).tick = s.tick := by unfold State.updLaunch; split <;> rfl
@[simp] theorem State.updLaunch_grant : (s.updLaunch n f).grant = s.grant := by unfold State.updLaunch; split <;> rfl
@[simp] theorem State.updLaunch_choices : (s.updLaunch n f).choices = s.choices := by unfold State.updLaunch; split <;> rfl
@[simp] theorem State.updLaunch_inputs : (s.updLaunch n f).inputs = s.inputs := by unfold State.updLaunch; split <;> rfl
@[simp] theorem State.updLaunch_mem : (s.updLaunch n f).mem = s.mem := by unfold State.updLaunch; split <;> rfl
@[simp] theorem State.updLaunch_far : (s.updLaunch n f).far = s.far := by unfold State.updLaunch; split <;> rfl
@[simp] theorem State.updLaunch_l2 : (s.updLaunch n f).l2 = s.l2 := by unfold State.updLaunch; split <;> rfl
@[simp] theorem State.updLaunch_hubLines : (s.updLaunch n f).hubLines = s.hubLines := by unfold State.updLaunch; split <;> rfl
@[simp] theorem State.updLaunch_hubDirty : (s.updLaunch n f).hubDirty = s.hubDirty := by unfold State.updLaunch; split <;> rfl
@[simp] theorem State.updLaunch_sectors : (s.updLaunch n f).sectors = s.sectors := by unfold State.updLaunch; split <;> rfl
@[simp] theorem State.updLaunch_floors : (s.updLaunch n f).floors = s.floors := by unfold State.updLaunch; split <;> rfl
@[simp] theorem State.updLaunch_joins : (s.updLaunch n f).joins = s.joins := by unfold State.updLaunch; split <;> rfl
@[simp] theorem State.updLaunch_poison : (s.updLaunch n f).poison = s.poison := by unfold State.updLaunch; split <;> rfl
@[simp] theorem State.updLaunch_hub : (s.updLaunch n f).hub = s.hub := by unfold State.updLaunch; split <;> rfl
@[simp] theorem State.updLaunch_pkgSet : (s.updLaunch n f).pkgSet = s.pkgSet := by unfold State.updLaunch; split <;> rfl
@[simp] theorem State.updLaunch_cores : (s.updLaunch n f).cores = s.cores := by unfold State.updLaunch; split <;> rfl
@[simp] theorem State.updLaunch_skeins : (s.updLaunch n f).skeins = s.skeins := by unfold State.updLaunch; split <;> rfl
@[simp] theorem State.updLaunch_lots : (s.updLaunch n f).lots = s.lots := by unfold State.updLaunch; split <;> rfl
@[simp] theorem State.updLaunch_launchSeq : (s.updLaunch n f).launchSeq = s.launchSeq := by unfold State.updLaunch; split <;> rfl
@[simp] theorem State.updLaunch_queues : (s.updLaunch n f).queues = s.queues := by unfold State.updLaunch; split <;> rfl
@[simp] theorem State.updLaunch_spawns : (s.updLaunch n f).spawns = s.spawns := by unfold State.updLaunch; split <;> rfl
@[simp] theorem State.updLaunch_spawnSeq : (s.updLaunch n f).spawnSeq = s.spawnSeq := by unfold State.updLaunch; split <;> rfl
@[simp] theorem State.updLaunch_tlb : (s.updLaunch n f).tlb = s.tlb := by unfold State.updLaunch; split <;> rfl
@[simp] theorem State.updLaunch_faults : (s.updLaunch n f).faults = s.faults := by unfold State.updLaunch; split <;> rfl
@[simp] theorem State.updLaunch_copies : (s.updLaunch n f).copies = s.copies := by unfold State.updLaunch; split <;> rfl
@[simp] theorem State.updLaunch_copySeq : (s.updLaunch n f).copySeq = s.copySeq := by unfold State.updLaunch; split <;> rfl
@[simp] theorem State.updLaunch_queries : (s.updLaunch n f).queries = s.queries := by unfold State.updLaunch; split <;> rfl
@[simp] theorem State.updLaunch_querySeq : (s.updLaunch n f).querySeq = s.querySeq := by unfold State.updLaunch; split <;> rfl
@[simp] theorem State.updLaunch_lands : (s.updLaunch n f).lands = s.lands := by unfold State.updLaunch; split <;> rfl
@[simp] theorem State.updLaunch_landSeq : (s.updLaunch n f).landSeq = s.landSeq := by unfold State.updLaunch; split <;> rfl
@[simp] theorem State.updLaunch_lakes : (s.updLaunch n f).lakes = s.lakes := by unfold State.updLaunch; split <;> rfl
@[simp] theorem State.updLaunch_tls : (s.updLaunch n f).tls = s.tls := by unfold State.updLaunch; split <;> rfl
@[simp] theorem State.updLaunch_podTls : (s.updLaunch n f).podTls = s.podTls := by unfold State.updLaunch; split <;> rfl
@[simp] theorem State.updLaunch_dies : (s.updLaunch n f).dies = s.dies := by unfold State.updLaunch; split <;> rfl
@[simp] theorem State.updLaunch_reserves : (s.updLaunch n f).reserves = s.reserves := by unfold State.updLaunch; split <;> rfl
@[simp] theorem State.updLaunch_saved : (s.updLaunch n f).saved = s.saved := by unfold State.updLaunch; split <;> rfl
@[simp] theorem State.updLaunch_ckpts : (s.updLaunch n f).ckpts = s.ckpts := by unfold State.updLaunch; split <;> rfl
@[simp] theorem State.updLaunch_dumps : (s.updLaunch n f).dumps = s.dumps := by unfold State.updLaunch; split <;> rfl
@[simp] theorem State.updLaunch_dumpPos : (s.updLaunch n f).dumpPos = s.dumpPos := by unfold State.updLaunch; split <;> rfl
@[simp] theorem State.updLaunch_failDrops : (s.updLaunch n f).failDrops = s.failDrops := by unfold State.updLaunch; split <;> rfl
@[simp] theorem State.updLaunch_shuffles : (s.updLaunch n f).shuffles = s.shuffles := by unfold State.updLaunch; split <;> rfl
@[simp] theorem State.updLaunch_widCtr : (s.updLaunch n f).widCtr = s.widCtr := by unfold State.updLaunch; split <;> rfl
@[simp] theorem State.updLaunch_msix : (s.updLaunch n f).msix = s.msix := by unfold State.updLaunch; split <;> rfl
@[simp] theorem State.updLaunch_hostReply : (s.updLaunch n f).hostReply = s.hostReply := by unfold State.updLaunch; split <;> rfl
@[simp] theorem State.updLaunch_sent : (s.updLaunch n f).sent = s.sent := by unfold State.updLaunch; split <;> rfl
@[simp] theorem State.updLaunch_stops : (s.updLaunch n f).stops = s.stops := by unfold State.updLaunch; split <;> rfl
@[simp] theorem State.updLaunch_objects : (s.updLaunch n f).objects = s.objects := by unfold State.updLaunch; split <;> rfl
@[simp] theorem State.updLaunch_firmware : (s.updLaunch n f).firmware = s.firmware := by unfold State.updLaunch; split <;> rfl
@[simp] theorem State.updLaunch_unserved : (s.updLaunch n f).unserved = s.unserved := by unfold State.updLaunch; split <;> rfl
end updLaunch

/-- What every step of a fold keeps, the fold keeps. -/
theorem foldl_keeps {σ α β : Type} (g : σ → β) (f : σ → α → σ) (h : ∀ s a, g (f s a) = g s) (l : List α) (s : σ) :
    g (l.foldl f s) = g s := by
  induction l generalizing s with
  | nil => rfl
  | cons a l ih => exact (ih (f s a)).trans (h s a)

@[simp] theorem State.hubPut_mem (s : State) (part ln : Nat) (m : BitVec 8) (d : Bool) : (s.hubPut part ln m d).mem = s.mem := rfl

@[simp] theorem State.dropStamp_mem (s : State) (sec : Nat) : (s.dropStamp sec).mem = s.mem := by
  unfold State.dropStamp; split <;> rfl

@[simp] theorem State.dropStamps_mem (s : State) (ln : Nat) : (s.dropStamps ln).mem = s.mem :=
  foldl_keeps State.mem _ (fun s i => s.dropStamp_mem (4 * ln + i)) (List.range 4) s

@[simp] theorem State.l2Drop_mem (s : State) (ln : Nat) : (s.l2Drop ln).mem = s.mem := s.dropStamps_mem ln

@[simp] theorem State.l2Room_mem (s : State) (ln : Nat) : (s.l2Room ln).mem = s.mem := by
  unfold State.l2Room; dsimp only; split
  · rfl
  · exact State.l2Drop_mem ..

@[simp] theorem State.hubDrop_mem (s : State) (ln : Nat) : (s.hubDrop ln).mem = s.mem := s.dropStamps_mem ln

@[simp] theorem State.hubRoom_mem (s : State) (ln : Nat) : (s.hubRoom ln).mem = s.mem := by
  unfold State.hubRoom; dsimp only; split
  · rfl
  · exact State.hubDrop_mem ..

/-- What a slice of a compute die does with an access leaves the bytes that an agent reads. -/
@[simp] theorem State.l2Access_mem (s : State) (ln : Nat) (m : BitVec 8) (alloc write : Bool) :
    (s.l2Access ln m alloc write).mem = s.mem := by
  unfold State.l2Access
  split
  · split <;> rfl
  · split
    · exact s.l2Room_mem ln
    · split
      · exact s.dropStamps_mem ln
      · rfl

/-- What a hub slice does with an access leaves the bytes that an agent reads. -/
@[simp] theorem State.hubAccess_mem (s : State) (part ln : Nat) (m : BitVec 8) (alloc write : Bool) :
    (s.hubAccess part ln m alloc write).mem = s.mem := by
  have h : ∀ s : State, (match amGet s.hubLines ln with
      | some h => s.hubPut part ln (if alloc || write then h.valid ||| m else h.valid) write
      | none =>
        if alloc then (s.hubRoom ln).hubPut part ln m write
        else if write then { s.dropStamps ln with far := memStore s.far (128 * ln) (memBytes s.mem (128 * ln) 128) } else s).mem
        = s.mem := by
    intro s
    split
    · rfl
    · split
      · exact State.hubRoom_mem s ln
      · split
        · exact s.dropStamps_mem ln
        · rfl
  refine (h _).trans ?_
  split
  · split
    · rfl
    · exact State.hubDrop_mem s ln
  · rfl

/-- Wherever the lines of an access are homed, the bytes that an agent reads stay. -/
@[simp] theorem State.sliceTouch_mem (s : State) (part pa n : Nat) (alloc write : Bool) :
    (s.sliceTouch part pa n alloc write).mem = s.mem :=
  foldl_keeps State.mem _ (fun s ln => by
    split
    · exact s.hubAccess_mem part ln _ alloc write
    · exact s.l2Access_mem ln _ alloc write) _ s

/-- Where no launch has marked a page, no page is copied. -/
theorem State.snapPages_unmarked (s : State) (pa n : Nat) (h : ∀ p ∈ pagesOf pa n, s.marked (65536 * p) = false) :
    s.snapPages pa n = s := by
  unfold State.snapPages
  generalize pagesOf pa n = l at h
  induction l with
  | nil => rfl
  | cons p l ih =>
    rw [List.foldl_cons, if_neg (by simp [h p (by simp)])]
    exact ih fun q hq => h q (by simp [hq])

/-- Bytes performed at their home slices are stored, over what the copies of marked pages have left. -/
theorem State.homePut_mem (s : State) (pa : Nat) (bs : List Byte) (t : Option Triple) :
    (s.homePut pa bs t).mem = memStore (s.snapPages pa bs.length).mem pa bs := rfl

/-- A write of a lot or an engine stores its bytes. -/
theorem State.homeStore_mem (s : State) (part pa : Nat) (alloc : Bool) (bs : List Byte) (t : Option Triple) :
    (s.homeStore part pa alloc bs t).mem = memStore (s.snapPages pa bs.length).mem pa bs := by
  rw [State.homeStore, State.sliceTouch_mem, State.homePut_mem]

/-- A write of the hub's own, or of the host, stores its bytes. -/
theorem State.homeWrite_mem (s : State) (part pa : Nat) (bs : List Byte) (t : Option Triple) :
    (s.homeWrite part pa bs t).mem = memStore (s.snapPages pa bs.length).mem pa bs := s.homeStore_mem part pa false bs t

@[simp] theorem State.l1Store_mem (s : State) (c pa : Nat) (bs : List Byte) : (s.l1Store c pa bs).mem = s.mem :=
  foldl_keeps State.mem _ (fun s n => by split <;> rfl) _ s

end Sys2Proof.Machine
end

