-- ==== Sys2Proof/Laws/Issue.lean ====
section
/-! SUPPORT. The frame in which every instruction issues: what `issue` answers, and what `finish` leaves of the machine beside
the effect of the instruction. -/

namespace Sys2Proof.Machine

/-- An instruction that issues without a cause has its effect. -/
theorem issue_next {i : Instr} {s : State} {x : Iss} {ll : Bool} {own : Iss → List Hit} {eff : Iss → State}
    (h : Issues i s x ll (own x)) : issue i s ll own eff = .next (x.after i (eff x)) := by
  simp only [issue, h.sees, h.free, h.ready, h.clear, Bool.false_eq_true, if_false, Iss.after]

/-- An instruction that meets a precise cause raises it, and has no effect. -/
theorem issue_raise {i : Instr} {s : State} {x : Iss} {ll : Bool} {own : Iss → List Hit} {eff : Iss → State} {h : Hit}
    (hm : mkIss i s = some x) (hf : x.mustCompare i = false) (hc : x.cause ll (own x) = some h) :
    issue i s ll own eff = .next (x.raise h) := by
  simp [issue, hm, hf, hc]

/-- `issue` answers a next state wherever a skein issues the instruction. -/
theorem issue_some {i : Instr} {s : State} {x : Iss} (hm : mkIss i s = some x) (ll : Bool) (own : Iss → List Hit) (eff : Iss → State) :
    ∃ t, issue i s ll own eff = .next t := by
  simp only [issue, hm]
  split
  · exact ⟨_, rfl⟩
  · split
    · exact ⟨_, rfl⟩
    · split <;> exact ⟨_, rfl⟩

/-- Every instruction of level OVB-1 issues in that frame, with its own causes, and has an effect of its own there. -/
theorem exec_issue {i : Instr} (h : i.isIsa = true) :
    ∃ eff : Iss → State, ∀ s, exec i s = issue i s (Instr.long i) (Instr.hits i) eff := by
  cases i <;> first | exact ⟨_, fun _ => rfl⟩ | cases h

theorem issueFixed_next {i : Instr} {s : State} {x : Iss} {f : Iss → Skein} (h : Issues i s x false []) :
    issueFixed i s f = .next (x.after i (x.skeinOnly (f x))) := issue_next (own := fun _ => []) h

/-- A lot that stands alone sees nothing follow its instructions but the mark of a skein that could not issue. -/
theorem Iss.after_alone {x : Iss} (h : x.Alone) (i : Instr) (t : State) : x.after i t = x.tried t := by
  have h1 : x.forwardTick t = t := by
    unfold Iss.forwardTick
    rw [h.single]
    split <;> rfl
  unfold Iss.after
  rw [h1, Iss.dueCkpt, h.single]
  have h2 : x.logging = false := by simp [Iss.logging, h.unlogged]
  simp [Iss.logPoint, Iss.diverged, Iss.logged, h2, Iss.scrub, h.sound]

/-! ### The end of an issue -/

theorem State.skein_setSkein (s : State) (c q : Nat) (k : Skein) : (s.setSkein c q k).skein c q = some k := by
  simp [State.skein, State.setSkein]

theorem State.skeins_updLot (s : State) (n : Nat) (f : Lot → Lot) : (s.updLot n f).skeins = s.skeins := by simp

theorem State.lot_updLot (s : State) (n : Nat) (f : Lot → Lot) :
    (s.updLot n f).lot n = if (amGet s.lots n).isSome then f (s.lot n) else default := by
  unfold State.updLot State.lot
  cases h : amGet s.lots n <;> simp [State.setLot, h]

theorem State.lots_updLot (s : State) (n m : Nat) (f : Lot → Lot) (h : m ≠ n) : amGet (s.updLot n f).lots m = amGet s.lots m := by
  unfold State.updLot
  cases amGet s.lots n <;> simp [State.setLot, amGet_amPut_other _ _ h]

theorem State.core_updCore (s : State) (c : Nat) (f : Core → Core) : (s.updCore c f).core c = f (s.core c) := by
  simp [State.updCore, State.core, State.setCore]

theorem State.cores_updCore (s : State) (c n : Nat) (f : Core → Core) (h : n ≠ c) :
    amGet (s.updCore c f).cores n = amGet s.cores n := by
  simp [State.updCore, State.setCore, amGet_amPut_other _ _ h]

/-- The counts of an instruction change no flag of a launch. -/
theorem State.checked_retired (s : State) (n : Nat) : (s.updLot n fun l => { l with retiredCnt := l.retiredCnt + 1 }).checked n = s.checked n := by
  unfold State.checked State.launch
  rw [State.lot_updLot]
  unfold State.updLot State.lot
  cases h : amGet s.lots n <;> simp [State.setLot]

/-- The state that every issue leaves beside its effect, where no boundary follows. -/
theorem Iss.finish_plain {x : Iss} (h : x.Plain) (k : Skein) (hl : k.lot = x.k.lot) (hf : k.forced = x.k.forced) :
    ∃ (k' : Skein) (wrote : List Nat), x.finish x.s k false = ((x.s.setSkein x.c x.q k'.reselect).updLot k.lot
        fun l => { l with retiredCnt := l.retiredCnt + 1 }).updCore x.c
        (fun u => { u with iq := u.iq.mapIdx fun i e => if i == x.q % 4 then x.slotAfter wrote e else e }) ∧
      k'.content = k.content ∧ k'.retired = k.retired + 1 ∧ k'.lanes = k.lanes := by
  refine ⟨{ k with stallTo := x.s.tick + x.f.stall.toNat, lastIssue := some x.s.tick, lastPc := x.pc, afterTret := false
                   retired := k.retired + 1, relWait := none, cmpOk := false, idle := false, marks := [], halfSt := 0, asks := [], lost := []
                   fetched := if k.cur == some x.fall then k.fetched.filter fun w => w.pc != x.pc else [] },
    if k.llCount == x.k.llCount then x.written else [], ?_, rfl, rfl, rfl⟩
  have hm : (false || x.f.sw == 1 || k.forced) = false := by simp [h.unmarked, hf, h.free]
  unfold Iss.finish
  simp only [hm, Bool.false_eq_true, if_false]
  unfold State.stampFault
  have hc : ∀ (t : State) (g : Core → Core), (t.updCore x.c g).checked k.lot = t.checked k.lot := fun _ _ => rfl
  have hs : ∀ (t : State) (z : Skein), (t.setSkein x.c x.q z).checked k.lot = t.checked k.lot := fun _ _ => rfl
  rw [hc, State.checked_retired, hs, hl, h.unchecked]
  simp

end Sys2Proof.Machine
end

