-- ==== Sys2Proof/Laws/PerInstr.lean ====
section
/-! SUPPORT. The per-instruction family `Encodes`: the fields that the encoding tables give an instruction are read back by the
decoder's table as that instruction. A device event has no encoding, so the family says nothing of it. -/

namespace Sys2Proof.Laws

/-- The decoder's table reads the fields of an instruction as that instruction. -/
def Encodes.Statement (i : Instr) : Prop := ∀ f, i.toFields = some f → build f = some i

/-- A term without an encoding. -/
theorem Encodes.of_none {i : Instr} (h : i.toFields = none) : Encodes.Statement i := fun _ e => nomatch h.symm.trans e

/-- One instruction's fields, read back. -/
theorem Encodes.of_build {i : Instr} {f : Fields} (h : i.toFields = some f) (e : build f = some i) : Encodes.Statement i :=
  fun _ h' => by rw [← Option.some.inj (h.symm.trans h'), e]

theorem Encodes.iadd (c : Ctl) (t : ITy) (sat : Bool) (d a b : Opnd) : Encodes.Statement (.iadd c t sat d a b) :=
  Encodes.of_build rfl (by exact congrArg some (by simp))
theorem Encodes.isub (c : Ctl) (t : ITy) (sat : Bool) (d a b : Opnd) : Encodes.Statement (.isub c t sat d a b) :=
  Encodes.of_build rfl (by exact congrArg some (by simp))
theorem Encodes.iaddc (c : Ctl) (t : ITy) (ci co : BitVec 3) (d a b : Opnd) : Encodes.Statement (.iaddc c t ci co d a b) :=
  Encodes.of_build rfl (by exact congrArg some (by simp))
theorem Encodes.imul (c : Ctl) (t : ITy) (sat : Bool) (d a b : Opnd) : Encodes.Statement (.imul c t sat d a b) :=
  Encodes.of_build rfl (by exact congrArg some (by simp))
theorem Encodes.imulh (c : Ctl) (t : ITy) (d a b : Opnd) : Encodes.Statement (.imulh c t d a b) :=
  Encodes.of_build rfl (by exact congrArg some (by simp))
theorem Encodes.imad (c : Ctl) (t : ITy) (sat : Bool) (d a b e : Opnd) : Encodes.Statement (.imad c t sat d a b e) :=
  Encodes.of_build rfl (by exact congrArg some (by simp))
theorem Encodes.imadw (c : Ctl) (t : ITy) (d a b e : Opnd) : Encodes.Statement (.imadw c t d a b e) :=
  Encodes.of_build rfl (by exact congrArg some (by simp))
theorem Encodes.imin (c : Ctl) (t : ITy) (d a b : Opnd) : Encodes.Statement (.imin c t d a b) :=
  Encodes.of_build rfl (by exact congrArg some (by simp))
theorem Encodes.imax (c : Ctl) (t : ITy) (d a b : Opnd) : Encodes.Statement (.imax c t d a b) :=
  Encodes.of_build rfl (by exact congrArg some (by simp))
theorem Encodes.iabs (c : Ctl) (t : ITy) (sat : Bool) (d a : Opnd) : Encodes.Statement (.iabs c t sat d a) :=
  Encodes.of_build rfl (by exact congrArg some (by simp))
theorem Encodes.ineg (c : Ctl) (t : ITy) (sat : Bool) (d a : Opnd) : Encodes.Statement (.ineg c t sat d a) :=
  Encodes.of_build rfl (by exact congrArg some (by simp))
theorem Encodes.and (c : Ctl) (t : ITy) (d a b : Opnd) : Encodes.Statement (.and c t d a b) :=
  Encodes.of_build rfl (by exact congrArg some (by simp))
theorem Encodes.or (c : Ctl) (t : ITy) (d a b : Opnd) : Encodes.Statement (.or c t d a b) :=
  Encodes.of_build rfl (by exact congrArg some (by simp))
theorem Encodes.xor (c : Ctl) (t : ITy) (d a b : Opnd) : Encodes.Statement (.xor c t d a b) :=
  Encodes.of_build rfl (by exact congrArg some (by simp))
theorem Encodes.not (c : Ctl) (t : ITy) (d a : Opnd) : Encodes.Statement (.not c t d a) :=
  Encodes.of_build rfl (by exact congrArg some (by simp))
theorem Encodes.bool3 (c : Ctl) (t : ITy) (tbl : BitVec 8) (d a b e : Opnd) : Encodes.Statement (.bool3 c t tbl d a b e) :=
  Encodes.of_build rfl (by exact congrArg some (by simp))
theorem Encodes.shl (c : Ctl) (t : ITy) (d a b : Opnd) : Encodes.Statement (.shl c t d a b) :=
  Encodes.of_build rfl (by exact congrArg some (by simp))
theorem Encodes.shr (c : Ctl) (t : ITy) (d a b : Opnd) : Encodes.Statement (.shr c t d a b) :=
  Encodes.of_build rfl (by exact congrArg some (by simp))
theorem Encodes.sar (c : Ctl) (t : ITy) (d a b : Opnd) : Encodes.Statement (.sar c t d a b) :=
  Encodes.of_build rfl (by exact congrArg some (by simp))
theorem Encodes.rotl (c : Ctl) (t : ITy) (d a b : Opnd) : Encodes.Statement (.rotl c t d a b) :=
  Encodes.of_build rfl (by exact congrArg some (by simp))
theorem Encodes.fshf (c : Ctl) (right : Bool) (t : ITy) (d a b e : Opnd) : Encodes.Statement (.fshf c right t d a b e) :=
  Encodes.of_build rfl (by exact congrArg some (by simp))
theorem Encodes.bfx (c : Ctl) (t : ITy) (d a b : Opnd) : Encodes.Statement (.bfx c t d a b) :=
  Encodes.of_build rfl (by exact congrArg some (by simp))
theorem Encodes.bfi (c : Ctl) (d a b e : Opnd) : Encodes.Statement (.bfi c d a b e) :=
  Encodes.of_build rfl (by exact congrArg some (by simp))
theorem Encodes.popc (c : Ctl) (t : ITy) (d a : Opnd) : Encodes.Statement (.popc c t d a) :=
  Encodes.of_build rfl (by exact congrArg some (by simp))
theorem Encodes.clz (c : Ctl) (t : ITy) (d a : Opnd) : Encodes.Statement (.clz c t d a) :=
  Encodes.of_build rfl (by exact congrArg some (by simp))
theorem Encodes.ctz (c : Ctl) (t : ITy) (d a : Opnd) : Encodes.Statement (.ctz c t d a) :=
  Encodes.of_build rfl (by exact congrArg some (by simp))
theorem Encodes.brev (c : Ctl) (t : ITy) (d a : Opnd) : Encodes.Statement (.brev c t d a) :=
  Encodes.of_build rfl (by exact congrArg some (by simp))
theorem Encodes.bytep (c : Ctl) (sel : BitVec 16) (d a b : Opnd) : Encodes.Statement (.bytep c sel d a b) :=
  Encodes.of_build rfl (by exact congrArg some (by simp))
theorem Encodes.icmp (c : Ctl) (cc : Cond) (t : ITy) (d a b : Opnd) : Encodes.Statement (.icmp c cc t d a b) :=
  Encodes.of_build rfl (by exact congrArg some (by simp))
theorem Encodes.iset (c : Ctl) (cc : Cond) (t : ITy) (d a b : Opnd) : Encodes.Statement (.iset c cc t d a b) :=
  Encodes.of_build rfl (by exact congrArg some (by simp))
theorem Encodes.sel (c : Ctl) (t : ITy) (neg : Bool) (d a b p : Opnd) : Encodes.Statement (.sel c t neg d a b p) :=
  Encodes.of_build rfl (by exact congrArg some (by simp))
theorem Encodes.mov (c : Ctl) (t : ITy) (d a : Opnd) : Encodes.Statement (.mov c t d a) :=
  Encodes.of_build rfl (by exact congrArg some (by simp))
theorem Encodes.movi (c : Ctl) (t : ITy) (v : BitVec 24) (d : Opnd) : Encodes.Statement (.movi c t v d) :=
  Encodes.of_build rfl (by exact congrArg some (by simp))
theorem Encodes.movih (c : Ctl) (v : BitVec 16) (d a : Opnd) : Encodes.Statement (.movih c v d a) :=
  Encodes.of_build rfl (by exact congrArg some (by simp))
theorem Encodes.lea (c : Ctl) (sh : BitVec 3) (d a b : Opnd) : Encodes.Statement (.lea c sh d a b) :=
  Encodes.of_build rfl (by exact congrArg some (by simp))
theorem Encodes.lea64 (c : Ctl) (t : ITy) (sh : BitVec 3) (d a b : Opnd) : Encodes.Statement (.lea64 c t sh d a b) :=
  Encodes.of_build rfl (by exact congrArg some (by simp))
theorem Encodes.spr (c : Ctl) (t : ITy) (d a : Opnd) : Encodes.Statement (.spr c t d a) :=
  Encodes.of_build rfl (by exact congrArg some (by simp))
theorem Encodes.spw (c : Ctl) (d a : Opnd) : Encodes.Statement (.spw c d a) :=
  Encodes.of_build rfl (by exact congrArg some (by simp))
theorem Encodes.vtag (c : Ctl) (d a : Opnd) : Encodes.Statement (.vtag c d a) :=
  Encodes.of_build rfl (by exact congrArg some (by simp))
theorem Encodes.setix (c : Ctl) (tgt : Bool) (a : Opnd) : Encodes.Statement (.setix c tgt a) :=
  Encodes.of_build rfl (by exact congrArg some (by simp))
theorem Encodes.pand (c : Ctl) (na nb : Bool) (d a b : Opnd) : Encodes.Statement (.pand c na nb d a b) :=
  Encodes.of_build rfl (by exact congrArg some (by simp; exact ⟨pair_bit0 .., pair_bit1 ..⟩))
theorem Encodes.por (c : Ctl) (na nb : Bool) (d a b : Opnd) : Encodes.Statement (.por c na nb d a b) :=
  Encodes.of_build rfl (by exact congrArg some (by simp; exact ⟨pair_bit0 .., pair_bit1 ..⟩))
theorem Encodes.pxor (c : Ctl) (na nb : Bool) (d a b : Opnd) : Encodes.Statement (.pxor c na nb d a b) :=
  Encodes.of_build rfl (by exact congrArg some (by simp; exact ⟨pair_bit0 .., pair_bit1 ..⟩))
theorem Encodes.pnot (c : Ctl) (na : Bool) (d a : Opnd) : Encodes.Statement (.pnot c na d a) :=
  Encodes.of_build rfl (by exact congrArg some (by simp))
theorem Encodes.pmov (c : Ctl) (na : Bool) (d a : Opnd) : Encodes.Statement (.pmov c na d a) :=
  Encodes.of_build rfl (by exact congrArg some (by simp))
theorem Encodes.bra (c : Ctl) (off : BitVec 24) : Encodes.Statement (.bra c off) :=
  Encodes.of_build rfl (by exact congrArg some (by simp))
theorem Encodes.brx (c : Ctl) (a : Opnd) : Encodes.Statement (.brx c a) :=
  Encodes.of_build rfl (by exact congrArg some (by simp))
theorem Encodes.call (c : Ctl) (off : BitVec 24) (d : Opnd) : Encodes.Statement (.call c off d) :=
  Encodes.of_build rfl (by exact congrArg some (by simp))
theorem Encodes.callx (c : Ctl) (d a : Opnd) : Encodes.Statement (.callx c d a) :=
  Encodes.of_build rfl (by exact congrArg some (by simp))
theorem Encodes.ret (c : Ctl) (a : Opnd) : Encodes.Statement (.ret c a) :=
  Encodes.of_build rfl (by exact congrArg some (by simp))
theorem Encodes.exit (c : Ctl) : Encodes.Statement (.exit c) := Encodes.of_build rfl (by exact congrArg some (by simp))
theorem Encodes.yield (c : Ctl) : Encodes.Statement (.yield c) := Encodes.of_build rfl (by exact congrArg some (by simp))
theorem Encodes.nop (c : Ctl) : Encodes.Statement (.nop c) := Encodes.of_build rfl (by exact congrArg some (by simp))
theorem Encodes.conv (c : Ctl) : Encodes.Statement (.conv c) := Encodes.of_build rfl (by exact congrArg some (by simp))
theorem Encodes.fnew (c : Ctl) (off : BitVec 24) (d a b : Opnd) : Encodes.Statement (.fnew c off d a b) :=
  Encodes.of_build rfl (by exact congrArg some (by simp))
theorem Encodes.elect (c : Ctl) (last : Bool) (d : Opnd) : Encodes.Statement (.elect c last d) :=
  Encodes.of_build rfl (by exact congrArg some (by simp))
theorem Encodes.regrp (c : Ctl) (a : Opnd) : Encodes.Statement (.regrp c a) :=
  Encodes.of_build rfl (by exact congrArg some (by simp))
theorem Encodes.spawn (c : Ctl) (off : BitVec 24) (d a b : Opnd) : Encodes.Statement (.spawn c off d a b) :=
  Encodes.of_build rfl (by exact congrArg some (by simp))
theorem Encodes.joinc (c : Ctl) (off : BitVec 24) (a b : Opnd) : Encodes.Statement (.joinc c off a b) :=
  Encodes.of_build rfl (by exact congrArg some (by simp))
theorem Encodes.idmb (c : Ctl) : Encodes.Statement (.idmb c) := Encodes.of_build rfl (by exact congrArg some (by simp))
theorem Encodes.idme (c : Ctl) : Encodes.Statement (.idme c) := Encodes.of_build rfl (by exact congrArg some (by simp))
theorem Encodes.fadd (c : Ctl) (t : FTy) (r : RMode) (d a : Opnd) (b : FSrc) : Encodes.Statement (.fadd c t r d a b) :=
  Encodes.of_build rfl (by exact congrArg some (by simp))
theorem Encodes.fsub (c : Ctl) (t : FTy) (r : RMode) (d a : Opnd) (b : FSrc) : Encodes.Statement (.fsub c t r d a b) :=
  Encodes.of_build rfl (by exact congrArg some (by simp))
theorem Encodes.fmul (c : Ctl) (t : FTy) (r : RMode) (d a : Opnd) (b : FSrc) : Encodes.Statement (.fmul c t r d a b) :=
  Encodes.of_build rfl (by exact congrArg some (by simp))
theorem Encodes.ffma (c : Ctl) (t : FTy) (r : RMode) (d a b e : Opnd) : Encodes.Statement (.ffma c t r d a b e) :=
  Encodes.of_build rfl (by exact congrArg some (by simp))
theorem Encodes.fmin (c : Ctl) (t : FTy) (d a : Opnd) (b : FSrc) : Encodes.Statement (.fmin c t d a b) :=
  Encodes.of_build rfl (by exact congrArg some (by simp))
theorem Encodes.fmax (c : Ctl) (t : FTy) (d a : Opnd) (b : FSrc) : Encodes.Statement (.fmax c t d a b) :=
  Encodes.of_build rfl (by exact congrArg some (by simp))
theorem Encodes.fminm (c : Ctl) (t : FTy) (d a : Opnd) (b : FSrc) : Encodes.Statement (.fminm c t d a b) :=
  Encodes.of_build rfl (by exact congrArg some (by simp))
theorem Encodes.fmaxm (c : Ctl) (t : FTy) (d a : Opnd) (b : FSrc) : Encodes.Statement (.fmaxm c t d a b) :=
  Encodes.of_build rfl (by exact congrArg some (by simp))
theorem Encodes.fcmp (c : Ctl) (cc : FCond) (t : FTy) (d a b : Opnd) : Encodes.Statement (.fcmp c cc t d a b) :=
  Encodes.of_build rfl (by exact congrArg some (by simp))
theorem Encodes.fset (c : Ctl) (cc : FCond) (t : FTy) (d a b : Opnd) : Encodes.Statement (.fset c cc t d a b) :=
  Encodes.of_build rfl (by exact congrArg some (by simp))
theorem Encodes.frnd (c : Ctl) (t : FTy) (r : RMode) (x : Bool) (d a : Opnd) : Encodes.Statement (.frnd c t r x d a) :=
  Encodes.of_build rfl (by exact congrArg some (by simp))
theorem Encodes.fclass (c : Ctl) (t : FTy) (d a : Opnd) : Encodes.Statement (.fclass c t d a) :=
  Encodes.of_build rfl (by exact congrArg some (by simp))
theorem Encodes.fscl (c : Ctl) (t : FTy) (r : RMode) (d a b : Opnd) : Encodes.Statement (.fscl c t r d a b) :=
  Encodes.of_build rfl (by exact congrArg some (by simp))
theorem Encodes.fext (c : Ctl) (sig : Bool) (t : FTy) (d a : Opnd) : Encodes.Statement (.fext c sig t d a) :=
  Encodes.of_build rfl (by exact congrArg some (by simp))
theorem Encodes.cmul (c : Ctl) (r : RMode) (cja : Bool) (d a b : Opnd) : Encodes.Statement (.cmul c r cja d a b) :=
  Encodes.of_build rfl (by exact congrArg some (by simp))
theorem Encodes.cfma (c : Ctl) (r : RMode) (cja : Bool) (d a b e : Opnd) : Encodes.Statement (.cfma c r cja d a b e) :=
  Encodes.of_build rfl (by exact congrArg some (by simp))
theorem Encodes.vdot2 (c : Ctl) (t : FTy) (r : RMode) (d a b e : Opnd) : Encodes.Statement (.vdot2 c t r d a b e) :=
  Encodes.of_build rfl (by exact congrArg some (by simp))
theorem Encodes.vdot4 (c : Ctl) (ua ub sat : Bool) (d a b e : Opnd) : Encodes.Statement (.vdot4 c ua ub sat d a b e) :=
  Encodes.of_build rfl (by exact congrArg some (by simp; exact ⟨triple_bit0 .., triple_bit1 .., triple_bit2 ..⟩))
theorem Encodes.rcp (c : Ctl) (t : FTy) (r : RMode) (d a : Opnd) : Encodes.Statement (.rcp c t r d a) :=
  Encodes.of_build rfl (by exact congrArg some (by simp))
theorem Encodes.rsq (c : Ctl) (t : FTy) (d a : Opnd) : Encodes.Statement (.rsq c t d a) :=
  Encodes.of_build rfl (by exact congrArg some (by simp))
theorem Encodes.sqrt (c : Ctl) (t : FTy) (r : RMode) (d a : Opnd) : Encodes.Statement (.sqrt c t r d a) :=
  Encodes.of_build rfl (by exact congrArg some (by simp))
theorem Encodes.exp2 (c : Ctl) (t : FTy) (d a : Opnd) : Encodes.Statement (.exp2 c t d a) :=
  Encodes.of_build rfl (by exact congrArg some (by simp))
theorem Encodes.log2 (c : Ctl) (t : FTy) (d a : Opnd) : Encodes.Statement (.log2 c t d a) :=
  Encodes.of_build rfl (by exact congrArg some (by simp))
theorem Encodes.sinp (c : Ctl) (t : FTy) (d a : Opnd) : Encodes.Statement (.sinp c t d a) :=
  Encodes.of_build rfl (by exact congrArg some (by simp))
theorem Encodes.cosp (c : Ctl) (t : FTy) (d a : Opnd) : Encodes.Statement (.cosp c t d a) :=
  Encodes.of_build rfl (by exact congrArg some (by simp))
theorem Encodes.tanh (c : Ctl) (t : FTy) (d a : Opnd) : Encodes.Statement (.tanh c t d a) :=
  Encodes.of_build rfl (by exact congrArg some (by simp))
theorem Encodes.welf (c : Ctl) (r : RMode) (d a : Opnd) : Encodes.Statement (.welf c r d a) :=
  Encodes.of_build rfl (by exact congrArg some (by simp))
theorem Encodes.wmrg (c : Ctl) (r : RMode) (d a : Opnd) : Encodes.Statement (.wmrg c r d a) :=
  Encodes.of_build rfl (by exact congrArg some (by simp))
theorem Encodes.cvt (c : Ctl) (df sf : Fmt) (r : RMode) (d a : Opnd) (b : Option Opnd) : Encodes.Statement (.cvt c df sf r d a b) :=
  by
  cases b <;> exact Encodes.of_build rfl (by exact congrArg some (by simp))
theorem Encodes.cvts (c : Ctl) (df sf : Fmt) (r : RMode) (d a b : Opnd) : Encodes.Statement (.cvts c df sf r d a b) :=
  Encodes.of_build rfl (by exact congrArg some (by simp))
theorem Encodes.srseed (c : Ctl) (a : Opnd) : Encodes.Statement (.srseed c a) :=
  Encodes.of_build rfl (by exact congrArg some (by simp))
theorem Encodes.packf (c : Ctl) (t : Fmt) (r : RMode) (hi : Bool) (d a b : Opnd) : Encodes.Statement (.packf c t r hi d a b) :=
  Encodes.of_build rfl (by exact congrArg some (by simp))
theorem Encodes.unpkf (c : Ctl) (t : Fmt) (q : BitVec 2) (d a : Opnd) : Encodes.Statement (.unpkf c t q d a) :=
  Encodes.of_build rfl (by exact congrArg some (by simp))
theorem Encodes.bsinit (c : Ctl) (d a : Opnd) (w : Option (Opnd × BitVec 5)) : Encodes.Statement (.bsinit c d a w) :=
  by
  cases w <;> exact Encodes.of_build rfl (by exact congrArg some (by simp))
theorem Encodes.bsrd (c : Ctl) (signed : Bool) (d a b : Opnd) : Encodes.Statement (.bsrd c signed d a b) :=
  Encodes.of_build rfl (by exact congrArg some (by simp))
theorem Encodes.part (c : Ctl) (a : Opnd) : Encodes.Statement (.part c a) :=
  Encodes.of_build rfl (by exact congrArg some (by simp))
theorem Encodes.vote (c : Ctl) (m : VoteM) (wide neg : Bool) (mask : Option (BitVec 6)) (d a : Opnd) : Encodes.Statement (.vote c m wide neg mask d a) :=
  Encodes.of_build rfl (by exact congrArg some (by simp))
theorem Encodes.shfl (c : Ctl) (m : ShflM) (wide wrap : Bool) (pf : BitVec 3) (mask : Option (BitVec 6)) (d a b : Opnd) : Encodes.Statement (.shfl c m wide wrap pf mask d a b) :=
  Encodes.of_build rfl (by exact congrArg some (by simp; exact ⟨modX_wrap .., modX_pf ..⟩))
theorem Encodes.mtch (c : Ctl) (one wide : Bool) (mask : Option (BitVec 6)) (d a : Opnd) : Encodes.Statement (.mtch c one wide mask d a) :=
  Encodes.of_build rfl (by exact congrArg some (by simp))
theorem Encodes.redux (c : Ctl) (o : RedOp) (t : Fmt) (mask : Option (BitVec 6)) (d a : Opnd) : Encodes.Statement (.redux c o t mask d a) :=
  Encodes.of_build rfl (by exact congrArg some (by simp))
theorem Encodes.scan (c : Ctl) (o : RedOp) (t : Fmt) (excl : Bool) (mask : Option (BitVec 6)) (d a : Opnd) : Encodes.Statement (.scan c o t excl mask d a) :=
  Encodes.of_build rfl (by exact congrArg some (by simp))
theorem Encodes.ld (c : Ctl) (m : MemM) (off : BitVec 24) (d a : Opnd) : Encodes.Statement (.ld c m off d a) :=
  Encodes.of_build rfl (by exact (if_neg (by simp [MemM.mod])).trans (congrArg some (by simp)))
theorem Encodes.ldFmt (c : Ctl) (cache : CacheHint) (off : BitVec 24) (d a : Opnd) : Encodes.Statement (.ldFmt c cache off d a) :=
  Encodes.of_build rfl (by exact (if_pos (by simp)).trans (congrArg some (by simp)))
theorem Encodes.lds (c : Ctl) (m : MemM) (off : BitVec 24) (d a : Opnd) : Encodes.Statement (.lds c m off d a) :=
  Encodes.of_build rfl (by exact congrArg some (by simp))
theorem Encodes.ldd (c : Ctl) (m : MemM) (off : BitVec 24) (d a : Opnd) : Encodes.Statement (.ldd c m off d a) :=
  Encodes.of_build rfl (by exact congrArg some (by simp))
theorem Encodes.ldc (c : Ctl) (m : MemM) (off : BitVec 24) (d a : Opnd) : Encodes.Statement (.ldc c m off d a) :=
  Encodes.of_build rfl (by exact congrArg some (by simp))
theorem Encodes.ldl (c : Ctl) (m : MemM) (off : BitVec 24) (d a : Opnd) : Encodes.Statement (.ldl c m off d a) :=
  Encodes.of_build rfl (by exact congrArg some (by simp))
theorem Encodes.pref (c : Ctl) (l1 : Bool) (off : BitVec 24) (a : Opnd) : Encodes.Statement (.pref c l1 off a) :=
  Encodes.of_build rfl (by exact congrArg some (by simp))
theorem Encodes.st (c : Ctl) (m : MemM) (off : BitVec 24) (a b : Opnd) : Encodes.Statement (.st c m off a b) :=
  Encodes.of_build rfl (by exact congrArg some (by simp))
theorem Encodes.sts (c : Ctl) (m : MemM) (off : BitVec 24) (a b : Opnd) : Encodes.Statement (.sts c m off a b) :=
  Encodes.of_build rfl (by exact congrArg some (by simp))
theorem Encodes.std (c : Ctl) (m : MemM) (off : BitVec 24) (a b : Opnd) : Encodes.Statement (.std c m off a b) :=
  Encodes.of_build rfl (by exact congrArg some (by simp))
theorem Encodes.stl (c : Ctl) (m : MemM) (off : BitVec 24) (a b : Opnd) : Encodes.Statement (.stl c m off a b) :=
  Encodes.of_build rfl (by exact congrArg some (by simp))
theorem Encodes.atom (c : Ctl) (m : AtomM) (d a : Opnd) (x : AtomArg) : Encodes.Statement (.atom c m d a x) :=
  Encodes.of_build rfl (by exact congrArg some (by simp))
theorem Encodes.atoms (c : Ctl) (m : AtomM) (die : Bool) (d a : Opnd) (x : AtomArg) : Encodes.Statement (.atoms c m die d a x) :=
  Encodes.of_build rfl (by exact congrArg some (by simp))
theorem Encodes.red (c : Ctl) (o : AOp) (m : AtomM) (off : BitVec 24) (a b : Opnd) : Encodes.Statement (.red c o m off a b) :=
  Encodes.of_build rfl (by exact congrArg some (by simp))
theorem Encodes.fence (c : Ctl) (ord : MOrd) (scope : Scope) : Encodes.Statement (.fence c ord scope) :=
  Encodes.of_build rfl (by exact congrArg some (by simp))
theorem Encodes.cctl (c : Ctl) (o : CctlOp) (off : BitVec 24) (a b : Opnd) : Encodes.Statement (.cctl c o off a b) :=
  Encodes.of_build rfl (by exact congrArg some (by simp))
theorem Encodes.mon (c : Ctl) (scratch : Bool) (off : BitVec 24) (a : Opnd) : Encodes.Statement (.mon c scratch off a) :=
  Encodes.of_build rfl (by exact congrArg some (by simp))
theorem Encodes.mwait (c : Ctl) : Encodes.Statement (.mwait c) := Encodes.of_build rfl (by exact congrArg some (by simp))
theorem Encodes.bar (c : Ctl) (scope : Scope) : Encodes.Statement (.bar c scope) :=
  Encodes.of_build rfl (by exact congrArg some (by simp))
theorem Encodes.nbar (c : Ctl) (id : BitVec 4) (arv : Bool) : Encodes.Statement (.nbar c id arv) :=
  Encodes.of_build rfl (by exact congrArg some (by simp; exact ⟨barrier_id .., barrier_arrive ..⟩))
theorem Encodes.binit (c : Ctl) (die : Bool) (off : BitVec 24) (a b : Opnd) : Encodes.Statement (.binit c die off a b) :=
  Encodes.of_build rfl (by exact congrArg some (by simp))
theorem Encodes.barv (c : Ctl) (die : Bool) (off : BitVec 24) (a : Opnd) : Encodes.Statement (.barv c die off a) :=
  Encodes.of_build rfl (by exact congrArg some (by simp))
theorem Encodes.bexp (c : Ctl) (die : Bool) (off : BitVec 24) (a b : Opnd) : Encodes.Statement (.bexp c die off a b) :=
  Encodes.of_build rfl (by exact congrArg some (by simp))
theorem Encodes.bwait (c : Ctl) (die : Bool) (off : BitVec 24) (a b : Opnd) : Encodes.Statement (.bwait c die off a b) :=
  Encodes.of_build rfl (by exact congrArg some (by simp))
theorem Encodes.btest (c : Ctl) (die : Bool) (off : BitVec 24) (d a b : Opnd) : Encodes.Statement (.btest c die off d a b) :=
  Encodes.of_build rfl (by exact congrArg some (by simp))
theorem Encodes.tlwt (c : Ctl) (pod : Bool) (off : BitVec 24) (a b : Opnd) : Encodes.Statement (.tlwt c pod off a b) :=
  Encodes.of_build rfl (by exact congrArg some (by simp))
theorem Encodes.tlrd (c : Ctl) (pod : Bool) (off : BitVec 24) (d a : Opnd) : Encodes.Statement (.tlrd c pod off d a) :=
  Encodes.of_build rfl (by exact congrArg some (by simp))
theorem Encodes.tladv (c : Ctl) (pod : Bool) (off : BitVec 24) (a b : Opnd) : Encodes.Statement (.tladv c pod off a b) :=
  Encodes.of_build rfl (by exact congrArg some (by simp))
theorem Encodes.shape (c : Ctl) (slot : BitVec 4) (off : BitVec 24) (a : Opnd) : Encodes.Statement (.shape c slot off a) :=
  Encodes.of_build rfl (by exact congrArg some (by simp))
theorem Encodes.cpy (c : Ctl) (m : CpyMode) (x : CpyX) (a b : Opnd) : Encodes.Statement (.cpy c m x a b) :=
  Encodes.of_build rfl (by exact (if_neg (by simp)).trans (congrArg some (by simp)))
theorem Encodes.cpyUnz (c : Ctl) (d a b : Opnd) : Encodes.Statement (.cpyUnz c d a b) :=
  Encodes.of_build rfl (by exact congrArg some (by simp))
theorem Encodes.cpyg (c : Ctl) (dec : Bool) (x : CpyX) (a b : Opnd) : Encodes.Statement (.cpyg c dec x a b) :=
  Encodes.of_build rfl (by exact congrArg some (by simp))
theorem Encodes.cpym (c : Ctl) (x : CpyX) (d a b : Opnd) : Encodes.Statement (.cpym c x d a b) :=
  Encodes.of_build rfl (by exact congrArg some (by simp))
theorem Encodes.seal (c : Ctl) : Encodes.Statement (.seal c) := Encodes.of_build rfl (by exact congrArg some (by simp))
theorem Encodes.cpwt (c : Ctl) (a : Opnd) : Encodes.Statement (.cpwt c a) :=
  Encodes.of_build rfl (by exact congrArg some (by simp))
theorem Encodes.qsrch (c : Ctl) (off : BitVec 24) (a : Opnd) : Encodes.Statement (.qsrch c off a) :=
  Encodes.of_build rfl (by exact congrArg some (by simp))
theorem Encodes.qstat (c : Ctl) (off : BitVec 24) (d a : Opnd) : Encodes.Statement (.qstat c off d a) :=
  Encodes.of_build rfl (by exact congrArg some (by simp))
theorem Encodes.land (c : Ctl) (t : Fmt) (off : BitVec 24) (a b : Opnd) : Encodes.Statement (.land c t off a b) :=
  Encodes.of_build rfl (by exact congrArg some (by simp))
theorem Encodes.landf (c : Ctl) (off : BitVec 24) (a : Opnd) : Encodes.Statement (.landf c off a) :=
  Encodes.of_build rfl (by exact congrArg some (by simp))
theorem Encodes.mzero (c : Ctl) (int : Bool) (tile : BitVec 2) : Encodes.Statement (.mzero c int tile) :=
  Encodes.of_build rfl (by exact congrArg some (by simp))
theorem Encodes.mlda (c : Ctl) (int : Bool) (tile n : BitVec 2) (a b : Opnd) : Encodes.Statement (.mlda c int tile n a b) :=
  Encodes.of_build rfl (by exact congrArg some (by simp; exact ⟨modX_tile .., modX_count ..⟩))
theorem Encodes.msta (c : Ctl) (tile n : BitVec 2) (d a : Opnd) : Encodes.Statement (.msta c tile n d a) :=
  Encodes.of_build rfl (by exact congrArg some (by simp; exact ⟨modX_tile .., modX_count ..⟩))
theorem Encodes.mma (c : Ctl) (x : MmaX) (a b : Opnd) : Encodes.Statement (.mma c x a b) :=
  Encodes.of_build rfl (by exact congrArg some (by simp))
theorem Encodes.mckpt (c : Ctl) (tile : BitVec 2) (d a : Opnd) : Encodes.Statement (.mckpt c tile d a) :=
  Encodes.of_build rfl (by exact congrArg some (by simp))
theorem Encodes.mbud (c : Ctl) (d : Opnd) : Encodes.Statement (.mbud c d) :=
  Encodes.of_build rfl (by exact congrArg some (by simp))
theorem Encodes.trap (c : Ctl) (n : BitVec 5) : Encodes.Statement (.trap c n) :=
  Encodes.of_build rfl (by exact congrArg some (by simp))
theorem Encodes.tret (c : Ctl) (a : Opnd) : Encodes.Statement (.tret c a) :=
  Encodes.of_build rfl (by exact congrArg some (by simp))
theorem Encodes.brk (c : Ctl) : Encodes.Statement (.brk c) := Encodes.of_build rfl (by exact congrArg some (by simp))
theorem Encodes.regrpShuffleDone (core launch : Nat) : Encodes.Statement (.regrpShuffleDone core launch) := Encodes.of_none rfl
theorem Encodes.barrierRelease (b : BarRef) : Encodes.Statement (.barrierRelease b) := Encodes.of_none rfl
theorem Encodes.longLatencyReturn (core slot seq : Nat) : Encodes.Statement (.longLatencyReturn core slot seq) :=
  Encodes.of_none rfl
theorem Encodes.stallExpiry (core slot : Nat) : Encodes.Statement (.stallExpiry core slot) := Encodes.of_none rfl
theorem Encodes.issueSlotSwitch (core iq : Nat) : Encodes.Statement (.issueSlotSwitch core iq) := Encodes.of_none rfl
theorem Encodes.releaseWaitDone (core slot : Nat) : Encodes.Statement (.releaseWaitDone core slot) := Encodes.of_none rfl
theorem Encodes.allocationClear (lot : Nat) : Encodes.Statement (.allocationClear lot) := Encodes.of_none rfl
theorem Encodes.carveOutHandover (core : Nat) : Encodes.Statement (.carveOutHandover core) := Encodes.of_none rfl
theorem Encodes.storeAck (core seq : Nat) : Encodes.Statement (.storeAck core seq) := Encodes.of_none rfl
theorem Encodes.monitorTrigger (core slot : Nat) : Encodes.Statement (.monitorTrigger core slot) := Encodes.of_none rfl
theorem Encodes.walkComplete (r : AccRef) (va : BitVec 64) : Encodes.Statement (.walkComplete r va) := Encodes.of_none rfl
theorem Encodes.faultBufferRetry (r : AccRef) (va : BitVec 64) : Encodes.Statement (.faultBufferRetry r va) :=
  Encodes.of_none rfl
theorem Encodes.faultRetry (part : Nat) (id : BitVec 32) : Encodes.Statement (.faultRetry part id) := Encodes.of_none rfl
theorem Encodes.faultRefuse (part : Nat) (id : BitVec 32) : Encodes.Statement (.faultRefuse part id) := Encodes.of_none rfl
theorem Encodes.faultRetryAll (part : Nat) : Encodes.Statement (.faultRetryAll part) := Encodes.of_none rfl
theorem Encodes.faultReplyNone (part : Nat) (id : BitVec 32) : Encodes.Statement (.faultReplyNone part id) :=
  Encodes.of_none rfl
theorem Encodes.faultWatchdog (part : Nat) (id : BitVec 32) : Encodes.Statement (.faultWatchdog part id) := Encodes.of_none rfl
theorem Encodes.waitTimeout (core slot : Nat) (pc : BitVec 64) : Encodes.Statement (.waitTimeout core slot pc) :=
  Encodes.of_none rfl
theorem Encodes.trapDeliver (core slot : Nat) : Encodes.Statement (.trapDeliver core slot) := Encodes.of_none rfl
theorem Encodes.linkDown (hub : Bool) : Encodes.Statement (.linkDown hub) := Encodes.of_none rfl
theorem Encodes.completionTimeout (r : AccRef) : Encodes.Statement (.completionTimeout r) := Encodes.of_none rfl
theorem Encodes.lateCompletion (r : AccRef) : Encodes.Statement (.lateCompletion r) := Encodes.of_none rfl
theorem Encodes.linkRetrain (hub : Bool) : Encodes.Statement (.linkRetrain hub) := Encodes.of_none rfl
theorem Encodes.linkTrained (hub : Bool) : Encodes.Statement (.linkTrained hub) := Encodes.of_none rfl
theorem Encodes.hostBar2Access (write : Bool) (pa : Nat) (data : List (BitVec 8)) : Encodes.Statement (.hostBar2Access write pa data) :=
  Encodes.of_none rfl
theorem Encodes.windowPostedWrite (w off : Nat) (data : List (BitVec 8)) : Encodes.Statement (.windowPostedWrite w off data) :=
  Encodes.of_none rfl
theorem Encodes.frameMark (w : Nat) : Encodes.Statement (.frameMark w) := Encodes.of_none rfl
theorem Encodes.windowMisuse (w off : Nat) (write : Bool) : Encodes.Statement (.windowMisuse w off write) := Encodes.of_none rfl
theorem Encodes.copyStart (n : Nat) : Encodes.Statement (.copyStart n) := Encodes.of_none rfl
theorem Encodes.copyBytesPerformed (n e : Nat) : Encodes.Statement (.copyBytesPerformed n e) := Encodes.of_none rfl
theorem Encodes.copyComplete (n : Nat) : Encodes.Statement (.copyComplete n) := Encodes.of_none rfl
theorem Encodes.copyPageCheck (n : Nat) (va : BitVec 64) : Encodes.Statement (.copyPageCheck n va) := Encodes.of_none rfl
theorem Encodes.mmaStart (core : Nat) : Encodes.Statement (.mmaStart core) := Encodes.of_none rfl
theorem Encodes.mmaFirstFetch (core entry : Nat) : Encodes.Statement (.mmaFirstFetch core entry) := Encodes.of_none rfl
theorem Encodes.kstepCharge (core : Nat) : Encodes.Statement (.kstepCharge core) := Encodes.of_none rfl
theorem Encodes.kstepComplete (core : Nat) : Encodes.Statement (.kstepComplete core) := Encodes.of_none rfl
theorem Encodes.mmaArrive (core : Nat) : Encodes.Statement (.mmaArrive core) := Encodes.of_none rfl
theorem Encodes.tileCommandRun (core entry : Nat) : Encodes.Statement (.tileCommandRun core entry) := Encodes.of_none rfl
theorem Encodes.budgetRefill (core : Nat) : Encodes.Statement (.budgetRefill core) := Encodes.of_none rfl
theorem Encodes.queryAccept (n : Nat) : Encodes.Statement (.queryAccept n) := Encodes.of_none rfl
theorem Encodes.queryRound (n : Nat) : Encodes.Statement (.queryRound n) := Encodes.of_none rfl
theorem Encodes.queryRestart (n : Nat) : Encodes.Statement (.queryRestart n) := Encodes.of_none rfl
theorem Encodes.landContribution (n : Nat) : Encodes.Statement (.landContribution n) := Encodes.of_none rfl
theorem Encodes.landfReport (n : Nat) : Encodes.Statement (.landfReport n) := Encodes.of_none rfl
theorem Encodes.podTimelineAdvance (part : Nat) (block : BitVec 64) (v : BitVec 64) (stamp : Nat) : Encodes.Statement (.podTimelineAdvance part block v stamp) :=
  Encodes.of_none rfl
theorem Encodes.fabricLost (pkg : BitVec 10) : Encodes.Statement (.fabricLost pkg) := Encodes.of_none rfl
theorem Encodes.queueTailWrite (q : Nat) (v : BitVec 32) : Encodes.Statement (.queueTailWrite q v) := Encodes.of_none rfl
theorem Encodes.spawnPush (n : Nat) : Encodes.Statement (.spawnPush n) := Encodes.of_none rfl
theorem Encodes.recordAccept (q : Nat) : Encodes.Statement (.recordAccept q) := Encodes.of_none rfl
theorem Encodes.headReevaluate (q : Nat) : Encodes.Statement (.headReevaluate q) := Encodes.of_none rfl
theorem Encodes.launchStart (q : Nat) : Encodes.Statement (.launchStart q) := Encodes.of_none rfl
theorem Encodes.ageingStep (q : Nat) : Encodes.Statement (.ageingStep q) := Encodes.of_none rfl
theorem Encodes.lotDispatch (die : Nat) : Encodes.Statement (.lotDispatch die) := Encodes.of_none rfl
theorem Encodes.chunkRequest (die launch : Nat) : Encodes.Statement (.chunkRequest die launch) := Encodes.of_none rfl
theorem Encodes.lotFirstIssue (lot : Nat) : Encodes.Statement (.lotFirstIssue lot) := Encodes.of_none rfl
theorem Encodes.lotRetire (lot : Nat) : Encodes.Statement (.lotRetire lot) := Encodes.of_none rfl
theorem Encodes.chunkReport (launch first : Nat) : Encodes.Statement (.chunkReport launch first) := Encodes.of_none rfl
theorem Encodes.launchComplete (launch : Nat) : Encodes.Statement (.launchComplete launch) := Encodes.of_none rfl
theorem Encodes.mordantDecide (die : Nat) : Encodes.Statement (.mordantDecide die) := Encodes.of_none rfl
theorem Encodes.drainDeadline (lot : Nat) : Encodes.Statement (.drainDeadline lot) := Encodes.of_none rfl
theorem Encodes.flushLot (lot : Nat) : Encodes.Statement (.flushLot lot) := Encodes.of_none rfl
theorem Encodes.saveRequest (lot : Nat) : Encodes.Statement (.saveRequest lot) := Encodes.of_none rfl
theorem Encodes.saveComplete (lot : Nat) : Encodes.Statement (.saveComplete lot) := Encodes.of_none rfl
theorem Encodes.resumeLot (lot : Nat) : Encodes.Statement (.resumeLot lot) := Encodes.of_none rfl
theorem Encodes.partitionEnable (part : Nat) (v : BitVec 64) : Encodes.Statement (.partitionEnable part v) :=
  Encodes.of_none rfl
theorem Encodes.partitionReset (part : Nat) (v : BitVec 64) : Encodes.Statement (.partitionReset part v) := Encodes.of_none rfl
theorem Encodes.invalidateTranslations (part : Nat) : Encodes.Statement (.invalidateTranslations part) := Encodes.of_none rfl
theorem Encodes.registerLake (part : Nat) : Encodes.Statement (.registerLake part) := Encodes.of_none rfl
theorem Encodes.unregisterLake (part : Nat) : Encodes.Statement (.unregisterLake part) := Encodes.of_none rfl
theorem Encodes.registerPodTimeline (part : Nat) : Encodes.Statement (.registerPodTimeline part) := Encodes.of_none rfl
theorem Encodes.uploadCodeObject (part : Nat) : Encodes.Statement (.uploadCodeObject part) := Encodes.of_none rfl
theorem Encodes.unloadCodeObject (part : Nat) : Encodes.Statement (.unloadCodeObject part) := Encodes.of_none rfl
theorem Encodes.setBreakpoint (part : Nat) : Encodes.Statement (.setBreakpoint part) := Encodes.of_none rfl
theorem Encodes.clearBreakpoint (part : Nat) : Encodes.Statement (.clearBreakpoint part) := Encodes.of_none rfl
theorem Encodes.replaceFirmware (part : Nat) : Encodes.Statement (.replaceFirmware part) := Encodes.of_none rfl
theorem Encodes.recalibrateStack (part : Nat) : Encodes.Statement (.recalibrateStack part) := Encodes.of_none rfl
theorem Encodes.fenceDie (part : Nat) : Encodes.Statement (.fenceDie part) := Encodes.of_none rfl
theorem Encodes.badCommand (part : Nat) : Encodes.Statement (.badCommand part) := Encodes.of_none rfl
theorem Encodes.pkgWrite (v : BitVec 10) : Encodes.Statement (.pkgWrite v) := Encodes.of_none rfl
theorem Encodes.pcSample (core : Nat) : Encodes.Statement (.pcSample core) := Encodes.of_none rfl
theorem Encodes.memorySample (core : Nat) : Encodes.Statement (.memorySample core) := Encodes.of_none rfl
theorem Encodes.schedStateRecovery (die : Nat) : Encodes.Statement (.schedStateRecovery die) := Encodes.of_none rfl
theorem Encodes.dieFenceByDevice (die : Nat) (l2Lost : Bool) : Encodes.Statement (.dieFenceByDevice die l2Lost) :=
  Encodes.of_none rfl
theorem Encodes.snapshotPageCopy (launch page : Nat) : Encodes.Statement (.snapshotPageCopy launch page) := Encodes.of_none rfl
theorem Encodes.rollback (launch : Nat) : Encodes.Statement (.rollback launch) := Encodes.of_none rfl
theorem Encodes.redundantCompare (lot k : Nat) : Encodes.Statement (.redundantCompare lot k) := Encodes.of_none rfl
theorem Encodes.injectionFlip (part : Nat) : Encodes.Statement (.injectionFlip part) := Encodes.of_none rfl
theorem Encodes.dumpWrite (part : Nat) : Encodes.Statement (.dumpWrite part) := Encodes.of_none rfl
theorem Encodes.tickStop : Encodes.Statement (.tickStop) := Encodes.of_none rfl
theorem Encodes.moduleReset : Encodes.Statement (.moduleReset) := Encodes.of_none rfl
theorem Encodes.registerWrite (off : Nat) (v : BitVec 64) : Encodes.Statement (.registerWrite off v) := Encodes.of_none rfl
theorem Encodes.softError (t : SoftTarget) : Encodes.Statement (.softError t) := Encodes.of_none rfl
theorem Encodes.instructionFetch (core slot : Nat) (pc : BitVec 64) : Encodes.Statement (.instructionFetch core slot pc) :=
  Encodes.of_none rfl
theorem Encodes.fxLinkTrained : Encodes.Statement (.fxLinkTrained) := Encodes.of_none rfl
theorem Encodes.selfTestComplete (dies : BitVec 8) : Encodes.Statement (.selfTestComplete dies) := Encodes.of_none rfl

end Sys2Proof.Laws
end

