-- ==== Sys2Proof/Tests/Slice0.lean ====
section
/-! SUPPORT. Tests: well-formedness refuses each kind of ill-formed term; words written out bit by bit decode to the
instructions they stand for; one step of a placed instruction; and, for every obligation with hypotheses, a state and operands that
meet them. -/

open Sys2Proof Sys2Proof.Machine

set_option Elab.async false

namespace Sys2Proof.Tests

/-! ### Small states -/

/-- The controls of a plain instruction: guard p7, no hints. -/
def ctl : Ctl := ⟨7, false, false, 0, 0, false, false, none⟩
/-- The same under the guard p0, which is false in a new fibre: no lane is active. -/
def off0 : Ctl := { ctl with guard := 0 }
def v (n : Nat) : Opnd := .vec (BitVec.ofNat 8 n)
def p (n : Nat) : Opnd := .prd (BitVec.ofNat 3 n)

/-- The machine with an instruction placed where the next step issues it. -/
def placed (i : Instr) : State := State.reset.withFetchWord 128 (leNat (bytesOfWords (encode i)))

/-- A well-formed instruction issues in a state, and meets a further condition. -/
def meetsIn (s : State) (i : Instr) (ll : Bool) (own : Iss → List Hit) (more : Iss → Bool) : Bool :=
  i.wf && match mkIss i s with
  | some x => !x.mustCompare i && !x.noForward i && (x.cause ll (own x)).isNone && more x
  | none => false

/-- The same where it is placed. -/
def meets (i : Instr) (ll : Bool) (own : Iss → List Hit) (more : Iss → Bool) : Bool := meetsIn (placed i) i ll own more

/-- What `meetsIn` evaluates is the premise that the obligations of instructions share. -/
theorem meets_issues {s : State} {i : Instr} {ll : Bool} {own : Iss → List Hit} {more : Iss → Bool}
    (h : meetsIn s i ll own more = true) : ∃ x, Issues i s x ll (own x) ∧ more x = true := by
  unfold meetsIn at h
  rw [Bool.and_eq_true] at h
  replace h := h.2
  split at h
  · rename_i x hx
    simp only [Bool.and_eq_true, Bool.not_eq_true', Option.isNone_iff_eq_none] at h
    exact ⟨x, ⟨hx, h.1.1.1, h.1.1.2, h.1.2⟩, h.2⟩
  · cases h

/-- A placed instruction whose skein holds these words in all lanes of its vector registers. -/
def withRegs (s : State) (rs : AMap Word) : State :=
  match s.skein 0 0 with
  | some k => s.setSkein 0 0 { k with regs := rs.map fun e => (2 * e.1, .u e.2) }
  | none => s

/-- The premises `Plain` and `Alone`. -/
def plain (x : Iss) : Bool :=
  x.f.sw == 0 && !x.k.forced && !x.s.checked x.k.lot && x.lot.role == .single && x.s.fld (debugBlock x.part) 2 1 == 0 && x.badReads == []

/-- The premise `Ordinary`, with `Ready` and `NoneOlder`, and an active lane. -/
def ordinary (sc : Scope) (x : Iss) : Bool :=
  x.lot.role == .single && !x.s.checked x.k.lot && x.s.releaseReady x.c x.q sc && x.s.hubDirty == [] && x.k.pend == [] && x.act != 0

/-- The causes of a memory access whose base is v6, at an offset. -/
def own6 (off : Nat) (i : Instr) (x : Iss) : List Hit :=
  x.accessHits i fun acc => x.spaceAddr acc.sp (v 6) (sx24 (BitVec.ofNat 24 off))

/-! ### Well-formedness refuses each kind of ill-formed term

Each expected cause is the first that applies in the table of R354, with the lowest bit of the first wrong field (R350). -/

/-- The cause and DETAIL that an ill-formed term meets. -/
def refused (i : Instr) (code detail : Nat) : Bool := !i.wf && i.encodingCause == some (code, detail)

def pfx (d : Opnd) (r : RMode) (m : MPol) (n : BitVec 3) : Ctl := { ctl with pre := some ⟨d, r, m, n⟩ }

/-- An unused bit: IMM24 from bit 46 in two-source forms and IMM14 from bit 56 in three-source ones, and bits of OPX. -/
theorem test_wf_reserved :
    refused (.lea64 ctl .i32 3 (v 4) (v 6) (v 8)) 0x03 46 = false ∧
    refused (.spr ctl .i32 (v 4) .pword) 0x04 26 = true ∧
    (firstCause none { ((Instr.nop ctl).toFields.getD default) with r1 := 1 }) = some (0x03, 83) ∧
    (firstCause none { ((Instr.nop ctl).toFields.getD default) with r2 := 1 }) = some (0x03, 93) ∧
    (firstCause none { ((Instr.nop ctl).toFields.getD default) with imm := 1 }) = some (0x03, 46) ∧
    (firstCause none { ((Instr.nop ctl).toFields.getD default) with sub := 1 }) = some (0x02, 8) ∧
    (firstCause none { ((Instr.trap ctl 3).toFields.getD default) with imm := 32 }) = some (0x03, 46) := by decide +kernel

theorem test_wf_kind :
    refused (.iadd ctl .i32 false (p 1) (v 5) (v 6)) 0x04 16 = true ∧
    refused (.iadd ctl .i32 false (.imm 1) (v 5) (v 6)) 0x04 16 = true ∧
    refused (.pand ctl false false (p 1) (v 2) (p 3)) 0x04 26 = true ∧
    refused (.pand ctl false false (.ppair 1 2) (p 2) (p 3)) 0x04 16 = true ∧
    refused (.st ctl ⟨.n32, .x2, .plain, .sk, .page⟩ 0 (v 6) (.imm 1)) 0x04 36 = true ∧
    refused (.sel ctl .n32 false (v 4) (v 5) (v 6) (v 7)) 0x04 46 = true ∧
    refused (.mov ctl .n32 (v 4) (.spc 0)) 0x04 26 = true := by decide +kernel

theorem test_wf_prefix :
    refused (.nop (pfx (v 0) .rne .none 0)) 0x05 96 = true ∧
    refused (.srseed (pfx (v 0) .rne .none 0) (v 4)) 0x05 96 = true ∧
    refused (.iadd (pfx (v 0) .rne .none 3) .i32 false (v 4) (v 5) (v 6)) 0x05 104 = true ∧
    refused (.iadd (pfx (v 0) .rz .merge 3) .i32 false (v 4) (v 5) (v 6)) 0x05 109 = true ∧
    refused (.fadd (pfx (v 8) .rz .merge 3) .f32 .rne (v 4) (v 5) (.opnd (v 6))) 0x05 112 = true ∧
    (Instr.fadd (pfx (v 0) .rz .merge 3) .f32 .rne (v 4) (v 5) (.opnd (v 6))).wf = true := by decide +kernel

theorem test_wf_modifier :
    refused (.iaddc ctl .i64 0 0 (v 4) (v 6) (v 8)) 0x06 78 = true ∧
    refused (.rsq ctl .f64 (v 4) (v 6)) 0x06 78 = true ∧
    refused (.fadd ctl .f32 .sr (v 4) (v 5) (.opnd (v 6))) 0x06 75 = true ∧
    refused (.ld ctl ⟨.n64, .x4, .plain, .sk, .page⟩ 0 (v 8) (v 6)) 0x06 78 = true ∧
    refused (.ld ctl ⟨.n32, .x1, .rel, .sys, .page⟩ 0 (v 8) (v 6)) 0x06 75 = true ∧
    refused (.ld ctl ⟨.n32, .x1, .plain, .sys, .page⟩ 0 (v 8) (v 6)) 0x06 72 = true ∧
    refused (.lds ctl ⟨.n32, .x1, .plain, .sk, .once⟩ 0 (v 8) (v 6)) 0x06 70 = true := by decide +kernel

theorem test_wf_pair :
    refused (.iadd ctl .i64 false (v 4) (v 5) (v 8)) 0x07 26 = true ∧
    refused (.ld ctl ⟨.n32, .x4, .plain, .sk, .page⟩ 0 (v 6) (v 8)) 0x07 16 = true ∧
    refused (.bsrd ctl false (v 4) (v 7) (.imm 3)) 0x07 26 = true ∧
    refused (.cpy ctl .raw ⟨0, false, false, false, 0⟩ (v 8) (v 12)) 0x07 36 = true ∧
    refused (.mlda ctl false 0 2 (v 6) (.imm 0)) 0x07 26 = true := by decide +kernel

theorem test_wf_guard :
    refused (.regrp off0 (v 5)) 0x08 12 = true ∧ refused (.bar off0 .lot) 0x08 12 = true ∧ refused (.nbar off0 0 true) 0x08 12 = true ∧
    refused (.tret off0 (v 8)) 0x08 12 = true ∧ (Instr.brk off0).wf = true := by decide +kernel

theorem test_wf_special :
    refused (.spr ctl .i32 (v 4) (.scl 3)) 0x0A 26 = true ∧ refused (.spr ctl .i32 (v 4) (.spc 15)) 0x0A 26 = true ∧
    refused (.spr ctl .i64 (v 4) (.spc 2)) 0x0A 26 = true ∧ refused (.spw ctl (.spc 2) (v 4)) 0x0A 16 = true ∧
    (Instr.spw ctl (.spc 12) (v 4)).wf = true := by decide +kernel

theorem test_wf_event : (Instr.mmaStart 0).wf = false ∧ (Instr.moduleReset).wf = false := by decide +kernel

/-- The premises of the statement on unassigned opcodes, at the ends of the unassigned ranges, and what is decoded there. -/
theorem test_words_refused :
    ([0x0B, 0x0F, 0x2D, 0x35, 0x3F, 0x47, 0x5E, 0x64, 0x72, 0x7F, 0x86, 0x96, 0x9B, 0x9D, 0xA3, 0xAC, 0xB7, 0xBB, 0xC6, 0xCC, 0xD6, 0xE3, 0xFD, 0xFF]
      : List Word).all (fun w => !isPfxWord w && (formOf (unpack none (words96 w 0 0))).isNone &&
        decodeWords w 0 0 0 == .bad 0x01 255 (unpack none (words96 w 0 0)) 12) = true ∧
    (isPfxWord 0xFE = true ∧ (0xFE : Word).extractLsb' 26 6 = 0 ∧ (0x800000FE : Word).extractLsb' 26 6 ≠ 0) ∧
    (decodeWords 0 0 0 0 = .bad 0x06 78 (unpack none 0) 12) := by decide +kernel

/-! ### Words written out from the encoding decode to the instructions they stand for

Each number holds the fields of R133 and R144 at their bits, with the operand codes of R134 and R136 and the codes of R140, R146
and of the instruction's own rule; FNEW is the worked example of R169. -/

/-- What the decoder reads from words laid out in one number, bit 0 first. -/
def reads (rows : List (Nat × Instr)) : Bool := rows.all fun r => decodeTableWord 128 r.1 == some r.2

theorem test_words_integer : reads [
    (0x320000000006014047000, .iadd ctl .i32 true (v 4) (v 5) (v 6)),
    (0x380000000008018047001, .isub ctl .i64 false (v 4) (v 6) (v 8)),
    (0x34B80000001E028147002, .iaddc ctl .n32 6 5 (v 20) (v 10) (v 30)),
    (0x3E0000000008018047003, .imul ctl .n64 true (v 4) (v 6) (v 8)),
    (0x3000000003FF014047004, .imulh ctl .i32 (v 4) (v 5) (.imm 0xFF)),
    (0x380000002808018047005, .imad ctl .i64 false (v 4) (v 6) (v 8) (v 10)),
    (0x340000002007018047006, .imadw ctl .n32 (v 4) (v 6) (v 7) (v 8)),
    (0x300000000105411037007, .imin ctl .i32 (.scl 3) (.scl 4) (.scl 5)),
    (0x210000000006014047008, .imax ctl .i8x4 (v 4) (v 5) (v 6)),
    (0x3A0000000000018047009, .iabs ctl .i64 true (v 4) (v 6)),
    (0x34000000000001404700A, .ineg ctl .n32 false (v 4) (v 5))] = true := by decide +kernel

theorem test_words_logic : reads [
    (0x340000000006014047010, .and ctl .n32 (v 4) (v 5) (v 6)),
    (0x3C0000000008018047011, .or ctl .n64 (v 4) (v 6) (v 8)),
    (0x300000000380014047012, .xor ctl .i32 (v 4) (v 5) (.imm 0x80)),
    (0x380000000000018047013, .not ctl .i64 (v 4) (v 6)),
    (0x340009601C06014047014, .bool3 ctl .n32 0x96 (v 4) (v 5) (v 6) (v 7)),
    (0x34000000031F014047015, .shl ctl .n32 (v 4) (v 5) (.imm 31)),
    (0x3C0000000009018047016, .shr ctl .n64 (v 4) (v 6) (v 9)),
    (0x300000000006014047017, .sar ctl .i32 (v 4) (v 5) (v 6)),
    (0x3C0000000009018047018, .rotl ctl .n64 (v 4) (v 6) (v 9)),
    (0x340000001C06014047119, .fshf ctl true .n32 (v 4) (v 5) (v 6) (v 7)),
    (0x30000000000601404701A, .bfx ctl .i32 (v 4) (v 5) (v 6)),
    (0x300000001C0601404701B000800FE, .bfi { ctl with pre := some ⟨v 8, .rne, .none, 0⟩ } (v 4) (v 5) (v 6) (v 7)),
    (0x3C000000000001804701C, .popc ctl .n64 (v 4) (v 6)),
    (0x34000000000001404701D, .clz ctl .n32 (v 4) (v 5)),
    (0x34000000000001404701E, .ctz ctl .n32 (v 4) (v 5)),
    (0x38000000000001804701F, .brev ctl .i64 (v 4) (v 6)),
    (0x300000048C06014047020, .bytep ctl 0x0123 (v 4) (v 5) (v 6))] = true := by decide +kernel

theorem test_words_moves : reads [
    (0x300000000006016917221, .icmp ctl .lt .i32 (.ppair 1 2) (v 5) (v 6)),
    (0x3C0000000008018047522, .iset ctl .ge .n64 (v 4) (v 6) (v 8)),
    (0x340400080406014047023, .sel ctl .n32 true (v 4) (v 5) (v 6) (p 1)),
    (0x3C0000000000418047024, .mov ctl .n64 (v 4) (.scl 6)),
    (0x300200000000000047025, .movi ctl .i32 0x800000 (v 4)),
    (0x300000FE0000010047026, .movih ctl 0x3F80 (v 4) (v 4)),
    (0x300000001C06014047027, .lea ctl 7 (v 4) (v 5) (v 6)),
    (0x300000000809008067028, .lea64 ctl .i32 2 (v 6) (v 2) (v 9)),
    (0x380000000000540087029, .spr ctl .i64 (v 8) (.spc 16)),
    (0x3000000000000154D702A, .spw ctl (.spc 13) (v 5)),
    (0x30000000000001404702B, .vtag ctl (v 4) (v 5)),
    (0x300400000000C0C00702C, .setix ctl true (.imm 3))] = true := by decide +kernel

theorem test_words_control : reads [
    (0x80000020380A017030, .pand ctl false true (p 1) (p 2) (p 3)),
    (0x40000020380A017031, .por ctl true false (p 1) (p 2) (p 3)),
    (0x20380A017032, .pxor ctl false false (p 1) (p 2) (p 3)),
    (0x81E067033, .pnot ctl false (p 6) (p 7)),
    (0x400000000016407034, .pmov ctl true .pword (v 5)),
    (0x3FFFFF400000009036, .bra { ctl with guard := 1, gneg := true } 0xFFFFFD),
    (0x410007037, .brx ctl (.scl 4)),
    (0xC000000047038, .call ctl 48 (v 4)),
    (0x18047039, .callx ctl (v 4) (v 6)),
    (0x1800703A, .ret ctl (v 6)),
    (0x703B, .exit ctl),
    (0x80000000000000000000703C, .yield { ctl with sw := true }),
    (0x1B000000000000000000703D, .nop { ctl with yh := true, stall := 5, hold := 2 }),
    (0x703E, .conv ctl),
    (0xC00900A017040, .fnew ctl 48 (p 1) (v 2) (v 9)),
    (0x400000000002027041, .elect ctl true (p 2)),
    (0x14007042, .regrp ctl (v 5)),
    (0x2030301B007043, .spawn ctl 128 (.imm 0) (v 6) (.imm 3)),
    (0x3FFFFF008018007044, .joinc ctl 0xFFFFFC (v 6) (v 8)),
    (0x7045, .idmb ctl),
    (0x7046, .idme ctl)] = true := by decide +kernel

theorem test_words_float : reads [
    (0x4A0FF000000014047050, .fadd ctl .f32 .rz (v 4) (v 5) (.wide 0x3FC000)),
    (0xA0000000008018047051, .fsub ctl .f64 .rna (v 4) (v 6) (.opnd (v 8))),
    (0xDC000000006014047052, .fmul ctl .f16x2 .rdn (v 4) (v 5) (.opnd (v 6))),
    (0x50000001005020047053, .ffma ctl .f32 .rup (v 4) (v 8) (v 5) (v 4)),
    (0x104000000006014047054, .fmin ctl .bf16x2 (v 4) (v 5) (.opnd (v 6))),
    (0x40000000006014047055, .fmax ctl .f32 (v 4) (v 5) (.opnd (v 6))),
    (0xC0000000006014047056, .fminm ctl .f16 (v 4) (v 5) (.opnd (v 6))),
    (0x100000000006014047057, .fmaxm ctl .bf16 (v 4) (v 5) (.opnd (v 6))),
    (0x40000000006016017D58, .fcmp ctl .nan .f32 (p 1) (v 5) (v 6)),
    (0x80000000008018047659, .fset ctl .equ .f64 (v 4) (v 6) (v 8)),
    (0x4840000000001404705A, .frnd ctl .f32 .rz true (v 4) (v 5)),
    (0x8000000000001804705B, .fclass ctl .f64 (v 4) (v 6)),
    (0x580000003F901404705C, .fscl ctl .f32 .rdn (v 4) (v 5) (.imm 0xF9)),
    (0x4000000000001404715D, .fext ctl true .f32 (v 4) (v 5)),
    (0x48400000008018047060, .cmul ctl .rz true (v 4) (v 6) (v 8)),
    (0x40000002808018047061, .cfma ctl .rne false (v 4) (v 6) (v 8) (v 10)),
    (0xC4000001C06014047062, .vdot2 ctl .f16x2 .rne (v 4) (v 5) (v 6) (v 7)),
    (0x205800001C06014047063, .vdot4 ctl false true true (v 4) (v 5) (v 6) (v 7))] = true := by decide +kernel

theorem test_words_functions : reads [
    (0x88000000000018047068, .rcp ctl .f64 .rz (v 4) (v 6)),
    (0x40000000000014047069, .rsq ctl .f32 (v 4) (v 5)),
    (0xD000000000001404706A, .sqrt ctl .f16 .rup (v 4) (v 5)),
    (0x10000000000001404706B, .exp2 ctl .bf16 (v 4) (v 5)),
    (0x4000000000001404706C, .log2 ctl .f32 (v 4) (v 5)),
    (0x4000000000001404706D, .sinp ctl .f32 (v 4) (v 5)),
    (0xC000000000001404706E, .cosp ctl .f16 (v 4) (v 5)),
    (0x4000000000001404706F, .tanh ctl .f32 (v 4) (v 5)),
    (0x400000000000140C7070, .welf ctl .rne (v 12) (v 5)),
    (0x480000000000400C7071, .wmrg ctl .rz (v 12) (v 16)),
    (0x100C0000000801C067078, .cvt ctl .bf16 .f32 .rne (v 6) (v 7) (some (v 8))),
    (0x1E880000000B028097079, .cvts ctl .e2m1 .f32 .sr (v 9) (v 10) (v 11)),
    (0x41000707A, .srseed ctl (.scl 4)),
    (0x1C040000000801804707B, .packf ctl .e2m1 .rne true (v 4) (v 6) (v 8)),
    (0x1C0C0000000001804707C, .unpkf ctl .e2m1 3 (v 4) (v 6)),
    (0x34000000440400818707D, .bsinit ctl (v 24) (v 2) (some (v 4, 17))),
    (0x30000000030C06014707E, .bsrd ctl true (v 20) (v 24) (.imm 12))] = true := by decide +kernel

theorem test_words_cross_lane : reads [
    (0xC20007080, .part ctl (.imm 8)),
    (0x380400011000804047381, .vote ctl .bits true true (some 4) (v 4) (p 1)),
    (0x302C0000030102C0A7282, .shfl ctl .fwd false true 3 none (v 10) (v 11) (.imm 1)),
    (0x38000000000001A027183, .mtch ctl true true none (p 2) (v 6)),
    (0x40000000000024087084, .redux ctl .add .f32 none (v 8) (v 9)),
    (0x34040001FC00024087585, .scan ctl .xor .n32 true (some 63) (v 8) (v 9))] = true := by decide +kernel

theorem test_words_memory : reads [
    (0x2C0C000060000080C7290, .ld ctl ⟨.n16, .x4, .plain, .sk, .home⟩ 0x18 (v 12) (v 2)),
    (0x7FFFFFC00008087090, .ldFmt ctl .once 0xFFFFFF (v 8) (v 2)),
    (0x351000000000018047091, .lds ctl ⟨.n32, .x1, .acq, .lot, .page⟩ 0 (v 4) (v 6)),
    (0x3AB000000000018047092, .ldd ctl ⟨.i64, .x1, .sc, .die, .page⟩ 0 (v 4) (v 6)),
    (0x40000000000419047193, .ldc ctl ⟨.f32, .x2, .plain, .sk, .page⟩ 0 (.scl 4) (.scl 6)),
    (0x200000000000018047094, .ldl ctl ⟨.i8, .x1, .plain, .sk, .page⟩ 0 (v 4) (v 6)),
    (0x20000018007195, .pref ctl true 128 (v 6)),
    (0x35E800000008018007098, .st ctl ⟨.n32, .x1, .rel, .sys, .nol1⟩ 0 (v 6) (v 8)),
    (0x240000000301018007099, .sts ctl ⟨.n8, .x1, .plain, .sk, .page⟩ 0 (v 6) (.imm 1)),
    (0x8A00000000801800709A, .std ctl ⟨.f64, .x1, .rlx, .quad, .page⟩ 0 (v 6) (v 8)),
    (0x30000000400801800729C, .stl ctl ⟨.i32, .x4, .plain, .sk, .page⟩ 16 (v 6) (v 8)),
    (0x3E53FF8028080180C77A0, .atom ctl ⟨.n64, .ar, .pod⟩ (v 12) (v 6) (.cas (v 8) (v 10) 0x3FF8)),
    (0x34C4000013030180978A1, .atoms ctl ⟨.n32, .rlx, .pkg⟩ true (v 9) (v 6) (.op2 .inc (.imm 3) 4)),
    (0x5C0000000080180070A2, .red ctl .add ⟨.f32, .rel, .pkg⟩ 0 (v 6) (v 8)),
    (0x2E0000000000000070A8, .fence ctl .sc .sys),
    (0x80180072A9, .cctl ctl .invh 0 (v 6) (v 8)),
    (0x4000100000180070AA, .mon ctl true 64 (v 6)),
    (0x70AB, .mwait ctl),
    (0x30000000000000070B0, .bar ctl .die),
    (0x1000007C000000070B1, .nbar ctl 15 true),
    (0x4000040080180070B2, .binit ctl true 16 (v 6) (v 8)),
    (0x40000180070B3, .barv ctl false 16 (v 6)),
    (0x80180070B4, .bexp ctl false 0 (v 6) (v 8)),
    (0x3010180070B5, .bwait ctl false 0 (v 6) (.imm 1)),
    (0x40000030001A0170B6, .btest ctl true 0 (p 1) (v 6) (.imm 0)),
    (0x50000000080180070B8, .tlwt ctl true 0 (v 6) (v 8)),
    (0x40000000000180470B9, .tlrd ctl false 0 (v 4) (v 6)),
    (0x40000003FF0180070BA, .tladv ctl false 0 (v 6) (.imm 0xFF))] = true := by decide +kernel

theorem test_words_engines : reads [
    (0xC000100000180070C0, .shape ctl 3 64 (v 6)),
    (0x7E4000000280200072C1, .cpy ctl .enc ⟨3, true, true, true, 9⟩ (v 8) (v 40)),
    (0x3000180473C1, .cpyUnz ctl (v 4) (v 6) (.imm 0)),
    (0x800000028C000071C2, .cpyg ctl true ⟨0, false, false, false, 2⟩ (.imm 0) (v 40)),
    (0x108000000280180C70C3, .cpym ctl ⟨0, true, false, false, 2⟩ (v 12) (v 6) (v 40)),
    (0x70C4, .seal ctl),
    (0xC040070C5, .cpwt ctl (.imm 1)),
    (0x200000180070C8, .qsrch ctl 128 (v 6)),
    (0x200000180470C9, .qstat ctl 128 (v 4) (v 6)),
    (0x1000000000080180070CA, .land ctl .bf16 0 (v 6) (v 8)),
    (0x100000180070CB, .landf ctl 64 (v 6))] = true := by decide +kernel

theorem test_words_matrix : reads [
    (0x3008000000000000070D0, .mzero ctl true 2),
    (0x434000003040200070D1, .mlda ctl false 1 3 (v 8) (.imm 4)),
    (0x20000000000140470D2, .msta ctl 0 2 (v 4) (v 5)),
    (0x1D58048EFD030200070D3, .mma ctl ⟨.e2m1, 2, true, false, true, false, true, 63, some 0x123⟩ (v 8) (.scl 3)),
    (0xC000000000140470D4, .mckpt ctl 3 (v 4) (v 5)),
    (0x10470D5, .mbud ctl (.scl 4))] = true := by decide +kernel

theorem test_words_traps : reads [
    (0x7C000000070E0, .trap ctl 31),
    (0x200070E1, .tret ctl (v 8)),
    (0x20E2, .brk { ctl with guard := 2 })] = true := by decide +kernel

/-! ### Issuing: the premises of the instruction obligations -/

theorem test_issues_integer : ([
    .iadd ctl .i32 true (v 4) (v 5) (v 6), .isub ctl .i64 false (v 4) (v 6) (v 8), .imul ctl .n64 true (v 4) (v 6) (v 8),
    .imulh ctl .n32 (v 4) (v 5) (.imm 0xFF), .imin ctl .i32 (.scl 3) (.scl 4) (.scl 5), .imax ctl .i8x4 (v 4) (v 5) (v 6),
    .iabs ctl .i64 false (v 4) (v 6), .ineg ctl .i32 true (v 4) (v 4), .iaddc ctl .n32 7 1 (v 4) (v 5) (v 6),
    .imad ctl .i64 false (v 4) (v 6) (v 8) (v 10), .imadw ctl .i32 (v 4) (v 6) (v 7) (v 8),
    .and ctl .n32 (v 4) (v 5) (v 6), .or ctl .n64 (v 4) (v 6) (v 8), .xor ctl .n32 (v 4) (v 5) (v 6), .not ctl .n64 (v 4) (v 6),
    .bool3 ctl .n32 0x96 (v 4) (v 5) (v 6) (v 7), .shl ctl .n32 (v 4) (v 5) (.imm 32), .shr ctl .n64 (v 4) (v 6) (v 8),
    .sar ctl .i32 (v 4) (v 5) (v 6), .rotl ctl .n64 (v 4) (v 6) (v 8), .fshf ctl true .n32 (v 4) (v 5) (v 6) (v 7),
    .bfx ctl .i32 (v 4) (v 5) (v 6), .bfi ctl (v 4) (v 5) (v 6) (v 7), .popc ctl .n64 (v 4) (v 6), .clz ctl .n32 (v 4) (v 5),
    .ctz ctl .n64 (v 4) (v 6), .brev ctl .n32 (v 4) (v 5), .bytep ctl 0x3210 (v 4) (v 5) (v 6),
    .icmp ctl .lt .i32 (.ppair 1 2) (v 5) (v 6), .iset ctl .ge .n64 (v 4) (v 6) (v 8), .sel ctl .n32 true (v 4) (v 5) (v 6) (p 1),
    .mov ctl .n64 (v 4) (v 6), .movi ctl .i32 0x800000 (v 4), .movih ctl 0xFFFF (v 4) (v 5), .lea ctl 7 (v 4) (v 5) (v 6),
    .lea64 ctl .i32 3 (v 4) (v 6) (v 8)] : List Instr).all (fun i => Instr.onSkein i && meets i false (fun _ => []) plain) = true := by
  decide +kernel

theorem test_issues_special : ([
    .spr ctl .i32 (v 4) (.spc 0), .spr ctl .i64 (v 4) (.spc 16), .vtag ctl (v 4) (v 5), .spw ctl (.spc 10) (v 5),
    .spw ctl (.spc 12) (v 5), .spw ctl (.spc 13) (v 5), .spw off0 (.spc 13) (v 5), .setix ctl true (v 5), .setix off0 false (v 5)]
    : List Instr).all (fun i => Instr.onSkein i && meets i false (fun _ => []) plain) = true := by decide +kernel

theorem test_issues_predicates : ([
    .pand ctl true false (p 1) (p 2) (p 7), .por ctl false false .pword .pword .pword, .pxor ctl false true (p 1) (p 2) (p 3),
    .pnot ctl false (p 1) (p 2), .pmov ctl false .pword (v 5), .pmov ctl false (v 5) .pword, .elect ctl true (p 1)] : List Instr).all
    (fun i => Instr.onSkein i && meets i false (fun _ => []) plain) = true := by decide +kernel

theorem test_issues_float : ([
    .fadd ctl .f32 .rne (v 4) (v 5) (.opnd (v 6)), .fadd ctl .f64 .rz (v 4) (v 6) (.wide 0x3FF000), .fsub ctl .f16x2 .rne (v 4) (v 5) (.opnd (v 6)),
    .fmul ctl .bf16 .rup (v 4) (v 5) (.opnd (v 6)), .ffma ctl .f32 .rdn (v 4) (v 5) (v 6) (v 7),
    .fmin ctl .f32 (v 4) (v 5) (.opnd (v 6)), .fmax ctl .f64 (v 4) (v 6) (.opnd (v 8)), .fminm ctl .f32 (v 4) (v 5) (.wide 1),
    .fmaxm ctl .f16 (v 4) (v 5) (.opnd (v 6)), .fcmp ctl .ltu .f32 (p 1) (v 5) (v 6), .fset ctl .num .f64 (v 4) (v 6) (v 8),
    .frnd ctl .f32 .rna true (v 4) (v 5), .fclass ctl .f64 (v 4) (v 6), .fscl ctl .f32 .rne (v 4) (v 5) (v 6),
    .fext ctl true .f64 (v 4) (v 6), .fext ctl false .f32 (v 4) (v 5), .cmul ctl .rne true (v 4) (v 6) (v 8),
    .cfma ctl .rne false (v 4) (v 6) (v 8) (v 10), .vdot2 ctl .f16x2 .rne (v 4) (v 5) (v 6) (v 7),
    .vdot4 ctl true false true (v 4) (v 5) (v 6) (v 7),
    .cvt ctl .i32 .f32 .rz (v 4) (v 5) none, .cvt ctl .f16 .f32 .rne (v 4) (v 5) (some (v 6)), .cvts ctl .e4m3 .f32 .rne (v 4) (v 5) (v 6),
    .srseed ctl (v 5), .srseed off0 (v 5), .packf ctl .e2m1 .rne true (v 4) (v 6) (v 8), .packf ctl .e4m3 .rne false (v 4) (v 6) (v 8),
    .unpkf ctl .e5m2 1 (v 4) (v 6), .welf ctl .rne (v 4) (v 8), .wmrg ctl .rne (v 4) (v 8),
    .bsinit ctl (v 8) (v 4) (some (v 6, 31)), .bsinit ctl (v 8) (v 4) none, .bsrd ctl true (v 4) (v 8) (.imm 5)] : List Instr).all
    (fun i => Instr.onSkein i && meets i false (fun _ => []) plain) = true := by decide +kernel

theorem test_issues_functions : ([
    .rcp ctl .f32 .rne (v 4) (v 5), .rsq ctl .f16 (v 4) (v 5), .sqrt ctl .f32 .rz (v 4) (v 5), .exp2 ctl .f32 (v 4) (v 5),
    .log2 ctl .f32 (v 4) (v 5), .sinp ctl .f32 (v 4) (v 5), .cosp ctl .f32 (v 4) (v 5), .tanh ctl .f32 (v 4) (v 5)] : List Instr).all
    (fun i => meets i true (fun _ => []) plain) = true := by decide +kernel

theorem test_issues_control : ([.nop ctl, .idmb ctl, .idmb off0, .yield ctl, .exit ctl, .idme ctl, .yield off0, .trap ctl 5, .brk ctl]
    : List Instr).all (fun i => meets i false (fun _ => []) plain) = true ∧
    meets (.yield off0) false (fun _ => []) (fun x => x.act == 0) = true ∧ meets (.trap off0 5) false (fun _ => []) (fun x => x.act == 0) = true ∧
    meets (.exit ctl) false (fun _ => []) (fun x => x.act != 0) = true ∧
    meets (.conv ctl) false (fun _ => []) (fun x => x.k.present &&& ~~~x.batch == 0 && x.k.gates == []) = true := by decide +kernel

theorem test_issues_transfers :
    let at' := fun (x : Iss) (_ : Nat) => x.pc + 4 * (0xFFFFFF : BitVec 24).signExtend 64
    meets (.bra ctl 0xFFFFFF) false (fun x => x.targetHits (at' x)) plain = true ∧
    meets (.call ctl 0xFFFFFF (v 4)) false (fun x => x.targetHits (at' x)) plain = true ∧
    ([.brx ctl (v 6), .callx ctl (v 4) (v 6), .ret ctl (v 6)] : List Instr).all (fun i =>
      meets i false (fun x => x.targetHits fun l => x.opA (v 6) true l) plain) = true ∧
    meets (.tret ctl (v 8)) false (fun x => x.tretHits (v 8)) (fun _ => true) = false := by decide +kernel

theorem test_issues_fibres : meets (.fnew ctl 4 (p 1) (v 5) (v 6)) false (fun _ => []) (fun x => !x.shuffling) = true ∧
    meetsIn { placed (.fnew ctl 4 (p 1) (v 5) (v 6)) with shuffles := [⟨0, 1, [lotKey 1 0 0]⟩] } (.fnew ctl 4 (p 1) (v 5) (v 6)) false
      (fun _ => []) Iss.shuffling = true ∧
    meets (.regrp ctl (v 5)) false Iss.regrpHits (fun _ => true) = true ∧
    (let s := placed (.nop ctl)
     match s.emptyLane (lotKey 1 0 0) with
     | some (q, l, k) => s.skein 0 q == some k && decide (l < k.lanes.length) && (s.newFibre (lotKey 1 0 0) 0x100000 5 .u 7).isSome
     | none => false) = true := by decide +kernel

theorem test_issues_cross_lane :
    let all := fun (i : Instr) (mask : Option (BitVec 6)) => meets i true (fun x => x.maskHits mask) fun x =>
      x.k.present &&& lanesWhere x.k.width (x.k.inMask mask) &&& ~~~x.batch == 0 &&
        x.k.gates.all fun g => g.pc != x.pc || (g.conv == false && g.mask == mask)
    meets (.part ctl (v 5)) false (fun _ => []) plain = true ∧ meets (.part off0 (v 5)) false (fun _ => []) plain = true ∧
    all (.vote ctl .every false false none (p 1) (p 2)) none = true ∧ all (.vote ctl .some false true none (p 1) (p 2)) none = true ∧
    all (.vote ctl .same false false none (p 1) (p 2)) none = true ∧ all (.vote ctl .bits true false none (v 4) (p 2)) none = true ∧
    all (.shfl ctl .flip false false 1 none (v 4) (v 5) (v 6)) none = true ∧ all (.mtch ctl true false none (p 1) (v 5)) none = true ∧
    all (.mtch ctl false true none (v 4) (v 6)) none = true ∧ all (.redux ctl .add .i64 none (v 4) (v 6)) none = true ∧
    all (.scan ctl .max .n32 true none (v 4) (v 5)) none = true := by decide +kernel

def twoWords : MemM := ⟨.n32, .x2, .plain, .sk, .page⟩
def ordered : MemM := ⟨.n32, .x1, .sc, .sys, .page⟩
def relaxed : MemM := ⟨.n32, .x1, .rlx, .quad, .page⟩

theorem test_issues_loads : ([.ld ctl twoWords 0 (v 4) (v 6), .ld ctl ordered 0 (v 4) (v 6), .ldc ctl twoWords 0 (v 4) (v 6),
      .ldl ctl twoWords 0 (v 4) (v 6), .lds ctl ordered 0 (v 4) (v 6), .lds ctl twoWords 0 (v 4) (v 6), .ldd ctl twoWords 0 (v 4) (v 6), .ldd ctl relaxed 0 (v 4) (v 6)]
      : List Instr).all (fun i => meets i true (own6 0 i) (ordinary .sys)) = true ∧
    meets (.btest ctl false 16 (p 1) (v 6) (v 8)) true (fun x => x.objHits false (v 6) 16) (ordinary .lot) = true := by decide +kernel

def loadFmt : Instr := .ldFmt ctl .nol1 0 (v 4) (v 6)

theorem test_issues_load_fmt : meets loadFmt true (Instr.hits loadFmt) (ordinary .sys) = true := by decide +kernel

theorem test_issues_atomics :
    let m : AtomM := ⟨.n32, .ar, .pkg⟩
    let own := fun (i : Instr) (x : Iss) => x.accessHits i fun acc => x.spaceAddr acc.sp (v 6) 0
    let all := fun (i : Instr) => meets i true (own i) (ordinary .pkg)
    all (.atom ctl m (v 4) (v 6) (.op2 .add (v 8) 0)) = true ∧ all (.atom ctl m (v 4) (v 6) (.cas (v 8) (v 9) 0)) = true ∧
    all (.atoms ctl ⟨.n32, .rlx, .lot⟩ false (v 4) (v 6) (.op2 .inc (v 8) 0)) = true ∧
    all (.atoms ctl ⟨.n64, .rlx, .lot⟩ false (v 4) (v 6) (.cas (v 8) (v 10) 0)) = true := by decide +kernel

theorem test_issues_stores :
    let m : MemM := ⟨.n32, .x4, .plain, .sk, .page⟩
    let r : MemM := ⟨.n32, .x1, .rel, .sys, .page⟩
    let own := fun (i : Instr) (x : Iss) => x.accessHits i fun acc => x.spaceAddr acc.sp (v 6) (sx24 16)
    let all := fun (i : Instr) => meets i false (own i) (ordinary .sys)
    all (.st ctl m 16 (v 6) (v 8)) = true ∧ all (.st ctl r 16 (v 6) (v 8)) = true ∧ all (.stl ctl m 16 (v 6) (v 8)) = true ∧
    all (.sts ctl m 16 (v 6) (v 8)) = true ∧ all (.std ctl m 16 (v 6) (v 8)) = true ∧
    meets (.st off0 m 16 (v 6) (v 8)) false (own (.st off0 m 16 (v 6) (v 8))) (fun x => x.act == 0) = true ∧
    all (.red ctl .add ⟨.n64, .rlx, .pkg⟩ 16 (v 6) (v 8)) = true ∧ all (.red ctl .add ⟨.f32, .rlx, .pkg⟩ 16 (v 6) (.imm 1)) = true ∧
    meets (.joinc ctl 16 (v 6) (v 8)) false (fun x => x.globalHits 2 (x.spaceAddr .g (v 6) (sx24 16))) (ordinary .pkg) = true ∧
    meets (.tladv ctl false 16 (v 6) (v 8)) false (fun x => x.globalHits 4 (x.spaceAddr .g (v 6) (sx24 16))) (ordinary .pkg) = true := by
  decide +kernel

theorem test_issues_ordering : ([.fence ctl .acq .lot, .fence ctl .rel .sys, .fence ctl .ar .pkg, .fence ctl .sc .sys,
      .cctl ctl .inv1 0 (v 6) (v 8), .pref ctl true 0 (v 6), .mon ctl true 0 (v 6), .mon ctl false 0 (v 6), .mwait ctl,
      .bar ctl .sk, .bar ctl .lot, .bar ctl .quad, .bar ctl .die, .nbar ctl 3 true, .nbar ctl 3 false] : List Instr).all
      (fun i => meets i false (fun _ => []) (ordinary .sys)) = true ∧
    meets (.cctl ctl .wbh 0 (v 6) (v 8)) true (fun _ => []) (ordinary .sys) = true ∧
    meets (.mon off0 true 0 (v 6)) false (fun _ => []) (fun x => x.low == none) = true ∧
    meets (.mwait off0) false (fun _ => []) (fun x => x.act == 0) = true := by decide +kernel

theorem test_issues_barrier_objects : ([.binit ctl false 16 (v 6) (v 8), .bexp ctl false 16 (v 6) (v 8), .barv ctl false 16 (v 6)]
      : List Instr).all (fun i => meets i false (fun x => x.objHits false (v 6) 16) fun x =>
        ordinary .lot x && x.objsClear (x.objects false (v 6) 16)) = true ∧
    meets (.bwait ctl false 16 (v 6) (v 8)) false (fun x => x.objHits false (v 6) 16) (fun x =>
      x.objsClear (x.objects false (v 6) 16) && x.act.getLsbD 0 && (x.objAt false (v 6) 16 0).isSome) = true := by decide +kernel

theorem test_issues_timelines :
    let own := fun (n : Nat) (x : Iss) => x.globalHits n (x.spaceAddr .g (v 6) (sx24 0))
    meets (.tlwt ctl false 0 (v 6) (v 8)) false (own 4) (ordinary .pkg) = true ∧
    meets (.tlrd ctl false 0 (v 4) (v 6)) true (own 4) (ordinary .pkg) = true ∧
    meets (.spawn ctl 0 (p 1) (v 6) (v 8)) true (own 7) (ordinary .pkg) = true ∧
    meets (.qsrch ctl 0 (v 6)) true (own 7) (ordinary .pkg) = true ∧ meets (.qstat ctl 0 (v 4) (v 6)) true (fun _ => []) (ordinary .pkg) = true := by
  decide +kernel

def intoTile : CpyX := ⟨0, false, false, false, 0⟩

/-- The causes of a copy with its block in v8..v15 and its timeline in v6:v7. -/
def copyHits (list : Bool) (x : Iss) : List Hit := x.producerHits ++ x.copyAlign (x.copyBlock (v 8)) (x.tlOf true (v 6)) list

def room (x : Iss) : Bool := x.lot.role == .single && decide (x.s.quadLoad x.c + (laneList x.act).length ≤ 64)

theorem test_issues_copies : meets (.cpy ctl .raw intoTile (v 6) (v 8)) false (copyHits false) room = true ∧
    meets (.cpyg ctl false intoTile (v 6) (v 8)) false (copyHits true) room = true ∧
    meets (.cpyUnz ctl (v 4) (v 6) (v 8)) false Iss.producerHits room = true ∧
    meets (.seal ctl) false Iss.producerHits (fun x => x.act != 0) = true ∧
    meets (.cpwt ctl (v 5)) false Iss.producerHits (fun x => x.low.isSome) = true := by decide +kernel

/-- An MMA of one k-step on FP16 operands in the scratchpad, with its block in v4..v7 and its strides in v8. -/
def mma1 : MmaX := ⟨.f16, 0, false, false, false, false, false, 0, none⟩

/-- One on E2M1 operands, of which A stands in global memory, where its page says how its rows are laid out. -/
def mmaE2m1 : MmaX := ⟨.e2m1, 0, true, false, false, false, false, 0, none⟩

def cpym0 : Instr := .cpym ctl intoTile (v 16) (v 6) (v 8)
/-- CPYM with the words of an MMA, whose bases stand in v4..v7, beside some other registers. -/
def carrying (m : MmaX) (vals : AMap Word) : State :=
  withRegs (placed cpym0) (vals ++ (encode (.mma ctl m (v 4) (v 24))).mapIdx fun n w => (16 + n, w))

theorem test_issues_cpym :
    meetsIn (carrying mma1 []) cpym0 false (fun x => copyHits false x ++ x.cpymHits (v 16)) (fun x =>
      room x && x.missing (x.cpymBases (v 16)) == []) = true ∧
    meetsIn (carrying mmaE2m1 [(4, 0x80000000)]) cpym0 false (fun x => copyHits false x ++ x.cpymHits (v 16)) (fun x =>
      x.missing (x.cpymBases (v 16)) != []) = true := by decide +kernel

/-- A SHAPE of a record of one dimension of 16 bytes at 0x4000. -/
def shape1 : State :=
  let s := withRegs (placed (.shape ctl 3 0 (v 6))) [(6, 0x4000)]
  { s with mem := memPut s.mem 0x4000 64 (2 ^ 432 + 16 * 2 ^ 352 + 16 * 2 ^ 64) }

/-- The premises on a SHAPE, and what is read of its record. -/
def shapes (s : State) (got : Iss → ShapeGot → Bool) : Bool :=
  meetsIn s (.shape ctl 3 0 (v 6)) false (Instr.hits (.shape ctl 3 0 (v 6))) fun x =>
    x.low == some 0 && x.lot.role == .single && x.s.skeinQuiet x.c x.q x.k.seq x.k.hb && decide (x.s.quadLoad x.c < 64) &&
      got x (x.s.shapeAt x.c x.part (x.spaceAddr .g (v 6) (sx24 0) 0))

/-- A record that can be read, one on a page without translation, whose fault has not been refused, and one that is poisoned. -/
theorem test_issues_shape :
    shapes shape1 (fun _ g => match g with | .ok _ => true | _ => false) = true ∧
    shapes (withRegs (placed (.shape ctl 3 0 (v 6))) [(6, 0x80000000)]) (fun x g => match g with
      | .wait a => a == 0x80000000 && (x.refused [a]).isNone
      | _ => false) = true ∧
    shapes { shape1 with poison := [0x400] } (fun _ g => match g with | .bad 0x3D a => a == 0x4000 | _ => false) = true := by
  decide +kernel

theorem test_issues_landing :
    ([v 8, .imm 1] : List Opnd).all (fun b =>
      meets (.land ctl .f32 0 (v 6) b) false (fun x => x.globalHits 2 (x.spaceAddr .g (v 6) (sx24 0))) (ordinary .pkg)) = true ∧
    meets (.landf ctl 0 (v 6)) false (fun x => x.globalHits 6 (x.spaceAddr .g (v 6) (sx24 0))) (fun x =>
      ordinary .pkg x && ordinary .pod x && laneList x.act == [0] && x.s.lands == [] && x.k.deferred == [] && !x.s.abroad x.part 0)
      = true := by decide +kernel

theorem test_issues_matrix : meets (.mzero ctl true 2) false (fun _ => []) (fun x => x.low.isSome) = true ∧
    meets (.mlda ctl false 1 1 (v 4) (v 8)) false (fun x => x.fragHits (v 8) false (fragCount 1)) (fun x => x.low.isSome) = true ∧
    meets (.mma ctl mma1 (v 4) (v 8)) false (fun x => match x.mmaDetail mma1 (x.mmaVals (v 4) (v 8) 0) with
      | some d => [⟨0x65, d, x.act, 0⟩]
      | none => []) (fun x => x.low == some 0 && x.missing (MmaX.bases mma1 (x.mmaVals (v 4) (v 8) 0)) == [] &&
        (x.refused (MmaX.bases mma1 (x.mmaVals (v 4) (v 8) 0))).isNone) = true ∧
    -- global operands of E2M1 whose first page has no translation
    meetsIn (withRegs (placed (.mma ctl mmaE2m1 (v 4) (v 8))) [(4, 0x80000000)]) (.mma ctl mmaE2m1 (v 4) (v 8)) false (fun _ => []) (fun x =>
      x.low == some 0 && x.missing (MmaX.bases mmaE2m1 (x.mmaVals (v 4) (v 8) 0)) == [0x80000000]) = true ∧
    meets (.msta ctl 1 1 (v 4) (v 8)) true (fun x => x.fragHits (v 8) true (fragCount 1)) (fun x => x.low.isSome) = true ∧
    meets (.mckpt ctl 1 (v 4) (v 8)) true
      (fun x => hitOn 0x67 255 (x.failing fun l => decide (16640 < (x.a32 (v 8) l).toNat)) fun _ => 0) (fun _ => true) = true ∧
    meets (.mbud ctl (v 4)) true (fun _ => []) (fun _ => true) = true := by decide +kernel

/-! ### Device events: states that meet the premises of the event obligations -/

/-- One lot of one fibre on core 0, in skein slot 0; its key; its skein. -/
def base : State := placed (.nop ctl)
def lot0 : Nat := lotKey 1 0 0
def skein0 : Skein := (base.skein 0 0).getD default
def withSkein (f : Skein → Skein) : State := base.setSkein 0 0 (f skein0)
def info0 : IssueInfo := { (default : IssueInfo) with pc := 0x100000, act := 1, batch := 1 }
/-- A pending load of one word at an address. -/
def pend0 (va : Nat) : Pending :=
  { (default : Pending) with seq := 5, i := .ld ctl ordered 0 (v 4) (v 6), info := info0, addrs := [BitVec.ofNat 64 va], left := 1 }
def waitsOn (w : Wait) (since : Nat) : Skein → Skein := fun k =>
  k.mapFibres 1 fun _ f => { f with wait := some ⟨w, 0x100000, since, 1, info0⟩ }

/-- A store of one word in lane 0 that its core has accepted. -/
def accepted : PStore :=
  { (default : PStore) with seq := 7, lot := lot0, i := .st ctl twoWords 0 (v 6) (v 8), info := info0, addrs := [0x4000], data := [5, 0], left := 1 }

/-- Two flipped bits of one word are an uncorrectable error, one is corrected and counted (R364). -/
theorem test_flipped_bits :
    (let i : Instr := .iadd ctl .n32 false (v 4) (v 5) (v 6)
     let s := (placed i).updSkein 0 0 fun k => { k with regs := [(2 * 5, .g (List.replicate 32 0))] }
     let hit := fun (b : Word) => (mkIss i (s.regError 0 0 5 0 b)).map fun x =>
       (x.eccHit.map fun h => (h.code, h.detail, h.aff), (x.scrub x.s).rd (eccCounter 0))
     hit 1 == some ([], 1) && hit 3 == some ([(0x14, 5, 1)], 0)) = true := by decide +kernel

theorem test_skein_events :
    (({ base with shuffles := [⟨0, 1, [lot0]⟩] } : State).shuffles.find? fun h => h.core == 0 && h.launch == 1).isSome = true ∧
    (({ withSkein (waitsOn (.bar .die true) 4) with tick := 100 } : State).skeins.all fun e => e.2.lanes.all fun o =>
      match o with | some f => decide (f.arrivedAt (· == .bar .die true) + 96 ≤ 100) | none => true) = true ∧
    (((withSkein fun k => { k with pend := [pend0 0] }).pendOf 0 0 5).map Pending.returned) = some false ∧
    Skein.mustTrap { skein0 with park := some (.raise default) } = true ∧
    (withSkein fun k => { k with relWait := some ⟨0x100000, .sys, 0, info0⟩ }).releaseReady 0 0 .sys = true ∧
    (let s : State := { withSkein (waitsOn .mwait 0) with tick := 2 ^ 31 }
     s.wdog 0 != 0 && ((s.skein 0 0).getD default).overdue 0x100000 (s.shuffles.any fun h => h.core == 0) s.tick (s.wdog 0) == 1) = true ∧
    (({ base with cores := [(0, { base.core 0 with iq := List.replicate 4 ⟨none, 0, [], none⟩ })] } : State).canIssue 0 0) = true := by
  decide +kernel

theorem test_core_and_fault_events :
    (base.lot lot0).resident = true ∧
    -- rows 0 to 3 pass, at once or from tick 9 on, while L1 holds a clean line, or a dirty one, in row 2
    (let u := fun (t : Nat) => { base.core 0 with hands := [(4, t)], l1 := [(0x4000 / 128, { (default : Line) with row := 2 })] }
     !(base.setCore 0 (u 0)).lineDirty 0 (0x4000 / 128) && (base.setCore 0 { u 0 with stores := [accepted] }).lineDirty 0 (0x4000 / 128) &&
       decide ((base.setCore 0 (u (base.tick + 9))).tick < base.tick + 9)) = true ∧
    (skein0.pcs.flatMap (skein0.fetchAhead 3)).contains 0x100000 = true ∧ skein0.had 0x100000 = [] ∧
    (base.wordAt 0 0 skein0 0x100000 0).isSome = true ∧
    (let s := fun va => withSkein fun k => { k with pend := [pend0 va] }
     let r : AccRef := .pend 0 0 5
     let look := fun va => match (s va).wants r with
       | [w] => !(s va).heldAt r w.va && match (s va).xlate ((s va).accUnit r) ((s va).accPart r) w.va w.write w.fetch with
         | .ok _ => decide (va = 0x40)
         | .bad .. => decide (va = 0x80000000)
       | _ => false
     look 0x40 && look 0x80000000 && decide ((s 0).faultLoad ((s 0).accDie r) < 4096)) = true ∧
    (({ base with faults := [{ (default : FaultEnt) with id := 7 }], tick := 2 ^ 31 } : State).faultBy 0 7).isSome = true ∧
    decide (base.wdog 0 ≠ 0 ∧ base.wdog 0 ≤ 2 ^ 31) = true := by decide +kernel

theorem test_link_events :
    -- a load of a far line is outstanding on hub 1, the expander's: not sent yet, sent just now, and sent at tick 0
    (let s : State := { withSkein fun k => { k with pend := [pend0 (2 ^ 30)] } with tick := 2 ^ 31 }
     let s := { s with mem := memPut s.mem 0x3008 8 (2 ^ 39 + 3) }
     let r : AccRef := .pend 0 0 5
     let found := fun (l : List (AccRef × List DWord × Nat)) =>
       l.find? fun e => e.1 == r && decide (s.accSince r ≤ e.2.2) && e.2.1.any (s.farOut r true).contains
     s.farOut r true == [0x40000000#64] && decide (s.linkTimeout true ≠ 0) && (found []).isNone &&
       (match found [(r, [0x40000000#64], 2 ^ 31)] with | some e => decide (s.tick < e.2.2 + s.linkTimeout true) | none => false) &&
       (match found [(r, [0x40000000#64], 0)] with | some e => decide (e.2.2 + s.linkTimeout true ≤ s.tick) | none => false)) = true ∧
    -- a window of 64 KiB, whose partition's fault ring is enabled, with its timeline's operations complete or one of them open
    (let s := (base.wr (windowBlock 3) (BitVec.ofNat 64 (2 ^ 32 + 2 ^ 36))).wr (partRegs 0 + 0x30) 1
     let pa := s.winTl 3
     let t : State := { s.setTl pa ⟨0, [1], [], 0⟩ with mem := memPut s.mem (pa + 8) 8 1 }
     s.winOn 3 && s.winSize 3 == 65536 && (pagesOf pa 16).all (fun p => !s.marked (65536 * p)) && (s.tlCtx pa).opn == [] &&
       decide (s.tlIssued pa + 1 < 2 ^ 64) && decide (65536 < markOffset) && s.fld (partRegs (s.winPart 3) + 0x30) 0 1 == 1 &&
       (t.tlCtx pa).opn == [1] && t.tlIssued pa == 1) = true ∧
    ((pagesOf 0x4000 16).all fun p => !base.marked (65536 * p)) = true ∧
    Memory.wf base.mem = true ∧
    -- a pod timeline whose home is module 5
    (let s : State := { base with podTls := [(0x4000, (0, 5, 0))] }
     match s.xlate 512 0 0x4000 true false with
     | .ok x => amGet s.podTls x.pa == some (0, 5, 0) && s.pkg != 5
     | .bad .. => false) = true := by decide +kernel

/-! #### Copies -/

/-- An MMA of one k-step, as it stands in the engine. -/
def cmd0 (kind : MKind) : MCmd :=
  { (default : MCmd) with lot := lot0, info := info0, kind, rowsA := [], rowsB := [] }
def mma0 : Mma := ⟨mma1, 1, 0, 0, 0, 0⟩

/-- A copy of 64 raw bytes into the scratchpad, and its shape: one dimension of 16 FP32 elements at 0x4000. -/
def shapeOf16 : Shape := ⟨BitVec.ofNat 512 (2 ^ 432 + 16 * 2 ^ 352 + 16 * 2 ^ 64 + 0x4000), ⟨1, 0⟩⟩
def copy0 : Copy :=
  { (default : Copy) with lot := lot0, i := .cpy ctl .raw ⟨0, false, false, false, 0⟩ (.imm 0) (v 8), info := info0, stage := .queued
                          block := [0, 0, 0, 0, 0, 0, 0xFFFFFFFF, 0], tile := some (lot0, 0) }
def withCopy (x : Copy) : State :=
  { (base.updLot lot0 fun l => { l with shapes := [(0, shapeOf16)] }) with copies := [(0, x)] }
def started : Copy := { copy0 with stage := .started, shape := some shapeOf16 }

theorem test_streamer_events :
    (let s := withCopy copy0
     amGet s.copies 0 == some copy0 && (s.lot lot0).resident && s.skeinQuiet (Copy.core s copy0) copy0.slot copy0.order copy0.info.hb &&
       !copy0.isShape && !copy0.isUnz && !copy0.gathers && s.copyTurn copy0 &&
       decide (((amVals s.copies).filter fun y => y.lot == copy0.lot && y.stage == .started).length < 8) &&
       (s.startCheck { copy0 with shape := some shapeOf16 }).isNone && (s.startCheck copy0).isSome &&
       (s.acceptTl (Copy.core s copy0) (Copy.part s copy0) 0x5000).isSome) = true ∧
    ({ copy0 with i := .shape ctl 0 0 (v 6) } : Copy).isShape = true ∧ ({ copy0 with i := .cpyUnz ctl (v 4) (v 6) (v 8) } : Copy).isUnz = true ∧
    -- a list of 16 coordinates in rows that are cleared
    (let y := { copy0 with i := .cpyg ctl false ⟨0, false, false, false, 0⟩ (.imm 0) (v 8), shape := some shapeOf16 }
     let s := withCopy y
     y.gathers && (s.startCheck y).isNone && (s.lot lot0).clearedAt 0 (4 * y.box (y.dims - 1)) &&
       !(s.lot lot0).poisoned 0 (4 * y.box (y.dims - 1))) = true ∧
    -- the last unit of a copy that carries an MMA
    (let y := { started with mma := some (cmd0 (.mma mma0)), units := List.range 15 }
     decide ((insNat y.units 15).length = y.unitCount) && (base.lot y.lot).resident) = true ∧
    (let s := withCopy started
     started.unitCount == 16 && (s.lot lot0).clearedAt 0 started.unit && ((s.copyReach started).any fun a => a.toNat / 65536 == 0) &&
       match s.xlate (Copy.core s started) (Copy.part s started) 0x4000 started.cx.dir false with
       | .ok _ => true
       | .bad .. => false) = true ∧
    ({ started with units := List.range 16 } : Copy).units.length = 16 ∧
    ({ copy0 with i := .cpyUnz ctl (v 4) (v 6) (v 8), stage := .started, head := [0, 0, 0, 0] } : Copy).unzOver = true := by decide +kernel

/-! #### Matrix commands -/

def withCmd (m : MCmd) : State := base.updCore 0 fun k => { k with cmds := [m] }

/-- A piece of a row of the operands of `mma0`, which stand in the scratchpad's first row. -/
theorem row_part (m : MCmd) (isA : Bool) (i o n : Nat) (hl : m.lot = lot0) (_ho : o < 192) (_ : n ≤ 192) :
    (withCmd m).rowPart (.mtx 0 m.entry) 0 m.lot mma0 isA ⟨3, 0⟩ 192 0 i o n = .ok (withCmd m, ((withCmd m).lot lot0).read o n) := by
  have hc : ((withCmd m).lot lot0).cleared = 448 := by rfl
  have hp : ((withCmd m).lot lot0).poison = [] := by rfl
  have hs : mma0.src isA = false := by cases isA <;> rfl
  have hb : (loOf (mma0.base isA)).toNat = 0 := by cases isA <;> rfl
  have ht : mma0.stride isA = 0 := by cases isA <;> rfl
  simp only [State.rowPart, hl, hs, hb, ht, Lot.clearedAt, Lot.poisoned, hc, hp]
  simp
  omega

/-- A piece of at most a row's rest joins what the engine has read of `mma0`. -/
theorem capture_piece (m : MCmd) (hl : m.lot = lot0) (_ : m.buf.length < 49152) (h4 : m.buf.length % 4 = 0) :
    ∃ n, 4 ≤ n ∧ m.buf.length % 192 + n ≤ 192 ∧
      let buf := m.buf ++ ((withCmd m).lot lot0).read (m.buf.length % 192) n
      (withCmd m).captureStep 0 m mma0 0 = some (withCmd m, if buf.length < 49152 then { m with buf := buf }
        else { m with rowsA := cutRows 192 128 buf, rowsB := cutRows 192 128 (buf.drop 24576), buf := [], fmt := 3 }) := by
  have hA : (withCmd m).operandFmt (.mtx 0 m.entry) 0 m.lot mma0 true = .ok (⟨3, 0⟩, false) := rfl
  have hB : (withCmd m).operandFmt (.mtx 0 m.entry) 0 m.lot mma0 false = .ok (⟨3, 0⟩, false) := rfl
  have hk : ∀ j, (if decide (j < 128 * 192) = true then j else j - 128 * 192) % 192 = j % 192 := by
    intro j
    simp only [decide_eq_true_eq]
    split <;> omega
  have hp := Nat.mod_lt (Config.pick (withCmd m).choices 8) (show 0 < (192 - m.buf.length % 192) / 4 by omega)
  refine ⟨4 * (1 + Config.pick (withCmd m).choices 8 % ((192 - m.buf.length % 192) / 4)), by omega, by omega, ?_⟩
  unfold State.captureStep
  simp only [hA, hB]
  rw [if_neg (by decide)]
  simp only [Bool.false_eq_true, if_false, ite_self, hk]
  rw [row_part _ _ _ _ _ hl (by omega) (by omega)]
  dsimp only
  split <;> rfl

theorem first_piece (m : MCmd) (hl : m.lot = lot0) (hb : m.bad = none) (hr : m.rowsA = []) (hn : m.buf = []) :
    ∃ t m', (withCmd m).captureStep 0 m mma0 0 = some (t, m') ∧ m'.bad = none ∧ m'.rowsA = [] := by
  obtain ⟨n, _, hle, h⟩ := capture_piece m hl (by simp [hn]) (by simp [hn])
  dsimp only at h
  rw [if_pos (by simp [Lot.read, memBytes_length, hn] at *; omega)] at h
  exact ⟨_, _, h, hb, hr⟩

theorem last_piece (m : MCmd) (hl : m.lot = lot0) (hb : m.bad = none) (hn : m.buf.length = 49148) :
    ∃ t m', (withCmd m).captureStep 0 m mma0 0 = some (t, m') ∧ m'.bad = none ∧ m'.rowsA ≠ [] := by
  obtain ⟨n, hpos, _, h⟩ := capture_piece m hl (by omega) (by omega)
  dsimp only at h
  rw [if_neg (by simp [Lot.read, memBytes_length, hn]; omega)] at h
  exact ⟨_, _, h, hb, by simp [cutRows]⟩

/-- The engine reads the next piece of the operands, and with the last piece the rows stand complete; an operand in a page of another
format is refused. -/
theorem test_operand_fetch :
    let m := cmd0 (.mma mma0)
    let last := { m with buf := List.replicate 49148 0 }
    (∃ t m', (withCmd m).captureStep 0 m mma0 0 = some (t, m') ∧ m'.bad = none ∧ m'.rowsA = []) ∧
    (∃ t m', (withCmd last).captureStep 0 last mma0 0 = some (t, m') ∧ m'.bad = none ∧ m'.rowsA ≠ []) ∧
    ∃ t m', (withCmd m).captureStep 0 m { mma0 with x := { mma1 with ag := true } } 0 = some (t, m') ∧ m'.bad ≠ none :=
  ⟨first_piece _ rfl rfl rfl rfl, last_piece _ rfl rfl List.length_replicate, ⟨_, _, rfl, Option.some_ne_none _⟩⟩

theorem test_matrix_events :
    ([.zero true, .lda false 3 1 1 [[7]], .sta 3 1 1 5, .mma mma0] : List MKind).all (fun kind =>
      ((withCmd (cmd0 kind)).core 0).cmd 0 == some (cmd0 kind) && ((withCmd (cmd0 kind)).core 0).eligible (cmd0 kind)) = true ∧
    (let s := withCmd (cmd0 (.mma mma0))
     s.skeinQuiet 0 0 0 0 && !s.fetchBehind 0 (cmd0 (.mma mma0)) && !modeBad ((s.core 0).tile 0) 3 &&
     ((s.refillCore 0).core 0).running.isNone && ((s.refillCore 0).core 0).choose == some (cmd0 (.mma mma0))) = true ∧
    (let m := { cmd0 (.mma mma0) with started := true, est := some 5, rowsA := [[0]], rowsB := [[0]], fmt := 3 }
     ((withCmd m).refillCore 0 |>.core 0).running == some m && !modeBad (((withCmd m).core 0).tile 0) 3 &&
       decide ((((withCmd m).core 0).tile 0).kdone < mma0.k) &&
       ((withCmd { m with charged := true }).core 0).running == some { m with charged := true }) = true ∧
    (let m := { cmd0 (.mma mma0) with started := true, est := some 5, rowsA := [[0]], rowsB := [[0]], fmt := 3, shortSince := some 0 }
     ((withCmd m).core 0).running == some m && m.est == some 5 && m.shortSince == some 0) = true ∧
    (({ base with tick := 512 } : State).core 0).refilled < 1 := by decide +kernel

/-! #### Search and landing -/

/-- A query packet of one entry point, one dimension and one neighbour, with its vector and its nodes in FP32 pages at 0x4000. -/
def packet : BitVec 1024 := BitVec.ofNat 1024 (0x4000 + 0x4100 * 2 ^ 64 + 0x4200 * 2 ^ 128 + 0x4300 * 2 ^ 192 + 16 * 2 ^ 352 + 2 ^ 528 + 2 ^ 544)
def query0 : Query := { (default : Query) with pkt := packet, info := info0, lot := lot0 }
/-- The base machine with its first GiB in FP32 pages. -/
def fp32Pages : State := { base with mem := memPut base.mem 0x3000 8 (3 + 2 ^ 54) }
def withQuery (x : Query) : State := { fp32Pages with queries := [(0, x)] }
def running0 : Query := { query0 with running := true, qfmt := 1, qvec := [0] }

theorem test_query_events :
    ({ query0 with pkt := 1 } : Query).packetBad = some 0 ∧
    -- a wrong field below 32, with a vector that can be read and one that cannot; one above 32, whose timeline block is known
    (let x := { query0 with pkt := packet ||| BitVec.ofNat 1024 (2 ^ 64) }
     let y := { x with lost := [0] }
     x.packetBad == some 8 && (match ((withQuery x).searchVec x false x.qvecVa).1 with | .ok .. => true | _ => false) &&
       match ((withQuery y).searchVec y false y.qvecVa).1 with | .bad .. => true | _ => false) = true ∧
    (let x := { query0 with pkt := packet ||| BitVec.ofNat 1024 (2 ^ 400) }
     x.packetBad.any (fun d => decide (32 < d)) && (withQuery x).queryTlBad x == some false &&
       match ((withQuery x).searchVec x false x.qvecVa).1 with | .ok .. => true | _ => false) = true ∧
    (let s := withQuery query0
     query0.packetBad.isNone && !s.queryBehind query0 && s.queryHome query0 == some 0 && query0.tline == 0 &&
       ((amVals s.queries).filter fun y => y.running && !y.fin && y.home == 0) == [] &&
       (match s.searchVec query0 false query0.qvecVa with | (.ok .., 1) => true | _ => false) &&
       match (s.searchVec { query0 with lost := [0] } false query0.qvecVa).1 with | .bad .. => true | _ => false) = true ∧
    (let x := { query0 with pkt := packet ||| BitVec.ofNat 1024 (0x5000 * 2 ^ 256) }
     x.packetBad.isNone && x.tline != 0 && !x.lost.contains (x.tline.toNat / 65536) && ((withQuery x).acceptTl 512 x.part x.tline).isSome)
      = true ∧
    (let x := { query0 with pkt := packet ||| BitVec.ofNat 1024 (0x50000 * 2 ^ 256), lost := [5] }
     x.packetBad.isNone && x.tline != 0 && x.lost.contains (x.tline.toNat / 65536) &&
       match (withQuery x).searchVec x false x.qvecVa with | (.ok .., 1) => true | _ => false) = true ∧
    (running0.vis.isEmpty && ((withQuery running0).score { running0 with vis := [0] } [0]).isSome) = true ∧
    (let x := { running0 with vis := [0], cand := [(0, 0, false)] }
     (x.cand.find? fun c => !c.2.2) == some (0, 0, false) && x.hops == 0 &&
       match (withQuery x).searchRead x true (x.listVa 0) 4 with
       | .ok t _ => (t.score x []).isSome
       | _ => false) = true ∧
    (let x := { running0 with vis := [0], cand := [(0, 0, false)], lost := [0] }
     match (withQuery x).searchRead x true (x.listVa 0) 4 with | .bad .. => true | _ => false) = true ∧
    ((withQuery running0).setFld statusWord 24 1 1).fenced running0.home = true := by decide +kernel

/-- A lake of 64 KiB of i32 elements at 0x10000 that expects one report; its descriptor at 0x5000. -/
def lake0 : Lake := ⟨0, 0x5000, 0x5000, BitVec.ofNat 512 (0x10000 + 0x10000 * 2 ^ 64 + 2 ^ 256 + 2 ^ 288 + 0xC * 2 ^ 320), [], true, false, [], false, 0⟩
def land0 : LandMsg := { (default : LandMsg) with info := info0, lot := lot0, va := 0x10040, ty := 0xC }
/-- The base machine, its first GiB in pages that belong to a lake. -/
def withLand (m : LandMsg) (lakes : List Lake) : State :=
  { base with mem := memPut base.mem 0x3000 8 (3 + 2 ^ 51), lands := [(0, m)], lakes }

theorem test_landing_events :
    (let s := withLand land0 [lake0]
     lake0.holds land0.va && !lake0.gone && !lake0.proxy && !s.heldAt (.land 0) land0.va &&
       match s.xlate 0 0 land0.va true false with
       | .ok x => x.land && !s.marked x.pa
       | .bad .. => false) = true ∧
    ((withLand land0 []).lakes.find? fun l => l.part == 0 && l.holds land0.va && !l.gone) = none ∧
    -- a report, counted now or before, with and without a held contribution, and a proxy lake
    (let m := { land0 with report := true, va := 0x5000, late := some (0, false) }
     let h : Held := ⟨0x40, 1, [0], 0, 0, none⟩
     lake0.count + 1 == lake0.expect && !(withLand m [lake0]).heldAt (.land 0) lake0.closeVa &&
       (lake0.held.find? fun h => h.round == lake0.round).isNone && ([h].find? fun h => h.round == lake0.round) == some h &&
       (match (withLand m [lake0]).xlate 512 0 lake0.tline true false with
         | .ok x => ((withLand m [lake0]).writeCause 0 x.pa 16).isNone
         | .bad .. => false) && Lake.proxy { lake0 with desc := lake0.desc ||| BitVec.ofNat 512 (2 ^ 437) }) = true := by decide +kernel

/-! #### Queues and launches -/

/-- Queue 0 on, with one record, of a zero timeline, that its hub has still to accept. -/
def queue0 : State :=
  let s := base.wr (queueBlock 0) 0x8000
  let s := s.setFld (queueBlock 0 + 8) 0 1 1
  { (s.setFld (queueBlock 0 + 24) 32 32 1) with queues := [(0, default)] }

theorem test_queue_events :
    queue0.qDev 0 = false ∧ (queue0.nextRecord 0).isSome = true ∧ ((queue0.nextRecord 0).map fun e => recTline e.2) = some 0 ∧
    (let s := { queue0 with mem := memPut queue0.mem (0x8000 + 64) 8 0x5000 }
     match s.nextRecord 0 with
     | some (_, r) => recTline r == 0x5000 && (match s.xlate hubUnit 0 0x5000 true false with
       | .ok x => (s.writeCause 0 x.pa 16).isNone && (s.readCause 0 x.pa 16).isNone && ({ s with poison := [0x500] }.readCause 0 x.pa 16).isSome
       | .bad .. => false)
     | none => false) = true ∧
    (let s : State := { queue0 with queues := [(0, { (default : QueueX) with accepted := 1, ready := true, readyAt := some 0 })] }
     (s.unmarked 0).isNone && (s.headRecord 0).isSome && s.headReady 0 && s.age 0 != 0 &&
       match s.headRecord 0 with
       | some (n, r) => s.recordCauses 0 0 n r none == [0x80] && decide (s.recordCauses 0 0 n r (some (2 ^ 299)) = [])
       | none => false) = true ∧
    (let e : Spawn := ⟨3, 0, 0, 5, 0, 1, 0, 0⟩
     let s : State := { withSkein fun k => { k with pend := [pend0 0] } with spawns := [e] }
     let s := (s.setFld (queueBlock 1 + 8) 0 1 1).setFld (queueBlock 1 + 8) 19 1 1
     s.qOn 1 && s.qDev 1 && !s.qFull 1 && (s.pendOf 0 0 5).isSome && (s.push e 0).2) = true := by decide +kernel

/-- A launch of one lot that no core has taken, with a window of 8 registers, in queue 0; its chunk at die 0. -/
def launch2 : Launch :=
  { placedLaunch with crec := 0x100000, next := 0, chunks := [⟨0, 0, 1, 0, 0, false⟩], kdesc := 0 }
def flying (ln : Launch) : State :=
  { base with launches := amPut base.launches 2 ln, launchSeq := 2, queues := [(0, { (default : QueueX) with flying := [2], accepted := 1 })] }

/-- A launch whose start waits for its region list. -/
theorem test_unmarked :
    (let s : State := { flying { launch2 with list := some false, level := none } with queues := [(0, { (default : QueueX) with flying := [2] })] }
     s.unmarked 0 == some 2 && (s.headRecord 0).isNone) = true := by decide +kernel

theorem test_dispatch_events :
    (let s := flying launch2
     s.dieOpen 0 (s.partOfDie 0) && (s.cands 0).all (fun e => (s.launch e.2).vatSize == 0) &&
       match s.draw 0 with
       | (t, some (0, 2)) => (t.launch 2).nextUnit == some (.fresh 0) && (t.placeNext 0 2).isSome
       | _ => false) = true ∧
    (let s := flying { launch2 with chunks := [] }
     let ln := s.launch 2
     s.dieOpen 0 ln.part && decide (ln.uncovered < ln.total) && s.front ln.q == some 2 && (s.fitLot 1 2 (s.estimateOf ln)).isSome &&
       (ln.takeBlocks (ln.unitLots ln.uncovered)).isSome) = true ∧
    (let n := lotKey 2 0 0
     let old : Lot := { placedLot with launch := 2, rows := 0 }
     let s := flying { launch2 with recs := [(true, n, 0)], next := 1, chunks := [] }
     let s : State := { s with saved := [(n, { (default : Saved) with lot := old, skeins := [(0, { skein0 with lot := n, window := 8 })], shared := [n] })] }
     match s.draw 0 with
     | (t, some (0, 2)) => (t.launch 2).nextUnit == some (.resume n) && (t.placeNext 0 2).isSome
     | _ => false) = true ∧
    (let s : State := { (base.updLot lot0 fun l => { l with status := .waiting, rows := 0 }) with tick := 192 }
     (s.lot lot0).status == .waiting && decide (max (s.lot lot0).dispatched (s.launch 1).acq + 192 ≤ s.tick)) = true ∧
    (let s : State := { base with skeins := [] }
     (s.lot lot0).resident && s.retireUnit lot0 == [lot0] && s.lotDone lot0) = true := by decide +kernel

theorem test_launch_events :
    (let s := fun (f : Launch → Launch) => ({ base with lots := [], skeins := [] } : State).updLaunch 1 f
     let bad := fun (ln : Launch) => { ln with failed := some 0x30, flags := 4, snapOk := true }
     (s id).writesDone 1 && (s id).drained 1 &&
       (((s fun ln => { ln with chunks := [⟨0, 0, 1, 1, 1, true⟩] }).launch 1).reportedLots == placedLaunch.total) &&
       !(((s fun ln => { ln with failed := some 0x30 }).launch 1).rollbackable) && ((s bad).launch 1).rollbackable &&
       !noRollback 0x30 && !Launch.barred (s bad) 1 ((s bad).launch 1) && (s bad).snapReadable ((s bad).launch 1) &&
       !((s fun ln => { bad ln with snapOk := false }).launch 1).snapOk &&
       !Launch.barred (s fun ln => { bad ln with snapOk := false }) 1 ((s fun ln => { bad ln with snapOk := false }).launch 1) &&
       Launch.barred (s fun ln => { bad ln with noReplay := true }) 1 ((s fun ln => { bad ln with noReplay := true }).launch 1)) = true := by
  decide +kernel

/-- A redundant pair on cores 0 and 8: the leading lot with its skein in slot 0, the trailing one likewise. -/
def lot1 : Nat := lotKey 1 1 0
def pair0 (f g : Lot → Lot) : State :=
  let s := base.updLot lot0 fun l => f { l with role := .leading, partner := some lot1 }
  let s := s.setLot lot1 (g { placedLot with role := .trailing, partner := some lot0, core := 8 })
  s.setSkein 8 0 { skein0 with lot := lot1 }
def buffered : CmpEntry :=
  { (default : CmpEntry) with i := .st ctl ordered 0 (v 6) (v 8), addrs := [0x4000], data := [7, 0], mask := 1, info := info0 }

theorem test_redundant_events :
    (let s := pair0 id id
     (s.pairSkein lot0 0).isSome && (s.pairSkein lot1 0).isSome && (s.lot lot0).resident && (s.lot lot1).resident &&
       (pair0 (fun l => { l with ckDue := [0] }) id).ckptReady lot0) = true ∧
    (let s := pair0 (fun l => { l with cmp := [buffered] }) fun l => { l with cmp := [buffered] }
     ((s.lot lot0).cmp.find? fun e => e.lotSkein == 0) == some buffered && buffered.agrees buffered) = true ∧
    -- both skeins stand at an EXIT, after as many instructions
    (let two := fun (n : Nat) => (placed (.exit ctl)).updLot lot0 (fun l => { l with role := .leading, partner := some lot1 })
       |>.setLot lot1 { placedLot with role := .trailing, partner := some lot0, core := 8 } |>.setSkein 8 0 { skein0 with lot := lot1, retired := n }
     let at' := fun (n c : Nat) => ((two n).skein c 0).bind ((two n).atPoint c 0)
     (match at' 0 0, at' 0 8 with | some i, some j => pointsAgree i j | _, _ => false) &&
       match at' 1 0, at' 1 8 with | some i, some j => !pointsAgree i j | _, _ => false) = true ∧
    (let s := (pair0 id id).wr (injectWord 0) 1
     (match s.flipSkein 0 with
       | some (_, k) => k.window == 256 && decide (s.fld (injectWord 0) 12 8 < k.window) && k.live.getLsbD (s.fld (injectWord 0) 7 5)
       | none => false)) = true := by decide +kernel

/-- Queue 0 holds a bounded launch that cannot start for want of a local block, while the cores stand free. -/
def blocked : State := flying { launch2 with crec := 0x100000 + 1000 * 2 ^ 704, kdesc := 2 ^ 320, blocks := [(9, 0)], started := 1000 }
def acted (st : LotStatus) (a : Option Action) : State :=
  { (base.updLot lot0 fun l => { l with status := st, act := a, freeAt := some 5 }) with tick := 10 }

theorem test_preemption_events :
    (blocked.dieOpen 0 0 && blocked.mordantHead 0 == some 2 &&
      (blocked.freeCores 0 2 (blocked.estimateOf (blocked.launch 2)) (blocked.launch 2).deadline).length == 1) = true ∧
    (let s := acted .running (some .drain)
     (s.lot lot0).resident && (s.lot lot0).act == some .drain && (s.lot lot0).freeAt == some 5 && s.reserves == [] &&
       !s.rebuilding (s.lot lot0).die && (s.updDie 0 fun d => { d with rebuild := true }).rebuilding 0) = true ∧
    (let s := acted .flushing (some .flush)
     s.unitOf lot0 == [lot0] && s.quiet lot0 && (s.launch 1).vatSize == 0) = true ∧
    (let s := acted .running (some .save)
     s.unitOf lot0 == [lot0] && (s.lot lot0).status == .running) = true ∧
    (let s := (acted .saving (some .save)).setSkein 0 0 { skein0 with cur := none }
     s.unitOf lot0 == [lot0] && (s.skeins.all fun e => e.2.atRest) && (s.stopMma lot0).saveReady lot0 &&
       !((s.stopMma lot0).die 0).stopped) = true ∧
    ((acted .saving (some .save)).updCore 0 fun k => { k with stores := [{ (default : PStore) with lot := lot0 }] }).saveReady lot0 = false := by
  decide +kernel

theorem test_partition_and_register_events :
    (base.partOn 0 && !base.partOn 1 && base.enableRefused 1 2 &&
      (let s := (State.reset.setFld statusWord 0 1 1).setFld statusWord 16 8 3
       !s.enableRefused 1 2 && !s.partOn 1 && !(s.setFld stopWord 8 1 1).enableRefused 1 2 && (s.setFld stopWord 8 1 1).stopped) &&
      !base.fenced 0 && !base.stopped) = true ∧
    (let s := (base.wr stopWord 1).wr (stopWord + 8) 0
     s.fld stopWord 0 1 == 1 && decide ((s.rd (stopWord + 8)).toNat ≤ s.tick)) = true ∧
    (replyPart (partRegs 0) = none ∧ tailQueue (partRegs 0) = none ∧ partRegs 0 % 8 = 0 ∧ partRegs 0 < 2 * hub1) ∧
    (let s := base.updCore 0 fun k => { k with samples := [⟨3, 0, 0x100000, 0x4000, 5, none⟩] }
     ((s.core 0).samples.find? fun m => !s.sampleOut 0 m).isSome) = true ∧
    ((base.updCore 0 fun k => { k with due := [⟨64, 0, 1, 0x100000⟩] }).core 0).due = [⟨64, 0, 1, 0x100000⟩] ∧
    (let d : Dump := { (default : Dump) with image := [1, 2, 3] }
     let s : State := { base.wr (dumpBlock 0) 0x10000 with dumps := [d] }
     (s.dumps.find? fun d => d.part == 0) == some d && decide (64 + (s.dumpBody d 0x10000).length ≤ 1048576 * s.fld (dumpBlock 0) 16 8)) = true ∧
    ones (3 : BitVec 32) = 2 ∧ ones (3 : BitVec 128) = 2 ∧ (base.core 0).tiles.length = 4 := by decide +kernel

/-- A command at the head of partition 0's ring at 0x6000: its OP and its arguments. -/
def ring (op : Nat) (args : List Nat) : State :=
  let s := (base.wr (partBlock 0 + 56) 0x6000).setFld (partBlock 0 + 48) 32 32 1
  { s with mem := memPut (memPut s.mem 0x6000 1 op) 0x6008 (8 * args.length) (args.foldr (fun a n => a + n * 2 ^ 64) 0) }
/-- The head's command is this one with these arguments. -/
def asks (s : State) (op : Nat) (args : List Nat) : Bool :=
  s.cmdOp 0 == some op && (List.range args.length).all fun i => s.cmdArg 0 i == (args[i]?).getD 0

theorem test_ring_commands :
    (asks (ring 0x7F []) 0x7F [] && asks (ring 1 [0x4000, 0x100]) 1 [0x4000, 0x100] && !(ring 1 [0x4000, 0x100]).oldUses 0 0x4000 0x100 &&
      ((ring 1 [0x4000, 0x100]).updCore 0 fun k => { k with prefs := [(128, (true, false))] }).oldUses 0 0x4000 0x100) = true ∧
    (let s := ring 1 []
     let pa := s.cmdTl 0
     let t : State := { s.setTl pa ⟨0, [1], [], 0⟩ with mem := memPut s.mem (pa + 8) 8 1 }
     Memory.wf s.mem && s.cmdSlot 0 == some 0x6000 && decide (pa + 16 ≤ 0x6004) &&
       (pagesOf 0x6004 4 ++ pagesOf pa 16).all (fun p => !s.marked (65536 * p)) && (s.tlCtx pa).opn == [] &&
       decide (s.tlIssued pa + 1 < 2 ^ 64) && (t.tlCtx pa).opn == [1] && t.tlIssued pa == 1) = true ∧
    (let s := ring 2 [0x5000]
     let s := { s with mem := memPut s.mem 0x5000 64 lake0.desc.toNat }
     asks s 2 [0x5000] && (s.hubWritable 0 0x5000 64).isSome && (match s.getVirtual hubUnit 0 0x5000 64 with
       | some bs => !badLake (BitVec.ofNat 512 (leNat bs))
       | none => false) && !modeDet (s.partMode 0)) = true ∧
    (let s : State := { ring 3 [0x5000] with lakes := [lake0] }
     asks s 3 [0x5000] && (s.lakes.find? fun l => l.part == 0 && l.va == 0x5000).isSome) = true ∧
    (let s := ring 4 [0x5000, 5, 0x7000]
     asks s 4 [0x5000, 5, 0x7000] && (s.hubWritable 0 0x5000 16).isSome) = true ∧
    (let s : State := { ring 6 [0x100000, 1] with objects := [(0, 0x100000, 64)] }
     asks s 6 [0x100000, 1] && (s.objects.find? fun o => o.1 == 0 && o.2.1 == 0x100000).isSome && s.lotsIn (0, 0x100000, 64) == [lot0]) = true ∧
    (let s := (ring 0x21 [0x100000, 0]).updLaunch 1 fun l => { l with privPages := [(16, 0x200000)] }
     asks s 0x21 [0x100000, 0] && s.launchAt 0 0 == some 1 && amGet (s.launch 1).privPages 16 == some 0x200000 &&
       (match s.xlate hubUnit 0 0x100000 false true with | .ok x => (s.privPage 1 16 x.pa).isSome | .bad .. => false)) = true ∧
    (let s := ring 0x12 [0]
     asks s 0x12 [0] && (s.partDies 0).testBit 0 && !s.fenced 0 && !(s.die 0).stopped && !(ring 0x11 [1]).fenced 1) = true ∧
    (let s := (ring 0x11 [1]).setFld (partBlock 0) 0 8 3
     asks s 0x11 [1] && (s.partDies 0).testBit 1) = true := by decide +kernel

/-- A code object of an empty header and table, its SIGOFF at 256, as a file in memory. -/
def object0 : List Byte :=
  leBytes 0x4F564F31 4 ++ leBytes 1 4 ++ leBytes 256 8 ++ leBytes 0 48 ++ (List.range 6).flatMap fun i => leBytes i 32

theorem test_code_object : goodObject object0 = true ∧ partNat object0 8 8 = 256 ∧
    (let s := { ring 5 [0x7000, 0x9000] with mem := memStore (ring 5 [0x7000, 0x9000]).mem 0x7000 object0 }
     asks s 5 [0x7000, 0x9000] && (match s.signedFile 0 0x7000 with | .got (f, _) => f == object0 | _ => false) &&
       (match s.uploadTl 0 0 with | .got none => true | _ => false) &&
       (match s.sectionBytes 0 object0 0 with | .got ([], false) => true | _ => false) &&
       match s.writeSections 0 0x9000 object0 [0, 1, 2, 3] with | (_, .got 0) => true | _ => false) = true := by decide +kernel

/-- A compressed section that a bad token ends leaves its upload with the code of R388. -/
theorem test_bad_stream : expand [] 64 0 8 [0x10, 7, 5, 0] [] = ([7], true) ∧ expand [] 64 0 8 [0x10, 7, 1, 0] [] = ([7, 7, 7, 7, 7], false) := by
  decide +kernel

/-! ### Premises of single clauses -/

def illFormed : Instr := .iadd ctl .i64 false (v 4) (v 5) (v 8)

/-- A cause met with nothing pending, with a result pending, and with a store of the core to the frame still to be performed; and a
misaligned load, whose cause is its own. -/
theorem test_precise_cause :
    (let meetsCause := fun (s : State) (i : Instr) (pre : Iss → Bool → Bool) => match mkIss i s with
      | some x => (x.cause (Instr.long i) (Instr.hits i x)).isSome && !x.mustCompare i && !x.logging &&
          (let k := { x.k with park := some (.raise (x.causeOf ⟨7, 26, 1, 0⟩)), relWait := none }
           pre x ((s.setSkein x.c x.q k).frameBusy x.c x.q k false))
      | none => false
     let s := placed illFormed
     let load : Instr := .ld ctl ordered 0 (v 4) (v 6)
     meetsCause s illFormed (fun x busy => x.k.pend == [] && x.k.deferred == [] && !busy) &&
       meetsCause (s.updSkein 0 0 fun k => { k with pend := [pend0 0] }) illFormed (fun x _ => x.k.pend != []) &&
       meetsCause (s.updCore 0 fun u => { u with stores := [{ accepted with addrs := [s.frameVa 0 0 0] }] }) illFormed
         (fun x busy => x.k.deferred == [] && busy) &&
       meetsCause (withRegs (placed load) [(6, 2)]) load (fun x busy => x.k.pend == [] && x.k.deferred == [] && !busy)) = true := by
  decide +kernel

/-- A fence after a load that is still to be performed, with and without an order. -/
theorem test_acquire_waits :
    ([(relaxed, true), (twoWords, false)] : List (MemM × Bool)).all (fun e =>
      meetsIn (((placed (.fence ctl .acq .lot)).skein 0 0).elim base fun k =>
          (placed (.fence ctl .acq .lot)).setSkein 0 0 { k with pend := [{ pend0 0x4000 with i := .ld ctl e.1 0 (v 4) (v 6) }] })
        (.fence ctl .acq .lot) false (fun _ => []) fun x => x.act != 0 && x.k.pend.any Pending.reads == e.2) = true := by decide +kernel

theorem test_prefetch_fill :
    (let s := base.updCore 0 fun k => { k with prefs := [(128, (true, false))] }
     amGet (s.core 0).prefs 128 == some (true, false) && s.wholeLine (s.partOfDie 0) 128) = true := by decide +kernel

theorem test_release_waits :
    meetsIn ((placed (.fence ctl .rel .sys)).updCore 0 fun k => { k with stores := [{ (default : PStore) with lot := lot0 }] })
      (.fence ctl .rel .sys) false (fun _ => []) (fun x => x.act != 0 && !x.s.releaseReady x.c x.q .sys) = true := by decide +kernel

theorem test_watches :
    ([true, false] : List Bool).all (fun hit =>
      meetsIn ((placed (.mwait ctl)).setSkein 0 0 { ((placed (.mwait ctl)).skein 0 0).getD default with watch := some ⟨true, lot0, 0, 0, hit⟩ })
        (.mwait ctl) false (fun _ => []) fun x => x.act != 0 && x.k.watch == some ⟨true, lot0, 0, 0, hit⟩) = true ∧
    meetsIn (withRegs (placed (.mon ctl false 0 (v 6))) [(6, 0x80000000)]) (.mon ctl false 0 (v 6)) false (fun _ => []) (fun x =>
      match x.s.xlate x.c x.part (x.spaceAddr .g (v 6) (sx24 0) 0) false false with | .bad .. => x.low == some 0 | .ok _ => false) = true ∧
    meets (.pref ctl true 0 (v 6)) false (fun _ => []) (fun x => laneList x.act == [0] && x.lot.role == .single &&
      match x.s.xlate x.c x.part 0 false false with
      | .ok t => t.cache == 0 && (x.s.readCause x.part t.pa 128).isNone
      | .bad .. => false) = true := by decide +kernel

/-- A store of 8 bytes, which has no halves, and one of 16 whose first half has been written; that a first half is written by itself rests
on a free choice. -/
theorem test_scratch_store_ready :
    meets (.std ctl twoWords 16 (v 6) (v 8)) false (own6 16 (.std ctl twoWords 16 (v 6) (v 8))) (fun x =>
      x.s.dieLot (x.k.laneLot 0) 16 == some lot0 && (x.s.lot lot0).clearedAt 16 8 && !(x.s.lot lot0).clobbers 16 8 &&
        (accessOf (.std ctl twoWords 16 (v 6) (v 8))).any fun a => !x.halfFirst a) = true ∧
    (let i : Instr := .sts ctl ⟨.n32, .x4, .plain, .sk, .page⟩ 16 (v 6) (v 8)
     meetsIn ((placed i).updSkein 0 0 fun k => { k with halfSt := 1 }) i false (own6 16 i) fun x =>
       (x.s.lot lot0).clearedAt 16 16 && (accessOf i).any fun a => a.size == 16 && !x.halfFirst a) = true := by
  decide +kernel

theorem test_barrier_phase : (barObjTest (BitVec.ofNat 128 (2 ^ 64 + 2 ^ 80))).1.getLsbD 96 = true ∧
    (barObjTest (BitVec.ofNat 128 (2 ^ 80))).1 = BitVec.ofNat 128 (2 ^ 80) := by decide +kernel

/-- A cause whose frame goes to 0x20_0000 and whose handler stands at 0x30_0000: a deferred one, and that of an encoding. -/
def cause0 : Cause := { (default : Cause) with info := { info0 with words := 0 :: encode illFormed }, code := 0x30, aff := 1, deferred := true }
def cause7 : Cause := { cause0 with code := 7, deferred := false }
def twin0 : Skein := { skein0 with twin := true, lanes := skein0.lanes ++ skein0.lanes }
def trapping : State :=
  let s := base.wr (partBlock 0 + 96) 0x100000
  { s with mem := memPut (memPut s.mem (0x100000 + 8 * 7) 8 0x300001) (0x100000 + 8 * 0x30) 8 0x300001, tlb := [⟨0, 0, 0, 2, 3⟩] }

/-- A frame stored at a physical address. -/
def put (s : State) (pa : Nat) (bs : List Byte) : State := (s.homeStore 0 pa true bs none).l1Store 0 pa bs

theorem put_virtual {s : State} {va : DWord} {pa : Nat} {bs : List Byte} (hx : s.xlate 0 0 va true false = .ok ⟨pa, 3, 2⟩)
    (hc : s.writeCause 0 pa bs.length = none) : s.putVirtual 0 0 va bs = some (put s pa bs) := by
  have hs : s.storeAt 0 ⟨pa, 3, 2⟩ true bs none = s.homeStore 0 pa true bs none := by
    have hp : (⟨pa, 3, 2⟩ : Xl).peer = false := by simp [Xl.peer]
    have hn : (true && (⟨pa, 3, 2⟩ : Xl).cache != 2) = true := by
      have hl : (3 : DWord).getLsbD 61 = false ∧ (3 : DWord).getLsbD 51 = false ∧ fieldOf (3 : DWord) 52 2 = 0 := by decide
      simp only [Xl.cache, Xl.peer, Xl.land, hl.1, hl.2.1, hl.2.2]
      rfl
    simp only [State.storeAt, hp, hn, Bool.false_eq_true, if_false]
  unfold State.putVirtual
  rw [hx]
  simp only [hc, hs, Option.isSome_none, Bool.false_eq_true, if_false]
  rfl

theorem put_mem {s : State} {pa p : Nat} {bs : List Byte} (hg : pagesOf pa bs.length = [p]) (hu : s.marked (65536 * p) = false) :
    (put s pa bs).mem = memStore s.mem pa bs := by
  have hp : s.snapPages pa bs.length = s := by
    simp only [State.snapPages, hg, List.foldl_cons, List.foldl_nil, hu, Bool.false_eq_true, if_false]
  rw [put, State.l1Store_mem, State.homeStore_mem, hp]

/-- What lies below a frame stays. -/
theorem below_kept {m : Memory} {pa a : Nat} {bs : List Byte} (hw : Memory.wf m = true) (ha : a + 8 ≤ pa) :
    memNat (memStore m pa bs) a 8 = memNat m a 8 := by
  refine memNat_congr 8 a ?_
  intro b _ h
  rw [memRead_memStore _ _ _ hw, if_neg (by omega)]

/-- The machine that delivers a cause of a skein, its frame, and the machine once the frame, of a twin both halves, stands in memory. -/
def delivering (k : Skein) : State := trapping.setSkein 0 0 { k with park := none, deferred := [] }
def frameOf (k : Skein) (z : Cause) (h : Nat) : List Byte := frameBytes k ((delivering k).reread 0 0 k z) 0 h trapping.tick
def framed (k : Skein) (z : Cause) : State := put (delivering k) 0x200000 (frameOf k z 0)
def framedTwin (k : Skein) (z : Cause) : State := put (framed k z) 0x202000 (frameOf k z 1)

/-- The entry of a cause in the table can be read. -/
def entryRead (u : State) (code : Nat) : Bool :=
  match u.xlate 0 0 (u.trapTab 0 + BitVec.ofNat 64 (8 * code)) false false with
  | .ok e => e.pa == 0x100000 + 8 * code && (u.readCause 0 e.pa 8).isNone
  | .bad .. => false

def trapped (k : Skein) (z : Cause) : Bool :=
  k.trap.isNone && !escalated z.code && z.info.batch &&& k.live != 0 && z.info.words.length == 4

theorem test_trap_delivery :
    ((trapping.skein 0 0 == some skein0) = true ∧ trapped skein0 cause0 = true ∧ trapped skein0 cause7 = true ∧ trapped twin0 cause7 = true) ∧
    ((delivering skein0).putVirtual 0 0 (trapping.frameVa 0 0 0) (frameOf skein0 cause0 0) = some (framed skein0 cause0) ∧
      entryRead (framed skein0 cause0) 0x30 = true ∧ memNat (framed skein0 cause0).mem 0x100180 8 = 0x300001) ∧
    ((delivering skein0).putVirtual 0 0 (trapping.frameVa 0 0 0) (frameOf skein0 cause7 0) = some (framed skein0 cause7) ∧
      entryRead (framed skein0 cause7) 7 = true ∧ memNat (framed skein0 cause7).mem 0x100038 8 = 0x300001) ∧
    ((delivering twin0).putVirtual 0 0 (trapping.frameVa 0 0 0) (frameOf twin0 cause7 0) = some (framed twin0 cause7) ∧
      (framed twin0 cause7).putVirtual 0 0 (trapping.frameVa 0 0 0 + 8192) (frameOf twin0 cause7 1) = some (framedTwin twin0 cause7) ∧
      entryRead (framedTwin twin0 cause7) 7 = true ∧ memNat (framedTwin twin0 cause7).mem 0x100038 8 = 0x300001) := by
  have hw0 : Memory.wf (delivering skein0).mem = true := by decide +kernel
  have hw1 : Memory.wf (delivering twin0).mem = true := by decide +kernel
  have hm0 : (framed skein0 cause0).mem = memStore (delivering skein0).mem 0x200000 (frameOf skein0 cause0 0) :=
    put_mem (p := 32) (by decide +kernel) (by decide +kernel)
  have hm1 : (framed skein0 cause7).mem = memStore (delivering skein0).mem 0x200000 (frameOf skein0 cause7 0) :=
    put_mem (p := 32) (by decide +kernel) (by decide +kernel)
  have hm2 : (framed twin0 cause7).mem = memStore (delivering twin0).mem 0x200000 (frameOf twin0 cause7 0) :=
    put_mem (p := 32) (by decide +kernel) (by decide +kernel)
  have hm3 : (framedTwin twin0 cause7).mem = memStore (framed twin0 cause7).mem 0x202000 (frameOf twin0 cause7 1) :=
    put_mem (p := 32) (by decide +kernel) (by decide +kernel)
  refine ⟨by decide +kernel, ⟨put_virtual (by decide +kernel) (by decide +kernel), by decide +kernel, ?_⟩,
    ⟨put_virtual (by decide +kernel) (by decide +kernel), by decide +kernel, ?_⟩,
    put_virtual (by decide +kernel) (by decide +kernel), put_virtual (by decide +kernel) (by decide +kernel), by decide +kernel, ?_⟩
  · rw [hm0, below_kept hw0 (by omega)]
    decide +kernel
  · rw [hm1, below_kept hw0 (by omega)]
    decide +kernel
  · rw [hm3, below_kept (hm2 ▸ memStore_wf _ _ hw1) (by omega), hm2, below_kept hw1 (by omega)]
    decide +kernel

def handler0 : TrapCtx := { (default : TrapCtx) with batch := 1, act := 1, aff := 1, frame := 0x200000, cause := 0x30 }

theorem test_trap_return :
    meetsIn ((placed (.tret ctl (v 8))).setSkein 0 0 { ((placed (.tret ctl (v 8))).skein 0 0).getD default with trap := some handler0 })
      (.tret ctl (v 8)) false (fun x => x.tretHits (v 8)) (fun _ => true) = true ∧
    -- no write-back, and one of two vector registers, two scalars and the predicates
    (let s := withSkein fun k => { waitsOn (.tret 0x100040) 0 k with trap := some handler0 }
     let returns := fun (status : Nat) (takes : Nat → Bool) =>
       let t : State := { s with mem := memPut s.mem 0x200020 8 status }
       (match t.skein 0 0 with
         | some k => k.trap == some handler0 && k.park.isNone && !k.twin && !t.frameBusy 0 0 k true && handler0.batch &&& k.live != 0 &&
             (match k.fibre 0 with | some f => f.susp.isNone && f.atTret | none => false)
         | none => false) &&
         match t.getVirtual 0 0 handler0.frame 2048 with
         | some f => takes (partNat f 32 8)
         | none => false
     let fields := fun (n : Nat) => (n / 2 ^ 24 % 2, n / 2 ^ 11 % 4, n / 2 ^ 13 % 8, n / 2 ^ 16 % 256)
     handler0.later == [] && handler0.tl == [] && returns 0 (fun n => fields n == (0, 0, 0, 0)) &&
       returns (2 ^ 24 + 2 ^ 11 + 2 * 2 ^ 13 + 4 * 2 ^ 16) (fun n => fields n == (1, 1, 2, 4)) &&
       returns (2 ^ 24 + 2 * 2 ^ 11 + 2 * 2 ^ 13 + 62 * 2 ^ 16) (fun n => fields n == (1, 2, 2, 62)) &&
       returns (2 ^ 24 + 3 * 2 ^ 11 + 2 ^ 13) (fun n => fields n == (1, 3, 1, 0))) = true := by decide +kernel

theorem test_store_ack :
    (let s := base.updCore 0 fun k => { k with stores := [accepted] }
     ((s.core 0).stores.find? fun p => p.seq == 7) == some accepted && !s.storeBlocked 0 accepted 0 && !s.checked accepted.lot &&
       (match s.xlate 0 0 0x4000 true false with
        | .ok e => !s.marked e.pa && (s.writeCause 0 e.pa 8).isNone
        | .bad .. => false) && !s.debugWatch (s.launch 1) 0x4000 8 && skein0.trap.isNone) = true := by decide +kernel

/-- One of 16 bytes: either half goes first, and both can be written. -/
theorem test_store_halves :
    (let p : PStore := { accepted with i := .st ctl ⟨.n32, .x4, .plain, .sk, .page⟩ 0 (v 6) (v 8) }
     let s := base.updCore 0 fun k => { k with stores := [p] }
     ((s.core 0).stores.find? fun p => p.seq == 7) == some p && !s.checked p.lot && p.causes == [] && (s.skein 0 p.slot).isSome &&
       ([0x4000, 0x4008] : List DWord).all (fun va => match s.xlate 0 0 va true false with
        | .ok e => !s.marked e.pa && (s.writeCause 0 e.pa 8).isNone
        | .bad .. => false) && !s.debugWatch (s.launch 1) 0x4000 16 && skein0.relWait.isNone) = true := by decide +kernel

/-- The fault of the fetch at a skein's PC has been refused. -/
theorem test_refused_fetch :
    (let s := withSkein fun k => { k with noFetch := [(0x100000, some (0x100000, 0x30, 0))] }
     s.grant == .issue 0 0 && !s.stopped && s.issuable 0 0 && match s.skein 0 0 with
       | some k => k.cur == some 0x100000 && (k.noFetch.find? fun e => e.1 == 0x100000).bind Prod.snd == some (0x100000, 0x30, 0)
       | none => false) = true := by decide +kernel

theorem test_step_premises :
    (let s := base
     s.grant == .issue 0 0 && !s.stopped && s.skein 0 0 == some skein0 && s.issuable 0 0 && skein0.cur == some 0x100000 &&
       match s.fetch 0 0 skein0 0x100000 with
       | .words [w0, w1, w2, w3] => (match decodeWords w0 w1 w2 w3 with | .ok i _ => i.wf && i == .nop ctl | .bad .. => false)
       | _ => false) = true ∧
    ((.mmaStart 0 : Instr).isIsa = false ∧ isExternal (.mmaStart 0) = false ∧ isExternal .tickStop = false ∧ isExternal .moduleReset = true ∧
      eventOk (.mmaStart 0) = true ∧ eventOk (.mmaStart 512) = false) := by
  decide +kernel

/-- The step of the module right after reset, with no input, and what both invariants say of the state before it. -/
theorem test_reset_steps : State.reset.MemOk ∧ State.reset.ScratchOk ∧ step State.reset = .next State.reset.settle :=
  ⟨⟨by decide, by decide⟩, fun _ => by rfl, rfl⟩

/-- One step of an IADD gives a next state. -/
theorem test_step_answers :
    (match step (placed (.iadd ctl .i32 false (v 4) (v 5) (v 6))) with | .next _ => true | _ => false) = true := by decide +kernel

/-! ### Results of one step -/

/-- Lane 0 of v4 after an instruction on v5 and v6. -/
def result (i : Instr) (a b : Word) : Option Word :=
  match exec i (withRegs (placed i) [(5, a), (6, b)]) with
  | .next t => (t.skein 0 0).map fun k => k.vlane 4 0
  | _ => none

theorem test_iadd_wraps : result (.iadd ctl .i32 false (v 4) (v 5) (v 6)) 0x7FFFFFFF 1 = some 0x80000000 := by decide +kernel
theorem test_iadd_saturates : result (.iadd ctl .i32 true (v 4) (v 5) (v 6)) 0x7FFFFFFF 1 = some 0x7FFFFFFF := by decide +kernel
theorem test_shl_of_width : result (.shl ctl .n32 (v 4) (v 5) (v 6)) 0xFFFFFFFF 32 = some 0 := by decide +kernel
theorem test_sar_of_width : result (.sar ctl .i32 (v 4) (v 5) (v 6)) 0x80000000 40 = some 0xFFFFFFFF := by decide +kernel
theorem test_fadd_rounds_to_even : result (.fadd ctl .f32 .rne (v 4) (v 5) (.opnd (v 6))) 0x3F800000 0x33800000 = some 0x3F800000 := by
  decide +kernel
theorem test_movih_keeps_low_half : result (.movih ctl 0x1234 (v 4) (v 5)) 0xAAAABBBB 0 = some 0x1234BBBB := by decide +kernel

/-- A ring with RECALIBRATE_STACK of stack 1 at its head, with a page table that maps nothing. -/
def recal : State :=
  let s := ((State.reset.wr (partBlock 0) 0x103).wr (partBlock 0 + 56) 0x6000).setFld (partBlock 0 + 48) 32 32 1
  { s with mem := [(0x6000, 0x11), (0x6008, 1)] }

theorem test_stack_unused : asks recal 0x11 [1] = true ∧ (recal.partDies 0).testBit 1 = true ∧ recal.stackUsed 0 1 = false := by
  refine ⟨by decide +kernel, by decide +kernel, ?_⟩
  have hr : recal.root 0 = 0 := by decide +kernel
  have hm : recal.mem = [(0x6000, 0x11), (0x6008, 1)] := rfl
  have ht : recal.tlb = [] := rfl
  have hl : recal.lakes = [] := rfl
  have h0 : ∀ a, a < 0x6000 → memRead recal.mem a = 0 := by
    intro a ha
    rw [hm]
    simp only [memRead]
    rw [if_neg (by omega), if_neg (by omega)]
  have hn : ∀ n a, a + n < 0x6000 → memNat recal.mem a n = 0 := by
    intro n
    induction n with
    | zero => intro a _; rfl
    | succ n ih =>
      intro a h
      have := ih (a + 1) (by omega)
      simp only [memNat] at this
      simp only [memNat, memBytes, leNat, h0 a (by omega), this]
      rfl
  unfold State.stackUsed
  rw [hr, ht, hl]
  simp only [List.any_nil, Bool.or_false, mapsStack, List.any_eq_false, List.mem_range, Nat.zero_add]
  intro i hi
  have hi : i < 512 := by simpa using hi
  rw [hn 8 (8 * i) (by omega)]
  simp

/-! ### Signatures (R323) -/

/-- RFC 8032, 7.1, TEST 1: the key and the signature of no bytes. -/
def rfcKey : List Byte := (leBytes 0xd75a980182b10ab7d54bfed3c964073a0ee172f3daa62325af021a68f707511a 32).reverse
def rfcSig : List Byte :=
  (leBytes 0xe5564300c360ac729086e2cc806e828a84877f1eb8e5d974d873e065224901555fb8821590a33bacc61e39701cf9b46bd25bf5f0595bbe24655141438e7a100b
    64).reverse

theorem test_ed25519_rfc8032 : ed25519 rfcKey [] rfcSig = true := by decide +kernel

end Sys2Proof.Tests
end

section
/-! SUPPORT. Little-endian memory and code (R4): what `memPut` leaves byte by byte, and the words and bytes of an instruction. -/

namespace Sys2Proof.Machine

theorem leBytes_get_zero {n : Nat} (x : Nat) (h : 0 < n) : (leBytes x n)[0]? = some (BitVec.ofNat 8 x) := by
  cases n with
  | zero => exact absurd h (Nat.lt_irrefl 0)
  | succ n => rfl

/-- The least significant byte of a number lies at its address. -/
theorem memRead_memPut_first {m : Memory} (a x : Nat) {n : Nat} (hm : Memory.wf m = true) (h : 0 < n) :
    memRead (memPut m a n x) a = BitVec.ofNat 8 x := by
  rw [memPut, memRead_memStore a _ a hm, leBytes_length, if_pos (by omega), Nat.sub_self, leBytes_get_zero x h, Option.getD_some]

/-- A number leaves every byte outside its own. -/
theorem memRead_memPut_outside {m : Memory} {a b n : Nat} (x : Nat) (hm : Memory.wf m = true) (h : b < a ∨ a + n ≤ b) :
    memRead (memPut m a n x) b = memRead m b := by
  rw [memPut, memRead_memStore a _ b hm, leBytes_length, if_neg (by omega)]

/-- A number that fits in its bytes reads back whole. -/
theorem memNat_memPut_of_lt {m : Memory} (a : Nat) {n x : Nat} (hm : Memory.wf m = true) (h : x < 2 ^ (8 * n)) :
    memNat (memPut m a n x) a n = x := by
  rw [memNat_memPut a n x hm, Nat.mod_eq_of_lt]
  rwa [pow_mul] at h

/-- The words of an instruction that has an encoding: the optional word, then the instruction from bit 0 on. -/
theorem encode_of_toFields {i : Instr} {f : Fields} (h : i.toFields = some f) :
    encode i = (match f.pfx with | none => [] | some p => [p.pack]) ++ wordsOf f.pack := by
  rw [encode, h]
  cases hp : f.pfx <;> simp [hp]

theorem extract_byte (w : Word) (i : Nat) : w.extractLsb' i 8 = BitVec.ofNat 8 (w.toNat / 2 ^ i) := by
  rw [BitVec.extractLsb', Nat.shiftRight_eq_div_pow]

theorem bytesOfWords_singleton (w : Word) : bytesOfWords [w] = leBytes w.toNat 4 := by
  simp only [bytesOfWords, leBytes, extract_byte, Nat.div_div_eq_div_mul]
  norm_num

end Sys2Proof.Machine

open Sys2Proof Sys2Proof.Machine

/-- Settles O5: a store of a number is the store of its bytes, lowest first, and the encoder cuts an instruction from bit 0 on. -/
theorem littleEndian : Obligations.LittleEndian := by
  unfold Obligations.LittleEndian
  refine ⟨fun m a n x hm hx => ⟨memNat_memPut_of_lt a hm hx, memRead_memPut_first a x hm, fun b hb => ?_⟩, fun i f hf => ?_,
    bytesOfWords_singleton⟩
  · exact memRead_memPut_outside x hm hb
  · exact encode_of_toFields hf

end

section
/-! SUPPORT. What a fixed-latency instruction leaves of its skein whatever it writes, and what its issue leaves of the machine
(R8, R55, R132). -/

namespace Sys2Proof.Machine

/-! ### The account of a skein -/

/-- What the end of an issue reads of a skein beside its results: the lot that it counts for, the instructions that it has retired, and
whether a boundary is forced on it. -/
def Skein.account (k : Skein) : Nat × Nat × Bool := (k.lot, k.retired, k.forced)

@[simp] theorem Skein.supersede_account (k : Skein) (d : Dst) (m : Lanes) : (k.supersede d m).account = k.account := rfl

@[simp] theorem Skein.mapFibres_account (k : Skein) (m : Lanes) (f : Nat → Fibre → Fibre) : (k.mapFibres m f).account = k.account := rfl

@[simp] theorem Skein.fflags_account (k : Skein) (v : BitVec 5) : ({ k with fflags := v } : Skein).account = k.account := rfl

@[simp] theorem Skein.gens_account (k : Skein) (v : AMap Word) : ({ k with gens := v } : Skein).account = k.account := rfl

@[simp] theorem Skein.mend_account (k : Skein) (v : Nat) (m : Lanes) : (k.mend v m).account = k.account := by
  rw [Skein.mend_eta]
  rfl

@[simp] theorem Skein.writeFixed_account (k : Skein) (v : Nat) (m z : Lanes) (t : Nat → TagR) (f : Nat → Word) :
    (k.writeFixed v m z t f).account = k.account := by
  obtain ⟨R, h⟩ := k.writeFixed_eta v m z t f
  rw [h]
  rfl

@[simp] theorem Skein.writeClassed_account (k : Skein) (v : Nat) (m : Lanes) (f : Nat → Word) :
    (k.writeClassed v m f).account = k.account := by
  obtain ⟨R, h⟩ := k.writeClassed_eta v m f
  rw [h]
  rfl

@[simp] theorem Skein.writeScalar_account (k : Skein) (n : Nat) (m : Lanes) (f : Nat → Word) :
    (k.writeScalar n m f).account = k.account := by
  unfold Skein.writeScalar
  split <;> rfl

@[simp] theorem Skein.writePred_account (k : Skein) (p : Nat) (m : Lanes) (f : Nat → Bool) : (k.writePred p m f).account = k.account := by
  unfold Skein.writePred
  split
  · rfl
  · simp

/-! ### Results leave the account -/

@[simp] theorem Iss.put_account (x : Iss) (k : Skein) (d : Dst) (t : Nat → TagR) (f : Nat → Word) :
    (x.put k d t f).account = k.account := by
  cases d <;> simp [Iss.put, Skein.writePWord]

@[simp] theorem Iss.putClassed_account (x : Iss) (k : Skein) (d : Dst) (f : Nat → Word) : (x.putClassed k d f).account = k.account := by
  cases d <;> simp [Iss.putClassed]

@[simp] theorem Iss.put64_account (x : Iss) (k : Skein) (d : Dst) (f : Nat → DWord) : (x.put64 k d f).account = k.account := by
  simp [Iss.put64]

@[simp] theorem Iss.putT_account (x : Iss) (t : ITy) (sat : Bool) (d : Opnd) (lin u : Nat → TagR) (f : Nat → DWord) :
    (x.putT t sat d lin u f).account = x.k.account := by
  unfold Iss.putT
  split <;> simp

@[simp] theorem Iss.putPred_account (x : Iss) (k : Skein) (d : Opnd) (f : Nat → Bool) : (x.putPred k d f).account = k.account := by
  unfold Iss.putPred
  split <;> simp

@[simp] theorem Iss.putBits_account (x : Iss) (d : Opnd) (f : Nat → BitVec 7) : (x.putBits d f).account = x.k.account := by
  unfold Iss.putBits
  split <;> simp

@[simp] theorem Iss.putF_account (x : Iss) (wide : Bool) (d : Opnd) (t : Nat → TagR) (f : Nat → DWord × FFlags) :
    (x.putF wide d t f).account = x.k.account := by
  cases wide <;> simp [Iss.putF]

@[simp] theorem Iss.bits1_account (x : Iss) (t : ITy) (wide : Bool) (f : DWord → DWord) (d a : Opnd) :
    (x.bits1 t wide f d a).account = x.k.account := by
  cases wide <;> simp [Iss.bits1]

@[simp] theorem Iss.unpackNarrow_account (x : Iss) (t : Fmt) (q : BitVec 2) (d a : Opnd) :
    (x.unpackNarrow t q d a).account = x.k.account := x.putF_account ..

@[simp] theorem Iss.fpCmpPred_account (x : Iss) (cc : FCond) (t : FTy) (d a b : Opnd) :
    (x.fpCmpPred cc t d a b).account = x.k.account := by
  simp [Iss.fpCmpPred]

@[simp] theorem Iss.fpS_account (x : Iss) (t : FTy) (d a : Opnd) (b : FSrc) (f : Nat → Nat → Nat × FFlags) :
    (x.fpS t d a b f).account = x.k.account := by
  cases b <;> simp [Iss.fpS, Iss.fp1, Iss.fp2]

@[simp] theorem Iss.putTriple_account (x : Iss) (d a : Opnd) (n : Nat) (f : Nat → Triple3) :
    (x.putTriple d a n f).account = x.k.account := by
  unfold Iss.putTriple
  split
  · simp
  · rfl

@[simp] theorem Iss.converting_account (x : Iss) (m : RMode) (n : Nat) (wide : Bool) (d : Opnd) (t : Nat → TagR)
    (f : Nat → (Nat → Nat) → DWord × FFlags) : (x.converting m n wide d t f).account = x.k.account := by
  unfold Iss.converting
  dsimp only
  split <;> simp

@[simp] theorem Iss.convert_account (x : Iss) (df sf : Fmt) (m : RMode) (d a : Opnd) (b : Option Opnd) :
    (x.convert df sf m d a b).account = x.k.account := by
  cases b <;> simp [Iss.convert]

@[simp] theorem Iss.initStream_account (x : Iss) (d a : Opnd) (w : Option (Opnd × BitVec 5)) :
    (x.initStream d a w).account = x.k.account := by
  unfold Iss.initStream
  split
  · cases w <;> simp
  · rfl

@[simp] theorem Iss.readBits_account (x : Iss) (signed : Bool) (d a b : Opnd) : (x.readBits signed d a b).account = x.k.account := by
  unfold Iss.readBits
  split <;> simp

/-! ### Skein-level reads and writes leave the account -/

@[simp] theorem Iss.setPart_account (x : Iss) (k : Skein) (n : Nat) : (x.setPart k n).account = k.account := rfl

@[simp] theorem Iss.seed_account (x : Iss) (a : Opnd) : (x.seed a).account = x.k.account := by
  unfold Iss.seed
  split <;> rfl

@[simp] theorem Iss.setIndex_account (x : Iss) (tgt : Bool) (a : Opnd) : (x.setIndex tgt a).account = x.k.account := by
  unfold Iss.setIndex
  split <;> rfl

@[simp] theorem Iss.readTag_account (x : Iss) (d a : Opnd) : (x.readTag d a).account = x.k.account := by
  unfold Iss.readTag
  split <;> simp

@[simp] theorem Iss.readSpecial_account (x : Iss) (t : ITy) (d a : Opnd) : (x.readSpecial t d a).account = x.k.account := by
  unfold Iss.readSpecial
  split
  · dsimp only
    split
    · simp
    · split <;> simp
  · rfl

@[simp] theorem Iss.writeSpecial_account (x : Iss) (d a : Opnd) : (x.writeSpecial d a).account = x.k.account := by
  unfold Iss.writeSpecial
  split
  · dsimp only
    split <;> rfl
  · rfl

/-- Every instruction of straight-line code issues with a change of its skein alone, which leaves the account. -/
theorem exec_issueFixed {i : Instr} (h : Instr.onSkein i = true) :
    ∃ f : Iss → Skein, (∀ s, exec i s = issueFixed i s f) ∧ ∀ x, (f x).account = x.k.account := by
  cases i with
  | idmb c => exact ⟨_, fun _ => rfl, fun x => by split <;> rfl⟩
  | part c a => exact ⟨_, fun _ => rfl, fun x => by split <;> rfl⟩
  | fext c sig t d a => exact ⟨_, fun _ => rfl, fun x => by cases sig <;> simp [Iss.fp1, Iss.fpWord]⟩
  | _ => first
    | exact absurd h Bool.false_ne_true
    | exact ⟨_, fun _ => rfl, fun x => by
        simp [Iss.int2, Iss.int1, Iss.bits2, Iss.bits3, Iss.addCarry, Iss.mulAdd, Iss.mulAddWide, Iss.shift,
          Iss.insertField, Iss.choose, Iss.fp1, Iss.fusedMulAdd, Iss.fpWord, Iss.scale, Iss.dot2, Iss.dot4, Iss.convertScaled,
          Iss.packNarrow]⟩

/-! ### The end of a straight-line instruction -/

theorem Skein.movePass_eta (k : Skein) (pc pc' : DWord) : k.movePass pc pc' = { k with passes := (k.movePass pc pc').passes } := by
  unfold Skein.movePass
  split <;> rfl

/-- A selection changes the current batch only. -/
theorem Skein.reselect_eta (k : Skein) : k.reselect = { k with cur := k.reselect.cur } := by
  unfold Skein.reselect
  split
  · split <;> rfl
  · rfl

/-- The batch's move to the fall-through PC changes the fibres, the current batch, its passes and its gates. -/
theorem Iss.advance_eta (x : Iss) (k : Skein) : ∃ ps gs, x.advance k =
    { k.mapFibres x.batch fun _ f => { f with pc := x.fall } with cur := some x.fall, passes := ps, gates := gs } := by
  unfold Iss.advance
  rw [Skein.movePass_eta]
  exact ⟨_, _, rfl⟩

/-- The fibres of the batch stand at the fall-through PC, the others where they stood (R24, R132). -/
theorem Iss.fibre_advance (x : Iss) (k : Skein) (l : Nat) : (x.advance k).fibre l =
    (k.fibre l).map fun f => if x.batch.getLsbD l then { f with pc := x.fall } else f := by
  obtain ⟨ps, gs, h⟩ := x.advance_eta k
  rw [h]
  exact k.fibre_mapFibres x.batch _ l

/-- An update of a lot changes the lots only. -/
theorem State.updLot_eta (s : State) (n : Nat) (f : Lot → Lot) : s.updLot n f = { s with lots := (s.updLot n f).lots } := by
  unfold State.updLot
  split <;> rfl

/-- A straight-line instruction changes its skein, the count of its lot and its issue slot, and nothing else. -/
theorem Iss.skeinOnly_onlySkein {x : Iss} (h : x.Plain) {k : Skein} (hk : k.account = x.k.account) :
    x.OnlySkein k (x.skeinOnly k) := by
  obtain ⟨hlot, -, hforced⟩ : k.lot = x.k.lot ∧ k.retired = x.k.retired ∧ k.forced = x.k.forced := by
    simpa [Skein.account] using hk
  obtain ⟨ps, gs, hadv⟩ := x.advance_eta k
  have hlot' : (x.advance k).lot = k.lot := by rw [hadv]; rfl
  have hforced' : (x.advance k).forced = k.forced := by rw [hadv]; rfl
  obtain ⟨k', wrote, ht, hcontent, hretired, hlanes⟩ :=
    Iss.finish_plain h (x.advance k) (hlot'.trans hlot) (hforced'.trans hforced)
  rw [hlot'] at ht
  rw [Iss.skeinOnly, ht]
  constructor
  case skein =>
    refine ⟨k'.reselect, ?_, ?_, ?_, fun l => ?_⟩
    · simp [State.skein, State.setSkein]
    · rw [Skein.reselect_eta]
      exact hcontent.trans (by rw [hadv]; rfl)
    · rw [Skein.reselect_eta]
      exact hretired.trans (by rw [hadv]; rfl)
    · rw [← x.fibre_advance k l, Skein.reselect_eta, Skein.fibre, Skein.fibre, ← hlanes]
  case others =>
    intro n hn
    simp [State.setSkein, amGet_amPut_other _ _ hn]
  case lot => exact State.lot_updLot ..
  case lots => exact fun n hn => State.lots_updLot _ _ _ _ hn
  case core =>
    rw [State.core_updCore]
    simp [State.core]
  case cores =>
    intro n hn
    rw [State.cores_updCore _ _ _ _ hn]
    simp
  case rest =>
    rw [State.updLot_eta]
    rfl

/-- A skein that has retired an instruction has not been turned away. -/
theorem Iss.tried_of_retired {x : Iss} {t : State} {k : Skein} (h : t.skein x.c x.q = some k) (hr : k.retired ≠ x.k.retired) :
    x.tried t = t := by
  simp [Iss.tried, h, hr]

/-- The whole issue of a straight-line instruction in a lot that stands alone. -/
theorem Iss.after_skeinOnly {x : Iss} (hp : x.Plain) (ha : x.Alone) (i : Instr) {k : Skein} (hk : k.account = x.k.account) :
    x.after i (x.skeinOnly k) = x.skeinOnly k := by
  obtain ⟨k', hk', -, hr, -⟩ := (Iss.skeinOnly_onlySkein hp hk).skein
  have hr' : k.retired = x.k.retired := congrArg (fun a => a.2.1) hk
  rw [Iss.after_alone ha]
  exact Iss.tried_of_retired hk' (by omega)

/-- What changes the issuing skein alone leaves both memories. -/
theorem Iss.OnlySkein.memories {x : Iss} {k : Skein} {t : State} (h : x.OnlySkein k t) : t.mem = x.s.mem ∧ t.far = x.s.far :=
  ⟨(congrArg State.mem h.rest :), (congrArg State.far h.rest :)⟩

theorem mkIss_state {i : Instr} {s : State} {x : Iss} (h : mkIss i s = some x) : x.s = s := by
  obtain ⟨-, -, -, -, hx⟩ := mkIss_eq h
  exact congrArg Iss.s hx

end Sys2Proof.Machine

open Sys2Proof Sys2Proof.Machine

/-- Settles O13: the effect of a straight-line instruction leaves its skein's account, so no boundary follows, and the end of its issue
touches the skein, the lot's count and the issue slot alone. -/
theorem skeinFrame : Obligations.SkeinFrame := by
  unfold Obligations.SkeinFrame
  intro i s x hi hx hp ha
  obtain ⟨f, hexec, hacc⟩ := exec_issueFixed hi
  have honly := Iss.skeinOnly_onlySkein hp (hacc x)
  obtain ⟨hmem, hfar⟩ := honly.memories
  have hs := mkIss_state hx.sees
  refine ⟨f x, x.skeinOnly (f x), ?_, honly, fun a => ?_, fun a => ?_⟩
  · rw [hexec, issueFixed_next hx, Iss.after_skeinOnly hp ha i (hacc x)]
  · rw [hmem, hs]
  · rw [hfar, hs]

end

section
/-! SUPPORT. The control instructions that change batches alone (R22, R24, R167, R168, R174). -/

namespace Sys2Proof.Machine

/-- What the issue sees of its skein and its batch. -/
theorem mkIss_batch {i : Instr} {s : State} {x : Iss} (h : mkIss i s = some x) : x.batch = x.k.at x.pc := by
  obtain ⟨-, -, -, -, hx⟩ := mkIss_eq h
  rw [hx]
  rfl

/-- A change of the fibres of no lane changes nothing. -/
@[simp] theorem Skein.mapFibres_zero (k : Skein) (f : Nat → Fibre → Fibre) : k.mapFibres 0 f = k := by
  have hid : (k.lanes.mapIdx fun l o => if (0 : Lanes).getLsbD l then o.map (f l) else o) = k.lanes := by simp [List.mapIdx_eq_iff]
  rw [Skein.mapFibres, hid]

/-- An instruction answers its effect, once that is known from the condition. -/
theorem Answers.of_issue {i : Instr} {ll : Bool} {own : Iss → List Hit} {pre : Iss → Prop} {f eff : Iss → State}
    (hexec : ∀ s, exec i s = issue i s ll own f) (heq : ∀ x, pre x → f x = eff x) : Answers i ll own pre eff := by
  intro s x hx hp
  rw [hexec, issue_next (own := own) hx, heq x hp]

/-! ### Gates -/

/-- Opening a gate changes the gates alone. -/
theorem Skein.openGate_eta (k : Skein) (pc : DWord) (conv : Bool) (mask : Option (BitVec 6)) (tick : Nat) (info : IssueInfo) :
    k.openGate pc conv mask tick info = { k with gates := (k.openGate pc conv mask tick info).gates } := by
  unfold Skein.openGate
  split <;> rfl

/-- Where no batch stands at a gate, an arrival opens one. -/
theorem Skein.openGate_of_none {k : Skein} (h : k.gates = []) (pc : DWord) (conv : Bool) (mask : Option (BitVec 6)) (tick : Nat)
    (info : IssueInfo) : k.openGate pc conv mask tick info =
      { k with gates := [⟨pc, conv, if k.at pc == 0 then k.standing else k.present, mask, tick, info⟩] } := by
  simp [Skein.openGate, h]

/-- An instruction whose gate is open goes on. -/
theorem Iss.gated_open {x : Iss} {conv : Bool} {mask : Option (BitVec 6)} {go : Iss → State} {k : Skein}
    (hk : x.k.openGate x.pc conv mask x.s.tick x.info = k) (h : k.gateOk x.pc = true) :
    x.gated conv mask go = go { x with k := k } := by
  subst hk
  exact if_pos h

/-- Lanes within a set lack nothing that the set does not lack. -/
theorem missing_of_subset {a b m : Lanes} (hsub : ∀ l, a.getLsbD l = true → b.getLsbD l = true) (h : b &&& ~~~m = 0) : a &&& ~~~m = 0 := by
  refine BitVec.eq_of_getLsbD_eq fun l hl => ?_
  have hb := congrArg (fun z : Lanes => z.getLsbD l) h
  simp only [BitVec.getLsbD_and, BitVec.getLsbD_not, hl, decide_true, Bool.true_and] at hb ⊢
  cases ha : a.getLsbD l with
  | false => simp
  | true => rwa [hsub l ha] at hb

/-- The gate of a CONV is open where all present fibres stand at it (R168). -/
theorem Skein.gateOk_conv {k : Skein} {pc : DWord} (h : k.present &&& ~~~(k.at pc) = 0) (mask : Option (BitVec 6)) (tick : Nat)
    (info : IssueInfo) : ({ k with gates := [⟨pc, true, if k.at pc == 0 then k.standing else k.present, mask, tick, info⟩] } :
      Skein).gateOk pc = true := by
  have hmiss : ((if k.at pc == 0 then k.standing else k.present) &&& k.live &&& k.scope) &&& ~~~(k.at pc) = 0 := by
    refine missing_of_subset (fun l hl => ?_) h
    simp only [Skein.present, BitVec.getLsbD_and, Bool.and_eq_true] at hl ⊢
    obtain ⟨⟨hneed, -⟩, hscope⟩ := hl
    split at hneed
    · exact ⟨hscope, hneed⟩
    · simpa using hneed
  simp only [Skein.gateOk, List.all_cons, List.all_nil, Bool.and_true, Bool.or_eq_true]
  exact .inr (beq_iff_eq.2 hmiss)

end Sys2Proof.Machine

open Sys2Proof Sys2Proof.Machine

/-- Settles O26: each instruction's effect is that of its case, and the gate that a CONV opens where all present fibres stand in the batch
is open. -/
theorem straightControl : Obligations.StraightControl := by
  unfold Obligations.StraightControl
  intro c
  refine ⟨fun s x hx => ⟨x.k, Wrote.nothing x, issueFixed_next hx⟩, fun s x hx => ⟨x.k, Wrote.nothing x, issueFixed_next hx⟩,
    ?yielding, ?yieldIdle, ?exitSome, ?exitAll, ?exitNone, ?leave, ?conv⟩
  case yielding => exact .of_issue (f := Iss.yields) (fun _ => rfl) fun x h => by simp only [Iss.yields, if_neg h]
  case yieldIdle => exact .of_issue (f := Iss.yields) (fun _ => rfl) fun x h => by simp only [Iss.yields, if_pos h, Iss.skeinOnly]
  case exitSome =>
    refine .of_issue (f := Iss.endFibres) (fun _ => rfl) fun x ⟨hact, hpart⟩ => ?_
    simp only [Iss.endFibres, beq_iff_eq, if_neg hpart, if_neg hact]
  case exitAll =>
    refine .of_issue (f := Iss.endFibres) (fun _ => rfl) fun x ⟨hact, hall⟩ => ?_
    simp only [Iss.endFibres, beq_iff_eq, if_pos hall, if_neg hact]
  case exitNone =>
    refine .of_issue (f := Iss.endFibres) (fun _ => rfl) fun x ⟨hact, hbatch⟩ => ?_
    have hne : x.act ≠ x.batch := hact ▸ hbatch.symm
    simp only [Iss.endFibres, beq_iff_eq, if_neg hne, if_pos hact]
    rw [hact, Skein.mapFibres_zero]
  case leave => exact .of_issue (f := Iss.leaveIdem) (fun _ => rfl) fun x h => by simp only [Iss.leaveIdem, if_neg h]
  case conv =>
    intro s x hx hall hnone
    refine ⟨⟨x.pc, true, if x.k.at x.pc == 0 then x.k.standing else x.k.present, none, x.s.tick, x.info⟩, ?_⟩
    rw [show exec (.conv c) s = _ from issue_next (own := fun _ => []) (eff := fun x => x.gated true none fun x => x.skeinOnly x.k) hx,
      Iss.gated_open (Skein.openGate_of_none hnone x.pc true none x.s.tick x.info)]
    rw [mkIss_batch hx.sees] at hall
    exact Skein.gateOk_conv hall ..

end

section
/-! SUPPORT. The creation of fibres (R21, R84, R169): what a new fibre's lane holds, and what its skein keeps. -/

namespace Sys2Proof.Machine

/-- A selection leaves every fibre. -/
@[simp] theorem Skein.fibre_reselect (k : Skein) (l : Nat) : k.reselect.fibre l = k.fibre l := by
  rw [Skein.reselect_eta]
  rfl

/-- The write of a vector register leaves every fibre. -/
@[simp] theorem Skein.fibre_writeFixed (k : Skein) (v : Nat) (m z : Lanes) (t : Nat → TagR) (f : Nat → Word) (l : Nat) :
    (k.writeFixed v m z t f).fibre l = k.fibre l := by
  obtain ⟨R, h⟩ := k.writeFixed_eta v m z t f
  rw [h]
  rfl

/-- Superseded results leave every fibre. -/
@[simp] theorem Skein.fibre_supersede (k : Skein) (d : Dst) (m : Lanes) (l : Nat) : (k.supersede d m).fibre l = k.fibre l := rfl

/-- A fibre placed in a lane stands there, and every other lane keeps its own. -/
theorem Skein.fibre_set (k : Skein) (l j : Nat) (f : Fibre) (e : Option DWord) (h : l < k.lanes.length) :
    ({ k with lanes := k.lanes.set l (some f), exitPc := e } : Skein).fibre j = if j = l then some f else k.fibre j := by
  simp only [Skein.fibre, List.getElem?_set, h, if_true]
  by_cases hj : j = l
  · subst hj
    simp
  · rw [if_neg (Ne.symm hj), if_neg hj]

/-- A latch entry that goes changes the cores alone. -/
theorem State.dropLatch_eta (s : State) (c q : Nat) (regs : List Nat) :
    s.dropLatch c q regs = { s with cores := (s.dropLatch c q regs).cores } := by
  unfold State.dropLatch
  split <;> rfl

@[simp] theorem State.dropLatch_skeins (s : State) (c q : Nat) (regs : List Nat) : (s.dropLatch c q regs).skeins = s.skeins := by
  rw [State.dropLatch_eta]

@[simp] theorem State.dropLatch_lots (s : State) (c q : Nat) (regs : List Nat) : (s.dropLatch c q regs).lots = s.lots := by
  rw [State.dropLatch_eta]

@[simp] theorem State.dropLatch_mem (s : State) (c q : Nat) (regs : List Nat) : (s.dropLatch c q regs).mem = s.mem := by
  rw [State.dropLatch_eta]

/-- The fibre that FNEW or SPAWN creates for a lot: at the address, with the next rank, without predicates or a wait, and too young to issue
(R21, R169). -/
def State.bornFibre (s : State) (n : Nat) (pc : DWord) : Fibre :=
  { pc, preds := 0, rank := BitVec.ofNat 32 (s.lot n).rankCtr, lot := n
    localIdx := lowestFree ((s.lotFibres n).map Fibre.localIdx) 2048 0, arrived := 0, wait := none, susp := none, young := true }

/-- The skein of the new fibre. -/
def State.bornSkein (s : State) (n : Nat) (pc : DWord) (v : Nat) (tag : TagR) (w : Word) (l : Nat) (k : Skein) : Skein :=
  let m : Lanes := BitVec.ofNat 64 (2 ^ l)
  ((({ k with lanes := k.lanes.set l (some (s.bornFibre n pc)), exitPc := none } : Skein).supersede (.vec v) m).writeFixed v m 0
    (fun _ => tag) fun _ => w).reselect

/-- A fibre that is created changes the skein of the empty lane, the latch of its slot and the rank counter of its lot. -/
theorem State.newFibre_some {s t : State} {n q l v : Nat} {k : Skein} {pc : DWord} {tag : TagR} {w : Word}
    (he : s.emptyLane n = some (q, l, k)) (h : s.newFibre n pc v tag w = some t) :
    t = ((s.setSkein (s.lot n).core q (s.bornSkein n pc v tag w l k)).dropLatch (s.lot n).core q [v]).updLot n
      fun l => { l with rankCtr := l.rankCtr + 1 } := by
  simp only [State.newFibre, he] at h
  split at h
  · exact absurd h (by simp)
  · exact (Option.some.inj h).symm

/-- The lanes of the new fibre's skein. -/
theorem State.fibre_bornSkein (s : State) (n : Nat) (pc : DWord) (v : Nat) (tag : TagR) (w : Word) {l : Nat} {k : Skein}
    (h : l < k.lanes.length) (j : Nat) :
    (s.bornSkein n pc v tag w l k).fibre j = if j = l then some (s.bornFibre n pc) else k.fibre j := by
  simp only [State.bornSkein, Skein.fibre_reselect, Skein.fibre_writeFixed, Skein.fibre_supersede]
  exact Skein.fibre_set k l j _ none h

end Sys2Proof.Machine

open Sys2Proof Sys2Proof.Machine

/-- Settles O27: FNEW and REGRP have the effects named, and a created fibre is `bornFibre`, in the lane that was empty. -/
theorem fibres : Obligations.Fibres := by
  unfold Obligations.Fibres
  refine ⟨fun c off d a b s x hx => ?fnew, fun s t n q l v pc tag w k he _ hl hnew hlot => ?born, fun c a => ?regrp⟩
  case fnew =>
    have hexec : exec (.fnew c off d a b) s = .next (x.after (.fnew c off d a b)
        (if x.shuffling then x.s else x.createFibres off d a b)) :=
      issue_next (own := fun _ => []) (eff := fun x => if x.shuffling then x.s else x.createFibres off d a b) hx
    exact ⟨fun h => by rw [hexec, h]; rfl, fun h => by rw [hexec, h]; rfl⟩
  case born =>
    have hfib := s.fibre_bornSkein n pc v tag w hl
    rw [State.newFibre_some he hnew]
    refine ⟨?_, by simp, s.bornSkein n pc v tag w l k, s.bornFibre n pc, ?_, by rw [hfib, if_pos rfl], rfl, rfl, rfl, rfl, rfl, rfl,
      fun j hj => by rw [hfib, if_neg hj]⟩
    · rw [State.lot_updLot, State.dropLatch_lots, State.setSkein_lots, if_pos hlot, State.lot, State.dropLatch_lots,
        State.setSkein_lots]
      rfl
    · rw [State.skein, State.updLot_skeins, State.dropLatch_skeins]
      exact State.skein_setSkein ..
  case regrp => exact fun s x hx _ => issue_next (own := Iss.regrpHits) hx

end

section
/-! SUPPORT. Cross-lane instructions (R26, R38, R196 to R199): the gate that is open once the lanes of the member mask stand in the batch,
and the pending result that carries what the instruction computes. -/

namespace Sys2Proof.Machine

/-! ### The gate of a member-mask operation -/

/-- The gate is open once every present lane of the mask stands in the batch, whose gates are all of that mask (R38). -/
theorem Skein.gateOk_openGate_mask {k : Skein} {pc : DWord} {mask : Option (BitVec 6)}
    (h : k.present &&& lanesWhere k.width (k.inMask mask) &&& ~~~(k.at pc) = 0)
    (hg : ∀ g ∈ k.gates, g.pc = pc → g.conv = false ∧ g.mask = mask) (tick : Nat) (info : IssueInfo) :
    (k.openGate pc false mask tick info).gateOk pc = true := by
  have hgates : ∀ g ∈ (k.openGate pc false mask tick info).gates, g.pc = pc → g.conv = false ∧ g.mask = mask := by
    unfold Skein.openGate
    split
    · exact hg
    · exact List.forall_mem_cons.2 ⟨fun _ => ⟨rfl, rfl⟩, hg⟩
  rw [Skein.openGate_eta]
  refine List.all_eq_true.2 fun g hmem => ?_
  by_cases hpc : g.pc = pc
  · obtain ⟨hconv, hmask⟩ := hgates g hmem hpc
    have hlanes : g.lanes k = k.present &&& lanesWhere k.width (k.inMask mask) := by rw [Gate.lanes, hconv, hmask]; rfl
    rw [← hlanes] at h
    exact Bool.or_eq_true_iff.2 (.inr (beq_iff_eq.2 h))
  · exact Bool.or_eq_true_iff.2 (.inl (bne_iff_ne.2 hpc))

/-- The issuing instruction with other gates of its skein, which none of its operands sees. -/
def Iss.withGates (x : Iss) (gs : List Gate) : Iss := { x with k := { x.k with gates := gs } }

/-- Every present lane of the member mask stands in the batch, whose gates are all of that mask (R38). -/
def Iss.Gathered (x : Iss) (mask : Option (BitVec 6)) : Prop :=
  x.k.present &&& lanesWhere x.k.width (x.k.inMask mask) &&& ~~~x.batch = 0 ∧
    ∀ g ∈ x.k.gates, g.pc = x.pc → g.conv = false ∧ g.mask = mask

/-- An instruction whose lanes have gathered goes on. -/
theorem Iss.gated_mask {x : Iss} {mask : Option (BitVec 6)} (hbatch : x.batch = x.k.at x.pc) (h : x.Gathered mask) (go : Iss → State) :
    ∃ gs, x.gated false mask go = go (x.withGates gs) := by
  obtain ⟨hall, hgates⟩ := h
  rw [hbatch] at hall
  refine ⟨(x.k.openGate x.pc false mask x.s.tick x.info).gates,
    (Iss.gated_open rfl (Skein.gateOk_openGate_mask hall hgates x.s.tick x.info)).trans ?_⟩
  rw [Iss.withGates, ← Skein.openGate_eta]

/-! ### What a pending result carries -/

/-- A pending result whose values are known at issue. -/
def Iss.known (x : Iss) (i : Instr) (ws : List Write) (flags : FFlags) : Pending :=
  { x.pending i (fun _ => 0) (fun _ => 0) (fun _ => 0) [] with left := 0, writes := ws, flags := flags }

theorem Iss.pendValues_eq (x : Iss) (i : Instr) (ws : List Write) (flags : FFlags) :
    x.pendValues i ws flags = x.skeinOnly (x.k.addPend (x.known i ws flags)) := rfl

/-- A write of a pending result carries a result of some lanes (R55, R145). -/
structure Write.Carries (x : Iss) (part : Lanes) (w : Write) (e : Dst × (Nat → Word)) : Prop where
  dst : w.dst = e.1
  mask : w.mask = x.lanesIn part e.1
  vals : ∀ l, l < x.k.width → w.mask.getLsbD l = true → (w.vals[l]?).getD 0 = if part.getLsbD l then e.2 l else 0

/-- The value of a lane in a list of values. -/
theorem valsOf_getD {n l : Nat} (val : Nat → Word) (h : l < n) : ((valsOf n val)[l]?).getD 0 = val l := by simp [valsOf, h]

/-- A register result and the next register's take the same lanes. -/
theorem Iss.lanesIn_next (x : Iss) (part : Lanes) (d : Dst) (n : Nat) : x.lanesIn part (d.next n) = x.lanesIn part d := by
  cases d <;> rfl

/-- The writes of a register or pair carry its results. -/
theorem Iss.longWrites_carries (x : Iss) (wide : Bool) (d : Opnd) (part : Lanes) {val val' : Nat → DWord}
    (h : ∀ l, l < x.k.width → part.getLsbD l = true → val l = val' l) :
    List.Forall₂ (Write.Carries x part) (x.longWrites wide (x.dstOf d) part val) (x.results wide d val') := by
  have hvals : ∀ (f : DWord → Word) (l : Nat), l < x.k.width →
      ((valsOf x.k.width fun l => if part.getLsbD l then f (val l) else 0)[l]?).getD 0 = if part.getLsbD l then f (val' l) else 0 := by
    intro f l hl
    rw [valsOf_getD _ hl]
    split
    · rename_i hp
      rw [h l hl hp]
    · rfl
  have hlow : Write.Carries x part ⟨x.dstOf d, x.lanesIn part (x.dstOf d), valsOf x.k.width fun l => if part.getLsbD l then loOf (val l) else 0⟩
      (x.dstOf d, fun l => loOf (val' l)) := ⟨rfl, rfl, fun l hl _ => hvals loOf l hl⟩
  have hhigh : Write.Carries x part ⟨(x.dstOf d).next 1, x.lanesIn part (x.dstOf d),
      valsOf x.k.width fun l => if part.getLsbD l then hiOf (val l) else 0⟩ ((x.dstOf d).next 1, fun l => hiOf (val' l)) :=
    ⟨rfl, (x.lanesIn_next part _ 1).symm, fun l hl _ => hvals hiOf l hl⟩
  cases wide with
  | false => exact .cons hlow .nil
  | true => exact .cons hlow (.cons hhigh .nil)

/-- The write of a predicate carries its result. -/
theorem Write.carries_prd (x : Iss) (part : Lanes) (p : Nat) (val : Nat → Word) :
    Write.Carries x part ⟨.prd p, part, valsOf x.k.width val⟩ (.prd p, val) :=
  ⟨rfl, rfl, fun l hl hm => by rw [valsOf_getD val hl, if_pos hm]⟩

/-- The writes of a predicate destination carry its results. -/
theorem predWrites_carries (x : Iss) (d : Opnd) (part : Lanes) (val : Nat → Bool) :
    List.Forall₂ (Write.Carries x part) (predWrites x.k.width d part val) (predResults d val) := by
  cases d with
  | prd p => exact .cons (Write.carries_prd ..) .nil
  | ppair p q =>
    refine .cons (Write.carries_prd ..) (.cons ?_ .nil)
    have hnot : (fun l => truth (!val l)) = fun l => if val l then 0 else 1 := by
      funext l
      cases h : val l <;> rfl
    rw [hnot]
    exact Write.carries_prd ..
  | _ => exact .nil

/-- A pending result holds the results that its writes carry. -/
theorem Iss.known_holds {x y : Iss} {i : Instr} {part : Lanes} {ws : List Write} {rs : Results} (flags : FFlags)
    (hseq : y.k.seq = x.k.seq) (h : List.Forall₂ (Write.Carries x part) ws rs) : (y.known i ws flags).Holds x i part rs flags where
  instr := rfl
  order := hseq
  lanes := rfl
  flags := rfl
  dsts := by
    show ws.map Write.dst = rs.map Prod.fst
    induction h with
    | nil => rfl
    | cons hw _ ih => exact congrArg₂ List.cons hw.dst ih
  vals := by
    intro n w e hw he l hl
    obtain ⟨hn, rfl⟩ := List.getElem?_eq_some_iff.1 (show ws[n]? = some w from hw)
    obtain ⟨hm, rfl⟩ := List.getElem?_eq_some_iff.1 he
    have hcarry := h.get hn hm
    exact ⟨congrArg (fun m : Lanes => m.getLsbD l) hcarry.mask, hcarry.vals l hl⟩

/-- A cross-lane instruction whose lanes have gathered completes with a pending result that carries what it computes. -/
theorem issueLanes_pending {i : Instr} {s : State} {x : Iss} {mask : Option (BitVec 6)} {eff : Iss → Lanes → List Write × FFlags}
    {rs : Results} (hexec : exec i s = issueLanes i s mask eff) (hx : Issues i s x true (x.maskHits mask)) (hg : x.Gathered mask)
    (heff : ∀ gs part, eff (x.withGates gs) part = eff x part)
    (hcarry : List.Forall₂ (Write.Carries x (x.participants mask)) (eff x (x.participants mask)).1 rs) :
    CompletesPending i s x (x.participants mask) rs (eff x (x.participants mask)).2 := by
  obtain ⟨gs, hgated⟩ := Iss.gated_mask (mkIss_batch hx.sees) hg
    fun x => x.pendValues i (eff x (x.participants mask)).1 (eff x (x.participants mask)).2
  refine ⟨(x.withGates gs).known i (eff x (x.participants mask)).1 _, (x.withGates gs).k, Iss.known_holds _ rfl hcarry, rfl, rfl, rfl, ?_⟩
  have hpart : (x.withGates gs).participants mask = x.participants mask := rfl
  rw [hexec]
  refine (issue_next (own := fun x => x.maskHits mask) hx).trans ?_
  rw [hgated, hpart, heff, Iss.pendValues_eq]
  rfl

/-- VOTE completes with the results that its writes carry. -/
theorem vote_pending {c : Ctl} {m : VoteM} {wide neg : Bool} {mask : Option (BitVec 6)} {d a : Opnd} {s : State} {x : Iss} {rs : Results}
    (hx : Issues (.vote c m wide neg mask d a) s x true (x.maskHits mask)) (hg : x.Gathered mask)
    (hcarry : List.Forall₂ (Write.Carries x (x.participants mask)) (x.vote m wide neg d a (x.participants mask)) rs) :
    CompletesPending (.vote c m wide neg mask d a) s x (x.participants mask) rs 0 :=
  issueLanes_pending (eff := fun x part => (x.vote m wide neg d a part, 0)) rfl hx hg (fun _ _ => rfl) hcarry

/-- MATCH compares the keys of a tile with each lane's. -/
theorem Iss.matchKeys_carries (x : Iss) (one wide : Bool) (d a : Opnd) (part : Lanes) :
    List.Forall₂ (Write.Carries x part) (x.matchKeys one wide d a part)
      (if one then predResults d fun l => ((laneList (part &&& x.k.tile l)).map fun i => (i, x.opA a wide i)).all fun e => e.2 == x.opA a wide l
      else x.results false d fun l => x.tileMask (laneList (part &&& x.k.tile l)) fun i => x.opA a wide i == x.opA a wide l) := by
  cases one with
  | false => exact x.longWrites_carries false d part fun _ _ _ => rfl
  | true =>
    simp only [if_true, List.all_map]
    exact predWrites_carries ..

/-! ### Reductions (R199) -/

/-- The combination that a lane of REDUX or SCAN takes of the lanes of its tile that count for it. -/
def Iss.reduced (x : Iss) (c : Ctl) (o : RedOp) (t : Fmt) (a : Opnd) (part : Lanes) (counts : Nat → Nat → Bool) (l : Nat) : DWord × FFlags :=
  if part.getLsbD l then x.combine o t (effMode c .rne) a ((laneList (part &&& x.k.tile l)).filter (counts l)) else (0, 0)

/-- A reduction's writes carry the combinations of its lanes. -/
theorem Iss.reduce_carries (x : Iss) (c : Ctl) (o : RedOp) (t : Fmt) (d a : Opnd) (part : Lanes) (counts : Nat → Nat → Bool) :
    List.Forall₂ (Write.Carries x part) (x.reduce c o t d a part counts).1
      (x.results (t == .f64 || t == .i64 || t == .n64) d fun l => (x.reduced c o t a part counts l).1) :=
  x.longWrites_carries _ d part fun l hl _ => by
    simp only [laneVal, List.getElem?_map, List.getElem?_range hl, Option.map_some, Option.getD_some]
    rfl

end Sys2Proof.Machine

open Sys2Proof Sys2Proof.Machine

/-- Settles O34: PART writes the clamped width; each other instruction's gate is open, and the writes of its pending result carry the
results named. -/
theorem crossLane : Obligations.CrossLane := by
  unfold Obligations.CrossLane
  intro c wide wrap neg one excl sm o t pf mask d a b
  refine ⟨fun s x hx => ⟨x.k, Wrote.nothing x, issueFixed_next hx⟩, ?every, ?some, ?same, ?bits, ?shfl, ?mtch, ?redux, ?scan⟩
  case every => exact fun s x hx hg => vote_pending hx hg (predWrites_carries ..)
  case some => exact fun s x hx hg => vote_pending hx hg (predWrites_carries ..)
  case same => exact fun s x hx hg => vote_pending hx hg (predWrites_carries ..)
  case bits => exact fun s x hx hg => vote_pending hx hg (x.longWrites_carries wide d _ fun _ _ _ => rfl)
  case shfl =>
    exact fun s x hx hg => issueLanes_pending (eff := fun x part => (x.shuffle sm wide wrap pf mask d a b part, 0)) rfl hx hg
      (fun _ _ => rfl) (List.rel_append (x.longWrites_carries wide d _ fun _ _ _ => rfl) (predWrites_carries x (.prd pf) _ _))
  case mtch =>
    exact fun s x hx hg => issueLanes_pending (eff := fun x part => (x.matchKeys one wide d a part, 0)) rfl hx hg (fun _ _ => rfl)
      (x.matchKeys_carries one wide d a _)
  case redux =>
    exact fun s x hx hg => issueLanes_pending (eff := fun x part => x.reduce c o t d a part fun _ _ => true) rfl hx hg (fun _ _ => rfl)
      (x.reduce_carries c o t d a _ _)
  case scan =>
    exact fun s x hx hg => issueLanes_pending
      (eff := fun x part => x.reduce c o t d a part fun l i => if excl then decide (i < l) else decide (i ≤ l)) rfl hx hg (fun _ _ => rfl)
      (x.reduce_carries c o t d a _ _)

end

section
/-! SUPPORT. Waiting for the writes before an execution barrier (R115, R213). -/

namespace Sys2Proof.Machine

/-- Where no far line is dirty, none is written through. -/
theorem State.hubClean_of_clean {s : State} (h : s.hubDirty = []) (sel : Nat → Bool) : s.hubClean sel = s := by
  have hs : s = { s with hubDirty := [] } := by rw [← h]
  rw [hs]
  rfl

/-- A release that need not wait writes nothing through. -/
theorem Iss.Ready.throughFor {x : Iss} {sc : Scope} (h : x.Ready sc) : x.s.throughFor sc = x.s := by
  unfold State.throughFor
  split
  · exact State.hubClean_of_clean (h.clean ‹_›) _
  · rfl

/-- An instruction whose release need not wait, or that has no active lane, goes on at once. -/
theorem Iss.afterWrites_ready {x : Iss} {sc : Scope} (h : x.act ≠ 0 → x.Ready sc) (go : Iss → State) : x.afterWrites sc go = go x := by
  unfold Iss.afterWrites
  by_cases hact : x.act = 0
  · rw [if_pos (beq_iff_eq.2 hact)]
  · have hready := h hact
    rw [if_neg (by simpa using hact), if_pos hready.ready, hready.throughFor]

/-- An instruction that begins with the waits of a release answers its effect once it need not wait. -/
theorem Answers.of_afterWrites {i : Instr} {sc : Scope} {go : Iss → State}
    (hexec : ∀ s, exec i s = issue i s false (fun _ => []) fun x => x.afterWrites sc go) :
    Answers i false (fun _ => []) (fun x => x.act ≠ 0 → x.Ready sc) go :=
  .of_issue hexec fun _ h => Iss.afterWrites_ready h go

/-- What BAR does at a scope once its release need not wait (R31, R213). -/
def Iss.arriveBar (sc : Scope) (x : Iss) : State :=
  match sc with
  | .sk => x.finish x.s ((x.waiting x.k fun _ => .bar .sk false).barSk x.s.tick) true
  | .lot => (x.k.lots x.batch).foldl (fun s n => s.nbarCheck n 0)
      (x.finish x.s (x.waiting (x.k.mapFibres x.batch fun _ f => { f with arrived := f.arrived ||| 1 }) fun _ => .nbar 0 false) true)
  | _ => (x.k.lots x.batch).foldl (fun s n => s.barCheck n sc) (x.finish x.s (x.waiting x.k fun _ => .bar sc false) true)

/-- BAR answers its arrival. -/
theorem bar_answers (c : Ctl) (sc : Scope) : Answers (.bar c sc) false (fun _ => []) (fun x => x.act ≠ 0 → x.Ready sc) (Iss.arriveBar sc) :=
  .of_afterWrites (go := Iss.arriveBar sc) fun _ => rfl

/-- What NBAR does once its release need not wait (R214). -/
def Iss.arriveNbar (id : BitVec 4) (arv : Bool) (x : Iss) : State :=
  let k := x.k.mapFibres x.batch fun _ f => { f with arrived := f.arrived ||| BitVec.ofNat 16 (2 ^ id.toNat) }
  (x.k.lots x.batch).foldl (fun s n => s.nbarCheck n id.toNat)
    (x.finish x.s (if arv then x.advance k else x.waiting k fun _ => .nbar id false) true)

/-- NBAR answers its arrival. -/
theorem nbar_answers (c : Ctl) (id : BitVec 4) (arv : Bool) :
    Answers (.nbar c id arv) false (fun _ => []) (fun x => x.act ≠ 0 → x.Ready .lot) (Iss.arriveNbar id arv) :=
  .of_afterWrites (go := Iss.arriveNbar id arv) fun _ => rfl

end Sys2Proof.Machine

open Sys2Proof Sys2Proof.Machine

/-- Settles O42: no barrier's release need wait, so each barrier answers its arrival. -/
theorem executionBarriers : Obligations.ExecutionBarriers := by
  unfold Obligations.ExecutionBarriers
  intro c id sc
  refine ⟨bar_answers c .sk, bar_answers c .lot, fun hsk hlot => ?_, nbar_answers c id true, nbar_answers c id false⟩
  have hbar := bar_answers c sc
  cases sc with
  | sk => exact absurd rfl hsk
  | lot => exact absurd rfl hlot
  | _ => exact hbar

end

section
/-! SUPPORT. Events of skeins: the releases of execution barriers (R31, R114), the wakings of waits (R120), and the choice of an issue
slot (R297). -/

namespace Sys2Proof.Machine

/-! ### Entries by key -/

theorem amGet_amMap {β γ : Type} (f : Nat → β → γ) (m : AMap β) (a : Nat) : amGet (amMap f m) a = (amGet m a).map (f a) := by
  induction m with
  | nil => rfl
  | cons e m ih =>
    obtain ⟨k, v⟩ := e
    by_cases h : k = a
    · subst h
      simp [amMap, amGet]
    · rw [show amMap f ((k, v) :: m) = (k, f k v) :: amMap f m from rfl]
      simp only [amGet, if_neg h]
      exact ih

/-- An update of a skein that stands in its slot. -/
theorem State.updSkein_of_some {s : State} {c q : Nat} {k : Skein} (h : s.skein c q = some k) (f : Skein → Skein) :
    s.updSkein c q f = s.setSkein c q (f k) := by
  simp [State.updSkein, h]

/-! ### Bounds of a fold -/

/-- A fold that keeps a bound at each entry keeps it over the list. -/
theorem foldl_le_of_forall {α : Type} {f : Nat → α → Nat} {l : List α} {b : Nat} (h : ∀ a ∈ l, ∀ m, m ≤ b → f m a ≤ b) {m : Nat}
    (hm : m ≤ b) : l.foldl f m ≤ b := by
  induction l generalizing m with
  | nil => exact hm
  | cons a l ih => exact ih (fun c hc => h c (List.mem_cons_of_mem a hc)) (h a List.mem_cons_self m hm)

/-! ### Releases of execution barriers -/

/-- The clocks of a release have passed where they have since each arrival. -/
theorem State.releaseAfter_due {s : State} {d : Nat} {keys lots : Nat → Bool} {p : Wait → Bool} (x : Scope) (hd : d ≤ s.tick)
    (h : ∀ e ∈ s.skeins, keys e.1 = true → ∀ f, some f ∈ e.2.lanes → lots f.lot = true → f.arrivedAt p + d ≤ s.tick) :
    s.releaseAfter d keys lots x p = s.releaseBar keys lots x p := by
  refine if_pos (Nat.add_le_of_le_sub hd (foldl_le_of_forall (fun e he m hm => ?_) (Nat.zero_le _)))
  split
  · rename_i hkey
    refine foldl_le_of_forall (fun o ho m hm => ?_) hm
    split
    · rename_i f
      split
      · rename_i hlot
        exact max_le hm (Nat.le_sub_of_add_le (h e he hkey f ho hlot))
      · exact hm
    · exact hm
  · exact hm

/-- The lanes of a skein whose fibres satisfy a test. -/
def Skein.lanesOf (k : Skein) (p : Fibre → Bool) : Lanes :=
  lanesWhere k.width fun l => match k.fibre l with | some f => p f | none => false

/-- A change of the fibres that satisfy a test reaches each of them. -/
theorem Skein.fibre_mapFibres_lanesOf (k : Skein) (p : Fibre → Bool) (g : Fibre → Fibre) {l : Nat} (hl : l < k.width) :
    (k.mapFibres (k.lanesOf p) fun _ => g).fibre l = (k.fibre l).map fun f => if p f then g f else f := by
  have h64 := k.width_le
  rw [Skein.fibre_mapFibres]
  cases hf : k.fibre l with
  | none => rfl
  | some f =>
    have hbit : (k.lanesOf p).getLsbD l = p f := by
      rw [Skein.lanesOf, lanesWhere_getLsbD, hf]
      simp [hl, show l < 64 by omega]
    simp only [Option.map_some, hbit]

/-- An acquire leaves every fibre. -/
@[simp] theorem Skein.fibre_acquire (k : Skein) (x : Scope) (tick l : Nat) : (k.acquire x tick).fibre l = k.fibre l := rfl

/-- The skein of a slot after the release of a barrier. -/
def Skein.releaseBar (k : Skein) (key : Nat) (keys lots : Nat → Bool) (x : Scope) (p : Wait → Bool) (tick : Nat) : Skein :=
  let m := k.lanesOf fun f => keys key && lots f.lot && f.waitsFor p
  if m == 0 then k else ((k.mapFibres m fun _ f => f.release p).acquire x tick).reselect

theorem State.skein_releaseBar (s : State) (c q : Nat) (keys lots : Nat → Bool) (x : Scope) (p : Wait → Bool) :
    (s.releaseBar keys lots x p).skein c q = (s.skein c q).map fun k => k.releaseBar (skKey c q) keys lots x p s.tick :=
  amGet_amMap (fun key (k : Skein) => k.releaseBar key keys lots x p s.tick) s.skeins (skKey c q)

/-- Each fibre that the barrier holds goes on, and no other changes. -/
theorem Skein.fibre_releaseBar (k : Skein) (key : Nat) (keys lots : Nat → Bool) (x : Scope) (p : Wait → Bool) (tick : Nat) {l : Nat}
    (hl : l < k.width) : (k.releaseBar key keys lots x p tick).fibre l =
      (k.fibre l).map fun f => if keys key && lots f.lot && f.waitsFor p then f.release p else f := by
  have hmap := k.fibre_mapFibres_lanesOf (fun f => keys key && lots f.lot && f.waitsFor p) (fun f => f.release p) hl
  unfold Skein.releaseBar
  dsimp only
  split
  · rename_i h0
    rw [beq_iff_eq.1 h0, Skein.mapFibres_zero] at hmap
    exact hmap
  · rw [Skein.fibre_reselect, Skein.fibre_acquire, hmap]

/-- The waits of MWAIT end, and no other fibre changes. -/
theorem Skein.fibre_wake (k : Skein) (p : Fibre → Bool) {l : Nat} (hl : l < k.width) :
    (k.wake (k.lanesOf p)).fibre l = (k.fibre l).map fun f => if p f then { f with wait := none } else f := by
  rw [Skein.wake, Skein.fibre_reselect]
  exact k.fibre_mapFibres_lanesOf p (fun f => { f with wait := none }) hl

/-! ### The choice of an issue slot -/

/-- A skein has waited at least as long since its last issue as another. -/
def Skein.waitedLonger (a b : Skein) : Prop := a.lastIssue = none ∨ ∃ x y, a.lastIssue = some x ∧ b.lastIssue = some y ∧ x ≤ y

theorem Skein.waitedLonger_refl (a : Skein) : a.waitedLonger a := by
  cases h : a.lastIssue with
  | none => exact .inl h
  | some x => exact .inr ⟨x, x, h, h, Nat.le_refl x⟩

theorem Skein.waitedLonger_trans {a b c : Skein} (hab : a.waitedLonger b) (hbc : b.waitedLonger c) : a.waitedLonger c := by
  rcases hab with ha | ⟨x, y, ha, hb, hxy⟩
  · exact .inl ha
  · rcases hbc with hb' | ⟨y', z, hb', hc, hyz⟩
    · rw [hb] at hb'
      cases hb'
    · obtain rfl := Option.some.inj (hb.symm.trans hb')
      exact .inr ⟨x, z, ha, hc, hxy.trans hyz⟩

/-- The one that has waited longer is one of the two, and has waited at least as long as either. -/
theorem longerWait_spec (a b : Nat × Skein) :
    (longerWait a b = a ∨ longerWait a b = b) ∧ (longerWait a b).2.waitedLonger a.2 ∧ (longerWait a b).2.waitedLonger b.2 := by
  cases ha : a.2.lastIssue with
  | none => exact ⟨.inl (by simp [longerWait, ha]), .inl (by simp [longerWait, ha]), .inl (by simp [longerWait, ha])⟩
  | some x =>
    cases hb : b.2.lastIssue with
    | none =>
      have h : longerWait a b = b := by simp [longerWait, ha, hb]
      rw [h]
      exact ⟨.inr rfl, .inl hb, .inl hb⟩
    | some y =>
      by_cases hxy : x ≤ y
      · have h : longerWait a b = a := by simp [longerWait, ha, hb, hxy]
        rw [h]
        exact ⟨.inl rfl, a.2.waitedLonger_refl, .inr ⟨x, y, ha, hb, hxy⟩⟩
      · have h : longerWait a b = b := by simp [longerWait, ha, hb, hxy]
        rw [h]
        exact ⟨.inr rfl, .inr ⟨y, x, hb, ha, by omega⟩, b.2.waitedLonger_refl⟩

/-- The choice among several skeins is one of them, and has waited at least as long as each. -/
theorem longestWait_spec (es : List (Nat × Skein)) (e : Nat × Skein) :
    es.foldl longerWait e ∈ e :: es ∧ ∀ g ∈ e :: es, (es.foldl longerWait e).2.waitedLonger g.2 := by
  induction es generalizing e with
  | nil => exact ⟨List.mem_singleton.2 rfl, fun g hg => List.mem_singleton.1 hg ▸ e.2.waitedLonger_refl⟩
  | cons b es ih =>
    obtain ⟨hpick, hleft, hright⟩ := longerWait_spec e b
    obtain ⟨hmem, hlong⟩ := ih (longerWait e b)
    have hfirst := hlong _ List.mem_cons_self
    refine ⟨?_, fun g hg => ?_⟩
    · rcases List.mem_cons.1 hmem with h | h
      · rw [List.foldl_cons, h]
        rcases hpick with h' | h' <;> simp [h']
      · exact List.mem_cons_of_mem e (List.mem_cons_of_mem b h)
    · rcases List.mem_cons.1 hg with rfl | hg
      · exact Skein.waitedLonger_trans hfirst hleft
      · rcases List.mem_cons.1 hg with rfl | hg
        · exact Skein.waitedLonger_trans hfirst hright
        · exact hlong g (List.mem_cons_of_mem _ hg)

/-- A skein that its issue slot may turn to (R297). -/
def State.maySwitch (s : State) (c iq : Nat) (e : Nat × Skein) : Bool := e.1 / 64 == c && e.1 % 4 == iq && s.canIssue c (e.1 % 64)

/-- An issue slot whose skein cannot issue turns to one that has waited longest, if there is one that can. -/
theorem issueSlotSwitch_longest {s : State} {c iq : Nat} {e : Nat × Skein}
    (hcur : ∀ q, (((s.core c).iq[iq]?).getD default).cur = some q → s.canIssue c q = false) (hmem : e ∈ s.skeins)
    (hcan : s.maySwitch c iq e = true) :
    ∃ f ∈ s.skeins.filter (s.maySwitch c iq), (∀ g ∈ s.skeins.filter (s.maySwitch c iq), f.2.waitedLonger g.2) ∧
      exec (.issueSlotSwitch c iq) s = .next (s.updCore c fun u =>
        { u with iq := u.iq.mapIdx fun i x => if i == iq then { x with cur := some (f.1 % 64), run := 0 } else x }) := by
  cases hlist : s.skeins.filter (s.maySwitch c iq) with
  | nil => exact absurd (List.mem_filter.2 ⟨hmem, hcan⟩) (by simp [hlist])
  | cons a es =>
    obtain ⟨hin, hlong⟩ := longestWait_spec es a
    refine ⟨_, hin, hlong, ?_⟩
    show execIssueSlotSwitch c iq s = _
    unfold State.maySwitch at hlist
    cases hc : (((s.core c).iq[iq]?).getD default).cur with
    | none => simp only [execIssueSlotSwitch, hc, hlist]
    | some q => simp only [execIssueSlotSwitch, hc, hcur q hc, hlist]

end Sys2Proof.Machine

open Sys2Proof Sys2Proof.Machine

/-- Settles O50: a release is due once its clocks have passed since each arrival, each event changes the fibres that its test picks, and an
issue slot turns to the longest wait of the skeins that can issue. -/
theorem skeinEvents : Obligations.SkeinEvents := by
  unfold Obligations.SkeinEvents
  refine ⟨fun s c n h hfind => ?shuffle, fun s c q n id => ?release, fun s c q k keys lots sc p hk => ?released,
    fun s c q seq k hk => ⟨fun p hp hret hc hq => ?returns, fun hmust => ?deliver, fun hstall => ?stall, fun r hr hready => ?relWait,
      fun w hw hhit => ?monitor, fun pc => ?timeout⟩, fun s c iq e => ?switch⟩
  case shuffle =>
    show execRegrpShuffleDone c n s = _
    simp only [execRegrpShuffleDone, hfind]
  case release =>
    exact ⟨fun hd h => congrArg _ (State.releaseAfter_due _ hd h), fun hd h => congrArg _ (State.releaseAfter_due _ hd h),
      fun hd h => congrArg _ (State.releaseAfter_due _ hd h), fun hd h => congrArg _ (State.releaseAfter_due _ hd h)⟩
  case released =>
    exact ⟨_, by rw [State.skein_releaseBar, hk]; rfl, fun l hl => k.fibre_releaseBar _ keys lots sc p s.tick hl⟩
  case returns =>
    show execLongLatencyReturn c q seq s = _
    simp [execLongLatencyReturn, hp, hret, Nat.not_le.2 hc, Nat.not_le.2 hq]
  case deliver =>
    show execTrapDeliver c q s = _
    simp [execTrapDeliver, hk, hmust]
  case stall =>
    show execStallExpiry c q s = _
    rw [execStallExpiry, State.updSkein_of_some hk, if_pos hstall]
  case relWait =>
    show execReleaseWaitDone c q s = _
    simp [execReleaseWaitDone, hk, hr, hready]
  case monitor =>
    refine ⟨k.wake (k.lanesOf fun f => f.wait.any fun w => w.w == .mwait), ?_, fun l hl => k.fibre_wake _ hl⟩
    show execMonitorTrigger c q s = _
    rw [execMonitorTrigger, State.updSkein_of_some hk, if_pos (by simp [hw, hhit])]
    rfl
  case timeout =>
    intro limit late hlimit hpark hcycle hlate
    show execWaitTimeout c q pc s = _
    have hlate' : (late != 0) = true := bne_iff_ne.2 hlate
    simp only [execWaitTimeout, hk, hpark, hcycle]
    rw [if_neg hlimit, if_pos hlate']
    rfl
  case switch =>
    intro can hcur ⟨hmem, hdie, hslot, hcan⟩
    have hiff : ∀ g, g ∈ s.skeins.filter (s.maySwitch c iq) ↔ can g := by
      intro g
      simp [State.maySwitch, can, and_assoc]
    obtain ⟨f, hf, hlong, hexec⟩ := issueSlotSwitch_longest hcur hmem (by simp [State.maySwitch, hdie, hslot, hcan])
    exact ⟨f, (hiff f).1 hf, fun g hg => hlong g ((hiff g).2 hg), hexec⟩

end

section
/-! SUPPORT. Events of a core and of its translations: the rows that are cleared (R20), the words fetched (R95), and what the replies to a
fault leave (R99, R373). -/

namespace Sys2Proof.Machine

/-! ### Fetched words (R95) -/

/-- The words of the PC whose next word has come. -/
theorem Skein.had_fetched_same (k : Skein) (pc : DWord) (ws : List Word) (rest : List Fetched) :
    ({ k with fetched := ⟨pc, ws⟩ :: rest } : Skein).had pc = ws := by simp [Skein.had]

/-- The words of another PC, where those of PCs beyond a set have gone. -/
theorem Skein.had_fetched_other (k : Skein) {pc p : DWord} (ws : List Word) {near : List DWord} (hp : p ∈ near) (hne : p ≠ pc) :
    ({ k with fetched := ⟨pc, ws⟩ :: k.fetched.filter fun f => f.pc != pc && near.contains f.pc } : Skein).had p = k.had p := by
  have hkeep : (fun f : Fetched => decide ((f.pc != pc && near.contains f.pc) = true ∧ (f.pc == p) = true)) = fun f => f.pc == p := by
    funext f
    by_cases hf : f.pc = p
    · simp [hf, hp, hne]
    · simp [hf]
  simp only [Skein.had]
  rw [List.find?_cons_of_neg (by simpa using Ne.symm hne), List.find?_filter, hkeep]

/-- The next word of an instruction is fetched. -/
theorem instructionFetch_next {s : State} {c q : Nat} {k : Skein} {pc : DWord} {w : Word} (hk : s.skein c q = some k)
    (hnear : (k.pcs.flatMap (k.fetchAhead 3)).contains pc = true) (hlen : (k.had pc).length < 4)
    (hw : s.wordAt c q k pc (k.had pc).length = some w) :
    exec (.instructionFetch c q pc) s = .next (s.setSkein c q { k with
      fetched := ⟨pc, joinWord (k.had pc) w⟩ ::
        k.fetched.filter fun f => f.pc != pc && (k.pcs.flatMap (k.fetchAhead 3)).contains f.pc }) := by
  show execInstructionFetch c q pc s = _
  simp only [execInstructionFetch, hk, hw, hnear, Nat.not_le.2 hlen]
  rfl

/-! ### Walks (R370) -/

/-- The walk of a wanted page that is not held fills the TLBs. -/
theorem State.walkFor_ok {s : State} {r : AccRef} {va : DWord} {w : Want} {x : Xl}
    (hw : ((s.wants r).find? fun w => w.va.toNat / 65536 == va.toNat / 65536) = some w) (hheld : s.heldAt r w.va = false)
    (hx : s.xlate (s.accUnit r) (s.accPart r) w.va w.write w.fetch = .ok x) :
    s.walkFor r va = s.tlbFill (s.accUnit r) (s.accPart r) w.va x := by
  simp [State.walkFor, hw, hheld, hx]

/-- The walk of a wanted page that is not held faults. -/
theorem State.walkFor_bad {s : State} {r : AccRef} {va : DWord} {w : Want} {code level : Nat} {pte : DWord}
    (hw : ((s.wants r).find? fun w => w.va.toNat / 65536 == va.toNat / 65536) = some w) (hheld : s.heldAt r w.va = false)
    (hx : s.xlate (s.accUnit r) (s.accPart r) w.va w.write w.fetch = .bad code level pte) :
    s.walkFor r va = s.fault r w.va code level pte := by
  simp [State.walkFor, hw, hheld, hx]

/-! ### Replies (R373) -/

/-- An update of a skein changes the skeins alone. -/
theorem State.updSkein_eta (s : State) (c q : Nat) (f : Skein → Skein) : s.updSkein c q f = { s with skeins := (s.updSkein c q f).skeins } := by
  unfold State.updSkein
  split <;> rfl

/-- A retry changes the skeins, the entry that goes, and what the TLBs of its accesses hold of its page. -/
theorem State.retryEntry_keeps {α : Type} (g : State → α) (hg : ∀ (s : State) (ks : AMap Skein), g { s with skeins := ks } = g s)
    (s : State) (e : FaultEnt) : g (s.retryEntry e) = g { s with
      faults := s.faults.filter fun f => f != e
      tlb := s.tlb.filter fun t => !((e.who.flatMap fun r => unitsOf (s.accUnit r)).contains t.unit && t.hits t.unit e.part e.va) } := by
  refine foldl_keeps g _ (fun s r => ?_) e.who _
  split
  · rw [State.updSkein_eta]
    exact hg ..
  · rfl

theorem State.retryEntry_faults (s : State) (e : FaultEnt) : (s.retryEntry e).faults = s.faults.filter fun f => f != e :=
  State.retryEntry_keeps State.faults (fun _ _ => rfl) s e

/-- A translation that hits for a unit is one of that unit. -/
theorem TlbEnt.unit_of_hits {t : TlbEnt} {u part : Nat} {va : DWord} (h : t.hits u part va = true) : t.unit = u := by
  simp only [TlbEnt.hits, Bool.and_eq_true, beq_iff_eq] at h
  exact h.1.1

/-- No unit that an access merged into the entry reads holds a translation of its page any more. -/
theorem State.retryEntry_tlb {s : State} {e : FaultEnt} {r : AccRef} {u : Nat} {t : TlbEnt} (hr : r ∈ e.who)
    (hu : u ∈ unitsOf (s.accUnit r)) (ht : t ∈ (s.retryEntry e).tlb) : t.hits u e.part e.va = false := by
  rw [State.retryEntry_keeps State.tlb (fun _ _ => rfl) s e] at ht
  have hgone := (List.mem_filter.1 ht).2
  by_contra hhit
  obtain rfl := TlbEnt.unit_of_hits (by simpa using hhit)
  have hin : (e.who.flatMap fun r => unitsOf (s.accUnit r)).contains t.unit = true :=
    List.contains_iff_mem.2 (List.mem_flatMap.2 ⟨r, hr, hu⟩)
  rw [hin, Bool.true_and, Bool.not_eq_true'] at hgone
  exact hhit hgone

end Sys2Proof.Machine

open Sys2Proof Sys2Proof.Machine

/-- Settles O51: each event's condition holds, so it has its effect; a retry drops the translations of its page from every unit that an
access merged into the entry reads. -/
theorem coreAndFaultEvents : Obligations.CoreAndFaultEvents := by
  unfold Obligations.CoreAndFaultEvents
  refine ⟨fun s n hres => ?clear, fun s c rows t rest hhands => ⟨fun htick hclean => ?handover, fun hwait => ?waits⟩,
    fun s c q k pc w hk => ?fetch, fun s r va w hw hheld => ⟨⟨fun x hx => ?walk, fun code level pte hx => ?walkBad⟩,
      fun hroom => ⟨fun x hx => ?again, fun code level pte hx => ?againBad⟩⟩, fun s part id e he => ?replies⟩
  case clear =>
    refine congrArg Host.Outcome.next ?_
    unfold State.updLot
    cases hn : amGet s.lots n with
    | none => rfl
    | some l =>
      have hl : l.resident = true := by simpa [State.lot, hn] using hres
      simp only [hl, if_true]
  case handover =>
    have hnone : ((s.core c).l1.any fun e => decide (e.2.row < rows) && s.lineDirty c e.1) = false := by
      refine List.any_eq_false.2 fun e he => ?_
      by_cases hrow : e.2.row < rows
      · simp [hclean e he hrow]
      · simp [hrow]
    show execCarveOutHandover c s = _
    simp only [execCarveOutHandover, hhands, hnone, Nat.not_lt.2 htick]
    rfl
  case waits =>
    have hmust : (decide (s.tick < t) || (s.core c).l1.any fun e => decide (e.2.row < rows) && s.lineDirty c e.1) = true := by
      rcases hwait with h | ⟨e, he, hrow, hdirty⟩
      · simp [h]
      · exact Bool.or_eq_true_iff.2 (.inr (List.any_eq_true.2 ⟨e, he, by simp [hrow, hdirty]⟩))
    show execCarveOutHandover c s = _
    simp only [execCarveOutHandover, hhands, hmust, if_true]
  case fetch =>
    intro near hnear hlen hword
    exact ⟨_, instructionFetch_next hk hnear hlen hword, rfl, k.had_fetched_same .., fun p hp hne => k.had_fetched_other _ hp hne⟩
  case walk => exact congrArg Host.Outcome.next (State.walkFor_ok hw hheld hx)
  case walkBad => exact congrArg Host.Outcome.next (State.walkFor_bad hw hheld hx)
  case again => exact congrArg Host.Outcome.next ((if_pos hroom).trans (State.walkFor_ok hw hheld hx))
  case againBad => exact congrArg Host.Outcome.next ((if_pos hroom).trans (State.walkFor_bad hw hheld hx))
  case replies =>
    refine ⟨?retry, s.retryEntry_faults e, fun r hr u hu t ht => State.retryEntry_tlb hr hu ht, ?refuse, rfl, rfl, fun hwdog hlate => ?watchdog⟩
    case retry =>
      show execFaultRetry part id s = _
      simp only [execFaultRetry, he]
    case refuse =>
      show execFaultRefuse part id s = _
      simp only [execFaultRefuse, he]
    case watchdog =>
      show execFaultWatchdog part id s = _
      simp [execFaultWatchdog, he, hwdog, hlate]

end

section
/-! SUPPORT. Special registers (R46, R163): the results of reads whose destination is a register, and the changes that a write makes beside
no result. -/

namespace Sys2Proof.Machine

/-! ### Results of one register or pair -/

/-- The destination names no predicate. -/
def Dst.NoPred (d : Dst) : Prop := (∀ p, d ≠ .prd p) ∧ d ≠ .pword

theorem Dst.NoPred.next {d : Dst} (h : d.NoPred) (n : Nat) : (d.next n).NoPred := by
  cases d with
  | vec v => exact ⟨fun _ => Dst.noConfusion, Dst.noConfusion⟩
  | scl m => exact ⟨fun _ => Dst.noConfusion, Dst.noConfusion⟩
  | _ => exact h

/-- An operand of a kind other than 10 names no predicate (R134, R136). -/
theorem Iss.dstOf_noPred (x : Iss) {d : Opnd} (h : d.code.extractLsb' 8 2 ≠ 2) : (x.dstOf d).NoPred := by
  cases d with
  | prd p => exact absurd (by simp only [Opnd.code]; decide +revert) h
  | pword => exact absurd rfl h
  | _ => exact ⟨fun _ => Dst.noConfusion, Dst.noConfusion⟩

/-- The write of a register or of no destination adds its result. -/
theorem Wrote.putReg {x : Iss} {k : Skein} {ws : Results} {fl : BitVec 5} (h : Wrote x k ws fl) {d : Dst} (hd : d.NoPred)
    (t : Nat → TagR) (f : Nat → Word) : Wrote x (x.put k d t f) (ws ++ [(d, f)]) fl := by
  obtain ⟨hprd, hpword⟩ := hd
  cases d with
  | none => exact h.putNone t f
  | vec v => exact h.putVec v t f
  | scl n => exact h.putScl n t f
  | prd p => exact absurd rfl (hprd p)
  | pword => exact absurd rfl hpword

/-- A merge mask zeroes no lane that is active (R145). -/
theorem mkIss_zero_act {i : Instr} {s : State} {x : Iss} (h : mkIss i s = some x) {l : Nat} (hz : x.zero.getLsbD l = true) :
    x.act.getLsbD l = false := by
  obtain ⟨-, -, -, -, hx⟩ := mkIss_eq h
  rw [hx] at hz ⊢
  simp only [issOf, lanesWhere_getLsbD, Bool.and_eq_true, Bool.not_eq_true'] at hz ⊢
  obtain ⟨-, ⟨-, hmask⟩, -⟩ := hz
  simp [hmask]

/-- The classified write of a register or of no destination adds its result: tags are not part of it. -/
theorem Wrote.putClassedReg {x : Iss} {k : Skein} {ws : Results} {fl : BitVec 5} (h : Wrote x k ws fl) {d : Dst} (hd : d.NoPred)
    (hz : ∀ l, x.zero.getLsbD l = true → x.act.getLsbD l = false) (f : Nat → Word) :
    Wrote x (x.putClassed k d f) (ws ++ [(d, f)]) fl := by
  obtain ⟨hprd, hpword⟩ := hd
  cases d with
  | none => exact h.putNone (fun _ => .u) f
  | vec v => exact h.putClassed v f hz
  | scl n => exact h.putScl n (fun _ => .u) f
  | prd p => exact absurd rfl (hprd p)
  | pword => exact absurd rfl hpword

/-- Predicate 7 is always true: its write changes no predicate (R45). -/
theorem Wrote.putPrdTrue {x : Iss} {k : Skein} {ws : Results} {fl : BitVec 5} (h : Wrote x k ws fl) (t : Nat → TagR) (f : Nat → Word) :
    Wrote x (x.put k (.prd 7) t f) (ws ++ [(.prd 7, f)]) fl where
  vec v l hl hv := by
    rw [Results.last_append, if_neg Dst.noConfusion]
    exact h.vec v l hl hv
  scl n := by
    rw [Results.last_append, if_neg Dst.noConfusion]
    exact h.scl n
  prd p l hp := by
    rw [Results.last_append, Results.last_append, if_neg (by simp only [Dst.prd.injEq]; omega), if_neg Dst.noConfusion]
    exact h.prd p l hp
  fibres := h.fibres
  flags := h.flags
  pend := by
    rw [Wrote.fold_pend]
    exact supersede_pend_congr h.pend _ _
  bad := h.bad
  rest := h.rest

theorem Iss.dstOf_prd_le {x : Iss} {d : Opnd} {p : Nat} (h : x.dstOf d = .prd p) : p ≤ 7 := by
  cases d with
  | prd q =>
    obtain rfl := Dst.prd.inj h
    exact Nat.le_of_lt_succ q.isLt
  | _ => exact Dst.noConfusion h

/-- The only result of an instruction, whatever its destination. -/
theorem Wrote.putOnly {x : Iss} (hx : x.Sound) (d : Opnd) (t : Nat → TagR) (f : Nat → Word) :
    Wrote x (x.put x.k (x.dstOf d) t f) [(x.dstOf d, f)] 0 := by
  by_cases htrue : x.dstOf d = .prd 7
  · rw [htrue]
    exact (Wrote.nothing x).putPrdTrue t f
  · exact (Wrote.nothing x).put hx _ (fun p hp => lt_of_le_of_ne (Iss.dstOf_prd_le hp) fun h7 => htrue (h7 ▸ hp)) (fun _ _ => rfl) t f

/-- The halves of a pair (R43). -/
theorem loOf_pairOf (a b : Word) : loOf (pairOf a b) = a := BitVec.extractLsb'_append_eq_right

theorem hiOf_pairOf (a b : Word) : hiOf (pairOf a b) = b := BitVec.extractLsb'_append_eq_left

/-! ### Reads and writes of special registers -/

/-- SPR's results, of whichever tag rule (R46, R163). -/
theorem Iss.readSpecial_wrote {x : Iss} (hz : ∀ l, x.zero.getLsbD l = true → x.act.getLsbD l = false) (t : ITy) (n : Fin 192) {d : Opnd}
    (hd : (x.dstOf d).NoPred) : Wrote x (x.readSpecial t d (.spc n)) (x.results (ITy.wide t) d fun l =>
      pairOf (special x.s x.c x.q x.k (n.val + 64) l) (special x.s x.c x.q x.k (n.val + 65) l)) 0 := by
  simp only [Iss.readSpecial, Iss.results, loOf_pairOf, hiOf_pairOf]
  cases ITy.wide t with
  | true => exact ((Wrote.nothing x).putReg hd _ _).putReg (hd.next 1) _ _
  | false =>
    simp only [Bool.false_eq_true, if_false]
    split
    · exact (Wrote.nothing x).putClassedReg hd hz _
    · exact (Wrote.nothing x).putReg hd _ _

/-- An instruction that changes only its skein completes with the results that it writes there. -/
theorem Gives.of_wrote {i : Instr} {f : Iss → Skein} {ws : Iss → Results} {flags : Iss → BitVec 5}
    (hexec : ∀ s, exec i s = issueFixed i s f) (hw : ∀ s x, mkIss i s = some x → Wrote x (f x) (ws x) (flags x)) : Gives i ws flags :=
  fun s x hx => ⟨f x, hw s x hx.sees, (hexec s).trans (issueFixed_next hx)⟩

/-- An instruction without results completes with the change that it makes of its skein. -/
theorem GivesAnd.of_change {i : Instr} {f : Iss → Skein} {more : Iss → Skein → Skein} (hexec : ∀ s, exec i s = issueFixed i s f)
    (hmore : ∀ x, f x = more x x.k) : GivesAnd i (fun _ => []) (fun _ => 0) more :=
  fun s x hx => ⟨x.k, Wrote.nothing x, by rw [hexec, issueFixed_next hx, hmore]⟩

end Sys2Proof.Machine

open Sys2Proof Sys2Proof.Machine

/-- Settles O23: SPR and VTAG write a register whose result is the special register's value or the tag, and each write changes its field
where there is a lowest active lane. That %lanepart takes its request as unsigned is log entry 114. -/
theorem specialRegisters : Obligations.SpecialRegisters := by
  unfold Obligations.SpecialRegisters
  intro c t n tgt d a r
  refine ⟨fun hd => ?spr, ?vtag, .of_change (f := fun x => x.writeSpecial (.spc 10) a) (fun _ => rfl) fun x => ?lanepart,
    .of_change (f := fun x => x.writeSpecial (.spc 12) a) (fun _ => rfl) fun x => ?fflags,
    .of_change (f := fun x => x.writeSpecial (.spc 13) a) (fun _ => rfl) fun x => ?vx,
    .of_change (f := fun x => x.setIndex tgt a) (fun _ => rfl) fun _ => rfl⟩
  case spr =>
    exact .of_wrote (f := fun x => x.readSpecial t d (.spc n)) (fun _ => rfl) fun s x hx =>
      Iss.readSpecial_wrote (fun _ => mkIss_zero_act hx) t n (x.dstOf_noPred hd)
  case vtag =>
    exact .of_wrote (f := fun x => x.readTag d (.vec r)) (fun _ => rfl) fun s x hx => Wrote.putOnly (mkIss_sound hx) d _ _
  case lanepart | fflags | vx =>
    unfold Iss.writeSpecial
    cases x.low <;> rfl

end

section
/-! SUPPORT. Special functions (R184, R185): their results and flags are known at issue and wait in the return buffer (R55). -/

namespace Sys2Proof.Machine

/-- An active lane's value among those of the active lanes. -/
theorem Iss.laneVal_lanes {x : Iss} (f : Nat → DWord × FFlags) {l : Nat} (hl : l < x.k.width) (hact : x.act.getLsbD l = true) :
    laneVal (x.lanes f) l = (f l).1 := by
  simp [laneVal, Iss.lanes, hl, hact]

/-- What a special function gives a lane: its value at the operand's element, and the flags (R184). -/
def Iss.specialLane (x : Iss) (t : FTy) (a : Opnd) (g : FVal → Nat × FFlags) (l : Nat) : DWord × FFlags :=
  let p := g (decodeF (FTy.fp t) (fpElem t a (x.opA a (FTy.wide t) l) 0))
  (BitVec.ofNat 64 p.1, p.2)

/-- A long-latency instruction whose values are known at issue completes with a pending result that its writes carry. -/
theorem GivesPending.of_carries {i : Instr} {ws : Iss → List Write} {rs : Iss → Results} {flags : Iss → FFlags}
    (hexec : ∀ s, exec i s = issue i s true (fun _ => []) fun x => x.pendValues i (ws x) (flags x))
    (hcarry : ∀ x, List.Forall₂ (Write.Carries x x.act) (ws x) (rs x)) : GivesPending i rs flags := by
  intro s x hx
  refine ⟨x.known i (ws x) (flags x), x.k, Iss.known_holds _ rfl (hcarry x), rfl, rfl, rfl, ?_⟩
  rw [hexec, issue_next (own := fun _ => []) hx, Iss.pendValues_eq]

/-- Each special function's results and flags wait in the return buffer. -/
theorem issueSpecial_pending {i : Instr} {t : FTy} {d a : Opnd} {g : FpFmt → FVal → Nat × FFlags}
    (hexec : ∀ s, exec i s = issueSpecial i t d a s g) :
    GivesPending i (fun x => x.results (FTy.wide t) d fun l => (x.specialLane t a (g (FTy.fp t)) l).1)
      fun x => orFlags (x.lanes (x.specialLane t a (g (FTy.fp t)))) :=
  .of_carries (ws := fun x => x.longWrites (FTy.wide t) (x.dstOf d) x.act (laneVal (x.lanes (x.specialLane t a (g (FTy.fp t))))))
    hexec fun x => x.longWrites_carries _ d x.act fun _ hl hact => Iss.laneVal_lanes _ hl hact

end Sys2Proof.Machine

open Sys2Proof Sys2Proof.Machine

/-- Settles O31: each special function issues through `issueSpecial`, whose pending result carries the values of the active lanes. -/
theorem specialFunctions : Obligations.SpecialFunctions := by
  unfold Obligations.SpecialFunctions
  intro c t r d a
  refine ⟨?rcp, ?rsq, ?sqrt, ?exp2, ?log2, ?sinp, ?cosp, ?tanh⟩
  case rcp => exact issueSpecial_pending (g := fun f v => fpDiv f (effMode c r) (FVal.ofInt 1) v) fun _ => rfl
  case rsq => exact issueSpecial_pending (g := fun f v => fpRsq f .rne v) fun _ => rfl
  case sqrt => exact issueSpecial_pending (g := fun f v => fpSqrt f (effMode c r) v) fun _ => rfl
  case exp2 => exact issueSpecial_pending (g := fun f v => fpExp2 f .rne v) fun _ => rfl
  case log2 => exact issueSpecial_pending (g := fun f v => fpLog2 f .rne v) fun _ => rfl
  case sinp => exact issueSpecial_pending (g := fun f v => fpSinCos f .rne false v) fun _ => rfl
  case cosp => exact issueSpecial_pending (g := fun f v => fpSinCos f .rne true v) fun _ => rfl
  case tanh => exact issueSpecial_pending (g := fun f v => fpTanh f .rne v) fun _ => rfl

end

section
/-! SUPPORT. Floating-point results and conversions (R48, R50, R187 to R192): the results and flags of a fixed-latency floating-point
instruction, and the random draws under stochastic rounding (R74). -/

namespace Sys2Proof.Machine

/-! ### Results in the active lanes -/

/-- A result with its values outside the active lanes left out: no write takes those. -/
def Iss.onActive (x : Iss) (e : Dst × (Nat → Word)) : Dst × (Nat → Word) := (e.1, fun l => if x.act.getLsbD l then e.2 l else 0)

theorem Results.last_onActive (ws : Results) (x : Iss) (d : Dst) :
    Results.last (ws.map x.onActive) d = (ws.last d).map fun f l => if x.act.getLsbD l then f l else 0 := by
  rw [Results.last, ← List.map_reverse, List.find?_map, Option.map_map, Results.last, Option.map_map]
  rfl

/-- Results that agree in the active lanes have last results that agree there. -/
theorem Results.last_agree {x : Iss} {ws ws' : Results} (he : ws.map x.onActive = ws'.map x.onActive) (d : Dst) :
    (ws.last d = none ∧ ws'.last d = none) ∨
      ∃ f g, ws.last d = some f ∧ ws'.last d = some g ∧ ∀ l, x.act.getLsbD l = true → f l = g l := by
  have hlast := congrArg (fun ws : Results => ws.last d) he
  simp only [Results.last_onActive] at hlast
  cases hf : ws.last d with
  | none =>
    rw [hf] at hlast
    exact .inl ⟨rfl, Option.map_eq_none_iff.1 hlast.symm⟩
  | some f =>
    rw [hf] at hlast
    obtain ⟨g, hg, hfg⟩ := Option.map_eq_some_iff.1 hlast.symm
    exact .inr ⟨f, g, rfl, hg, fun l hl => by simpa [hl] using (congrFun hfg l).symm⟩

/-- What is written depends on the results in the active lanes alone. -/
theorem Wrote.of_agree {x : Iss} {k : Skein} {ws ws' : Results} {fl : BitVec 5} (h : Wrote x k ws fl)
    (he : ws.map x.onActive = ws'.map x.onActive) : Wrote x k ws' fl where
  vec v l hl hv := by
    rw [h.vec v l hl hv]
    obtain ⟨hf, hg⟩ | ⟨f, g, hf, hg, hfg⟩ := Results.last_agree he (.vec v)
    · rw [hf, hg]
    · simp only [hf, hg]
      split
      · next ha => exact hfg l ha
      · rfl
  scl n := by
    rw [h.scl n]
    obtain ⟨hf, hg⟩ | ⟨f, g, hf, hg, hfg⟩ := Results.last_agree he (.scl n)
    · rw [hf, hg]
    · rw [hf, hg]
      cases hlow : x.low with
      | none => rfl
      | some l => exact hfg l (Iss.low_act hlow)
  prd p l hp := by
    rw [h.prd p l hp]
    obtain ⟨hf, hg⟩ | ⟨f, g, hf, hg, hfg⟩ := Results.last_agree he (.prd p)
    · obtain ⟨hf', hg'⟩ | ⟨f, g, hf', hg', hfg⟩ := Results.last_agree he .pword
      · rw [hf, hg, hf', hg']
      · simp only [hf, hg, hf', hg']
        split
        · next ha => rw [hfg l ha]
        · rfl
    · simp only [hf, hg]
      split
      · next ha => rw [hfg l ha]
      · rfl
  fibres := h.fibres
  flags := h.flags
  pend := by
    have hd : ws.map Prod.fst = ws'.map Prod.fst := by simpa [Iss.onActive, Function.comp_def] using congrArg (List.map Prod.fst) he
    have hfold : ∀ ws : Results, ws.foldl (fun k e => k.supersede e.1 (x.lanesOf e.1)) x.k =
        (ws.map Prod.fst).foldl (fun k d => k.supersede d (x.lanesOf d)) x.k := fun ws => by rw [List.foldl_map]
    rw [h.pend, hfold, hfold, hd]
  bad := h.bad
  rest := h.rest

/-- The results of values that agree in the active lanes agree there. -/
theorem Iss.results_agree {x : Iss} (wide : Bool) (d : Opnd) {f g : Nat → DWord} (h : ∀ l, x.act.getLsbD l = true → f l = g l) :
    (x.results wide d f).map x.onActive = (x.results wide d g).map x.onActive := by
  have hpart : ∀ (e : Dst) (half : DWord → Word), x.onActive (e, fun l => half (f l)) = x.onActive (e, fun l => half (g l)) := by
    intro e half
    refine Prod.ext rfl (funext fun l => ?_)
    simp only [Iss.onActive]
    split
    · next ha => rw [h l ha]
    · rfl
  cases wide with
  | false => simp only [Iss.results, Bool.false_eq_true, if_false, List.map_cons, List.map_nil, hpart]
  | true => simp only [Iss.results, if_true, List.map_cons, List.map_nil, hpart]

/-! ### Floating-point results -/

/-- One more result, predicate 7 among them: an index of a predicate is at most 7. -/
theorem Wrote.putAny {x : Iss} (hx : x.Sound) {k : Skein} {ws : Results} {fl : BitVec 5} (h : Wrote x k ws fl) {d : Dst}
    (hp : ∀ p, d = .prd p → p ≤ 7) (hw : d = .pword → ∀ p, ws.last (.prd p) = none) (t : Nat → TagR) (f : Nat → Word) :
    Wrote x (x.put k d t f) (ws ++ [(d, f)]) fl := by
  by_cases htrue : d = .prd 7
  · rw [htrue]
    exact h.putPrdTrue t f
  · exact h.put hx d (fun p hd => lt_of_le_of_ne (hp p hd) fun h7 => htrue (h7 ▸ hd)) hw t f

theorem Dst.prd_of_next {d : Dst} {n p : Nat} (h : d.next n = .prd p) : d = .prd p := by
  cases d with
  | prd _ => exact h
  | _ => exact Dst.noConfusion h

theorem Dst.pword_of_next {d : Dst} {n : Nat} (h : d.next n = .pword) : d = .pword := by
  cases d with
  | pword => rfl
  | _ => exact Dst.noConfusion h

/-- The result of a 64-bit form, low half first (R43). -/
theorem Wrote.put64 {x : Iss} (hx : x.Sound) (d : Opnd) (val : Nat → DWord) :
    Wrote x (x.put64 x.k (x.dstOf d) val) (x.results true d val) 0 := by
  have hlow := Wrote.putOnly hx d (fun _ => .g) fun l => loOf (val l)
  refine hlow.putAny hx (fun p hp => Iss.dstOf_prd_le (Dst.prd_of_next hp)) (fun hpw p => ?_) _ _
  rw [Dst.pword_of_next hpw]
  rfl

/-- A floating-point instruction writes its values and joins the flags of its active lanes (R48). -/
theorem Wrote.putF {x : Iss} (hx : x.Sound) (wide : Bool) (d : Opnd) (t : Nat → TagR) (f : Nat → DWord × FFlags) :
    Wrote x (x.putF wide d t f) (x.results wide d fun l => (f l).1) (orFlags (x.lanes f)) := by
  have hagree : ∀ l, x.act.getLsbD l = true → laneVal (x.lanes f) l = (f l).1 := by
    intro l hl
    have hlive := hx.act l hl
    simp only [Skein.live_getLsbD, Bool.and_eq_true, decide_eq_true_eq] at hlive
    obtain ⟨⟨-, hwidth⟩, -⟩ := hlive
    exact Iss.laneVal_lanes f hwidth hl
  have hwrote : Wrote x (if wide then x.put64 x.k (x.dstOf d) (laneVal (x.lanes f))
      else x.put x.k (x.dstOf d) t fun l => loOf (laneVal (x.lanes f) l)) (x.results wide d (laneVal (x.lanes f))) 0 := by
    cases wide with
    | false => exact Wrote.putOnly hx d t _
    | true => exact Wrote.put64 hx d _
  exact (hwrote.of_agree (Iss.results_agree wide d hagree)).addFlags

/-! ### Draws under stochastic rounding (R74) -/

/-- The word that a lane's conversion takes for its element e, of n that it converts: 0 in every mode but SR. -/
def Iss.drawn (x : Iss) (m : RMode) (n l e : Nat) : Nat := if m = .sr then ((genDraw (x.k.gen l) n).1[e]?).getD 0 else 0

/-- The skein after n draws of each active lane, which are made under SR only. -/
def Iss.afterDraws (x : Iss) (m : RMode) (n : Nat) (k : Skein) : Skein :=
  if m = .sr then { k with gens := (laneList x.act).foldl (fun g l => amPut g l (genDraw (x.k.gen l) n).2) x.k.gens } else k

theorem Wrote.gens {x : Iss} {k : Skein} {ws : Results} {fl : BitVec 5} (h : Wrote x k ws fl) : k.gens = x.k.gens :=
  (congrArg Skein.gens h.rest :)

theorem Iss.drawn_eq (x : Iss) (m : RMode) (n l : Nat) :
    x.drawn m n l = fun e => ((if m = .sr then (genDraw (x.k.gen l) n).1 else [])[e]?).getD 0 := by
  funext e
  unfold Iss.drawn
  split <;> rfl

/-- A conversion writes the results of the words drawn, and its generators advance. -/
theorem Iss.converting_wrote {x : Iss} (hx : x.Sound) (m : RMode) (n : Nat) (wide : Bool) (d : Opnd) (t : Nat → TagR)
    (f : Nat → (Nat → Nat) → DWord × FFlags) :
    ∃ k, Wrote x k (x.results wide d fun l => (f l (x.drawn m n l)).1) (orFlags (x.lanes fun l => f l (x.drawn m n l))) ∧
      x.converting m n wide d t f = x.afterDraws m n k := by
  have hw := Wrote.putF hx wide d t fun l => f l (x.drawn m n l)
  refine ⟨_, hw, ?_⟩
  simp only [Iss.converting, ← Iss.drawn_eq, hw.gens, Iss.afterDraws]

/-- An instruction whose effect is a conversion completes with the results of the words drawn and with its generators advanced. -/
theorem GivesAnd.of_converting {i : Instr} {f : Iss → Skein} {m : RMode} {n : Nat} {wide : Bool} {d : Opnd}
    (g : Iss → Nat → (Nat → Nat) → DWord × FFlags) (hexec : ∀ s, exec i s = issueFixed i s f)
    (hf : ∀ x, ∃ t, f x = x.converting m n wide d t (g x)) :
    GivesAnd i (fun x => x.results wide d fun l => (g x l (x.drawn m n l)).1)
      (fun x => orFlags (x.lanes fun l => g x l (x.drawn m n l))) fun x k => x.afterDraws m n k := by
  intro s x hx
  obtain ⟨t, ht⟩ := hf x
  obtain ⟨k, hk, hconv⟩ := Iss.converting_wrote (mkIss_sound hx.sees) m n wide d t (g x)
  exact ⟨k, hk, by rw [hexec, issueFixed_next hx, ht, hconv]⟩

/-! ### CVT and CVTS (R187 to R189) -/

/-- What CVT gives a lane whose element takes this word. -/
def Iss.cvtLane (x : Iss) (df sf : Fmt) (m : RMode) (a : Opnd) (l : Nat) (word : Nat → Nat) : DWord × FFlags :=
  cvtOne (Fmt.num df) (Fmt.num sf) m (word 0) (numElem (Fmt.num sf) a (x.opA a (NumTy.is64 (Fmt.num sf)) l))

/-- What the packed form gives a lane: element 0 of SRCA, element 1 of SRCB above it. -/
def Iss.cvtPackedLane (x : Iss) (df sf : Fmt) (m : RMode) (a b : Opnd) (l : Nat) (word : Nat → Nat) : DWord × FFlags :=
  let p := cvtOne (Fmt.num df) (Fmt.num sf) m (word 0) (numElem (Fmt.num sf) a (x.opA a false l))
  let u := cvtOne (Fmt.num df) (Fmt.num sf) m (word 1) (numElem (Fmt.num sf) b (x.op b false l))
  (p.1 ||| u.1 <<< 16, p.2 ||| u.2)

/-- What CVTS gives a lane: the exact product with an FP32 scale, converted once. -/
def Iss.cvtsLane (x : Iss) (df sf : Fmt) (m : RMode) (a b : Opnd) (l : Nat) (word : Nat → Nat) : DWord × FFlags :=
  cvtScaled (Fmt.num df) (Fmt.num sf) m (word 0) (numElem (Fmt.num sf) a (x.opA a (NumTy.is64 (Fmt.num sf)) l))
    (fpElem .f32 b (x.op b false l) 0)

/-! ### PACKF (R191) -/

/-- The FP32 values that PACKF takes: the words of SRCA's pair, then those of SRCB's. -/
def Iss.packSrc (x : Iss) (a b : Opnd) (l n : Nat) : Nat :=
  if n < 2 then (x.opA a true l).toNat / 2 ^ (32 * n) % 2 ^ 32 else (x.op b true l).toNat / 2 ^ (32 * (n - 2)) % 2 ^ 32

/-- The low w bits of four elements, side by side. -/
def packFour (w : Nat) (el : Nat → DWord × FFlags) : Nat :=
  (el 0).1.toNat % 2 ^ w + (el 1).1.toNat % 2 ^ w * 2 ^ w + (el 2).1.toNat % 2 ^ w * 2 ^ (2 * w) +
    (el 3).1.toNat % 2 ^ w * 2 ^ (3 * w)

/-- What PACKF gives a lane whose elements take these words: four bytes, or four nibbles beside the kept half of vd. -/
def Iss.packLane (x : Iss) (t : Fmt) (m : RMode) (hi : Bool) (d a b : Opnd) (l : Nat) (word : Nat → Nat) : DWord × FFlags :=
  let el := fun n => cvtOne (Fmt.num t) (.fp .f32) m (word n) (x.packSrc a b l n)
  let old := (x.dstWord d l).toNat
  let v := if t = .e2m1 then (if hi then old % 2 ^ 16 + packFour 4 el * 2 ^ 16 else old / 2 ^ 16 * 2 ^ 16 + packFour 4 el)
    else packFour 8 el
  (BitVec.ofNat 64 v, (el 0).2 ||| (el 1).2 ||| (el 2).2 ||| (el 3).2)

theorem Iss.packSrc_words (x : Iss) (a b : Opnd) (l : Nat) :
    x.packSrc a b l 0 = (loOf (x.opA a true l)).toNat ∧ x.packSrc a b l 1 = (hiOf (x.opA a true l)).toNat ∧
      x.packSrc a b l 2 = (loOf (x.op b true l)).toNat ∧ x.packSrc a b l 3 = (hiOf (x.op b true l)).toNat := by
  simp [Iss.packSrc, Nat.shiftRight_eq_div_pow]

theorem foldl_range_four (w : Nat) (el : Nat → DWord × FFlags) :
    (List.range 4).foldl (fun n e => n + (el e).1.toNat % 2 ^ w * 2 ^ (w * e)) 0 = packFour w el := by
  simp [packFour, List.range_succ, Nat.mul_comm w]

/-- PACKF is a conversion of four elements. -/
theorem Iss.packNarrow_converting (x : Iss) (t : Fmt) (m : RMode) (hi : Bool) (d a b : Opnd) :
    ∃ tags, x.packNarrow t m hi d a b = x.converting m 4 false d tags (x.packLane t m hi d a b) := by
  unfold Iss.packNarrow
  refine ⟨_, congrArg (x.converting m 4 false d _) (funext fun l => funext fun word => ?_)⟩
  obtain ⟨h0, h1, h2, h3⟩ := x.packSrc_words a b l
  by_cases ht : t = .e2m1
  · simp only [ht, Iss.packLane, foldl_range_four, beq_self_eq_true, if_true, packFour, h0, h1, h2, h3]
    rfl
  · simp only [ht, Iss.packLane, foldl_range_four, beq_eq_false_iff_ne.2 ht, Bool.false_eq_true, if_false, packFour, h0, h1, h2, h3]

end Sys2Proof.Machine

open Sys2Proof Sys2Proof.Machine

/-- Settles O32: CVT, CVTS and PACKF are conversions of one, two or four elements, whose draws `Iss.converting_wrote` counts; UNPKF only
writes its pair, and SRSEED only the generators. -/
theorem conversions : Obligations.Conversions := by
  unfold Obligations.Conversions
  intro c df sf t r hi q d a b
  refine ⟨?cvt, ?packed, ?cvts, ?srseed, ?packf, ?unpkf⟩
  case cvt =>
    exact .of_converting (m := effMode c r) (n := 1) (fun x => x.cvtLane df sf (effMode c r) a) (fun _ => rfl) fun _ => ⟨_, rfl⟩
  case packed =>
    exact .of_converting (m := effMode c r) (n := 2) (fun x => x.cvtPackedLane df sf (effMode c r) a b) (fun _ => rfl)
      fun _ => ⟨_, rfl⟩
  case cvts =>
    exact .of_converting (m := effMode c r) (n := 1) (fun x => x.cvtsLane df sf (effMode c r) a b) (fun _ => rfl)
      fun _ => ⟨_, rfl⟩
  case srseed => exact .of_change (f := fun x => x.seed a) (fun _ => rfl) fun _ => rfl
  case packf =>
    exact .of_converting (m := effMode c r) (n := 4) (fun x => x.packLane t (effMode c r) hi d a b) (fun _ => rfl)
      fun x => x.packNarrow_converting t (effMode c r) hi d a b
  case unpkf =>
    refine .of_wrote (f := fun x => x.unpackNarrow t q d a) (fun _ => rfl) fun s x hx => ?_
    have hsound := mkIss_sound hx
    cases a with
    | imm v => exact Wrote.putF hsound true d _ _
    | _ => exact Wrote.putF hsound true d _ _

end

section
/-! SUPPORT. Barrier objects (R128, R215, R216): the completion test on the bits of an object. -/

namespace Sys2Proof.Machine

theorem bitsOf_zero (x n : Nat) : bitsOf x 0 n = x % 2 ^ n := by
  rw [bitsOf, pow_zero, Nat.div_one]

theorem bitsOf_eq_extractLsb' {w : Nat} (o : BitVec w) (lo n : Nat) : bitsOf o.toNat lo n = (o.extractLsb' lo n).toNat := by
  rw [BitVec.extractLsb'_toNat, Nat.shiftRight_eq_div_pow]
  rfl

/-- The completion test holds where ARRIVED equals EXPECTED and no bytes are pending (R128). -/
def objComplete (o : BitVec 128) : Prop := o.extractLsb' 64 16 = o.extractLsb' 80 16 ∧ o.extractLsb' 0 48 = 0

theorem objComplete_iff (o : BitVec 128) :
    objComplete o ↔ (bitsOf o.toNat 64 16 == bitsOf o.toNat 80 16 && bitsOf o.toNat 0 48 == 0) = true := by
  simp only [bitsOf_eq_extractLsb', Bool.and_eq_true, beq_iff_eq, BitVec.toNat_inj]
  exact and_congr_right fun _ => ⟨fun h => by rw [h]; rfl, fun h => BitVec.eq_of_toNat_eq h⟩

/-- A complete phase clears ARRIVED and turns PHASE. -/
theorem barObjTest_complete {o : BitVec 128} (h : objComplete o) :
    (barObjTest o).1 = (o &&& ~~~(BitVec.ofNat 128 (0xFFFF * 2 ^ 64))) ^^^ BitVec.ofNat 128 (2 ^ 96) := by
  rw [barObjTest, if_pos ((objComplete_iff o).1 h)]

theorem barObjTest_incomplete {o : BitVec 128} (h : ¬objComplete o) : (barObjTest o).1 = o := by
  rw [barObjTest, if_neg (mt (objComplete_iff o).2 h)]

/-- The bits of a completed object: those of ARRIVED are 0, PHASE is turned, and the others stay. -/
theorem getLsbD_barObjTest_complete {o : BitVec 128} (h : objComplete o) {i : Nat} (hi : i < 128) :
    (barObjTest o).1.getLsbD i = ((o.getLsbD i && !(decide (64 ≤ i ∧ i < 80))) ^^ decide (i = 96)) := by
  have harrived : (0xFFFF * 2 ^ 64 : Nat).testBit i = decide (64 ≤ i ∧ i < 80) := by
    rw [show 0xFFFF = 2 ^ 16 - 1 from rfl, Nat.testBit_mul_two_pow, Nat.testBit_two_pow_sub_one, ← Bool.decide_and]
    exact decide_eq_decide.2 (by omega)
  have hphase : (2 ^ 96 : Nat).testBit i = decide (i = 96) := by
    rw [Nat.testBit_two_pow]
    exact decide_eq_decide.2 eq_comm
  rw [barObjTest_complete h, BitVec.getLsbD_xor, BitVec.getLsbD_and, BitVec.getLsbD_not, BitVec.getLsbD_ofNat, BitVec.getLsbD_ofNat,
    harrived, hphase]
  simp [hi]

/-- A field of an object that holds neither ARRIVED nor PHASE stays at completion. -/
theorem extractLsb'_barObjTest_complete {o : BitVec 128} (h : objComplete o) {lo n : Nat}
    (hout : ∀ j, j < n → lo + j < 128 ∧ ¬(64 ≤ lo + j ∧ lo + j < 80) ∧ lo + j ≠ 96) :
    (barObjTest o).1.extractLsb' lo n = o.extractLsb' lo n := by
  refine BitVec.eq_of_getLsbD_eq fun j hj => ?_
  obtain ⟨hlt, hnot, hne⟩ := hout j hj
  simp only [BitVec.getLsbD_extractLsb', getLsbD_barObjTest_complete h hlt, hnot, hne]
  simp

theorem arrived_barObjTest_complete {o : BitVec 128} (h : objComplete o) : (barObjTest o).1.extractLsb' 64 16 = 0 := by
  refine BitVec.eq_of_getLsbD_eq fun j hj => ?_
  rw [BitVec.getLsbD_extractLsb', getLsbD_barObjTest_complete h (by omega)]
  simp [show 64 + j < 80 by omega, show ¬64 + j = 96 by omega]

/-! ### Changes of the objects that an instruction names -/

/-- Where the rows of every object named have been cleared, each is changed once. -/
theorem Iss.changeObjs_clear {x : Iss} {die : Bool} {a : Opnd} {off : BitVec 24} (h : x.objsClear (x.objects die a off) = true)
    (f : State → Nat → Nat → Nat → State) : x.changeObjs die a off f =
      x.finish ((x.objects die a off).foldl (fun s e => f s e.1.1 e.1.2 e.2) (if die then x.s.markSide (x.k.lots x.act) false else x.s))
        (x.advance x.k) false := by
  simp only [Iss.changeObjs, h, Bool.not_true, Bool.false_eq_true, if_false]
  cases die <;> rfl

end Sys2Proof.Machine

open Sys2Proof Sys2Proof.Machine

/-- Settles O43: the rows of the objects named are clear and no release need wait, so each instruction has its effect; the completion test
is read bit by bit. -/
theorem barrierObjects : Obligations.BarrierObjects := by
  unfold Obligations.BarrierObjects
  refine ⟨fun c die off a b => ⟨?binit, ?bexp, ?barv, ?bwait⟩, fun o => ⟨fun h => ?complete, fun h => barObjTest_incomplete h⟩⟩
  case binit =>
    refine .of_issue (fun _ => rfl) fun x h => ?_
    rw [Iss.changeObjs_clear h]
    simp only [bitsOf_zero]
  case bexp => exact .of_issue (fun _ => rfl) fun x h => Iss.changeObjs_clear h _
  case barv =>
    refine .of_issue (fun _ => rfl) fun x ⟨hclear, hready⟩ => ?_
    rw [hclear, Bool.not_true, if_neg Bool.false_ne_true, Iss.afterWrites_ready hready]
    exact Iss.changeObjs_clear hclear _
  case bwait =>
    refine .of_issue (fun _ => rfl) fun x ⟨hclear, l, hact, hobj⟩ => ?_
    have hne : ((laneList x.act).filter fun l => (x.objAt die a off l).isSome) ≠ [] :=
      List.ne_nil_of_mem (List.mem_filter.2 ⟨(mem_laneList x.act l).2 hact, hobj⟩)
    simp only [hclear, Bool.not_true, if_neg Bool.false_ne_true, List.isEmpty_iff, List.map_eq_nil_iff, hne]
    rfl
  case complete =>
    refine ⟨arrived_barObjTest_complete h, ?_, extractLsb'_barObjTest_complete h (by omega), ?_⟩
    · rw [getLsbD_barObjTest_complete h (by omega)]
      simp
    · rw [extractLsb'_barObjTest_complete h (by omega)]
      exact h.2

end

section
/-! SUPPORT. SHAPE, SEAL, CPWT, LAND and LANDF (R127, R219, R220, R229, R232, R233): what each comes to once its checks hold. -/

namespace Sys2Proof.Machine

theorem Iss.act_of_low {x : Iss} {l : Nat} (h : x.low = some l) : (x.act == 0) = false := by
  have hl := Iss.low_act h
  refine beq_eq_false_iff_ne.2 fun h0 => ?_
  simp [h0] at hl

/-- What SHAPE does, once the skein's earlier accesses are performed and the streamer's queue has room, with what it finds (R219, R220). -/
def Iss.shaped (x : Iss) (i : Instr) (l : Nat) (va : DWord) : ShapeGot → State
  | .wait v => match x.refused [v] with
    | some (code, d, _) => x.shapeFails l code d v
    | none => x.asking [v]
  | .bad code v => x.shapeFails l code 255 v
  | .off _ => x.s
  | .ok sh => if x.lot.role == .trailing then x.finish x.s x.afterStore false
    else x.finish (x.s.addCopy { x.copy i l [] none with src := va, shape := some sh }) x.afterStore false

theorem shape_next {c : Ctl} {slot : BitVec 4} {off : BitVec 24} {a : Opnd} {s : State} {x : Iss} {l : Nat} (hlow : x.low = some l)
    (hquiet : x.s.skeinQuiet x.c x.q x.k.seq x.k.hb = true) (hroom : x.s.quadLoad x.c < 64)
    (hx : Issues (.shape c slot off a) s x false (Instr.hits (.shape c slot off a) x)) :
    let va := x.spaceAddr .g a (sx24 off) l
    exec (.shape c slot off a) s = .next (x.after (.shape c slot off a)
      (x.shaped (.shape c slot off a) l va (x.s.shapeAt x.c x.part va))) := by
  refine (issue_next (own := Instr.hits (.shape c slot off a)) hx).trans ?_
  simp only [Iss.act_of_low hlow, hquiet, Nat.not_le.2 hroom, hlow]
  rfl

/-- An instruction with its own condition at issue completes where its effect is known. -/
theorem exec_of_issue {i : Instr} {s : State} {x : Iss} {ll : Bool} {own : Iss → List Hit} {f : Iss → State} {t : State}
    (hexec : exec i s = issue i s ll own f) (hx : Issues i s x ll (own x)) (heq : f x = t) : exec i s = .next (x.after i t) := by
  rw [hexec, issue_next (own := own) hx, heq]

/-- A lot that stands alone is not a trailing one. -/
theorem Iss.not_trailing {x : Iss} (h : x.lot.role = .single) : (x.lot.role == .trailing) = false := by
  rw [h]
  rfl

/-- Where all contributions on their way from a skein are reports, every earlier LAND has been answered. -/
theorem lands_answered {ms : List LandMsg} {c q : Nat} (h : ∀ m ∈ ms, m.core = c → m.slot = q → m.report = true) :
    (ms.any fun m => m.core == c && m.slot == q && !m.report) = false := by
  refine List.any_eq_false.2 fun m hm hsent => ?_
  simp only [Bool.and_eq_true, beq_iff_eq, Bool.not_eq_true'] at hsent
  obtain ⟨⟨hcore, hslot⟩, hopen⟩ := hsent
  rw [h m hm hcore hslot] at hopen
  cases hopen

end Sys2Proof.Machine

open Sys2Proof Sys2Proof.Machine

/-- Settles O46: SHAPE does what it finds at its record, SEAL and CPWT have no wait at issue, and a lot that is no trailing one sends its
contributions and, with nothing left to wait for, its report. -/
theorem streamerAndLandingCommands : Obligations.StreamerAndLandingCommands := by
  unfold Obligations.StreamerAndLandingCommands
  refine ⟨fun c slot off a => ⟨?shape, ?closeBatch, ?batchWait⟩, fun c t off a b => ⟨?land, ?landf⟩⟩
  case shape =>
    intro s x l hlow hrole hquiet hroom va hx
    have hnext := shape_next hlow hquiet hroom hx
    refine ⟨fun sh hsh => ?_, fun v hv hno => ?_, fun v code hbad => ?_⟩
    · rw [hnext, hsh, Iss.shaped, Iss.not_trailing hrole, if_neg Bool.false_ne_true]
    · rw [hnext, hv, Iss.shaped, hno]
    · rw [hnext, hbad, Iss.shaped, Iss.shapeFails]
  case closeBatch =>
    refine .of_issue (fun _ => rfl) fun x hact => ?_
    rw [beq_eq_false_iff_ne.2 hact, if_neg Bool.false_ne_true]
  case batchWait =>
    intro s x l hlow hx
    refine exec_of_issue rfl hx ?_
    rw [hlow]
  case land =>
    refine .of_issue (fun _ => rfl) fun x hrole => ?_
    rw [Iss.not_trailing hrole, if_neg Bool.false_ne_true]
    rfl
  case landf =>
    intro s x l hx hone hrole hready hnone hlands
    refine exec_of_issue rfl hx ?_
    rw [lands_answered hlands, hnone, hone, List.any_cons, List.any_nil, Bool.or_false, if_neg Bool.false_ne_true,
      Iss.afterWrites_ready fun _ => hready, hone, Iss.not_trailing hrole]
    rfl

end

section
/-! SUPPORT. FENCE and CCTL (R108, R114, R115, R117, R209, R210): the waits of a fence, the bytes that a write-through leaves in the memory
behind the hub, and the lines that `.inv1` drops. -/

namespace Sys2Proof.Machine

/-! ### The writes of dirty far lines -/

/-- What a byte of a line reads after the line has been copied from another memory. -/
theorem memRead_copyLine {far : Memory} (h : Memory.wf far = true) (mem : Memory) (ln n : Nat) :
    memRead (memStore far (128 * ln) (memBytes mem (128 * ln) 128)) n = if n / 128 = ln then memRead mem n else memRead far n := by
  rw [memRead_memStore _ _ _ h, memBytes_length]
  by_cases hn : n / 128 = ln
  · rw [if_pos hn, if_pos (by omega), memBytes_get _ _ _ _ (by omega), Option.getD_some, Nat.add_sub_cancel' (by omega)]
  · rw [if_neg hn, if_neg (by omega)]

/-- What a byte reads after some lines have been copied from another memory. -/
theorem memRead_copyLines (mem : Memory) (lns : List Nat) (n : Nat) {far : Memory} (h : Memory.wf far = true) :
    memRead (lns.foldl (fun m ln => memStore m (128 * ln) (memBytes mem (128 * ln) 128)) far) n =
      if n / 128 ∈ lns then memRead mem n else memRead far n := by
  induction lns generalizing far with
  | nil => simp
  | cons ln lns ih =>
    rw [List.foldl_cons, ih (memStore_wf _ _ h), memRead_copyLine h]
    by_cases hin : n / 128 ∈ lns
    · rw [if_pos hin, if_pos (List.mem_cons_of_mem ln hin)]
    · by_cases hn : n / 128 = ln <;> simp [hin, hn]

/-- What a byte of the memory behind the hub reads after the dirty lines of a set have been written through. -/
theorem State.memRead_hubClean {s : State} (h : Memory.wf s.far = true) (sel : Nat → Bool) (n : Nat) :
    memRead (s.hubClean sel).far n = if n / 128 ∈ s.hubDirty.filter sel then memRead s.mem n else memRead s.far n :=
  memRead_copyLines s.mem _ n h

/-! ### FENCE -/

/-- An instruction whose release has to wait stays at its address. -/
theorem Iss.released_blocked {x : Iss} {sc : Scope} (hact : x.act ≠ 0) (h : x.s.releaseReady x.c x.q sc = false) (go : Iss → State) :
    x.released sc go = x.s.setSkein x.c x.q { x.k with relWait := some ⟨x.pc, sc, x.s.tick, x.info⟩ } := by
  rw [Iss.released, Iss.afterWrites, if_neg (by simpa using hact), if_neg (by simp [h])]

/-- An instruction whose release need not wait goes on, after dirty far lines have been written through and the stamps of its lots have
risen. -/
theorem Iss.released_ready {x : Iss} {sc : Scope} (hact : x.act ≠ 0) (h : x.s.releaseReady x.c x.q sc = true) (go : Iss → State) :
    x.released sc go = go { x with s := (x.s.throughFor sc).stampLots (x.k.lots x.act) fun l => l.releaseStamp sc } := by
  rw [Iss.released, Iss.afterWrites, if_neg (by simpa using hact), if_pos h]

/-- A fence whose reads are performed does not wait for them (R108). -/
theorem Iss.fence_unblocked {x : Iss} {ord : MOrd} (h : ord = .rel ∨ x.k.pend.any Pending.reads = false) :
    ¬(ord != .rel && x.act != 0 && x.k.pend.any Pending.reads) = true := by
  rcases h with rfl | h
  · exact Bool.false_ne_true
  · rw [h, Bool.and_false]
    exact Bool.false_ne_true

/-! ### CCTL -/

/-- `.inv1` drops the lines whose address lies in one of the ranges named, and no other. -/
theorem mem_l1_inv1 (s : State) (c : Nat) (rs : List (Nat × Nat)) (e : Nat × Line) :
    e ∈ ((s.updCore c fun u => { u with l1 := u.l1.filter fun e => !rs.any fun r => r.1 ≤ 128 * e.1 && decide (128 * e.1 < r.2) }).core c).l1 ↔
      e ∈ (s.core c).l1 ∧ ∀ r ∈ rs, ¬(r.1 ≤ 128 * e.1 ∧ 128 * e.1 < r.2) := by
  rw [State.core_updCore]
  simp

/-- A command that names no access of lanes, and no scratchpad or checked page, is pending with its lane addresses. -/
theorem Iss.startAccess_pending {x : Iss} {i : Instr} (hacc : accessOf i = none) (hfmt : isFmtLoad i = false) (hsingle : x.lot.role = .single)
    (addr b c : Nat → DWord) (dsts : List Dst) : ∃ p : Pending, p.Asks x i addr dsts ∧
      x.startAccess i addr b c dsts = x.skeinOnly (x.k.addPend p) := by
  refine ⟨{ x.pending i addr b c dsts with hold := x.holds i false (x.s.pagePieces x.c x.k i ((List.range x.k.width).map addr)) }, ⟨rfl, rfl,
    rfl, rfl, rfl, ?_, fun l hl => ?_⟩, ?_⟩
  · simp [Iss.pending, Function.comp_def]
  · simp [Iss.pending, hl]
  · simp only [Iss.startAccess, Iss.orForward, Iss.not_trailing hsingle, Iss.counted, hacc, hfmt]
    simp only [Bool.false_and, Bool.and_false, Bool.false_eq_true, if_false]
    rfl

end Sys2Proof.Machine

open Sys2Proof Sys2Proof.Machine

/-- Settles O40: a fence takes the branch that its reads and its release decide, a write-through copies each dirty line, and CCTL drops the
lines of its ranges or is pending. -/
theorem fencesAndCaches : Obligations.FencesAndCaches := by
  unfold Obligations.FencesAndCaches
  refine ⟨fun c ord sc s x hx hact => ⟨?reads, ?acquire, ?release, ?both, ?waits⟩, fun s ⟨hmem, hfar⟩ => ?through,
    fun c o off a b s x hord => ⟨fun hx => ?inv1, fun ho hx => ?pending⟩⟩
  case reads =>
    intro hne hreads
    refine exec_of_issue (own := fun _ => []) rfl hx (if_pos ?_)
    rw [bne_iff_ne.2 hne, bne_iff_ne.2 hact, hreads]
    rfl
  case acquire =>
    rintro rfl hreads
    refine exec_of_issue (own := fun _ => []) rfl hx ((if_neg (Iss.fence_unblocked (.inr hreads))).trans ?_)
    exact if_neg (by simpa using hact)
  case release =>
    rintro rfl hready
    refine exec_of_issue (own := fun _ => []) rfl hx ((if_neg (Iss.fence_unblocked (.inl rfl))).trans ?_)
    exact Iss.released_ready hact hready _
  case both =>
    intro hord hreads hready
    refine exec_of_issue (own := fun _ => []) rfl hx ((if_neg (Iss.fence_unblocked (.inr hreads))).trans ?_)
    rcases hord with rfl | rfl <;> exact (Iss.released_ready hact hready _).trans (if_neg (by simpa using hact))
  case waits =>
    intro hord hwait
    refine exec_of_issue (own := fun _ => []) rfl hx ((if_neg (Iss.fence_unblocked (hord.imp_right And.right))).trans ?_)
    rcases hord with rfl | ⟨rfl | rfl, -⟩ <;> exact Iss.released_blocked hact hwait _
  case through =>
    rw [State.throughFor, if_pos rfl]
    have hread := State.memRead_hubClean hfar (fun _ => true)
    rw [List.filter_true] at hread
    refine ⟨List.filter_false _, rfl, fun ln j hln hj => ?_, fun n hn => ?_⟩
    · rw [hread, show (128 * ln + j) / 128 = ln by omega, if_pos hln]
    · rw [hread, if_neg hn]
  case inv1 =>
    refine ⟨_, ⟨?_, ?_, ?_⟩, exec_of_issue (own := fun _ => []) rfl hx rfl, fun e => ?_⟩
    · rfl
    · rfl
    · rfl
    · rw [mem_l1_inv1]
      simp only [List.mem_flatMap, mem_laneList, forall_exists_index, and_imp]
      exact and_congr_right fun _ => ⟨fun h l hl r hr => h r l hl hr, fun h r l hl hr => h l hl r hr⟩
  case pending =>
    obtain ⟨p, hp, hstart⟩ := Iss.startAccess_pending (i := .cctl c o off a b) rfl rfl hord.single (x.spaceAddr .g a (sx24 off))
      (x.op b false) zeroLane []
    have hlong : Issues (.cctl c o off a b) s x (o != .inv1) [] := by
      rw [bne_iff_ne.2 ho]
      exact hx
    refine ⟨p, x.s, hp, ⟨rfl, rfl, rfl⟩, exec_of_issue (own := fun _ => []) rfl hlong ((if_neg ?_).trans hstart)⟩
    simpa using ho

end

section
/-! SUPPORT. What an access at its home slice changes (R91, R92, R115, R123): the slices' own record of lines and stamps, and, of a far
line, the bytes of the memory behind its hub slice. -/

namespace Sys2Proof.Machine

theorem amGet_amErase {β : Type} (m : AMap β) (a b : Nat) : amGet (amErase m a) b = if a = b then none else amGet m b := by
  induction m with
  | nil => simp [amErase, amGet]
  | cons e m ih =>
    obtain ⟨k, v⟩ := e
    simp only [amErase]
    split
    · rename_i hk
      rw [ih, amGet, hk]
      split <;> rfl
    · rename_i hk
      simp only [amGet, ih]
      split
      · rename_i hb
        rw [if_neg (by omega)]
      · rfl

theorem mem_insNat (l : List Nat) (x y : Nat) : y ∈ insNat l x ↔ y = x ∨ y ∈ l := by
  induction l with
  | nil => simp [insNat]
  | cons z l ih =>
    simp only [insNat]
    split
    · simp only [List.mem_cons, ih]
      tauto
    · split
      · rename_i hz
        simp [hz]
      · simp

/-- The line of a physical address that begins it. -/
theorem linesOf_line (ln : Nat) : linesOf (128 * ln) 128 = [ln] := by
  rw [linesOf, show (128 * ln + 128 - 1) / 128 + 1 - 128 * ln / 128 = 1 by omega, show 128 * ln / 128 = ln by omega]
  simp

/-! ### What the slices leave -/

/-- The machine without what its slices hold and the memory behind the hub. -/
def State.beyondSlices (s : State) : State := { s with l2 := [], hubLines := [], hubDirty := [], far := [], sectors := [], floors := [] }

@[simp] theorem State.dropStamp_beyondSlices (s : State) (sec : Nat) : (s.dropStamp sec).beyondSlices = s.beyondSlices := by
  unfold State.dropStamp
  split <;> rfl

@[simp] theorem State.dropStamps_beyondSlices (s : State) (ln : Nat) : (s.dropStamps ln).beyondSlices = s.beyondSlices :=
  foldl_keeps State.beyondSlices _ (fun s i => s.dropStamp_beyondSlices (4 * ln + i)) (List.range 4) s

theorem State.l2Drop_beyondSlices (s : State) (ln : Nat) : (s.l2Drop ln).beyondSlices = s.beyondSlices := s.dropStamps_beyondSlices ln

theorem State.l2Room_beyondSlices (s : State) (ln : Nat) : (s.l2Room ln).beyondSlices = s.beyondSlices := by
  unfold State.l2Room
  dsimp only
  split
  · rfl
  · exact State.l2Drop_beyondSlices ..

theorem State.hubDrop_beyondSlices (s : State) (ln : Nat) : (s.hubDrop ln).beyondSlices = s.beyondSlices := s.dropStamps_beyondSlices ln

theorem State.hubRoom_beyondSlices (s : State) (ln : Nat) : (s.hubRoom ln).beyondSlices = s.beyondSlices := by
  unfold State.hubRoom
  dsimp only
  split
  · rfl
  · exact State.hubDrop_beyondSlices ..

theorem State.l2Access_beyondSlices (s : State) (ln : Nat) (m : BitVec 8) (alloc write : Bool) :
    (s.l2Access ln m alloc write).beyondSlices = s.beyondSlices := by
  unfold State.l2Access
  split
  · split <;> rfl
  · split
    · exact s.l2Room_beyondSlices ln
    · split
      · exact s.dropStamps_beyondSlices ln
      · rfl

/-- The machine in which an access of a partition finds its hub line: a line that another partition left has been dropped (R320). -/
def State.hubOwn (s : State) (part ln : Nat) : State :=
  match amGet s.hubLines ln with
  | some h => if h.part == part then s else s.hubDrop ln
  | none => s

theorem State.hubOwn_beyondSlices (s : State) (part ln : Nat) : (s.hubOwn part ln).beyondSlices = s.beyondSlices := by
  unfold State.hubOwn
  split
  · split
    · rfl
    · exact s.hubDrop_beyondSlices ln
  · rfl

/-- A write that goes to the memory behind the hub, of a line that its slice does not hold (R91, R123). -/
def State.hubThrough (s : State) (ln : Nat) : State :=
  { s.dropStamps ln with far := memStore s.far (128 * ln) (memBytes s.mem (128 * ln) 128) }

/-- What an access at a hub slice comes to: the line is held, or is allocated, or a write of it goes to the memory behind. -/
theorem State.hubAccess_cases (s : State) (part ln : Nat) (m : BitVec 8) (alloc write : Bool) :
    (∃ h, amGet (s.hubOwn part ln).hubLines ln = some h ∧ s.hubAccess part ln m alloc write =
      (s.hubOwn part ln).hubPut part ln (if alloc || write then h.valid ||| m else h.valid) write) ∨
    amGet (s.hubOwn part ln).hubLines ln = none ∧ s.hubAccess part ln m alloc write =
      if alloc then ((s.hubOwn part ln).hubRoom ln).hubPut part ln m write
      else if write then (s.hubOwn part ln).hubThrough ln else s.hubOwn part ln := by
  have heq : s.hubAccess part ln m alloc write = match amGet (s.hubOwn part ln).hubLines ln with
      | some h => (s.hubOwn part ln).hubPut part ln (if alloc || write then h.valid ||| m else h.valid) write
      | none => if alloc then ((s.hubOwn part ln).hubRoom ln).hubPut part ln m write
        else if write then (s.hubOwn part ln).hubThrough ln else s.hubOwn part ln := rfl
  rw [heq]
  cases amGet (s.hubOwn part ln).hubLines ln with
  | none => exact .inr ⟨rfl, rfl⟩
  | some h => exact .inl ⟨h, rfl, rfl⟩

theorem State.hubThrough_beyondSlices (s : State) (ln : Nat) : (s.hubThrough ln).beyondSlices = s.beyondSlices :=
  s.dropStamps_beyondSlices ln

theorem State.hubPut_beyondSlices (s : State) (part ln : Nat) (m : BitVec 8) (d : Bool) :
    (s.hubPut part ln m d).beyondSlices = s.beyondSlices := rfl

theorem State.hubAccess_beyondSlices (s : State) (part ln : Nat) (m : BitVec 8) (alloc write : Bool) :
    (s.hubAccess part ln m alloc write).beyondSlices = s.beyondSlices := by
  rw [← s.hubOwn_beyondSlices part ln]
  rcases s.hubAccess_cases part ln m alloc write with ⟨h, -, heq⟩ | ⟨-, heq⟩
  · rw [heq, State.hubPut_beyondSlices]
  · rw [heq]
    split
    · rw [State.hubPut_beyondSlices, State.hubRoom_beyondSlices]
    · split
      · exact State.hubThrough_beyondSlices ..
      · rfl

/-- An access at its home slices leaves the machine beyond them. -/
theorem State.sliceTouch_beyondSlices (s : State) (part pa n : Nat) (alloc write : Bool) :
    (s.sliceTouch part pa n alloc write).beyondSlices = s.beyondSlices :=
  foldl_keeps State.beyondSlices _ (fun s ln => by
    split
    · exact s.hubAccess_beyondSlices part ln _ alloc write
    · exact s.l2Access_beyondSlices ln _ alloc write) _ s

@[simp] theorem State.sliceTouch_skeins (s : State) (part pa n : Nat) (alloc write : Bool) :
    (s.sliceTouch part pa n alloc write).skeins = s.skeins := (congrArg State.skeins (s.sliceTouch_beyondSlices part pa n alloc write) :)

@[simp] theorem State.sliceTouch_cores (s : State) (part pa n : Nat) (alloc write : Bool) :
    (s.sliceTouch part pa n alloc write).cores = s.cores := (congrArg State.cores (s.sliceTouch_beyondSlices part pa n alloc write) :)

@[simp] theorem State.sliceTouch_poison (s : State) (part pa n : Nat) (alloc write : Bool) :
    (s.sliceTouch part pa n alloc write).poison = s.poison := (congrArg State.poison (s.sliceTouch_beyondSlices part pa n alloc write) :)

/-! ### Slices of the compute dies -/

@[simp] theorem State.dropStamps_hubLines (s : State) (ln : Nat) : (s.dropStamps ln).hubLines = s.hubLines :=
  foldl_keeps State.hubLines _ (fun s i => by unfold State.dropStamp; split <;> rfl) (List.range 4) s

@[simp] theorem State.dropStamps_hubDirty (s : State) (ln : Nat) : (s.dropStamps ln).hubDirty = s.hubDirty :=
  foldl_keeps State.hubDirty _ (fun s i => by unfold State.dropStamp; split <;> rfl) (List.range 4) s

@[simp] theorem State.dropStamps_far (s : State) (ln : Nat) : (s.dropStamps ln).far = s.far :=
  foldl_keeps State.far _ (fun s i => by unfold State.dropStamp; split <;> rfl) (List.range 4) s

theorem State.l2Room_far (s : State) (ln : Nat) : (s.l2Room ln).far = s.far := by
  unfold State.l2Room
  dsimp only
  split
  · rfl
  · exact State.dropStamps_far ..

/-- An access at a slice of a compute die leaves the memory behind the hub. -/
theorem State.l2Access_far (s : State) (ln : Nat) (m : BitVec 8) (alloc write : Bool) : (s.l2Access ln m alloc write).far = s.far := by
  unfold State.l2Access
  split
  · split <;> rfl
  · split
    · exact s.l2Room_far ln
    · split
      · exact s.dropStamps_far ln
      · rfl

/-- An access of near memory leaves the memory behind the hub. -/
theorem State.sliceTouch_far_of_near {pa : Nat} (h : isFar pa = false) (s : State) (part n : Nat) (alloc write : Bool) :
    (s.sliceTouch part pa n alloc write).far = s.far :=
  foldl_keeps State.far _ (fun s ln => by rw [h]; exact s.l2Access_far ln _ alloc write) _ s

/-- An access that may allocate has its line in the slice of a compute die. -/
theorem State.l2Access_holds (s : State) (ln : Nat) (m : BitVec 8) (write : Bool) :
    (amGet (s.l2Access ln m true write).l2 ln).isSome = true := by
  unfold State.l2Access
  split <;> simp

/-- An access that may allocate has its line in the hub slice. -/
theorem State.hubAccess_holds (s : State) (part ln : Nat) (m : BitVec 8) (write : Bool) :
    (amGet (s.hubAccess part ln m true write).hubLines ln).isSome = true := by
  rcases s.hubAccess_cases part ln m true write with ⟨h, -, heq⟩ | ⟨-, heq⟩ <;> rw [heq] <;> simp [State.hubPut]

end Sys2Proof.Machine
end

section
/-! SUPPORT. A write at its home slice (R116, R381): the bytes that it leaves in far memory, the lines that are dirty after it (R91, R92,
R115, R320), and what the copies of marked pages change (R399). -/

namespace Sys2Proof.Machine

/-! ### A write of one far line -/

/-- The hub slice holds a line for a partition (R320). -/
def State.heldFor (s : State) (part ln : Nat) : Bool := (amGet s.hubLines ln).any fun h => h.part == part

theorem State.heldFor_iff (s : State) (part ln : Nat) : s.heldFor part ln = true ↔ ∃ h, amGet s.hubLines ln = some h ∧ h.part = part := by
  cases h : amGet s.hubLines ln <;> simp [State.heldFor, h]

theorem State.hubOwn_held {s : State} {part ln : Nat} (h : s.heldFor part ln = true) : s.hubOwn part ln = s := by
  obtain ⟨e, hget, hpart⟩ := (s.heldFor_iff part ln).1 h
  rw [State.hubOwn, hget]
  exact if_pos (beq_iff_eq.2 hpart)

/-- A write of a line that its slice holds for the partition makes it dirty there. -/
theorem State.hubWrite_held {s : State} {part ln : Nat} (m : BitVec 8) (h : s.heldFor part ln = true) :
    ∃ v, s.hubAccess part ln m false true = s.hubPut part ln v true := by
  obtain ⟨e, hget, -⟩ := (s.heldFor_iff part ln).1 h
  rcases s.hubAccess_cases part ln m false true with ⟨e', -, heq⟩ | ⟨hnone, -⟩
  · rw [State.hubOwn_held h] at heq
    exact ⟨_, heq⟩
  · rw [State.hubOwn_held h, hget] at hnone
    cases hnone

theorem State.hubOwn_absent {s : State} {part ln : Nat} (h : s.heldFor part ln = false) : amGet (s.hubOwn part ln).hubLines ln = none := by
  unfold State.hubOwn
  split
  · rename_i e hget
    split
    · rename_i hpart
      rw [State.heldFor, hget, Option.any_some, hpart] at h
      cases h
    · rw [State.hubDrop, amGet_amErase, if_pos rfl]
  · assumption

/-- A write of any other line goes to the memory behind the hub. -/
theorem State.hubWrite_absent {s : State} {part ln : Nat} (m : BitVec 8) (h : s.heldFor part ln = false) :
    s.hubAccess part ln m false true = (s.hubOwn part ln).hubThrough ln := by
  rcases s.hubAccess_cases part ln m false true with ⟨e, hget, -⟩ | ⟨-, heq⟩
  · rw [State.hubOwn_absent h] at hget
    cases hget
  · exact heq

/-- A write of a line of another partition, or of none, leaves every other line of the slices. -/
theorem State.hubOwn_hubLines_other (s : State) (part : Nat) {ln j : Nat} (h : j ≠ ln) :
    amGet (s.hubOwn part ln).hubLines j = amGet s.hubLines j := by
  unfold State.hubOwn
  split
  · split
    · rfl
    · rw [State.hubDrop, amGet_amErase, if_neg (Ne.symm h), State.dropStamps_hubLines]
  · rfl

theorem State.hubOwn_hubDirty_other (s : State) (part : Nat) {ln j : Nat} (h : j ≠ ln) :
    j ∈ (s.hubOwn part ln).hubDirty ↔ j ∈ s.hubDirty := by
  unfold State.hubOwn
  split
  · split
    · rfl
    · simp [State.hubDrop, h]
  · rfl

theorem State.hubOwn_far_wf {s : State} (hs : Memory.wf s.far = true) (part ln : Nat) : Memory.wf (s.hubOwn part ln).far = true := by
  unfold State.hubOwn
  split
  · split
    · exact hs
    · rw [State.hubDrop, State.dropStamps_far]
      split
      · exact memStore_wf _ _ hs
      · exact hs
  · exact hs

theorem State.hubOwn_far_other {s : State} (hs : Memory.wf s.far = true) (part : Nat) {ln n : Nat} (h : n / 128 ≠ ln) :
    memRead (s.hubOwn part ln).far n = memRead s.far n := by
  unfold State.hubOwn
  split
  · split
    · rfl
    · rw [State.hubDrop, State.dropStamps_far, State.dropStamps_mem]
      split
      · rw [memRead_copyLine hs, if_neg h]
      · rfl
  · rfl

theorem State.hubOwn_mem (s : State) (part ln : Nat) : (s.hubOwn part ln).mem = s.mem :=
  (congrArg State.mem (s.hubOwn_beyondSlices part ln) :)

/-- A write of a line changes for no line whether its slice holds it for the partition. -/
theorem State.hubWrite_heldFor (s : State) (part ln : Nat) (m : BitVec 8) (j : Nat) :
    (s.hubAccess part ln m false true).heldFor part j = s.heldFor part j := by
  cases hheld : s.heldFor part ln with
  | true =>
    obtain ⟨v, heq⟩ := State.hubWrite_held m hheld
    rw [heq]
    by_cases hj : j = ln
    · subst hj
      rw [hheld, State.heldFor, State.hubPut, amGet_amPut_same]
      exact beq_self_eq_true part
    · rw [State.heldFor, State.hubPut, amGet_amPut_other _ _ hj, State.heldFor]
  | false =>
    rw [State.hubWrite_absent m hheld, State.heldFor, State.hubThrough, State.dropStamps_hubLines]
    by_cases hj : j = ln
    · subst hj
      rw [hheld, State.hubOwn_absent hheld, Option.any_none]
    · rw [State.hubOwn_hubLines_other s part hj, State.heldFor]

/-- After a write of a line held for the partition the line is dirty, and every line so held that was dirty is. -/
theorem State.hubWrite_dirty {s : State} {part ln j : Nat} (m : BitVec 8) (hj : s.heldFor part j = true)
    (hdirty : j = ln ∨ j ∈ s.hubDirty) : j ∈ (s.hubAccess part ln m false true).hubDirty := by
  cases hheld : s.heldFor part ln with
  | true =>
    obtain ⟨v, heq⟩ := State.hubWrite_held m hheld
    rw [heq]
    exact (mem_insNat ..).2 hdirty
  | false =>
    have hne : j ≠ ln := by
      rintro rfl
      rw [hj] at hheld
      cases hheld
    rw [State.hubWrite_absent m hheld, State.hubThrough, State.dropStamps_hubDirty]
    exact (State.hubOwn_hubDirty_other s part hne).2 (hdirty.resolve_left hne)

theorem State.hubWrite_far_wf {s : State} (hs : Memory.wf s.far = true) (part ln : Nat) (m : BitVec 8) :
    Memory.wf (s.hubAccess part ln m false true).far = true := by
  cases hheld : s.heldFor part ln with
  | true =>
    obtain ⟨v, heq⟩ := State.hubWrite_held m hheld
    rw [heq]
    exact hs
  | false =>
    rw [State.hubWrite_absent m hheld]
    exact memStore_wf _ _ (State.hubOwn_far_wf hs part ln)

/-- What a byte of the memory behind the hub reads after a write of a line. -/
theorem State.memRead_hubWrite_far {s : State} (hs : Memory.wf s.far = true) (part ln : Nat) (m : BitVec 8) (n : Nat) :
    memRead (s.hubAccess part ln m false true).far n =
      if n / 128 = ln ∧ s.heldFor part (n / 128) = false then memRead s.mem n else memRead s.far n := by
  cases hheld : s.heldFor part ln with
  | true =>
    obtain ⟨v, heq⟩ := State.hubWrite_held m hheld
    have hnot : ¬(n / 128 = ln ∧ s.heldFor part (n / 128) = false) := by
      rintro ⟨rfl, hfalse⟩
      rw [hheld] at hfalse
      cases hfalse
    rw [heq, if_neg hnot]
    rfl
  | false =>
    rw [State.hubWrite_absent m hheld, State.hubThrough, memRead_copyLine (State.hubOwn_far_wf hs part ln), State.hubOwn_mem]
    by_cases hn : n / 128 = ln
    · rw [if_pos hn, if_pos ⟨hn, hn ▸ hheld⟩]
    · rw [if_neg hn, if_neg fun h => hn h.1, State.hubOwn_far_other hs part hn]

/-! ### A write of several far lines -/

/-- The writes of a partition at the hub slices of some lines. -/
def State.hubWrites (s : State) (part : Nat) (m : Nat → BitVec 8) (lns : List Nat) : State :=
  lns.foldl (fun s ln => s.hubAccess part ln (m ln) false true) s

theorem State.hubWrites_dirty {part j : Nat} (m : Nat → BitVec 8) (lns : List Nat) {s : State} (hj : s.heldFor part j = true)
    (hdirty : j ∈ lns ∨ j ∈ s.hubDirty) : j ∈ (s.hubWrites part m lns).hubDirty := by
  induction lns generalizing s with
  | nil => exact hdirty.resolve_left List.not_mem_nil
  | cons ln lns ih =>
    refine ih ((s.hubWrite_heldFor part ln (m ln) j).trans hj) ?_
    rcases hdirty with hin | hdirty
    · rcases List.mem_cons.1 hin with heq | hin
      · exact .inr (State.hubWrite_dirty _ hj (.inl heq))
      · exact .inl hin
    · exact .inr (State.hubWrite_dirty _ hj (.inr hdirty))

/-- The memory behind the hub takes the bytes of the lines that the slices do not hold for the partition, and no others. -/
theorem State.memRead_hubWrites_far (part : Nat) (m : Nat → BitVec 8) (lns : List Nat) (n : Nat) {s : State}
    (hs : Memory.wf s.far = true) : memRead (s.hubWrites part m lns).far n =
      if n / 128 ∈ lns ∧ s.heldFor part (n / 128) = false then memRead s.mem n else memRead s.far n := by
  induction lns generalizing s with
  | nil => exact (if_neg fun h => List.not_mem_nil h.1).symm
  | cons ln lns ih =>
    refine (ih (State.hubWrite_far_wf hs part ln (m ln))).trans ?_
    rw [State.hubWrite_heldFor, State.hubAccess_mem, State.memRead_hubWrite_far hs]
    by_cases hin : n / 128 ∈ lns
    · cases s.heldFor part (n / 128) <;> simp [hin]
    · rcases eq_or_ne (n / 128) ln with rfl | hn
      · simp [hin]
      · simp [hin, hn]

/-- A write of far memory that may allocate no line is one at each of its hub lines. -/
theorem State.sliceTouch_far {pa : Nat} (h : isFar pa = true) (s : State) (part n : Nat) :
    s.sliceTouch part pa n false true = s.hubWrites part (fun ln => sectorMask ln pa n) (linesOf pa n) := by
  simp only [State.sliceTouch, h, if_true]
  rfl

/-! ### The copies of marked pages (R399) -/

/-- An address in the context heap of some partition. -/
def State.inHeap (s : State) (a : Nat) : Prop := ∃ p, s.heapBase p ≤ a ∧ a < s.heapBase p + s.heapSize p

/-- A machine that copies of pages have made of another: bytes of a context heap have changed and no others, and the registers of the hub and
what it holds of far memory have not. -/
structure State.CopiedFrom (t s : State) : Prop where
  hub : t.hub = s.hub
  far : t.far = s.far
  lines : t.hubLines = s.hubLines
  wf : Memory.wf t.mem = true
  bytes : ∀ a, memRead t.mem a ≠ memRead s.mem a → s.inHeap a

theorem State.CopiedFrom.refl {s : State} (h : Memory.wf s.mem = true) : s.CopiedFrom s := ⟨rfl, rfl, rfl, h, fun _ hne => absurd rfl hne⟩

theorem State.inHeap_congr {s t : State} (h : t.hub = s.hub) (a : Nat) : t.inHeap a ↔ s.inHeap a := by
  simp only [State.inHeap, State.heapBase, State.heapSize, State.rd, h]

/-- A free area lies in the context heap of its partition. -/
theorem State.heapFind_within {s : State} {part size step a : Nat} {more : List (Nat × Nat)} (h : s.heapFind part size step more = some a) :
    s.heapBase part ≤ a ∧ a + size ≤ s.heapBase part + s.heapSize part := by
  unfold State.heapFind at h
  dsimp only at h
  split at h
  · cases h
  · split at h
    · rename_i hok
      obtain rfl := Option.some.inj h
      simp only [Bool.and_eq_true, decide_eq_true_eq] at hok
      exact hok.1
    · have hok := List.find?_some h
      simp only [Bool.and_eq_true, decide_eq_true_eq] at hok
      exact hok.1

/-- Bytes written into a free area of the context heap. -/
theorem State.CopiedFrom.heapPut {t s : State} (h : t.CopiedFrom s) {part size step a : Nat} {more : List (Nat × Nat)}
    (ha : t.heapFind part size step more = some a) {bs : List Byte} (hlen : bs.length = size) : (t.heapPut a bs).CopiedFrom s where
  hub := h.hub
  far := h.far
  lines := h.lines
  wf := memStore_wf _ _ h.wf
  bytes := fun b hne => by
    obtain ⟨hlo, hhi⟩ := State.heapFind_within ha
    rw [State.heapPut, memRead_memStore _ _ _ h.wf] at hne
    split at hne
    · exact (State.inHeap_congr h.hub b).1 ⟨part, by omega⟩
    · exact h.bytes b hne

theorem State.CopiedFrom.launches {t s : State} (h : t.CopiedFrom s) (ls : AMap Launch) : ({ t with launches := ls } : State).CopiedFrom s :=
  ⟨h.hub, h.far, h.lines, h.wf, h.bytes⟩

theorem State.CopiedFrom.snapPage {t s : State} (h : t.CopiedFrom s) (page : Nat) : (t.snapPage page).CopiedFrom s := by
  refine List.foldlRecOn (motive := fun t => State.CopiedFrom t s) t.launches _ h fun u hu e _ => ?_
  split
  · split
    · rename_i a ha
      exact (hu.heapPut ha (memBytes_length ..)).launches _
    · exact hu.launches _
  · exact hu

/-- The copies before a write change bytes of a context heap only. -/
theorem State.snapPages_copied {s : State} (h : Memory.wf s.mem = true) (pa n : Nat) : (s.snapPages pa n).CopiedFrom s := by
  refine List.foldlRecOn (motive := fun t => State.CopiedFrom t s) (pagesOf pa n) _ (.refl h) fun t ht p _ => ?_
  split
  · exact ht.snapPage p
  · exact ht

/-! ### The whole write -/

theorem State.homePut_far {s : State} (h : Memory.wf s.mem = true) (pa : Nat) (bs : List Byte) (t : Option Triple) :
    (s.homePut pa bs t).far = s.far := (State.snapPages_copied h pa bs.length).far

theorem State.homePut_heldFor {s : State} (h : Memory.wf s.mem = true) (pa : Nat) (bs : List Byte) (t : Option Triple) (part ln : Nat) :
    (s.homePut pa bs t).heldFor part ln = s.heldFor part ln := by
  rw [State.heldFor, State.heldFor, ← (State.snapPages_copied h pa bs.length).lines]
  rfl

/-- The memory behind the hub after a write: the bytes of the far lines that no slice holds for the partition. -/
theorem State.memRead_homeWrite_far {s : State} (h : s.MemOk) {part pa : Nat} (bs : List Byte) (t : Option Triple) (hfar : isFar pa = true)
    (n : Nat) : memRead (s.homeWrite part pa bs t).far n = if n / 128 ∈ linesOf pa bs.length ∧ s.heldFor part (n / 128) = false
      then memRead (s.homeWrite part pa bs t).mem n else memRead s.far n := by
  rw [State.homeWrite_mem, ← State.homePut_mem, State.homeWrite, State.homeStore, State.sliceTouch_far hfar,
    State.memRead_hubWrites_far part _ _ n (by rw [State.homePut_far h.1]; exact h.2), State.homePut_heldFor h.1, State.homePut_far h.1]

theorem State.homeWrite_far_of_near {s : State} (h : Memory.wf s.mem = true) {pa : Nat} (part : Nat) (bs : List Byte) (t : Option Triple)
    (hnear : isFar pa = false) : (s.homeWrite part pa bs t).far = s.far := by
  rw [State.homeWrite, State.homeStore, State.sliceTouch_far_of_near hnear, State.homePut_far h]

theorem State.homeWrite_dirty {s : State} (h : Memory.wf s.mem = true) {part pa ln : Nat} (bs : List Byte) (t : Option Triple)
    (hfar : isFar pa = true) (hln : ln ∈ linesOf pa bs.length) (hheld : s.heldFor part ln = true) :
    ln ∈ (s.homeWrite part pa bs t).hubDirty := by
  rw [State.homeWrite, State.homeStore, State.sliceTouch_far hfar]
  exact State.hubWrites_dirty _ _ ((State.homePut_heldFor h pa bs t part ln).trans hheld) (.inl hln)

theorem State.homeWrite_poison (s : State) (part pa : Nat) (bs : List Byte) (t : Option Triple) : (s.homeWrite part pa bs t).poison =
    (s.snapPages pa bs.length).poison.filter fun x => !(pa ≤ 16 * x && 16 * x + 16 ≤ pa + bs.length) :=
  State.sliceTouch_poison ..

end Sys2Proof.Machine

open Sys2Proof Sys2Proof.Machine

/-- Settles O6: the bytes are stored over what the copies of marked pages leave, and each far line goes to its slice or to the memory
behind. -/
theorem homeWriteFrame : Obligations.HomeWriteFrame := by
  unfold Obligations.HomeWriteFrame
  intro s part pa bs t hs u v
  have hcopied := State.snapPages_copied hs.1 pa bs.length
  have hmem : ∀ a, memRead v.mem a = if pa ≤ a ∧ a < pa + bs.length then (bs[a - pa]?).getD 0 else memRead u.mem a := fun a => by
    rw [State.homeWrite_mem, memRead_memStore _ _ _ hcopied.wf]
  refine ⟨fun n hn => ?written, fun a ha => ?others, fun h => s.snapPages_unmarked pa bs.length h, hcopied.bytes,
    State.homeWrite_far_of_near hs.1 part bs t, fun hfar ln hln => ⟨fun hheld => ?dirty, fun hnot j hj => ?through⟩, fun a ha => ?farOthers,
    fun x => ?poison⟩
  case written =>
    rw [hmem, if_pos (by omega), Nat.add_sub_cancel_left, List.getElem?_eq_getElem hn, Option.getD_some]
  case others => rw [hmem, if_neg (by omega)]
  case dirty => exact State.homeWrite_dirty hs.1 bs t hfar hln ((s.heldFor_iff part ln).2 hheld)
  case through =>
    have hline : (128 * ln + j) / 128 = ln := by omega
    have hfalse : s.heldFor part ln = false := Bool.eq_false_iff.2 (mt (s.heldFor_iff part ln).1 hnot)
    rw [State.memRead_homeWrite_far hs bs t hfar, hline, if_pos ⟨hln, hfalse⟩]
  case farOthers =>
    cases hfar : isFar pa with
    | false => rw [State.homeWrite_far_of_near hs.1 part bs t hfar]
    | true => rw [State.memRead_homeWrite_far hs bs t hfar, if_neg fun h => ha h.1]
  case poison =>
    rw [State.homeWrite_poison, List.mem_filter]
    simp only [Bool.not_eq_true', Bool.and_eq_false_iff, decide_eq_false_iff_not]
    exact and_congr_right fun _ => Decidable.not_and_iff_not_or_not.symm

end

section
/-! SUPPORT. PREF, MON and MWAIT (R120, R205, R211, R212): which fills of lines begin, and what the end of a fill leaves. -/

namespace Sys2Proof.Machine

/-! ### The beginning of a fill -/

/-- From one machine to itself nothing has changed. -/
theorem State.Keeps.refl (s : State) : s.Keeps s := ⟨rfl, rfl, rfl⟩

/-- The level that a prefetch names holds a line already (R205). -/
def State.prefHeld (s : State) (c part : Nat) (into : Bool) (line : Nat) : Bool :=
  if into then (amGet (s.core c).l1 line).isSome else s.sliceHolds part (128 * line) 128

/-- The fill of a line is on its way. -/
def State.prefFlying (s : State) (c line : Nat) : Bool := match amGet (s.core c).prefs line with | some (_, done) => !done | none => false

theorem State.prefFlying_iff (s : State) (c line : Nat) : s.prefFlying c line = true ↔ ∃ b, amGet (s.core c).prefs line = some (b, false) := by
  unfold State.prefFlying
  split
  · rename_i b done h
    rw [h]
    cases done <;> simp
  · rename_i h
    rw [h]
    simp

theorem State.prefStart_ok {s : State} {c part ln : Nat} {t : Xl} (l1 : Bool)
    (h : s.xlate c part (BitVec.ofNat 64 (128 * ln)) false false = .ok t) : s.prefStart c part l1 ln =
      if (s.readCause part t.pa 128).isSome || t.cache == 2 || s.prefHeld c part (l1 && t.cache == 0) (t.pa / 128) ||
        s.prefFlying c (t.pa / 128) then s
      else s.updCore c fun u => { u with prefs := amPut u.prefs (t.pa / 128) (l1 && t.cache == 0, false) } := by
  rw [State.prefStart, h]
  rfl

theorem State.prefStart_bad {s : State} {c part ln code level : Nat} {pte : DWord} (l1 : Bool)
    (h : s.xlate c part (BitVec.ofNat 64 (128 * ln)) false false = .bad code level pte) : s.prefStart c part l1 ln = s := by
  rw [State.prefStart, h]

theorem State.prefStart_keeps {s y : State} (h : y.Keeps s) (c part : Nat) (l1 : Bool) (ln : Nat) : (y.prefStart c part l1 ln).Keeps s := by
  cases hxl : y.xlate c part (BitVec.ofNat 64 (128 * ln)) false false with
  | bad code level pte =>
    rw [State.prefStart_bad l1 hxl]
    exact h
  | ok t =>
    rw [State.prefStart_ok l1 hxl]
    split
    · exact h
    · exact ⟨h.mem, h.far, h.skeins⟩

/-- The machine in which the fills of an instruction's lines have begun; a trailing lot begins none (R205, R405). -/
def Iss.prefetched (x : Iss) (l1 : Bool) (addr : Nat → DWord) : State :=
  let lines : List Nat := ((laneList x.act).map fun l => (addr l).toNat / 128).eraseDups
  if x.lot.role == .trailing then x.s else lines.foldl (fun s ln => s.prefStart x.c x.part l1 ln) x.s

theorem Iss.prefetched_keeps (x : Iss) (l1 : Bool) (addr : Nat → DWord) : (x.prefetched l1 addr).Keeps x.s := by
  unfold Iss.prefetched
  dsimp only
  split
  · exact .refl x.s
  · exact List.foldlRecOn (motive := fun y => State.Keeps y x.s) _ _ (.refl x.s) fun y hy ln _ => State.prefStart_keeps hy ..

/-- An instruction of one lane begins the fill of that lane's line. -/
theorem Iss.prefetched_one {x : Iss} {l : Nat} (h : laneList x.act = [l]) (hrole : x.lot.role ≠ .trailing) (l1 : Bool) (addr : Nat → DWord) :
    x.prefetched l1 addr = x.s.prefStart x.c x.part l1 ((addr l).toNat / 128) := by
  rw [Iss.prefetched, h, if_neg (by simpa using hrole)]
  rfl

/-! ### The end of a fill -/

/-- A fill of a PREF is counted, and its line is in its slice (R96). -/
def State.prefTaken (s : State) (core line : Nat) (into : Bool) : State :=
  ((s.updCore core fun u => { u with prefs := amPut u.prefs line (into, true) }).sliceTouch
    (s.partOfDie (core / 64)) (128 * line) 128 true false).count (coreCounter core 0) 1

/-- The end of a fill whose line can be reached whole (R96, R205). -/
theorem State.prefFill_whole {s : State} {core line : Nat} {into : Bool} (h : amGet (s.core core).prefs line = some (into, false))
    (hwhole : s.wholeLine (s.partOfDie (core / 64)) line = true) :
    s.prefFill core line = if into then (s.prefTaken core line into).l1Fill core line else s.prefTaken core line into := by
  rw [State.prefFill, h]
  exact if_pos hwhole

/-- An access of one line goes to that line's slice. -/
theorem State.sliceTouch_line (s : State) (part ln : Nat) (alloc write : Bool) : ∃ m, s.sliceTouch part (128 * ln) 128 alloc write =
    if isFar (128 * ln) then s.hubAccess part ln m alloc write else s.l2Access ln m alloc write := by
  rw [State.sliceTouch, linesOf_line]
  exact ⟨_, rfl⟩

/-- A line that has been taken into its slice is there, and no byte of memory and no skein has changed. -/
theorem State.prefTaken_spec (s : State) (core line : Nat) (into : Bool) :
    (s.prefTaken core line into).mem = s.mem ∧ (s.prefTaken core line into).skeins = s.skeins ∧
    (isFar (128 * line) = true → (amGet (s.prefTaken core line into).hubLines line).isSome = true) ∧
    (isFar (128 * line) = false → (amGet (s.prefTaken core line into).l2 line).isSome = true) := by
  refine ⟨by simp [State.prefTaken], by simp [State.prefTaken], fun h => ?_, fun h => ?_⟩ <;>
    obtain ⟨m, heq⟩ := (s.updCore core fun u => { u with prefs := amPut u.prefs line (into, true) }).sliceTouch_line
      (s.partOfDie (core / 64)) line true false
  · rw [State.prefTaken, State.count_hubLines, heq, if_pos h]
    exact State.hubAccess_holds ..
  · rw [State.prefTaken, State.count_l2, heq, if_neg (by simp [h])]
    exact State.l2Access_holds ..

theorem State.l1Fill_holds (s : State) (c line : Nat) : (amGet ((s.l1Fill c line).core c).l1 line).isSome = true := by
  rw [State.l1Fill, State.core_updCore, amGet_amPut_same]
  rfl

end Sys2Proof.Machine

open Sys2Proof Sys2Proof.Machine

/-- Settles O41: the fills of the lines begin one after the other, each of them changing its core alone; at its end a line is put into its
slice and into L1; MON and MWAIT have the effect of their case. -/
theorem hintsAndMonitors : Obligations.HintsAndMonitors := by
  unfold Obligations.HintsAndMonitors
  intro c l1 scratch off a
  refine ⟨fun s x hx => ⟨x.prefetched l1 (x.spaceAddr .g a (sx24 off)), x.prefetched_keeps .., exec_of_issue (own := fun _ => []) rfl hx rfl, ?pref⟩,
    fun s core line into hfill hwhole => ?fill, ?monIdle, ?mon, ?mwait, ?mwaitOn⟩
  case pref =>
    intro l t hone hrole line into held hxl
    have hheld : x.s.prefHeld x.c x.part (l1 && t.cache == 0) (t.pa / 128) = held := rfl
    have hfly := x.s.prefFlying_iff x.c (t.pa / 128)
    rw [Iss.prefetched_one hone hrole, State.prefStart_ok l1 hxl, hheld]
    refine ⟨fun h => if_pos ?_, fun hnot hcache hread => ?_⟩
    · rcases h with h | h <;> simp [h]
    · rw [hread, beq_eq_false_iff_ne.2 hcache, hnot]
      cases hf : x.s.prefFlying x.c (t.pa / 128) with
      | true =>
        obtain ⟨b, hb⟩ := hfly.1 hf
        refine ⟨⟨b, hb⟩, fun hnone => ?_⟩
        rw [hb] at hnone
        cases hnone
      | false =>
        have hput : amGet ((x.s.updCore x.c fun u => { u with prefs := amPut u.prefs (t.pa / 128) (into, false) }).core x.c).prefs
            (t.pa / 128) = some (into, false) := by
          rw [State.core_updCore]
          exact amGet_amPut_same ..
        exact ⟨⟨into, hput⟩, fun _ => hput⟩
  case fill =>
    obtain ⟨hmem, hskeins, hhub, hl2⟩ := State.prefTaken_spec s core line into
    rw [State.prefFill_whole hfill hwhole]
    cases into with
    | false => exact ⟨hmem, hskeins, hhub, hl2, fun h => absurd h Bool.false_ne_true⟩
    | true => exact ⟨hmem, hskeins, hhub, hl2, fun _ => State.l1Fill_holds ..⟩
  case monIdle =>
    refine .of_issue (fun _ => rfl) fun x h => ?_
    rw [h]
  case mon =>
    intro s x l hx hlow v n armed
    refine ⟨fun h => ?_, fun t h hxl => ?_, fun e j g h hxl => ?_⟩
    all_goals
      subst h
      refine exec_of_issue (own := fun _ => []) rfl hx ?_
      rw [hlow]
    · rfl
    · simp only [Bool.false_eq_true, if_false]
      rw [show x.s.xlate x.c x.part (x.spaceAddr .g a (sx24 off) l) false false = _ from hxl]
      rfl
    · simp only [Bool.false_eq_true, if_false]
      rw [show x.s.xlate x.c x.part (x.spaceAddr .g a (sx24 off) l) false false = _ from hxl]
      rfl
  case mwait =>
    refine .of_issue (fun _ => rfl) fun x ⟨hact, w, hw, hhit⟩ => ?_
    simp only [hw, hhit, bne_iff_ne.2 hact]
    rfl
  case mwaitOn =>
    refine .of_issue (fun _ => rfl) fun x h => ?_
    rcases h with hact | hnone | ⟨w, hw, hhit⟩
    · rw [hact]
      rfl
    · rw [hnone, Bool.and_false]
      rfl
    · simp only [hw, hhit, Bool.not_true, Bool.and_false]
      rfl

end

section
/-! SUPPORT. Translations of addresses of one page (R97 to R100): they go through one leaf, and keep the offset in the page. -/

namespace Sys2Proof.Machine

/-- A page of any level is one of whole 64 KiB pages. -/
theorem two_pow_levelShift {sh : Nat} (h : 16 ≤ sh) : 2 ^ sh = 65536 * 2 ^ (sh - 16) := by
  rw [show 65536 = 2 ^ 16 from rfl, ← pow_add, Nat.add_sub_cancel' h]

theorem levelShift_ge (n : Nat) : 16 ≤ levelShift n := by
  unfold levelShift
  split <;> omega

/-- What lies above the offset in a 64 KiB page is the same for two addresses of one page. -/
theorem div_of_samePage {a b sh : Nat} (h : a / 65536 = b / 65536) (hsh : 16 ≤ sh) : a / 2 ^ sh = b / 2 ^ sh := by
  rw [two_pow_levelShift hsh, ← Nat.div_div_eq_div_mul, h, Nat.div_div_eq_div_mul]

theorem fieldOf_of_samePage {a b : DWord} {lo : Nat} (h : a.toNat / 65536 = b.toNat / 65536) (hlo : 16 ≤ lo) (n : Nat) :
    fieldOf a lo n = fieldOf b lo n := by
  rw [fieldOf, fieldOf, bitsOf, bitsOf, div_of_samePage h hlo]

/-- A leaf that a walk answers, without the address that it answers it for. -/
def XRes.leaf : XRes → Option (DWord × Nat)
  | .ok x => some (x.leaf, x.level)
  | .bad .. => none

theorem walkFrom_leaf_of_samePage (m : Memory) {a b : DWord} (h : a.toNat / 65536 = b.toNat / 65536) (n tbl : Nat) :
    (walkFrom m a n tbl).leaf = (walkFrom m b n tbl).leaf := by
  induction n generalizing tbl with
  | zero => rfl
  | succ n ih =>
    simp only [walkFrom, fieldOf_of_samePage h (levelShift_ge n)]
    generalize BitVec.ofNat 64 (memNat m _ 8) = e
    split
    · rfl
    · split
      · rfl
      · split
        · rfl
        · exact ih _

theorem walkFrom_pa {m : Memory} {va : DWord} {n tbl : Nat} {x : Xl} (h : walkFrom m va n tbl = .ok x) : x.pa = leafPa x.leaf x.level va := by
  induction n generalizing tbl with
  | zero => cases h
  | succ n ih =>
    simp only [walkFrom] at h
    generalize BitVec.ofNat 64 (memNat m _ 8) = e at h
    split at h
    · cases h
    · split at h
      · cases h
      · split at h
        · obtain rfl := XRes.ok.inj h
          rfl
        · exact ih h

theorem permit_ok {write fetch : Bool} {x y : Xl} (h : permit write fetch x = .ok y) : y = x := by
  unfold permit at h
  split at h
  · cases h
  · exact (XRes.ok.inj h).symm

/-- The leaf that translates an address, of a TLB or of a walk, whatever it permits (R97 to R100). -/
def State.leafFor (s : State) (u part : Nat) (va : DWord) : Option (DWord × Nat) :=
  match (unitsOf u).findSome? fun v => s.tlb.find? fun e => e.hits v part va with
  | some e => some (e.leaf, e.level)
  | none => (s.walk part va).leaf

theorem State.walk_pa {s : State} {part : Nat} {va : DWord} {x : Xl} (h : s.walk part va = .ok x) : x.pa = leafPa x.leaf x.level va := by
  unfold State.walk at h
  split at h
  · exact walkFrom_pa h
  · cases h

/-- A translation is that of its leaf. -/
theorem State.xlate_ok {s : State} {u part : Nat} {va : DWord} {write fetch : Bool} {x : Xl} (h : s.xlate u part va write fetch = .ok x) :
    s.leafFor u part va = some (x.leaf, x.level) ∧ x.pa = leafPa x.leaf x.level va := by
  unfold State.xlate at h
  unfold State.leafFor
  cases hcached : (unitsOf u).findSome? fun v => s.tlb.find? fun e => e.hits v part va with
  | some e =>
    rw [hcached] at h
    obtain rfl := permit_ok h
    exact ⟨rfl, rfl⟩
  | none =>
    rw [hcached] at h
    cases hwalk : s.walk part va with
    | ok y =>
      rw [hwalk] at h
      obtain rfl := permit_ok h
      exact ⟨rfl, State.walk_pa hwalk⟩
    | bad code level pte =>
      rw [hwalk] at h
      cases h

/-- Two addresses of one page have one leaf. -/
theorem State.leafFor_of_samePage (s : State) (u part : Nat) {a b : DWord} (h : a.toNat / 65536 = b.toNat / 65536) :
    s.leafFor u part a = s.leafFor u part b := by
  have hhits : ∀ v, (fun e : TlbEnt => e.hits v part a) = fun e => e.hits v part b := fun v => by
    funext e
    rw [TlbEnt.hits, TlbEnt.hits, div_of_samePage h (levelShift_ge e.level)]
  have hwalk : (s.walk part a).leaf = (s.walk part b).leaf := by
    rw [State.walk, State.walk, canonical, canonical, fieldOf_of_samePage h (by omega)]
    split
    · exact walkFrom_leaf_of_samePage s.mem h ..
    · rfl
  simp only [State.leafFor, hhits, hwalk]

/-- Through one leaf, two addresses of one page lie on one page, each at its offset. -/
theorem leafPa_page (leaf : DWord) (level : Nat) (va : DWord) :
    leafPa leaf level va % 65536 = va.toNat % 65536 ∧
      leafPa leaf level va / 65536 = fieldOf leaf 16 25 + va.toNat / 65536 % 2 ^ (levelShift level - 16) := by
  rw [leafPa, fieldOf, fieldOf, bitsOf, bitsOf, pow_zero, Nat.div_one, two_pow_levelShift (levelShift_ge level)]
  constructor
  · rw [Nat.mul_add_mod_self_right, Nat.mod_mul_right_mod]
  · rw [Nat.mul_comm, Nat.mul_add_div (by omega), Nat.mod_mul_right_div_self]

/-- Two addresses of one page have translations on one page, and each keeps its offset. -/
theorem State.xlate_samePage {s : State} {u part : Nat} {a b : DWord} {w f w' f' : Bool} {x y : Xl}
    (hpage : a.toNat / 65536 = b.toNat / 65536) (hx : s.xlate u part a w f = .ok x) (hy : s.xlate u part b w' f' = .ok y) :
    x.pa / 65536 = y.pa / 65536 ∧ x.pa % 65536 = a.toNat % 65536 ∧ y.pa % 65536 = b.toNat % 65536 := by
  obtain ⟨hxleaf, hxpa⟩ := State.xlate_ok hx
  obtain ⟨hyleaf, hypa⟩ := State.xlate_ok hy
  rw [State.leafFor_of_samePage s u part hpage, hyleaf] at hxleaf
  obtain ⟨hleaf, hlevel⟩ := Prod.mk.inj (Option.some.inj hxleaf)
  rw [hxpa, hypa, hleaf, hlevel]
  obtain ⟨hxoff, hxpage⟩ := leafPa_page x.leaf x.level a
  obtain ⟨hyoff, hypage⟩ := leafPa_page x.leaf x.level b
  exact ⟨by rw [hxpage, hypage, hpage], hxoff, hyoff⟩

end Sys2Proof.Machine
end

section
/-! SUPPORT. The acknowledgement of a store (R106, R116): what its write at the home changes, and that the account kept with it, the blocks
fetched and the store's leaving change no byte. -/

namespace Sys2Proof.Machine

/-! ### What a write through a translation leaves -/

/-- Bytes performed at the home of an address, where no page of theirs is marked. -/
theorem State.snapPages_onPage {s : State} {pa n : Nat} (hpage : pa % 65536 + n ≤ 65536) (hn : 0 < n) (h : s.marked pa = false) :
    s.snapPages pa n = s := by
  refine s.snapPages_unmarked pa n fun p hp => ?_
  have hone : pagesOf pa n = [pa / 65536] := by
    rw [pagesOf, show (pa + n - 1) / 65536 + 1 - pa / 65536 = 1 by omega]
    simp
  rw [hone, List.mem_singleton] at hp
  rw [State.marked, hp, Nat.mul_div_cancel_left _ (by omega)]
  exact h

/-- What a delivery or a release of a skein asks of it before a boundary: the handler it is in, and the release it waits at. -/
def State.handling (s : State) (c q : Nat) : Option (Option TrapCtx × Option RelWait) := (s.skein c q).map fun k => (k.trap, k.relWait)

theorem Skein.watchHit_handling (k : Skein) (scratch : Bool) (lot : Nat) (lines : List Nat) :
    (k.watchHit scratch lot lines).trap = k.trap ∧ (k.watchHit scratch lot lines).relWait = k.relWait := by
  unfold Skein.watchHit
  split
  · split <;> exact ⟨rfl, rfl⟩
  · exact ⟨rfl, rfl⟩

theorem State.trigger_handling (s : State) (scratch : Bool) (lot a n c q : Nat) :
    (s.trigger scratch lot a n).handling c q = s.handling c q := by
  have hhit : ∀ k : Skein, ((k.watchHit scratch lot (linesOf a n)).trap, (k.watchHit scratch lot (linesOf a n)).relWait) =
      (k.trap, k.relWait) := fun k => by
    obtain ⟨htrap, hwait⟩ := k.watchHit_handling scratch lot (linesOf a n)
    rw [htrap, hwait]
  rw [State.handling, State.skein, State.trigger, amGet_amMap, Option.map_map, State.handling, State.skein]
  exact congrArg (fun f => Option.map f (amGet s.skeins (skKey c q))) (funext hhit)

/-- What the acknowledgement of a store of a core looks at beyond memory: the stores of the core, and where its skeins stand. -/
structure State.SameStores (t s : State) (c : Nat) : Prop where
  stores : (t.core c).stores = (s.core c).stores
  handling : ∀ q, t.handling c q = s.handling c q

theorem State.SameStores.refl (s : State) (c : Nat) : s.SameStores s c := ⟨rfl, fun _ => rfl⟩

theorem State.SameStores.trans {s t u : State} {c : Nat} (h : u.SameStores t c) (h' : t.SameStores s c) : u.SameStores s c :=
  ⟨h.stores.trans h'.stores, fun q => (h.handling q).trans (h'.handling q)⟩

/-- An operation that changes no core and no skein. -/
theorem State.SameStores.of_eq {s t : State} (hcores : t.cores = s.cores) (hskeins : t.skeins = s.skeins) (c : Nat) : t.SameStores s c where
  stores := by rw [State.core, State.core, hcores]
  handling q := by rw [State.handling, State.handling, State.skein, State.skein, hskeins]

/-- A change of the core that leaves its stores. -/
theorem State.updCore_sameStores (s : State) (c : Nat) (f : Core → Core) (h : (f (s.core c)).stores = (s.core c).stores) :
    (s.updCore c f).SameStores s c where
  stores := by rw [State.core_updCore, h]
  handling q := by rw [State.handling, State.handling, State.skein, State.skein, State.updCore_skeins]

theorem State.l1Store_sameStores (s : State) (c pa : Nat) (bs : List Byte) : (s.l1Store c pa bs).SameStores s c := by
  refine List.foldlRecOn (motive := fun t => State.SameStores t s c) _ _ (.refl s c) fun t ht ln _ => ?_
  split
  · exact (State.updCore_sameStores t c _ rfl).trans ht
  · exact ht

theorem State.homePut_sameStores {s : State} {pa : Nat} {bs : List Byte} (hsnap : s.snapPages pa bs.length = s) (t : Option Triple) (c : Nat) :
    (s.homePut pa bs t).SameStores s c := by
  rw [State.homePut, hsnap]
  exact ⟨rfl, fun q => State.trigger_handling _ false 0 pa bs.length c q⟩

theorem State.homeStore_sameStores {s : State} {pa : Nat} {bs : List Byte} (hsnap : s.snapPages pa bs.length = s) (part : Nat)
    (alloc : Bool) (t : Option Triple) (c : Nat) : (s.homeStore part pa alloc bs t).SameStores s c :=
  (State.SameStores.of_eq (by rw [State.homeStore, State.sliceTouch_cores]) (by rw [State.homeStore, State.sliceTouch_skeins]) c).trans
    (State.homePut_sameStores hsnap t c)

/-- An update of a launch changes the launches only. -/
theorem State.updLaunch_eta (s : State) (n : Nat) (f : Launch → Launch) : s.updLaunch n f = { s with launches := (s.updLaunch n f).launches } := by
  unfold State.updLaunch
  split <;> rfl

/-- Marking lots changes lots and launches only. -/
theorem State.markSide_keeps {α : Type} (g : State → α) (hg : ∀ (s : State) (ls : AMap Lot) (us : AMap Launch),
    g { s with lots := ls, launches := us } = g s) (s : State) (lots : List Nat) (replay : Bool) : g (s.markSide lots replay) = g s := by
  refine foldl_keeps g _ (fun s n => ?_) lots s
  have hlot : g (s.updLot n fun l => { l with side := true }) = g s := by
    rw [State.updLot_eta]
    exact hg s _ s.launches
  dsimp only
  split
  · rw [State.updLaunch_eta]
    exact (hg _ _ _).trans hlot
  · exact hlot

theorem State.markSide_sameStores (s : State) (lots : List Nat) (replay : Bool) (c : Nat) : (s.markSide lots replay).SameStores s c :=
  .of_eq (s.markSide_keeps State.cores (fun _ _ _ => rfl) lots replay) (s.markSide_keeps State.skeins (fun _ _ _ => rfl) lots replay) c

theorem State.hubClean_sameStores (s : State) (sel : Nat → Bool) (c : Nat) : (s.hubClean sel).SameStores s c := ⟨rfl, fun _ => rfl⟩

theorem State.l1Store_far (s : State) (c pa : Nat) (bs : List Byte) : (s.l1Store c pa bs).far = s.far :=
  foldl_keeps State.far _ (fun s n => by split <;> rfl) _ s

/-- The part of a write through a translation that its home does; a peer device's is its own (log entry 8). -/
theorem State.storeAt_near {x : Xl} (hnear : isFar x.pa = false) {s : State} {bs : List Byte} (hsnap : s.snapPages x.pa bs.length = s)
    (part : Nat) (alloc : Bool) (t : Option Triple) : (s.storeAt part x alloc bs t).far = s.far := by
  unfold State.storeAt
  split
  · rfl
  · rw [State.homeStore, State.sliceTouch_far_of_near hnear, State.homePut, hsnap]
    rfl

theorem State.storeAt_mem {s : State} {x : Xl} {bs : List Byte} (hsnap : s.snapPages x.pa bs.length = s) (part : Nat) (alloc : Bool)
    (t : Option Triple) : (s.storeAt part x alloc bs t).mem = if x.peer then s.mem else memStore s.mem x.pa bs := by
  unfold State.storeAt
  split
  · rfl
  · rw [State.homeStore_mem, hsnap]

theorem State.storeAt_sameStores {s : State} {x : Xl} {bs : List Byte} (hsnap : s.snapPages x.pa bs.length = s) (part : Nat) (alloc : Bool)
    (t : Option Triple) (c : Nat) : (s.storeAt part x alloc bs t).SameStores s c := by
  unfold State.storeAt
  split
  · exact .refl s c
  · exact State.homeStore_sameStores hsnap ..

/-- What a write to a peer device, or of the core's L1, adds to a write at the home. -/
def State.besideHome (s : State) (c lot : Nat) (x : Xl) (bs : List Byte) : State :=
  if x.peer then s.markSide [lot] true else s.l1Store c x.pa bs

theorem State.besideHome_keeps (s : State) (c lot : Nat) (x : Xl) (bs : List Byte) :
    (s.besideHome c lot x bs).mem = s.mem ∧ (s.besideHome c lot x bs).far = s.far ∧ (s.besideHome c lot x bs).SameStores s c := by
  unfold State.besideHome
  split
  · exact ⟨s.markSide_keeps State.mem (fun _ _ _ => rfl) .., s.markSide_keeps State.far (fun _ _ _ => rfl) .., s.markSide_sameStores ..⟩
  · exact ⟨s.l1Store_mem .., s.l1Store_far .., s.l1Store_sameStores ..⟩

/-- A write of a lot at the home of an address (R116). -/
theorem State.writeHome_spec {s : State} {c part lot : Nat} {va : DWord} {md : HomeMode} {x : Xl} {bs : List Byte}
    (hsnap : (s.tlbFill c part va x).snapPages x.pa bs.length = s.tlbFill c part va x) (t : Option Triple) :
    (s.writeHome c part lot va md x bs t).SameStores s c ∧
    (s.writeHome c part lot va md x bs t).mem = (if x.peer then s.mem else memStore s.mem x.pa bs) ∧
    (isFar x.pa = false → md.through = false → (s.writeHome c part lot va md x bs t).far = s.far) := by
  have hfill : (s.tlbFill c part va x).SameStores s c := .of_eq (s := s) (t := s.tlbFill c part va x) rfl rfl c
  have hstores := (State.storeAt_sameStores hsnap part (md.alloc) t c).trans hfill
  have hmem := State.storeAt_mem hsnap part md.alloc t
  obtain ⟨hbmem, hbfar, hbstores⟩ := State.besideHome_keeps (if md.through
    then ((s.tlbFill c part va x).storeAt part x md.alloc bs t).hubClean fun ln => (linesOf x.pa bs.length).contains ln
    else (s.tlbFill c part va x).storeAt part x md.alloc bs t) c lot x bs
  refine ⟨hbstores.trans ?_, hbmem.trans ?_, fun hnear hthrough => hbfar.trans ?_⟩
  · split
    · exact (State.hubClean_sameStores ..).trans hstores
    · exact hstores
  · split <;> exact hmem
  · rw [hthrough, if_neg Bool.false_ne_true, State.storeAt_near hnear hsnap]
    rfl

/-! ### The account kept with a performed lane -/

theorem State.noteServed_sameStores (s t : State) (c q order part : Nat) (own : Bool) (ps : List (Loc × Nat)) :
    (s.noteServed t c q order part own ps).SameStores t c := by
  unfold State.noteServed
  split
  · exact .refl t c
  · exact State.updCore_sameStores t c _ rfl

theorem State.noteServed_memories (s t : State) (c q order part : Nat) (own : Bool) (ps : List (Loc × Nat)) :
    (s.noteServed t c q order part own ps).mem = t.mem ∧ (s.noteServed t c q order part own ps).far = t.far := by
  unfold State.noteServed
  split <;> exact ⟨rfl, rfl⟩

theorem State.fetchBlocks_sameStores (s : State) (part : Nat) (alloc : Bool) (rs : List (Nat × Nat)) (c : Nat) :
    (s.fetchBlocks part alloc rs).SameStores s c := by
  refine List.foldlRecOn (motive := fun t => State.SameStores t s c) rs _ (.refl s c) fun t ht e _ => ?_
  split
  · exact (State.SameStores.of_eq (State.sliceTouch_cores ..) (State.sliceTouch_skeins ..) c).trans ht
  · exact ht

theorem State.fetchBlocks_mem (s : State) (part : Nat) (alloc : Bool) (rs : List (Nat × Nat)) : (s.fetchBlocks part alloc rs).mem = s.mem :=
  foldl_keeps State.mem _ (fun s e => by split <;> simp) rs s

theorem State.fetchBlocks_far_of_near (s : State) (part : Nat) (alloc : Bool) {rs : List (Nat × Nat)} (h : ∀ e ∈ rs, isFar e.1 = false) :
    (s.fetchBlocks part alloc rs).far = s.far := by
  refine List.foldlRecOn (motive := fun t => State.far t = s.far) rs _ rfl fun t ht e he => ?_
  split
  · exact (State.sliceTouch_far_of_near (h e he) ..).trans ht
  · exact ht

theorem le_of_mem_linesOf {pa n ln : Nat} (h : ln ∈ linesOf pa n) : ln ≤ (pa + n - 1) / 128 := by
  obtain ⟨i, hi, rfl⟩ := List.mem_map.1 h
  have := List.mem_range.1 hi
  omega

theorem blockOf_le (lo hi : Nat) : (blockOf lo hi).1 ≤ lo := Nat.div_mul_le_self ..

theorem foldl_min_le {α : Type} (f : α → Nat) (l : List α) (b : Nat) : l.foldl (fun m e => min m (f e)) b ≤ b :=
  foldl_le_of_forall (fun a _ m hm => (Nat.min_le_left m (f a)).trans hm) (Nat.le_refl b)

/-- A request begins in the line that it is for (R94). -/
theorem State.requests_le {s : State} {c part : Nat} {act : Lanes} {pieces : Nat → List (Loc × Nat)} {l : Nat} {e : Nat × Nat}
    (h : e ∈ s.requests c part act pieces l) : ∃ p n, (.glob p, n) ∈ s.physOf c part (pieces l) ∧
      ∃ ln ∈ linesOf p.toNat n, e.1 ≤ 128 * ln + 127 := by
  simp only [State.requests, List.mem_map, List.mem_eraseDups, List.mem_flatMap, List.mem_filterMap] at h
  obtain ⟨ln, ⟨⟨p', n⟩, ⟨⟨loc, n'⟩, hpiece, hloc⟩, hln⟩, rfl⟩ := h
  cases loc with
  | scr m off => cases hloc
  | glob p =>
    obtain ⟨rfl, rfl⟩ := Prod.mk.inj (Option.some.inj hloc)
    exact ⟨p, n', hpiece, ln, hln, (blockOf_le ..).trans (foldl_min_le ..)⟩

/-- The requests of a lane whose bytes lie in near memory go to near memory. -/
theorem State.requests_near {s : State} {c part : Nat} {act : Lanes} {pieces : Nat → List (Loc × Nat)} {l : Nat}
    (h : ∀ p n, (.glob p, n) ∈ s.physOf c part (pieces l) → 0 < n ∧ p.toNat + n ≤ farBase) :
    ∀ e ∈ s.requests c part act pieces l, isFar e.1 = false := by
  intro e he
  obtain ⟨p, n, hpiece, ln, hln, hle⟩ := State.requests_le he
  obtain ⟨hpos, hnear⟩ := h p n hpiece
  have hline := le_of_mem_linesOf hln
  rw [farBase] at hnear
  exact decide_eq_false (Nat.not_le.2 (show e.1 < 0x08000000000 by omega))

/-! ### A store has left -/

theorem foldl_fixed_of_mem {σ α : Type} {f : σ → α → σ} {s : σ} {l : List α} (h : ∀ a ∈ l, f s a = s) : l.foldl f s = s := by
  induction l with
  | nil => rfl
  | cons a l ih => rw [List.foldl_cons, h a List.mem_cons_self, ih fun b hb => h b (List.mem_cons_of_mem a hb)]

theorem State.storeLeft_clear {p : PStore} (h : p.causes = []) (s : State) (c : Nat) : s.storeLeft c p = s := by
  rw [State.storeLeft, PStore.final, h]
  rfl

/-- A skein that is in no handler and waits at no release takes nothing from a store that leaves. -/
theorem State.afterStores_free {s : State} {c q : Nat} (h : ∀ k, s.skein c q = some k → k.trap = none ∧ k.relWait = none) :
    (s.atRelease c q).tretCheck c q = s := by
  cases hk : s.skein c q with
  | none =>
    have hrel : s.atRelease c q = s := by rw [State.atRelease, hk]
    rw [hrel, State.tretCheck, hk]
  | some k =>
    obtain ⟨htrap, hwait⟩ := h k hk
    have hrel : s.atRelease c q = s := by
      rw [State.atRelease, hk]
      exact if_neg (by simp [hwait])
    simp only [hrel, State.tretCheck, hk, htrap]

/-- Where no store that leaves has a cause, and no skein of one is in a handler or waits at a release, the stores leave and nothing else
changes. -/
theorem State.sweepStores_quiet {s : State} {c : Nat} (h : ∀ p ∈ (s.core c).stores, p.left = 0 → p.causes = [] ∧
    ∀ k, s.skein c p.slot = some k → k.trap = none ∧ k.relWait = none) :
    s.sweepStores c = s.updCore c fun u => { u with stores := u.stores.filter fun p => p.left != 0 } := by
  have hgone : ∀ p ∈ (s.core c).stores.filter fun p => p.left == 0, p.causes = [] ∧
      ∀ k, s.skein c p.slot = some k → k.trap = none ∧ k.relWait = none := fun p hp => by
    obtain ⟨hmem, hleft⟩ := List.mem_filter.1 hp
    exact h p hmem (beq_iff_eq.1 hleft)
  unfold State.sweepStores
  dsimp only
  rw [foldl_fixed_of_mem fun p hp => State.storeLeft_clear (hgone p hp).1 ..]
  refine foldl_fixed_of_mem fun q hq => State.afterStores_free ?_
  obtain ⟨p, hp, rfl⟩ := List.mem_map.1 (List.mem_eraseDups.1 hq)
  exact (hgone p hp).2

/-! ### The lane that is performed -/

/-- The bytes of a lane of a plain store that its next write takes: of 16 bytes one half (R106). -/
def PStore.nextBytes (p : PStore) (m : MemM) (l : Nat) : List Byte :=
  ((p.bytes l (MemM.size m)).drop (if MemM.size m = 16 && p.high l then 8 else 0)).take 8

/-- Where they go. -/
def PStore.nextVa (p : PStore) (m : MemM) (l : Nat) : DWord :=
  (p.addrs[l]?).getD 0 + BitVec.ofNat 64 (if MemM.size m = 16 && p.high l then 8 else 0)

theorem MemM.size_cases {m : MemM} (h : MemM.size m ≤ 16) : MemM.size m ∈ [1, 2, 4, 8, 16] := by
  have hbytes : MTy.bytes m.t ∈ [1, 2, 4, 8] := by cases m.t <;> decide
  have hnum : Cnt.num m.n ∈ [1, 2, 4] := by cases m.n <;> decide
  simp only [List.mem_cons, List.not_mem_nil, or_false, MemM.size] at h hbytes hnum ⊢
  rcases hbytes with hb | hb | hb | hb <;> rcases hnum with hn | hn | hn <;> rw [hb, hn] at h ⊢ <;> omega

theorem PStore.bytes_length (p : PStore) (l : Nat) {n : Nat} (h : n ≤ 16) : (p.bytes l n).length = n := by
  rw [PStore.bytes, List.length_take, List.length_append, leBytes_length, leBytes_length]
  omega

section
variable {p : PStore} {c : Ctl} {m : MemM} {off : BitVec 24} {a b : Opnd} (hi : p.i = .st c m off a b)
include hi

theorem PStore.pieces_plain (l : Nat) : p.pieces l = [(.glob ((p.addrs[l]?).getD 0), MemM.size m)] := by
  rw [PStore.pieces, hi]
  rfl

theorem PStore.halved_plain : p.halved = (MemM.size m == 16) := by rw [PStore.halved, hi]

/-- The bytes that a lane of a plain store writes now, where they go and how many they are (R106). -/
theorem PStore.piecesNow_plain (hsize : MemM.size m ≤ 16) (l : Nat) :
    p.piecesNow l = [(.glob (p.nextVa m l), (p.nextBytes m l).length)] ∧
    ((if p.halved && p.high l then (p.bytes l (MemM.size m)).drop 8 else p.bytes l (MemM.size m)).take (p.nextBytes m l).length) =
      p.nextBytes m l := by
  have hlen := p.bytes_length l hsize
  have hcases := MemM.size_cases hsize
  rw [PStore.piecesNow, PStore.halved_plain hi, PStore.pieces_plain hi, PStore.nextBytes, PStore.nextVa]
  generalize p.bytes l (MemM.size m) = bs at hlen ⊢
  by_cases hz : MemM.size m = 16
  · rw [hz] at hlen ⊢
    cases p.high l <;> simp [hlen]
  · have hfull : bs.take 8 = bs := List.take_of_length_le (by simp at hcases; omega)
    simp [hz, hfull, hlen]

theorem State.storeValue_plain (s : State) (core l : Nat) : s.storeValue core p l = .ok s (p.bytes l (MemM.size m)) 0 := by
  rw [State.storeValue, hi]
  rfl

theorem State.tlPublish_plain (s : State) (core l : Nat) : s.tlPublish core p l = s := by
  rw [State.tlPublish, hi]
end

/-- A write of one global piece that can be performed. -/
theorem State.storePieces_glob {s : State} {c part : Nat} {va : DWord} {n : Nat} {w : Xl} (h : s.canWrite c part va n = .ok w) (lot : Nat)
    (t : Option Triple) (md : HomeMode) (bs : List Byte) :
    s.storePieces c part lot t md [(.glob va, n)] bs = (.ok default, s.writeHome c part lot va md w (bs.take n) t) := by
  simp only [State.storePieces, h]

theorem State.canWrite_ok {s : State} {c part : Nat} {va : DWord} {n : Nat} {e : Xl} (hx : s.xlate c part va true false = .ok e)
    (hm : s.marked e.pa = false) (hw : s.writeCause part e.pa n = none) : s.canWrite c part va n = .ok e := by
  simp only [State.canWrite, hx, hm, hw, Bool.false_eq_true, if_false]

/-- The machine after a lane of a plain store has been written at its home, before its account is kept. -/
def State.laneWritten (s : State) (core : Nat) (p : PStore) (m : MemM) (l : Nat) (e : Xl) : State :=
  s.writeHome core (s.partOf (s.lot p.lot)) p.lot (p.nextVa m l) (memAccess .g .store m).mode e (p.nextBytes m l) none

/-- The account kept with a performed lane of a store: the lane has gone, its samples are served, and its blocks fetched (R94, R106, R329). -/
def State.laneNoted (s t : State) (core : Nat) (p : PStore) (l : Nat) : State :=
  let part := s.partOf (s.lot p.lot)
  (s.noteServed (t.updStore core p.seq fun p => p.acked l) core p.slot p.order part false (p.pieces l)).fetchBlocks part
    (s.allocAt core part p.i (p.pieces l)) (s.requests core part p.info.act p.pieces l)

/-- A lane of a plain store that need not wait is written at its home. -/
theorem State.ackLane_plain {s : State} {core seq l : Nat} {p : PStore} {c : Ctl} {m : MemM} {off : BitVec 24} {a b : Opnd} {e : Xl}
    (hfind : ((s.core core).stores.find? fun p => p.seq == seq) = some p) (hi : p.i = .st c m off a b) (hsize : MemM.size m ≤ 16)
    (hleft : p.left.getLsbD l = true) (hfree : s.storeBlocked core p l = false) (hchecked : s.checked p.lot = false)
    (hcan : s.canWrite core (s.partOf (s.lot p.lot)) (p.nextVa m l) (p.nextBytes m l).length = .ok e)
    (hwatch : s.debugWatch (s.launch (s.lot p.lot).launch) ((p.addrs[l]?).getD 0) (MemM.size m) = false) :
    s.ackLane core seq l = some (s.laneNoted (s.laneWritten core p m l e) core p l) := by
  obtain ⟨hnow, hbytes⟩ := PStore.piecesNow_plain hi hsize l
  have hseq : p.seq = seq := by simpa using List.find?_some hfind
  have hacc : accessOf p.i = some (memAccess .g .store m) := by rw [hi]; rfl
  simp only [State.ackLane, hfind, hleft, hfree, State.storeValue_plain hi, hnow, State.storePieces_glob hcan, hbytes, hacc,
    PStore.pieces_plain hi, hwatch, State.tlPublish_plain hi, hchecked, tripleOf, List.any_cons, List.any_nil, Bool.not_true, Bool.or_false,
    Bool.false_eq_true, if_false]
  rw [State.laneNoted, hseq, PStore.pieces_plain hi]
  rfl

/-- A set of one lane. -/
theorem laneList_one {l : Nat} (h : l < 64) : laneList (BitVec.ofNat 64 (2 ^ l)) = [l] := by
  have hbit : ∀ i ∈ List.range 64, (BitVec.ofNat 64 (2 ^ l)).getLsbD i = (i == l) := fun i hi => by
    rw [BitVec.getLsbD_ofNat, Nat.testBit_two_pow, List.mem_range.1 hi |> decide_eq_true, Bool.true_and, beq_eq_decide]
    exact decide_eq_decide.2 eq_comm
  rw [laneList, List.filter_congr hbit, List.filter_beq, List.count_eq_one_of_mem List.nodup_range (List.mem_range.2 h)]
  rfl

theorem PStore.not_held {s : State} {c l : Nat} {p : PStore} (h : s.storeBlocked c p l = false) : p.hold = false := by
  simp only [State.storeBlocked, Bool.or_eq_false_iff] at h
  obtain ⟨⟨⟨⟨hhold, -⟩, -⟩, -⟩, -⟩ := h
  exact hhold

/-- The acknowledgement of a store that has one lane left attempts that lane. -/
theorem storeAck_one {s t : State} {core seq l : Nat} {p : PStore} (hfind : ((s.core core).stores.find? fun p => p.seq == seq) = some p)
    (hasc : ascendingStore p.i = false) (hl : l < 64) (hleft : p.left = BitVec.ofNat 64 (2 ^ l)) (hhold : p.hold = false)
    (hlane : s.ackLane core seq l = some t) : exec (.storeAck core seq) s = .next (t.sweepStores core) := by
  have hunhold : s.unholdStore core seq = s := by simp [State.unholdStore, hfind, hhold]
  have hlanes : s.ackLanes core seq false [l] = t.sweepStores core := by
    simp only [State.ackLanes, hunhold, State.ackEach, hlane, Bool.false_eq_true, if_false]
  show execStoreAck core seq s = _
  simp only [execStoreAck, hfind, hasc, hleft, laneList_one hl, List.length_singleton, Nat.mod_one, List.getElem?_cons_zero,
    Bool.false_eq_true, if_false]
  rw [← hlanes, List.filter_singleton, beq_self_eq_true]
  rfl

/-- A lane's bytes lie on one page, and so do those that its next write takes. -/
theorem PStore.next_onPage (p : PStore) {m : MemM} {l : Nat} (hsize : MemM.size m ≤ 16)
    (halign : ((p.addrs[l]?).getD 0).toNat % MemM.size m = 0) :
    (p.nextVa m l).toNat / 65536 = ((p.addrs[l]?).getD 0).toNat / 65536 ∧ 0 < (p.nextBytes m l).length ∧
      (p.nextVa m l).toNat % 65536 + (p.nextBytes m l).length ≤ 65536 ∧
      0 < MemM.size m ∧ ((p.addrs[l]?).getD 0).toNat % 65536 + MemM.size m ≤ 65536 := by
  have hlen := p.bytes_length l hsize
  have hcases := MemM.size_cases hsize
  simp only [PStore.nextVa, PStore.nextBytes, List.length_take, List.length_drop, hlen, BitVec.toNat_add, BitVec.toNat_ofNat]
  generalize (p.addrs[l]?).getD 0 = va at halign ⊢
  have hlt := va.isLt
  simp only [List.mem_cons, List.not_mem_nil, or_false] at hcases
  have hhalf : (if MemM.size m = 16 && p.high l then 8 else 0) < MemM.size m := by
    split
    · rename_i h
      rw [of_decide_eq_true (Bool.and_eq_true_iff.1 h).1]
      omega
    · omega
  generalize (if MemM.size m = 16 && p.high l then 8 else 0) = half at hhalf ⊢
  rcases hcases with hz | hz | hz | hz | hz <;> rw [hz] at halign hhalf ⊢ <;> omega

/-- The account of a performed lane changes no byte of memory, and of the store only what is left of it. -/
theorem State.laneNoted_spec (s t : State) (core : Nat) (p : PStore) (l : Nat) :
    (s.laneNoted t core p l).mem = t.mem ∧
    ((s.laneNoted t core p l).core core).stores = (t.core core).stores.map (fun r => if r.seq == p.seq then r.acked l else r) ∧
    (∀ q, (s.laneNoted t core p l).handling core q = t.handling core q) ∧
    ((∀ e ∈ s.requests core (s.partOf (s.lot p.lot)) p.info.act p.pieces l, isFar e.1 = false) → (s.laneNoted t core p l).far = t.far) := by
  obtain ⟨hmem, hfar⟩ := s.noteServed_memories (t.updStore core p.seq fun p => p.acked l) core p.slot p.order (s.partOf (s.lot p.lot)) false
    (p.pieces l)
  have hsame : (s.laneNoted t core p l).SameStores (t.updStore core p.seq fun p => p.acked l) core :=
    (State.fetchBlocks_sameStores ..).trans (State.noteServed_sameStores ..)
  refine ⟨(State.fetchBlocks_mem ..).trans hmem, ?_, fun q => ?_, fun hnear => (State.fetchBlocks_far_of_near _ _ _ hnear).trans hfar⟩
  · rw [hsame.stores, State.updStore, State.core_updCore]
  · rw [hsame.handling]
    rfl

theorem PStore.acked_kept (p : PStore) (l : Nat) : (p.acked l).causes = p.causes ∧ (p.acked l).slot = p.slot := by
  unfold PStore.acked
  split <;> exact ⟨rfl, rfl⟩

/-- What stands in a skein slot is in no handler and waits at no release, where that was so before. -/
theorem State.free_of_handling {s t : State} {c q : Nat} (h : t.handling c q = s.handling c q)
    (hs : ∀ k, s.skein c q = some k → k.trap = none ∧ k.relWait = none) : ∀ k, t.skein c q = some k → k.trap = none ∧ k.relWait = none := by
  intro k hk
  rw [State.handling, State.handling, hk] at h
  cases hj : s.skein c q with
  | none =>
    rw [hj] at h
    cases h
  | some j =>
    rw [hj] at h
    obtain ⟨htrap, hwait⟩ := Prod.mk.inj (Option.some.inj h)
    exact ⟨htrap.trans (hs j hj).1, hwait.trans (hs j hj).2⟩

/-- After a lane of a store without causes, of a core whose other stores are not over, no store leaves with a cause or into a wait. -/
theorem State.laneNoted_quiet {s t : State} {core l : Nat} {p : PStore} (ht : t.SameStores s core) (hcauses : p.causes = [])
    (hothers : ∀ r ∈ (s.core core).stores, r ≠ p → r.left ≠ 0 ∧ r.seq ≠ p.seq)
    (hfree : ∀ k, s.skein core p.slot = some k → k.trap = none ∧ k.relWait = none) :
    ∀ r ∈ ((s.laneNoted t core p l).core core).stores, r.left = 0 → r.causes = [] ∧
      ∀ k, (s.laneNoted t core p l).skein core r.slot = some k → k.trap = none ∧ k.relWait = none := by
  obtain ⟨-, hstores, hhandling, -⟩ := s.laneNoted_spec t core p l
  intro r' hr' hgone
  rw [hstores, ht.stores] at hr'
  obtain ⟨r, hr, rfl⟩ := List.mem_map.1 hr'
  by_cases hp : r = p
  · subst hp
    obtain ⟨hkept, hslot⟩ := r.acked_kept l
    rw [if_pos (beq_self_eq_true _), hkept, hslot]
    exact ⟨hcauses, State.free_of_handling ((hhandling _).trans (ht.handling _)) hfree⟩
  · obtain ⟨hleft, hseq⟩ := hothers r hr hp
    rw [if_neg (by simpa using hseq)] at hgone
    exact absurd hgone hleft

/-- The requests of a lane whose next bytes lie in near memory go to near memory. -/
theorem State.requests_plain_near {s : State} {core part l : Nat} {p : PStore} {c : Ctl} {m : MemM} {off : BitVec 24} {a b : Opnd} {e : Xl}
    (hi : p.i = .st c m off a b) (hsize : MemM.size m ≤ 16) (halign : ((p.addrs[l]?).getD 0).toNat % MemM.size m = 0)
    (hxl : s.xlate core part (p.nextVa m l) true false = .ok e) (hnear : isFar e.pa = false) :
    ∀ r ∈ s.requests core part p.info.act p.pieces l, isFar r.1 = false := by
  obtain ⟨hpage, -, -, hpos, hlane⟩ := p.next_onPage hsize halign
  refine State.requests_near fun q n hq => ?_
  rw [PStore.pieces_plain hi, State.physOf, List.mem_filterMap] at hq
  obtain ⟨piece, hpiece, hphys⟩ := hq
  obtain rfl := List.mem_singleton.1 hpiece
  cases hx : s.xlate core part ((p.addrs[l]?).getD 0) false false with
  | bad code level pte =>
    simp only [hx] at hphys
    cases hphys
  | ok x =>
    simp only [hx] at hphys
    obtain ⟨hsame, -, hoff⟩ := State.xlate_samePage hpage hxl hx
    obtain ⟨hloc, rfl⟩ := Prod.mk.inj (Option.some.inj hphys)
    obtain rfl := Loc.glob.inj hloc
    have hle : (BitVec.ofNat 64 x.pa).toNat ≤ x.pa := by
      rw [BitVec.toNat_ofNat]
      exact Nat.mod_le ..
    have hlt : e.pa < farBase := Nat.not_le.1 (of_decide_eq_false hnear)
    rw [farBase] at hlt ⊢
    exact ⟨hpos, by omega⟩

/-- The write of a lane at its home, on one page of which no launch has marked any. -/
theorem State.laneWritten_spec {s : State} {core l : Nat} {p : PStore} {m : MemM} {e : Xl} (hsize : MemM.size m ≤ 16)
    (halign : ((p.addrs[l]?).getD 0).toNat % MemM.size m = 0)
    (hxl : s.xlate core (s.partOf (s.lot p.lot)) (p.nextVa m l) true false = .ok e) (hmark : s.marked e.pa = false) :
    (s.laneWritten core p m l e).SameStores s core ∧
    (s.laneWritten core p m l e).mem = (if e.peer then s.mem else memStore s.mem e.pa (p.nextBytes m l)) ∧
    (isFar e.pa = false → m.scope ≠ .sys → (s.laneWritten core p m l e).far = s.far) := by
  obtain ⟨-, hpos, hnext, -, -⟩ := p.next_onPage hsize halign
  obtain ⟨-, hoff, -⟩ := State.xlate_samePage rfl hxl hxl
  obtain ⟨hstores, hmem, hfar⟩ := State.writeHome_spec (c := core) (part := s.partOf (s.lot p.lot)) (lot := p.lot) (va := p.nextVa m l)
    (md := (memAccess .g .store m).mode) (State.snapPages_onPage (s := s.tlbFill core _ _ e) (hoff ▸ hnext) hpos hmark) none
  exact ⟨hstores, hmem, fun hnear hsys => hfar hnear (Bool.and_eq_false_iff.2 (.inr (beq_eq_false_iff_ne.2 hsys)))⟩

/-- The whole acknowledgement of one lane of a plain store that need not wait. -/
theorem storeAck_plain {s : State} {core l : Nat} {p : PStore} {c : Ctl} {m : MemM} {off : BitVec 24} {a b : Opnd} {e : Xl}
    (hfind : ((s.core core).stores.find? fun r => r.seq == p.seq) = some p) (hi : p.i = .st c m off a b) (hsize : MemM.size m ≤ 16)
    (hl : l < 64) (hleft : p.left = BitVec.ofNat 64 (2 ^ l)) (hfree : s.storeBlocked core p l = false) (hchecked : s.checked p.lot = false)
    (hcan : s.canWrite core (s.partOf (s.lot p.lot)) (p.nextVa m l) (p.nextBytes m l).length = .ok e)
    (hwatch : s.debugWatch (s.launch (s.lot p.lot).launch) ((p.addrs[l]?).getD 0) (MemM.size m) = false) :
    exec (.storeAck core p.seq) s = .next ((s.laneNoted (s.laneWritten core p m l e) core p l).sweepStores core) := by
  have hasc : ascendingStore p.i = false := by rw [hi]; rfl
  have hbit : p.left.getLsbD l = true := by
    rw [hleft, BitVec.getLsbD_ofNat, Nat.testBit_two_pow_self, Bool.and_true]
    exact decide_eq_true hl
  exact storeAck_one hfind hasc hl hleft (PStore.not_held hfree) (State.ackLane_plain hfind hi hsize hbit hfree hchecked hcan hwatch)

end Sys2Proof.Machine

open Sys2Proof Sys2Proof.Machine

/-- Settles O39: the one lane is written at its home on one page, its account changes no byte, and the store leaves without a cause. -/
theorem storeAckWrites : Obligations.StoreAckWrites := by
  unfold Obligations.StoreAckWrites
  intro s core seq p c m off a b l e hs hfind hi hsize hl hleft hfree hchecked hcauses hothers part va half bytes halign hxl hmark hcan
    hwatch hskein
  obtain rfl : p.seq = seq := by simpa using List.find?_some hfind
  obtain ⟨hstores, hmem, hfar⟩ := State.laneWritten_spec hsize halign hxl hmark
  obtain ⟨hnmem, -, -, hnfar⟩ := s.laneNoted_spec (s.laneWritten core p m l e) core p l
  have hexec := storeAck_plain hfind hi hsize hl hleft hfree hchecked (State.canWrite_ok hxl hmark hcan) hwatch
  rw [State.sweepStores_quiet (State.laneNoted_quiet hstores hcauses hothers hskein)] at hexec
  have hafter : (s.laneNoted (s.laneWritten core p m l e) core p l).mem = if e.peer then s.mem else memStore s.mem e.pa bytes :=
    hnmem.trans hmem
  refine ⟨_, hexec, fun hnear hsys => ?far, fun hpeer => ?peer, fun hpeer => ?own⟩
  case far => exact (hnfar (State.requests_plain_near hi hsize halign hxl hnear)).trans (hfar hnear hsys)
  case peer => rw [State.updCore_mem, hafter, hpeer, if_pos rfl]
  case own =>
    rw [State.updCore_mem, hafter, hpeer, if_neg Bool.false_ne_true]
    refine ⟨fun n hn => ?_, fun n hn => ?_⟩
    · rw [memRead_memStore _ _ _ hs.1, if_pos ⟨Nat.le_add_right .., Nat.add_lt_add_left hn _⟩, Nat.add_sub_cancel_left,
        List.getElem?_eq_getElem hn, Option.getD_some]
    · rw [memRead_memStore _ _ _ hs.1, if_neg fun h => hn.elim (Nat.not_lt.2 h.1) (Nat.not_le.2 h.2)]

end

section
/-! SUPPORT. The round trip of the encoder and the decoder (R132, R133, R144): the decoder builds an instruction again from the fields that
the encoder gives it, and the words of some fields are decoded as those fields. -/

namespace Sys2Proof

/-! ### The instruction of its own fields -/

/-- The decoder chooses the constructor by OPC, and by TYPE or SUB where two share one, and every operand and modifier is read back from where the
encoder put it. A device event has no fields to build from. -/
theorem build_of_toFields {i : Instr} {f : Fields} (h : i.toFields = some f) : build f = some i := by
  cases i with
  -- Flags and ids that stand in MOD or in the immediate as they are, without a layout of their own: each part is read by its law.
  | pand | por | pxor =>
    cases h
    refine congrArg some ?_
    congr 1
    exacts [Ctl.ofFields_mkF .., pair_bit0 .., pair_bit1 .., mkF_dOp .., mkF_aOp .., mkF_bOp ..]
  | vdot4 =>
    cases h
    refine congrArg some ?_
    congr 1
    exacts [Ctl.ofFields_mkF .., (modF_bit0 ..).trans (triple_bit0 ..), (modF_bit1 ..).trans (triple_bit1 ..),
      (modF_bit2 ..).trans (triple_bit2 ..), mkF_dOp .., mkF_aOp .., mkF_bOp .., mkF_cOp ..]
  | nbar =>
    cases h
    refine congrArg some ?_
    congr 1
    exacts [Ctl.ofFields_mkF .., barrier_id .., barrier_arrive ..]
  -- An operand that may be missing.
  | cvt c df sf r d a b =>
    cases b <;> cases h <;> exact congrArg some (by simp)
  | bsinit c d a w =>
    cases w <;> cases h <;> exact congrArg some (by simp)
  -- Two instructions share an opcode, and TYPE or SUB tells them apart.
  | ld =>
    cases h
    exact (if_neg (by simp [MemM.mod])).trans (congrArg some (by simp))
  | ldFmt =>
    cases h
    exact (if_pos (by simp)).trans (congrArg some (by simp))
  | cpy =>
    cases h
    exact (if_neg (by simp)).trans (congrArg some (by simp))
  -- The laws of these layouts give a width as the sum of its parts, which is left as it stands.
  | shfl | mlda | msta =>
    cases h
    exact congrArg some (by simp [-Nat.reduceAdd])
  | _ => cases h <;> exact congrArg some (by simp)

/-- The reserved bits of the instruction word are zero whatever it encodes (R133). -/
theorem Instr.toFields_reserved {i : Instr} {f : Fields} (h : i.toFields = some f) : f.r1 = 0 ∧ f.r2 = 0 := by
  cases i with
  | bsinit c d a w => cases w <;> cases h <;> exact ⟨rfl, rfl⟩
  | _ => cases h <;> exact ⟨rfl, rfl⟩

/-! ### The words of some fields -/

/-- The words of some fields: the instruction from bit 0 on, behind its optional word (R132, R144). -/
def Fields.words (f : Fields) : List Word :=
  match f.pfx with
  | none => wordsOf f.pack
  | some p => p.pack :: wordsOf f.pack

theorem encode_eq_words {i : Instr} {f : Fields} (h : i.toFields = some f) : encode i = f.words := by
  rw [encode, h]
  rfl

/-- The first word of an instruction is taken for the optional word only under the OPC 0xFE. -/
theorem isPfxWord_first (f : Fields) : isPfxWord (f.pack.extractLsb' 0 32) = (f.opc == 0xFE) := by
  rw [isPfxWord, BitVec.extractLsb'_extractLsb'_of_le (by decide), Fields.pack_opc]

/-- The words of some fields are decoded as those fields, over their whole length. -/
theorem decodeList_words {f : Fields} (h : f.opc ≠ 0xFE) : decodeList f.words = some (decodeFields f (4 * f.words.length)) := by
  have hunpack := unpack_pack f
  unfold Fields.words
  cases hp : f.pfx with
  | none =>
    have hfirst : isPfxWord (f.pack.extractLsb' 0 32) = false := (isPfxWord_first f).trans (beq_eq_false_iff_ne.2 h)
    rw [hp] at hunpack
    simp [wordsOf, decodeList, decodeWords, hfirst, words96_wordsOf, hunpack]
  | some p =>
    rw [hp] at hunpack
    simp [wordsOf, decodeList, decodeWords, isPfxWord_pack, unpackPfx_pack, words96_wordsOf, hunpack]

/-! ### Well-formed instructions -/

theorem Instr.wf_iff (i : Instr) : i.wf = true ↔ ∃ f, i.toFields = some f ∧ firstCause none f = none := by
  unfold Instr.wf Instr.encodingCause
  cases i.toFields <;> simp

/-- 0xFE is no opcode (R146, R354). -/
theorem opc_ne_of_firstCause {env : Option IxEnv} {f : Fields} (h : firstCause env f = none) : f.opc ≠ 0xFE := by
  intro hopc
  rw [firstCause, if_pos (beq_iff_eq.2 hopc)] at h
  split at h
  · split at h <;> cases h
  · cases h

theorem decodeFields_of_build {i : Instr} {f : Fields} (hcause : firstCause none f = none) (hbuild : build f = some i) (n : Nat) :
    decodeFields f n = .ok i n := by
  rw [decodeFields, hcause]
  simp [hbuild]

theorem decodeList_encode {i : Instr} (h : i.wf = true) : decodeList (encode i) = some (.ok i (4 * (encode i).length)) := by
  obtain ⟨f, hf, hcause⟩ := i.wf_iff.1 h
  rw [encode_eq_words hf, decodeList_words (opc_ne_of_firstCause hcause), decodeFields_of_build hcause (build_of_toFields hf)]

/-- Words that the encoder gives for a well-formed instruction are decoded as it. -/
theorem decodeList_of_encode {i : Instr} {ws : List Word} (h : i.wf = true) (hwords : encode i = ws) :
    decodeList ws = some (.ok i (4 * ws.length)) := hwords ▸ decodeList_encode h

end Sys2Proof

open Sys2Proof

/-- Settles O1: the decoder reads the fields back from the words, meets no cause in them, and builds the instruction that they came from. -/
theorem decodeEncode : Obligations.DecodeEncode := by
  unfold Obligations.DecodeEncode
  exact fun i h => decodeList_encode h

/-- Settles O3: the bits are read by unpacking the packed fields, and no row of the encoder sets a reserved bit. -/
theorem instructionFields : Obligations.InstructionFields := by
  unfold Obligations.InstructionFields
  refine ⟨fun f => ?_, fun i f h => i.toFields_reserved h⟩
  have h := unpack_pack f
  exact ⟨congrArg Fields.opc h, congrArg Fields.sub h, congrArg Fields.guard h, congrArg Fields.gneg h, congrArg Fields.dst h,
    congrArg Fields.a h, congrArg Fields.b h, congrArg Fields.imm h, congrArg Fields.mod h, congrArg Fields.ix h, congrArg Fields.r1 h,
    congrArg Fields.hold h, congrArg Fields.stall h, congrArg Fields.yh h, congrArg Fields.r2 h, congrArg Fields.sw h⟩

/-- Settles O2: each list of words is what the encoder gives for its instruction, which is well-formed. -/
theorem decodedWords : Obligations.DecodedWords := by
  unfold Obligations.DecodedWords
  exact ⟨decodeList_of_encode (by decide) (by decide), decodeList_of_encode (by decide) (by decide),
    decodeList_of_encode (by decide) (by decide), decodeList_of_encode (by decide) (by decide),
    decodeList_of_encode (by decide) (by decide)⟩

end

section
/-! SUPPORT. The turn of an issue slot (R24, R95, R132): what each outcome of it makes of the step, and which outcome it has. -/

namespace Sys2Proof.Machine

variable {s : State} {c q : Nat}

/-! ### The step of a granted issue slot -/

theorem step_of_turn_idle (hgrant : s.grant = .issue c q) (hruns : s.stopped = false) (hturn : s.turn c q = .idle) :
    step s = .next s.settle := by
  simp [step, hgrant, hruns, hturn]

theorem step_of_turn_run {i : Instr} (hgrant : s.grant = .issue c q) (hruns : s.stopped = false) (hturn : s.turn c q = .run i) :
    step s = finishStep (exec i s) := by
  simp [step, hgrant, hruns, hturn]

theorem step_of_turn_trap {t : State} (hgrant : s.grant = .issue c q) (hruns : s.stopped = false) (hturn : s.turn c q = .trap t) :
    step s = .next t.settle := by
  simp [step, hgrant, hruns, hturn]

/-! ### The outcome of a turn -/

/-- A slot that the module does not have does nothing (R16). -/
theorem State.turn_outside (h : 512 ≤ c ∨ 64 ≤ q) : s.turn c q = .idle := by
  have hslot : slotOk c q = false :=
    Bool.and_eq_false_iff.2 (h.imp (fun hc => decide_eq_false (Nat.not_lt.2 hc)) fun hq => decide_eq_false (Nat.not_lt.2 hq))
  simp [State.turn, hslot]

section
variable {k : Skein} {pc : DWord} (hc : c < 512) (hq : q < 64) (hk : s.skein c q = some k) (hissue : s.issuable c q = true)
  (hcur : k.cur = some pc)
include hc hq hk hissue hcur

theorem State.turn_refused {va : DWord} {code d : Nat}
    (hrefused : (k.noFetch.find? fun e => e.1 == pc).bind Prod.snd = some (va, code, d)) :
    s.turn c q = .trap (s.fetchTrap c q k pc va code d) := by
  simp [State.turn, slotOk, hc, hq, hk, hissue, hcur, hrefused]

theorem State.turn_run {w0 w1 w2 w3 : Word} {i : Instr} {n : Nat}
    (hrefused : (k.noFetch.find? fun e => e.1 == pc).bind Prod.snd = none) (hfetch : s.fetch c q k pc = .words [w0, w1, w2, w3])
    (hdecode : decodeWords w0 w1 w2 w3 = .ok i n) : s.turn c q = .run i := by
  simp [State.turn, slotOk, hc, hq, hk, hissue, hcur, hrefused, hfetch, hdecode]

end

end Sys2Proof.Machine

open Sys2Proof Sys2Proof.Machine

/-- Settles O10: a turn outside the module's slots is idle, one of a refused fetch is its trap, and else it runs what was decoded. -/
theorem stepRunsDecoded : Obligations.StepRunsDecoded := by
  unfold Obligations.StepRunsDecoded
  intro s c q k pc w0 w1 w2 w3 i n hgrant hruns
  refine ⟨fun hout => step_of_turn_idle hgrant hruns (State.turn_outside hout), fun hc hq hk hissue hcur => ⟨?run, ?refused⟩⟩
  case run =>
    intro hrefused hfetch hdecode _
    exact step_of_turn_run hgrant hruns (State.turn_run hc hq hk hissue hcur hrefused hfetch hdecode)
  case refused =>
    intro va code d hrefused
    exact step_of_turn_trap hgrant hruns (State.turn_refused hc hq hk hissue hcur hrefused)

end

section
/-! SUPPORT. Results of the integer instructions (R50, R154 to R158, R161, R162): what a result under a type leaves in its register or pair,
whatever its tag. -/

namespace Sys2Proof.Machine

/-! ### Results under a type -/

/-- A result under a type is a register's, or a pair's under a 64-bit type (R43). -/
theorem Wrote.putT {x : Iss} (hx : x.Sound) (t : ITy) (sat : Bool) (d : Opnd) (lin u : Nat → TagR) (val : Nat → DWord) :
    Wrote x (x.putT t sat d lin u val) (x.results (ITy.wide t) d val) 0 := by
  unfold Iss.putT
  cases ITy.wide t with
  | true => exact Wrote.put64 hx d val
  | false => exact Wrote.putOnly hx d _ _

/-- A result on bit patterns has a width of its own (R158, R160). -/
theorem Wrote.bits1 {x : Iss} (hx : x.Sound) (t : ITy) (wide : Bool) (f : DWord → DWord) (d a : Opnd) :
    Wrote x (x.bits1 t wide f d a) (x.results wide d fun l => f (zbits t (x.opA a (ITy.wide t) l))) 0 := by
  unfold Iss.bits1
  cases wide with
  | true => exact Wrote.put64 hx d _
  | false => exact Wrote.putOnly hx d _ _

/-- An instruction of one result under a type. -/
theorem Gives.of_putT {i : Instr} {t : ITy} {sat : Bool} {d : Opnd} {lin u : Iss → Nat → TagR} {val : Iss → Nat → DWord}
    (hexec : ∀ s, exec i s = issueFixed i s fun x => x.putT t sat d (lin x) (u x) (val x)) :
    Gives i fun x => x.results (ITy.wide t) d (val x) :=
  .of_wrote hexec fun _ _ hx => Wrote.putT (mkIss_sound hx) ..

/-- An instruction of one operation on bit patterns. -/
theorem Gives.of_bits1 {i : Instr} {t : ITy} {wide : Bool} {f : DWord → DWord} {d a : Opnd}
    (hexec : ∀ s, exec i s = issueFixed i s fun x => x.bits1 t wide f d a) :
    Gives i fun x => x.results wide d fun l => f (zbits t (x.opA a (ITy.wide t) l)) :=
  .of_wrote hexec fun _ _ hx => Wrote.bits1 (mkIss_sound hx) ..

/-- An instruction of one 32-bit result. -/
theorem Gives.of_put {i : Instr} {d : Opnd} {tag : Iss → Nat → TagR} {val : Iss → Nat → Word}
    (hexec : ∀ s, exec i s = issueFixed i s fun x => x.put x.k (x.dstOf d) (tag x) (val x)) :
    Gives i fun x => [(x.dstOf d, val x)] :=
  .of_wrote hexec fun _ _ hx => Wrote.putOnly (mkIss_sound hx) d _ _

/-- An instruction of one 64-bit result. -/
theorem Gives.of_put64 {i : Instr} {d : Opnd} {val : Iss → Nat → DWord}
    (hexec : ∀ s, exec i s = issueFixed i s fun x => x.put64 x.k (x.dstOf d) (val x)) :
    Gives i fun x => x.results true d (val x) :=
  .of_wrote hexec fun _ _ hx => Wrote.put64 (mkIss_sound hx) d _

/-- The same results, stated otherwise. -/
theorem Gives.congr {i : Instr} {ws ws' : Iss → Results} (h : Gives i ws) (he : ∀ x, ws x = ws' x) : Gives i ws' :=
  (funext he : ws = ws') ▸ h

/-- The results of a register are those of the low halves of its values. -/
theorem Iss.results_narrow (x : Iss) (d : Opnd) {f g : Nat → DWord} (h : ∀ l, loOf (f l) = loOf (g l)) :
    x.results false d f = x.results false d g := by
  have hlow : (fun l => loOf (f l)) = fun l => loOf (g l) := funext h
  simp only [Iss.results, hlow, Bool.false_eq_true, if_false]

/-- The low half of a complement. -/
theorem loOf_not_setWidth (v : DWord) : loOf (~~~(loOf v).setWidth 64) = loOf (~~~v) := by
  ext i hi
  simp [hi, show i < 64 by omega]

/-! ### Predicate results (R136) -/

/-- One more predicate result. -/
theorem Wrote.putIndex {x : Iss} (hx : x.Sound) {k : Skein} {ws : Results} (h : Wrote x k ws 0) (p : BitVec 3) (t : Nat → TagR)
    (f : Nat → Word) : Wrote x (x.put k (.prd p.toNat) t f) (ws ++ [(.prd p.toNat, f)]) 0 :=
  h.putAny hx (fun _ hp => Dst.prd.inj hp ▸ Nat.le_of_lt_succ p.isLt) Dst.noConfusion t f

/-- A predicate result, with its complement in the second predicate of a pair. -/
theorem Wrote.putPred {x : Iss} (hx : x.Sound) (d : Opnd) (val : Nat → Bool) : Wrote x (x.putPred x.k d val) (predResults d val) 0 := by
  have hword : (fun l => if val l then (0 : Word) else 1) = fun l => truth (!val l) :=
    funext fun l => by cases val l <;> rfl
  cases d with
  | prd p => exact (Wrote.nothing x).putIndex hx p (fun _ => .g) _
  | ppair p q =>
    unfold Iss.putPred
    rw [hword]
    exact ((Wrote.nothing x).putIndex hx p _ _).putIndex hx q _ _
  | _ => exact Wrote.nothing x

/-- An instruction of one predicate result. -/
theorem Gives.of_putPred {i : Instr} {d : Opnd} {val : Iss → Nat → Bool}
    (hexec : ∀ s, exec i s = issueFixed i s fun x => x.putPred x.k d (val x)) : Gives i fun x => predResults d (val x) :=
  .of_wrote hexec fun _ _ hx => Wrote.putPred (mkIss_sound hx) d _

/-! ### Add with carry (R157) -/

/-- The carry-in as a number: predicate 7 is always true (R45). -/
theorem Skein.toNat_pred (k : Skein) (ci : BitVec 3) (l : Nat) :
    (k.pred ci.toNat l).toNat = if ci = 7 ∨ k.pred ci.toNat l = true then 1 else 0 := by
  by_cases hci : ci = 7
  · subst hci
    rfl
  · rw [Bool.toNat, Bool.cond_eq_ite]
    exact if_congr (or_iff_right hci).symm rfl rfl

/-- The sum, then the carry-out predicate. -/
theorem Wrote.addCarry {x : Iss} (hx : x.Sound) (ci co : BitVec 3) (d a b : Opnd) :
    let sum := fun l => (x.a32 a l).toNat + (x.b32 b l).toNat + (x.k.pred ci.toNat l).toNat
    Wrote x (x.addCarry ci co d a b)
      [(x.dstOf d, fun l => BitVec.ofNat 32 (sum l)), (.prd co.toNat, fun l => if 2 ^ 32 ≤ sum l then 1 else 0)] 0 := by
  intro sum
  unfold Iss.addCarry
  exact (Wrote.putOnly hx d _ _).putIndex hx co _ _

/-- OPX is the low six bits of MOD. -/
theorem modI_opx (t : ITy) (sat : Bool) (v : BitVec 6) : (modI t sat v).extractLsb' 0 6 = v :=
  part_low (by decide) (part_low (by decide) (part_low (by decide) part_all))

/-! ### The table of BOOL3 (R158) -/

/-- Bit i of BOOL3's result is the table's entry for the three bits. -/
theorem getLsbD_bool3Bits (tbl : BitVec 8) (p q r : DWord) {i : Nat} (hi : i < 64) :
    (bool3Bits tbl p q r).getLsbD i = tbl.getLsbD ((p.getLsbD i).toNat + 2 * (q.getLsbD i).toNat + 4 * (r.getLsbD i).toNat) := by
  have hpick : ∀ (n : Nat) (u v w : DWord), (if tbl.getLsbD n then u &&& v &&& w else 0).getLsbD i =
      (tbl.getLsbD n && (u.getLsbD i && v.getLsbD i && w.getLsbD i)) := fun n u v w => by
    cases tbl.getLsbD n <;> simp
  simp only [bool3Bits, BitVec.getLsbD_or, hpick, BitVec.getLsbD_not, hi, decide_true, Bool.true_and]
  cases p.getLsbD i <;> cases q.getLsbD i <;> cases r.getLsbD i <;> simp

end Sys2Proof.Machine

open Sys2Proof Sys2Proof.Machine

/-- Settles O16: each instruction writes one result under its type. -/
theorem integerArithmetic : Obligations.IntegerArithmetic := by
  unfold Obligations.IntegerArithmetic
  intro c t sat d a b
  refine ⟨.of_putT fun _ => rfl, .of_putT fun _ => rfl, .of_putT fun _ => rfl, .of_putT fun _ => rfl, .of_putT fun _ => rfl,
    .of_putT fun _ => rfl, ?iabs, .of_putT fun _ => rfl⟩
  have habs : (fun n : Int => |n|) = fun n => (n.natAbs : Int) := funext Int.abs_eq_natAbs
  dsimp only
  rw [habs]
  exact .of_putT fun _ => rfl

/-- Settles O17: the sum and the carry are written from predicates read before, and OPX holds ci below co. -/
theorem addWithCarry : Obligations.AddWithCarry := by
  unfold Obligations.AddWithCarry
  intro c t ci co d a b
  refine ⟨(Gives.of_wrote (fun _ => rfl) fun s x hx => Wrote.addCarry (mkIss_sound hx) ci co d a b).congr fun x => ?_, fun f hf => ?_⟩
  · simp only [Skein.toNat_pred, truth, decide_eq_true_eq]
  · obtain rfl := Option.some.inj hf
    have hopx : (mkF c 0x02 0 (modI t false (co ++ ci)) d.code a.code b.code 0).mod.extractLsb' 0 6 = co ++ ci := modI_opx t false _
    rw [hopx]
    exact ⟨BitVec.extractLsb'_append_eq_right, BitVec.extractLsb'_append_eq_left⟩

/-- Settles O18: the sum is formed before the one fit; the addend of IMADW has 64 bits. -/
theorem multiplyAdd : Obligations.MultiplyAdd := by
  unfold Obligations.MultiplyAdd
  intro c t sat d a b e
  refine ⟨.of_putT fun _ => rfl, (Gives.of_put64 fun _ => rfl).congr fun x => ?_⟩
  by_cases ht : t = .n32
  · subst ht
    rfl
  · simp only [beq_eq_false_iff_ne.2 ht, if_neg ht, Bool.false_eq_true, if_false, intVal]

/-- Settles O19: each instruction writes one result under its type; NOT's high half is written in the wide forms alone. -/
theorem logic : Obligations.Logic := by
  unfold Obligations.Logic
  intro c t tbl d a b e
  refine ⟨.of_putT fun _ => rfl, .of_putT fun _ => rfl, .of_putT fun _ => rfl, (Gives.of_bits1 fun _ => rfl).congr fun x => ?_,
    .of_putT fun _ => rfl, fun p q r i hi => getLsbD_bool3Bits tbl p q r hi⟩
  unfold zbits
  cases ITy.wide t with
  | true => rfl
  | false => exact Iss.results_narrow x d fun l => loOf_not_setWidth _

/-- Settles O22: a compare writes predicates or a truth value, and each of the others one result. -/
theorem comparesAndMoves : Obligations.ComparesAndMoves := by
  unfold Obligations.ComparesAndMoves
  intro c cc t neg v h sh d a b p
  refine ⟨.of_putPred fun _ => rfl, .of_put fun _ => rfl, .of_putT fun _ => rfl, .of_putT fun _ => rfl, .of_putT fun _ => rfl,
    .of_put fun _ => rfl, .of_put fun _ => rfl, (Gives.of_put64 fun _ => rfl).congr fun x => ?_⟩
  simp only [beq_iff_eq]

end

section
/-! SUPPORT. Shifts and rotates as arithmetic on numbers (R159): multiplication and division by powers of two, at every count. -/

namespace Sys2Proof.Machine

/-! ### Halves and widths as numbers -/

theorem toNat_loOf (v : DWord) : (loOf v).toNat = v.toNat % 2 ^ 32 := by
  simp

theorem toNat_hiOf (v : DWord) : (hiOf v).toNat = v.toNat / 2 ^ 32 := by
  have := v.isLt
  simp only [BitVec.extractLsb'_toNat, Nat.shiftRight_eq_div_pow]
  omega

theorem toNat_pairOf (a b : Word) : (pairOf a b).toNat = b.toNat * 2 ^ 32 + a.toNat := by
  rw [BitVec.toNat_append, Nat.shiftLeft_eq, Nat.mul_comm, ← Nat.two_pow_add_eq_or_of_lt a.isLt]

theorem bits_le (t : ITy) : ITy.bits t ≤ 64 := by
  unfold ITy.bits
  split <;> omega

/-- The bits of an operand under a type, as a number. -/
theorem toNat_zbits (t : ITy) (v : DWord) : (zbits t v).toNat = v.toNat % 2 ^ ITy.bits t := by
  unfold zbits ITy.bits
  cases ITy.wide t with
  | true => exact (Nat.mod_eq_of_lt v.isLt).symm
  | false => rw [if_neg Bool.false_ne_true, if_neg Bool.false_ne_true, BitVec.toNat_setWidth_of_le (by decide), toNat_loOf]

theorem zbits_lt (t : ITy) (v : DWord) : (zbits t v).toNat < 2 ^ ITy.bits t := by
  rw [toNat_zbits]
  exact Nat.mod_lt _ (Nat.two_pow_pos _)

/-- What a shift reads of SRCA. -/
theorem Iss.toNat_shiftee (x : Iss) (t : ITy) (a : Opnd) (l : Nat) :
    (zbits t (x.opA a (ITy.wide t) l)).toNat = if ITy.wide t then (x.opA a true l).toNat else (x.a32 a l).toNat := by
  unfold zbits
  cases ITy.wide t with
  | true => rfl
  | false => exact BitVec.toNat_setWidth_of_le (by decide)

/-! ### The shifts

Each of them as R159 states it, of a number v of w bits by a count n. -/

def shlNat (w v n : Nat) : DWord := if w ≤ n then 0 else BitVec.ofNat 64 (v * 2 ^ n % 2 ^ w)
def shrNat (w v n : Nat) : DWord := if w ≤ n then 0 else BitVec.ofNat 64 (v / 2 ^ n)
def signedNat (w v : Nat) : Int := if v < 2 ^ (w - 1) then v else v - 2 ^ w
def sarNat (w v n : Nat) : DWord :=
  if w ≤ n then (if signedNat w v < 0 then -1 else 0) else BitVec.ofInt 64 (signedNat w v / 2 ^ n)
def rotlNat (w v n : Nat) : DWord := BitVec.ofNat 64 (v * 2 ^ (n % w) % 2 ^ w + v / 2 ^ (w - n % w))
def funnelNat (right : Bool) (v n : Nat) : DWord := BitVec.ofNat 64 (if right then v / 2 ^ n % 2 ^ 32 else v * 2 ^ n / 2 ^ 32 % 2 ^ 32)

theorem shlBits_eq (t : ITy) (v : DWord) (n : Nat) : shlBits t v n = shlNat (ITy.bits t) (zbits t v).toNat n := by
  unfold shlBits shlNat
  refine if_congr Iff.rfl rfl (BitVec.eq_of_toNat_eq ?_)
  have hdvd : 2 ^ ITy.bits t ∣ 2 ^ 64 := Nat.pow_dvd_pow 2 (bits_le t)
  rw [toNat_zbits, toNat_zbits, BitVec.toNat_shiftLeft, Nat.shiftLeft_eq, BitVec.toNat_ofNat, Nat.mod_mod_of_dvd _ hdvd, Nat.mod_mul_mod,
    Nat.mod_eq_of_lt (b := 2 ^ 64)]
  exact lt_of_lt_of_le (Nat.mod_lt _ (Nat.two_pow_pos _)) (Nat.le_of_dvd (by decide) hdvd)

theorem shrBits_eq (t : ITy) (v : DWord) (n : Nat) : shrBits t v n = shrNat (ITy.bits t) (zbits t v).toNat n := by
  unfold shrBits shrNat
  refine if_congr Iff.rfl rfl (BitVec.eq_of_toNat_eq ?_)
  rw [BitVec.toNat_ushiftRight, Nat.shiftRight_eq_div_pow, BitVec.toNat_ofNat, Nat.mod_eq_of_lt]
  exact lt_of_le_of_lt (Nat.div_le_self ..) (zbits t v).isLt

/-- The signed value of a number of w bits (R154). -/
theorem toInt_eq_signedNat {w : Nat} (hw : 0 < w) (v : BitVec w) :
    v.toInt = signedNat w v.toNat := by
  have hpow : 2 ^ w = 2 * 2 ^ (w - 1) := by rw [← Nat.pow_succ', Nat.succ_eq_add_one, Nat.sub_add_cancel hw]
  rw [BitVec.toInt_eq_toNat_cond, signedNat]
  refine if_congr (by omega) rfl ?_
  norm_cast

theorem sarBits_eq (t : ITy) (v : DWord) (n : Nat) : sarBits t v n = sarNat (ITy.bits t) (zbits t v).toNat n := by
  have hz : (if ITy.wide t then v.toInt else (loOf v).toInt) = signedNat (ITy.bits t) (zbits t v).toNat := by
    unfold zbits ITy.bits
    cases ITy.wide t with
    | true => exact toInt_eq_signedNat (by decide) v
    | false =>
      simp only [Bool.false_eq_true, if_false, BitVec.toNat_setWidth_of_le (show 32 ≤ 64 by decide)]
      exact toInt_eq_signedNat (by decide) (loOf v)
  rw [sarBits, hz, sarNat]

/-- The parts of a rotated number do not overlap. -/
theorem rotated_or_eq_add {V w r : Nat} (hV : V < 2 ^ w) (hr : r ≤ w) :
    V * 2 ^ r % 2 ^ w ||| V / 2 ^ (w - r) = V * 2 ^ r % 2 ^ w + V / 2 ^ (w - r) := by
  have hpow : 2 ^ w = 2 ^ r * 2 ^ (w - r) := by rw [← Nat.pow_add, Nat.add_sub_cancel' hr]
  have hlow : V / 2 ^ (w - r) < 2 ^ r := Nat.div_lt_of_lt_mul (by rwa [Nat.mul_comm, ← hpow])
  rw [Nat.mul_comm V, hpow, Nat.mul_mod_mul_left, Nat.two_pow_add_eq_or_of_lt hlow]

theorem rotlBits_eq (t : ITy) (v : DWord) (n : Nat) : rotlBits t v n = rotlNat (ITy.bits t) (zbits t v).toNat n := by
  have hdvd : 2 ^ ITy.bits t ∣ 2 ^ 64 := Nat.pow_dvd_pow 2 (bits_le t)
  have hw : 0 < ITy.bits t := by
    unfold ITy.bits
    split <;> decide
  have hrot := rotated_or_eq_add (zbits_lt t v) (Nat.mod_lt n hw).le
  refine BitVec.eq_of_toNat_eq ?_
  rw [rotlNat, BitVec.toNat_ofNat, ← hrot, rotlBits, BitVec.toNat_or, toNat_zbits, BitVec.toNat_shiftLeft, Nat.shiftLeft_eq,
    BitVec.toNat_ushiftRight, Nat.shiftRight_eq_div_pow, Nat.mod_mod_of_dvd _ hdvd]
  refine (Nat.mod_eq_of_lt (Nat.or_lt_two_pow ?_ ?_)).symm
  · exact lt_of_lt_of_le (Nat.mod_lt _ (Nat.two_pow_pos _)) (Nat.le_of_dvd (by decide) hdvd)
  · exact lt_of_le_of_lt (Nat.div_le_self ..) (zbits t v).isLt

/-- A shift or rotate by an arithmetic function of the number shifted and the count. -/
theorem Gives.of_shift {i : Instr} {t : ITy} {lin : TagR → TagR → TagR} {f : DWord → Nat → DWord} {d a b : Opnd}
    (g : Nat → Nat → DWord)
    (hexec : ∀ s, exec i s = issueFixed i s fun x => x.shift t lin f d a b)
    (hf : ∀ v n, f v n = g (zbits t v).toNat n) : Gives i fun x => x.results (ITy.wide t) d fun l =>
      g (if ITy.wide t then (x.opA a true l).toNat else (x.a32 a l).toNat) (x.b32 b l).toNat :=
  (Gives.of_putT (val := fun x l => f (x.opA a (ITy.wide t) l) (x.b32 b l).toNat) hexec).congr fun x => by
    simp only [hf, Iss.toNat_shiftee]

/-! ### The funnel shift -/

/-- The low half of an operand does not depend on whether a pair is read. -/
theorem Iss.loOf_raw (x : Iss) (n : Nat) (o : BitVec 10) (pair : Bool) (l : Nat) : loOf (x.raw n o pair l) = loOf (x.raw n o false l) := by
  unfold Iss.raw
  split
  · exact (loOf_pairOf ..).trans (loOf_pairOf ..).symm
  · dsimp only
    split <;> exact (loOf_pairOf ..).trans (loOf_pairOf ..).symm
  · rfl
  · rfl

theorem Iss.loOf_opA (x : Iss) (a : Opnd) (pair : Bool) (l : Nat) : loOf (x.opA a pair l) = x.a32 a l := x.loOf_raw ..

theorem Iss.loOf_op (x : Iss) (b : Opnd) (pair : Bool) (l : Nat) : loOf (x.op b pair l) = x.b32 b l := x.loOf_raw ..

theorem funnel_eq (right : Bool) (p q r : DWord) : funnel right p q r =
    funnelNat right ((loOf q).toNat * 2 ^ 32 + (loOf p).toNat) (min (loOf r).toNat 32) := by
  have hv := toNat_pairOf (loOf p) (loOf q)
  have hlt : ∀ u : Nat, u % 2 ^ 32 < 2 ^ 64 := fun u => lt_of_lt_of_le (Nat.mod_lt u (by decide)) (by decide)
  refine BitVec.eq_of_toNat_eq ?_
  rw [funnelNat, BitVec.toNat_ofNat]
  unfold funnel
  cases right with
  | true =>
    rw [if_pos rfl, if_pos rfl, BitVec.toNat_setWidth_of_le (by decide), toNat_loOf, BitVec.toNat_ushiftRight,
      Nat.shiftRight_eq_div_pow, hv, Nat.mod_eq_of_lt (hlt _)]
  | false =>
    rw [if_neg Bool.false_ne_true, if_neg Bool.false_ne_true, BitVec.toNat_setWidth_of_le (by decide), toNat_hiOf,
      BitVec.toNat_shiftLeft, Nat.shiftLeft_eq, hv, Nat.mod_eq_of_lt (hlt _)]
    exact Nat.mod_mul_right_div_self _ (2 ^ 32) (2 ^ 32)

end Sys2Proof.Machine

open Sys2Proof Sys2Proof.Machine

/-- Settles O20: each shift is the arithmetic on the number shifted, and the funnel shift that on the 64 bits of both sources. -/
theorem shiftsAndRotates : Obligations.ShiftsAndRotates := by
  unfold Obligations.ShiftsAndRotates
  intro c right t d a b e
  refine ⟨.of_shift (shlNat (ITy.bits t)) (fun _ => rfl) (shlBits_eq t), .of_shift (shrNat (ITy.bits t)) (fun _ => rfl) (shrBits_eq t),
    .of_shift (sarNat (ITy.bits t)) (fun _ => rfl) (sarBits_eq t),
    .of_shift (rotlNat (ITy.bits t)) (fun _ => rfl) (rotlBits_eq t), (Gives.of_putT fun _ => rfl).congr fun x => ?_⟩
  simp only [funnel_eq, funnelNat, Iss.loOf_opA, Iss.loOf_op]

end

section
/-! SUPPORT. Bits that the bit-field instructions read (R160): the first 1 bit from either end, the mirrored bits, and the field that BFI
inserts. -/

namespace Sys2Proof.Machine

/-! ### The first 1 bit -/

/-- A count to the first index that satisfies a test stops at such an index, and passes none. -/
theorem getD_find?_range (n : Nat) (p : Nat → Bool) :
    let k := ((List.range n).find? p).getD n
    (k < n → p k = true) ∧ ∀ j, j < k → j < n → p j = false := by
  cases h : (List.range n).find? p with
  | none => exact ⟨fun hlt => absurd hlt (Nat.lt_irrefl n), fun j _ hj => by simpa using List.find?_range_eq_none.1 h j hj⟩
  | some i =>
    obtain ⟨hp, -, hbefore⟩ := List.find?_range_eq_some.1 h
    exact ⟨fun _ => hp, fun j hj _ => by simpa using hbefore j hj⟩

/-! ### The mirrored bits -/

/-- The set of bits that BREV gathers, by the places where they come to stand. -/
theorem revBits_eq_fold (v : DWord) (n : Nat) : revBits v n =
    ((List.range n).map fun i => n - 1 - i).foldl (fun m l => if v.getLsbD (n - 1 - l) then m ||| BitVec.ofNat 64 (2 ^ l) else m) 0 := by
  rw [List.foldl_map, revBits]
  refine List.foldl_ext _ _ _ fun r i hi => ?_
  rw [show n - 1 - (n - 1 - i) = i by have := List.mem_range.1 hi; omega]

theorem getLsbD_revBits (v : DWord) {n i : Nat} (hn : n ≤ 64) (hi : i < n) : (revBits v n).getLsbD i = v.getLsbD (n - 1 - i) := by
  have hmem : i ∈ (List.range n).map fun i => n - 1 - i :=
    List.mem_map.2 ⟨n - 1 - i, List.mem_range.2 (by omega), by omega⟩
  rw [revBits_eq_fold, lanesFold_getLsbD (fun l => v.getLsbD (n - 1 - l)) _ _ _ (by omega), decide_eq_true hmem]
  simp

/-! ### The inserted field -/

/-- Bit i of the mask of a field. -/
theorem getLsbD_fieldMask {w len pos i : Nat} (hi : i < w) :
    (BitVec.ofNat w ((2 ^ len - 1) * 2 ^ pos)).getLsbD i = decide (pos ≤ i ∧ i < pos + len) := by
  rw [BitVec.getLsbD_ofNat, Nat.testBit_mul_two_pow, Nat.testBit_two_pow_sub_one, decide_eq_true hi, Bool.true_and, ← Bool.decide_and]
  exact decide_eq_decide.2 (by omega)

/-- Bit i of a number moved to the place of the field. -/
theorem getLsbD_moved {w pos i : Nat} (v : Nat) (hi : i < w) (hpos : pos ≤ i) :
    (BitVec.ofNat w (v * 2 ^ pos)).getLsbD i = v.testBit (i - pos) := by
  rw [BitVec.getLsbD_ofNat, Nat.testBit_mul_two_pow, decide_eq_true hi, decide_eq_true hpos]
  rfl

theorem getLsbD_bfiBits (a b e : Word) {i : Nat} (hi : i < 32) : (bfiBits a b e none).getLsbD i =
    if min (b.toNat % 256) 32 ≤ i ∧ i < min (b.toNat % 256) 32 + min (b.toNat / 256 % 256) 32
    then a.getLsbD (i - min (b.toNat % 256) 32) else e.getLsbD i := by
  have hpos : bitsOf b.toNat 0 8 = b.toNat % 256 := bitsOf_zero ..
  have hlen : bitsOf b.toNat 8 8 = b.toNat / 256 % 256 := rfl
  simp only [bfiBits, hpos, hlen, BitVec.getLsbD_or, BitVec.getLsbD_and, BitVec.getLsbD_not, getLsbD_fieldMask hi, hi, decide_true,
    Bool.true_and]
  split
  · next h =>
    rw [decide_eq_true h, getLsbD_moved a.toNat hi h.1, Bool.not_true, Bool.and_false, Bool.false_or, Bool.and_true]
    rfl
  · next h =>
    rw [decide_eq_false h]
    simp

end Sys2Proof.Machine

open Sys2Proof Sys2Proof.Machine

/-- Settles O21: each instruction writes one result, and the bits read are those of the lemmas about its function. -/
theorem bitFields : Obligations.BitFields := by
  unfold Obligations.BitFields
  refine ⟨fun c t sel d a b e => ⟨?bfx, ?bfi, ?popc, ?clz, ?ctz, ?brev, ?bytep⟩, fun v n i a b e => ⟨fun hn hi => getLsbD_revBits v hn hi,
    getD_find?_range n _, getD_find?_range n _, fun hi => getLsbD_bfiBits a b e hi⟩⟩
  case bfx => exact .of_putT fun _ => rfl
  case bfi =>
    refine (Gives.of_put fun _ => rfl).congr fun x => ?_
    simp only [Option.map_map, Function.comp_def]
  case popc => exact .of_bits1 (f := fun v => BitVec.ofNat 64 (popBits v (ITy.bits t))) fun _ => rfl
  case clz => exact .of_bits1 (f := fun v => BitVec.ofNat 64 (clzBits v (ITy.bits t))) fun _ => rfl
  case ctz => exact .of_bits1 (f := fun v => BitVec.ofNat 64 (ctzBits v (ITy.bits t))) fun _ => rfl
  case brev => exact .of_bits1 (f := fun v => revBits v (ITy.bits t)) fun _ => rfl
  case bytep => exact .of_putT (t := .i32) fun _ => rfl

end

section
/-! SUPPORT. Results of the predicate operations (R136, R165, R170): one predicate, or the predicate word. -/

namespace Sys2Proof.Machine

/-- The results of a predicate operation: bit 0 to a predicate, else the word. -/
def Iss.bitResults (x : Iss) (d : Opnd) (val : Nat → BitVec 7) : Results :=
  match x.dstOf d with
  | .prd p => [(.prd p, fun l => truth ((val l).getLsbD 0))]
  | e => [(e, fun l => (val l).setWidth 32)]

theorem Wrote.putBits {x : Iss} (hx : x.Sound) (d : Opnd) (val : Nat → BitVec 7) : Wrote x (x.putBits d val) (x.bitResults d val) 0 := by
  have honly := Wrote.putOnly hx d (fun _ => .g)
  unfold Iss.putBits Iss.bitResults
  revert honly
  cases x.dstOf d with
  | prd p => exact fun honly => honly _
  | _ => exact fun honly => honly _

/-- A predicate operation completes with its bits. -/
theorem Gives.of_putBits {i : Instr} {d : Opnd} {val : Iss → Nat → BitVec 7}
    (hexec : ∀ s, exec i s = issueFixed i s fun x => x.putBits d (val x)) : Gives i fun x => x.bitResults d (val x) :=
  .of_wrote hexec fun _ _ hx => Wrote.putBits (mkIss_sound hx) d _

end Sys2Proof.Machine

open Sys2Proof Sys2Proof.Machine

/-- Settles O24: each operation writes the bits that it forms, and ELECT a predicate. That PNOT takes a negated source is log entry 37. -/
theorem predicateOps : Obligations.PredicateOps := by
  unfold Obligations.PredicateOps
  intro c na nb last d a b
  exact ⟨.of_putBits fun _ => rfl, .of_putBits fun _ => rfl, .of_putBits fun _ => rfl, .of_putBits fun _ => rfl, .of_putBits fun _ => rfl,
    .of_putPred fun _ => rfl⟩

end

section
/-! SUPPORT. Control transfers (R24, R166): the batch divides at its targets, and what the passes, the gates and a yield change of the skein is
out of account. -/

namespace Sys2Proof.Machine

/-! ### What a transfer leaves of its skein -/

/-- The skein beside its batches, and its fibres. -/
def Skein.body (k : Skein) : Skein × List (Option Fibre) := (k.content, k.lanes)

@[simp] theorem Skein.body_setPass (k : Skein) (pc : DWord) (n : Nat) : (k.setPass pc n).body = k.body := rfl

@[simp] theorem Skein.body_openGate (k : Skein) (pc : DWord) (conv : Bool) (mask : Option (BitVec 6)) (tick : Nat) (info : IssueInfo) :
    (k.openGate pc conv mask tick info).body = k.body := by
  rw [Skein.openGate_eta]
  rfl

/-- Arrivals at gates change the gates alone. -/
@[simp] theorem State.body_arrive (s : State) (c q : Nat) (k : Skein) : (s.arrive c q k).body = k.body :=
  foldl_keeps Skein.body _ (fun k pc => by split <;> simp) k.reached k

/-- A yield changes the choice of the batch and the passes alone. -/
@[simp] theorem Skein.body_yieldTo (k : Skein) : k.yieldTo.body = k.body := by
  unfold Skein.yieldTo
  dsimp only
  (repeat' split) <;> rfl

/-- A batch that divides changes the places of its fibres. -/
theorem Iss.body_split (x : Iss) (k : Skein) (tgt : Nat → DWord) : (x.split k tgt).body =
    (k.mapFibres x.batch fun l f => { f with pc := if x.act.getLsbD l then tgt l else x.fall }).body := by
  have hfold : ∀ (k : Skein) (n : Nat) (ps : List DWord),
      (ps.foldl (fun k p => k.setPass p (max n (k.passCount p))) k).body = k.body :=
    fun k n ps => foldl_keeps Skein.body (fun k p => k.setPass p (max n (k.passCount p))) (fun _ _ => rfl) ps k
  refine (hfold _ _ _).trans ?_
  split <;> rfl

/-- A transfer ends the issue with its fibres at their targets and nothing else of the skein changed. -/
theorem Iss.transfer_eq_finish (x : Iss) (k : Skein) (tgt : Nat → DWord) : ∃ y : Skein, x.transfer k tgt = x.finish x.s y false ∧
    y.body = (k.mapFibres x.batch fun l f => { f with pc := if x.act.getLsbD l then tgt l else x.fall }).body := by
  refine ⟨_, rfl, ?_⟩
  split
  · rw [Skein.body_yieldTo, State.body_arrive, Iss.body_split]
  · exact x.body_split k tgt

theorem Skein.content_reselect (k : Skein) : k.reselect.content = k.content := by
  rw [Skein.reselect_eta]
  rfl

/-- What a plain issue leaves of its skein and of both memories. -/
theorem Iss.skein_finish_plain {x : Iss} (h : x.Plain) {y : Skein} (hlot : y.lot = x.k.lot) (hforced : y.forced = x.k.forced) :
    ∃ k', (x.finish x.s y false).skein x.c x.q = some k' ∧ k'.body = y.body ∧
      (x.finish x.s y false).mem = x.s.mem ∧ (x.finish x.s y false).far = x.s.far := by
  obtain ⟨k', wrote, ht, hcontent, -, hlanes⟩ := Iss.finish_plain h y hlot hforced
  rw [ht]
  refine ⟨k'.reselect, by simp [State.skein, State.setSkein], Prod.ext (k'.content_reselect.trans hcontent) ?_, by simp, by simp⟩
  rw [Skein.reselect_eta]
  exact hlanes

/-! ### Transfers and their links -/

/-- An instruction that writes a link and transfers control. -/
theorem Transfers.of_link {i : Instr} {tgt : Iss → Nat → DWord} {ws : Iss → Results} (link : Iss → Skein)
    (hlink : ∀ x : Iss, x.Sound → Wrote x (link x) (ws x) 0)
    (hexec : ∀ s, exec i s = issue i s false (fun x => x.targetHits (tgt x)) fun x => x.transfer (link x) (tgt x)) :
    Transfers i tgt ws := by
  intro s x hx hplain
  have hwrote := hlink x (mkIss_sound hx.sees)
  obtain ⟨y, hy, hbody⟩ := x.transfer_eq_finish (link x) (tgt x)
  have hcontent : y.content = (link x).content := congrArg Prod.fst hbody
  have hlot : y.lot = x.k.lot := (congrArg Skein.lot hcontent).trans (congrArg Skein.lot hwrote.rest :)
  have hforced : y.forced = x.k.forced := (congrArg Skein.forced hcontent).trans (congrArg Skein.forced hwrote.rest :)
  obtain ⟨k', hk', hbody', hmem, hfar⟩ := Iss.skein_finish_plain hplain hlot hforced
  refine ⟨link x, x.transfer (link x) (tgt x), k', hwrote, exec_of_issue (own := fun x => x.targetHits (tgt x)) (hexec s) hx rfl,
    hy ▸ hk', (congrArg Prod.fst hbody').trans hcontent, fun l => ?_, hy ▸ hmem, hy ▸ hfar⟩
  have hlanes : k'.lanes = _ := congrArg Prod.snd (hbody'.trans hbody)
  rw [Skein.fibre, hlanes]
  exact (link x).fibre_mapFibres x.batch _ l

/-- An instruction without a link. -/
theorem Transfers.of_transfer {i : Instr} {tgt : Iss → Nat → DWord}
    (hexec : ∀ s, exec i s = issue i s false (fun x => x.targetHits (tgt x)) fun x => x.transfer x.k (tgt x)) :
    Transfers i tgt fun _ => [] :=
  .of_link Iss.k (fun x _ => Wrote.nothing x) hexec

/-- The link of a call is a 64-bit result. -/
theorem Iss.link_wrote {x : Iss} (hx : x.Sound) (d : Opnd) : Wrote x (x.link d) (x.results true d fun _ => x.pc + 12) 0 :=
  Wrote.put64 hx d _

/-- A label counts instruction words (R139). -/
theorem Iss.label_eq (x : Iss) (off : BitVec 24) : x.label off = x.pc + 4 * off.signExtend 64 := by
  rw [Iss.label, BitVec.shiftLeft_eq_mul_twoPow, BitVec.mul_comm]
  rfl

end Sys2Proof.Machine

open Sys2Proof Sys2Proof.Machine

/-- Settles O25: each instruction transfers to its targets from the skein with its link written, or from the skein as it was. -/
theorem controlTransfers : Obligations.ControlTransfers := by
  unfold Obligations.ControlTransfers
  intro c off d a
  simp only [← Iss.label_eq]
  exact ⟨.of_transfer fun _ => rfl, .of_transfer fun _ => rfl, .of_link (fun x => x.link d) (fun _ hx => Iss.link_wrote hx d) fun _ => rfl,
    .of_link (fun x => x.link d) (fun _ hx => Iss.link_wrote hx d) fun _ => rfl, .of_transfer fun _ => rfl⟩

end

section
/-! SUPPORT. TLWT, TLRD, SPAWN, QSRCH and QSTAT (R172, R218, R230, R231): side-marks and stamps of lots move no operand, and a global access
that no lot forwards or checks is pending with its lane addresses (R55). -/

namespace Sys2Proof.Machine

/-! ### Marks of lots and launches -/

/-- A lot beside its side-mark and its stamps (R121, R405). -/
def Lot.unmarked (l : Lot) : Lot := { l with side := false, stamps := [] }

/-- A launch beside the mark that it cannot be replayed. -/
def Launch.unmarked (l : Launch) : Launch := { l with noReplay := false }

/-- From one machine to another nothing has changed but such marks and stamps. -/
structure State.Marked (y s : State) : Prop where
  lots : ∀ n, (y.lot n).unmarked = (s.lot n).unmarked
  launches : ∀ n, (y.launch n).unmarked = (s.launch n).unmarked
  rest : { y with lots := s.lots, launches := s.launches } = s

theorem State.Marked.refl (s : State) : s.Marked s := ⟨fun _ => rfl, fun _ => rfl, rfl⟩

theorem State.Marked.trans {s y z : State} (h : z.Marked y) (h' : y.Marked s) : z.Marked s where
  lots n := (h.lots n).trans (h'.lots n)
  launches n := (h.launches n).trans (h'.launches n)
  rest := (congrArg (fun u : State => { u with lots := s.lots, launches := s.launches }) h.rest).trans h'.rest

theorem State.updLot_marked (s : State) (n : Nat) {f : Lot → Lot} (hf : ∀ l, (f l).unmarked = l.unmarked) : (s.updLot n f).Marked s where
  lots m := by
    unfold State.updLot
    cases h : amGet s.lots n with
    | none => rfl
    | some l =>
      by_cases hm : m = n
      · subst hm
        simpa [State.lot, State.setLot, h] using hf l
      · simp [State.lot, State.setLot, amGet_amPut_other _ _ hm]
  launches m := by simp [State.launch]
  rest := by
    rw [State.updLot_eta]

theorem State.updLaunch_marked (s : State) (n : Nat) {f : Launch → Launch} (hf : ∀ l, (f l).unmarked = l.unmarked) :
    (s.updLaunch n f).Marked s where
  lots m := by simp [State.lot]
  launches m := by
    unfold State.updLaunch
    cases h : amGet s.launches n with
    | none => rfl
    | some l =>
      by_cases hm : m = n
      · subst hm
        simpa [State.launch, State.setLaunch, h] using hf l
      · simp [State.launch, State.setLaunch, amGet_amPut_other _ _ hm]
  rest := by
    rw [State.updLaunch_eta]

theorem State.markSide_marked (s : State) (lots : List Nat) (replay : Bool) : (s.markSide lots replay).Marked s := by
  refine List.foldlRecOn (motive := fun y => State.Marked y s) _ _ (.refl s) fun y hy n _ => ?_
  have hside := (y.updLot_marked n fun _ => rfl : (y.updLot n fun l => { l with side := true }).Marked y).trans hy
  dsimp only
  split
  · exact (State.updLaunch_marked _ _ (f := fun l => { l with noReplay := true }) fun _ => rfl).trans hside
  · exact hside

theorem State.stampLots_marked (s : State) (ns : List Nat) {f : Lot → Lot} (hf : ∀ l, (f l).unmarked = l.unmarked) :
    (s.stampLots ns f).Marked s := by
  refine List.foldlRecOn (motive := fun y => State.Marked y s) _ _ (.refl s) fun y hy n _ => ?_
  unfold State.stampLot
  split
  · exact (y.updLot_marked n hf).trans hy
  · exact hy

/-! ### What marks leave of an issue -/

/-- Marks change no byte and no skein. -/
theorem State.Marked.keeps {y s : State} (h : y.Marked s) : y.Keeps s :=
  ⟨(congrArg State.mem h.rest :), (congrArg State.far h.rest :), (congrArg State.skeins h.rest :)⟩

theorem State.Marked.checked {y s : State} (h : y.Marked s) (n : Nat) : y.checked n = s.checked n := by
  have hlaunch : (y.lot n).launch = (s.lot n).launch := (congrArg Lot.launch (h.lots n) :)
  rw [State.checked, hlaunch]
  exact (congrArg Launch.isChecked (h.launches (s.lot n).launch) :)

/-- Marks leave what a special register reads (R46). -/
theorem State.Marked.special {y s : State} (h : y.Marked s) (c q : Nat) (k : Skein) (i l : Nat) :
    special y c q k i l = special s c q k i l := by
  have hrole : ∀ n, (y.lot n).role = (s.lot n).role := fun n => (congrArg Lot.role (h.lots n) :)
  have hcore : ∀ n, (y.lot n).core = (s.lot n).core := fun n => (congrArg Lot.core (h.lots n) :)
  have hpartner : ∀ n, (y.lot n).partner = (s.lot n).partner := fun n => (congrArg Lot.partner (h.lots n) :)
  have hown : ∀ n, y.ownCore (y.lot n) = s.ownCore (s.lot n) := fun n => by simp only [State.ownCore, hrole, hcore, hpartner]
  have hidx : ∀ n, (y.lot n).idx = (s.lot n).idx := fun n => (congrArg Lot.idx (h.lots n) :)
  have hvrank : ∀ n, (y.lot n).vrank = (s.lot n).vrank := fun n => (congrArg Lot.vrank (h.lots n) :)
  have hvat : ∀ n, (y.lot n).vat = (s.lot n).vat := fun n => (congrArg Lot.vat (h.lots n) :)
  have htick : ∀ n, (y.lot n).tickFor k = (s.lot n).tickFor k := fun n => (congrArg (fun l => Lot.tickFor l k) (h.lots n) :)
  have hnow : y.tick = s.tick := (congrArg State.tick h.rest :)
  have hpkg : y.pkg = s.pkg := (congrArg State.pkg h.rest :)
  simp only [Machine.special, hrole, hown, hidx, hvrank, hvat, htick, hnow, hpkg]

/-- Marks leave the addresses of an access. -/
theorem State.Marked.spaceAddr {x : Iss} {y : State} (h : y.Marked x.s) (sp : Space) (a : Opnd) (off : DWord) :
    ({ x with s := y } : Iss).spaceAddr sp a off = x.spaceAddr sp a off := by
  funext l
  simp only [Iss.spaceAddr, Iss.address, Iss.opA, Iss.raw, h.special]
  rfl

theorem State.Marked.ordinary {x : Iss} {y : State} (h : y.Marked x.s) (hord : x.Ordinary) : ({ x with s := y } : Iss).Ordinary where
  single := (congrArg Lot.role (h.lots x.k.lot) :).trans hord.single
  unchecked := (h.checked x.k.lot).trans hord.unchecked

/-! ### Pending global accesses -/

theorem State.Keeps.trans {s y z : State} (h : z.Keeps y) (h' : y.Keeps s) : z.Keeps s :=
  ⟨h.mem.trans h'.mem, h.far.trans h'.far, h.skeins.trans h'.skeins⟩

theorem State.prefHit_keeps (s : State) (c part line : Nat) : (s.prefHit c part line).Keeps s := by
  unfold State.prefHit
  split
  · exact ⟨rfl, rfl, rfl⟩
  · dsimp only
    (repeat' split) <;> exact ⟨rfl, rfl, rfl⟩
  · exact .refl s

/-- The counts of an access's requests change no byte and no skein. -/
theorem State.countRequests_keeps (s : State) (c q part : Nat) (pc : DWord) (order : Nat) (lines : List Nat) :
    (s.countRequests c q part pc order lines).Keeps s := by
  unfold State.countRequests
  dsimp only
  split
  · exact ⟨rfl, rfl, rfl⟩
  · refine List.foldlRecOn (motive := fun y => State.Keeps y s) _ _ ⟨rfl, rfl, rfl⟩ fun y hy ln _ => ?_
    split
    · exact (y.prefHit_keeps ..).trans hy
    · exact hy

/-- A global access of an ordinary lot that no race is tested for is pending with its lane addresses. -/
theorem Iss.startAccess_global {x : Iss} {i : Instr} {acc : Access} (hord : x.Ordinary) (hacc : accessOf i = some acc) (hsp : acc.sp = .g)
    (hfmt : isFmtLoad i = false) (hrace : raceTested i = false) (addr b c : Nat → DWord) (dsts : List Dst) :
    ∃ (p : Pending) (y : State), p.Asks x i addr dsts ∧ y.Keeps x.s ∧
      x.startAccess i addr b c dsts = ({ x with s := y } : Iss).skeinOnly (x.k.addPend p) := by
  refine ⟨{ x.pending i addr b c dsts with hold := false }, x.requestCount i addr, ⟨rfl, rfl, rfl, rfl, rfl, ?_, fun l hl => ?_⟩,
    State.countRequests_keeps .., ?_⟩
  · simp [Iss.pending, Function.comp_def]
  · simp [Iss.pending, hl]
  · have hcounted : x.counted i addr = { x with s := x.requestCount i addr } := by
      simp only [Iss.counted, hacc, hsp, Iss.not_trailing hord.single]
      rfl
    have hhold : ∀ write pieces, x.holds i write pieces = false := fun _ _ => by simp [Iss.holds, hfmt, hrace]
    have hchecked : x.onChecked i addr = false := by simp [Iss.onChecked, hord.unchecked]
    simp only [Iss.startAccess, Iss.orForward, Iss.not_trailing hord.single, hhold, hcounted, hchecked, hacc, hsp]
    rfl

/-- An instruction that issues as such an access, after marks of its lots, completes as one. -/
theorem CompletesAccess.of_marked {i : Instr} {s : State} {x : Iss} {ll : Bool} {own : Iss → List Hit} {f : Iss → State} {acc : Access}
    {addr : Nat → DWord} {dsts : List Dst} (hexec : exec i s = issue i s ll own f) (hx : Issues i s x ll (own x)) (hord : x.Ordinary)
    (hacc : accessOf i = some acc) (hsp : acc.sp = .g) (hfmt : isFmtLoad i = false) (hrace : raceTested i = false)
    {y : State} (hy : y.Marked x.s) (b c : Nat → DWord) (heq : f x = ({ x with s := y } : Iss).startAccess i addr b c dsts) :
    CompletesAccess i s x addr dsts := by
  obtain ⟨p, z, ⟨hi, hseq, hleft, hcauses, hret, hdsts, haddrs⟩, hz, hstart⟩ :=
    Iss.startAccess_global (hy.ordinary hord) hacc hsp hfmt hrace addr b c dsts
  exact ⟨p, z, ⟨hi, hseq, hleft, hcauses, hret, hdsts, haddrs⟩, hz.trans hy.keeps, exec_of_issue hexec hx (heq.trans hstart)⟩

/-- Some lane is active. -/
theorem laneList_ne_nil {m : Lanes} (h : m ≠ 0) : laneList m ≠ [] := fun hnil =>
  h (BitVec.eq_of_getLsbD_eq fun l _ => by rw [lowest_none (List.head?_eq_none_iff.2 hnil) l]; simp)

end Sys2Proof.Machine

open Sys2Proof Sys2Proof.Machine

/-- Settles O44: TLWT waits where some lane is active; each of the others starts its access, SPAWN and QSRCH behind marks of their lots. That no
release waits with no active lane is log entry 51. -/
theorem timelinesAndQueries : Obligations.TimelinesAndQueries := by
  unfold Obligations.TimelinesAndQueries
  intro c pod off d a b s x hord addr
  refine ⟨fun hx hact => ?tlwt, fun hx => ?tlrd, fun hx hready => ?spawn, fun hx => ?qsrch, fun hx => ?qstat⟩
  case tlwt =>
    refine exec_of_issue (own := fun x => x.globalHits 4 (x.spaceAddr .g a (sx24 off))) rfl hx ?_
    dsimp only
    rw [if_neg (by simpa using laneList_ne_nil hact)]
    rfl
  case tlrd =>
    exact .of_marked (own := fun x => x.globalHits 4 (x.spaceAddr .g a (sx24 off))) rfl hx hord rfl rfl rfl rfl (.refl x.s) zeroLane zeroLane rfl
  case spawn =>
    have hstamp := State.stampLots_marked x.s (x.k.lots x.act) (f := fun l => l.releaseStamp .pkg) fun _ => rfl
    refine .of_marked (own := fun x => x.globalHits 7 (x.spaceAddr .g a (sx24 off))) rfl hx hord rfl rfl rfl rfl
      ((State.markSide_marked _ (x.k.lots x.act) true).trans hstamp)
      (({ x with s := x.s.stampLots (x.k.lots x.act) fun l => l.releaseStamp .pkg } : Iss).op b false) zeroLane ?_
    dsimp only [Iss.released]
    rw [Iss.afterWrites_ready hready, hstamp.spaceAddr]
    rfl
  case qsrch =>
    exact .of_marked (own := fun x => x.globalHits 7 (x.spaceAddr .g a (sx24 off))) rfl hx hord rfl rfl rfl rfl
      (State.markSide_marked x.s (x.k.lots x.act) true) zeroLane zeroLane rfl
  case qstat =>
    obtain ⟨p, hp, hstart⟩ := Iss.startAccess_pending (i := .qstat c off d a) rfl rfl hord.single addr zeroLane zeroLane [x.dstOf d]
    exact ⟨p, x.s, hp, .refl x.s, exec_of_issue (own := fun _ => []) rfl hx hstart⟩

end

section
/-! SUPPORT. TRAP, BRK and TRET (R175, R351, R355): the cause of an instruction is the lowest that it meets, its own among them. -/

namespace Sys2Proof.Machine

theorem lowestHit_eq_none {hs : List Hit} (h : lowestHit hs = none) : hs = [] := by
  cases hs with
  | nil => rfl
  | cons g gs =>
    unfold lowestHit at h
    split at h <;> exact absurd h (Option.some_ne_none _)

/-- An instruction that meets no other cause has its own. -/
theorem Iss.cause_own {x : Iss} (h : x.cause false [] = none) (own : List Hit) : x.cause false own = lowestHit own := by
  have hnil := lowestHit_eq_none h
  simp only [Bool.false_and, Bool.false_eq_true, if_false, List.append_nil, List.append_eq_nil_iff] at hnil
  obtain ⟨⟨hencoding, hecc⟩, hstep⟩ := hnil
  simp [Iss.cause, hencoding, hecc, hstep]

/-- A trapping instruction raises its cause for its active lanes, and with none of them only ends its segment. -/
theorem trap_next {i : Instr} {code : Nat} {s : State} {x : Iss}
    (hexec : exec i s = issue i s false (fun x => x.trapHits code) fun x => x.finish x.s (x.advance x.k) true)
    (hforward : forwarded i = false) (hsees : mkIss i s = some x) (hfree : x.mustCompare i = false) (hclear : x.cause false [] = none) :
    (x.act ≠ 0 → exec i s = .next (x.raise ⟨code, 255, x.act, 0⟩)) ∧
    (x.act = 0 → exec i s = .next (x.after i (x.finish x.s (x.advance x.k) true))) := by
  refine ⟨fun hact => hexec.trans (issue_raise (own := fun x => x.trapHits code) hsees hfree ?_),
    fun hact => exec_of_issue (own := fun x => x.trapHits code) hexec ⟨hsees, hfree, ?_, ?_⟩ rfl⟩
  · rw [Iss.cause_own hclear, Iss.trapHits, if_neg hact]
    rfl
  · rw [Iss.noForward, hforward, Bool.and_false, Bool.false_and]
  · rw [Iss.cause_own hclear, Iss.trapHits, if_pos hact]
    rfl

end Sys2Proof.Machine

open Sys2Proof Sys2Proof.Machine

/-- Settles O48: no other cause is met, so the cause is the instruction's own where some lane is active; TRET waits with its targets. -/
theorem trapInstructions : Obligations.TrapInstructions := by
  unfold Obligations.TrapInstructions
  intro c n a s x raises
  exact ⟨trap_next rfl rfl, trap_next rfl rfl, fun hx => exec_of_issue (own := fun x => x.tretHits a) rfl hx rfl⟩

end

section
/-! SUPPORT. Events of the hardware queues (R172, R217, R286 to R288, R296, R366): fields of hub registers, and the pushes, acceptances and starts of
records. -/

namespace Sys2Proof.Machine

/-! ### Fields of hub registers -/

/-- A field reads what was put into it, modulo its size. -/
theorem fieldOf_setField (x : DWord) {lo n : Nat} (h : lo + n ≤ 64) (v : Nat) : fieldOf (setField x lo n v) lo n = v % 2 ^ n := by
  rw [fieldOf, bitsOf_eq_extractLsb', ← BitVec.toNat_ofNat]
  refine congrArg BitVec.toNat (BitVec.eq_of_getLsbD_eq fun i hi => ?_)
  have hin : lo + i < 64 := by omega
  rw [BitVec.getLsbD_extractLsb', setField, BitVec.getLsbD_or, BitVec.getLsbD_and, BitVec.getLsbD_and, BitVec.getLsbD_not,
    getLsbD_fieldMask hin, getLsbD_moved v hin (Nat.le_add_right lo i), decide_eq_true (show lo ≤ lo + i ∧ lo + i < lo + n by omega),
    BitVec.getLsbD_ofNat]
  simp [hi]

theorem State.rd_wr (s : State) (off : Nat) (v : DWord) : (s.wr off v).rd off = v := by
  simp [State.rd, State.wr]

/-- A field of a hub register reads what was put into it, modulo its size. -/
theorem State.fld_setFld (s : State) (off : Nat) {lo n : Nat} (h : lo + n ≤ 64) (v : Nat) : (s.setFld off lo n v).fld off lo n = v % 2 ^ n := by
  rw [State.fld, State.setFld, State.rd_wr, fieldOf_setField _ h]

/-! ### Pushes and acceptances -/

theorem State.queueX_of_get {s : State} {q : Nat} {x : QueueX} (h : amGet s.queues q = some x) : s.queueX q = x := by
  rw [State.queueX, h, Option.getD_some]

/-- A push succeeds where the queue is on, belongs to the partition, takes records of the device, and is not full (R172). -/
theorem State.push_ok (s : State) (e : Spawn) (issued : Nat) :
    (s.push e issued).2 = true ↔ s.qOn e.q = true ∧ s.qPart e.q = e.part ∧ s.qDev e.q = true ∧ s.qFull e.q = false := by
  have hcond : (s.qOn e.q && s.qPart e.q == e.part && s.qDev e.q && !s.qFull e.q) = true ↔
      s.qOn e.q = true ∧ s.qPart e.q = e.part ∧ s.qDev e.q = true ∧ s.qFull e.q = false := by
    simp [and_assoc]
  rw [← hcond, State.push]
  split
  · next h => exact iff_of_true rfl h
  · next h => exact iff_of_false Bool.false_ne_true h

theorem State.nextRecord_lt {s : State} {q n : Nat} {r : BitVec 1024} (h : s.nextRecord q = some (n, r)) : q < 1024 := by
  unfold State.nextRecord at h
  dsimp only at h
  split at h
  · next hc =>
    simp only [Bool.and_eq_true, decide_eq_true_eq] at hc
    obtain ⟨⟨⟨hlt, -⟩, -⟩, -⟩ := hc
    exact hlt
  · exact absurd h.symm (Option.some_ne_none _)

/-! ### Starts -/

/-- The regions of a launch are marked beside every queue. -/
theorem State.markRegions_eta (s : State) (id : Nat) : s.markRegions id = { s with launches := (s.markRegions id).launches } := by
  unfold State.markRegions
  dsimp only
  split
  · rfl
  · rw [State.updLaunch_eta]

theorem State.headRecord_markRegions (s : State) (id q : Nat) : (s.markRegions id).headRecord q = s.headRecord q := by
  rw [State.markRegions_eta]
  rfl

/-- The completion of the operation that a record's acceptance began on its timeline block, if it began one (R217). -/
def State.endRecord (s : State) (q n : Nat) : State :=
  match (amGet (s.queueX q).nums n).bind RecNum.tl with
  | some (pa, k) => s.tlComplete pa k 0
  | none => s

/-- A ready head whose record has causes fails with all of them, where no launch's regions are to be marked (R366). -/
theorem State.launchStart_fails {s : State} {q n c : Nat} {r : BitVec 1024} {cs : List Nat} (hmark : s.unmarked q = none)
    (hhead : s.headRecord q = some (n, r)) (hready : (s.queueX q).ready = true) (hnow : s.headReady q = true)
    (hcs : s.recordCauses (s.qPart q) q n r ((s.getVirtual hubUnit (s.qPart q) (BitVec.ofNat 64 (recF r 768 64)) 64).map fun bs =>
      (BitVec.ofNat 512 (leNat bs) : BitVec 512)) = c :: cs) :
    execLaunchStart q s = .next (((c :: cs).foldl (fun t c => t.failEntry (s.qPart q) (s.qSlot q n) 0xFFFFFFFF c 0 0 0 0 0 0)
      (s.endRecord q n)).headPast q n) := by
  simp only [execLaunchStart, hmark, hhead, hready, hnow, Bool.and_true, hcs, State.endRecord]
  cases amGet (s.queueX q).nums n <;> rfl

end Sys2Proof.Machine

open Sys2Proof Sys2Proof.Machine

/-- Settles O56: each event takes the branch that its conditions decide. That BASE is physical is log entry 28, that a block which cannot be
read or written makes its record bad log entry 27, and that a start waits for its region list log entry 104. -/
theorem queueEvents : Obligations.QueueEvents := by
  unfold Obligations.QueueEvents
  refine ⟨fun s q v hq hdev => ⟨?tail, ?tailRead⟩, fun s e k p hfind holder hk hp => ⟨s.push_ok e _, fun k' hk' => ?push⟩,
    fun s q n r x hnext => ⟨fun hzero => ?plain, fun hline hheld hx => ⟨fun ⟨hwrite, hread⟩ => ?accept, fun hrefused => ?refuse⟩⟩,
    fun s q n r hnext => State.nextRecord_lt hnext, fun s q x hx => ⟨?head, fun t ht hage => ?age⟩,
    fun s q id hmark hhead => ?mark, fun s q n r hmark hhead hready hnow => ⟨fun hnone => ?start, fun cs hcs hne => ?fail⟩⟩
  case tail =>
    show execQueueTailWrite q v s = _
    rw [execQueueTailWrite, hdev, decide_eq_false (Nat.not_le.2 hq)]
    rfl
  case tailRead =>
    rw [State.qTail, State.fld_setFld _ _ (by decide)]
    exact Nat.mod_eq_of_lt v.isLt
  case push =>
    have hfirst : (s.spawns.any fun f => f.id < e.id && f.core == e.core && f.slot == e.slot && f.seq == e.seq) = false := by
      refine List.any_eq_false.2 fun f hf hall => ?_
      simp only [Bool.and_eq_true, decide_eq_true_eq, beq_iff_eq] at hall
      obtain ⟨⟨⟨hid, hcore⟩, hslot⟩, hseq⟩ := hall
      exact holder f hf hid hcore hslot hseq
    show execSpawnPush e.id s = _
    simp only [execSpawnPush, hfind, hfirst, hp, hk', Bool.false_eq_true, if_false]
  case plain =>
    show execRecordAccept q s = _
    simp only [execRecordAccept, hnext, hzero, beq_self_eq_true, if_true]
  case accept =>
    show execRecordAccept q s = _
    simp only [execRecordAccept, hnext, beq_eq_false_iff_ne.2 hline, hheld, hx, hwrite, hread, Option.isSome_none, Bool.or_false,
      Bool.false_eq_true, if_false]
  case refuse =>
    have hcause : ((s.writeCause (s.qPart q) x.pa 16).isSome || (s.readCause (s.qPart q) x.pa 16).isSome) = true := by
      rw [Bool.or_eq_true, Option.isSome_iff_ne_none, Option.isSome_iff_ne_none]
      exact not_and_or.1 hrefused
    show execRecordAccept q s = _
    simp only [execRecordAccept, hnext, beq_eq_false_iff_ne.2 hline, hheld, hx, hcause, Bool.false_eq_true, if_false, if_true]
  case head =>
    show execHeadReevaluate q s = _
    simp only [execHeadReevaluate, hx, State.reevaluate, State.queueX_of_get hx]
  case age =>
    show execAgeingStep q s = _
    simp only [execAgeingStep, hx, State.aged, State.queueX_of_get hx, ht, if_neg hage]
  case mark =>
    show execLaunchStart q s = _
    simp only [execLaunchStart, hmark, State.headRecord_markRegions, hhead]
  case start =>
    show execLaunchStart q s = _
    simp only [execLaunchStart, hmark, hhead, hready, hnow, Bool.and_true, hnone]
  case fail =>
    cases cs with
    | nil => exact absurd rfl hne
    | cons c cs => exact State.launchStart_fails hmark hhead hready hnow hcs

end

section
/-! SUPPORT. Floating-point arithmetic, compares and dot products (R48, R177 to R183): a result with its flags in the active lanes, of an
operand or a wide immediate, and the truth of a compare. -/

namespace Sys2Proof.Machine

/-! ### Results with flags -/

/-- An instruction of one floating-point result, with the flags of its active lanes (R48). -/
theorem Gives.of_putF {i : Instr} {wide : Bool} {d : Opnd} {tag : Iss → Nat → TagR} {f : Iss → Nat → DWord × FFlags}
    (hexec : ∀ s, exec i s = issueFixed i s fun x => x.putF wide d (tag x) (f x)) :
    Gives i (fun x => x.results wide d fun l => (f x l).1) fun x => orFlags (x.lanes (f x)) :=
  .of_wrote hexec fun _ _ hx => Wrote.putF (mkIss_sound hx) wide d _ _

/-- The element-wise results of two operands. -/
def Iss.pairLane (x : Iss) (t : FTy) (a b : Opnd) (g : Nat → Nat → Nat × FFlags) (l : Nat) : DWord × FFlags :=
  fpPack t fun i => g (fpElem t a (x.opA a (FTy.wide t) l) i) (fpElem t b (x.op b (FTy.wide t) l) i)

/-- The element-wise results of one operand. -/
def Iss.elemLane (x : Iss) (t : FTy) (a : Opnd) (g : Nat → Nat × FFlags) (l : Nat) : DWord × FFlags :=
  fpPack t fun i => g (fpElem t a (x.opA a (FTy.wide t) l) i)

/-- An instruction whose second source is an operand or a wide immediate (R177). -/
theorem Gives.of_fpS {i : FSrc → Instr} {t : FTy} {d a : Opnd} (g : Nat → Nat → Nat × FFlags)
    (hexec : ∀ b s, exec (i b) s = issueFixed (i b) s fun x => x.fpS t d a b g) (b : Opnd) (v : BitVec 24) :
    Gives (i (.opnd b)) (fun x => x.results (FTy.wide t) d fun l => (x.pairLane t a b g l).1)
        (fun x => orFlags (x.lanes (x.pairLane t a b g))) ∧
      Gives (i (.wide v)) (fun x => x.results (FTy.wide t) d fun l => (x.elemLane t a (fun p => g p (wideImm t v)) l).1)
        (fun x => orFlags (x.lanes (x.elemLane t a fun p => g p (wideImm t v)))) :=
  ⟨.of_putF (hexec (.opnd b)), .of_putF (hexec (.wide v))⟩

/-- Lanes that raise no flag raise none together. -/
theorem Iss.orFlags_lanes_zero (x : Iss) (f : Nat → DWord) : orFlags (x.lanes fun l => (f l, 0)) = 0 := by
  rw [orFlags, Iss.lanes, List.foldl_map]
  exact List.foldl_fixed' (fun l => by split <;> exact BitVec.or_self) _

/-- An instruction of one result that raises no flag. -/
theorem Gives.of_putF_unflagged {i : Instr} {wide : Bool} {d : Opnd} {tag : Iss → Nat → TagR} {f : Iss → Nat → DWord}
    (hexec : ∀ s, exec i s = issueFixed i s fun x => x.putF wide d (tag x) fun l => (f x l, 0)) :
    Gives i fun x => x.results wide d (f x) := by
  have hflags := Gives.of_putF hexec
  simpa only [Iss.orFlags_lanes_zero] using hflags

/-! ### Compares (R180) -/

/-- An active lane lies below the width of its skein. -/
theorem Iss.Sound.lt_width {x : Iss} (hx : x.Sound) {l : Nat} (h : x.act.getLsbD l = true) : l < x.k.width := by
  have hlive := hx.act l h
  simp only [Skein.live_getLsbD, Bool.and_eq_true, decide_eq_true_eq] at hlive
  exact hlive.1.2

/-- An active lane's result among those of the active lanes. -/
theorem Iss.getD_lanes {x : Iss} (hx : x.Sound) (f : Nat → DWord × FFlags) {l : Nat} (h : x.act.getLsbD l = true) :
    ((x.lanes f)[l]?).getD (0, 0) = f l := by
  simp [Iss.lanes, hx.lt_width h, h]

/-- The results of the active lanes depend on the active lanes alone. -/
theorem Iss.lanes_agree {x : Iss} {f g : Nat → DWord × FFlags} (h : ∀ l, x.act.getLsbD l = true → f l = g l) : x.lanes f = x.lanes g := by
  refine List.map_congr_left fun l _ => ?_
  split
  · next ha => exact h l ha
  · rfl

/-- Results that are parts of one value per lane. -/
def Results.ofParts {α : Type} (ps : List (Dst × (α → Word))) (f : Nat → α) : Results := ps.map fun e => (e.1, fun l => e.2 (f l))

/-- Parts of values that agree in the active lanes agree there. -/
theorem Results.ofParts_agree {α : Type} {x : Iss} (ps : List (Dst × (α → Word))) {f g : Nat → α}
    (h : ∀ l, x.act.getLsbD l = true → f l = g l) : (ofParts ps f).map x.onActive = (ofParts ps g).map x.onActive := by
  simp only [ofParts, List.map_map]
  refine List.map_congr_left fun e _ => Prod.ext rfl (funext fun l => ?_)
  simp only [Function.comp, Iss.onActive]
  split
  · next ha => rw [h l ha]
  · rfl

/-- The predicates of a predicate destination, with what each takes of the truth value (R136). -/
def predParts (d : Opnd) : List (Dst × (Bool → Word)) :=
  match d with
  | .prd p => [(.prd p.toNat, truth)]
  | .ppair p q => [(.prd p.toNat, truth), (.prd q.toNat, fun v => truth (!v))]
  | _ => []

theorem predResults_eq (d : Opnd) (val : Nat → Bool) : predResults d val = .ofParts (predParts d) val := by
  cases d <;> rfl

/-- What a compare gives a lane: the truth of its condition as 1 or 0, and its flags. -/
def Iss.cmpLane (x : Iss) (cc : FCond) (t : FTy) (a b : Opnd) (l : Nat) : DWord × FFlags :=
  let p := fpCmp cc (decodeF (FTy.fp t) (fpElem t a (x.opA a (FTy.wide t) l) 0)) (decodeF (FTy.fp t) (fpElem t b (x.op b (FTy.wide t) l) 0))
  (if p.1 then 1 else 0, p.2)

theorem Iss.fpCompare_eq (x : Iss) (cc : FCond) (t : FTy) (a b : Opnd) : x.fpCompare cc t a b = x.lanes (x.cmpLane cc t a b) := rfl

/-- FCMP writes its predicates and joins the flags of its active lanes. -/
theorem Wrote.fpCmpPred {x : Iss} (hx : x.Sound) (cc : FCond) (t : FTy) (d a b : Opnd) :
    Wrote x (x.fpCmpPred cc t d a b) (predResults d fun l => (x.cmpLane cc t a b l).1 != 0) (orFlags (x.lanes (x.cmpLane cc t a b))) := by
  have hagree : ∀ l, x.act.getLsbD l = true →
      (laneVal (x.lanes (x.cmpLane cc t a b)) l != 0) = ((x.cmpLane cc t a b l).1 != 0) := fun l hl => by
    rw [Iss.laneVal_lanes _ (hx.lt_width hl) hl]
  refine ((Wrote.putPred hx d _).of_agree ?_).addFlags
  rw [predResults_eq, predResults_eq]
  exact Results.ofParts_agree (predParts d) hagree

/-- FSET writes the truth value and joins the flags of its active lanes. -/
theorem Wrote.fpSet {x : Iss} (hx : x.Sound) (cc : FCond) (t : FTy) (d a b : Opnd) (tag : Nat → TagR) :
    Wrote x (x.putF false d tag fun l => ((x.fpCompare cc t a b)[l]?).getD (0, 0)) (x.results false d fun l => (x.cmpLane cc t a b l).1)
      (orFlags (x.lanes (x.cmpLane cc t a b))) := by
  have hagree : ∀ l, x.act.getLsbD l = true → ((x.fpCompare cc t a b)[l]?).getD (0, 0) = x.cmpLane cc t a b l :=
    fun _ hl => Iss.getD_lanes hx _ hl
  rw [← Iss.lanes_agree hagree]
  exact (Wrote.putF hx false d tag _).of_agree (Iss.results_agree false d fun l hl => congrArg Prod.fst (hagree l hl))

/-! ### Dot products (R183) -/

/-- A byte of an operand as a number, unsigned or signed. -/
def byteVal (u : Bool) (o : Opnd) (v : DWord) (i : Nat) : Int :=
  if u then ((byteOf o v i).toNat : Int) else ((byteOf o v i).extractLsb' 0 8 : BitVec 8).toInt

/-- The exact sum of VDOT4: the addend and the four products of bytes. -/
def Iss.dotSum (x : Iss) (ua ub : Bool) (a b e : Opnd) (l : Nat) : Int :=
  (x.b32 e l).toInt +
    byteVal ua a (x.opA a false l) 0 * byteVal ub b (x.op b false l) 0 + byteVal ua a (x.opA a false l) 1 * byteVal ub b (x.op b false l) 1 +
    byteVal ua a (x.opA a false l) 2 * byteVal ub b (x.op b false l) 2 + byteVal ua a (x.opA a false l) 3 * byteVal ub b (x.op b false l) 3

/-- VDOT4 writes its sum, fitted once. -/
theorem Gives.vdot4 (c : Ctl) (ua ub sat : Bool) (d a b e : Opnd) :
    Gives (.vdot4 c ua ub sat d a b e) fun x => x.results false d fun l => fit .i32 sat (x.dotSum ua ub a b e l) :=
  .of_put fun _ => rfl

end Sys2Proof.Machine

open Sys2Proof Sys2Proof.Machine

/-- Settles O28: each instruction writes one result per lane with its flags, through `Iss.fpS` where its second source may be a wide immediate. -/
theorem fpArithmetic : Obligations.FpArithmetic := by
  unfold Obligations.FpArithmetic
  intro c t r d a b e v
  refine ⟨?fadd, ?fsub, ?fmul, ?fmin, ?fmax, ?fminm, ?fmaxm, ?ffma⟩
  case fadd => exact Gives.of_fpS (i := .fadd c t r d a) (onVals t (fpAdd (FTy.fp t) (effMode c r))) (fun _ _ => rfl) b v
  case fsub => exact Gives.of_fpS (i := .fsub c t r d a) (onVals t fun p q => fpAdd (FTy.fp t) (effMode c r) p q.negate) (fun _ _ => rfl) b v
  case fmul => exact Gives.of_fpS (i := .fmul c t r d a) (onVals t (fpMul (FTy.fp t) (effMode c r))) (fun _ _ => rfl) b v
  case fmin => exact Gives.of_fpS (i := .fmin c t d a) (fpMinMax (FTy.fp t) false false) (fun _ _ => rfl) b v
  case fmax => exact Gives.of_fpS (i := .fmax c t d a) (fpMinMax (FTy.fp t) true false) (fun _ _ => rfl) b v
  case fminm => exact Gives.of_fpS (i := .fminm c t d a) (fpMinMax (FTy.fp t) false true) (fun _ _ => rfl) b v
  case fmaxm => exact Gives.of_fpS (i := .fmaxm c t d a) (fpMinMax (FTy.fp t) true true) (fun _ _ => rfl) b v
  case ffma => exact .of_putF fun _ => rfl

/-- Settles O29: a compare writes predicates or a truth value in the active lanes, and each of the others one result with its flags; FCLASS
raises none. -/
theorem fpComparesAndScale : Obligations.FpComparesAndScale := by
  unfold Obligations.FpComparesAndScale
  intro c cc t r exact d a b
  refine ⟨?fcmp, ?fset, .of_putF fun _ => rfl, .of_putF_unflagged fun _ => rfl, .of_putF fun _ => rfl, .of_putF fun _ => rfl,
    .of_putF fun _ => rfl⟩
  case fcmp =>
    exact .of_wrote (f := fun x => x.fpCmpPred cc t d a b) (fun _ => rfl) fun _ _ hx => Wrote.fpCmpPred (mkIss_sound hx) cc t d a b
  case fset => exact .of_wrote (fun _ => rfl) fun _ _ hx => Wrote.fpSet (mkIss_sound hx) cc t d a b _

/-- Settles O30: each lane's result is formed exactly and rounded, or fitted, once. -/
theorem complexAndDots : Obligations.ComplexAndDots := by
  unfold Obligations.ComplexAndDots
  intro c t r cja ua ub sat d a b e
  exact ⟨.of_putF fun _ => rfl, .of_putF fun _ => rfl, .of_putF fun _ => rfl, .vdot4 c ua ub sat d a b e⟩

end

section
/-! SUPPORT. Triples of registers and stream blocks (R186, R193 to R195): the registers that each writes of one value per lane, and the flags
of a triple. -/

namespace Sys2Proof.Machine

/-! ### Triples (R186) -/

/-- The triples of the active lanes. -/
def Iss.triples (x : Iss) (f : Nat → Triple3) : List Triple3 :=
  (List.range x.k.width).map fun l => if x.act.getLsbD l then f l else default

theorem Iss.getD_triples {x : Iss} (hx : x.Sound) (f : Nat → Triple3) {l : Nat} (h : x.act.getLsbD l = true) :
    ((x.triples f)[l]?).getD default = f l := by
  simp [Iss.triples, hx.lt_width h, h]

/-- The flags of the triples are those of the active lanes together (R48). -/
theorem Iss.foldl_triples (x : Iss) (f : Nat → Triple3) (fl : FFlags) :
    (x.triples f).foldl (fun fl r => fl ||| r.fl) fl = fl ||| orFlags (x.lanes fun l => (0, (f l).fl)) := by
  have hflags : (x.triples f).map Triple3.fl = (x.lanes fun l => (0, (f l).fl)).map Prod.snd := by
    simp only [Iss.triples, Iss.lanes, List.map_map]
    refine List.map_congr_left fun l _ => ?_
    simp only [Function.comp]
    split <;> rfl
  calc (x.triples f).foldl (fun fl r => fl ||| r.fl) fl
      = ((x.triples f).map Triple3.fl).foldl (· ||| ·) fl := List.foldl_map.symm
    _ = ((x.lanes fun l => (0, (f l).fl)).map Prod.snd).foldl (· ||| ·) (fl ||| 0) := by rw [hflags, show fl ||| 0 = fl from BitVec.or_zero]
    _ = fl ||| ((x.lanes fun l => (0, (f l).fl)).map Prod.snd).foldl (· ||| ·) 0 := List.foldl_assoc
    _ = fl ||| orFlags (x.lanes fun l => (0, (f l).fl)) := by rw [List.foldl_map, orFlags]

/-- The registers of a triple, with the encoding that each takes. -/
def tripleParts (v : Nat) : List (Dst × (Triple3 → Word)) :=
  [(.vec v, fun r => BitVec.ofNat 32 r.n), (.vec (v + 1), fun r => BitVec.ofNat 32 r.mean), (.vec (v + 2), fun r => BitVec.ofNat 32 r.m)]

/-- The writes of the three registers of a triple. -/
theorem Wrote.putThree (x : Iss) (v : Nat) (t : Nat → TagR) (f : Nat → Triple3) :
    Wrote x (x.put (x.put (x.put x.k (.vec v) t fun l => BitVec.ofNat 32 (f l).n) (.vec (v + 1)) t fun l => BitVec.ofNat 32 (f l).mean)
      (.vec (v + 2)) t fun l => BitVec.ofNat 32 (f l).m) (.ofParts (tripleParts v) f) 0 :=
  (((Wrote.nothing x).putVec v t _).putVec (v + 1) t _).putVec (v + 2) t _

/-- An instruction that updates a triple writes its three registers and joins the flags of the active lanes. -/
theorem Wrote.putTriple {x : Iss} (hx : x.Sound) (v : BitVec 8) (a : Opnd) (span : Nat) (f : Nat → Triple3) :
    Wrote x (x.putTriple (.vec v) a span f) (.ofParts (tripleParts (v.toNat + x.ixAdd true)) f)
      (orFlags (x.lanes fun l => (0, (f l).fl))) := by
  have hwrote := fun t => ((Wrote.putThree x (v.toNat + x.ixAdd true) t fun l => ((x.triples f)[l]?).getD default).of_agree
    (Results.ofParts_agree (tripleParts (v.toNat + x.ixAdd true)) fun _ hl => Iss.getD_triples hx f hl)).addFlags
      (fl := orFlags (x.lanes fun l => (0, (f l).fl)))
  simp only [← Iss.foldl_triples] at hwrote
  exact hwrote _

/-! ### Stream blocks (R193 to R195) -/

/-- One more pair of vector registers, low half first (R43). -/
theorem Wrote.putPair {x : Iss} {k : Skein} {ws : Results} {fl : BitVec 5} (h : Wrote x k ws fl) (v : Nat) (val : Nat → DWord) :
    Wrote x (x.put64 k (.vec v) val) (ws ++ [(.vec v, fun l => loOf (val l))] ++ [(.vec (v + 1), fun l => hiOf (val l))]) fl :=
  (h.putVec v (fun _ => .g) _).putVec (v + 1) (fun _ => .g) _

/-- The registers of a stream block and the destination of its field, with what each takes of a read. -/
def streamParts (v : Nat) (d : Dst) : List (Dst × (Stream → Word)) :=
  [(.vec v, fun r => loOf r.win), (.vec (v + 1), fun r => hiOf r.win), (.vec (v + 2), fun r => loOf r.rf), (.vec (v + 3), fun r => hiOf r.rf),
    (.vec (v + 4), Stream.cw), (d, Stream.fld)]

/-- What BSRD reads in a lane: the block at a register, with the length in SRCB (R195). -/
def Iss.streamLane (x : Iss) (signed : Bool) (v : Nat) (b : Opnd) (l : Nat) : Stream :=
  readStream signed (pairOf (x.k.vlane v l) (x.k.vlane (v + 1) l)) (pairOf (x.k.vlane (v + 2) l) (x.k.vlane (v + 3) l))
    (x.k.vlane (v + 4) l) (x.b32 b l)

/-- The writes of a stream block, and of a field whatever its destination. -/
theorem Wrote.putBlock {x : Iss} (hx : x.Sound) (v : Nat) (d : Opnd) (t : Nat → TagR) (g : Nat → Stream) :
    Wrote x (x.put (x.put (x.put64 (x.put64 x.k (.vec v) fun l => (g l).win) (.vec (v + 2)) fun l => (g l).rf) (.vec (v + 4)) t
      fun l => (g l).cw) (x.dstOf d) t fun l => (g l).fld) (.ofParts (streamParts v (x.dstOf d)) g) 0 :=
  ((((Wrote.nothing x).putPair v _).putPair (v + 2) _).putVec (v + 4) t _).putAny hx (fun _ => Iss.dstOf_prd_le) (fun _ _ => rfl) t _

/-- BSRD writes its block and its field. -/
theorem Wrote.readBits {x : Iss} (hx : x.Sound) (signed : Bool) (d b : Opnd) (v : BitVec 8) :
    Wrote x (x.readBits signed d (.vec v) b) (.ofParts (streamParts (v.toNat + x.ixAdd false) (x.dstOf d))
      (x.streamLane signed (v.toNat + x.ixAdd false) b)) 0 := by
  have hagree : ∀ l, x.act.getLsbD l = true →
      (((List.range x.k.width).map (x.streamLane signed (v.toNat + x.ixAdd false) b))[l]?).getD default =
        x.streamLane signed (v.toNat + x.ixAdd false) b l := fun l hl => by simp [hx.lt_width hl]
  exact (Wrote.putBlock hx _ d _ _).of_agree (Results.ofParts_agree (streamParts (v.toNat + x.ixAdd false) (x.dstOf d)) hagree)

/-- The writes of BSINIT's whole block: two pairs and the cursor word (R194). -/
theorem Wrote.initStream_whole (x : Iss) (v : BitVec 8) (a b : Opnd) (cur : BitVec 5) :
    Wrote x (x.initStream (.vec v) a (some (b, cur))) [
      (.vec (v.toNat + x.ixAdd true), fun l => loOf (x.opA a true l)), (.vec (v.toNat + x.ixAdd true + 1), fun l => hiOf (x.opA a true l)),
      (.vec (v.toNat + x.ixAdd true + 2), fun l => loOf (x.op b true l)), (.vec (v.toNat + x.ixAdd true + 3), fun l => hiOf (x.op b true l)),
      (.vec (v.toNat + x.ixAdd true + 4), fun _ => cur.setWidth 32 ||| 0x80)] 0 :=
  (((Wrote.nothing x).putPair (v.toNat + x.ixAdd true) (fun l => x.opA a true l)).putPair (v.toNat + x.ixAdd true + 2)
    fun l => x.op b true l).putVec (v.toNat + x.ixAdd true + 4) (fun _ => .u) fun _ => cur.setWidth 32 ||| 0x80

/-- The writes of BSINIT's refill: one pair, and the cursor word with its CUR and DRY kept (R194). -/
theorem Wrote.initStream_refill (x : Iss) (v : BitVec 8) (a : Opnd) :
    Wrote x (x.initStream (.vec v) a none) [
      (.vec (v.toNat + x.ixAdd true + 2), fun l => loOf (x.opA a true l)), (.vec (v.toNat + x.ixAdd true + 3), fun l => hiOf (x.opA a true l)),
      (.vec (v.toNat + x.ixAdd true + 4), fun l => x.k.vlane (v.toNat + x.ixAdd true + 4) l &&& 0x11F ||| 0x80)] 0 :=
  ((Wrote.nothing x).putPair (v.toNat + x.ixAdd true + 2) fun l => x.opA a true l).putVec (v.toNat + x.ixAdd true + 4) _
    fun l => x.k.vlane (v.toNat + x.ixAdd true + 4) l &&& 0x11F ||| 0x80

end Sys2Proof.Machine

open Sys2Proof Sys2Proof.Machine

/-- Settles O33: a triple is three results of one value per lane with its flags, and a stream block five. That BSINIT and BSRD write 0 into
the lanes of the block that a zeroing merge mask leaves out is log entry 95. -/
theorem triplesAndStreams : Obligations.TriplesAndStreams := by
  unfold Obligations.TriplesAndStreams
  intro c r signed cur v d a b
  refine ⟨?welf, ?wmrg, ?whole, ?refill, ?bsrd⟩
  case welf => exact .of_wrote (fun _ => rfl) fun s x hx => Wrote.putTriple (mkIss_sound hx) v a 1 _
  case wmrg => exact .of_wrote (fun _ => rfl) fun s x hx => Wrote.putTriple (mkIss_sound hx) v a 3 _
  case whole => exact .of_wrote (fun _ => rfl) fun s x hx => Wrote.initStream_whole x v a b cur
  case refill => exact .of_wrote (fun _ => rfl) fun s x hx => Wrote.initStream_refill x v a
  case bsrd =>
    exact .of_wrote (f := fun x => x.readBits signed d (.vec v) b) (fun _ => rfl) fun s x hx => Wrote.readBits (mkIss_sound hx) signed d b v

end

section
/-! SUPPORT. LD, LDC, LDL, LD.fmt, LDS, LDD, BTEST, ATOM and ATOMS (R200 to R207, R216): an access of an ordinary lot is pending with its lane
addresses, and is performed at once where it names a scratchpad (R55, R86). -/

namespace Sys2Proof.Machine

/-- An access of a scratchpad. -/
def Access.scratch (a : Access) : Bool := a.sp == .s || a.sp == .d

theorem Access.waits_eq (a : Access) : a.waits = (a.ord != .plain && Scope.wide a.scope && a.scratch) := rfl

/-- The counts of array cycles change no byte and no skein. -/
theorem Iss.bankCount_keeps (x : Iss) (a : Access) (addr : Nat → DWord) : (x.bankCount a addr).Keeps x.s :=
  List.foldlRecOn (motive := fun y => State.Keeps y x.s) _ _ (.refl x.s) fun _ hy _ _ => ⟨hy.mem, hy.far, hy.skeins⟩

/-- What an access of a lot that performs its accesses itself counts changes no byte and no skein. -/
theorem Iss.counted_keeps {x : Iss} {i : Instr} {acc : Access} (hsingle : x.lot.role = .single) (hacc : accessOf i = some acc)
    (addr : Nat → DWord) : ∃ y : State, y.Keeps x.s ∧ x.counted i addr = { x with s := y } := by
  simp only [Iss.counted, hacc, Iss.not_trailing hsingle]
  split
  · exact ⟨_, x.bankCount_keeps acc addr, rfl⟩
  · exact ⟨_, State.countRequests_keeps .., rfl⟩

/-- An access of an ordinary lot is pending with its lane addresses, and performed at once where it names a scratchpad and no page holds it, but
for a load that comes later. -/
theorem Iss.startAccess_ordinary {x : Iss} {i : Instr} {acc : Access} (hord : x.Ordinary) (hacc : accessOf i = some acc)
    (addr b c : Nat → DWord) (dsts : List Dst) : ∃ (p : Pending) (y : State), p.Asks x i addr dsts ∧ y.Keeps x.s ∧
      (isFmtLoad i = false → p.hold = false) ∧
      x.startAccess i addr b c dsts = if acc.scratch && !p.hold && !x.later i
        then (({ x with s := y } : Iss).skeinOnly (x.k.addPend p)).performNow x.c x.q x.k.seq i x.act
        else ({ x with s := y } : Iss).skeinOnly (x.k.addPend p) := by
  obtain ⟨y, hy, hcounted⟩ := x.counted_keeps hord.single hacc addr
  obtain ⟨hold, hhold⟩ : ∃ h, x.holds i (acc.kind != .load) (x.s.pagePieces x.c x.k i (x.pending i addr b c dsts).addrs) = h := ⟨_, rfl⟩
  have hstate : (if hold && isFmtLoad i then x else x.counted i addr) = { x with s := if hold && isFmtLoad i then x.s else y } := by
    rw [hcounted]
    split <;> rfl
  have hchecked : x.onChecked i addr = false := by simp [Iss.onChecked, hord.unchecked]
  refine ⟨{ x.pending i addr b c dsts with hold := hold }, if hold && isFmtLoad i then x.s else y,
    ⟨rfl, rfl, rfl, rfl, rfl, ?_, fun l hl => ?_⟩, ?_, fun hfmt => ?_, ?_⟩
  · simp [Iss.pending, Function.comp_def]
  · simp [Iss.pending, hl]
  · split
    · exact .refl x.s
    · exact hy
  · simp [← hhold, Iss.holds, hfmt, hord.unchecked]
  · simp only [Iss.startAccess, Iss.orForward, Iss.not_trailing hord.single, hchecked, hacc, hhold, hstate, Bool.or_false, Bool.false_and,
      Bool.false_eq_true, if_false]
    rfl

section
variable {i : Instr} {s : State} {x : Iss} {own : Iss → List Hit} {f : Iss → State} {acc : Access} {addr : Nat → DWord} {dsts : List Dst}

/-- An instruction that issues as an access of global memory, or as a load of a scratchpad that comes later, after marks of its lots, completes
as one. -/
theorem CompletesAccess.of_start (hexec : exec i s = issue i s true own f) (hx : Issues i s x true (own x)) (hord : x.Ordinary)
    (hacc : accessOf i = some acc) {y : State} (hy : y.Marked x.s)
    (hlater : acc.scratch = false ∨ ({ x with s := y } : Iss).later i = true) {b c : Nat → DWord}
    (heq : f x = ({ x with s := y } : Iss).startAccess i addr b c dsts) : CompletesAccess i s x addr dsts := by
  obtain ⟨p, z, hp, hz, -, hstart⟩ := Iss.startAccess_ordinary (hy.ordinary hord) hacc addr b c dsts
  rw [if_neg (by rcases hlater with h | h <;> simp [h])] at hstart
  exact ⟨p, z, { hp with }, hz.trans hy.keeps, exec_of_issue hexec hx (heq.trans hstart)⟩

/-- An instruction that issues as an access of a scratchpad that does not come later, after marks of its lots, completes as one. -/
theorem CompletesNow.of_start (hexec : exec i s = issue i s true own f) (hx : Issues i s x true (own x)) (hord : x.Ordinary)
    (hacc : accessOf i = some acc) (hfmt : isFmtLoad i = false) {y : State} (hy : y.Marked x.s) (hscratch : acc.scratch = true)
    (hlater : ({ x with s := y } : Iss).later i = false) {b c : Nat → DWord}
    (heq : f x = ({ x with s := y } : Iss).startAccess i addr b c dsts) : CompletesNow i s x addr dsts := by
  obtain ⟨p, z, hp, hz, hhold, hstart⟩ := Iss.startAccess_ordinary (hy.ordinary hord) hacc addr b c dsts
  rw [if_pos (by simp [hscratch, hhold hfmt, hlater])] at hstart
  exact ⟨p, z, { hp with }, hz.trans hy.keeps, exec_of_issue hexec hx (heq.trans hstart)⟩

end

/-! ### Loads -/

/-- What a load comes to where it issues (R200, R202). -/
def Iss.load (x : Iss) (i : Instr) (a : Opnd) (off : BitVec 24) (d : Opnd) (n : Nat) : State :=
  match accessOf i with
  | some acc =>
    let go := fun (x : Iss) => x.startAccess i (x.spaceAddr acc.sp a (sx24 off)) zeroLane zeroLane (x.dsts d n)
    if acc.ord == .sc || acc.waits then x.afterWrites acc.scope go else go x
  | none => x.s

theorem issueLoad_eq (i : Instr) (s : State) (a : Opnd) (off : BitVec 24) (d : Opnd) (n : Nat) : issueLoad i s a off d n =
    issue i s true (fun x => x.accessHits i fun acc => x.spaceAddr acc.sp a (sx24 off)) fun x => x.load i a off d n := rfl

/-- A load whose waits are over starts its access. -/
theorem Iss.load_ready {x : Iss} {i : Instr} {sp : Space} {m : MemM} (hacc : accessOf i = some (memAccess sp .load m))
    (h : m.ord = .sc ∨ (memAccess sp .load m).waits = true → x.act ≠ 0 → x.Ready m.scope) (a : Opnd) (off : BitVec 24) (d : Opnd) (n : Nat) :
    x.load i a off d n = x.startAccess i (x.spaceAddr sp a (sx24 off)) zeroLane zeroLane (x.dsts d n) := by
  simp only [Iss.load, hacc]
  split
  case isTrue hwaits => exact Iss.afterWrites_ready (h (by simpa [memAccess] using hwaits)) _
  case isFalse => rfl

/-! ### Atomics -/

/-- The offset that an atomic's address takes (R207). -/
def AtomArg.offset (v : AtomArg) : DWord := match v with | .op2 _ _ o => o.signExtend 64 | .cas _ _ o => o.signExtend 64

/-- The operand that an atomic combines with the old value or compares it with, and the one that a CAS stores (R207). -/
def AtomArg.operand (v : AtomArg) : Opnd := match v with | .op2 _ b _ => b | .cas b _ _ => b
def AtomArg.swap (v : AtomArg) : Opnd := match v with | .op2 .. => .imm 0 | .cas _ e _ => e

/-- What an atomic comes to where it issues (R206, R207). -/
def Iss.atomic (x : Iss) (i : Instr) (a : Opnd) (v : AtomArg) (t : Fmt) (d : Opnd) (side : Iss → Iss) : State :=
  match accessOf i with
  | some acc =>
    let go := fun (x : Iss) => (side x).startAccess i (x.spaceAddr acc.sp a (AtomArg.offset v))
      (x.typedOp t (AtomArg.operand v)) (x.typedOp t (AtomArg.swap v))
      (x.dsts d (if Fmt.wide64 t then 2 else 1))
    if MOrd.releases acc.ord then x.released acc.scope go
    else if acc.waits then x.afterWrites acc.scope go else go x
  | none => x.s

theorem issueAtomic_eq (i : Instr) (s : State) (a : Opnd) (v : AtomArg) (t : Fmt) (d : Opnd) (side : Iss → Iss) :
    issueAtomic i s a v t d side =
      issue i s true (fun x => x.accessHits i fun acc => x.spaceAddr acc.sp a (AtomArg.offset v)) fun x => x.atomic i a v t d side := rfl

/-- An atomic whose waits are over starts its access, behind the stamps of its release and the marks of its lots. -/
theorem Iss.atomic_ready {x : Iss} {i : Instr} {acc : Access} {side : Iss → Iss} (hacc : accessOf i = some acc)
    (hrel : MOrd.releases acc.ord = true → x.act ≠ 0 → x.Ready acc.scope) (hwaits : acc.waits = true → x.act ≠ 0 → x.Ready acc.scope)
    (hside : ∀ z : Iss, ∃ y : State, y.Marked z.s ∧ side z = { z with s := y }) (a : Opnd) (v : AtomArg) (t : Fmt) (d : Opnd) :
    ∃ (y : State) (b e : Nat → DWord), y.Marked x.s ∧ x.atomic i a v t d side = ({ x with s := y } : Iss).startAccess i
      (x.spaceAddr acc.sp a (AtomArg.offset v)) b e (x.dsts d (if Fmt.wide64 t then 2 else 1)) := by
  simp only [Iss.atomic, hacc]
  split
  case isTrue h =>
    have hstamp := State.stampLots_marked x.s (x.k.lots x.act) (f := fun l => l.releaseStamp acc.scope) fun _ => rfl
    let z : Iss := { x with s := x.s.stampLots (x.k.lots x.act) fun l => l.releaseStamp acc.scope }
    obtain ⟨y, hy, hsided⟩ := hside z
    refine ⟨y, z.typedOp t (AtomArg.operand v), z.typedOp t (AtomArg.swap v), hy.trans hstamp, ?_⟩
    rw [Iss.released, Iss.afterWrites_ready (hrel h), hsided, hstamp.spaceAddr]
    rfl
  case isFalse =>
    obtain ⟨y, hy, hsided⟩ := hside x
    refine ⟨y, x.typedOp t (AtomArg.operand v), x.typedOp t (AtomArg.swap v), hy, ?_⟩
    split
    case isTrue h => rw [Iss.afterWrites_ready (hwaits h), hsided]
    case isFalse => rw [hsided]

end Sys2Proof.Machine

open Sys2Proof Sys2Proof.Machine

/-- Settles O35: a `.sc` load that is ready goes on at once, and every load starts as an access that names no scratchpad. -/
theorem loads : Obligations.Loads := by
  unfold Obligations.Loads
  intro c m h off d a s x hord addr loads
  have of_load : ∀ {i sp}, accessOf i = some (memAccess sp .load m) → Access.scratch (memAccess sp .load m) = false →
      (∀ s, exec i s = issueLoad i s a off d (MemM.regs m)) → loads i sp := fun {i sp} hacc hsp hexec hx hready => by
    have hwaits : Access.waits (memAccess sp .load m) = false := by rw [Access.waits_eq, hsp, Bool.and_false]
    exact .of_start ((hexec s).trans (issueLoad_eq ..)) hx hord hacc (.refl x.s) (.inl hsp)
      (Iss.load_ready hacc (fun h _ => hready (h.resolve_right (by simp [hwaits]))) a off d _)
  exact ⟨of_load rfl rfl fun _ => rfl, of_load rfl rfl fun _ => rfl, of_load rfl rfl fun _ => rfl,
    fun hx => .of_start (own := Instr.hits (.ldFmt c h off d a)) rfl hx hord rfl (.refl x.s) (.inl rfl) rfl⟩

/-- Settles O36: a read of a scratchpad that is ready, and an atomic behind its stamps and marks, starts its access, which is performed at once or
later as the scratchpad's reads are; a global atomic's is pending. That no release waits with no active lane is log entry 51. -/
theorem scratchLoadsAndAtomics : Obligations.ScratchLoadsAndAtomics := by
  unfold Obligations.ScratchLoadsAndAtomics
  refine ⟨?reads, ?atomics⟩
  case reads =>
    intro c m die off d a b s x hord addr loads
    have of_load : ∀ {i sp}, accessOf i = some (memAccess sp .load m) → Access.scratch (memAccess sp .load m) = true → isFmtLoad i = false →
        (∀ s, exec i s = issueLoad i s a off d (MemM.regs m)) → loads i sp := fun {i sp} hacc hsp hfmt hexec hx hready => by
      have hstart := Iss.load_ready hacc (fun h hact => hready (h.imp_right fun h => by
        rw [Access.waits_eq, hsp, Bool.and_true] at h
        simpa [memAccess] using h) hact) a off d (MemM.regs m)
      exact ⟨fun hlater => .of_start ((hexec s).trans (issueLoad_eq ..)) hx hord hacc hfmt (.refl x.s) hsp hlater hstart,
        fun hlater => .of_start ((hexec s).trans (issueLoad_eq ..)) hx hord hacc (.refl x.s) (.inr hlater) hstart⟩
    refine ⟨of_load rfl rfl rfl fun _ => rfl, of_load rfl rfl rfl fun _ => rfl, fun hx => ?_⟩
    have hscratch : Access.scratch ⟨if die then .d else .s, 16, .load, .acq, if die then .die else .lot, .page, false⟩ = true := by
      cases die <;> rfl
    exact .of_start (own := fun x => x.objHits die a off) rfl hx hord rfl rfl (.refl x.s) hscratch rfl rfl
  case atomics =>
    intro c m die d a v s x hord releases off dsts
    refine ⟨fun hx hrel => ?_, fun hx hrel hwaits => ?_⟩
    · obtain ⟨y, b, e, hy, hstart⟩ := Iss.atomic_ready (i := .atom c m d a v) (side := fun x => x.sided false) rfl hrel
        (fun h => by simp [Access.waits] at h) (fun z => ⟨_, State.markSide_marked .., rfl⟩) a v m.t d
      exact .of_start (issueAtomic_eq ..) hx hord rfl hy (.inl rfl) hstart
    · have hscratch : Access.scratch ⟨if die then .d else .s, atomBytes m.t, .atomic, m.ord, m.scope, .page, true⟩ = true := by
        cases die <;> rfl
      obtain ⟨y, b, e, hy, hstart⟩ := Iss.atomic_ready (i := .atoms c m die d a v) (side := fun x => if die then x.sided false else x) rfl hrel
        (fun h => hwaits (by
          rw [Access.waits_eq, hscratch, Bool.and_true] at h
          simpa using h)) (fun z => by
          cases die
          · exact ⟨_, .refl _, rfl⟩
          · exact ⟨_, State.markSide_marked .., rfl⟩) a v m.t d
      exact .of_start (issueAtomic_eq ..) hx hord rfl rfl hy hscratch rfl hstart

end

section
/-! SUPPORT. CPY, CPYG, CPYM and CPY.unz (R221 to R228): the entries that an instruction brings into the streamer's queue, with their places and
numbers. -/

namespace Sys2Proof.Machine

/-- The copies of the active lanes enter the streamer's queue, each with the number that its timeline block gives (R217, R222). -/
def Iss.queueCopies (x : Iss) (y : State) (mk : Nat → Copy) : State :=
  let s := (laneList x.act).foldl (fun (s : State) (l : Nat) => match (mk l).tlVa.bind fun v => s.acceptTl x.c x.part v with
    | some (t, tl) => t.addCopy { mk l with tl := some tl }
    | none => s.addCopy (mk l)) y
  x.finish (s.updLot x.k.lot fun lt => { lt with openBatch := lt.openBatch + (laneList x.act).length }) x.afterStore false

/-- The lots of a copy are marked where it names an allocation of another lot (R304). -/
def Iss.copySide (x : Iss) (side : Option Bool) : State :=
  match side with | some r => x.s.markSide (x.k.lots x.act) r | none => x.s

theorem Iss.copySide_of (x : Iss) (v : CpyX) :
    x.copySide (CpyX.side v) = if v.ts || v.bs then x.s.markSide (x.k.lots x.act) false else x.s := by
  unfold CpyX.side
  split <;> rfl

/-- Where the queue has room, the copies of a lot that performs its own commands enter it in their places. -/
theorem Iss.enqueue_room {x : Iss} (hsingle : x.lot.role = .single) (hroom : x.s.quadLoad x.c + (laneList x.act).length ≤ 64)
    (side : Option Bool) (mk : Nat → Copy) : x.enqueue side mk = x.queueCopies (x.copySide side) fun l => x.s.placed (mk l) := by
  simp only [Iss.enqueue, Iss.not_trailing hsingle, Bool.false_eq_true, if_false, if_neg (Nat.not_lt.2 hroom)]
  cases side <;> rfl

end Sys2Proof.Machine

open Sys2Proof Sys2Proof.Machine

/-- Settles O45: where there is room, each instruction's copies enter the queue with the places of their tiles and objects. That a CPYM waits for
a page that its check has to see is log entries 14 and 112. -/
theorem copyCommands : Obligations.CopyCommands := by
  unfold Obligations.CopyCommands
  intro c m v dec d a b room queue side plain own
  refine ⟨?cpy, ?cpyg, ?cpym, ?asks, fun n => ?unz⟩
  case cpy =>
    refine .of_issue (fun _ => rfl) fun x ⟨hsingle, hroom⟩ => ?_
    rw [Iss.enqueue_room hsingle hroom, Iss.copySide_of]
    rfl
  case cpyg =>
    refine .of_issue (fun _ => rfl) fun x ⟨hsingle, hroom⟩ => ?_
    rw [Iss.enqueue_room hsingle hroom, Iss.copySide_of]
    rfl
  case cpym =>
    refine .of_issue (fun _ => rfl) fun x ⟨⟨hsingle, hroom⟩, hmissing⟩ => ?_
    rw [hmissing, Iss.enqueue_room hsingle hroom, Iss.copySide_of]
    rfl
  case asks =>
    refine .of_issue (fun _ => rfl) fun x hmissing => if_pos ?_
    simpa using hmissing
  case unz =>
    refine .of_issue (fun _ => rfl) fun x ⟨hsingle, hroom⟩ => ?_
    rw [Iss.enqueue_room hsingle hroom]
    rfl

end

section
/-! SUPPORT. Events of a streamer (R217, R220, R222 to R225, R228, R241, R259, R261, R386, R387): when a queued command may take its number and
start, and what starts, checks, hands over and completes it. -/

namespace Sys2Proof.Machine

section
variable {s : State} {n : Nat} {x : Copy}

/-! ### Starts (R259, R261, R386) -/

/-- The oldest queued command of a lot is ready once the accesses that it is ordered after are performed. -/
theorem State.copyReady_of (hstage : x.stage = .queued) (holdest : ∀ y ∈ s.copies, y.2.lot = x.lot → y.2.stage = .queued → x.id ≤ y.1)
    (hquiet : (s.lot x.lot).resident = true → s.skeinQuiet (Copy.core s x) x.slot x.order x.info.hb = true) : s.copyReady x = true := by
  have hall : (s.copies.all fun e => e.2.lot != x.lot || e.2.stage != .queued || x.id ≤ e.1) = true := by
    simp only [List.all_eq_true, Bool.or_eq_true, bne_iff_ne, decide_eq_true_eq]
    intro y hy
    by_cases hlot : y.2.lot = x.lot
    · by_cases hq : y.2.stage = .queued
      · exact .inr (holdest y hy hlot hq)
      · exact .inl (.inr hq)
    · exact .inl (.inl hlot)
  have hwait : (!(s.lot x.lot).resident || s.skeinQuiet (Copy.core s x) x.slot x.order x.info.hb) = true := by
    cases h : (s.lot x.lot).resident
    · rfl
    · simpa using hquiet h
  simp [State.copyReady, hstage, hall, hwait]

/-- A ready command takes the number that its timeline block gives (R217). -/
theorem copyStart_number (hx : amGet s.copies n = some x) (hready : s.copyReady x = true) {a : DWord} {t : State} {tl : Nat × Nat}
    (hva : x.tlVa = some a) (htl : x.tl = none) (hheld : s.heldAt (.copy n) a = false)
    (haccept : s.acceptTl (Copy.core s x) (Copy.part s x) a = some (t, tl)) :
    exec (.copyStart n) s = .next (t.setCopy { x with tl := some tl }) := by
  change execCopyStart n s = _
  simp only [execCopyStart, hx, hready, hva, htl, hheld, haccept, Bool.not_true, Bool.false_eq_true, if_false]

/-- The turn of a quad's streamer passes to the place behind a command's (R259). -/
def State.copyTaken (s : State) (x : Copy) : State :=
  s.updCore (4 * (Copy.core s x / 4)) fun k => { k with turn := Copy.place s x + 1 }

/-- A ready command that needs no number any more starts in its lot's turn. -/
theorem copyStart_starts (hx : amGet s.copies n = some x) (hready : s.copyReady x = true) (htl : x.tlVa = none ∨ x.tl.isSome = true)
    (hroom : ((amVals s.copies).filter fun y => y.lot == x.lot && y.stage == .started).length < 8) (hturn : s.copyTurn x = true) :
    exec (.copyStart n) s = .next (if x.isShape then (s.copyTaken x).startShape x
      else if x.isUnz then (s.copyTaken x).startUnz x else (s.copyTaken x).startTile x) := by
  have hcan : s.copyCan x = true := by
    have htl' : (x.tlVa.isNone || x.tl.isSome) = true := by simpa using htl
    simp [State.copyCan, hready, htl', hroom]
  change execCopyStart n s = _
  simp only [execCopyStart, hx, hready, Bool.not_true, Bool.false_eq_true, if_false]
  split
  case h_1 hva hnone =>
    simp [hva, hnone] at htl
  case h_2 => simp only [hcan, hturn, Bool.not_true, Bool.or_self, Bool.false_eq_true, if_false]; rfl

/-- SHAPE installs the record that it has read in its slot (R220). -/
theorem State.startShape_installs {c : Ctl} {m : BitVec 4} {off : BitVec 24} {a : Opnd} {sh : Shape} (hi : x.i = .shape c m off a)
    (hsh : x.shape = some sh) : s.startShape x = (s.dropCopy x).updLot x.lot fun l => { l with shapes := amPut l.shapes m.toNat sh } := by
  simp only [State.startShape, hi, hsh]

/-- One without a record leaves its slot as it is. -/
theorem State.startShape_none (h : x.shape = none) : s.startShape x = s.dropCopy x := by
  simp only [State.startShape, h]

/-- The copy with the shape that its slot holds when it starts (R220). -/
def State.shaped (s : State) (x : Copy) : Copy := { x with shape := amGet (s.lot x.lot).shapes x.cx.slot.toNat }

/-- A copy that fails a check at its start fails with the lowest cause (R386). -/
theorem State.startTile_fails {c d a : Nat} (h : s.startCheck (s.shaped x) = some (c, d, a)) :
    s.startTile x = s.copyFail (s.shaped x) c d (BitVec.ofNat 64 a) := by
  unfold State.startTile
  rw [State.shaped] at h
  simp only [h]
  rfl

/-- A copy that passes its checks and takes no list starts. -/
theorem State.startTile_plain (h : s.startCheck (s.shaped x) = none) (hlist : (s.shaped x).gathers = false) :
    s.startTile x = s.setCopy { s.shaped x with stage := .started, list := [] } := by
  unfold State.startTile
  rw [State.shaped] at h hlist
  simp only [h, hlist, Bool.false_and, Bool.false_eq_true, if_false]
  rfl

/-- One that takes a list reads it from the scratchpad (R226). -/
theorem State.startTile_gathers (h : s.startCheck (s.shaped x) = none) (hlist : (s.shaped x).gathers = true)
    (hclear : (s.lot x.lot).clearedAt (blockWord x.block 7).toNat (4 * (s.shaped x).box ((s.shaped x).dims - 1)) = true)
    (hsound : (s.lot x.lot).poisoned (blockWord x.block 7).toNat (4 * (s.shaped x).box ((s.shaped x).dims - 1)) = false) :
    s.startTile x = s.setCopy { s.shaped x with
      stage := .started
      list := (List.range ((s.shaped x).box ((s.shaped x).dims - 1))).map fun i =>
        memNat (s.lot x.lot).scratch ((blockWord x.block 7).toNat + 4 * i) 4 } := by
  unfold State.startTile
  rw [State.shaped] at h hlist hclear hsound
  simp only [h, hlist, hclear, hsound, Bool.not_true, Bool.and_false, Bool.false_eq_true, if_false, if_true]
  rfl

/-! ### Page checks (R386) -/

/-- A page that a started copy of a tile has still to reach, once it is translated, is checked for its format. -/
theorem copyPageCheck_translated (hx : amGet s.copies n = some x) {va : DWord} {t : Xl} (hstage : x.stage = .started) (hunz : x.isUnz = false)
    (hnew : x.pages.contains (va.toNat / 65536) = false) (hheld : s.heldAt (.copy n) va = false)
    (hreach : ((s.copyReach x).any fun a => a.toNat / 65536 == va.toNat / 65536) = true)
    (ht : s.xlate (Copy.core s x) (Copy.part s x) va x.cx.dir false = .ok t) :
    exec (.copyPageCheck n va) s = .next (if x.mode == .enc && t.fmt.fmt == 7 && t.fmt.geo == 1 then s.copyFail x 0x61 1 va
      else if t.fmt != x.pf then s.copyFail x 0x61 0 va else s.setCopy { x with pages := insNat x.pages (va.toNat / 65536) }) := by
  change execCopyPageCheck n va s = _
  simp only [execCopyPageCheck, hx, hstage, hunz, hnew, hheld, hreach, ht, bne_self_eq_false, Bool.not_true, Bool.or_self, Bool.false_eq_true,
    if_false]
  split
  · rfl
  · split <;> rfl

/-! ### Units (R225, R228, R241) -/

/-- A started expansion goes on by a token. -/
theorem copyBytes_token {e : Nat} (hx : amGet s.copies n = some x) (hstage : x.stage = .started) (hunz : x.isUnz = true) :
    exec (.copyBytesPerformed n e) s = .next (s.unzStep x) := by
  change execCopyBytesPerformed n e s = _
  simp only [execCopyBytesPerformed, hx, hstage, hunz, bne_self_eq_false, Bool.false_eq_true, if_false, if_true]

/-- A unit of a started copy that is not performed yet, and whose rows are cleared, is performed. -/
theorem copyBytes_unit {e : Nat} (hx : amGet s.copies n = some x) (hstage : x.stage = .started) (hunz : x.isUnz = false)
    (hnew : x.units.contains e = false) (hlt : e < x.unitCount)
    (hclear : (s.lot (x.tile.getD (0, 0)).1).clearedAt ((x.tile.getD (0, 0)).2 + e * x.unit) x.unit = true) :
    exec (.copyBytesPerformed n e) s = .next (if x.cx.dir then s.unitOut x e else s.unitIn x e) := by
  have hleft : (x.units.contains e || decide (x.unitCount ≤ e) ||
      !(s.lot (x.tile.getD (0, 0)).1).clearedAt ((x.tile.getD (0, 0)).2 + e * x.unit) x.unit) = false := by
    rw [hnew, hclear, decide_eq_false (Nat.not_le.2 hlt)]
    rfl
  change execCopyBytesPerformed n e s = _
  simp only [execCopyBytesPerformed, hx, hstage, hunz, hleft, bne_self_eq_false, Bool.false_eq_true, if_false]

/-- The MMA of a CPYM, as if its producer issued it now. -/
def State.mmaNow (s : State) (x : Copy) (m : MCmd) : MCmd :=
  match s.skein (Copy.core s x) x.slot with
  | some k => if k.lot == x.lot then { m with order := k.seq, info := { m.info with hb := k.hb } } else m
  | none => m

/-- The MMA keeps its kind, tile and lot. -/
theorem State.mmaNow_same (s : State) (x : Copy) (m : MCmd) :
    (s.mmaNow x m).kind = m.kind ∧ (s.mmaNow x m).tile = m.tile ∧ (s.mmaNow x m).lot = m.lot := by
  unfold State.mmaNow
  split
  · split <;> exact ⟨rfl, rfl, rfl⟩
  · exact ⟨rfl, rfl, rfl⟩

theorem State.handOver_resident {m : MCmd} (hm : x.mma = some m) (hres : (s.lot x.lot).resident = true) :
    s.handOver x = (s.setCopy { x with mma := none }).enterMtx (Copy.core s x) (s.mmaNow x m) := by
  simp only [State.handOver, hm]
  rw [if_pos hres]
  rfl

/-- With the last unit of a resident lot's CPYM its MMA enters the matrix engine, under the order that its skein then has. -/
theorem State.unitDone_handsOver {e : Nat} {m : MCmd} (hm : x.mma = some m) (hres : (s.lot x.lot).resident = true)
    (hlast : (insNat x.units e).length = x.unitCount) : ∃ m' : MCmd, m'.kind = m.kind ∧ m'.tile = m.tile ∧ m'.lot = m.lot ∧
      s.unitDone x e = (((s.setCopy { x with units := insNat x.units e }).setCopy { x with units := insNat x.units e, mma := none }).enterMtx
        (Copy.core s x) m').copyCount { x with units := insNat x.units e } := by
  let y : Copy := { x with units := insNat x.units e }
  obtain ⟨hkind, htile, hlot⟩ := (s.setCopy y).mmaNow_same y m
  have hover : (s.setCopy y).handOver y = ((s.setCopy y).setCopy { y with mma := none }).enterMtx (Copy.core s x) ((s.setCopy y).mmaNow y m) :=
    State.handOver_resident hm hres
  exact ⟨_, hkind, htile, hlot, congrArg (fun t : State => t.copyCount y) ((if_pos (beq_iff_eq.2 hlast)).trans hover)⟩

/-! ### Completion (R222, R387) -/

/-- A copy that has performed all it has to reports to its batch and its timeline block. -/
theorem copyComplete_reports (hx : amGet s.copies n = some x) (hstage : x.stage = .started)
    (hfin : if x.isUnz then x.unzOver = true else x.units.length = x.unitCount) :
    let u := (s.dropCopy x).copyLeft x
    let t := match x.tl with
      | some (pa, k) => u.tlComplete pa k (u.pubOf x.lot x.stamp)
      | none => u
    exec (.copyComplete n) s = .next (match x.soft with
      | some (c, d, va) => t.engineCause (Copy.core t x) x.slot x.lot (laneCause x.info x.lane x.order c d va [])
      | none => t) := by
  have hfin' : (if x.isUnz then x.unzOver else x.units.length == x.unitCount) = true := by
    split at hfin
    case isTrue h => rw [if_pos h, hfin]
    case isFalse h => rw [if_neg h, hfin, beq_self_eq_true]
  change execCopyComplete n s = _
  simp only [execCopyComplete, hx, hstage, hfin', bne_self_eq_false, Bool.not_true, Bool.or_self, Bool.false_eq_true, if_false]
  rcases hsoft : x.soft with _ | ⟨c, d, va⟩ <;> rfl

end

end Sys2Proof.Machine

open Sys2Proof Sys2Proof.Machine

/-- Settles O53: a ready command takes its number, or starts as its kind and its checks decide; a page check, a unit, the last unit and a
completion each do what their conditions say. That a failed start names the tile where no address fails it is log entry 114; that a token of `.unz`
is one unit is the model's reading too. -/
theorem streamerEvents : Obligations.StreamerEvents := by
  unfold Obligations.StreamerEvents
  intro s n e va x hx
  refine ⟨fun hstage holdest hquiet => ?start, fun hstage hunz hnew hheld hreach t ht => ?page, fun hstage hunz => ?token,
    fun hstage hunz hnew hlt hclear => ?unit, fun m hm hres => State.unitDone_handsOver hm hres, fun hstage hfin =>
    copyComplete_reports hx hstage hfin⟩
  case start =>
    have hready := State.copyReady_of hstage holdest hquiet
    refine ⟨fun a t tl hva htl hheld haccept => copyStart_number hx hready hva htl hheld haccept, fun htl hroom hturn => ?_⟩
    have hstart := copyStart_starts hx hready htl hroom hturn
    refine ⟨fun c m off a sh hi hsh => ?shape, fun hshape hnone => ?failedShape, fun hshape hunz => ?unz, fun hshape hunz => ?tile⟩
    case shape =>
      have hshape : x.isShape = true := by simp only [Copy.isShape, hi]
      rw [hshape, if_pos rfl, State.startShape_installs hi hsh] at hstart
      exact hstart
    case failedShape =>
      rw [hshape, if_pos rfl, State.startShape_none hnone] at hstart
      exact hstart
    case unz =>
      rw [hshape, if_neg Bool.false_ne_true, hunz, if_pos rfl] at hstart
      exact hstart
    case tile =>
      rw [hshape, if_neg Bool.false_ne_true, hunz, if_neg Bool.false_ne_true] at hstart
      exact ⟨fun c d a h => hstart.trans (congrArg _ (State.startTile_fails h)),
        fun h hlist => hstart.trans (congrArg _ (State.startTile_plain h hlist)),
        fun h hlist hclear hsound => hstart.trans (congrArg _ (State.startTile_gathers h hlist hclear hsound))⟩
  case page =>
    have hcheck := copyPageCheck_translated hx hstage hunz hnew hheld hreach ht
    refine ⟨fun ⟨henc, hfmt, hgeo⟩ => ?_, fun hplain hne => ?_, fun hplain heq => ?_⟩
    · rw [hcheck, if_pos (by simp [henc, hfmt, hgeo])]
    · rw [hcheck, if_neg (by simpa [and_assoc] using hplain), if_pos (bne_iff_ne.2 hne)]
    · rw [hcheck, if_neg (by simpa [and_assoc] using hplain), if_neg (by simpa using heq)]
  case token => exact copyBytes_token hx hstage hunz
  case unit => exact copyBytes_unit hx hstage hunz hnew hlt hclear

end

section
/-! SUPPORT. Events of a search engine and of a landing unit (R217, R273, R276, R279 to R281, R391, R392): what the acceptance of a query, its round
and its restart come to, and which landing goes on. -/

namespace Sys2Proof.Machine

/-! ### Acceptance (R217, R230, R391) -/

/-- The query as the check of a packet that breaks it reads its vector: at the stack of its core. -/
def Query.atCore (x : Query) : Query := { x with home := x.core / 64 }

/-- A query accepted at a home stack, with its vector as read in a format (R270): it runs from then on. -/
def Query.acceptedAt (x : Query) (home : Nat) (bs : List Byte) (f : Nat) : Query :=
  let w := fmtBytes (BitVec.ofNat 4 f)
  { x with home, qfmt := f, qvec := (List.range x.dims).map (fun d => partNat bs (d * w) w), running := true }

/-- A query with its vector starts under the number of its timeline block, if it names one, and is rejected where the fault on that was refused. -/
def Query.start (x : Query) (n : Nat) (t : State) : State :=
  if x.tline == 0 then t.setQuery x
  else if x.lost.contains (x.tline.toNat / 65536) then t.queryReject { x with running := false } 32
  else if t.heldAt (.query n) x.tline then t
  else match t.acceptTl x.unit x.part x.tline with
    | some (u, tl) => u.setQuery { x with tl := some tl }
    | none => t

/-- A timeline block that a query names is bad where its fault was refused. -/
theorem State.queryTlBad_lost (s : State) {x : Query} (hne : x.tline ≠ 0) :
    (s.queryTlBad x == some true) = x.lost.contains (x.tline.toNat / 65536) := by
  have hne' : (x.tline == 0) = false := beq_eq_false_iff_ne.2 hne
  simp only [State.queryTlBad, hne', Bool.false_eq_true, if_false]
  split
  case isTrue h => rw [h]; rfl
  case isFalse h => rw [Bool.eq_false_iff.2 h]; split <;> rfl

theorem Query.start_unnumbered {x : Query} (hzero : x.tline = 0) (n : Nat) (t : State) : x.start n t = t.setQuery x :=
  if_pos (beq_iff_eq.2 hzero)

section
variable {x : Query} {t : State} (hne : x.tline ≠ 0)
include hne

theorem Query.start_lost (hlost : x.lost.contains (x.tline.toNat / 65536) = true) (n : Nat) :
    x.start n t = t.queryReject { x with running := false } 32 :=
  (if_neg (by simpa using hne)).trans (if_pos hlost)

theorem Query.start_numbered {n : Nat} {u : State} {tl : Nat × Nat} (hkept : x.lost.contains (x.tline.toNat / 65536) = false)
    (hheld : t.heldAt (.query n) x.tline = false) (haccept : t.acceptTl x.unit x.part x.tline = some (u, tl)) :
    x.start n t = u.setQuery { x with tl := some tl } := by
  rw [Query.start, if_neg (by simpa using hne), hkept, if_neg Bool.false_ne_true, hheld, if_neg Bool.false_ne_true, haccept]

end

/-- What `execQueryAccept` answers for such a query is its start. -/
theorem Query.start_next (x : Query) (n : Nat) (t : State) : (.next (x.start n t) : Host.Outcome State Fault Refusal) =
    if x.tline == 0 then .next (t.setQuery x)
    else if t.queryTlBad x == some true then .next (t.queryReject { x with running := false } 32)
    else if t.heldAt (.query n) x.tline then .next t
    else match t.acceptTl x.unit x.part x.tline with
      | some (u, tl) => .next (u.setQuery { x with tl := some tl })
      | none => .next t := by
  unfold Query.start
  by_cases hzero : x.tline = 0
  · rw [if_pos (beq_iff_eq.2 hzero), if_pos (beq_iff_eq.2 hzero)]
  · rw [State.queryTlBad_lost t hzero]
    cases t.acceptTl x.unit x.part x.tline <;> simp only [apply_ite Host.Outcome.next]

section
variable {s : State} {n : Nat} {x : Query}
variable (hx : amGet s.queries n = some x) (hnext : (x.running || x.fin || s.queryBehind x) = false)
include hx hnext

/-- A query whose first field fails is rejected for it. -/
theorem queryAccept_first (hbad : x.packetBad = some 0) : exec (.queryAccept n) s = .next (s.queryReject x 0) := by
  change execQueryAccept n s = _
  simp only [execQueryAccept, hx, hnext, hbad, Bool.false_eq_true, if_false]

section
variable {d : Nat} (hbad : x.packetBad = some d) (hd : d ≠ 0)
include hbad hd

/-- A query of which a later field fails is rejected for its vector where that cannot be read. -/
theorem queryAccept_vector {e : Nat} {p : Bool} (hvec : (s.searchVec x.atCore false x.qvecVa).1 = .bad e p) :
    exec (.queryAccept n) s = .next (s.queryReject x 0) := by
  obtain ⟨d, rfl⟩ := Nat.exists_eq_succ_of_ne_zero hd
  generalize hr : s.searchVec x.atCore false x.qvecVa = r at hvec
  obtain ⟨_, f⟩ := r
  obtain rfl := hvec
  rw [Query.atCore] at hr
  change execQueryAccept n s = _
  simp only [execQueryAccept, hx, hnext, hbad, hr, Bool.false_eq_true, if_false]

/-- One whose vector can be read is rejected for the field that fails, or before it for a refused timeline block. -/
theorem queryAccept_field {t : State} {bs : List Byte} (hvec : (s.searchVec x.atCore false x.qvecVa).1 = .ok t bs) :
    exec (.queryAccept n) s = .next (if d ≤ 32 then s.queryReject x d else match s.queryTlBad x.atCore with
      | none => s
      | some b => s.queryReject x (if b then 32 else d)) := by
  obtain ⟨d, rfl⟩ := Nat.exists_eq_succ_of_ne_zero hd
  generalize hr : s.searchVec x.atCore false x.qvecVa = r at hvec
  obtain ⟨_, f⟩ := r
  obtain rfl := hvec
  rw [Query.atCore] at hr
  change execQueryAccept n s = _
  simp only [execQueryAccept, hx, hnext, hbad, hr, Bool.false_eq_true, if_false]
  split
  · rfl
  · rw [Query.atCore]
    cases s.queryTlBad { x with home := x.core / 64 } <;> rfl

end

section
variable {h : Nat} (hgood : x.packetBad = none) (hhome : s.queryHome x = some h)
  (hroom : ((amVals s.queries).filter fun y => y.running && !y.fin && y.home == h).length < 1024)
include hgood hhome hroom

/-- A query whose packet is good, but whose vector cannot be read, is rejected for it. -/
theorem queryAccept_noVector {e : Nat} {p : Bool} (hvec : (s.searchVec { x with home := h } false x.qvecVa).1 = .bad e p) :
    exec (.queryAccept n) s = .next (s.queryReject { x with home := h } 0) := by
  generalize hr : s.searchVec { x with home := h } false x.qvecVa = r at hvec
  obtain ⟨_, f⟩ := r
  obtain rfl := hvec
  have hvec' : s.searchVec { x with home := h } false (Query.qvecVa { x with home := h }) = (.bad e p, f) := hr
  change execQueryAccept n s = _
  simp only [execQueryAccept, hx, hnext, hgood, hhome, if_neg (Nat.not_le.2 hroom), hvec', Bool.false_eq_true,
    if_false]

/-- A query whose vector is read starts. -/
theorem queryAccept_starts {t : State} {bs : List Byte} {f : Nat} (hvec : s.searchVec { x with home := h } false x.qvecVa = (.ok t bs, f)) :
    exec (.queryAccept n) s = .next ((x.acceptedAt h bs f).start n t) := by
  have hvec' : s.searchVec { x with home := h } false (Query.qvecVa { x with home := h }) = (.ok t bs, f) := hvec
  change execQueryAccept n s = _
  simp only [execQueryAccept, hx, hnext, hgood, hhome, if_neg (Nat.not_le.2 hroom), hvec', Bool.false_eq_true, if_false]
  exact (Query.start_next _ n t).symm

end

end

/-! ### Rounds (R273, R391) -/

/-- A query takes another round while it has not taken as many as it may. -/
theorem Query.rounds_left {x : Query} (h : x.hops ≠ 0 → x.rounds ≠ x.hops) : (x.hops != 0 && x.rounds == x.hops) = false := by
  simpa using h

section
variable {s : State} {n : Nat} {x : Query} (hx : amGet s.queries n = some x) (hruns : (!x.running || x.fin) = false)
include hx hruns

/-- The first round scores the entry points. -/
theorem queryRound_entries {t : State} {y : Query} (hvis : x.vis = [])
    (hscore : s.score { x with vis := ascend ((List.range x.nent).map x.entry).eraseDups } ((List.range x.nent).map x.entry).eraseDups =
      some (t, y)) : exec (.queryRound n) s = .next (t.setQuery y) := by
  change execQueryRound n s = _
  simp only [execQueryRound, hx, hruns, hvis, List.isEmpty_nil, hscore, Bool.false_eq_true, if_false, if_true]

section
variable (hvis : x.vis ≠ [])
include hvis

/-- A query with nothing left to expand ends. -/
theorem queryRound_over (hall : ∀ c ∈ x.cand, c.2.2 = true) : exec (.queryRound n) s = .next (s.queryEnd x 0) := by
  have hnone : (x.cand.find? fun c => !c.2.2) = none := List.find?_eq_none.2 fun c hc => by simp [hall c hc]
  change execQueryRound n s = _
  simp only [execQueryRound, hx, hruns, List.isEmpty_eq_false_iff.2 hvis, hnone, Bool.false_eq_true, if_false]

variable {c : BitVec 32 × Nat × Bool} (hc : (x.cand.find? fun c => !c.2.2) = some c)
include hc

/-- One that has taken its rounds ends with status 1. -/
theorem queryRound_hops (hhops : x.hops ≠ 0) (hrounds : x.rounds = x.hops) : exec (.queryRound n) s = .next (s.queryEnd x 1) := by
  have hlimit : (x.hops != 0 && x.rounds == x.hops) = true := by simpa [hrounds] using hhops
  change execQueryRound n s = _
  simp only [execQueryRound, hx, hruns, List.isEmpty_eq_false_iff.2 hvis, hc, hlimit, Bool.false_eq_true, if_false, if_true]

variable (hmore : x.hops ≠ 0 → x.rounds ≠ x.hops)
include hmore

/-- One whose next list cannot be read ends with status 3. -/
theorem queryRound_lost {e : Nat} {p : Bool} (hread : s.searchRead x true (x.listVa c.2.1) (4 * x.degree) = .bad e p) :
    exec (.queryRound n) s = .next (s.queryEnd x 3) := by
  change execQueryRound n s = _
  simp only [execQueryRound, hx, hruns, List.isEmpty_eq_false_iff.2 hvis, hc, Query.rounds_left hmore, hread, Bool.false_eq_true, if_false]

variable {t : State} {bs : List Byte} (hread : s.searchRead x true (x.listVa c.2.1) (4 * x.degree) = .ok t bs)
include hread

/-- One that would visit too many nodes ends with status 2. -/
theorem queryRound_full (hfull : 8192 < x.vis.length + (x.fresh bs).length) : exec (.queryRound n) s = .next (s.queryEnd x 2) := by
  change execQueryRound n s = _
  simp only [execQueryRound, hx, hruns, List.isEmpty_eq_false_iff.2 hvis, hc, Query.rounds_left hmore, hread, if_pos hfull,
    Bool.false_eq_true, if_false]

/-- Else the round expands its candidate and scores the nodes that its list brings. -/
theorem queryRound_expands {u : State} {z : Query} (hroom : x.vis.length + (x.fresh bs).length ≤ 8192)
    (hscore : t.score { x with
      vis := (x.fresh bs).foldl insNat x.vis
      cand := x.cand.map fun e => if e.2.1 == c.2.1 then (e.1, e.2.1, true) else e } (x.fresh bs) = some (u, z)) :
    exec (.queryRound n) s = .next ((u.setQuery { z with rounds := z.rounds + 1 }).count (roundCounter x.home) 1) := by
  change execQueryRound n s = _
  simp only [execQueryRound, hx, hruns, List.isEmpty_eq_false_iff.2 hvis, hc, Query.rounds_left hmore, hread, if_neg (Nat.not_lt.2 hroom), hscore,
    Bool.false_eq_true, if_false]

end

end

/-- A running query whose engine is lost starts again at the next stack. -/
theorem queryRestart_lost {s : State} {n : Nat} {x : Query} (hx : amGet s.queries n = some x) (hrun : x.running = true) (hfin : x.fin = false)
    (hlost : s.fenced x.home = true) : exec (.queryRestart n) s =
      .next (s.setQuery { x with home := s.nextStack x.part x.home, vis := [], cand := [], rounds := 0, flags := 0 }) := by
  change execQueryRestart n s = _
  rw [execQueryRestart, hx]
  exact if_pos (by rw [hrun, hfin, hlost]; rfl)

/-! ### Contributions (R279, R280, R321, R392) -/

section
variable {s : State} {n : Nat} {m : LandMsg} {l : Lake}

/-- An older contribution of a contribution's fibre, or a half of a sum, of the same element is under way. -/
def State.landBehind (s : State) (m : LandMsg) : Bool :=
  s.lands.any fun e => e.1 != m.id && !e.2.report && e.2.part == m.part && e.2.va == m.va &&
    ((e.1 < m.id && e.2.key == m.key) || e.2.late.isSome)

/-- A contribution is the next of its element where no older one of its fibre and no half of a sum of the element is under way. -/
theorem State.land_next (h : ∀ e ∈ s.lands, e.1 ≠ m.id → e.2.report = false → e.2.part = m.part → e.2.va = m.va →
      ¬(e.1 < m.id ∧ e.2.key = m.key) ∧ e.2.late = none) : s.landBehind m = false := by
  rw [State.landBehind, List.any_eq_false]
  intro e he hbehind
  simp only [Bool.and_eq_true, bne_iff_ne, Bool.not_eq_true', beq_iff_eq, Bool.or_eq_true, decide_eq_true_eq] at hbehind
  obtain ⟨⟨⟨⟨hid, hreport⟩, hpart⟩, hva⟩, hbehind⟩ := hbehind
  obtain ⟨hkey, hnone⟩ := h e he hid hreport hpart hva
  rcases hbehind with holder | hlate
  · exact hkey holder
  · rw [hnone] at hlate
    exact Bool.noConfusion hlate

/-- What a contribution comes to at its lake, whose page it reaches through a translation. -/
def State.landAt (s : State) (m : LandMsg) (l : Lake) (x : Xl) : State :=
  if !x.land then s.landCause m 0x70 1
  else if l.proxy then if l.ty != m.ty then s.landCause m 0x6B 255 else s.proxyAnswer m l landAnswers
  else match m.late with
    | some (carry, _) => s.landHigh m l x carry
    | none => if s.marked x.pa then s else s.landAdd m l x

section
variable {x : Xl}

theorem State.landAt_closed (hland : x.land = false) : s.landAt m l x = s.landCause m 0x70 1 := by
  rw [State.landAt, hland]
  rfl

variable (hland : x.land = true)
include hland

theorem State.landAt_proxy (hproxy : l.proxy = true) :
    s.landAt m l x = if l.ty = m.ty then s.proxyAnswer m l landAnswers else s.landCause m 0x6B 255 := by
  simp only [State.landAt, hland, hproxy, Bool.not_true, Bool.false_eq_true, if_false, if_true, bne_iff_ne, ite_not]

theorem State.landAt_adds (hproxy : l.proxy = false) (hlate : m.late = none) (hmarked : s.marked x.pa = false) :
    s.landAt m l x = s.landAdd m l x := by
  simp only [State.landAt, hland, hproxy, hlate, hmarked, Bool.not_true, Bool.false_eq_true, if_false]

theorem State.landAt_high {v : Word} {o : Bool} (hproxy : l.proxy = false) (hlate : m.late = some (v, o)) :
    s.landAt m l x = s.landHigh m l x v := by
  simp only [State.landAt, hland, hproxy, hlate, Bool.not_true, Bool.false_eq_true, if_false]

end

section
variable (hm : amGet s.lands n = some m) (hreport : m.report = false) (hnext : s.landBehind m = false)
  (hheld : s.heldAt (.land n) m.va = false)
include hm hreport hnext hheld

/-- A contribution outside every lake is answered with a cause. -/
theorem landContribution_outside (hl : (s.lakes.find? fun l => l.part == m.part && l.holds m.va && !l.gone) = none) :
    exec (.landContribution n) s = .next (s.landCause m 0x70 0) := by
  rw [State.landBehind] at hnext
  change execLandContribution n s = _
  simp only [execLandContribution, hm, hreport, hnext, hheld, hl, Bool.or_self, Bool.false_eq_true, if_false]

/-- One that has a translation reaches its lake. -/
theorem landContribution_reaches (hl : (s.lakes.find? fun l => l.part == m.part && l.holds m.va && !l.gone) = some l) {x : Xl}
    (hx : s.xlate (if m.abroad then 512 else m.core) m.part m.va true false = .ok x) :
    exec (.landContribution n) s = .next (s.landAt m l x) := by
  rw [State.landBehind] at hnext
  change execLandContribution n s = _
  simp only [execLandContribution, hm, hreport, hnext, hheld, hl, hx, Bool.or_self, Bool.false_eq_true, if_false, State.landAt]
  cases m.late <;> simp only [apply_ite Host.Outcome.next]

end

/-! ### Reports (R281, R392) -/

/-- An earlier contribution of a report's lot is under way, or another report of its lake completes a round. -/
def State.reportBehind (s : State) (m : LandMsg) : Bool :=
  (s.lands.any fun e => e.1 < m.id && !e.2.report && e.2.sender == m.sender) ||
    s.lands.any fun e => e.1 != m.id && e.2.report && e.2.part == m.part && e.2.va == m.va && e.2.late.isSome

/-- A report is the next where its lot's earlier contributions have reached their units and no other report of its lake completes a round. -/
theorem State.report_next (hsent : ∀ e ∈ s.lands, e.1 < m.id → e.2.report = false → e.2.sender ≠ m.sender)
    (hclosing : ∀ e ∈ s.lands, e.1 ≠ m.id → e.2.report = true → e.2.part = m.part → e.2.va = m.va → e.2.late = none) :
    s.reportBehind m = false := by
  simp only [State.reportBehind, Bool.or_eq_false_iff, List.any_eq_false, Bool.and_eq_true, bne_iff_ne, Bool.not_eq_true', beq_iff_eq,
    decide_eq_true_eq]
  refine ⟨fun e he ⟨⟨hid, hreport⟩, hsender⟩ => hsent e he hid hreport hsender,
    fun e he ⟨⟨⟨⟨hid, hreport⟩, hpart⟩, hva⟩, hlate⟩ => ?_⟩
  rw [hclosing e he hid hreport hpart hva] at hlate
  exact Bool.noConfusion hlate

/-- What a landing marks on its lake leaves the descriptor. -/
theorem State.received_desc (s : State) (m : LandMsg) (l : Lake) : (s.received m l).desc = l.desc := by
  unfold State.received
  exact (apply_ite Lake.desc _ _ _).trans (ite_self _)

/-- A report is counted in the descriptor, and waits for the held sums where it is the last of its round. -/
def State.reportCounted (s : State) (n : Nat) (m : LandMsg) (l : Lake) : State :=
  let t := s.putRound { s.received m l with used := true, reported := m.sender :: l.reported } (l.count + 1) l.round
  if l.count + 1 = l.expect then { t with lands := amPut t.lands n { m with late := some (0, false) } } else t.dropLand m

section
variable (hm : amGet s.lands n = some m) (hreport : m.report = true) (hnext : s.reportBehind m = false)
include hm hreport hnext

theorem landfReport_noLake (hl : (s.lakes.find? fun l => l.part == m.part && l.va == m.va && !l.gone) = none) :
    exec (.landfReport n) s = .next (s.landCause m 0x70 2) := by
  obtain ⟨holder, hclosing⟩ := Bool.or_eq_false_iff.1 hnext
  change execLandfReport n s = _
  simp only [execLandfReport, hm, hreport, holder, hclosing, Bool.not_true, Bool.or_self, hl, Bool.false_eq_true, if_false]

variable (hl : (s.lakes.find? fun l => l.part == m.part && l.va == m.va && !l.gone) = some l)
include hl

theorem landfReport_proxy (hproxy : l.proxy = true) : exec (.landfReport n) s = .next (s.proxyAnswer m l [(0, 0), (0x70, 2)]) := by
  obtain ⟨holder, hclosing⟩ := Bool.or_eq_false_iff.1 hnext
  change execLandfReport n s = _
  simp only [execLandfReport, hm, hreport, holder, hclosing, Bool.not_true, Bool.or_self, hl, hproxy, Bool.false_eq_true, if_false, if_true]

theorem landfReport_counts (hproxy : l.proxy = false) (hlate : m.late = none) :
    exec (.landfReport n) s = .next (s.reportCounted n m l) := by
  have hfields : ∀ lo k, Lake.fld { s.received m l with used := true, reported := m.sender :: l.reported } lo k = l.fld lo k :=
    fun lo k => congrArg (fun d : BitVec 512 => bitsOf d.toNat lo k) (s.received_desc m l)
  obtain ⟨holder, hclosing⟩ := Bool.or_eq_false_iff.1 hnext
  change execLandfReport n s = _
  simp only [execLandfReport, hm, hreport, holder, hclosing, Bool.not_true, Bool.or_self, hl, hproxy, hlate, Option.isSome_none,
    Lake.count, Lake.round, Lake.expect, hfields, State.reportCounted, beq_iff_eq, Bool.false_eq_true, if_false]

theorem landfReport_closes {v : Word × Bool} (hproxy : l.proxy = false) (hlate : m.late = some v) (hheld : s.heldAt (.land n) l.closeVa = false) :
    exec (.landfReport n) s = .next (s.closeRound m l) := by
  obtain ⟨holder, hclosing⟩ := Bool.or_eq_false_iff.1 hnext
  change execLandfReport n s = _
  simp only [execLandfReport, hm, hreport, holder, hclosing, Bool.not_true, Bool.or_self, hl, hproxy, hlate, hheld,
    Option.isSome_some, Bool.false_eq_true, if_false, if_true]

end

/-- A completing report performs a held sum of its round first. -/
theorem State.closeRound_held {v : Word × Bool} (hlate : m.late = some v) {h : Held} (hh : (l.held.find? fun h => h.round == l.round) = some h) :
    s.closeRound m l = State.addHeld { s with lands := amPut s.lands m.id { m with late := some (0, false) } } m l h.off v.2 := by
  simp only [State.closeRound, hh, hlate]
  rfl

/-- With no sum left, the round completes at its timeline block. -/
theorem State.closeRound_done {x : Xl} (hh : (l.held.find? fun h => h.round == l.round) = none) (hx : s.xlate 512 l.part l.tline true false = .ok x)
    (hwrite : s.writeCause l.part x.pa 16 = none) : s.closeRound m l = (s.dropLand m).roundDone l (some x.pa) := by
  simp only [State.closeRound, hh, hx, hwrite, Option.isSome_none, Bool.false_eq_true, if_false]

end

end Sys2Proof.Machine

open Sys2Proof Sys2Proof.Machine

/-- Settles O55: each event of a query and of a landing finds the query or landing that its conditions name, and does what that case says. That
landings of other modules and a proxy's answers are open is log entry 101, that a round's list and vectors and a query's results are one step each
entry 114, how contributions are held entry 61, that an 8-byte landing takes its high half last entry 99, and how a round moves VALUE entry 98. -/
theorem searchAndLandingEvents : Obligations.SearchAndLandingEvents := by
  unfold Obligations.SearchAndLandingEvents
  refine ⟨fun s n x hx => ⟨?accept, ?round, fun hrun hfin hlost => queryRestart_lost hx hrun hfin hlost⟩, fun s n hn => ?inbound,
    fun s n m hm => ⟨?contribution, ?report⟩⟩
  case accept =>
    intro hrun hfin hnext
    have hturn : (x.running || x.fin || s.queryBehind x) = false := by rw [hrun, hfin, hnext]; rfl
    refine ⟨queryAccept_first hx hturn, fun d hbad hd => ⟨fun e p hvec => queryAccept_vector hx hturn hbad hd hvec, fun t bs hvec => ?_⟩,
      fun h hgood hhome hroom => ⟨fun e p hvec => queryAccept_noVector hx hturn hgood hhome hroom hvec, fun t bs f hvec => ?_⟩⟩
    · have hfield := queryAccept_field hx hturn hbad hd hvec
      refine ⟨fun hd32 => by rw [hfield, if_pos hd32], fun b hd32 hb => ?_⟩
      rw [hfield, if_neg (Nat.not_le.2 hd32), show s.queryTlBad x.atCore = some b from hb]
    · have hstart := queryAccept_starts hx hturn hgood hhome hroom hvec
      exact ⟨fun hzero => hstart.trans (congrArg _ (Query.start_unnumbered (x := x.acceptedAt h bs f) hzero n t)),
        fun hne hlost => hstart.trans (congrArg _ (Query.start_lost (x := x.acceptedAt h bs f) hne hlost n)),
        fun u tl hne hkept hheld haccept => hstart.trans (congrArg _ (Query.start_numbered (x := x.acceptedAt h bs f) hne hkept hheld haccept))⟩
  case round =>
    intro hrun hfin
    have hruns : (!x.running || x.fin) = false := by rw [hrun, hfin]; rfl
    exact ⟨fun t y hvis hscore => queryRound_entries hx hruns hvis hscore, fun hvis hall => queryRound_over hx hruns hvis hall,
      fun c hvis hc => ⟨fun hhops hrounds => queryRound_hops hx hruns hvis hc hhops hrounds,
        fun e p hmore hread => queryRound_lost hx hruns hvis hc hmore hread,
        fun t bs hmore hread => ⟨fun hfull => queryRound_full hx hruns hvis hc hmore hread hfull,
          fun u z hroom hscore => queryRound_expands hx hruns hvis hc hmore hread hroom hscore⟩⟩⟩
  case inbound =>
    change execLandContribution n s = _
    rw [execLandContribution, hn]
  case contribution =>
    intro hreport hbefore hheld gives
    have hnext := State.land_next hbefore
    refine ⟨landContribution_outside hm hreport hnext hheld, fun l x hl hx => ?_⟩
    have hreach := landContribution_reaches hm hreport hnext hheld hl hx
    exact ⟨fun hland => hreach.trans (congrArg _ (State.landAt_closed hland)),
      fun hland hproxy => hreach.trans (congrArg _ (State.landAt_proxy hland hproxy)),
      fun hland hproxy hlate hmarked => hreach.trans (congrArg _ (State.landAt_adds hland hproxy hlate hmarked)),
      fun v o hland hproxy hlate => hreach.trans (congrArg _ (State.landAt_high hland hproxy hlate))⟩
  case report =>
    intro hreport hsent hclosing gives
    have hnext := State.report_next hsent hclosing
    refine ⟨landfReport_noLake hm hreport hnext, fun l hl => ⟨landfReport_proxy hm hreport hnext hl, landfReport_counts hm hreport hnext hl,
      fun v hproxy hlate hheld => ?_⟩⟩
    have hcloses := landfReport_closes hm hreport hnext hl hproxy hlate hheld
    exact ⟨fun h hh => hcloses.trans (congrArg _ (State.closeRound_held hlate hh)),
      fun x hh hx hwrite => hcloses.trans (congrArg _ (State.closeRound_done hh hx hwrite))⟩

end

section
/-! SUPPORT. MZERO, MLDA, MMA, MSTA, MCKPT and MBUD (R242, R250 to R258, R389): what a lot that stands alone brings into its matrix engine, and
the results that an issue leaves pending. -/

namespace Sys2Proof.Machine

/-- A lot that stands alone takes no result from a leading lot. -/
theorem Iss.orForward_alone {x : Iss} (h : x.lot.role = .single) (i : Instr) (p : Pending) (own : State) : x.orForward i p own = own := by
  rw [Iss.orForward, Iss.not_trailing h, Bool.false_and, if_neg Bool.false_ne_true]

/-- A pending result asks for its active lanes at its addresses. -/
theorem Iss.pending_asks (x : Iss) (i : Instr) (addr b c : Nat → DWord) (dsts : List Dst) :
    (x.pending i addr b c dsts).Asks x i addr dsts := by
  refine ⟨rfl, rfl, rfl, rfl, rfl, ?_, fun l hl => ?_⟩
  · simp [Iss.pending, Function.comp_def]
  · simp [Iss.pending, hl]

/-- It keeps its second operand lane by lane. -/
theorem Iss.pending_b (x : Iss) (i : Instr) (addr b c : Nat → DWord) (dsts : List Dst) {l : Nat} (hl : l < x.k.width) :
    (x.pending i addr b c dsts).b[l]? = some (b l) := by
  simp [Iss.pending, hl]

/-- The state in which a command with an active lane has entered the engine of its core (R241, R250). -/
def Iss.entered (x : Iss) (tile : Nat) (kind : MKind) : State :=
  (x.finish x.s (x.advance { x.k with seq := x.k.seq + 1 }) false).enterMtx x.c (x.mcmd tile kind)

/-- A command of a lot that stands alone enters the engine where a lane is active. -/
theorem Iss.enter_alone {x : Iss} {l : Nat} (hlow : x.low = some l) (hrole : x.lot.role = .single) (tile : Nat) (kind : MKind) :
    x.enter (x.mcmd tile kind) = x.entered tile kind := by
  rw [Iss.enter, Iss.act_of_low hlow, Iss.not_trailing hrole, Bool.or_false, if_neg Bool.false_ne_true, Iss.entered]

/-! ### MMA: the pages that its check reads (R389) -/

/-- The MMA with its operands as read. -/
def MmaX.command (m : MmaX) (v : MmaVals) : MKind := .mma ⟨m, m.km1.toNat + 1, v.baseA, v.baseB, v.strideA, v.strideB⟩

/-- The hit of an MMA whose operands fail their check (R389). -/
def Iss.operandHits (x : Iss) (m : MmaX) (v : MmaVals) : List Hit :=
  match x.mmaDetail m v with | some d => [⟨0x65, d, x.act, 0⟩] | none => []

theorem Iss.mmaCmd_of_translated {x : Iss} {m : MmaX} {v : MmaVals} (h : x.refused (MmaX.bases m v) = none) :
    x.mmaCmd m v = x.mcmd m.tile.toNat (MmaX.command m v) := by
  rw [Iss.mmaCmd, h, MmaX.command]

/-- An MMA with an active lane waits where a page that its check has to see is missing. -/
def Iss.mmaWaits (x : Iss) (m : MmaX) (v : MmaVals) : Bool := x.act != 0 && !(x.missing (MmaX.bases m v)).isEmpty

theorem Iss.mmaWaits_iff {x : Iss} {l : Nat} (hlow : x.low = some l) (m : MmaX) (v : MmaVals) :
    x.mmaWaits m v = true ↔ x.missing (MmaX.bases m v) ≠ [] := by
  rw [Iss.mmaWaits, bne, Iss.act_of_low hlow, Bool.not_false, Bool.true_and, Bool.not_eq_true', List.isEmpty_eq_false_iff]

/-- What an MMA comes to where it issues: with its operands `v`, it asks for its pages or enters the engine. -/
def Iss.mmaIssued (x : Iss) (m : MmaX) (v : MmaVals) : State :=
  if x.mmaWaits m v then x.asking (MmaX.bases m v) else x.enter (x.mmaCmd m v)

/-- One that waits meets no hit of its own; another meets that of its operands. -/
def Iss.mmaHits (x : Iss) (m : MmaX) (v : MmaVals) : List Hit :=
  if x.act == 0 || x.mmaWaits m v then [] else x.operandHits m v

theorem mma_issued {s : State} {x : Iss} {l : Nat} (hlow : x.low = some l) {c : Ctl} {m : MmaX} {a b : Opnd}
    (hx : Issues (.mma c m a b) s x false (x.mmaHits m (x.mmaVals a b l))) :
    exec (.mma c m a b) s = .next (x.after (.mma c m a b) (x.mmaIssued m (x.mmaVals a b l))) := by
  have hval : x.mmaVals a b (x.low.getD 0) = x.mmaVals a b l := by rw [hlow, Option.getD_some]
  rw [← hval] at hx ⊢
  exact exec_of_issue (own := Instr.hits (.mma c m a b)) rfl hx rfl

section
variable {x : Iss} {m : MmaX} {v : MmaVals} {l : Nat} (hlow : x.low = some l)
include hlow

/-- An MMA whose pages are all known enters the engine, unless its operands fail their check. -/
theorem Iss.mma_translated (hmissing : x.missing (MmaX.bases m v) = []) :
    x.mmaHits m v = x.operandHits m v ∧ x.mmaIssued m v = x.enter (x.mmaCmd m v) := by
  have hgoes : x.mmaWaits m v = false := Bool.eq_false_iff.2 fun h => (Iss.mmaWaits_iff hlow m v).1 h hmissing
  simp only [Iss.mmaHits, Iss.mmaIssued, hgoes, Iss.act_of_low hlow, Bool.or_false, Bool.false_eq_true, if_false, and_self]

/-- One with a page that is missing asks for its pages. -/
theorem Iss.mma_missing (hmissing : x.missing (MmaX.bases m v) ≠ []) :
    x.mmaHits m v = [] ∧ x.mmaIssued m v = x.asking (MmaX.bases m v) := by
  have hwaits : x.mmaWaits m v = true := (Iss.mmaWaits_iff hlow m v).2 hmissing
  simp only [Iss.mmaHits, Iss.mmaIssued, hwaits, Bool.or_true, if_true, and_self]

end

/-- What a lane of MCKPT reads (R257). -/
theorem State.performLane_mckpt {p : Pending} {c : Ctl} {tile : BitVec 2} {d a : Opnd} (h : p.i = .mckpt c tile d a) (t : State) (u q : Nat)
    (k : Skein) (l : Nat) :
    let v := (t.core u).ckpt tile.toNat (loOf ((p.b[l]?).getD 0)).toNat
    t.performLane u q k p l = .ok t [loOf v, hiOf v] 0 0 false := by
  rw [State.performLane, h]
  rfl

end Sys2Proof.Machine

open Sys2Proof Sys2Proof.Machine

/-- Settles O47: a command of a lot that stands alone enters its engine, for which an MMA waits where a page is missing (log entries 14 and 112);
the results of MSTA, MCKPT and MBUD are pending. That PKD with another TYPE fails the check of the operands is log entry 13. -/
theorem matrixCommands : Obligations.MatrixCommands := by
  unfold Obligations.MatrixCommands
  refine ⟨fun c int tile n m d a b r s x l hlow hrole => ?engine, fun c tile d a s x hrole => ⟨fun hx => ?mckpt,
    fun t u q l k p hp => State.performLane_mckpt hp t u q k l, fun hx => ?mbud, fun u t n => ⟨rfl, rfl⟩⟩⟩
  case engine =>
    intro enters v
    refine ⟨fun hx => ?mzero, fun hx => ?mlda, fun hmissing hrefused hx => ?mma, fun hmissing hx => ?asks, fun hx => ?msta⟩
    case mzero => exact exec_of_issue (own := fun _ => []) rfl hx (Iss.enter_alone hlow hrole _ _)
    case mlda =>
      refine exec_of_issue (own := Instr.hits (.mlda c int tile n (.vec r) b)) rfl hx ?_
      rw [hlow]
      exact Iss.enter_alone hlow hrole _ _
    case mma =>
      obtain ⟨hhits, hissued⟩ := Iss.mma_translated hlow hmissing
      rw [mma_issued hlow (hhits ▸ hx), hissued, Iss.mmaCmd_of_translated hrefused, Iss.enter_alone hlow hrole]
      rfl
    case asks =>
      obtain ⟨hhits, hissued⟩ := Iss.mma_missing hlow hmissing
      rw [mma_issued hlow (hhits ▸ hx), hissued]
    case msta =>
      refine ⟨_, Iss.pending_asks x _ _ zeroLane zeroLane _,
        exec_of_issue (own := Instr.hits (.msta c tile n d a)) rfl hx ((Iss.orForward_alone hrole _ _ _).trans ?_)⟩
      rw [Iss.act_of_low hlow, if_neg Bool.false_ne_true, hlow]
      rfl
  case mckpt =>
    exact ⟨_, Iss.pending_asks x _ _ (x.opA a false) zeroLane _, fun l hl => Iss.pending_b x _ _ _ _ _ hl,
      exec_of_issue (own := Instr.hits (.mckpt c tile d a)) rfl hx (Iss.orForward_alone hrole _ _ _)⟩
  case mbud =>
    refine ⟨x.known _ (x.longWrites true (x.dstOf d) x.act _) 0, x.k, Iss.known_holds _ rfl (x.longWrites_carries true d x.act fun _ _ _ => rfl),
      rfl, rfl, rfl, exec_of_issue (own := fun _ => []) rfl hx (Iss.orForward_alone hrole _ _ _)⟩

end

section
/-! SUPPORT. Events of a matrix engine (R240, R241, R247 to R249, R252 to R255): what each comes to for the command that it names or the MMA in
flight, and what a refill leaves of a core's budget. -/

namespace Sys2Proof.Machine

/-! ### Tile commands and first fetches (R247, R249, R252 to R254) -/

/-- What an eligible tile command does as it finishes; an MMA is none. -/
def State.ranTile (s : State) (c : Nat) (m : MCmd) : State :=
  match m.kind with
  | .zero int => (s.setTile c m.tile (zeroTile int)).dropCmd c m
  | .lda int f n act vals => (s.setTile c m.tile (((s.core c).tile m.tile).load int f n act vals).mark).dropCmd c m
  | .sta f n act seq => s.storeTile c m f n act seq
  | .mma _ => s

/-- What the capture of a piece of k-step 0 leaves: the estimate of a head that cannot fetch, or that the mode of its tile refuses, is 0; that of
another is known with its last piece. -/
def State.firstFetched (u : State) (c : Nat) (tile : Tile) (m : MCmd) : State :=
  if m.bad.isSome then u.setEst c m 0
  else if m.rowsA.isEmpty then u.setCmd c m
  else u.setEst c m (if modeBad tile m.fmt then 0 else toggle m.rowsA m.rowsB)

theorem MCmd.mma?_of_kind {m : MCmd} {a : Mma} (h : m.kind = .mma a) : m.mma? = some a := by rw [MCmd.mma?, h]

section
variable {s : State} {c e : Nat} {m : MCmd} (hcmd : (s.core c).cmd e = some m) (hel : (s.core c).eligible m = true)
include hcmd hel

theorem tileCommandRun_eligible : exec (.tileCommandRun c e) s = .next (s.ranTile c m) := by
  change execTileCommandRun c e s = _
  simp only [execTileCommandRun, State.ranTile, hcmd, hel, Bool.not_true, Bool.false_eq_true, if_false]
  cases m.kind <;> rfl

theorem mmaFirstFetch_captures {a : Mma} {t : State} {m' : MCmd} (hkind : m.kind = .mma a) (hest : m.est = none) (hbad : m.bad = none)
    (hquiet : s.skeinQuiet c m.slot m.order m.info.hb = true) (hbehind : s.fetchBehind c m = false)
    (hcapture : s.captureStep c m a 0 = some (t, m')) :
    exec (.mmaFirstFetch c e) s = .next ((t.shareFetch c 0 m m').firstFetched c ((s.core c).tile m.tile) m') := by
  change execMmaFirstFetch c e s = _
  simp only [execMmaFirstFetch, State.firstFetched, hcmd, MCmd.mma?_of_kind hkind, hest, hbad, hel, hquiet, hbehind, hcapture,
    Option.isSome_none, Bool.not_true, Bool.or_self, Bool.false_eq_true, if_false, apply_ite (State.setEst _ c m')]

end

section
variable {u : State} {c : Nat} {tile : Tile} {m : MCmd}

theorem State.firstFetched_refused (hbad : m.bad ≠ none) : u.firstFetched c tile m = u.setEst c m 0 :=
  if_pos (Option.isSome_iff_ne_none.2 hbad)

theorem State.firstFetched_piece (hbad : m.bad = none) (hrows : m.rowsA = []) : u.firstFetched c tile m = u.setCmd c m := by
  rw [State.firstFetched, hbad, hrows, Option.isSome_none, if_neg Bool.false_ne_true, List.isEmpty_nil, if_pos rfl]

theorem State.firstFetched_whole (hbad : m.bad = none) (hrows : m.rowsA ≠ []) :
    u.firstFetched c tile m = u.setEst c m (if modeBad tile m.fmt then 0 else toggle m.rowsA m.rowsB) := by
  rw [State.firstFetched, hbad, Option.isSome_none, if_neg Bool.false_ne_true, if_neg (by simpa using hrows)]

end

/-! ### The run of an MMA (R240, R248, R249, R255) -/

/-- LAST takes a known estimate (R258). -/
def State.setLast (t : State) (c : Nat) : Option Nat → State
  | some n => t.updCore c fun k => { k with lastT := n }
  | none => t

section
variable {s : State} {c : Nat} {m : MCmd} {a : Mma} (hkind : m.kind = .mma a)
include hkind

theorem mmaStart_chosen (hidle : ((s.refillCore c).core c).running = none) (hchoose : ((s.refillCore c).core c).choose = some m)
    (hbad : m.bad = none)
    (hmode : modeBad (((s.refillCore c).core c).tile m.tile) (if m.fmt != 0 then m.fmt else (Fmt.code a.x.t).toNat) = false) :
    exec (.mmaStart c) s = .next (((((s.refillCore c).setCmd c { m with started := true }).setTile c m.tile
      { ((s.refillCore c).core c).tile m.tile with ktot := a.k, kdone := 0 }).setLast c m.est).awaitBudget c) := by
  change execMmaStart c s = _
  simp only [execMmaStart, hidle, hchoose, MCmd.mma?_of_kind hkind, hmode, hbad, Bool.false_eq_true, if_false]
  cases m.est <;> rfl

section
variable {n : Nat} (hrun : ((s.refillCore c).core c).running = some m) (hbad : m.bad = none) (hcharged : m.charged = false)
  (hstop : m.stopReq = false) (hleft : (((s.refillCore c).core c).tile m.tile).kdone < a.k)
  (hmode : modeBad (((s.refillCore c).core c).tile m.tile) m.fmt = false) (hest : m.est = some n)
include hrun hbad hcharged hstop hleft hmode hest

/-- With its operands read, the k-step takes its charge, or waits for budget. -/
theorem kstepCharge_whole (hrows : m.rowsA ≠ []) : exec (.kstepCharge c) s = .next (if n ≤ ((s.refillCore c).core c).level
    then ((s.refillCore c).setCmd c { m with charged := true, shortSince := none }).updCore c fun k => { k with level := k.level - n }
    else (s.refillCore c).awaitBudget c) := by
  change execKstepCharge c s = _
  simp only [execKstepCharge, hrun, MCmd.mma?_of_kind hkind, hbad, hcharged, hstop, hmode, hest, decide_eq_false (Nat.not_le.2 hleft), Bool.or_self,
    List.isEmpty_iff, hrows, Bool.false_eq_true, if_false]
  split <;> rfl

/-- Until then it reads another piece of them. -/
theorem kstepCharge_piece {t : State} {m' : MCmd} (hrows : m.rowsA = [])
    (hcapture : (s.refillCore c).captureStep c m a (((s.refillCore c).core c).tile m.tile).kdone = some (t, m')) (hgood : m'.bad = none) :
    exec (.kstepCharge c) s =
      .next (((t.shareFetch c (((s.refillCore c).core c).tile m.tile).kdone m m').setCmd c m').awaitBudget c) := by
  change execKstepCharge c s = _
  simp only [execKstepCharge, hrun, MCmd.mma?_of_kind hkind, hbad, hcharged, hstop, hmode, hest, decide_eq_false (Nat.not_le.2 hleft), Bool.or_self,
    List.isEmpty_iff, hrows, hcapture, hgood, Bool.false_eq_true, if_false, if_true]

end

section
variable (hrun : (s.core c).running = some m) (hcharged : m.charged = true)
include hrun hcharged

theorem mmaArrive_last (hlast : ((s.core c).tile m.tile).kdone + 1 = a.k) : exec (.mmaArrive c) s = .next (s.mmaArriveAt c m) := by
  change execMmaArrive c s = _
  simp only [execMmaArrive, hrun, MCmd.mma?_of_kind hkind, hcharged, hlast, BEq.rfl, Bool.and_self, if_true]

/-- A charged k-step updates its tile, the last one of an MMA only behind its arrival. -/
theorem kstepComplete_charged
    (harrived : ((s.core c).tile m.tile).kdone + 1 = a.k → a.x.bobj.isSome = true → m.arrived = true) :
    exec (.kstepComplete c) s = .next (if ((s.core c).tile m.tile).kdone + 1 = a.k
      then (s.setTile c m.tile (((s.core c).tile m.tile).kstep m).mark).dropCmd c m
      else (s.setTile c m.tile (((s.core c).tile m.tile).kstep m).mark).setCmd c
        { m with charged := false, rowsA := [], rowsB := [], started := !m.stopReq }) := by
  have hgoes : (((s.core c).tile m.tile).kdone + 1 == a.k && a.x.bobj.isSome && !m.arrived) = false := by
    simpa [imp_iff_not_or, or_assoc] using harrived
  change execKstepComplete c s = _
  simp only [execKstepComplete, hrun, MCmd.mma?_of_kind hkind, hcharged, hgoes, Bool.not_true, Bool.or_self, Bool.false_eq_true, if_false, beq_iff_eq]

end
end

/-! ### The budget (R248, R330) -/

section
variable {s : State} {c : Nat} {m : MCmd} {n : Nat} (hrun : (s.core c).running = some m) (hest : m.est = some n)
include hrun hest

/-- A k-step that has its operands and finds its charge above LEVEL waits from now, unless it waits already. -/
theorem State.awaitBudget_short (hcharged : m.charged = false) (hrows : m.rowsA ≠ []) (hshort : (s.core c).level < n) :
    s.awaitBudget c = if m.shortSince.isNone then s.setCmd c { m with shortSince := some s.tick } else s := by
  simp only [State.awaitBudget, hrun, hest, hcharged, List.isEmpty_eq_false_iff.2 hrows, decide_eq_true hshort, Bool.not_false, Bool.and_true]

theorem State.countStall_waiting {t : Nat} (hshort : m.shortSince = some t) :
    let stop := (s.core c).budgetAt (s.rate (s.partOfDie (c / 64))) n s.tick
    s.countStall c = (s.count (coreCounter c 3) (stop - t)).setCmd c
      { m with shortSince := if stop < s.tick then none else some s.tick } := by
  simp only [State.countStall, hrun, hest, hshort]

end

/-- Counting the clocks of a wait leaves the budget as it is. -/
theorem State.countStall_budget (s : State) (c : Nat) :
    ((s.countStall c).core c).level = (s.core c).level ∧ ((s.countStall c).core c).refilled = (s.core c).refilled := by
  unfold State.countStall
  dsimp only
  split
  · split
    · rw [State.setCmd, State.core_updCore]
      exact ⟨rfl, rfl⟩
    · exact ⟨rfl, rfl⟩
  · exact ⟨rfl, rfl⟩

/-- The refills that have come due raise LEVEL up to its cap. -/
theorem State.refillCore_budget (s : State) (c : Nat) :
    ((s.refillCore c).core c).level =
      min 16320 ((s.core c).level + s.rate (s.partOfDie (c / 64)) * (s.tick / 512 - (s.core c).refilled)) ∧
    ((s.refillCore c).core c).refilled = max (s.core c).refilled (s.tick / 512) := by
  obtain ⟨hlevel, hrefilled⟩ := s.countStall_budget c
  rw [State.refillCore, State.core_updCore, ← hlevel, ← hrefilled]
  exact ⟨rfl, rfl⟩

end Sys2Proof.Machine

open Sys2Proof Sys2Proof.Machine

/-- Settles O54: each event finds the command that its conditions name, and does what that case says. The order in which operand bytes are read is
log entry 60, which fetches are shared entry 100, and from when the clocks of a wait for budget count entry 57. -/
theorem matrixEvents : Obligations.MatrixEvents := by
  unfold Obligations.MatrixEvents
  refine ⟨fun s c e m hcmd hel => ?commands, fun s c m a hkind => ?run, fun s c hdue => ?refill⟩
  case commands =>
    intro tile
    have hruns := tileCommandRun_eligible hcmd hel
    refine ⟨fun int hkind => by rw [hruns, State.ranTile, hkind], fun int f n act vals hkind => by rw [hruns, State.ranTile, hkind],
      fun f n act seq hkind => by rw [hruns, State.ranTile, hkind], fun a t m' hkind hest hbad hquiet hbehind hcapture => ?_⟩
    have hfetch := mmaFirstFetch_captures hcmd hel hkind hest hbad hquiet hbehind hcapture
    exact ⟨fun hrefused => hfetch.trans (congrArg _ (State.firstFetched_refused hrefused)),
      fun hgood hrows => hfetch.trans (congrArg _ (State.firstFetched_piece hgood hrows)),
      fun hgood hrows => hfetch.trans (congrArg _ (State.firstFetched_whole hgood hrows))⟩
  case run =>
    intro r tile
    refine ⟨fun hidle hchoose hbad hmode => ?start, fun n hrun hbad hcharged hstop hleft hmode hest => ⟨fun hrows => ?charge,
      fun t m' hrows hcapture hgood => kstepCharge_piece hkind hrun hbad hcharged hstop hleft hmode hest hrows hcapture hgood⟩,
      fun n t hrun hest hshort => State.countStall_waiting hrun hest hshort,
      fun hrun hcharged hlast => mmaArrive_last hkind hrun hcharged hlast,
      fun hrun hcharged harrived => kstepComplete_charged hkind hrun hcharged harrived⟩
    case start =>
      refine (mmaStart_chosen hkind hidle hchoose hbad hmode).trans ?_
      cases m.est <;> rfl
    case charge =>
      rw [kstepCharge_whole hkind hrun hbad hcharged hstop hleft hmode hest hrows]
      split
      · rfl
      · rename_i hshort
        rw [State.awaitBudget_short hrun hest hcharged hrows (Nat.not_le.1 hshort)]
        cases m.shortSince <;> rfl
  case refill =>
    have hrefill : exec (.budgetRefill c) s = .next (s.refillCore c) := congrArg _ (if_pos hdue)
    obtain ⟨hlevel, hrefilled⟩ := s.refillCore_budget c
    exact ⟨_, hrefill, hlevel, hrefilled.trans (max_eq_right hdue.le)⟩

end

section
/-! SUPPORT. Words that are no instruction (R346, R353, R354), the module after reset (R317), the step of a device event or of an input, and
what every instruction and every event answers (log entries 1 and 3). -/

namespace Sys2Proof

/-! ### Words that no opcode row assigns -/

/-- The opcode of three words is that of the first, whose code for the optional word is no opcode. -/
theorem unpack_opc_isPfx (p : Option PFields) (w0 w1 w2 : Word) : ((unpack p (words96 w0 w1 w2)).opc == 0xFE) = isPfxWord w0 := by
  have hopc : (words96 w0 w1 w2).extractLsb' 0 8 = w0.extractLsb' 0 8 := part_low (by decide) (part_low (by decide) rfl)
  rw [isPfxWord, ← hopc]
  rfl

theorem decodeFields_bad {f : Fields} {code d : Nat} (n : Nat) (h : firstCause none f = some (code, d)) :
    decodeFields f n = .bad code d f n := by
  rw [decodeFields, h]

theorem firstCause_unassigned {f : Fields} (hopc : (f.opc == 0xFE) = false) (hform : formOf f = none) :
    firstCause none f = some (0x01, 255) := by
  rw [firstCause, hopc, if_neg Bool.false_ne_true, hform]

/-- An optional word before another is a misplaced one, unless its reserved bits are set: that comes before (R346). -/
theorem firstCause_twoPrefixes {f : Fields} {p : PFields} (hopc : (f.opc == 0xFE) = true) (hpfx : f.pfx = some p) :
    firstCause none f = if p.resv == 0 then some (0x05, 96) else some (0x03, 122) := by
  rw [firstCause, hopc, if_pos rfl, hpfx]

end Sys2Proof

namespace Sys2Proof.Machine

/-! ### The module after reset -/

/-- A hub register that nothing has written reads its reset value. -/
theorem State.reset_rd (off : Nat) : State.reset.rd off = hubReset (off / 8 * 8) := rfl

/-- Every word of a partition block is 0 after reset (R317). -/
theorem State.reset_rd_partBlock (p : Nat) {n : Nat} (h : n < 16) : State.reset.rd (partBlock p + 8 * n) = 0 := by
  have hp := Nat.mod_lt p (show 0 < 8 by decide)
  rw [State.reset_rd, show (partBlock p + 8 * n) / 8 * 8 = partBlock p + 8 * n by unfold partBlock; omega]
  unfold hubReset partBlock hub1
  simp only [Bool.and_eq_true, Bool.or_eq_true, decide_eq_true_eq]
  rw [if_neg (by omega), if_neg (by omega), if_neg (by omega), if_neg (by omega)]

theorem State.reset_partOn (p : Nat) : State.reset.partOn p = false := by
  unfold State.partOn State.fld
  rw [show State.reset.rd (partBlock p) = 0 from State.reset_rd_partBlock p (n := 0) (by decide)]
  decide

theorem State.reset_scratchOk : State.reset.ScratchOk := fun _ => rfl

/-! ### The step of an event or an input -/

theorem step_of_grant_event {s : State} {e : Instr} (hgrant : s.grant = .event e) (hruns : s.stopped = false) (hext : isExternal e = false)
    (hevent : e.isIsa = false) (hok : eventOk e = true) : step s = finishStep (exec e (s.roused e)) := by
  have hnone : e.toFields.isNone = true := Option.isSome_eq_false_iff.1 hevent
  simp [step, hgrant, hruns, hext, hnone, hok]

theorem step_of_grant_input {s : State} {e : Instr} {es : List Instr} (hgrant : s.grant = .input) (hruns : s.stopped = false)
    (hinputs : s.inputs = e :: es) (hext : isExternal e = true) (hok : eventOk e = true) :
    step s = finishStep (exec e ({ s with inputs := es } : State).rouse) := by
  simp [step, hgrant, hruns, hinputs, hext, hok]

/-! ### Every meaning answers a next state -/

/-- A command of a ring answers a next state, whether it is the one that the ring's head names or not. -/
theorem State.command_answers (s : State) (part op : Nat) (f : State) : ∃ t, s.command part op f = .next t := by
  unfold State.command
  split
  · exact ⟨f, rfl⟩
  · exact ⟨s, rfl⟩

/-- A device event ends in a next state on each of its paths: where its condition fails, in the state as it was. -/
theorem exec_event_answers {i : Instr} (h : i.isIsa = false) (s : State) : ∃ t, exec i s = .next t := by
  cases i with
  -- One path only.
  | stallExpiry | allocationClear | monitorTrigger | walkComplete | faultBufferRetry | faultRetryAll | faultReplyNone | linkDown |
    completionTimeout | lateCompletion | linkRetrain | linkTrained | windowMisuse | budgetRefill | fabricLost | chunkReport | resumeLot
    | pkgWrite | snapshotPageCopy | tickStop | moduleReset | fxLinkTrained | selfTestComplete => exact ⟨_, rfl⟩
  | invalidateTranslations | registerLake | unregisterLake | registerPodTimeline | uploadCodeObject | unloadCodeObject | setBreakpoint |
    clearBreakpoint | replaceFirmware | recalibrateStack | fenceDie => exact s.command_answers ..
  -- Conditions before the change.
  | regrpShuffleDone | barrierRelease | longLatencyReturn | issueSlotSwitch | releaseWaitDone | carveOutHandover | storeAck | faultRetry
    | faultRefuse | faultWatchdog | waitTimeout | trapDeliver | hostBar2Access | windowPostedWrite | frameMark | copyStart |
    copyBytesPerformed | copyComplete | copyPageCheck | mmaStart | mmaFirstFetch | kstepCharge | kstepComplete | mmaArrive |
    tileCommandRun | queryAccept | queryRound | queryRestart | landContribution | landfReport | podTimelineAdvance | queueTailWrite |
    spawnPush | recordAccept | headReevaluate | launchStart | ageingStep | lotDispatch | chunkRequest | lotFirstIssue | lotRetire |
    launchComplete | mordantDecide | drainDeadline | flushLot | saveRequest | saveComplete | partitionEnable | partitionReset |
    badCommand | pcSample | memorySample | schedStateRecovery | dieFenceByDevice | rollback | redundantCompare | injectionFlip |
    dumpWrite | registerWrite | softError | instructionFetch =>
    simp only [exec, execRegrpShuffleDone, execBarrierRelease, execLongLatencyReturn, execIssueSlotSwitch, execReleaseWaitDone,
        execCarveOutHandover, execStoreAck, execFaultRetry, execFaultRefuse, execFaultWatchdog, execWaitTimeout, execTrapDeliver,
        execHostBar2Access, execWindowPostedWrite, execFrameMark, execCopyStart, execCopyBytesPerformed, execCopyComplete,
        execCopyPageCheck, execMmaStart, execMmaFirstFetch, execKstepCharge, execKstepComplete, execMmaArrive, execTileCommandRun,
        execQueryAccept, execQueryRound, execQueryRestart, execLandContribution, execLandfReport, execPodTimelineAdvance,
        execQueueTailWrite, execSpawnPush, execRecordAccept, execHeadReevaluate, execLaunchStart, execAgeingStep, execLotDispatch,
        execChunkRequest, execLotFirstIssue, execLotRetire, execLaunchComplete, execMordantDecide, execDrainDeadline, execFlushLot,
        execSaveRequest, execSaveComplete, execPartitionEnable, execPartitionReset, execBadCommand, execPcSample, execMemorySample,
        execSchedStateRecovery, execDieFenceByDevice, execRollback, execRedundantCompare, execInjectionFlip, execDumpWrite,
        execRegisterWrite, execSoftError, execInstructionFetch]
    repeat' split
    all_goals exact ⟨_, rfl⟩
  -- The instructions of level OVB-1 have an encoding.
  | bsinit _ _ _ w => cases w <;> cases h
  | _ => cases h

end Sys2Proof.Machine

open Sys2Proof Sys2Proof.Machine

/-- Settles O9: the fields that reset leaves empty, and the reset value of each word of a partition block. -/
theorem resetState : Obligations.ResetState := by
  unfold Obligations.ResetState
  exact ⟨⟨rfl, rfl⟩, State.reset_scratchOk, rfl, rfl, rfl, rfl, rfl, rfl, rfl, rfl, rfl,
    fun p _ => ⟨State.reset_partOn p, fun _ hn => State.reset_rd_partBlock p hn⟩⟩

/-- Settles O11: the agent that the grant names is served, by the event itself or by the oldest input. -/
theorem stepRunsEvents : Obligations.StepRunsEvents := by
  unfold Obligations.StepRunsEvents
  intro s e hruns hevent hok
  exact ⟨fun hgrant hext => step_of_grant_event hgrant hruns hext hevent hok,
    fun es hgrant hinputs hext => step_of_grant_input hgrant hruns hinputs hext hok⟩

/-- Settles O4: the first cause of the fields is that of the opcode, or of the second optional word. -/
theorem unassignedOpcodes : Obligations.UnassignedOpcodes := by
  unfold Obligations.UnassignedOpcodes
  intro w0 w1 w2 w3
  refine ⟨fun hfirst hform => ?unassigned, fun hfirst hsecond hresv => ?misplaced, fun hfirst hsecond hresv => ?reserved⟩
  case unassigned =>
    have hcause := firstCause_unassigned ((unpack_opc_isPfx none w0 w1 w2).trans hfirst) hform
    simp only [decodeWords, hfirst, Bool.false_eq_true, if_false, decodeFields_bad 12 hcause]
  all_goals
    have hcause := firstCause_twoPrefixes (p := unpackPfx w0) ((unpack_opc_isPfx (some (unpackPfx w0)) w1 w2 w3).trans hsecond) rfl
  case misplaced =>
    rw [decodeWords, if_pos hfirst, decodeFields_bad 16 (hcause.trans (if_pos (beq_iff_eq.2 hresv)))]
  case reserved =>
    rw [decodeWords, if_pos hfirst, decodeFields_bad 16 (hcause.trans (if_neg fun h => hresv (beq_iff_eq.1 h)))]

/-- Settles O12: an instruction is answered by the frame in which it issues, an event by its own meaning. -/
theorem execAnswers : Obligations.ExecAnswers := by
  unfold Obligations.ExecAnswers
  intro i s hissue
  cases hisa : i.isIsa with
  | true =>
    obtain ⟨eff, hexec⟩ := exec_issue hisa
    obtain ⟨x, hx⟩ := Option.isSome_iff_exists.1 (hissue hisa)
    rw [hexec s]
    exact issue_some hx ..
  | false => exact exec_event_answers hisa s

end

section
/-! SUPPORT. A precise cause (R345, R347, R418): what its raising leaves while its delivery waits, and what is delivered where nothing waits. -/

namespace Sys2Proof.Machine

/-! ### Skeins put in their slots -/

@[simp] theorem amPut_amPut {β : Type} (m : AMap β) (a : Nat) (v w : β) : amPut (amPut m a v) a w = amPut m a w := by
  induction m with
  | nil => simp [amPut]
  | cons e m ih =>
    obtain ⟨k, u⟩ := e
    by_cases hlt : k < a
    · simp [amPut, hlt, ih]
    · by_cases heq : k = a
      · simp [amPut, heq]
      · simp [amPut, hlt, heq]

@[simp] theorem State.setSkein_setSkein (s : State) (c q : Nat) (k k' : Skein) :
    (s.setSkein c q k).setSkein c q k' = s.setSkein c q k' := by
  simp [State.setSkein]

@[simp] theorem State.dropLatch_nil (s : State) (c q : Nat) : s.dropLatch c q [] = s := rfl

theorem Skein.returning_nil {k : Skein} (h : k.pend = []) : k.returning = [] := by simp [Skein.returning, h]

theorem Skein.commit_nil {k : Skein} (h : k.pend = []) : k.commit = { k with pend := [], llCount := 0 } := by simp [Skein.commit, h]

/-! ### The boundary of a skein that has parked with a cause -/

/-- No delivery happens while a store of the core to the frame is still to be performed (R418). -/
theorem State.boundary_frameBusy {s : State} {c q : Nat} {k : Skein} {z : Cause} (hk : s.skein c q = some k)
    (hpark : k.park = some (.raise z)) (hbusy : s.frameBusy c q k false = true) : s.boundary c q = s := by
  simp only [State.boundary, hk, hpark, hbusy, Bool.or_true, Bool.and_true, Bool.not_true, Bool.and_false, Bool.false_eq_true, if_false]

/-- The cause for which the skein parked is delivered where no result is pending and no deferred cause waits before it. -/
theorem State.boundary_raise {s : State} {c q : Nat} {k : Skein} {z : Cause} (hk : s.skein c q = some k) (hpark : k.park = some (.raise z))
    (hpend : k.pend = []) (hdeferred : k.deferred = []) (hfree : s.frameBusy c q k false = false) :
    s.boundary c q = (s.setSkein c q { k with llCount := 0, park := none, forced := false }).deliver c q z [] := by
  have hcommit : ({ k.commit with deferred := [], park := none, forced := false } : Skein) =
      { k with llCount := 0, park := none, forced := false } := by rw [k.commit_nil hpend, ← hpend, ← hdeferred]
  simp only [State.boundary, hk, hpark, hfree, Bool.and_false, Bool.not_false, Bool.and_true, k.returning_nil hpend, State.dropLatch_nil,
    hcommit]
  simp [hpend, hdeferred]

/-! ### The raising of a cause -/

/-- The skein as it parks with a cause. -/
def Iss.parked (x : Iss) (h : Hit) : Skein := { x.k with park := some (.raise (x.causeOf h)), relWait := none }

/-- Where its launch logs no comparison points, the skein parks, and its boundary follows at once if no result is pending. -/
theorem Iss.raise_unlogged {x : Iss} (hlog : x.logging = false) (h : Hit) :
    x.raise h = if x.k.pend.isEmpty then (x.s.setSkein x.c x.q (x.parked h)).boundary x.c x.q else x.s.setSkein x.c x.q (x.parked h) := by
  have hdiverged : x.diverged = false := by simp [Iss.diverged, hlog]
  have hlogged : x.logged x.s = x.s := by simp [Iss.logged, hlog]
  simp only [Iss.raise, hdiverged, hlogged, Bool.and_false, Bool.false_eq_true, if_false, ite_self]
  rfl

section
variable {x : Iss} (hlog : x.logging = false) (h : Hit)
include hlog

theorem Iss.raise_pending (hpend : x.k.pend ≠ []) : x.raise h = x.s.setSkein x.c x.q (x.parked h) := by
  rw [Iss.raise_unlogged hlog, if_neg (by simpa using hpend)]

theorem Iss.raise_frameBusy (hbusy : (x.s.setSkein x.c x.q (x.parked h)).frameBusy x.c x.q (x.parked h) false = true) :
    x.raise h = x.s.setSkein x.c x.q (x.parked h) := by
  rw [Iss.raise_unlogged hlog, State.boundary_frameBusy (State.skein_setSkein ..) rfl hbusy, ite_self]

theorem Iss.raise_delivers (hpend : x.k.pend = []) (hdeferred : x.k.deferred = [])
    (hfree : (x.s.setSkein x.c x.q (x.parked h)).frameBusy x.c x.q (x.parked h) false = false) :
    x.raise h = (x.s.setSkein x.c x.q { x.k with llCount := 0, park := none, forced := false, relWait := none }).deliver x.c x.q
      (x.causeOf h) [] := by
  have hboundary := State.boundary_raise (k := x.parked h) (State.skein_setSkein ..) rfl hpend hdeferred hfree
  rw [Iss.raise_unlogged hlog, if_pos (List.isEmpty_iff.2 hpend), hboundary, State.setSkein_setSkein]
  rfl

end

/-- What a skein issues has an encoding. -/
theorem mkIss_isIsa {i : Instr} {s : State} {x : Iss} (h : mkIss i s = some x) : i.isIsa = true := by
  obtain ⟨-, -, -, hfields, -⟩ := mkIss_eq h
  exact Option.isSome_iff_exists.2 ⟨_, hfields⟩

/-- Whatever its effect, an instruction that meets a precise cause raises it. -/
theorem exec_raise {i : Instr} {s : State} {x : Iss} {h : Hit} (hsees : mkIss i s = some x) (hfree : x.mustCompare i = false)
    (hcause : x.cause (Instr.long i) (Instr.hits i x) = some h) : exec i s = .next (x.raise h) := by
  obtain ⟨eff, hexec⟩ := exec_issue (mkIss_isIsa hsees)
  exact (hexec s).trans (issue_raise hsees hfree hcause)

end Sys2Proof.Machine

open Sys2Proof Sys2Proof.Machine

/-- Settles O14: the effect is not reached, the skein parks with the cause, and the boundary that follows where nothing is pending delivers
it. -/
theorem preciseCause : Obligations.PreciseCause := by
  unfold Obligations.PreciseCause
  intro i s x h hsees hfree hcause
  obtain rfl := mkIss_state hsees
  refine ⟨exec_raise hsees hfree hcause, fun hlog => ⟨?waits, Iss.raise_delivers hlog h⟩⟩
  rintro (hpend | ⟨-, hbusy⟩)
  · exact Iss.raise_pending hlog h hpend
  · exact Iss.raise_frameBusy hlog h hbusy

end

section
/-! SUPPORT. Delivery of a cause (R347 to R349): the bytes of a frame, the write of a frame and what it leaves of the skeins, and the skein as
it enters its handler. -/

namespace Sys2Proof.Machine

/-! ### Numbers among bytes -/

theorem leBytes_add (x m n : Nat) : leBytes x (m + n) = leBytes x m ++ leBytes (x / 256 ^ m) n := by
  induction m generalizing x with
  | zero => simp [leBytes]
  | succ m ih => rw [Nat.add_right_comm, leBytes, leBytes, ih, Nat.div_div_eq_div_mul, ← pow_succ']; rfl

/-- A number that stands first. -/
theorem partNat_first (x n : Nat) (bs : List Byte) : partNat (leBytes x n ++ bs) 0 n = x % 2 ^ (8 * n) := by
  rw [partNat, List.drop_zero, List.take_left' (leBytes_length x n), leNat_leBytes, pow_mul]
  rfl

/-- A number behind other bytes. -/
theorem partNat_behind {as : List Byte} {off : Nat} (h : as.length ≤ off) (bs : List Byte) (n : Nat) :
    partNat (as ++ bs) off n = partNat bs (off - as.length) n := by
  rw [partNat, List.drop_append, List.drop_eq_nil_of_le h]
  rfl

/-- A number behind another. -/
theorem partNat_next {m off : Nat} (h : m ≤ off) (x : Nat) (bs : List Byte) (n : Nat) :
    partNat (leBytes x m ++ bs) off n = partNat bs (off - m) n := by
  rw [partNat_behind ((leBytes_length x m).trans_le h), leBytes_length]

/-- A pair lies in memory low word first (R43). -/
theorem partNat_pairOf (lo hi : Word) (bs : List Byte) :
    partNat (leBytes (pairOf lo hi).toNat 8 ++ bs) 0 4 = lo.toNat ∧ partNat (leBytes (pairOf lo hi).toNat 8 ++ bs) 4 4 = hi.toNat := by
  have hpair : (pairOf lo hi).toNat = 2 ^ 32 * hi.toNat + lo.toNat := by
    rw [BitVec.toNat_append, ← Nat.shiftLeft_add_eq_or_of_lt lo.isLt, Nat.shiftLeft_eq, Nat.mul_comm]
  have hlo := lo.isLt
  have hhi := hi.isLt
  rw [leBytes_add _ 4 4, List.append_assoc, partNat_first, partNat_next (Nat.le_refl 4), partNat_first, hpair]
  omega

/-! ### The frame (R349) -/

/-- A frame is 2,048 bytes long. -/
theorem frameBytes_length {z : Cause} (h : z.info.words.length = 4) (k : Skein) (q half tick : Nat) :
    (frameBytes k z q half tick).length = 2048 := by
  simp only [frameBytes, List.length_append, List.length_flatMap, leBytes_length, List.map_const', List.sum_replicate_nat, List.length_map,
    List.length_range, List.length_replicate, h]

section
variable {z : Cause} (h : z.info.words.length = 4) (k : Skein) (q half tick : Nat)
include h

theorem partNat_frameBytes : partNat (frameBytes k z q half tick) 0 8 = z.info.pc.toNat ∧
    partNat (frameBytes k z q half tick) 24 8 = tick % 2 ^ 64 ∧ partNat (frameBytes k z q half tick) 64 4 = (k.scalar 62).toNat ∧
    partNat (frameBytes k z q half tick) 68 4 = (k.scalar 63).toNat ∧
    partNat (frameBytes k z q half tick) 44 4 = (halfLanes z.aff half).toNat := by
  have hwords : (z.info.words.flatMap fun w => leBytes w.toNat 4).length = 16 := by simp [List.length_flatMap, h]
  have hbehind : ∀ {off n : Nat} (bs : List Byte), 16 ≤ off →
      partNat ((z.info.words.flatMap fun w => leBytes w.toNat 4) ++ bs) off n = partNat bs (off - 16) n := fun bs hoff => by
    rw [partNat_behind (hwords.trans_le hoff), hwords]
  simp (disch := decide) only [frameBytes, List.append_assoc, partNat_next, hbehind, partNat_first, partNat_pairOf, Nat.reduceSub]
  exact ⟨Nat.mod_eq_of_lt z.info.pc.isLt, Nat.mod_mod tick (2 ^ 64), trivial, trivial, Nat.mod_eq_of_lt (halfLanes z.aff half).isLt⟩

end

/-! ### The write of a frame (R347, R418) -/

theorem State.heapPut_eq (s : State) (a : Nat) (bs : List Byte) : s.heapPut a bs =
    { s with mem := memStore s.mem a bs, sectors := putSectors s.sectors a bs.length none
             poison := s.poison.filter fun x => !(a ≤ 16 * x && 16 * x + 16 ≤ a + bs.length) } := rfl

/-- What no copy of a page changes is as before the copies that a write has made (R399). -/
theorem State.snapPages_keeps {β : Type} (g : State → β)
    (hg : ∀ (s : State) (m : Memory) (se : AMap Triple) (po : List Nat) (ls : AMap Launch),
      g { s with mem := m, sectors := se, poison := po, launches := ls } = g s) (s : State) (pa n : Nat) :
    g (s.snapPages pa n) = g s := by
  refine foldl_keeps g _ (fun s page => ?_) (pagesOf pa n) s
  split
  · refine foldl_keeps g _ (fun s e => ?_) s.launches s
    split
    · split
      · rw [State.heapPut_eq]
        exact hg s _ _ _ _
      · exact hg s s.mem s.sectors s.poison _
    · rfl
  · rfl

/-- A write into lines that a core holds changes that core only. -/
theorem State.l1Store_keeps {β : Type} (g : State → β) (hg : ∀ (s : State) (cs : AMap Core), g { s with cores := cs } = g s)
    (s : State) (c pa : Nat) (bs : List Byte) : g (s.l1Store c pa bs) = g s :=
  foldl_keeps g _ (fun t n => by
    split
    · exact hg ..
    · rfl) _ s

/-- A skein as a write leaves it, which may trigger its watch (R120). -/
def Skein.Watched (k' k : Skein) : Prop := ∃ w, k' = { k with watch := w }

theorem Skein.Watched.refl (k : Skein) : k.Watched k := ⟨k.watch, rfl⟩

theorem Skein.Watched.trans {k k' k'' : Skein} (h' : k''.Watched k') (h : k'.Watched k) : k''.Watched k := by
  obtain ⟨w, rfl⟩ := h
  obtain ⟨w', rfl⟩ := h'
  exact ⟨w', rfl⟩

theorem Skein.watchHit_watched (k : Skein) (scratch : Bool) (lot : Nat) (lines : List Nat) : (k.watchHit scratch lot lines).Watched k := by
  unfold Skein.watchHit
  split
  · split
    · exact ⟨_, rfl⟩
    · exact .refl k
  · exact .refl k

/-- A skein stands in its slot as it was, but for its watch. -/
def State.Holds (s : State) (c q : Nat) (k : Skein) : Prop := ∃ k', s.skein c q = some k' ∧ k'.Watched k

theorem State.Holds.of_some {s : State} {c q : Nat} {k : Skein} (h : s.skein c q = some k) : s.Holds c q k := ⟨k, h, .refl k⟩

theorem State.Holds.congr {s t : State} {c q : Nat} {k : Skein} (h : s.Holds c q k) (hskeins : t.skeins = s.skeins) : t.Holds c q k := by
  obtain ⟨k', hk', hw⟩ := h
  exact ⟨k', by rw [State.skein, hskeins]; exact hk', hw⟩

theorem State.Holds.trigger {s : State} {c q : Nat} {k : Skein} (h : s.Holds c q k) (scratch : Bool) (lot a n : Nat) :
    (s.trigger scratch lot a n).Holds c q k := by
  obtain ⟨k', hk', hw⟩ := h
  refine ⟨k'.watchHit scratch lot (linesOf a n), ?_, (k'.watchHit_watched ..).trans hw⟩
  rw [State.skein] at hk'
  rw [State.skein, State.trigger, amGet_amMap, hk', Option.map_some]

theorem State.Holds.homePut {s : State} {c q : Nat} {k : Skein} (h : s.Holds c q k) (pa : Nat) (bs : List Byte) (t : Option Triple) :
    (s.homePut pa bs t).Holds c q k :=
  ((h.congr (State.snapPages_keeps State.skeins (fun _ _ _ _ _ => rfl) s pa bs.length)).congr (t := { s.snapPages pa bs.length with .. }) rfl).trigger false 0 pa bs.length

/-- What the device writes at a virtual address. -/
theorem State.putVirtual_eq {s u : State} {c part : Nat} {va : DWord} {bs : List Byte} (h : s.putVirtual c part va bs = some u) :
    ∃ x, s.xlate c part va true false = .ok x ∧ u = (s.storeAt part x true bs none).l1Store c x.pa bs := by
  unfold State.putVirtual at h
  split at h
  · rename_i x hx
    split at h
    · cases h
    · exact ⟨x, hx, (Option.some.inj h).symm⟩
  · cases h

theorem State.Holds.putVirtual {s u : State} {c q : Nat} {k : Skein} (h : s.Holds c q k) {core part : Nat} {va : DWord} {bs : List Byte}
    (hput : s.putVirtual core part va bs = some u) : u.Holds c q k := by
  obtain ⟨x, -, rfl⟩ := State.putVirtual_eq hput
  refine State.Holds.congr ?_ (State.l1Store_keeps State.skeins (fun _ _ => rfl) ..)
  unfold State.storeAt
  split
  · exact h
  · exact (h.homePut x.pa bs none).congr (State.sliceTouch_skeins ..)

/-- A write takes no time of its own. -/
theorem State.putVirtual_tick {s u : State} {c part : Nat} {va : DWord} {bs : List Byte} (h : s.putVirtual c part va bs = some u) :
    u.tick = s.tick := by
  obtain ⟨x, -, rfl⟩ := State.putVirtual_eq h
  refine (State.l1Store_keeps State.tick (fun _ _ => rfl) ..).trans ?_
  unfold State.storeAt
  split
  · rfl
  · exact (congrArg State.tick (State.sliceTouch_beyondSlices ..) :).trans (State.snapPages_keeps State.tick (fun _ _ _ _ _ => rfl) ..)

/-- Bytes written at a virtual address of the module's own memory stand there. -/
theorem State.memRead_putVirtual {s u : State} {c part : Nat} {va : DWord} {bs : List Byte} {e : Xl} (hmem : s.MemOk)
    (hx : s.xlate c part va true false = .ok e) (hpeer : e.peer = false) (hput : s.putVirtual c part va bs = some u) (n : Nat)
    (h : n < bs.length) : memRead u.mem (e.pa + n) = bs[n] := by
  obtain ⟨x, hx', rfl⟩ := State.putVirtual_eq hput
  obtain rfl := XRes.ok.inj (hx.symm.trans hx')
  rw [State.l1Store_mem, State.storeAt, if_neg (by simp [hpeer]), State.homeStore_mem,
    memRead_memStore _ _ _ (State.snapPages_copied hmem.1 e.pa bs.length).wf, if_pos (by omega), Nat.add_sub_cancel_left,
    List.getElem?_eq_getElem h, Option.getD_some]

/-- The frame of a cause is written half by half (R347). -/
theorem State.putFrame_eq {s u : State} {c q : Nat} {k : Skein} {z : Cause}
    (hsingle : k.twin = false →
      s.putVirtual c (s.partOf (s.lotOf k)) (s.frameVa (s.partOf (s.lotOf k)) c q) (frameBytes k z q 0 s.tick) = some u)
    (htwin : k.twin = true →
      (s.putVirtual c (s.partOf (s.lotOf k)) (s.frameVa (s.partOf (s.lotOf k)) c q) (frameBytes k z q 0 s.tick)).bind (fun t =>
        t.putVirtual c (s.partOf (s.lotOf k)) (s.frameVa (s.partOf (s.lotOf k)) c q + 8192) (frameBytes k z q 1 s.tick)) = some u) :
    s.putFrame c q k z = some u := by
  unfold State.putFrame
  cases ht : k.twin with
  | false => simp [hsingle ht]
  | true =>
    obtain ⟨t, hlow, hhigh⟩ := Option.bind_eq_some_iff.1 (htwin ht)
    rw [← State.putVirtual_tick hlow] at hhigh
    simp only [hlow, hhigh, if_true]

theorem State.Holds.putFrame {s u : State} {c q : Nat} {k k' : Skein} (h : s.Holds c q k) {z : Cause}
    (hput : s.putFrame c q k' z = some u) : u.Holds c q k := by
  unfold State.putFrame at hput
  dsimp only at hput
  split at hput
  · rename_i t hlow
    split at hput
    · exact (h.putVirtual hlow).putVirtual hput
    · exact Option.some.inj hput ▸ h.putVirtual hlow
  · cases hput

/-! ### The entry into the handler (R347) -/

/-- Before its delivery only the operand slots of a cause are read again. -/
theorem State.reread_eq (s : State) (c q : Nat) (k : Skein) (z : Cause) :
    ∃ o, s.reread c q k z = { z with info := { z.info with opnds := o } } := by
  unfold State.reread
  split
  · split
    · exact ⟨_, rfl⟩
    · exact ⟨_, rfl⟩
  · exact ⟨_, rfl⟩

/-- The skein in its handler: BATCH stands at the handler with the frame's address in s62:s63. -/
def Skein.entered (k : Skein) (z : Cause) (later : List Cause) (frame pc : DWord) (batch : Lanes) : Skein :=
  { ((k.setScalar 62 (loOf frame)).setScalar 63 (hiOf frame)).mapFibres batch
      fun _ f => { f with pc := pc, wait := none, susp := f.wait } with
    trap := some ⟨batch, z.info.act, z.aff, frame, z.code, z.tl, later⟩
    gates := k.gates.filter fun g => g.pc != z.info.pc
    cur := some pc, relWait := none, afterTret := false, asks := [], lost := [] }

theorem Skein.scalar_setScalar (k : Skein) (n m : Nat) (v : Word) : (k.setScalar n v).scalar m = if m = n then v else k.scalar m := by
  rw [Skein.scalar, Skein.setScalar, amGet_amPut]
  simp only [eq_comm (a := n)]
  split <;> rfl

/-- The bytes that the device reads at a virtual address. -/
theorem State.getVirtual_ok {s : State} {c part : Nat} {va : DWord} {n : Nat} {e : Xl} (hx : s.xlate c part va false false = .ok e)
    (hread : s.readCause part e.pa n = none) : s.getVirtual c part va n = some (memBytes s.mem e.pa n) := by
  simp [State.getVirtual, hx, hread, State.homeRead]

/-- A cause whose frame is written and whose table entry is valid is delivered to its handler. -/
theorem State.deliver_entered {s u : State} {c q : Nat} {k : Skein} {z : Cause} (later : List Cause) {bs : List Byte}
    (hk : s.skein c q = some k) (htrap : k.trap = none) (hesc : escalated z.code = false) (hbatch : z.info.batch &&& k.live ≠ 0)
    (hframe : (s.setSkein c q { k with park := none, deferred := [] }).putFrame c q k
      ((s.setSkein c q { k with park := none, deferred := [] }).reread c q k z) = some u)
    (hentry : u.getVirtual c (s.partOf (s.lotOf k)) (u.trapTab (s.partOf (s.lotOf k)) + BitVec.ofNat 64 (8 * z.code)) 8 = some bs)
    (hvalid : (BitVec.ofNat 64 (leNat bs)).getLsbD 0 = true) :
    s.deliver c q z later = u.updSkein c q fun k' => k'.entered z later (s.frameVa (s.partOf (s.lotOf k)) c q)
      (BitVec.ofNat 64 (leNat bs) &&& ~~~3#64) (z.info.batch &&& k.live) := by
  obtain ⟨o, hz⟩ := (s.setSkein c q { k with park := none, deferred := [] }).reread_eq c q k z
  generalize hs0 : s.setSkein c q { k with park := none, deferred := [] } = s0 at hz hframe
  rw [hz] at hframe
  have hbatch' : (z.info.batch &&& k.live == 0) = false := beq_eq_false_iff_ne.2 hbatch
  simp only [State.deliver, hk, hs0]
  simp only [hz, htrap, hbatch', hframe, hentry, hesc, hvalid, Bool.false_eq_true, if_false, Bool.not_true, Bool.or_self]
  rfl

/-! ### What the entry into the handler leaves -/

section
variable (k : Skein) (z : Cause) (later : List Cause) (frame pc : DWord) (batch : Lanes)

theorem Skein.scalar_entered (n : Nat) :
    (k.entered z later frame pc batch).scalar n = if n = 63 then hiOf frame else if n = 62 then loOf frame else k.scalar n := by
  rw [← Skein.scalar_setScalar, ← Skein.scalar_setScalar]
  rfl

theorem Skein.fibre_entered (l : Nat) : (k.entered z later frame pc batch).fibre l =
    (k.fibre l).map fun f => if batch.getLsbD l then { f with pc := pc, wait := none, susp := f.wait } else f :=
  Skein.fibre_mapFibres _ batch (fun _ f => { f with pc := pc, wait := none, susp := f.wait }) l

end

end Sys2Proof.Machine

open Sys2Proof Sys2Proof.Machine

/-- Settles O15: the frame is written with the skein as it stands, of which the write may trigger a watch and no more, and the entry into the
handler changes what it names. -/
theorem trapDelivery : Obligations.TrapDelivery := by
  unfold Obligations.TrapDelivery
  refine ⟨?delivered, fun s u c part va bs e hmem hx hpeer hput n h => State.memRead_putVirtual hmem hx hpeer hput n h,
    fun k z q h tick hwords => ⟨frameBytes_length hwords k q h tick, partNat_frameBytes hwords k q h tick⟩⟩
  intro s u c q z later k e part frame batch s0 y low hk htrap hesc hbatch hsingle htwin hx hread hvalid
  have hframe : s0.putFrame c q k y = some u := State.putFrame_eq hsingle htwin
  have hentry := State.getVirtual_ok hx hread
  have hbit : (BitVec.ofNat 64 (leNat (memBytes u.mem e.pa 8))).getLsbD 0 = true := by
    rw [BitVec.getLsbD_ofNat]
    simpa [memNat] using hvalid
  obtain ⟨_, hk', w, rfl⟩ := (State.Holds.of_some (s.skein_setSkein c q { k with park := none, deferred := [] })).putFrame hframe
  rw [State.deliver_entered later hk htrap hesc hbatch hframe hentry hbit, State.updSkein_of_some hk']
  refine ⟨_, State.skein_setSkein .., ?low, ?high, fun n h62 h63 => ?scalar, rfl, rfl, rfl, rfl, rfl, rfl, fun l hl => ?inside, fun l hl => ?outside⟩
  case low => rw [Skein.scalar_entered]; rfl
  case high => rw [Skein.scalar_entered]; rfl
  case scalar =>
    rw [Skein.scalar_entered, if_neg h63, if_neg h62]
    rfl
  case inside =>
    rw [Skein.fibre_entered, hl]
    rfl
  case outside =>
    rw [Skein.fibre_entered, hl]
    exact congrFun Option.map_id_fun' (k.fibre l)

end

section
/-! SUPPORT. The return from a handler (R351): the write-back from the frame of a half of a skein, from both of a twin, and what leaves the
handler. -/

namespace Sys2Proof.Machine

/-! ### The words of a frame that TRET reads -/

theorem leNat_lt (bs : List Byte) : leNat bs < 256 ^ bs.length := by
  induction bs with
  | nil => simp [leNat]
  | cons b bs ih =>
    have hb := b.isLt
    rw [leNat, List.length_cons, pow_succ]
    omega

/-- STATUS as a frame holds it. -/
def tretStatus (fr : List Byte) : DWord := BitVec.ofNat 64 (partNat fr 32 8)

/-- The slot of a lane in the d-th block of destination slots of a frame. -/
def tretSlot (fr : List Byte) (d l : Nat) : Word := BitVec.ofNat 32 (partNat fr (1152 + 128 * d + 4 * (l % 32)) 4)

/-- The number of the first destination register, and how many a return writes. -/
def tretFirst (fr : List Byte) : Nat := ((tretStatus fr).extractLsb' 16 8).toNat
def tretCount (fr : List Byte) : Nat := min 4 ((tretStatus fr).extractLsb' 13 3).toNat

/-- The write-back is asked for, and its destination is of some kind (R351). -/
abbrev writesBack (fr : List Byte) (kind : BitVec 2) : Prop := (tretStatus fr).getLsbD 24 = true ∧ (tretStatus fr).extractLsb' 11 2 = kind

/-- Register n of a kind takes its slot in lane l. -/
abbrev TrapCtx.takes (t : TrapCtx) (fr : List Byte) (kind : BitVec 2) (n l : Nat) : Prop :=
  (tretStatus fr).getLsbD 24 = true ∧ (tretStatus fr).extractLsb' 11 2 = kind ∧ t.aff.getLsbD l = true ∧
    tretFirst fr ≤ n ∧ n < tretFirst fr + tretCount fr

/-- The AFFECTED lanes of one half. -/
def TrapCtx.half (t : TrapCtx) (h : Nat) : Lanes := t.aff &&& (if h = 0 then 0xFFFFFFFF else 0xFFFFFFFF00000000)

theorem tretStatus_toNat (fr : List Byte) : partNat fr 32 8 = (tretStatus fr).toNat := by
  have hlen : ((fr.drop 32).take 8).length ≤ 8 := List.length_take_le ..
  have hlt := (leNat_lt ((fr.drop 32).take 8)).trans_le (Nat.pow_le_pow_right (by decide) hlen)
  rw [tretStatus, BitVec.toNat_ofNat]
  exact (Nat.mod_eq_of_lt hlt).symm

theorem TrapCtx.half_getLsbD (t : TrapCtx) {h : Nat} (hh : h < 2) (l : Nat) :
    (t.half h).getLsbD l = (t.aff.getLsbD l && decide (l / 32 = h)) := by
  by_cases hl : l < 64
  · have hlow : ∀ l < 64, (0xFFFFFFFF#64).getLsbD l = decide (l / 32 = 0) := by decide
    have hhigh : ∀ l < 64, (0xFFFFFFFF00000000#64).getLsbD l = decide (l / 32 = 1) := by decide
    obtain rfl | rfl : h = 0 ∨ h = 1 := by omega
    · rw [← hlow l hl]
      exact BitVec.getLsbD_and
    · rw [← hhigh l hl]
      exact BitVec.getLsbD_and
  · rw [BitVec.getLsbD_of_ge _ _ (by omega), BitVec.getLsbD_of_ge _ _ (by omega)]
    rfl

/-! ### The write-back by kind of destination -/

section
variable (k : Skein) (t : TrapCtx) (h : Nat) {fr : List Byte}

theorem Skein.tretBack_without (hwb : (tretStatus fr).getLsbD 24 = false) : k.tretBack t h fr = k := by
  have hbit : (tretStatus fr).toNat.testBit 24 = false := hwb
  simp [Skein.tretBack, tretStatus_toNat, hbit]

theorem Skein.tretBack_vec (hkind : writesBack fr 1) : k.tretBack t h fr = (List.range (tretCount fr)).foldl (fun k d =>
    if tretFirst fr + d < k.window then k.writeClassed (tretFirst fr + d) (t.half h) (tretSlot fr d) else k) k := by
  obtain ⟨hwb, hkind⟩ := hkind
  have hbit : (tretStatus fr).toNat.testBit 24 = true := hwb
  simp only [Skein.tretBack, tretStatus_toNat, hbit, bitsOf_eq_extractLsb', hkind]
  rfl

theorem Skein.tretBack_scl {l : Nat} (hkind : writesBack fr 2) (hlow : lowest t.act = some l) :
    k.tretBack t h fr = (List.range (tretCount fr)).foldl (fun k d =>
      if (t.half h).getLsbD l && tretFirst fr + d < 64 then k.setScalar (tretFirst fr + d) (tretSlot fr d l) else k) k := by
  obtain ⟨hwb, hkind⟩ := hkind
  have hbit : (tretStatus fr).toNat.testBit 24 = true := hwb
  simp only [Skein.tretBack, tretStatus_toNat, hbit, bitsOf_eq_extractLsb', hkind, hlow]
  rfl

theorem Skein.tretBack_noLane (hkind : writesBack fr 2) (hlow : lowest t.act = none) : k.tretBack t h fr = k := by
  obtain ⟨hwb, hkind⟩ := hkind
  have hbit : (tretStatus fr).toNat.testBit 24 = true := hwb
  simp only [Skein.tretBack, tretStatus_toNat, hbit, bitsOf_eq_extractLsb', hkind, hlow]
  exact List.foldl_fixed _

theorem Skein.tretBack_prd (hkind : writesBack fr 3) : k.tretBack t h fr =
    k.mapFibres (t.half h) fun l f => { f with preds := BitVec.ofNat 7 (partNat fr (1664 + l % 32) 1) } := by
  obtain ⟨hwb, hkind⟩ := hkind
  have hbit : (tretStatus fr).toNat.testBit 24 = true := hwb
  simp only [Skein.tretBack, tretStatus_toNat, hbit, bitsOf_eq_extractLsb', hkind]
  exact List.foldl_fixed _

theorem Skein.tretBack_nowhere (hkind : writesBack fr 0) : k.tretBack t h fr = k := by
  obtain ⟨hwb, hkind⟩ := hkind
  have hbit : (tretStatus fr).toNat.testBit 24 = true := hwb
  simp only [Skein.tretBack, tretStatus_toNat, hbit, bitsOf_eq_extractLsb', hkind]
  exact List.foldl_fixed _

end

/-! ### Registers written one after the other -/

/-- The skein with vector registers, scalars, predicates and found errors changed, and nothing else. -/
def Skein.Rewritten (k' k : Skein) : Prop := ∃ ls rs ss bs, k' = { k with lanes := ls, regs := rs, scalars := ss, bad := bs }

theorem Skein.Rewritten.refl (k : Skein) : k.Rewritten k := ⟨k.lanes, k.regs, k.scalars, k.bad, rfl⟩

theorem Skein.Rewritten.trans {k k' k'' : Skein} (h' : k''.Rewritten k') (h : k'.Rewritten k) : k''.Rewritten k := by
  obtain ⟨_, _, _, _, rfl⟩ := h
  obtain ⟨_, _, _, _, rfl⟩ := h'
  exact ⟨_, _, _, _, rfl⟩

/-- The registers alone have changed. -/
def Skein.RegsOnly (k' k : Skein) : Prop := ∃ rs ss bs, k' = { k with regs := rs, scalars := ss, bad := bs }

theorem Skein.RegsOnly.refl (k : Skein) : k.RegsOnly k := ⟨k.regs, k.scalars, k.bad, rfl⟩

theorem Skein.RegsOnly.trans {k k' k'' : Skein} (h' : k''.RegsOnly k') (h : k'.RegsOnly k) : k''.RegsOnly k := by
  obtain ⟨_, _, _, rfl⟩ := h
  obtain ⟨_, _, _, rfl⟩ := h'
  exact ⟨_, _, _, rfl⟩

theorem Skein.RegsOnly.lanes {k k' : Skein} (h : k'.RegsOnly k) : k'.live = k.live ∧ k'.width = k.width ∧ k'.window = k.window := by
  obtain ⟨_, _, _, rfl⟩ := h
  exact ⟨rfl, rfl, rfl⟩

/-- What is read after numbers `first`, `first + 1`, … have been written in turn, where each write takes those numbers that are allowed. -/
theorem foldl_range_read {σ V : Type} {P : σ → Prop} {step : σ → Nat → σ} {read : σ → Nat → V} {ok : Nat → Prop} [DecidablePred ok]
    {value : Nat → V} {first : Nat} (hkeeps : ∀ k d, P k → P (step k d))
    (hstep : ∀ k d r, P k → read (step k d) r = if r = first + d ∧ ok r then value d else read k r) {k : σ} (hk : P k) (n : Nat) :
    P ((List.range n).foldl step k) ∧
      ∀ r, read ((List.range n).foldl step k) r = if (first ≤ r ∧ r < first + n) ∧ ok r then value (r - first) else read k r := by
  induction n with
  | zero => exact ⟨hk, fun r => (if_neg fun h => by omega).symm⟩
  | succ n ih =>
    obtain ⟨hP, hread⟩ := ih
    rw [List.range_succ, List.foldl_append, List.foldl_cons, List.foldl_nil]
    refine ⟨hkeeps _ n hP, fun r => ?_⟩
    rw [hstep _ n r hP, hread]
    by_cases hr : r = first + n
    · subst hr
      simp
    · have hiff : (first ≤ r ∧ r < first + (n + 1)) ↔ (first ≤ r ∧ r < first + n) := by omega
      simp [hr, hiff]

/-- A run of vector registers written from slots, as far as the window goes. -/
theorem Skein.foldl_writeClassed (k : Skein) (m : Lanes) (slot : Nat → Nat → Word) (first n : Nat) :
    let k' := (List.range n).foldl (fun k d => if first + d < k.window then k.writeClassed (first + d) m (slot d) else k) k
    (k'.RegsOnly k ∧ k'.scalars = k.scalars) ∧ ∀ v l, l < k.width → k.live.getLsbD l = true → k'.vlane v l =
      if (first ≤ v ∧ v < first + n) ∧ v < k.window ∧ m.getLsbD l = true then slot (v - first) l else k.vlane v l := by
  have hkeeps : ∀ (u : Skein) (d : Nat), u.RegsOnly k ∧ u.scalars = k.scalars →
      (if first + d < u.window then u.writeClassed (first + d) m (slot d) else u).RegsOnly k ∧
      (if first + d < u.window then u.writeClassed (first + d) m (slot d) else u).scalars = k.scalars := fun u d hu => by
    obtain ⟨R, heta⟩ := u.writeClassed_eta (first + d) m (slot d)
    split
    · exact ⟨Skein.RegsOnly.trans ⟨R, _, _, heta⟩ hu.1, by rw [heta]; exact hu.2⟩
    · exact hu
  refine ⟨(foldl_range_read (read := fun _ _ => ()) (ok := fun _ => True) (value := fun _ => ()) (first := 0) hkeeps
    (fun _ _ _ _ => rfl) ⟨.refl k, rfl⟩ n).1, fun v l hl hlv => ?_⟩
  refine (foldl_range_read (read := fun u v => u.vlane v l) (ok := fun v => v < k.window ∧ m.getLsbD l = true)
    (value := fun d => slot d l) hkeeps (fun u d r hu => ?_) ⟨.refl k, rfl⟩ n).2 v
  obtain ⟨hlive, hwidth, hwindow⟩ := hu.1.lanes
  rw [hwindow]
  split
  · rename_i hin
    rw [Skein.vlane_writeClassed u _ _ _ _ _ (hwidth ▸ hl) (hlive ▸ hlv)]
    by_cases hr : r = first + d
    · simp [hr, hin]
    · simp [hr]
  · rename_i hout
    exact (if_neg fun h : r = first + d ∧ r < k.window ∧ m.getLsbD l = true => hout (h.1 ▸ h.2.1)).symm

/-- A run of scalars written from slots, as far as there are scalars. -/
theorem Skein.foldl_setScalar (k : Skein) (b : Bool) (slot : Nat → Word) (first n : Nat) :
    let k' := (List.range n).foldl (fun k d => if b && first + d < 64 then k.setScalar (first + d) (slot d) else k) k
    (k'.RegsOnly k ∧ k'.regs = k.regs) ∧ ∀ r, k'.scalar r =
      if (first ≤ r ∧ r < first + n) ∧ r < 64 ∧ b = true then slot (r - first) else k.scalar r := by
  refine foldl_range_read (P := fun u => u.RegsOnly k ∧ u.regs = k.regs) (read := Skein.scalar) (ok := fun r => r < 64 ∧ b = true) (value := slot) (fun u d hu => ?_) (fun u d r _ => ?_)
    ⟨.refl k, rfl⟩ n
  · split
    · exact ⟨Skein.RegsOnly.trans ⟨_, _, _, rfl⟩ hu.1, hu.2⟩
    · exact hu
  · by_cases hr : r = first + d
    · subst hr
      cases b <;> by_cases hd : first + d < 64 <;> simp [hd, Skein.scalar_setScalar]
    · split
      · rw [Skein.scalar_setScalar]
        simp [hr]
      · simp [hr]

/-! ### The write-back of one half -/

/-- What the write-back of half h leaves (R351). -/
structure Skein.WrittenBack (k' k : Skein) (t : TrapCtx) (h : Nat) (fr : List Byte) : Prop where
  rest : k'.Rewritten k
  fibre : ∀ l, k'.fibre l = (k.fibre l).map fun f => if writesBack fr 3 ∧ t.aff.getLsbD l = true ∧ l / 32 = h
    then { f with preds := BitVec.ofNat 7 (partNat fr (1664 + l % 32) 1) } else f
  vec : ∀ v l, l < k.width → k.live.getLsbD l = true → k'.vlane v l =
    if (t.takes fr 1 v l ∧ v < k.window) ∧ l / 32 = h then tretSlot fr (v - tretFirst fr) l else k.vlane v l
  scl : ∀ n, k'.scalar n = (lowest t.act).elim (k.scalar n) fun l =>
    if (t.takes fr 2 n l ∧ n < 64) ∧ l / 32 = h then tretSlot fr (n - tretFirst fr) l else k.scalar n
  regs : (tretStatus fr).getLsbD 24 = false → k'.regs = k.regs

theorem Skein.RegsOnly.rewritten {k k' : Skein} (h : k'.RegsOnly k) : k'.Rewritten k := by
  obtain ⟨_, _, _, rfl⟩ := h
  exact ⟨_, _, _, _, rfl⟩

theorem Skein.RegsOnly.fibre {k k' : Skein} (h : k'.RegsOnly k) (l : Nat) : k'.fibre l = k.fibre l := by
  obtain ⟨_, _, _, rfl⟩ := h
  rfl

theorem Skein.scalar_congr {k k' : Skein} (h : k'.scalars = k.scalars) (n : Nat) : k'.scalar n = k.scalar n := by
  rw [Skein.scalar, Skein.scalar, h]

theorem Skein.vlane_congr {k k' : Skein} (h : k'.regs = k.regs) (v l : Nat) : k'.vlane v l = k.vlane v l := by
  rw [Skein.vlane, Skein.vlane, Skein.reg, Skein.reg, h]

section
variable (k : Skein) (t : TrapCtx) {h : Nat} {fr : List Byte}

/-- Nothing is written back without WB, to no kind of destination, or to scalars of no lane. -/
theorem Skein.writtenBack_refl (hnone : ∀ kind, writesBack fr kind → kind = 0 ∨ kind = 2 ∧ lowest t.act = none) :
    k.WrittenBack k t h fr where
  rest := .refl k
  fibre l := by
    have hno : ¬writesBack fr 3 := fun hw => by simpa using hnone 3 hw
    simp only [hno, false_and, if_false, Option.map_id']
  vec v l _ _ := by
    have hno : ¬writesBack fr 1 := fun hw => by simpa using hnone 1 hw
    exact (if_neg fun ht => hno ⟨ht.1.1.1, ht.1.1.2.1⟩).symm
  scl n := by
    cases hlow : lowest t.act with
    | none => rfl
    | some l =>
      have hno : ¬writesBack fr 2 := fun hw => by simpa [hlow] using hnone 2 hw
      exact (if_neg fun ht => hno ⟨ht.1.1.1, ht.1.1.2.1⟩).symm
  regs _ := rfl

theorem Skein.tretBack_writtenBack_vec (hh : h < 2) (hkind : writesBack fr 1) : (k.tretBack t h fr).WrittenBack k t h fr := by
  have hno : ∀ kind, kind ≠ 1 → ¬writesBack fr kind := fun kind hne hw => hne (hw.2.symm.trans hkind.2)
  rw [Skein.tretBack_vec k t h hkind]
  obtain ⟨⟨honly, hscalars⟩, hvec⟩ := k.foldl_writeClassed (t.half h) (tretSlot fr) (tretFirst fr) (tretCount fr)
  generalize (List.range (tretCount fr)).foldl _ k = k' at honly hscalars hvec ⊢
  refine ⟨honly.rewritten, fun l => ?_, fun v l hl hlv => ?_, fun n => ?_, fun hwb => absurd (hwb.symm.trans hkind.1) Bool.false_ne_true⟩
  · simp only [hno 3 (by decide), false_and, if_false, Option.map_id', honly.fibre]
  · rw [hvec v l hl hlv, t.half_getLsbD hh]
    refine if_congr ?_ rfl rfl
    simp only [Bool.and_eq_true, decide_eq_true_eq, TrapCtx.takes, hkind.1, hkind.2, true_and]
    tauto
  · rw [Skein.scalar_congr hscalars]
    cases lowest t.act with
    | none => rfl
    | some l => exact (if_neg fun ht => hno 2 (by decide) ⟨ht.1.1.1, ht.1.1.2.1⟩).symm

theorem Skein.tretBack_writtenBack_scl {l : Nat} (hh : h < 2) (hkind : writesBack fr 2) (hlow : lowest t.act = some l) :
    (k.tretBack t h fr).WrittenBack k t h fr := by
  have hno : ∀ kind, kind ≠ 2 → ¬writesBack fr kind := fun kind hne hw => hne (hw.2.symm.trans hkind.2)
  rw [Skein.tretBack_scl k t h hkind hlow]
  obtain ⟨⟨honly, hregs⟩, hscl⟩ := k.foldl_setScalar ((t.half h).getLsbD l) (fun d => tretSlot fr d l) (tretFirst fr) (tretCount fr)
  generalize (List.range (tretCount fr)).foldl _ k = k' at honly hregs hscl ⊢
  refine ⟨honly.rewritten, fun l => ?_, fun v l _ _ => ?_, fun n => ?_, fun _ => hregs⟩
  · simp only [hno 3 (by decide), false_and, if_false, Option.map_id', honly.fibre]
  · rw [Skein.vlane_congr hregs]
    exact (if_neg fun ht => hno 1 (by decide) ⟨ht.1.1.1, ht.1.1.2.1⟩).symm
  · rw [hscl, t.half_getLsbD hh, hlow]
    refine if_congr ?_ rfl rfl
    simp only [Bool.and_eq_true, decide_eq_true_eq, TrapCtx.takes, hkind.1, hkind.2, true_and]
    tauto

theorem Skein.tretBack_writtenBack_prd (hh : h < 2) (hkind : writesBack fr 3) : (k.tretBack t h fr).WrittenBack k t h fr := by
  have hno : ∀ kind, kind ≠ 3 → ¬writesBack fr kind := fun kind hne hw => hne (hw.2.symm.trans hkind.2)
  rw [Skein.tretBack_prd k t h hkind]
  refine ⟨⟨_, _, _, _, rfl⟩, fun l => ?_, fun v l _ _ => ?_, fun n => ?_, fun _ => rfl⟩
  · rw [Skein.fibre_mapFibres, t.half_getLsbD hh]
    simp only [eq_true hkind, true_and, Bool.and_eq_true, decide_eq_true_eq]
  · exact (if_neg fun ht => hno 1 (by decide) ⟨ht.1.1.1, ht.1.1.2.1⟩).symm
  · cases lowest t.act with
    | none => rfl
    | some l => exact (if_neg fun ht => hno 2 (by decide) ⟨ht.1.1.1, ht.1.1.2.1⟩).symm

/-- The write-back of half h, whatever STATUS asks for. -/
theorem Skein.tretBack_writtenBack (hh : h < 2) (fr : List Byte) : (k.tretBack t h fr).WrittenBack k t h fr := by
  cases hwb : (tretStatus fr).getLsbD 24 with
  | false =>
    rw [Skein.tretBack_without k t h hwb]
    exact k.writtenBack_refl t fun kind hw => absurd (hwb.symm.trans hw.1) Bool.false_ne_true
  | true =>
    have hkinds : ∀ b : BitVec 2, b = 0 ∨ b = 1 ∨ b = 2 ∨ b = 3 := by decide
    rcases hkinds ((tretStatus fr).extractLsb' 11 2) with hk | hk | hk | hk
    · rw [Skein.tretBack_nowhere k t h ⟨hwb, hk⟩]
      exact k.writtenBack_refl t fun kind hw => .inl (hw.2.symm.trans hk)
    · exact k.tretBack_writtenBack_vec t hh ⟨hwb, hk⟩
    · cases hlow : lowest t.act with
      | none =>
        rw [Skein.tretBack_noLane k t h ⟨hwb, hk⟩ hlow]
        exact k.writtenBack_refl t fun kind hw => .inr ⟨hw.2.symm.trans hk, hlow⟩
      | some l => exact k.tretBack_writtenBack_scl t hh ⟨hwb, hk⟩ hlow
    · exact k.tretBack_writtenBack_prd t hh ⟨hwb, hk⟩

end

/-! ### Both halves -/

theorem Skein.Rewritten.fixed {k k' : Skein} (h : k'.Rewritten k) : k'.twin = k.twin ∧ k'.width = k.width ∧ k'.window = k.window := by
  obtain ⟨_, _, _, _, rfl⟩ := h
  exact ⟨rfl, rfl, rfl⟩

theorem Skein.WrittenBack.live {k k' : Skein} {t : TrapCtx} {h : Nat} {fr : List Byte} (hk : k'.WrittenBack k t h fr) : k'.live = k.live := by
  obtain ⟨-, hwidth, -⟩ := hk.rest.fixed
  refine BitVec.eq_of_getLsbD_eq fun l _ => ?_
  rw [Skein.live_getLsbD, Skein.live_getLsbD, hwidth, hk.fibre, Option.isSome_map]

/-- The skein after the write-back, of a twin from the frame of each half. -/
def Skein.restoredFrom (k : Skein) (t : TrapCtx) (f0 f1 : List Byte) : Skein :=
  if (k.tretBack t 0 f0).twin then (k.tretBack t 0 f0).tretBack t 1 f1 else k.tretBack t 0 f0

/-- What the write-back leaves of a skein of which each lane has a frame. -/
structure Skein.Restored (k' k : Skein) (t : TrapCtx) (fr : Nat → List Byte) : Prop where
  rest : k'.Rewritten k
  live : k'.live = k.live
  fibre : ∀ l, l < k.width → k'.fibre l = (k.fibre l).map fun f => if writesBack (fr l) 3 ∧ t.aff.getLsbD l = true
    then { f with preds := BitVec.ofNat 7 (partNat (fr l) (1664 + l % 32) 1) } else f
  vec : ∀ v l, l < k.width → k.live.getLsbD l = true → k'.vlane v l =
    if t.takes (fr l) 1 v l ∧ v < k.window then tretSlot (fr l) (v - tretFirst (fr l)) l else k.vlane v l
  scl : ∀ n, k'.scalar n = (lowest t.act).elim (k.scalar n) fun l =>
    if (t.takes (fr l) 2 n l ∧ n < 64) ∧ l < k.width then tretSlot (fr l) (n - tretFirst (fr l)) l else k.scalar n
  regs : (∀ l, l < k.width → (tretStatus (fr l)).getLsbD 24 = false) → k'.regs = k.regs

section
variable (k : Skein) (t : TrapCtx) (f0 f1 : List Byte)

theorem Skein.twin_tretBack : (k.tretBack t 0 f0).twin = k.twin := (k.tretBack_writtenBack t (by decide) f0).rest.fixed.1

theorem Skein.restoredFrom_single (h : k.twin = false) : k.restoredFrom t f0 f1 = k.tretBack t 0 f0 :=
  if_neg (by rw [k.twin_tretBack, h]; decide)

theorem Skein.restoredFrom_twin (h : k.twin = true) : k.restoredFrom t f0 f1 = (k.tretBack t 0 f0).tretBack t 1 f1 :=
  if_pos (by rw [k.twin_tretBack, h])

theorem Skein.restored_single (h : k.twin = false) : (k.restoredFrom t f0 f1).Restored k t fun l => if l < 32 then f0 else f1 := by
  have hwidth : k.width = 32 := by rw [Skein.width, if_neg (by simp [h])]
  have hlow : ∀ {l : Nat}, l < 32 → l / 32 = 0 := fun hl => Nat.div_eq_of_lt hl
  have hback := k.tretBack_writtenBack t (show 0 < 2 by decide) f0
  rw [k.restoredFrom_single t f0 f1 h]
  refine ⟨hback.rest, hback.live, fun l hl => ?_, fun v l hl hlv => ?_, fun n => ?_, fun hwb => hback.regs ?_⟩
  · rw [hwidth] at hl
    rw [hback.fibre]
    simp only [hl, hlow hl, if_true, and_true]
  · rw [hback.vec v l hl hlv]
    rw [hwidth] at hl
    simp only [hl, hlow hl, if_true, and_true]
  · rw [hback.scl, hwidth]
    cases lowest t.act with
    | none => rfl
    | some l =>
      by_cases hl : l < 32
      · simp only [Option.elim_some, hl, hlow hl, if_true]
      · simp only [Option.elim_some, hl, show l / 32 ≠ 0 by omega, and_false, if_false]
  · simpa using hwb 0 (by omega)

theorem Skein.restored_twin (h : k.twin = true) : (k.restoredFrom t f0 f1).Restored k t fun l => if l < 32 then f0 else f1 := by
  have hwidth : k.width = 64 := by rw [Skein.width, if_pos h]
  have hlow := k.tretBack_writtenBack t (show 0 < 2 by decide) f0
  rw [k.restoredFrom_twin t f0 f1 h]
  generalize k.tretBack t 0 f0 = k1 at hlow
  have hhigh := k1.tretBack_writtenBack t (show 1 < 2 by decide) f1
  obtain ⟨-, hwidth1, hwindow1⟩ := hlow.rest.fixed
  have hhalf : ∀ {l : Nat}, l < 64 → (l / 32 = 0 ↔ l < 32) ∧ (l / 32 = 1 ↔ ¬l < 32) := fun _ => by omega
  refine ⟨hhigh.rest.trans hlow.rest, hhigh.live.trans hlow.live, fun l hl => ?_, fun v l hl hlv => ?_, fun n => ?_, fun hwb => ?_⟩
  · rw [hhigh.fibre, hlow.fibre, Option.map_map]
    refine congrArg (fun g => Option.map g (k.fibre l)) (funext fun f => ?_)
    obtain ⟨h0, h1⟩ := hhalf (hwidth ▸ hl)
    by_cases h32 : l < 32
    · simp [h0, h1, h32]
    · simp [h0, h1, h32]
  · rw [hhigh.vec v l (hwidth1 ▸ hl) (hlow.live ▸ hlv), hlow.vec v l hl hlv, hwindow1]
    obtain ⟨h0, h1⟩ := hhalf (hwidth ▸ hl)
    by_cases h32 : l < 32
    · simp only [h0, h1, h32, not_true, if_true, and_true, and_false, if_false]
    · simp only [h0, h1, h32, not_false_eq_true, and_true, and_false, if_false]
  · rw [hhigh.scl, hlow.scl, hwidth]
    cases hact : lowest t.act with
    | none => rfl
    | some l =>
      have hl : l < 64 := by
        by_contra hge
        exact absurd ((BitVec.getLsbD_of_ge t.act l (by omega)).symm.trans (lowest_mem hact)) Bool.false_ne_true
      obtain ⟨h0, h1⟩ := hhalf hl
      by_cases h32 : l < 32
      · simp only [Option.elim_some, hl, h0, h1, h32, not_true, if_true, and_true, and_false, if_false]
      · simp only [Option.elim_some, hl, h0, h1, h32, not_false_eq_true, and_true, and_false, if_false]
  · rw [hhigh.regs (by simpa using hwb 32 (by omega)), hlow.regs (by simpa using hwb 0 (by omega))]

theorem Skein.restoredFrom_restored : (k.restoredFrom t f0 f1).Restored k t fun l => if l < 32 then f0 else f1 := by
  cases h : k.twin with
  | false => exact k.restored_single t f0 f1 h
  | true => exact k.restored_twin t f0 f1 h

end

/-! ### The skein as it leaves its handler -/

/-- The skein as TRET leaves it: the write-back made, s62:s63 restored, and the live fibres of BATCH at their targets. -/
def Skein.leaveHandler (k : Skein) (t : TrapCtx) (f0 f1 : List Byte) : Skein :=
  { (((k.restoredFrom t f0 f1).setScalar 62 (BitVec.ofNat 32 (partNat f0 64 4))).setScalar 63
      (BitVec.ofNat 32 (partNat f0 68 4))).mapFibres (t.batch &&& k.live) fun _ f => f.resumeAt with trap := none, cur := none, afterTret := true }

/-- A fibre that waits nowhere keeps its skein's BAR.sk open (R25). -/
theorem Skein.barSk_running {k : Skein} {l : Nat} {f : Fibre} (hl : (k.live &&& k.scope).getLsbD l = true) (hf : k.fibre l = some f)
    (hwait : f.wait = none) (tick : Nat) : k.barSk tick = k := by
  refine if_neg fun h => ?_
  have hall := List.all_eq_true.1 (Bool.and_eq_true_iff.1 h).2 l ((mem_laneList _ l).2 hl)
  simp [hf, hwait] at hall

theorem State.stampTogether_skeins (s : State) (lots : List Nat) (x : Scope) : (s.stampTogether lots x).skeins = s.skeins :=
  foldl_keeps State.skeins _ (fun t n => by
    unfold State.stampLot
    split
    · exact t.skeins_updLot ..
    · rfl) lots s

/-- The beginning of a shuffle changes no skein (R34). -/
theorem State.regrpCheck_skeins (s : State) (core launch : Nat) : (s.regrpCheck core launch).skeins = s.skeins := by
  unfold State.regrpCheck
  split
  · rfl
  · dsimp only
    split
    · exact s.stampTogether_skeins ..
    · rfl

/-- A fibre that stands at a TRET with no wait taken up again goes on at its target. -/
theorem Fibre.resumeAt_tret {f : Fibre} {w : WaitRec} {tgt : DWord} (hsusp : f.susp = none) (hwait : f.wait = some w)
    (htret : w.w = .tret tgt) : f.resumeAt = { f with pc := tgt, wait := none, susp := none } := by
  simp [Fibre.resumeAt, hwait, htret, hsusp]

theorem Fibre.resumeAt_preds (f : Fibre) : f.resumeAt.preds = f.preds := by
  unfold Fibre.resumeAt
  split
  · split <;> rfl
  · rfl

theorem Skein.width_leaveHandler (k : Skein) (t : TrapCtx) (f0 f1 : List Byte) : (k.leaveHandler t f0 f1).width = k.width :=
  (k.restoredFrom_restored t f0 f1).rest.fixed.2.1

/-- Outside a handler every live fibre may issue. -/
theorem Skein.lane_leaveHandler (k : Skein) (t : TrapCtx) (f0 f1 : List Byte) {l : Nat} {f : Fibre} (hl : l < k.width)
    (hf : (k.leaveHandler t f0 f1).fibre l = some f) :
    ((k.leaveHandler t f0 f1).live &&& (k.leaveHandler t f0 f1).scope).getLsbD l = true := by
  have h64 := k.width_le
  have hscope : (k.leaveHandler t f0 f1).scope = BitVec.allOnes 64 := rfl
  rw [BitVec.getLsbD_and, Skein.live_getLsbD, hf, k.width_leaveHandler t f0 f1, hscope, BitVec.getLsbD_allOnes]
  simp [hl, show l < 64 by omega]

theorem Skein.fibre_leaveHandler (k : Skein) (t : TrapCtx) (f0 f1 : List Byte) (l : Nat) : (k.leaveHandler t f0 f1).fibre l =
    ((k.restoredFrom t f0 f1).fibre l).map fun f => if (t.batch &&& k.live).getLsbD l then f.resumeAt else f :=
  Skein.fibre_mapFibres _ (t.batch &&& k.live) (fun _ f => f.resumeAt) l

section
variable {k : Skein} {z : TrapCtx} {tgt : Nat → DWord}
variable (hat : ∀ l f, (z.batch &&& k.live).getLsbD l = true → k.fibre l = some f → f.susp = none ∧ ∃ w, f.wait = some w ∧ w.w = .tret (tgt l))
include hat

/-- Each fibre of BATCH stands at a TRET. -/
theorem Skein.all_atTret : (laneList (z.batch &&& k.live)).all (fun l => match k.fibre l with | some f => f.atTret | none => true) = true := by
  refine List.all_eq_true.2 fun l hl => ?_
  cases hf : k.fibre l with
  | none => rfl
  | some f =>
    obtain ⟨-, w, hw, htret⟩ := hat l f ((mem_laneList _ l).1 hl) hf
    simp [Fibre.atTret, hw, htret]

/-- Each such fibre goes on at its target when the handler is left. -/
theorem Skein.fibre_leaveHandler_batch (f0 f1 : List Byte) {l : Nat} (hl : (z.batch &&& k.live).getLsbD l = true) :
    l < k.width ∧ ∃ f, (k.leaveHandler z f0 f1).fibre l = some f ∧ f.pc = tgt l ∧ f.wait = none := by
  have hlive : k.live.getLsbD l = true := (Bool.and_eq_true_iff.1 (BitVec.getLsbD_and ▸ hl)).2
  rw [Skein.live_getLsbD, Bool.and_eq_true, Bool.and_eq_true, decide_eq_true_eq, decide_eq_true_eq] at hlive
  obtain ⟨⟨-, hwidth⟩, hsome⟩ := hlive
  obtain ⟨f, hf⟩ := Option.isSome_iff_exists.1 hsome
  obtain ⟨hsusp, w, hwait, htret⟩ := hat l f hl hf
  have hgo : ∀ g : Fibre, g.susp = none → g.wait = some w → g.resumeAt.pc = tgt l ∧ g.resumeAt.wait = none := fun g hs hw => by
    rw [Fibre.resumeAt_tret hs hw htret]
    exact ⟨rfl, rfl⟩
  rw [Skein.fibre_leaveHandler, (k.restoredFrom_restored z f0 f1).fibre l hwidth, hf, hl]
  exact ⟨hwidth, _, rfl, hgo _ (by simp only [apply_ite Fibre.susp, ite_self, hsusp]) (by simp only [apply_ite Fibre.wait, ite_self, hwait])⟩

/-- TRET takes effect once each live fibre of BATCH stands at one, nothing is on its way to the frame, and the frames can be read. -/
theorem State.skein_tretCheck {s : State} {c q : Nat} {f0 f1 : List Byte} (hk : s.skein c q = some k) (htrap : k.trap = some z)
    (hpark : k.park = none) (hlater : z.later = []) (htl : z.tl = []) (hbatch : z.batch &&& k.live ≠ 0)
    (hfree : s.frameBusy c q k true = false) (hlow : s.getVirtual c (s.partOf (s.lotOf k)) z.frame 2048 = some f0)
    (hhigh : k.twin = true → s.getVirtual c (s.partOf (s.lotOf k)) (z.frame + 8192) 2048 = some f1) :
    (s.tretCheck c q).skein c q = some (k.leaveHandler z f0 f1).select := by
  have hlive : (z.batch &&& k.live == 0) = false := beq_eq_false_iff_ne.2 hbatch
  have hframe1 : ∃ g, (if k.twin then s.getVirtual c (s.partOf (s.lotOf k)) (z.frame + 8192) 2048 else some []) = some g ∧
      k.restoredFrom z f0 g = k.restoredFrom z f0 f1 := by
    cases ht : k.twin with
    | false => exact ⟨[], rfl, by rw [k.restoredFrom_single z f0 _ ht, k.restoredFrom_single z f0 _ ht]⟩
    | true => exact ⟨f1, hhigh ht, rfl⟩
  obtain ⟨g, hg, hsame⟩ := hframe1
  have hleave : k.leaveHandler z f0 g = k.leaveHandler z f0 f1 := by rw [Skein.leaveHandler, hsame]; rfl
  have hrest : (k.leaveHandler z f0 f1).barSk s.tick = k.leaveHandler z f0 f1 := by
    cases hlow : lowest (z.batch &&& k.live) with
    | none => exact absurd (BitVec.eq_of_getLsbD_eq fun l _ => (lowest_none hlow l).trans (by simp)) hbatch
    | some l =>
      obtain ⟨hl, f, hf, -, hwait⟩ := Skein.fibre_leaveHandler_batch hat f0 f1 (lowest_mem hlow)
      exact Skein.barSk_running (k.lane_leaveHandler z f0 f1 hl hf) hf hwait _
  have heq : ∃ n, s.tretCheck c q =
      ((s.setSkein c q ((k.leaveHandler z f0 g).barSk s.tick).select).dropLatch c q (tretRegs f0)).regrpCheck c n := by
    simp only [State.tretCheck, hk, htrap, hlive, hpark, hfree, hlow, hg, hlater, htl, Option.isSome_none, Bool.or_self, List.foldl_nil]
    exact ⟨_, if_neg fun h => Bool.false_ne_true ((congrArg not (Skein.all_atTret hat)).symm.trans h)⟩
  obtain ⟨n, heq⟩ := heq
  rw [heq, hleave, hrest, State.skein, State.regrpCheck_skeins, State.dropLatch_skeins]
  exact State.skein_setSkein ..

end

section
variable (k : Skein) (t : TrapCtx) (f0 f1 : List Byte)

theorem Skein.scalar_leaveHandler (n : Nat) : (k.leaveHandler t f0 f1).scalar n = if n = 63 then BitVec.ofNat 32 (partNat f0 68 4)
    else if n = 62 then BitVec.ofNat 32 (partNat f0 64 4) else (k.restoredFrom t f0 f1).scalar n := by
  rw [← Skein.scalar_setScalar, ← Skein.scalar_setScalar]
  rfl

/-- Leaving the handler writes no vector register beside the write-back. -/
theorem Skein.regs_leaveHandler : (k.leaveHandler t f0 f1).select.regs = (k.restoredFrom t f0 f1).regs := by
  unfold Skein.leaveHandler
  generalize k.restoredFrom t f0 f1 = k'
  rfl

theorem Skein.preds_leaveHandler {l : Nat} (hl : l < k.width) : ((k.leaveHandler t f0 f1).fibre l).map Fibre.preds =
    (k.fibre l).map fun f => if writesBack (if l < 32 then f0 else f1) 3 ∧ t.aff.getLsbD l = true
      then BitVec.ofNat 7 (partNat (if l < 32 then f0 else f1) (1664 + l % 32) 1) else f.preds := by
  rw [Skein.fibre_leaveHandler, (k.restoredFrom_restored t f0 f1).fibre l hl, Option.map_map, Option.map_map]
  refine congrArg (fun g => Option.map g (k.fibre l)) (funext fun f => ?_)
  simp only [Function.comp, apply_ite Fibre.preds, Fibre.resumeAt_preds, ite_self]

end

end Sys2Proof.Machine

open Sys2Proof Sys2Proof.Machine

/-- Settles O49: every fibre of BATCH stands at a TRET, so the handler is left; the write-back of each half takes its slots from its own frame,
and s62:s63 are set behind it. -/
theorem tretRestores : Obligations.TretRestores := by
  unfold Obligations.TretRestores
  intro s c q k z f0 f1 tgt hk htrap hpark hlater htl hbatch hfree hat hlow hhigh fr st slot first takes
  have hback := k.restoredFrom_restored z f0 f1
  refine ⟨_, State.skein_tretCheck hat hk htrap hpark hlater htl hbatch hfree hlow hhigh, rfl, ?s62, ?s63, fun l hl => ?target,
    fun hwb => (k.regs_leaveHandler z f0 f1).trans (hback.regs hwb), fun v l hl hlive => ?vector, fun n h62 h63 => ?scalar, fun l hl => ?preds⟩
  case s62 => exact Skein.scalar_leaveHandler ..
  case s63 => exact Skein.scalar_leaveHandler ..
  case target =>
    obtain ⟨-, f, hf, hpc, hwait⟩ := Skein.fibre_leaveHandler_batch hat f0 f1 hl
    rw [show (k.leaveHandler z f0 f1).select.fibre l = some f from hf, Option.map_some, hpc, hwait]
  case vector =>
    rw [Skein.vlane_congr (k.regs_leaveHandler z f0 f1), hback.vec v l hl hlive]
    exact ⟨fun ht => if_pos ht, fun ht => if_neg ht⟩
  case scalar =>
    have hscl : (k.leaveHandler z f0 f1).select.scalar n = (k.restoredFrom z f0 f1).scalar n := by
      refine (Skein.scalar_leaveHandler ..).trans ?_
      rw [if_neg h63, if_neg h62]
    rw [hscl, hback.scl]
    refine ⟨fun l hact hl ht hn => ?_, fun hno => ?_⟩
    · rw [hact]
      exact if_pos ⟨⟨ht, hn⟩, hl⟩
    · cases hact : lowest z.act with
      | none => rfl
      | some l => exact if_neg fun h => absurd (hno l hact h.2 h.1.1) (Nat.not_le.2 h.1.2)
  case preds =>
    refine (k.preds_leaveHandler z f0 f1 hl).trans (congrArg (fun g => Option.map g (k.fibre l)) (funext fun f => if_congr ?_ rfl rfl))
    rw [Bool.and_eq_true, Bool.and_eq_true, beq_iff_eq]
    rfl

end

section
/-! SUPPORT. A barred rollback (R400, R401). A launch has failed for a cause that no rollback undoes, and a lot of it for another cause:
the event keeps every cause by the launch's own, where the clause of O57 asks each entry's. -/

namespace Sys2Proof.Machine

/-- A launch with the rollback flag that may not replay: it has failed with 0xA3 (R401), and a lot of it with 0x84, a lost context (R404). -/
def barredLaunch : Launch :=
  { (default : Launch) with flags := 0b100100, stop := true, failed := some 0xA3, fails := [⟨0, 0x84, 0, 0, 0, 0, 0⟩] }

/-- The machine with this launch alone, and the failure ring of partition 0 enabled at physical address 0. -/
def barredState : State := { State.reset with launches := [(0, barredLaunch)], hub := [(failRing 0 / 8, 1)] }

/-- The event keeps the cause of the lot, since the launch's own cause is one that no rollback undoes. -/
theorem rollback_barredState : exec (.rollback 0) barredState = .next (barredState.giveUp 0 fun c => c) := rfl

/-- The cause of the first failure entry (R398): the lot's own. -/
theorem barredState_kept : memRead (barredState.giveUp 0 fun c => c).mem 11 = 0x84 := by decide

/-- What O57 asks of that entry: 0x89, as 0x84 is a cause that a rollback undoes. -/
theorem barredState_replaced : memRead (barredState.giveUp 0 fun c => if noRollback c then c else 0x89).mem 11 = 0x89 := by decide

end Sys2Proof.Machine

open Sys2Proof Sys2Proof.Machine

/-- Refutes O57: of a barred rollback, the model replaces a cause by 0x89 unless the launch's own cause is one of 0xA3, 0xA6 and 0xC4; the
clause looks at the cause of each entry. In `barredState` the two differ, and the entry in the failure ring with them. -/
theorem not_launchEvents : ¬ Obligations.LaunchEvents := by
  intro h
  obtain ⟨_, _, _, hfailed, _⟩ := h
  obtain ⟨_, _, hends⟩ := hfailed barredState 0 0 0 barredLaunch rfl
  obtain ⟨_, hcode⟩ := hends (by decide) (by decide)
  obtain ⟨_, _, hbarred, _⟩ := hcode 0xA3 rfl
  have hasked := hbarred (by decide) (by decide)
  rw [rollback_barredState, Host.Outcome.next.injEq] at hasked
  have hbytes := barredState_replaced.symm.trans ((congrArg (fun t : State => memRead t.mem 11) hasked).symm.trans barredState_kept)
  exact absurd hbytes (by decide)
end

section
/-! SUPPORT. Events of preemption (R299 to R306, R310 to R312): what each event does where its premises hold. -/

namespace Sys2Proof.Machine

/-! ### A lot as its table has it -/

theorem State.lot_of_get {s : State} {n : Nat} {l : Lot} (h : amGet s.lots n = some l) : s.lot n = l := by
  rw [State.lot, h, Option.getD_some]

theorem State.lot_setLot (s : State) (n : Nat) (l : Lot) : (s.setLot n l).lot n = l := by
  rw [State.lot, State.setLot, amGet_amPut_same, Option.getD_some]

theorem State.updLot_of_get {s : State} {n : Nat} {l : Lot} (h : amGet s.lots n = some l) (f : Lot → Lot) :
    s.updLot n f = s.setLot n (f l) := by
  rw [State.updLot, h]

/-! ### The decision (R299 to R303, R312) -/

/-- The reservation that Mordant makes, and the plans for the lots that prevent a fit, applied in their order. -/
theorem mordantDecide_reserves {s : State} {d id : Nat} {cs : List (Nat × Nat)} (hd : d < 8) (hopen : s.dieOpen d (s.partOfDie d) = true)
    (hhead : s.mordantHead (s.partOfDie d) = some id)
    (hcs : s.freeCores d id (s.estimateOf (s.launch id)) (s.launch id).deadline = cs) (hne : cs ≠ []) :
    let plans := (cs.flatMap fun e => s.preventing e.2 id).filterMap fun n => (s.planOf n (s.launch id).deadline false).map fun p => (n, p)
    let t := plans.foldl (fun t e => if (t.lot e.1).act == (s.lot e.1).act then t.applyPlan e.1 e.2 else t) s
    exec (.mordantDecide d) s = .next { t with
      reserves := (t.reserves.filter fun e => e.launch != id) ++ [⟨d, id, cs.map Prod.snd, maxOf (cs.map Prod.fst) fun f => f, true⟩] } := by
  change execMordantDecide d s = _
  unfold execMordantDecide
  rw [if_neg (by simp [hopen]; omega)]
  dsimp only
  rw [hhead]
  dsimp only
  rw [hcs]
  cases cs with
  | nil => exact absurd rfl hne
  | cons => rfl

/-- The deadline against which a missed drain is decided again: that of the record for which its core is reserved (R312). -/
def State.drainDue (s : State) (l : Lot) : Nat :=
  match s.reserves.find? fun r => r.mordant && r.cores.contains l.core with
  | some r => (s.launch r.launch).deadline
  | none => s.tick

section
variable {s : State} {n : Nat} {l : Lot} (hl : amGet s.lots n = some l)
include hl

/-- A dispatcher that rebuilds its tables decides nothing (R367). -/
theorem drainDeadline_rebuilding (hact : l.act = some .drain) (hre : s.rebuilding l.die = true) :
    exec (.drainDeadline n) s = .next s := by
  change execDrainDeadline n s = _
  cases hfree : l.freeAt <;> simp [execDrainDeadline, hl, hact, hfree, hre]

theorem drainDeadline_decides {t : Nat} (hres : l.resident = true) (hact : l.act = some .drain) (hfree : l.freeAt = some t)
    (ht : t ≤ s.tick) (hre : s.rebuilding l.die = false) : exec (.drainDeadline n) s =
      .next (((s.planOf n (s.drainDue l) true).map (s.applyPlan n)).getD (s.updLot n fun l => { l with freeAt := none })) := by
  change execDrainDeadline n s = _
  simp only [execDrainDeadline, hl, hact, hfree, hres, hre, Bool.not_true, Bool.false_or, Bool.or_false]
  rw [if_neg (by simpa using ht)]
  change (match s.planOf n (s.drainDue l) true with
    | some p => Host.Outcome.next (s.applyPlan n p)
    | none => Host.Outcome.next (s.updLot n fun l => { l with freeAt := none })) = _
  cases s.planOf n (s.drainDue l) true <;> rfl

/-! ### Flush (R305) -/

theorem flushLot_discards (hst : l.status = .flushing) (hunit : s.unitOf n = [n]) (hquiet : s.quiet n = true)
    (hvat : (s.launch l.launch).vatSize = 0) : exec (.flushLot n) s =
      .next (((s.discard n).updLaunch l.launch fun ln =>
        { ln.relog [l.idx] with recs := (false, l.idx, l.estimate) :: ln.recs }).frontSince (s.launch l.launch).q
          (s.front (s.launch l.launch).q)) := by
  have hone : ([l.idx] : List Nat).eraseDups = [l.idx] := by simp [List.eraseDups_cons]
  change execFlushLot n s = _
  simp only [execFlushLot, hl, hunit, hst, hquiet, hvat, List.all_cons, List.all_nil, List.map_cons, List.map_nil, List.foldl_cons,
    List.foldl_nil, State.lot_of_get hl, hone, bne_self_eq_false, Bool.and_true, Bool.not_true, Bool.or_false, Bool.false_eq_true,
    if_false, List.cons_append, List.nil_append]

/-! ### Save (R243, R306) -/

/-- The save of a running lot begins: its skeins are asked to park (log entries 52 and 105). -/
theorem saveRequest_begins (hact : l.act = some .save) (hst : l.status = .running) (hunit : s.unitOf n = [n]) :
    exec (.saveRequest n) s = .next { s.setLot n { l with status := .saving } with
      skeins := amMap (fun _ (k : Skein) => if k.lot == n then k.ask l.partner.isSome else k) s.skeins } := by
  change execSaveRequest n s = _
  simp [execSaveRequest, hl, hact, hst, hunit, State.lot_of_get hl, State.updLot_of_get hl, State.lot_setLot]

variable (hst : l.status = .saving) (hunit : s.unitOf n = [n]) (hrest : ∀ e ∈ s.skeins, e.2.lot = n → e.2.atRest = true)
include hst hunit hrest

/-- A unit whose skeins rest stops the engine and goes on to the save, or waits for what is not at rest yet. -/
theorem saveComplete_stops : exec (.saveComplete n) s =
    if !(s.stopMma n).saveReady n then .next (s.stopMma n)
    else
      let u := ((s.stopMma n).saveUnit [n]).frontSince ((s.stopMma n).launch l.launch).q
        ((s.stopMma n).front ((s.stopMma n).launch l.launch).q)
      .next (if (((s.stopMma n).die l.die).stopped && !(s.stopMma n).fenced l.die) && (u.lot n).status == .saved
        then u.movedEntry n else u) := by
  have hall : (s.skeins.all fun e => !([n] : List Nat).contains e.2.lot || e.2.atRest) = true := by
    simp only [List.all_eq_true, List.contains_cons, List.contains_nil, Bool.or_false, Bool.or_eq_true, Bool.not_eq_true',
      beq_eq_false_iff_ne]
    exact fun e he => Classical.or_iff_not_imp_left.mpr fun h => hrest e he (by simpa using h)
  change execSaveComplete n s = _
  simp only [execSaveComplete, hl, hunit, hst, hall, List.all_cons, List.all_nil, List.foldl_cons, List.foldl_nil, State.lot_of_get hl,
    bne_self_eq_false, beq_self_eq_true, Bool.and_true, Bool.not_true, Bool.or_false, Bool.false_eq_true, if_false]

theorem saveComplete_waits (hready : (s.stopMma n).saveReady n = false) : exec (.saveComplete n) s = .next (s.stopMma n) := by
  rw [saveComplete_stops hl hst hunit hrest, hready]
  rfl

theorem saveComplete_saves (hready : (s.stopMma n).saveReady n = true) (hdie : ((s.stopMma n).die l.die).stopped = false) :
    exec (.saveComplete n) s = .next (((s.stopMma n).saveUnit [n]).frontSince ((s.stopMma n).launch l.launch).q
      ((s.stopMma n).front ((s.stopMma n).launch l.launch).q)) := by
  rw [saveComplete_stops hl hst hunit hrest, hready, hdie]
  rfl

end

/-! ### Resumption (R310, R311) -/

theorem findSome?_range_of_first {α : Type} {f : Nat → Option α} {d : Nat} {a : α} (hlow : ∀ j, j < d → f j = none) (h : f d = some a)
    (m : Nat) : d < m → (List.range m).findSome? f = some a := by
  induction m with
  | zero => exact fun hd => absurd hd (Nat.not_lt_zero d)
  | succ m ih =>
    intro hd
    rw [List.range_succ, List.findSome?_append]
    obtain hlt | rfl := Nat.lt_succ_iff_lt_or_eq.mp hd
    · rw [ih hlt, Option.some_or]
    · rw [List.findSome?_eq_none_iff.mpr fun j hj => hlow j (List.mem_range.mp hj), Option.none_or, List.findSome?_singleton, h]

/-- The lowest open die of the partition draws for the resumption. -/
theorem resumeLot_places {s t u : State} {n d q id : Nat} (hd : d < 8) (hlow : ∀ j, j < d → s.dieOpen j (s.partOfDie j) = false)
    (hopen : s.dieOpen d (s.partOfDie d) = true) (hdraw : s.draw d = (t, some (q, id)))
    (hnext : (t.launch id).nextUnit = some (.resume n)) (hplace : t.placeNext d id = some u) :
    exec (.resumeLot n) s = .next (t.drawn u q id) := by
  change execResumeLot n s = _
  unfold execResumeLot
  dsimp only
  rw [findSome?_range_of_first (d := d) (a := t.drawn u q id) ?low ?first 8 hd, Option.getD_some]
  case low =>
    intro j hj
    rw [hlow j hj]
    rfl
  case first =>
    rw [hopen, hdraw]
    dsimp only
    rw [hnext, hplace, if_pos (beq_self_eq_true _)]
    rfl

end Sys2Proof.Machine

open Sys2Proof Sys2Proof.Machine

/-- Settles O58: each clause is the event's own branch where its premises hold; of a resumption, that of the lowest open die. -/
theorem preemptionEvents : Obligations.PreemptionEvents := by
  refine ⟨?decide, fun s n t l hl hres => ⟨?rebuilding, ?drain, ?flush, ?request, ?complete⟩, ?resume⟩
  case decide =>
    exact fun s d id cs hd hopen hhead hcs hne => mordantDecide_reserves hd hopen hhead hcs hne
  case rebuilding => exact drainDeadline_rebuilding hl
  case drain =>
    intro hact hfree ht hre due
    have hdue : due = s.drainDue l := rfl
    rw [drainDeadline_decides hl hres hact hfree ht hre, hdue]
    cases s.planOf n (s.drainDue l) true <;> rfl
  case flush => exact flushLot_discards hl
  case request =>
    intro hact hst hunit
    exact ⟨_, saveRequest_begins hl hact hst hunit, State.lot_setLot s n _, rfl⟩
  case complete =>
    exact fun hst hunit hrest => ⟨saveComplete_waits hl hst hunit hrest, saveComplete_saves hl hst hunit hrest⟩
  case resume => exact fun s t u n d q id hd hlow hopen hdraw hnext hplace => resumeLot_places hd hlow hopen hdraw hnext hplace
end

section
/-! SUPPORT. Words of the hub's registers (R6): which of them a write, a trace record or a refill of budgets leaves, and fields beside the
one that is set. -/

namespace Sys2Proof.Machine

/-! ### Words and fields -/

theorem State.rd_congr {s t : State} (h : t.hub = s.hub) (a : Nat) : t.rd a = s.rd a := by
  rw [State.rd, State.rd, h]

theorem State.rd_wr_other (s : State) {off a : Nat} (h : a / 8 ≠ off / 8) (v : DWord) : (s.wr off v).rd a = s.rd a := by
  rw [State.rd, State.wr, amGet_amPut_other _ _ h, State.rd]

theorem State.rd_setFld_other (s : State) {off a : Nat} (h : a / 8 ≠ off / 8) (lo n v : Nat) : (s.setFld off lo n v).rd a = s.rd a :=
  s.rd_wr_other h _

/-- A field of a word reads its bits. -/
theorem fieldOf_congr {x y : DWord} {lo n : Nat} (h : ∀ i, lo ≤ i → i < lo + n → x.getLsbD i = y.getLsbD i) :
    fieldOf x lo n = fieldOf y lo n := by
  rw [fieldOf, fieldOf, bitsOf_eq_extractLsb', bitsOf_eq_extractLsb']
  exact congrArg BitVec.toNat (BitVec.eq_of_getLsbD_eq fun i hi => by
    rw [BitVec.getLsbD_extractLsb', BitVec.getLsbD_extractLsb', h _ (Nat.le_add_right lo i) (by omega)])

theorem getLsbD_setField_outside (x : DWord) {lo n i : Nat} (hout : i < lo ∨ lo + n ≤ i) (v : Nat) :
    (setField x lo n v).getLsbD i = x.getLsbD i := by
  by_cases hi : i < 64
  · rw [setField, BitVec.getLsbD_or, BitVec.getLsbD_and, BitVec.getLsbD_and, BitVec.getLsbD_not, getLsbD_fieldMask hi,
      decide_eq_false (show ¬(lo ≤ i ∧ i < lo + n) by omega)]
    simp [hi]
  · rw [BitVec.getLsbD_of_ge _ _ (by omega), BitVec.getLsbD_of_ge _ _ (by omega)]

/-- A field beside the one that is set keeps its value. -/
theorem State.fld_setFld_beside (s : State) (off : Nat) {lo n lo' n' : Nat} (hout : lo' + n' ≤ lo ∨ lo + n ≤ lo') (v : Nat) :
    (s.setFld off lo n v).fld off lo' n' = s.fld off lo' n' := by
  rw [State.fld, State.setFld, State.rd_wr]
  exact fieldOf_congr fun i hlo hhi => getLsbD_setField_outside _ (by omega) v

theorem State.fld_setFld_other (s : State) {off a : Nat} (h : a / 8 ≠ off / 8) (lo n v lo' n' : Nat) :
    (s.setFld off lo n v).fld a lo' n' = s.fld a lo' n' := by
  rw [State.fld, s.rd_setFld_other h, State.fld]

/-! ### What a write for a partition leaves -/

/-- A write of the hub's own leaves what neither memory, slices, skeins nor launches hold. -/
theorem State.homeWrite_keeps {β : Type} (g : State → β) (hslices : ∀ s : State, g s.beyondSlices = g s)
    (hskeins : ∀ (s : State) (ks : AMap Skein), g { s with skeins := ks } = g s)
    (hput : ∀ (s : State) (m : Memory) (se : AMap Triple) (po : List Nat) (ls : AMap Launch),
      g { s with mem := m, sectors := se, poison := po, launches := ls } = g s) (s : State) (part pa : Nat) (bs : List Byte)
    (t : Option Triple) : g (s.homeWrite part pa bs t) = g s := by
  rw [State.homeWrite, State.homeStore, ← hslices, State.sliceTouch_beyondSlices, hslices, State.homePut, State.trigger, hskeins]
  exact (hput (s.snapPages pa bs.length) _ _ _ _).trans (State.snapPages_keeps g hput s pa bs.length)

theorem State.homeWrite_hub (s : State) (part pa : Nat) (bs : List Byte) (t : Option Triple) : (s.homeWrite part pa bs t).hub = s.hub :=
  State.homeWrite_keeps State.hub (fun _ => rfl) (fun _ _ => rfl) (fun _ _ _ _ _ => rfl) s part pa bs t

theorem State.homeWrite_lakes (s : State) (part pa : Nat) (bs : List Byte) (t : Option Triple) :
    (s.homeWrite part pa bs t).lakes = s.lakes :=
  State.homeWrite_keeps State.lakes (fun _ => rfl) (fun _ _ => rfl) (fun _ _ _ _ _ => rfl) s part pa bs t

theorem State.homeWrite_dies (s : State) (part pa : Nat) (bs : List Byte) (t : Option Triple) :
    (s.homeWrite part pa bs t).dies = s.dies :=
  State.homeWrite_keeps State.dies (fun _ => rfl) (fun _ _ => rfl) (fun _ _ _ _ _ => rfl) s part pa bs t

/-! ### Trace records and failure entries -/

theorem State.ringPut_rd (s : State) (part : Nat) {blk a : Nat} (h : a / 8 ≠ blk / 8) (log : Nat) (e : BitVec 256) :
    (s.ringPut part blk log e).rd a = s.rd a := by
  rw [State.ringPut, State.rd_setFld_other _ h, State.rd_congr (s.homeWrite_hub ..)]

theorem State.ringPut_lakes (s : State) (part blk log : Nat) (e : BitVec 256) : (s.ringPut part blk log e).lakes = s.lakes := by
  rw [State.ringPut, State.setFld_lakes, State.homeWrite_lakes]

theorem State.ringPut_dies (s : State) (part blk log : Nat) (e : BitVec 256) : (s.ringPut part blk log e).dies = s.dies := by
  rw [State.ringPut, State.setFld_dies, State.homeWrite_dies]

theorem State.trace_rd (s : State) {part a : Nat} (h : a / 8 ≠ (partRegs part + 0x10) / 8) (event record core skein : Nat) :
    (s.trace part event record core skein).rd a = s.rd a := by
  unfold State.trace
  split
  · exact s.ringPut_rd part h _ _
  · rfl

theorem State.trace_lakes (s : State) (part event record core skein : Nat) : (s.trace part event record core skein).lakes = s.lakes := by
  unfold State.trace
  split
  · exact s.ringPut_lakes ..
  · rfl

theorem State.failEntryAt_dies (s : State) (tick part slotAddr lot cause outcome die core replays dropped : Nat) (frame : DWord) :
    (s.failEntryAt tick part slotAddr lot cause outcome die core replays dropped frame).dies = s.dies := by
  unfold State.failEntryAt
  dsimp only
  split
  · exact s.ringPut_dies ..
  · rfl

/-! ### Refills of the budgets (R331) -/

/-- From `s` to `t` only cores and counts of clocks waited for budget have changed. -/
structure State.Refilled (t s : State) : Prop where
  rd : ∀ a, (∀ c, a / 8 ≠ coreCounter c 3 / 8) → t.rd a = s.rd a
  lakes : t.lakes = s.lakes
  stops : t.stops = s.stops

theorem State.Refilled.refl (s : State) : s.Refilled s := ⟨fun _ _ => rfl, rfl, rfl⟩

theorem State.Refilled.trans {s t u : State} (h : u.Refilled t) (h' : t.Refilled s) : u.Refilled s :=
  ⟨fun a ha => (h.rd a ha).trans (h'.rd a ha), h.lakes.trans h'.lakes, h.stops.trans h'.stops⟩

theorem State.updCore_refilled (s : State) (c : Nat) (f : Core → Core) : (s.updCore c f).Refilled s :=
  ⟨fun _ _ => State.rd_congr (by rw [State.updCore_hub]) _, by rw [State.updCore_lakes], by rw [State.updCore_stops]⟩

theorem State.countStall_refilled (s : State) (c : Nat) : (s.countStall c).Refilled s := by
  unfold State.countStall
  dsimp only
  split
  · split
    · exact (State.updCore_refilled _ c _).trans ⟨fun a ha => s.rd_wr_other (ha c) _, rfl, rfl⟩
    · exact .refl s
  · exact .refl s

theorem State.refillCore_refilled (s : State) (c : Nat) : (s.refillCore c).Refilled s :=
  (State.updCore_refilled _ c _).trans (s.countStall_refilled c)

theorem State.refillPart_refilled (s : State) (part : Nat) : (s.refillPart part).Refilled s :=
  List.foldlRecOn (motive := fun t => State.Refilled t s) s.cores _ (.refl s) fun t ht e _ => by
    split
    · exact (t.refillCore_refilled e.1).trans ht
    · exact ht

end Sys2Proof.Machine
end

section
/-! SUPPORT. Events of partitions, dies, registers and observation (R6, R317, R318, R328, R329, R334, R364, R367, R381, R401 to R403,
R410, R415, R417): what each event does where its premises hold. -/

namespace Sys2Proof.Machine

/-! ### The first word of a partition's block (R317, R318, R401) -/

section
variable {s : State} {part : Nat} {v : DWord} (hpart : part < 8)
include hpart

theorem partitionEnable_off (hv : v.getLsbD 8 = true) (hoff : s.partOn part = false) : exec (.partitionEnable part v) s =
    .next (if s.enableRefused part (fieldOf v 0 8) then (s.partWrite part v).setFld statusWord 3 1 1
      else (((s.partWrite part v).setFld (partBlock part) 8 1 1).setFld statusWord 3 1 0).reevaluateAll part) := by
  change execPartitionEnable part v s = _
  unfold execPartitionEnable
  rw [if_neg (by rw [hv]; simp; omega), hoff]
  exact (apply_ite _ _ _ _).symm

theorem partitionReset_off (hv : v.getLsbD 8 = false) (hoff : s.partOn part = false) :
    exec (.partitionReset part v) s = .next (s.partWrite part v) := by
  change execPartitionReset part v s = _
  unfold execPartitionReset
  rw [if_neg (by rw [hv]; simp; omega), hoff]
  rfl

end

theorem State.partWrite_rd (s : State) {part a : Nat} (v : DWord) (hblock : a / 8 ≠ partBlock part / 8)
    (hring : a / 8 ≠ (partRegs part + 0x10) / 8) (hcount : ∀ c, a / 8 ≠ coreCounter c 3 / 8) : (s.partWrite part v).rd a = s.rd a := by
  have hfields : ((s.refillPart part).partFields part v).rd a = s.rd a := by
    rw [State.partFields, State.rd_wr_other _ hblock, (s.refillPart_refilled part).rd a hcount]
  unfold State.partWrite
  dsimp only
  split
  · exact hfields
  · rw [State.trace_rd _ hring, hfields]

theorem State.partWrite_lakes (s : State) (part : Nat) (v : DWord) : (s.partWrite part v).lakes = s.lakes := by
  have hfields : ((s.refillPart part).partFields part v).lakes = s.lakes := (s.refillPart_refilled part).lakes
  unfold State.partWrite
  dsimp only
  split
  · exact hfields
  · rw [State.trace_lakes, hfields]

/-- The registers of a partition that a reset leaves: HEAD is TAIL, the RW fields are written, EN is 0 (R401). -/
def State.resetBlock (s : State) (part : Nat) (v : DWord) : State :=
  ((s.setFld (partBlock part + 48) 0 32 (s.cmdTail part)).partWrite part v).setFld (partBlock part) 8 1 0

theorem State.resetBlock_partOn (s : State) (part : Nat) (v : DWord) : (s.resetBlock part v).partOn part = false := by
  rw [State.partOn, State.resetBlock, State.fld_setFld _ _ (by omega)]
  rfl

theorem State.resetBlock_lakes (s : State) (part : Nat) (v : DWord) : (s.resetBlock part v).lakes = s.lakes := by
  rw [State.resetBlock, State.setFld_lakes, State.partWrite_lakes, State.setFld_lakes]

theorem State.resetBlock_ring (s : State) (part : Nat) (v : DWord) :
    (s.resetBlock part v).cmdHead part = s.cmdTail part ∧ (s.resetBlock part v).cmdTail part = s.cmdTail part := by
  have hword : (s.resetBlock part v).rd (partBlock part + 48) =
      (s.setFld (partBlock part + 48) 0 32 (s.cmdTail part)).rd (partBlock part + 48) := by
    rw [State.resetBlock, State.rd_setFld_other _ (by unfold partBlock; omega), State.partWrite_rd]
    · unfold partBlock; omega
    · unfold partBlock partRegs; omega
    · unfold partBlock coreCounter; omega
  have hfld (lo n : Nat) : (s.resetBlock part v).fld (partBlock part + 48) lo n =
      (s.setFld (partBlock part + 48) 0 32 (s.cmdTail part)).fld (partBlock part + 48) lo n := congrArg (fieldOf · lo n) hword
  have hsmall : s.cmdTail part < 2 ^ 32 := Nat.mod_lt _ (by omega)
  constructor
  · rw [State.cmdHead, hfld, State.fld_setFld _ _ (by omega), Nat.mod_eq_of_lt hsmall]
  · rw [State.cmdTail, hfld, State.fld_setFld_beside _ _ (by omega), State.cmdTail]

/-- A reset of a running partition: its lakes are gone, its block is as above, and an entry says so (R401). -/
theorem partitionReset_running {s : State} {part : Nat} {v : DWord} (hpart : part < 8) (hv : v.getLsbD 8 = false)
    (hon : s.partOn part = true) : ∃ u : State, (∀ l ∈ u.lakes, l.part ≠ part) ∧
      exec (.partitionReset part v) s = .next ((u.resetBlock part v).failEntry part 0 0xFFFFFFFF 0xA3 0 0 0 0 0 0) := by
  change ∃ u : State, (∀ l ∈ u.lakes, l.part ≠ part) ∧ execPartitionReset part v s = _
  unfold execPartitionReset
  rw [if_neg (by rw [hv]; simp; omega), hon]
  refine ⟨_, ?_, rfl⟩
  exact fun l hl => by simpa using (List.mem_filter.1 hl).2

/-- The first word of a partition's block is a register that the write of BAR0 takes for it. -/
theorem partWord_decoded {part : Nat} (hpart : part < 8) :
    ((0x0E0000 + 256 * part) % 8 != 0 || decide (2 * hub1 ≤ 0x0E0000 + 256 * part)) = false ∧
    (decide (0x0E0000 ≤ 0x0E0000 + 256 * part) && decide (0x0E0000 + 256 * part < 0x0E0800) && (0x0E0000 + 256 * part) % 256 == 0) = true ∧
    (0x0E0000 + 256 * part - 0x0E0000) / 256 = part := by
  refine ⟨?_, ?_, by omega⟩
  · rw [Bool.or_eq_false_iff, bne_eq_false_iff_eq, decide_eq_false_iff_not, hub1]
    omega
  · rw [Bool.and_eq_true, Bool.and_eq_true, decide_eq_true_eq, decide_eq_true_eq, beq_iff_eq]
    omega

theorem registerWrite_partBlock {s : State} {part : Nat} {v : DWord} (hpart : part < 8) (hrun : s.stopped = false) :
    exec (.registerWrite (0x0E0000 + 256 * part) v) s =
      if v.getLsbD 8 then exec (.partitionEnable part v) s else exec (.partitionReset part v) s := by
  obtain ⟨hin, hfirst, hindex⟩ := partWord_decoded hpart
  change execRegisterWrite (0x0E0000 + 256 * part) v s = _
  unfold execRegisterWrite
  rw [hin, hrun, hfirst, if_neg Bool.false_ne_true, if_neg Bool.false_ne_true, if_pos rfl, hindex]
  rfl

/-- Enabling through a register write while the clocks stand sets EN and no more (R417). -/
theorem registerWrite_enables_stopped {s : State} {part : Nat} {v : DWord} (hpart : part < 8) (hstop : s.stopped = true)
    (hv : v.getLsbD 8 = true) (hoff : s.partOn part = false) (hok : s.enableRefused part (fieldOf v 0 8) = false) :
    exec (.registerWrite (0x0E0000 + 256 * part) v) s =
      .next (((s.partFields part v).setFld (partBlock part) 8 1 1).setFld statusWord 3 1 0) := by
  obtain ⟨hin, hfirst, hindex⟩ := partWord_decoded hpart
  have hblock : 0x0E0000 + 256 * part = partBlock part := by rw [partBlock, Nat.mod_eq_of_lt hpart]
  change execRegisterWrite (0x0E0000 + 256 * part) v s = _
  unfold execRegisterWrite
  rw [hin, hstop, if_neg Bool.false_ne_true, if_pos rfl, State.stoppedWrite]
  dsimp only
  rw [hfirst, if_pos rfl, hindex, hv, hoff, hok, hblock]
  rfl

/-! ### Dies and bring-up (R334, R367, R402, R403) -/

theorem State.fld_testBit (s : State) (off lo n i : Nat) : (s.fld off lo n).testBit i = (decide (i < n) && (s.rd off).getLsbD (lo + i)) := by
  rw [State.fld, fieldOf, bitsOf_eq_extractLsb', BitVec.testBit_toNat, BitVec.getLsbD_extractLsb']

theorem State.fenced_setFld (s : State) {d : Nat} (hd : d < 8) : (s.setFld statusWord (24 + d) 1 1).fenced d = true := by
  have hbit : ((s.setFld statusWord (24 + d) 1 1).fld statusWord (24 + d) 1).testBit 0 = true := by
    rw [State.fld_setFld _ _ (by omega)]
    rfl
  rw [State.fld_testBit, Bool.and_eq_true] at hbit
  rw [State.fenced, State.fld_testBit, decide_eq_true hd, Bool.true_and]
  exact hbit.2

theorem State.regap_dies (s : State) (id d : Nat) (led : Bool) : (s.regap id d led).dies = s.dies := by
  unfold State.regap
  dsimp only
  split
  · split
    · split
      · simp only [State.updLaunch_dies]
      · rw [State.failEntry, State.failEntryAt_dies, State.updLaunch_dies, State.updLaunch_dies]
    · rw [State.updLaunch_dies]
  · rw [State.updLaunch_dies]

theorem dieFenceByDevice_fences {s : State} {d : Nat} (hd : d < 8) (hopen : s.fenced d = false) (lost : Bool) :
    ∃ t, exec (.dieFenceByDevice d lost) s = .next t ∧ t.fenced d = true ∧ (t.die d).stopped = true ∧ (t.die d).l2Lost = lost ∧
      ∀ r ∈ t.reserves, r.die ≠ d := by
  have hdie (u : State) (ids : List Nat) (led : Bool) : (ids.foldl (fun t id => t.regap id d led) u).die d = u.die d :=
    foldl_keeps (fun t : State => t.die d) _ (fun t id => by rw [State.die, State.regap_dies, State.die]) ids u
  change ∃ t, execDieFenceByDevice d lost s = _ ∧ _
  unfold execDieFenceByDevice
  rw [if_neg (by simp [hopen]; omega)]
  refine ⟨_, rfl, State.fenced_setFld _ hd, ?_, ?_, fun r hr => by simpa using (List.mem_filter.1 hr).2⟩
  · exact (congrArg Die.stopped (hdie _ _ _)).trans (by simp [State.die, State.updDie])
  · exact (congrArg Die.l2Lost (hdie _ _ _)).trans (by simp [State.die, State.updDie])

theorem schedStateRecovery_records {s : State} {d : Nat} (hd : d < 8) (hopen : s.fenced d = false) : exec (.schedStateRecovery d) s =
    .next ((s.failEntry (s.partOfDie d) 0 0xFFFFFFFF 0x85 0 d 0 0 0 0).updDie d fun e => { e with rebuild := true }) := by
  change execSchedStateRecovery d s = _
  exact if_neg (by simp [hopen]; omega)

/-- PKG is written once (R334). -/
theorem pkgWrite_once (s : State) (v : BitVec 10) : ∃ t, exec (.pkgWrite v) s = .next t ∧ t.pkgSet = true ∧
    t.pkg = if s.pkgSet then s.pkg else v.toNat := by
  refine ⟨_, rfl, ?_⟩
  split
  case isTrue h => exact ⟨h, rfl⟩
  case isFalse =>
    have hfld := s.fld_setFld statusWord (lo := 32) (n := 10) (by omega) v.toNat
    exact ⟨rfl, hfld.trans (Nat.mod_eq_of_lt v.isLt)⟩

theorem selfTestComplete_ready (s : State) (dies : BitVec 8) : ∃ u, exec (.selfTestComplete dies) s = .next u ∧ u.moduleReady = true ∧
    u.fld statusWord 16 8 = dies.toNat := by
  refine ⟨_, rfl, ?_, ?_⟩
  · rw [State.moduleReady, State.fld_setFld _ _ (by omega)]
    rfl
  · rw [State.fld_setFld_beside _ _ (by omega), State.fld_setFld _ _ (by omega), Nat.mod_eq_of_lt dies.isLt]

/-! ### Register writes (R6) -/

/-- A word with its RW fields set from another. -/
def rwWord (off : Nat) (old v : DWord) : DWord := (old &&& ~~~(rwMask off)) ||| (v &&& rwMask off)

/-- The machine before a write of a mode word: the budgets of its partition are refilled (R331). -/
def State.modeRefilled (s : State) (off : Nat) : State :=
  if 0x0F0000 ≤ off && off < 0x0F0200 && off % 64 == 8 then s.refillPart ((off - 0x0F0000) / 64) else s

theorem State.modeRefilled_refilled (s : State) (off : Nat) : (s.modeRefilled off).Refilled s := by
  unfold State.modeRefilled
  split
  · exact s.refillPart_refilled _
  · exact .refl s

/-- No mode word counts clocks. -/
theorem State.modeRefilled_rd (s : State) (off : Nat) : (s.modeRefilled off).rd off = s.rd off := by
  unfold State.modeRefilled
  split
  next hmode =>
    simp only [Bool.and_eq_true, decide_eq_true_eq] at hmode
    exact (s.refillPart_refilled _).rd off fun c => by unfold coreCounter; omega
  next => rfl

theorem State.recordStop_none {s : State} (h : s.stops = []) (part : Nat) : s.recordStop part = s := by
  simp [State.recordStop, h, amGet]

theorem State.fieldsWrite_hub {s : State} (hstops : s.stops = []) (off : Nat) (v : DWord) :
    (s.fieldsWrite off v).hub = ((s.modeRefilled off).wr off (rwWord off ((s.modeRefilled off).rd off) v)).hub := by
  have hnone (part : Nat) (x : DWord) : ((s.modeRefilled off).wr off x).recordStop part = (s.modeRefilled off).wr off x :=
    State.recordStop_none (s := (s.modeRefilled off).wr off x) ((s.modeRefilled_refilled off).stops.trans hstops) part
  unfold State.fieldsWrite
  dsimp only
  rw [← State.modeRefilled, hnone, ite_self]
  split <;> rfl

/-- The word written has its RW fields set, and of the others those that count clocks alone may have moved. -/
theorem State.fieldsWrite_rd {s : State} (hstops : s.stops = []) (off : Nat) (v : DWord) :
    (s.fieldsWrite off v).rd off = rwWord off (s.rd off) v ∧
      ∀ a, a / 8 ≠ off / 8 → (∀ c, a / 8 ≠ coreCounter c 3 / 8) → (s.fieldsWrite off v).rd a = s.rd a := by
  constructor
  · rw [State.rd_congr (State.fieldsWrite_hub hstops off v), State.rd_wr, State.modeRefilled_rd]
  · intro a ha hcount
    rw [State.rd_congr (State.fieldsWrite_hub hstops off v), State.rd_wr_other _ ha, (s.modeRefilled_refilled off).rd a hcount]

section
variable {s : State} {off : Nat} {v : DWord} (halign : off % 8 = 0) (hin : off < 2 * hub1)
  (hblock : ¬(0x0E0000 ≤ off ∧ off < 0x0E0800 ∧ off % 256 = 0)) (hstatus : off ≠ statusWord) (htail : tailQueue off = none)
include halign hin hblock hstatus htail

theorem registerWrite_stopped (hstop : s.stopped = true) : exec (.registerWrite off v) s = .next (s.wr off (rwWord off (s.rd off) v)) := by
  change execRegisterWrite off v s = _
  unfold execRegisterWrite
  rw [if_neg (by simp [halign]; omega), hstop, if_pos rfl, State.stoppedWrite]
  dsimp only
  rw [if_neg (by simpa [and_assoc] using hblock), if_neg hstatus, htail]
  rfl

theorem registerWrite_fields (hrun : s.stopped = false) (hlink : off ≠ linkWord false) (hlink' : off ≠ linkWord true)
    (hreply : replyPart off = none) : exec (.registerWrite off v) s = .next (s.fieldsWrite off v) := by
  change execRegisterWrite off v s = _
  unfold execRegisterWrite
  rw [if_neg (by simp [halign]; omega), hrun, if_neg Bool.false_ne_true, if_neg (by simpa [and_assoc] using hblock), if_neg hstatus,
    if_neg (by simp [hlink, hlink']), hreply, htail]

end

/-! ### The stop (R417) -/

theorem tickStop_stops {s : State} (harmed : s.fld stopWord 0 1 = 1) (hdue : (s.rd (stopWord + 8)).toNat ≤ s.tick) :
    ∃ t, exec .tickStop s = .next t ∧ t.stopped = true ∧ t.mem = s.mem := by
  have hstop : s.tickStop = s.setFld stopWord 8 1 1 := if_pos (by simp [State.stopDue, harmed, hdue])
  refine ⟨s.setFld stopWord 8 1 1, congrArg Host.Outcome.next hstop, ?_, rfl⟩
  rw [State.stopped, State.fld_setFld _ _ (by omega)]
  rfl

/-! ### Observation (R328, R329, R410, R415) -/

/-- What is done for the partition that has a core's die, if one has it. -/
def State.forOwner (s : State) (c : Nat) (t : State) (f : Nat → State) : State :=
  match s.ownerOfDie (c / 64) with
  | some part => f part
  | none => t

theorem pcSample_oldest {s : State} {c : Nat} {d : PcDue} {ds : List PcDue} (hdue : (s.core c).due = d :: ds) :
    exec (.pcSample c) s = .next (s.forOwner c (s.updCore c fun k => { k with due := ds }) fun part =>
      (s.updCore c fun k => { k with due := ds }).sampleRecord part d.tick d.pc.toNat 0 0 c d.slot 0 d.state) := by
  change execPcSample c s = _
  unfold execPcSample
  rw [hdue]
  rfl

theorem memorySample_returned {s : State} {c : Nat} {m : Sample} (hm : ((s.core c).samples.find? fun m => !s.sampleOut c m) = some m) :
    exec (.memorySample c) s = .next (s.forOwner c (s.updCore c fun k => { k with samples := k.samples.erase m }) fun part =>
      (s.updCore c fun k => { k with samples := k.samples.erase m }).sampleRecord part m.tick m.pc.toNat (s.hops c part m) 0 c m.slot 1 0) := by
  change execMemorySample c s = _
  unfold execMemorySample
  rw [hm]
  rfl

/-- A dump that fits goes behind the one before, whole (R410). -/
theorem dumpWrite_fits {s : State} {part : Nat} {d : Dump} (hd : (s.dumps.find? fun d => d.part == part) = some d)
    (hfit : (amGet s.dumpPos part).getD 0 + (64 + (s.dumpBody d (s.rd (dumpBlock part + 8)).toNat).length) ≤
      1048576 * s.fld (dumpBlock part) 16 8) :
    let blk := dumpBlock part
    let start := (s.rd (blk + 8)).toNat
    let area := 1048576 * s.fld blk 16 8
    let bytes := 64 + (s.dumpBody d start).length
    let pos := (amGet s.dumpPos part).getD 0
    let base := start + pos
    let w := (s.homeWrite part (base + 64) ((s.dumpBody d base).take (area - 64)) none).homeWrite part base
        (dumpHeader d d.code d.tick d.lotIdx d.second.length bytes false) none
    let u : State := { w with dumps := w.dumps.erase d, dumpPos := amPut w.dumpPos part (pos + bytes) }
    exec (.dumpWrite part) s = .next ((u.setFld blk 32 32 ((u.fld blk 32 32 + 1) % 2 ^ 32)).dumpsQueued part) := by
  change execDumpWrite part s = _
  unfold execDumpWrite
  rw [hd]
  dsimp only
  rw [if_pos hfit, decide_eq_false (by omega), if_neg Bool.false_ne_true]

/-! ### Soft errors (R364, R365, R381, R390, R394) -/

section
variable (s : State)

theorem softError_scratch_poisons (n w : Nat) {b : BitVec 32} (h : 2 ≤ ones b) :
    exec (.softError (.scratch n w b)) s = .next (s.updLot n fun l => { l with poison := insNat l.poison w }) := by
  change execSoftError (.scratch n w b) s = _
  exact congrArg _ (if_pos h)

theorem softError_scratch_counts (n w : Nat) {b : BitVec 32} (h : ones b = 1) :
    exec (.softError (.scratch n w b)) s = .next (s.count (eccCounter (s.lot n).core) 1) := by
  change execSoftError (.scratch n w b) s = _
  exact congrArg _ ((if_neg (by omega)).trans (if_pos h))

theorem softError_sector_poisons (pa : Nat) {b : BitVec 128} (h : 2 ≤ ones b) :
    exec (.softError (.sector pa b)) s = .next { s with poison := insNat s.poison (pa / 16) } := by
  change execSoftError (.sector pa b) s = _
  exact congrArg _ (if_pos h)

theorem softError_sector_counts (pa : Nat) {b : BitVec 128} (h : ones b = 1) :
    exec (.softError (.sector pa b)) s = .next (s.count (eccCounter (64 * stackOf pa)) 1) := by
  change execSoftError (.sector pa b) s = _
  exact congrArg _ ((if_neg (by omega)).trans (if_pos h))

theorem softError_staging {c n : Nat} {h : Shuffle} (hh : (s.shuffles.find? fun h => h.core == c && h.launch == n) = some h) :
    exec (.softError (.staging c n)) s = .next (s.domainBad h) := by
  change execSoftError (.staging c n) s = _
  rw [execSoftError, hh]

theorem Tile.elem_setElem (t : Tile) (i j : Nat) (v : Word) : (t.setElem i j v).elem i j = v := by
  unfold Tile.elem Tile.setElem
  dsimp only
  split
  next h => rw [amGet_amErase, if_pos rfl, Option.getD_none, beq_iff_eq.1 h]
  next => rw [amGet_amPut_same, Option.getD_some]

/-- An element of a tile that a core has flips (R390). -/
theorem softError_elem (c tl i j : Nat) (b : Word) : ∃ t, exec (.softError (.elem c tl i j b)) s = .next t ∧
    (tl < (s.core c).tiles.length → ((t.core c).tile tl).elem i j = ((s.core c).tile tl).elem i j ^^^ b) := by
  refine ⟨_, rfl, fun hlen => ?_⟩
  rw [State.core_updCore]
  simp only [Core.tile, List.getElem?_mapIdx, List.getElem?_eq_getElem hlen, Option.map_some, Option.getD_some, beq_self_eq_true, if_true,
    Tile.elem_setElem]

theorem State.setCmd_budget (c : Nat) (m : MCmd) :
    ((s.setCmd c m).core c).level = (s.core c).level ∧ ((s.setCmd c m).core c).refilled = (s.core c).refilled := by
  rw [State.setCmd, State.core_updCore]
  exact ⟨rfl, rfl⟩

theorem State.awaitBudget_budget (c : Nat) :
    ((s.awaitBudget c).core c).level = (s.core c).level ∧ ((s.awaitBudget c).core c).refilled = (s.core c).refilled := by
  unfold State.awaitBudget
  dsimp only
  split
  · split
    · split
      · exact s.setCmd_budget c _
      · exact ⟨rfl, rfl⟩
    · exact ⟨rfl, rfl⟩
  · exact ⟨rfl, rfl⟩

/-- LEVEL reads 0, and the refills due so far are spent (R394). -/
theorem softError_level (c : Nat) : ∃ t, exec (.softError (.level c)) s = .next t ∧ (t.core c).level = 0 ∧
    s.tick / 512 ≤ (t.core c).refilled := by
  refine ⟨s.levelFail c, rfl, ?_⟩
  obtain ⟨hlevel, hrefilled⟩ := ((s.refillCore c).updCore c fun u => { u with level := 0 }).awaitBudget_budget c
  rw [State.core_updCore] at hlevel hrefilled
  rw [State.levelFail, hlevel, hrefilled]
  exact ⟨rfl, (le_max_right _ _).trans_eq (s.refillCore_budget c).2.symm⟩

end

end Sys2Proof.Machine

open Sys2Proof Sys2Proof.Machine

/-- Settles O59: each clause is the event's own branch where its premises hold; a trace record, a refill of budgets and a failure entry leave
the words that the clauses read. -/
theorem partitionAndRegisterEvents : Obligations.PartitionAndRegisterEvents := by
  refine ⟨fun s part v hpart => ⟨partitionEnable_off hpart, partitionReset_off hpart, ?reset, registerWrite_partBlock hpart⟩,
    fun s d lost hd hopen => ⟨dieFenceByDevice_fences hd hopen lost, schedStateRecovery_records hd hopen⟩, ?bringup, ?enables, ?register,
    fun s harmed hdue => tickStop_stops harmed hdue, fun s => ⟨_, rfl, rfl, rfl, rfl, rfl, rfl, rfl⟩,
    fun s c hc => ⟨?pc, ?memory⟩, fun s part d hd => dumpWrite_fits hd, ?soft⟩
  case reset =>
    intro hv hon
    obtain ⟨u, hlakes, hreset⟩ := partitionReset_running hpart hv hon
    obtain ⟨hhead, htail⟩ := u.resetBlock_ring part v
    exact ⟨u.resetBlock part v, u.resetBlock_partOn part v, hhead.trans htail.symm,
      fun l hl => hlakes l (u.resetBlock_lakes part v ▸ hl), hreset⟩
  case bringup =>
    intro s v dies
    obtain ⟨t, hpkg, hset, hread⟩ := pkgWrite_once s v
    obtain ⟨u, htest, hready, hdies⟩ := selfTestComplete_ready s dies
    exact ⟨t, u, hpkg, hset, hread, htest, hready, hdies⟩
  case enables =>
    intro s part v hpart hstop hv hoff hok
    refine ⟨_, registerWrite_enables_stopped hpart hstop hv hoff hok, ?_, State.fld_setFld _ _ (by omega) _⟩
    rw [State.partOn, State.fld_setFld_other _ (by unfold partBlock statusWord; omega), State.fld_setFld _ _ (by omega)]
    rfl
  case register =>
    intro s off v halign hin hblock hstatus hlink hlink' hreply htail hstops
    cases hstop : s.stopped with
    | true => exact ⟨_, registerWrite_stopped halign hin hblock hstatus htail hstop, s.rd_wr off _, fun a ha _ => s.rd_wr_other ha _⟩
    | false => exact ⟨_, registerWrite_fields halign hin hblock hstatus htail hstop hlink hlink' hreply, State.fieldsWrite_rd hstops off v⟩
  case pc => exact fun d ds hdue => pcSample_oldest hdue
  case memory => exact fun m hm => memorySample_returned hm
  case soft =>
    intro s c q lane r n w pa tl i j h b wide p
    obtain ⟨t, helem, hflip⟩ := softError_elem s c tl i j b
    exact ⟨rfl, rfl, rfl, rfl, fun h hh => softError_staging s hh, rfl, softError_scratch_poisons s n w, softError_scratch_counts s n w,
      softError_sector_counts s pa, softError_sector_poisons s pa, ⟨t, helem, fun _ _ => hflip⟩, softError_level s c⟩
end
